-- ==== Sys2Proof/Word.lean ====
section
/-! DEFINITION. Word types and their plainest arithmetic. -/

namespace Sys2Proof

/-- A byte. -/
abbrev Byte := BitVec 8

/-- A 32-bit word. -/
abbrev W32 := BitVec 32

/-- A 64-bit word: scalar registers, addresses, system registers (R40, R47). -/
abbrev W64 := BitVec 64

/-- The 512 bytes of one vector entry, byte 0 in bits 7 to 0 (R40, R61). -/
abbrev VData := BitVec 4096

end Sys2Proof
end

