-- ==== Sys2Proof/Config.lean ====
section
/-! DEFINITION. What an implementation fixes and the free values: constants without a body, of which no proof can
know a value. -/

namespace Sys2Proof

/-- The values the spec leaves open, numbered by a counter in the state (DESIGN CHOICE, assumption log entry 6). -/
opaque Config.freeWord : Nat → BitVec 64

/-- The hash of a match key that chooses a partition of Mash, which programs do not see (R271; DESIGN CHOICE, assumption log entry 20). -/
opaque Config.partition : List Nat → Nat

/-- What the boot ROM finds of an image (R363): 0 good, 1 signature, 2 key hash, 3 security version, 4 image format. The signature
scheme's encoding, the trailer's layout and the fuses are not in the spec (DESIGN CHOICE, assumption log entry 37). -/
opaque Config.imageVerdict : List (BitVec 8) → Nat

/-- The digest of the scheduler part that the trailer of a boot image holds (R363; DESIGN CHOICE, assumption log entry 37). -/
opaque Config.schedulerDigest : List (BitVec 8) → BitVec 256

/-- The length of the image that an update finds in the boot window (R420; DESIGN CHOICE, assumption log entry 37). -/
opaque Config.updateLength : List (BitVec 8) → Nat

/-- The handover format that the image of a digest writes (R421; DESIGN CHOICE, assumption log entry 37). -/
opaque Config.formatWritten : BitVec 256 → Nat

/-- The least and greatest handover format that the trailer of the image of a digest declares (R421; assumption log
entry 37). -/
opaque Config.formatsRead : BitVec 256 → Nat × Nat

/-- The length of a handover structure, numbered by a counter in the state: what follows its first three fields has no layout in the spec (R421;
DESIGN CHOICE, assumption log entry 37). -/
opaque Config.handoverLength : Nat → Nat

/-- Whether the identity chain of another package's device verifies from the vendor root (R364, R418; DESIGN CHOICE, assumption log entry 35). -/
opaque Config.peerVerified : Nat → Bool

/-- The physical location by which a corrected error names an SRAM bank (kind 0) or an HBM row (kind 1) from the number of the core or
block where it was found (R395; DESIGN CHOICE, assumption log entry 42). -/
opaque Config.errPlace : Nat → Nat → Nat

/-- The certificate chain in slot 0 of the SPDM responder (R364; PRESUMED, assumption log entry 38). -/
opaque Config.certChain : List (BitVec 8)

/-- Measurement block 1 (R364; PRESUMED, assumption log entry 38). -/
opaque Config.measurement : Nat → BitVec 256

/-- Measurement block 4: the fuses and the debug lock, which no event of the spec changes, and the IDE streams that hold keys (R364; PRESUMED,
assumption log entry 38). -/
opaque Config.securityState : List Nat → BitVec 256

/-- The fused limits of the trip: the temperatures of a die and of an HBM stack in 0.1 °C, and the current in amperes that a POWER_LIMIT of 0
stands for (R337; DESIGN CHOICE, assumption log entry 53). -/
opaque Config.fusedLimits : Nat × Nat × Nat

/-- The table of resident model slots as bytes: slot, CODE_HASH, pinned identities (R364; PRESUMED, assumption log entry 38). -/
opaque Config.slotTable : List (Nat × BitVec 64 × List (BitVec 128)) → List (BitVec 8)

/-- A signature of the SPDM responder over a transcript with a nonce, numbered by a counter in the state (R364; assumption log
entry 38). -/
opaque Config.spdmSign : Nat → BitVec 256 → BitVec 512

/-- Key shares of the SPDM responder, numbered by a counter in the state (R364; PRESUMED, assumption log entry 38). -/
opaque Config.keyShare : Nat → BitVec 512

/-- The secret that a key exchange with a peer's share gives, numbered by a counter in the state (R364; assumption log
entry 38). -/
opaque Config.sessionSecret : Nat → BitVec 512 → BitVec 256

/-- The secret after a key update (R364; PRESUMED, assumption log entry 38). -/
opaque Config.nextSecret : BitVec 256 → BitVec 256

/-- The check value of FINISH under a session secret (R364; PRESUMED, assumption log entry 38). -/
opaque Config.finishMac : BitVec 256 → BitVec 256

end Sys2Proof
end

