-- ==== Sys2Proof/Syntax.lean ====
section
/-! DEFINITION. The instruction syntax: one constructor of `Instr` per row of spec/opcode_table.json.
Words of the core classes (R28 to R39) and of sparge programs (R317) carry their operand fields; the
device's other steps (host commands, register writes, fabric packets, Kiln and Mash happenings) carry
the operands that the rule named at each gives them. -/

namespace Sys2Proof
/-- The operand sizes of memory words, R33. -/
inductive Size where
  | b
  | h
  | w
  | d
  deriving DecidableEq, Repr, Inhabited
/-- The size codes of SEXT and ZEXT, R31. -/
inductive ExtSize where
  | b
  | h
  | w
  deriving DecidableEq, Repr, Inhabited
/-- The scopes, R160. -/
inductive Scope where
  | path
  | thread
  | core
  | cluster
  | die
  | pkg
  | ctx
  | panel
  | pod
  | sys
  deriving DecidableEq, Repr, Inhabited
/-- The access orders, R50 and R33. -/
inductive Order where
  | rlx
  | acq
  | rel
  | ar
  deriving DecidableEq, Repr, Inhabited
/-- The atomic operations, R194. -/
inductive AOp where
  | add
  | and
  | or
  | xor
  | min
  | max
  | minu
  | maxu
  | swap
  | incw
  | decw
  deriving DecidableEq, Repr, Inhabited
/-- The PREF targets, R33. -/
inductive PrefTarget where
  | l1
  | msc
  | rlc
  deriving DecidableEq, Repr, Inhabited
/-- The RCM operations, R33. -/
inductive RcmOp where
  | wb
  | inv
  | wbinv
  deriving DecidableEq, Repr, Inhabited
/-- The strided element sizes, R34. -/
inductive ESize where
  | e8
  | e16
  | e32
  deriving DecidableEq, Repr, Inhabited
/-- The VATOMA types, R34. -/
inductive AtomTy where
  | i32
  | f32
  | bf16
  deriving DecidableEq, Repr, Inhabited
/-- The VCMP conditions, R36. -/
inductive Cond where
  | eq
  | ne
  | lt
  | le
  | gt
  | ge
  | unord
  | ord
  deriving DecidableEq, Repr, Inhabited
/-- The element type codes, R44 (code 7 is reserved). -/
inductive Ty where
  | f32
  | f16
  | bf16
  | e4m3
  | e5m2
  | e2m1
  | sq4
  | i8
  | i16
  | i32
  | i64
  | n8
  | n16
  | n32
  | n64
  deriving DecidableEq, Repr, Inhabited
/-- The VCVT rounding selects, R36. -/
inductive RSel where
  | vtype
  | rne
  | rtz
  | sr
  deriving DecidableEq, Repr, Inhabited
/-- The VRED operations, R36. -/
inductive RedOp where
  | add
  | min
  | max
  | and
  | or
  | xor
  deriving DecidableEq, Repr, Inhabited
/-- The rounding modes, R44. -/
inductive RMode where
  | rne
  | rtz
  | rup
  | rdn
  | rna
  deriving DecidableEq, Repr, Inhabited
/-- The operand memories of MX words, R37. -/
inductive MMem where
  | wb
  | ab
  | cb
  deriving DecidableEq, Repr, Inhabited
/-- The MDRAIN output types, R37. -/
inductive OutTy where
  | f32
  | bf16
  | f16
  deriving DecidableEq, Repr, Inhabited
/-- The CPRED types, R38. -/
inductive RedTy where
  | f32
  | bf16
  | i32
  deriving DecidableEq, Repr, Inhabited
/-- A trap occurrence as the raising rule names it (R367 to R370): cause, class and unit of TRAP_STATE,
TRAP_ADDR, TRAP_INFO, TRAP_PC, the version concerned, and the source of a peer or fabric access. -/
structure Trap where
  cause : BitVec 8
  cls : BitVec 2
  unit : BitVec 3
  addr : BitVec 64
  info : BitVec 64
  pc : BitVec 64
  ver : BitVec 20
  endpoint : BitVec 32
  srcRank : BitVec 8
  deriving DecidableEq, Repr, Inhabited

/-- What every inbound fabric packet names (R331, R334, R362): target endpoint and generation, logical thread
at the target, source endpoint, thread and flow, sequence number on the flow, and the flow's mode. -/
structure FabHdr where
  ep : BitVec 32
  gen : BitVec 16
  thread : BitVec 16
  srcEp : BitVec 32
  srcThread : BitVec 16
  flow : BitVec 6
  seq : Nat
  ordered : Bool
  deriving DecidableEq, Repr, Inhabited

/-- A marked access through a remote window (R185): a load, a store, an atomic, or a compare and swap of
1, 2, 4 or 8 bytes. -/
inductive MarkedOp where
  | load (size : Size)
  | store (size : Size) (val : BitVec 64)
  | atom (size : Size) (op : AOp) (val : BitVec 64)
  | cas (size : Size) (cmp val : BitVec 64)
  | fadd (ty : RedTy) (val : BitVec 32)
  deriving DecidableEq, Repr, Inhabited

/-- Where an uncorrectable error was found (R396). -/
inductive ErrSite where
  | hbm (block : Nat)
  | scratch (key block : Nat)
  | staging (block : Nat)
  | wb (key handle : Nat)
  | ab (key handle : Nat)
  | cbRow (key handle row : Nat)
  | regLine (key : Nat)
  | overlay (core slot : Nat)
  | flit (lane : Nat)
  | laneLost (lane : Nat)
  deriving DecidableEq, Repr, Inhabited

/-- The algorithm classes a NEGOTIATE_ALGORITHMS request offers (R364). -/
structure SpdmAlgs where
  sm2 : Bool
  sm3 : Bool
  sm2Dhe : Bool
  aes256gcm : Bool
  deriving DecidableEq, Repr, Inhabited
/-- The instructions and steps of the device. -/
inductive Instr where
  -- SC words
  | add (xd : BitVec 5) (xa : BitVec 5) (xb : BitVec 5)  -- ADD, R31, R238
  | sub (xd : BitVec 5) (xa : BitVec 5) (xb : BitVec 5)  -- SUB, R31, R238
  | and (xd : BitVec 5) (xa : BitVec 5) (xb : BitVec 5)  -- AND, R31, R238
  | or (xd : BitVec 5) (xa : BitVec 5) (xb : BitVec 5)  -- OR, R31, R238
  | xor (xd : BitVec 5) (xa : BitVec 5) (xb : BitVec 5)  -- XOR, R31, R238
  | andn (xd : BitVec 5) (xa : BitVec 5) (xb : BitVec 5)  -- ANDN, R31, R238
  | orn (xd : BitVec 5) (xa : BitVec 5) (xb : BitVec 5)  -- ORN, R31, R238
  | xnor (xd : BitVec 5) (xa : BitVec 5) (xb : BitVec 5)  -- XNOR, R31, R238
  | shl (xd : BitVec 5) (xa : BitVec 5) (xb : BitVec 5)  -- SHL, R31, R238
  | shr (xd : BitVec 5) (xa : BitVec 5) (xb : BitVec 5)  -- SHR, R31, R238
  | sra (xd : BitVec 5) (xa : BitVec 5) (xb : BitVec 5)  -- SRA, R31, R238
  | rol (xd : BitVec 5) (xa : BitVec 5) (xb : BitVec 5)  -- ROL, R31, R238
  | ror (xd : BitVec 5) (xa : BitVec 5) (xb : BitVec 5)  -- ROR, R31, R238
  | mul (xd : BitVec 5) (xa : BitVec 5) (xb : BitVec 5)  -- MUL, R31, R238
  | mulh (xd : BitVec 5) (xa : BitVec 5) (xb : BitVec 5)  -- MULH, R31, R238
  | mulhu (xd : BitVec 5) (xa : BitVec 5) (xb : BitVec 5)  -- MULHU, R31, R238
  | mulhsu (xd : BitVec 5) (xa : BitVec 5) (xb : BitVec 5)  -- MULHSU, R31, R238
  | div (xd : BitVec 5) (xa : BitVec 5) (xb : BitVec 5)  -- DIV, R31, R238
  | divu (xd : BitVec 5) (xa : BitVec 5) (xb : BitVec 5)  -- DIVU, R31, R238
  | rem (xd : BitVec 5) (xa : BitVec 5) (xb : BitVec 5)  -- REM, R31, R238
  | remu (xd : BitVec 5) (xa : BitVec 5) (xb : BitVec 5)  -- REMU, R31, R238
  | min (xd : BitVec 5) (xa : BitVec 5) (xb : BitVec 5)  -- MIN, R31, R238
  | max (xd : BitVec 5) (xa : BitVec 5) (xb : BitVec 5)  -- MAX, R31, R238
  | minu (xd : BitVec 5) (xa : BitVec 5) (xb : BitVec 5)  -- MINU, R31, R238
  | maxu (xd : BitVec 5) (xa : BitVec 5) (xb : BitVec 5)  -- MAXU, R31, R238
  | seq (xd : BitVec 5) (xa : BitVec 5) (xb : BitVec 5)  -- SEQ, R31, R238
  | slt (xd : BitVec 5) (xa : BitVec 5) (xb : BitVec 5)  -- SLT, R31, R238
  | sltu (xd : BitVec 5) (xa : BitVec 5) (xb : BitVec 5)  -- SLTU, R31, R238
  | clz (xd : BitVec 5) (xa : BitVec 5)  -- CLZ, R31, R238
  | ctz (xd : BitVec 5) (xa : BitVec 5)  -- CTZ, R31, R238
  | popc (xd : BitVec 5) (xa : BitVec 5)  -- POPC, R31, R238
  | brev (xd : BitVec 5) (xa : BitVec 5)  -- BREV, R31, R238
  | sext (xd : BitVec 5) (xa : BitVec 5) (size : ExtSize)  -- SEXT, R31, R238
  | zext (xd : BitVec 5) (xa : BitVec 5) (size : ExtSize)  -- ZEXT, R31, R238
  | addi (xd : BitVec 5) (xa : BitVec 5) (imm : BitVec 14)  -- ADDI, R31, R239
  | andi (xd : BitVec 5) (xa : BitVec 5) (imm : BitVec 14)  -- ANDI, R31, R239
  | ori (xd : BitVec 5) (xa : BitVec 5) (imm : BitVec 14)  -- ORI, R31, R239
  | xori (xd : BitVec 5) (xa : BitVec 5) (imm : BitVec 14)  -- XORI, R31, R239
  | shli (xd : BitVec 5) (xa : BitVec 5) (sh : BitVec 6)  -- SHLI, R31, R239
  | shri (xd : BitVec 5) (xa : BitVec 5) (sh : BitVec 6)  -- SHRI, R31, R239
  | srai (xd : BitVec 5) (xa : BitVec 5) (sh : BitVec 6)  -- SRAI, R31, R239
  | slti (xd : BitVec 5) (xa : BitVec 5) (imm : BitVec 14)  -- SLTI, R31, R239
  | sltiu (xd : BitVec 5) (xa : BitVec 5) (imm : BitVec 14)  -- SLTIU, R31, R239
  | muli (xd : BitVec 5) (xa : BitVec 5) (imm : BitVec 14)  -- MULI, R31, R239
  | lis (xd : BitVec 5) (imm : BitVec 19)  -- LIS, R31, R239
  | lihs (xd : BitVec 5) (imm : BitVec 19)  -- LIHS, R31, R239
  -- SB words
  | beq (xa : BitVec 5) (xb : BitVec 5) (off : BitVec 15)  -- BEQ, R32, R241
  | bne (xa : BitVec 5) (xb : BitVec 5) (off : BitVec 15)  -- BNE, R32, R241
  | blt (xa : BitVec 5) (xb : BitVec 5) (off : BitVec 15)  -- BLT, R32, R241
  | bge (xa : BitVec 5) (xb : BitVec 5) (off : BitVec 15)  -- BGE, R32, R241
  | bltu (xa : BitVec 5) (xb : BitVec 5) (off : BitVec 15)  -- BLTU, R32, R241
  | bgeu (xa : BitVec 5) (xb : BitVec 5) (off : BitVec 15)  -- BGEU, R32, R241
  | jal (xd : BitVec 5) (off : BitVec 20)  -- JAL, R32, R242
  | jalr (xd : BitVec 5) (xa : BitVec 5) (off : BitVec 15)  -- JALR, R32, R242
  | loop (xa : BitVec 5)  -- LOOP, R233
  | knext  -- KNEXT, R232
  | tend  -- TEND, R233
  | spawn (xa : BitVec 5) (xb : BitVec 5) (n : BitVec 10)  -- SPAWN, R227
  | join (g : BitVec 8)  -- JOIN, R245
  | leave (g : BitVec 8)  -- LEAVE, R245
  | bar (g : BitVec 8)  -- BAR, R246
  | gqry (xd : BitVec 5) (g : BitVec 8)  -- GQRY, R245
  | yield  -- YIELD, R253
  | tsub (xa : BitVec 5)  -- TSUB, R256
  | ckpt  -- CKPT, R236
  | movb (xd : BitVec 5) (n : BitVec 4)  -- MOVB, R255
  | gsel (g : BitVec 10)  -- GSEL, R245
  | waitf (f : BitVec 8) (n : BitVec 9)  -- WAITF, R250
  | setf (f : BitVec 8) (n : BitVec 9)  -- SETF, R250
  | clrf (f : BitVec 8)  -- CLRF, R250
  | waitfx (f : BitVec 8) (x : BitVec 5)  -- WAITFX, R250
  | fread (f : BitVec 8) (xd : BitVec 5)  -- FREAD, R250
  | waitc (l : BitVec 5) (s : BitVec 5) (c : BitVec 5) (t : BitVec 5)  -- WAITC, R252
  | tclr (x : BitVec 5)  -- TCLR, R254
  | tclrv (v : BitVec 6)  -- TCLRV, R254
  | tclrc  -- TCLRC, R254
  | tqry (xd : BitVec 5) (xa : BitVec 5)  -- TQRY, R254
  | sysrd (xd : BitVec 5) (reg : BitVec 10)  -- SYSRD, R399
  | syswr (xs : BitVec 5) (reg : BitVec 10)  -- SYSWR, R399
  | trap (code : BitVec 10)  -- TRAP, R400
  | bkpt (code : BitVec 10)  -- BKPT, R400
  | eret  -- ERET, R401
  | tlbinv (xa : BitVec 5) (xb : BitVec 5)  -- TLBINV, R352
  | wpset (xa : BitVec 5) (xb : BitVec 5) (n : BitVec 2)  -- WPSET, R428
  | wpclr (n : BitVec 2)  -- WPCLR, R428
  | cntclaim (xd : BitVec 5) (n : BitVec 10)  -- CNTCLAIM, R357
  | cntrel (n : BitVec 10)  -- CNTREL, R357
  | kegsave (xa : BitVec 5) (xb : BitVec 5)  -- KEGSAVE, R411
  | kegload (xa : BitVec 5) (xb : BitVec 5)  -- KEGLOAD, R411
  | flowdef (xa : BitVec 5) (f : BitVec 6)  -- FLOWDEF, R335
  | winset (xa : BitVec 5) (xb : BitVec 5) (w : BitVec 4)  -- WINSET, R201
  -- SM words
  | ld (size : Size) (xd : BitVec 5) (xa : BitVec 5) (imm : BitVec 13)  -- LD, R192
  | ldu (size : Size) (xd : BitVec 5) (xa : BitVec 5) (imm : BitVec 13)  -- LDU, R192
  | st (size : Size) (xs : BitVec 5) (xa : BitVec 5) (imm : BitVec 13)  -- ST, R192
  | lds (size : Size) (xd : BitVec 5) (xa : BitVec 5) (scope : Scope) (order : Order)  -- LDS, R193
  | sts (size : Size) (xs : BitVec 5) (xa : BitVec 5) (scope : Scope) (order : Order)  -- STS, R193
  | atomw (xd : BitVec 5) (xa : BitVec 5) (xb : BitVec 5) (op : AOp) (scope : Scope) (order : Order)  -- ATOMW, R194
  | atomd (xd : BitVec 5) (xa : BitVec 5) (xb : BitVec 5) (op : AOp) (scope : Scope) (order : Order)  -- ATOMD, R194
  | casw (xd : BitVec 5) (xa : BitVec 5) (xb : BitVec 5) (scope : Scope) (order : Order)  -- CASW, R195
  | casd (xd : BitVec 5) (xa : BitVec 5) (xb : BitVec 5) (scope : Scope) (order : Order)  -- CASD, R195
  | fence (ma : BitVec 8) (mb : BitVec 8) (scope : Scope)  -- FENCE, R155, R197
  | pref (tgt : PrefTarget) (xa : BitVec 5) (imm : BitVec 13)  -- PREF, R198
  | rcm (op : RcmOp) (xb : BitVec 5) (xa : BitVec 5)  -- RCM, R199
  -- VL words
  | vld (vd : BitVec 6) (xa : BitVec 5) (k : BitVec 3) (imm : BitVec 11)  -- VLD, R203
  | vlds (vd : BitVec 6) (xa : BitVec 5) (xb : BitVec 5) (k : BitVec 3) (es : ESize)  -- VLDS, R204
  | vldx (vd : BitVec 6) (xa : BitVec 5) (vb : BitVec 6) (iw : BitVec 2) (sgn : Bool) (sc : BitVec 2) (k : BitVec 3)  -- VLDX, R205
  | vbindi (vd : BitVec 6) (xa : BitVec 5)  -- VBINDI, R207
  | vunbindi (vd : BitVec 6)  -- VUNBINDI, R207
  | vldt (vd : BitVec 6) (xa : BitVec 5) (k : BitVec 3) (imm : BitVec 11)  -- VLDT, R203
  | vldb (vd : BitVec 6) (xa : BitVec 5) (k : BitVec 3) (imm : BitVec 11)  -- VLDB, R203
  | vlwait (f : BitVec 8) (n : BitVec 9)  -- VLWAIT, R39, R213
  | vlset (f : BitVec 8) (n : BitVec 9)  -- VLSET, R39, R213
  -- VS words
  | vst (vs : BitVec 6) (xa : BitVec 5) (k : BitVec 3) (imm : BitVec 11)  -- VST, R209
  | vsts (vs : BitVec 6) (xa : BitVec 5) (xb : BitVec 5) (k : BitVec 3) (es : ESize)  -- VSTS, R209
  | vstx (vs : BitVec 6) (xa : BitVec 5) (vb : BitVec 6) (iw : BitVec 2) (sgn : Bool) (sc : BitVec 2) (k : BitVec 3)  -- VSTX, R209
  | vbindo (vs : BitVec 6) (xa : BitVec 5)  -- VBINDO, R210
  | vunbindo (vs : BitVec 6)  -- VUNBINDO, R210
  | vstt (vs : BitVec 6) (xa : BitVec 5) (k : BitVec 3) (imm : BitVec 11)  -- VSTT, R209
  | vatoma (vs : BitVec 6) (xa : BitVec 5) (vb : BitVec 6) (ty : AtomTy) (k : BitVec 2) (scope : Scope)  -- VATOMA, R211
  | vstrw (vs : BitVec 6) (xo : BitVec 5) (k : BitVec 3)  -- VSTRW, R212
  | vswait (f : BitVec 8) (n : BitVec 9)  -- VSWAIT, R39, R213
  | vsset (f : BitVec 8) (n : BitVec 9)  -- VSSET, R39, R213
  -- VA words
  | vadd (vd : BitVec 6) (va : BitVec 6) (vb : BitVec 6) (mk : BitVec 3) (pa : Bool) (pb : Bool)  -- VADD, R91
  | vsub (vd : BitVec 6) (va : BitVec 6) (vb : BitVec 6) (mk : BitVec 3) (pa : Bool) (pb : Bool)  -- VSUB, R91
  | vmul (vd : BitVec 6) (va : BitVec 6) (vb : BitVec 6) (mk : BitVec 3) (pa : Bool) (pb : Bool)  -- VMUL, R91
  | vfma (vd : BitVec 6) (va : BitVec 6) (vb : BitVec 6) (mk : BitVec 3) (pa : Bool) (pb : Bool)  -- VFMA, R93
  | vfnma (vd : BitVec 6) (va : BitVec 6) (vb : BitVec 6) (mk : BitVec 3) (pa : Bool) (pb : Bool)  -- VFNMA, R93
  | vmin (vd : BitVec 6) (va : BitVec 6) (vb : BitVec 6) (mk : BitVec 3) (pa : Bool) (pb : Bool)  -- VMIN, R93
  | vmax (vd : BitVec 6) (va : BitVec 6) (vb : BitVec 6) (mk : BitVec 3) (pa : Bool) (pb : Bool)  -- VMAX, R93
  | vabs (vd : BitVec 6) (va : BitVec 6) (mk : BitVec 3) (pa : Bool)  -- VABS, R97
  | vneg (vd : BitVec 6) (va : BitVec 6) (mk : BitVec 3) (pa : Bool)  -- VNEG, R97
  | vdiv (vd : BitVec 6) (va : BitVec 6) (vb : BitVec 6) (mk : BitVec 3) (pa : Bool) (pb : Bool)  -- VDIV, R97
  | vsqrt (vd : BitVec 6) (va : BitVec 6) (mk : BitVec 3) (pa : Bool)  -- VSQRT, R97
  | vrsq (vd : BitVec 6) (va : BitVec 6) (mk : BitVec 3) (pa : Bool)  -- VRSQ, R97
  | vexp2 (vd : BitVec 6) (va : BitVec 6) (mk : BitVec 3) (pa : Bool)  -- VEXP2, R97
  | vlog2 (vd : BitVec 6) (va : BitVec 6) (mk : BitVec 3) (pa : Bool)  -- VLOG2, R97
  | vfclass (vd : BitVec 6) (va : BitVec 6) (mk : BitVec 3) (pa : Bool)  -- VFCLASS, R99
  | vcmp (kd : BitVec 3) (cond : Cond) (va : BitVec 6) (vb : BitVec 6) (mk : BitVec 3) (pa : Bool) (pb : Bool)  -- VCMP, R101
  | vsel (vd : BitVec 6) (va : BitVec 6) (vb : BitVec 6) (k : BitVec 2) (pa : Bool) (pb : Bool)  -- VSEL, R103
  | vand (vd : BitVec 6) (va : BitVec 6) (vb : BitVec 6) (mk : BitVec 3) (pa : Bool) (pb : Bool)  -- VAND, R96
  | vor (vd : BitVec 6) (va : BitVec 6) (vb : BitVec 6) (mk : BitVec 3) (pa : Bool) (pb : Bool)  -- VOR, R96
  | vxor (vd : BitVec 6) (va : BitVec 6) (vb : BitVec 6) (mk : BitVec 3) (pa : Bool) (pb : Bool)  -- VXOR, R96
  | vshl (vd : BitVec 6) (va : BitVec 6) (vb : BitVec 6) (mk : BitVec 3) (pa : Bool) (pb : Bool)  -- VSHL, R96
  | vshr (vd : BitVec 6) (va : BitVec 6) (vb : BitVec 6) (mk : BitVec 3) (pa : Bool) (pb : Bool)  -- VSHR, R96
  | vsra (vd : BitVec 6) (va : BitVec 6) (vb : BitVec 6) (mk : BitVec 3) (pa : Bool) (pb : Bool)  -- VSRA, R96
  | vcvt (vd : BitVec 6) (va : BitVec 6) (ty : Ty) (rs : RSel) (vr : BitVec 5)  -- VCVT, R109
  | vpack (vd : BitVec 6) (va : BitVec 6) (ty : Ty)  -- VPACK, R112
  | vunpk (vd : BitVec 6) (va : BitVec 6) (ty : Ty) (pa : Bool)  -- VUNPK, R112
  | vred (vd : BitVec 6) (va : BitVec 6) (op : RedOp) (k : BitVec 2) (pa : Bool)  -- VRED, R107
  | vargmax (vd : BitVec 6) (va : BitVec 6) (k : BitVec 2) (pa : Bool)  -- VARGMAX, R108
  | vperm (vd : BitVec 6) (va : BitVec 6) (vb : BitVec 6) (mk : BitVec 3) (pa : Bool) (pb : Bool)  -- VPERM, R104
  | vrot (vd : BitVec 6) (va : BitVec 6) (xb : BitVec 5) (mk : BitVec 3) (pa : Bool)  -- VROT, R105
  | vbcast (vd : BitVec 6) (xb : BitVec 5) (k : BitVec 2)  -- VBCAST, R105
  | vextr (vd : BitVec 6) (va : BitVec 6) (xb : BitVec 5) (mk : BitVec 3) (pa : Bool)  -- VEXTR, R105
  | viota (vd : BitVec 6) (k : BitVec 2)  -- VIOTA, R106
  | vmov (vd : BitVec 6) (va : BitVec 6) (mk : BitVec 3) (pa : Bool)  -- VMOV, R116
  | vdrop (va : BitVec 6) (n : BitVec 2)  -- VDROP, R117
  | vcnt (vd : BitVec 6) (va : BitVec 6) (mk : BitVec 3) (pa : Bool)  -- VCNT, R100
  | vmix (vd : BitVec 6) (va : BitVec 6) (vb : BitVec 6) (mk : BitVec 3) (pa : Bool) (pb : Bool)  -- VMIX, R114
  | vunif (vd : BitVec 6) (va : BitVec 6) (mk : BitVec 3) (pa : Bool)  -- VUNIF, R115
  | vaddx (vd : BitVec 6) (va : BitVec 6) (vb : BitVec 6) (mk : BitVec 3) (pa : Bool) (pb : Bool)  -- VADDX, R94
  | vmulx (vd : BitVec 6) (va : BitVec 6) (vb : BitVec 6) (mk : BitVec 3) (pa : Bool) (pb : Bool)  -- VMULX, R94
  | vfmax (vd : BitVec 6) (va : BitVec 6) (vb : BitVec 6) (mk : BitVec 3) (pa : Bool) (pb : Bool)  -- VFMAX, R94
  | kop (kd : BitVec 3) (ka : BitVec 3) (kb : BitVec 3) (fn : BitVec 4)  -- KOP, R102
  | kpopc (vd : BitVec 6) (ka : BitVec 3)  -- KPOPC, R102
  | vsett (imm : BitVec 13)  -- VSETT, R118
  | vsettXa (xa : BitVec 5)  -- VSETT_XA, R118
  | vtagr (vd : BitVec 6) (va : BitVec 6) (mk : BitVec 3) (pa : Bool)  -- VTAGR, R113
  | vrnd (vd : BitVec 6) (va : BitVec 6) (rm : RMode) (mk : BitVec 3) (pa : Bool)  -- VRND, R98
  | vscale (vd : BitVec 6) (va : BitVec 6) (vb : BitVec 6) (mk : BitVec 3) (pa : Bool) (pb : Bool)  -- VSCALE, R95
  | vawait (f : BitVec 8) (n : BitVec 9)  -- VAWAIT, R39, R119
  | vaset (f : BitVec 8) (n : BitVec 9)  -- VASET, R39, R119
  -- MX words
  | mclaim (mem : MMem) (h : BitVec 6) (n : BitVec 4)  -- MCLAIM, R134
  | mrel (mem : MMem) (h : BitVec 6) (n : BitVec 4)  -- MREL, R135
  | mxfer (mem : MMem) (h : BitVec 6) (xa : BitVec 5) (rh : BitVec 6)  -- MXFER, R137
  | mldw (wb : BitVec 6) (xa : BitVec 5) (xb : BitVec 5)  -- MLDW, R138
  | mlda (ab : BitVec 6) (xa : BitVec 5) (xb : BitVec 5) (xc : BitVec 5)  -- MLDA, R139
  | mpass (wb : BitVec 6) (ab : BitVec 6) (cb : BitVec 4) (acc : Bool) (x : BitVec 5)  -- MPASS, R141
  | mpassat (wb : BitVec 6) (ab : BitVec 6) (cb : BitVec 4) (acc : Bool) (x : BitVec 5)  -- MPASSAT, R142
  | mdrain (cb : BitVec 4) (xa : BitVec 5) (xb : BitVec 5) (xc : BitVec 5) (ty : OutTy)  -- MDRAIN, R143
  | mdrainv (cb : BitVec 4) (vd : BitVec 6) (xf : BitVec 5) (xn : BitVec 5)  -- MDRAINV, R144
  | mdrainp (cb : BitVec 4) (rank : BitVec 3) (pcb : BitVec 4) (x : BitVec 5)  -- MDRAINP, R145
  | mzero (h : BitVec 6) (n : BitVec 4)  -- MZERO, R136
  | mldv (ab : BitVec 6) (va : BitVec 6) (x : BitVec 5)  -- MLDV, R140
  | mxwait (f : BitVec 8) (n : BitVec 9)  -- MXWAIT, R39, R146
  | mxset (f : BitVec 8) (n : BitVec 9)  -- MXSET, R39, R146
  -- CP words
  | cpl (xa : BitVec 5) (xb : BitVec 5) (xc : BitVec 5) (f : BitVec 8)  -- CPL, R215
  | cpt (xa : BitVec 5) (xb : BitVec 5) (xc : BitVec 5) (f : BitVec 8)  -- CPT, R216
  | cpg (xa : BitVec 5) (xb : BitVec 5) (xc : BitVec 5) (f : BitVec 8)  -- CPG, R217
  | cps (xa : BitVec 5) (xb : BitVec 5) (xc : BitVec 5) (f : BitVec 8)  -- CPS, R217
  | cpstg (xa : BitVec 5) (xb : BitVec 5) (xc : BitVec 5) (out : Bool) (f : BitVec 8)  -- CPSTG, R218
  | cpred (xa : BitVec 5) (xb : BitVec 5) (xc : BitVec 5) (ty : RedTy) (f : BitVec 8)  -- CPRED, R219
  | cpfill (xa : BitVec 5) (xb : BitVec 5) (xc : BitVec 5) (w : Size) (f : BitVec 8)  -- CPFILL, R220
  | cptag (xa : BitVec 5) (xb : BitVec 5) (xc : BitVec 5) (strm : Bool) (f : BitVec 8)  -- CPTAG, R221
  | cpsig (xa : BitVec 5) (xb : BitVec 5) (f : BitVec 8)  -- CPSIG, R223
  | cpconv (xa : BitVec 5) (xb : BitVec 5) (xc : BitVec 5) (f : BitVec 8)  -- CPCONV, R222
  | cpwait (f : BitVec 8) (n : BitVec 9)  -- CPWAIT, R39, R224
  | cpset (f : BitVec 8) (n : BitVec 9)  -- CPSET, R39, R224
  -- sparge operations
  | pld (z : Size) (off : BitVec 14) (a : BitVec 4) (d : BitVec 4)  -- PLD, R317
  | qld (n : BitVec 16) (d : BitVec 4)  -- QLD, R317
  | tld (t : BitVec 16) (a : BitVec 4) (d : BitVec 4)  -- TLD, R317
  | tst (t : BitVec 16) (a : BitVec 4) (d : BitVec 4)  -- TST, R317
  | est (z : Size) (off : BitVec 14) (a : BitVec 4) (d : BitVec 4)  -- EST, R317
  | li (imm : BitVec 16) (d : BitVec 4)  -- LI, R317
  | lih (imm : BitVec 16) (d : BitVec 4)  -- LIH, R317
  | mov (a : BitVec 4) (d : BitVec 4)  -- MOV, R317
  | spargeAdd (a : BitVec 4) (d : BitVec 4)  -- SPARGE_ADD, R317
  | spargeSub (a : BitVec 4) (d : BitVec 4)  -- SPARGE_SUB, R317
  | spargeAnd (a : BitVec 4) (d : BitVec 4)  -- SPARGE_AND, R317
  | spargeOr (a : BitVec 4) (d : BitVec 4)  -- SPARGE_OR, R317
  | spargeXor (a : BitVec 4) (d : BitVec 4)  -- SPARGE_XOR, R317
  | spargeAddi (imm : BitVec 16) (d : BitVec 4)  -- SPARGE_ADDI, R317
  | spargeShli (imm : BitVec 16) (d : BitVec 4)  -- SPARGE_SHLI, R317
  | spargeShri (imm : BitVec 16) (d : BitVec 4)  -- SPARGE_SHRI, R317
  | ceq (a : BitVec 4) (d : BitVec 4)  -- CEQ, R317
  | cltu (a : BitVec 4) (d : BitVec 4)  -- CLTU, R317
  | clt (a : BitVec 4) (d : BitVec 4)  -- CLT, R317
  | bz (imm : BitVec 16) (d : BitVec 4)  -- BZ, R317
  | bnz (imm : BitVec 16) (d : BitVec 4)  -- BNZ, R317
  | jmp (imm : BitVec 16)  -- JMP, R317
  | spargeLoop (len : BitVec 9) (n : BitVec 7)  -- SPARGE_LOOP, R317
  | elaunch  -- ELAUNCH, R317
  | egang  -- EGANG, R317
  | etile  -- ETILE, R317
  | ecopy  -- ECOPY, R317
  | esignal  -- ESIGNAL, R317
  | efence  -- EFENCE, R317
  | reject (code : BitVec 16)  -- REJECT, R317
  | done  -- DONE, R317
  -- steps of the device without a word
  | budget (it : Nat)  -- BUDGET, R320
  | tailDoorbell (fn : Nat) (ring : Nat) (tail : BitVec 32)  -- TAIL_DOORBELL, R309
  | inlineDoorbell (fn : Nat) (ring : Nat) (bytes : List (BitVec 8))  -- INLINE_DOORBELL, R309
  | ringEnable (fn : Nat) (ring : Nat) (val : BitVec 64)  -- RING_ENABLE, R307
  | lqEnable (fn : Nat) (lq : Nat) (val : BitVec 64)  -- LQ_ENABLE, R311
  | merge (fn : Nat) (lq : Nat)  -- MERGE, R311
  | interpreterHandoff (it : Nat)  -- INTERPRETER_HANDOFF, R321
  | emissionTakesEffect (fn : Nat) (lq : Nat)  -- EMISSION_TAKES_EFFECT, R315
  | ecopyCompletion (fn : Nat) (lq : Nat)  -- ECOPY_COMPLETION, R314
  | spargeProgramLoad (fn : Nat) (prog : Nat)  -- SPARGE_PROGRAM_LOAD, R318, R319
  | spargeProgramUnload (fn : Nat) (prog : Nat)  -- SPARGE_PROGRAM_UNLOAD, R318
  | evqConfigWrite (fn : Nat) (isSize : Bool) (val : BitVec 64)  -- EVQ_CONFIG_WRITE, R305
  | functionRangeWrite (fn : Nat) (entry : Nat) (hi : Bool) (val : BitVec 64)  -- FUNCTION_RANGE_WRITE, R306
  | weightCmd (fn : Nat) (val : BitVec 64)  -- WEIGHT_CMD, R329
  | shapeW1 (fn : Nat) (c : Nat) (val : BitVec 64)  -- SHAPE_W1, R330
  | shapeW0 (fn : Nat) (c : Nat) (val : BitVec 64)  -- SHAPE_W0, R330
  | powerCtlOn (fn : Nat)  -- POWER_CTL_ON, R336
  | powerCtlIdle (fn : Nat)  -- POWER_CTL_IDLE, R336
  | powerCtlGated (fn : Nat) (dies : BitVec 8)  -- POWER_CTL_GATED, R336
  | powerCtlSleep (fn : Nat)  -- POWER_CTL_SLEEP, R336
  | powerCtlOff (fn : Nat)  -- POWER_CTL_OFF, R336
  | powerTransitionDone  -- POWER_TRANSITION_DONE, R336
  | telemetryRefresh (watts : BitVec 16) (die : BitVec 16) (hbm : BitVec 16) (amps : BitVec 16)  -- TELEMETRY_REFRESH, R336
  | thermalOrCurrentTrip (thermal : Bool) (current : Bool) (place : BitVec 9)  -- THERMAL_OR_CURRENT_TRIP, R337
  | registerWrite (fn : Nat) (off : Nat) (val : BitVec 64)  -- REGISTER_WRITE, R305
  | ctxCreate (fn : Nat) (cid : Nat) (func : Nat)  -- CTX_CREATE, R342
  | ctxSet (fn : Nat) (cid : Nat) (off : Nat) (val : BitVec 64)  -- CTX_SET, R340, R342
  | ctxDestroy (fn : Nat) (cid : Nat)  -- CTX_DESTROY, R344
  | frameSet (fn : Nat) (first : Nat) (count : Nat) (entry : BitVec 32)  -- FRAME_SET, R348
  | inval (fn : Nat) (cid : Nat) (va : BitVec 64) (len : BitVec 64)  -- INVAL, R352
  | dirtyRead (fn : Nat) (cid : Nat) (first : Nat) (count : Nat) (host : BitVec 64)  -- DIRTY_READ, R350
  | cntClaim (fn : Nat) (bank : Nat)  -- CNT_CLAIM, R358
  | cntRel (fn : Nat) (bank : Nat)  -- CNT_REL, R358
  | epSet (fn : Nat) (ep : BitVec 32) (pkg : Nat) (cid : Nat) (st : Nat)  -- EP_SET, R331
  | trapResolve (fn : Nat) (cid : Nat) (thr : Nat) (act : Nat)  -- TRAP_RESOLVE, R376
  | unitRetire (fn : Nat) (core : Nat)  -- UNIT_RETIRE, R397
  | pageDone (fn : Nat) (cid : Nat) (va : BitVec 64) (len : BitVec 64) (fail : Bool)  -- PAGE_DONE, R388
  | kegSaveCmd (fn : Nat) (cid : Nat) (va : BitVec 64) (len : BitVec 64) (hold : Bool) (mig : Bool)  -- KEG_SAVE, R415
  | kegLoadCmd (fn : Nat) (cid : Nat) (va : BitVec 64) (len : BitVec 64)  -- KEG_LOAD, R415
  | kegThaw (fn : Nat) (cid : Nat)  -- KEG_THAW, R415
  | migKey (fn : Nat) (cid : Nat) (pkg : Nat) (dcid : Nat)  -- MIG_KEY, R418
  | pagePush (fn : Nat) (cid : Nat) (va : BitVec 64) (len : BitVec 64) (pkg : Nat) (dcid : Nat)  -- PAGE_PUSH, R416
  | parkForward (fn : Nat) (cid : Nat) (pkg : Nat) (dcid : Nat)  -- PARK_FORWARD, R417
  | relayEnd (fn : Nat) (cid : Nat)  -- RELAY_END, R417
  | slotLoad (fn : Nat) (slot : Nat) (host : BitVec 64) (len : BitVec 64) (dataVa : BitVec 64)  -- SLOT_LOAD, R322
  | tensorSeal (fn : Nat) (cid : Nat) (slot : Nat) (tensor : BitVec 64) (desc : BitVec 64)  -- TENSOR_SEAL, R298
  | slotUnpin (fn : Nat) (slot : Nat)  -- SLOT_UNPIN, R299
  | flr (fn : Nat)  -- FLR, R360
  | vfTeardown (fn : Nat)  -- VF_TEARDOWN, R361
  | teardownDrainTimeout (cid : Nat)  -- TEARDOWN_DRAIN_TIMEOUT, R361
  | powerUp  -- POWER_UP, R363
  | bootCtlGo (fn : Nat) (len : Nat)  -- BOOT_CTL_GO, R363
  | fwCtlGo (fn : Nat)  -- FW_CTL_GO, R421
  | fwHeartbeat  -- FW_HEARTBEAT, R421
  | heartbeatTimeout  -- HEARTBEAT_TIMEOUT, R421
  | getVersion (fn : Nat)  -- GET_VERSION, R364
  | getCapabilities (fn : Nat)  -- GET_CAPABILITIES, R364
  | negotiateAlgorithms (fn : Nat) (offered : SpdmAlgs)  -- NEGOTIATE_ALGORITHMS, R364
  | getDigests (fn : Nat)  -- GET_DIGESTS, R364
  | getCertificate (fn : Nat) (cslot : Nat) (off : Nat) (len : Nat)  -- GET_CERTIFICATE, R364
  | challenge (fn : Nat) (cslot : Nat) (nonce : BitVec 256)  -- CHALLENGE, R364
  | getMeasurements (fn : Nat) (index : Nat) (sign : Bool) (nonce : BitVec 256)  -- GET_MEASUREMENTS, R364
  | keyExchange (fn : Nat) (cslot : Nat) (pub : BitVec 512)  -- KEY_EXCHANGE, R364
  | finish (fn : Nat) (mac : BitVec 256)  -- FINISH, R364
  | keyUpdate (fn : Nat)  -- KEY_UPDATE, R364
  | heartbeat (fn : Nat)  -- HEARTBEAT, R364
  | endSession (fn : Nat)  -- END_SESSION, R364
  | keyInstall (fn : Nat) (cid : Nat) (index : Nat) (key : BitVec 256)  -- KEY_INSTALL, R365
  | keyTransfer (cid : Nat) (key : BitVec 256) (keygen : BitVec 32) (count : BitVec 64)  -- KEY_TRANSFER, R418
  | ideKm (fn : Nat) (stream : Nat) (key : BitVec 256)  -- IDE_KM, R366
  | ideIntegrityFail (stream : Nat)  -- IDE_INTEGRITY_FAIL, R366
  | qdepthWrite (key : Nat) (val : BitVec 64)  -- QDEPTH_WRITE, R47
  | vstatWrite (key : Nat) (val : BitVec 64)  -- VSTAT_WRITE, R90
  | waitlogConfigWrite (key : Nat) (isSize : Bool) (val : BitVec 64)  -- WAITLOG_CONFIG_WRITE, R251
  | trapqConfigWrite (key : Nat) (isSize : Bool) (val : BitVec 64)  -- TRAPQ_CONFIG_WRITE, R372
  | resume (cid : Nat) (thr : Nat)  -- RESUME, R375
  | kill (cid : Nat) (thr : Nat)  -- KILL, R375
  | cntEventWrite (key : Nat) (n : Nat) (val : BitVec 64)  -- CNT_EVENT_WRITE, R359
  | stopreq (cid : Nat) (thr : Nat)  -- STOPREQ, R423
  | postedWrite (h : FabHdr) (off : BitVec 32) (data : BitVec 512) (be : BitVec 64) (red : Option RedTy)  -- POSTED_WRITE, R185
  | lineRead (h : FabHdr) (off : BitVec 32)  -- LINE_READ, R184
  | markedAccess (h : FabHdr) (off : BitVec 32) (op : MarkedOp)  -- MARKED_ACCESS, R185
  | signal (h : FabHdr) (flag : BitVec 8) (val : BitVec 32)  -- SIGNAL, R223
  | bulletinRead (ep : BitVec 32) (off : Nat)  -- BULLETIN_READ, R300
  | acknowledgement (key : Nat) (id : Nat) (reply : BitVec 512)  -- ACKNOWLEDGEMENT, R202
  | retry (key : Nat) (id : Nat)  -- RETRY, R333
  | retryResend (key : Nat) (id : Nat)  -- RETRY_RESEND, R333
  | endpointGone (key : Nat) (id : Nat)  -- ENDPOINT_GONE, R202
  | lineEviction (key : Nat) (w : Nat) (line : Nat)  -- LINE_EVICTION, R184
  | streamFill (key : Nat) (v : Nat)  -- STREAM_FILL, R207
  | streamDrain (key : Nat) (v : Nat)  -- STREAM_DRAIN, R210
  | mdrainpArrival (key : Nat)  -- MDRAINP_ARRIVAL, R145
  | placement (n : Nat) (core : Nat)  -- PLACEMENT, R229
  | placementReservation (n : Nat) (cores : List Nat)  -- PLACEMENT_RESERVATION, R229
  | overlayLoad (core : Nat) (slot : Nat)  -- OVERLAY_LOAD, R235
  | boundaryLanding (key : Nat)  -- BOUNDARY_LANDING, R381
  | quarantineEnd (cid : Nat) (thr : Nat)  -- QUARANTINE_END, R225
  | parkThreshold (key : Nat)  -- PARK_THRESHOLD, R237
  | deadlock (key : Nat)  -- DEADLOCK, R261
  | claimCycle (core : Nat)  -- CLAIM_CYCLE, R134
  | timedPassStart (key : Nat)  -- TIMED_PASS_START, R142
  | gangStart (n : Nat)  -- GANG_START, R328
  | gangLate (n : Nat)  -- GANG_LATE, R328
  | preempt (key : Nat)  -- PREEMPT, R392
  | preemptRollback (key : Nat)  -- PREEMPT_ROLLBACK, R393
  | mscRoomRollback (need : Nat)  -- MSC_ROOM_ROLLBACK, R385
  | trapDelivery (key : Nat) (t : Trap)  -- TRAP_DELIVERY, R373
  | versionCascade (key : Nat) (writer : Nat)  -- VERSION_CASCADE, R387
  | correctedError (kind : BitVec 4) (loc : BitVec 60)  -- CORRECTED_ERROR, R395
  | uncorrectableError (site : ErrSite)  -- UNCORRECTABLE_ERROR, R396
  | patienceExpiry (p : Nat)  -- PATIENCE_EXPIRY, R274
  | passBegin (p : Nat) (core : Nat)  -- PASS_BEGIN, R282
  | passEnd (core : Nat)  -- PASS_END, R286
  | passAbandon (core : Nat)  -- PASS_ABANDON, R287
  | bulletinRefresh  -- BULLETIN_REFRESH, R302
  | traceSample (unit : Nat)  -- TRACE_SAMPLE, R426
  | kilnReset  -- KILN_RESET, R363
  | endMarker (cid : Nat)  -- END_MARKER, R417
  | cancelMessage (ep : BitVec 32) (id : Nat)  -- CANCEL_MESSAGE, R361
  | registerCacheEviction (key : Nat) (line : Nat)  -- REGISTER_CACHE_EVICTION, R171
  deriving DecidableEq, Repr, Inhabited

end Sys2Proof
end

