-- ==== Sys2Proof/WellFormed.lean ====
section
/-! DEFINITION. The constraints on the operands of one instruction that its encoding alone decides (R29, R30
steps 1 and 2), beyond those that the operand types already hold. A step of the device without a word has none. -/

namespace Sys2Proof

/-- The number of handles of an operand memory (R37, R124). -/
def MMem.handles : MMem → Nat
  | .cb => 16
  | _ => 64

/-- A value of VTYPE[12:0] holds no reserved ET or RM (R44). -/
def vtypeLegal (v : Nat) : Bool :=
  v % 16 ≠ 7 && v / 16 % 8 ≤ 4

/-- The operands break no constraint that the encoding decides (R29, R30). -/
def Instr.wellFormed : Instr → Bool
  | .add _ _ _ => true
  | .sub _ _ _ => true
  | .and _ _ _ => true
  | .or _ _ _ => true
  | .xor _ _ _ => true
  | .andn _ _ _ => true
  | .orn _ _ _ => true
  | .xnor _ _ _ => true
  | .shl _ _ _ => true
  | .shr _ _ _ => true
  | .sra _ _ _ => true
  | .rol _ _ _ => true
  | .ror _ _ _ => true
  | .mul _ _ _ => true
  | .mulh _ _ _ => true
  | .mulhu _ _ _ => true
  | .mulhsu _ _ _ => true
  | .div _ _ _ => true
  | .divu _ _ _ => true
  | .rem _ _ _ => true
  | .remu _ _ _ => true
  | .min _ _ _ => true
  | .max _ _ _ => true
  | .minu _ _ _ => true
  | .maxu _ _ _ => true
  | .seq _ _ _ => true
  | .slt _ _ _ => true
  | .sltu _ _ _ => true
  | .clz _ _ => true
  | .ctz _ _ => true
  | .popc _ _ => true
  | .brev _ _ => true
  | .sext _ _ _ => true
  | .zext _ _ _ => true
  | .addi _ _ _ => true
  | .andi _ _ _ => true
  | .ori _ _ _ => true
  | .xori _ _ _ => true
  | .shli _ _ _ => true
  | .shri _ _ _ => true
  | .srai _ _ _ => true
  | .slti _ _ _ => true
  | .sltiu _ _ _ => true
  | .muli _ _ _ => true
  | .lis _ _ => true
  | .lihs _ _ => true
  | .beq _ _ _ => true
  | .bne _ _ _ => true
  | .blt _ _ _ => true
  | .bge _ _ _ => true
  | .bltu _ _ _ => true
  | .bgeu _ _ _ => true
  | .jal _ _ => true
  | .jalr _ _ _ => true
  | .loop _ => true
  | .knext => true
  | .tend => true
  | .spawn _ _ n => decide (n.toNat = 0 ∨ (2 ≤ n.toNat ∧ n.toNat ≤ 8))
  | .join _ => true
  | .leave _ => true
  | .bar _ => true
  | .gqry _ _ => true
  | .yield => true
  | .tsub _ => true
  | .ckpt => true
  | .movb _ _ => true
  | .gsel g => decide (g.toNat < 256 ∨ g.toNat = 0x3FF)
  | .waitf _ _ => true
  | .setf _ _ => true
  | .clrf _ => true
  | .waitfx _ _ => true
  | .fread _ _ => true
  | .waitc _ _ _ _ => true
  | .tclr _ => true
  | .tclrv _ => true
  | .tclrc => true
  | .tqry _ _ => true
  | .sysrd _ _ => true
  | .syswr _ _ => true
  | .trap _ => true
  | .bkpt _ => true
  | .eret => true
  | .tlbinv _ _ => true
  | .wpset _ _ _ => true
  | .wpclr _ => true
  | .cntclaim _ n => decide (n.toNat < 144)
  | .cntrel n => decide (n.toNat < 144)
  | .kegsave _ _ => true
  | .kegload _ _ => true
  | .flowdef _ _ => true
  | .winset _ _ _ => true
  | .ld _ _ _ _ => true
  | .ldu size _ _ _ => decide (size ≠ .d)
  | .st _ _ _ _ => true
  | .lds _ _ _ _ order => decide (order = .rlx ∨ order = .acq)
  | .sts _ _ _ _ order => decide (order = .rlx ∨ order = .rel)
  | .atomw _ _ _ _ _ _ => true
  | .atomd _ _ _ _ _ _ => true
  | .casw _ _ _ _ _ => true
  | .casd _ _ _ _ _ => true
  | .fence ma mb _ => decide (ma.toNat ≠ 0 ∧ mb.toNat ≠ 0)
  | .pref _ _ _ => true
  | .rcm _ _ _ => true
  | .vld _ _ _ _ => true
  | .vlds _ _ _ _ _ => true
  | .vldx _ _ _ _ _ _ _ => true
  | .vbindi _ _ => true
  | .vunbindi _ => true
  | .vldt _ _ _ _ => true
  | .vldb _ _ _ _ => true
  | .vlwait _ _ => true
  | .vlset _ _ => true
  | .vst _ _ _ _ => true
  | .vsts _ _ _ _ _ => true
  | .vstx _ _ _ _ _ _ _ => true
  | .vbindo _ _ => true
  | .vunbindo _ => true
  | .vstt _ _ _ _ => true
  | .vatoma _ _ _ _ _ _ => true
  | .vstrw _ _ _ => true
  | .vswait _ _ => true
  | .vsset _ _ => true
  | .vadd _ _ _ mk _ _ => decide (mk.toNat ≠ 4)
  | .vsub _ _ _ mk _ _ => decide (mk.toNat ≠ 4)
  | .vmul _ _ _ mk _ _ => decide (mk.toNat ≠ 4)
  | .vfma _ _ _ mk _ _ => decide (mk.toNat ≠ 4)
  | .vfnma _ _ _ mk _ _ => decide (mk.toNat ≠ 4)
  | .vmin _ _ _ mk _ _ => decide (mk.toNat ≠ 4)
  | .vmax _ _ _ mk _ _ => decide (mk.toNat ≠ 4)
  | .vabs _ _ mk _ => decide (mk.toNat ≠ 4)
  | .vneg _ _ mk _ => decide (mk.toNat ≠ 4)
  | .vdiv _ _ _ mk _ _ => decide (mk.toNat ≠ 4)
  | .vsqrt _ _ mk _ => decide (mk.toNat ≠ 4)
  | .vrsq _ _ mk _ => decide (mk.toNat ≠ 4)
  | .vexp2 _ _ mk _ => decide (mk.toNat ≠ 4)
  | .vlog2 _ _ mk _ => decide (mk.toNat ≠ 4)
  | .vfclass _ _ mk _ => decide (mk.toNat ≠ 4)
  | .vcmp kd _ _ _ mk _ _ => decide (kd.toNat ≠ 0 ∧ mk.toNat ≠ 4)
  | .vsel _ _ _ _ _ _ => true
  | .vand _ _ _ mk _ _ => decide (mk.toNat ≠ 4)
  | .vor _ _ _ mk _ _ => decide (mk.toNat ≠ 4)
  | .vxor _ _ _ mk _ _ => decide (mk.toNat ≠ 4)
  | .vshl _ _ _ mk _ _ => decide (mk.toNat ≠ 4)
  | .vshr _ _ _ mk _ _ => decide (mk.toNat ≠ 4)
  | .vsra _ _ _ mk _ _ => decide (mk.toNat ≠ 4)
  | .vcvt _ _ _ rs vr => decide (rs = .sr ∨ vr.toNat = 0)
  | .vpack _ _ _ => true
  | .vunpk _ _ _ _ => true
  | .vred _ _ _ _ _ => true
  | .vargmax _ _ _ _ => true
  | .vperm _ _ _ mk _ _ => decide (mk.toNat ≠ 4)
  | .vrot _ _ _ mk _ => decide (mk.toNat ≠ 4)
  | .vbcast _ _ _ => true
  | .vextr _ _ _ mk _ => decide (mk.toNat ≠ 4)
  | .viota _ _ => true
  | .vmov _ _ mk _ => decide (mk.toNat ≠ 4)
  | .vdrop _ _ => true
  | .vcnt _ _ mk _ => decide (mk.toNat ≠ 4)
  | .vmix _ _ _ mk _ _ => decide (mk.toNat ≠ 4)
  | .vunif _ _ mk _ => decide (mk.toNat ≠ 4)
  | .vaddx _ _ _ mk _ _ => decide (mk.toNat ≠ 4)
  | .vmulx _ _ _ mk _ _ => decide (mk.toNat ≠ 4)
  | .vfmax _ _ _ mk _ _ => decide (mk.toNat ≠ 4)
  | .kop kd _ _ _ => decide (kd.toNat ≠ 0)
  | .kpopc _ _ => true
  | .vsett imm => vtypeLegal imm.toNat
  | .vsettXa _ => true
  | .vtagr _ _ mk _ => decide (mk.toNat ≠ 4)
  | .vrnd _ _ _ mk _ => decide (mk.toNat ≠ 4)
  | .vscale _ _ _ mk _ _ => decide (mk.toNat ≠ 4)
  | .vawait _ _ => true
  | .vaset _ _ => true
  | .mclaim mem h n => decide (n.toNat ≠ 0 ∧ h.toNat + n.toNat ≤ mem.handles)
  | .mrel mem h n => decide (n.toNat ≠ 0 ∧ h.toNat < mem.handles)
  | .mxfer mem h _ rh => decide (h.toNat < mem.handles ∧ rh.toNat < mem.handles)
  | .mldw _ _ _ => true
  | .mlda _ _ _ _ => true
  | .mpass _ _ _ _ _ => true
  | .mpassat _ _ _ _ _ => true
  | .mdrain _ _ _ _ _ => true
  | .mdrainv _ _ _ _ => true
  | .mdrainp _ _ _ _ => true
  | .mzero h n => decide (n.toNat ≠ 0 ∧ h.toNat < 16)
  | .mldv _ _ _ => true
  | .mxwait _ _ => true
  | .mxset _ _ => true
  | .cpl _ _ _ _ => true
  | .cpt _ _ _ _ => true
  | .cpg _ _ _ _ => true
  | .cps _ _ _ _ => true
  | .cpstg _ _ _ _ _ => true
  | .cpred _ _ _ _ _ => true
  | .cpfill _ _ _ _ _ => true
  | .cptag _ _ _ _ _ => true
  | .cpsig _ _ _ => true
  | .cpconv _ _ _ _ => true
  | .cpwait _ _ => true
  | .cpset _ _ => true
  | .pld _ _ _ _ => true
  | .qld _ _ => true
  | .tld _ _ _ => true
  | .tst _ _ _ => true
  | .est _ _ _ _ => true
  | .li _ _ => true
  | .lih _ _ => true
  | .mov _ _ => true
  | .spargeAdd _ _ => true
  | .spargeSub _ _ => true
  | .spargeAnd _ _ => true
  | .spargeOr _ _ => true
  | .spargeXor _ _ => true
  | .spargeAddi _ _ => true
  | .spargeShli _ _ => true
  | .spargeShri _ _ => true
  | .ceq _ _ => true
  | .cltu _ _ => true
  | .clt _ _ => true
  | .bz _ _ => true
  | .bnz _ _ => true
  | .jmp _ => true
  | .spargeLoop _ _ => true
  | .elaunch => true
  | .egang => true
  | .etile => true
  | .ecopy => true
  | .esignal => true
  | .efence => true
  | .reject _ => true
  | .done => true
  | .budget _ => true
  | .tailDoorbell _ _ _ => true
  | .inlineDoorbell _ _ _ => true
  | .ringEnable _ _ _ => true
  | .lqEnable _ _ _ => true
  | .merge _ _ => true
  | .interpreterHandoff _ => true
  | .emissionTakesEffect _ _ => true
  | .ecopyCompletion _ _ => true
  | .spargeProgramLoad _ _ => true
  | .spargeProgramUnload _ _ => true
  | .evqConfigWrite _ _ _ => true
  | .functionRangeWrite _ _ _ _ => true
  | .weightCmd _ _ => true
  | .shapeW1 _ _ _ => true
  | .shapeW0 _ _ _ => true
  | .powerCtlOn _ => true
  | .powerCtlIdle _ => true
  | .powerCtlGated _ _ => true
  | .powerCtlSleep _ => true
  | .powerCtlOff _ => true
  | .powerTransitionDone => true
  | .telemetryRefresh _ _ _ _ => true
  | .thermalOrCurrentTrip _ _ _ => true
  | .registerWrite _ _ _ => true
  | .ctxCreate _ _ _ => true
  | .ctxSet _ _ _ _ => true
  | .ctxDestroy _ _ => true
  | .frameSet _ _ _ _ => true
  | .inval _ _ _ _ => true
  | .dirtyRead _ _ _ _ _ => true
  | .cntClaim _ _ => true
  | .cntRel _ _ => true
  | .epSet _ _ _ _ _ => true
  | .trapResolve _ _ _ _ => true
  | .unitRetire _ _ => true
  | .pageDone _ _ _ _ _ => true
  | .kegSaveCmd _ _ _ _ _ _ => true
  | .kegLoadCmd _ _ _ _ => true
  | .kegThaw _ _ => true
  | .migKey _ _ _ _ => true
  | .pagePush _ _ _ _ _ _ => true
  | .parkForward _ _ _ _ => true
  | .relayEnd _ _ => true
  | .slotLoad _ _ _ _ _ => true
  | .tensorSeal _ _ _ _ _ => true
  | .slotUnpin _ _ => true
  | .flr _ => true
  | .vfTeardown _ => true
  | .teardownDrainTimeout _ => true
  | .powerUp => true
  | .bootCtlGo _ _ => true
  | .fwCtlGo _ => true
  | .fwHeartbeat => true
  | .heartbeatTimeout => true
  | .getVersion _ => true
  | .getCapabilities _ => true
  | .negotiateAlgorithms _ _ => true
  | .getDigests _ => true
  | .getCertificate _ _ _ _ => true
  | .challenge _ _ _ => true
  | .getMeasurements _ _ _ _ => true
  | .keyExchange _ _ _ => true
  | .finish _ _ => true
  | .keyUpdate _ => true
  | .heartbeat _ => true
  | .endSession _ => true
  | .keyInstall _ _ _ _ => true
  | .keyTransfer _ _ _ _ => true
  | .ideKm _ _ _ => true
  | .ideIntegrityFail _ => true
  | .qdepthWrite _ _ => true
  | .vstatWrite _ _ => true
  | .waitlogConfigWrite _ _ _ => true
  | .trapqConfigWrite _ _ _ => true
  | .resume _ _ => true
  | .kill _ _ => true
  | .cntEventWrite _ _ _ => true
  | .stopreq _ _ => true
  | .postedWrite _ _ _ _ _ => true
  | .lineRead _ _ => true
  | .markedAccess _ _ _ => true
  | .signal _ _ _ => true
  | .bulletinRead _ _ => true
  | .acknowledgement _ _ _ => true
  | .retry _ _ => true
  | .retryResend _ _ => true
  | .endpointGone _ _ => true
  | .lineEviction _ _ _ => true
  | .streamFill _ _ => true
  | .streamDrain _ _ => true
  | .mdrainpArrival _ => true
  | .placement _ _ => true
  | .placementReservation _ _ => true
  | .overlayLoad _ _ => true
  | .boundaryLanding _ => true
  | .quarantineEnd _ _ => true
  | .parkThreshold _ => true
  | .deadlock _ => true
  | .claimCycle _ => true
  | .timedPassStart _ => true
  | .gangStart _ => true
  | .gangLate _ => true
  | .preempt _ => true
  | .preemptRollback _ => true
  | .mscRoomRollback _ => true
  | .trapDelivery _ _ => true
  | .versionCascade _ _ => true
  | .correctedError _ _ => true
  | .uncorrectableError _ => true
  | .patienceExpiry _ => true
  | .passBegin _ _ => true
  | .passEnd _ => true
  | .passAbandon _ => true
  | .bulletinRefresh => true
  | .traceSample _ => true
  | .kilnReset => true
  | .endMarker _ => true
  | .cancelMessage _ _ => true
  | .registerCacheEviction _ _ => true

end Sys2Proof
end

