-- ==== Sys2Proof/Decode.lean ====
section
/-! DEFINITION. The decoder of 32-bit words, total and rejecting by name, and the encoder, both written from the
field tables of R28 to R39 (core words) and R317 (sparge operations). A word is a natural number below 2^32, bit 0
its least significant bit (R3). -/

namespace Sys2Proof

/-- Bits [lo + n - 1 : lo] of w as a number (R3). -/
def fld (w lo n : Nat) : Nat := w / 2 ^ lo % 2 ^ n

/-- Bits [lo + n - 1 : lo] of w as a bit vector. -/
def bits (w lo n : Nat) : BitVec n := BitVec.ofNat n (w / 2 ^ lo)

/-- The number of a truth value. -/
def Bool.code (b : Bool) : Nat := if b then 1 else 0

/-- Why a word is not an instruction (R29, R30). -/
inductive DecodeError where
  | reserved   -- step 1: a reserved encoding, or a field marked zero that is not zero
  | operand    -- step 2: an operand constraint known from the encoding
  deriving DecidableEq, Repr, Inhabited
/-- Codes of the operand sizes of memory words, R33. -/
def Size.code : Size → Nat
  | .b => 0
  | .h => 1
  | .w => 2
  | .d => 3

/-- The operand sizes of memory words, R33, by code; none for a reserved code. -/
def Size.ofCode? : Nat → Option Size
  | 0 => some .b
  | 1 => some .h
  | 2 => some .w
  | 3 => some .d
  | _ => none

/-- Codes of the size codes of SEXT and ZEXT, R31. -/
def ExtSize.code : ExtSize → Nat
  | .b => 0
  | .h => 1
  | .w => 2

/-- The size codes of SEXT and ZEXT, R31, by code; none for a reserved code. -/
def ExtSize.ofCode? : Nat → Option ExtSize
  | 0 => some .b
  | 1 => some .h
  | 2 => some .w
  | _ => none

/-- Codes of the scopes, R160. -/
def Scope.code : Scope → Nat
  | .path => 0
  | .thread => 1
  | .core => 2
  | .cluster => 3
  | .die => 4
  | .pkg => 5
  | .ctx => 6
  | .panel => 7
  | .pod => 8
  | .sys => 9

/-- The scopes, R160, by code; none for a reserved code. -/
def Scope.ofCode? : Nat → Option Scope
  | 0 => some .path
  | 1 => some .thread
  | 2 => some .core
  | 3 => some .cluster
  | 4 => some .die
  | 5 => some .pkg
  | 6 => some .ctx
  | 7 => some .panel
  | 8 => some .pod
  | 9 => some .sys
  | _ => none

/-- Codes of the access orders, R50 and R33. -/
def Order.code : Order → Nat
  | .rlx => 0
  | .acq => 1
  | .rel => 2
  | .ar => 3

/-- The access orders, R50 and R33, by code; none for a reserved code. -/
def Order.ofCode? : Nat → Option Order
  | 0 => some .rlx
  | 1 => some .acq
  | 2 => some .rel
  | 3 => some .ar
  | _ => none

/-- Codes of the atomic operations, R194. -/
def AOp.code : AOp → Nat
  | .add => 0
  | .and => 1
  | .or => 2
  | .xor => 3
  | .min => 4
  | .max => 5
  | .minu => 6
  | .maxu => 7
  | .swap => 8
  | .incw => 9
  | .decw => 10

/-- The atomic operations, R194, by code; none for a reserved code. -/
def AOp.ofCode? : Nat → Option AOp
  | 0 => some .add
  | 1 => some .and
  | 2 => some .or
  | 3 => some .xor
  | 4 => some .min
  | 5 => some .max
  | 6 => some .minu
  | 7 => some .maxu
  | 8 => some .swap
  | 9 => some .incw
  | 10 => some .decw
  | _ => none

/-- Codes of the PREF targets, R33. -/
def PrefTarget.code : PrefTarget → Nat
  | .l1 => 0
  | .msc => 1
  | .rlc => 2

/-- The PREF targets, R33, by code; none for a reserved code. -/
def PrefTarget.ofCode? : Nat → Option PrefTarget
  | 0 => some .l1
  | 1 => some .msc
  | 2 => some .rlc
  | _ => none

/-- Codes of the RCM operations, R33. -/
def RcmOp.code : RcmOp → Nat
  | .wb => 1
  | .inv => 2
  | .wbinv => 3

/-- The RCM operations, R33, by code; none for a reserved code. -/
def RcmOp.ofCode? : Nat → Option RcmOp
  | 1 => some .wb
  | 2 => some .inv
  | 3 => some .wbinv
  | _ => none

/-- Codes of the strided element sizes, R34. -/
def ESize.code : ESize → Nat
  | .e8 => 0
  | .e16 => 1
  | .e32 => 2

/-- The strided element sizes, R34, by code; none for a reserved code. -/
def ESize.ofCode? : Nat → Option ESize
  | 0 => some .e8
  | 1 => some .e16
  | 2 => some .e32
  | _ => none

/-- Codes of the VATOMA types, R34. -/
def AtomTy.code : AtomTy → Nat
  | .i32 => 0
  | .f32 => 1
  | .bf16 => 2

/-- The VATOMA types, R34, by code; none for a reserved code. -/
def AtomTy.ofCode? : Nat → Option AtomTy
  | 0 => some .i32
  | 1 => some .f32
  | 2 => some .bf16
  | _ => none

/-- Codes of the VCMP conditions, R36. -/
def Cond.code : Cond → Nat
  | .eq => 0
  | .ne => 1
  | .lt => 2
  | .le => 3
  | .gt => 4
  | .ge => 5
  | .unord => 6
  | .ord => 7

/-- The VCMP conditions, R36, by code; none for a reserved code. -/
def Cond.ofCode? : Nat → Option Cond
  | 0 => some .eq
  | 1 => some .ne
  | 2 => some .lt
  | 3 => some .le
  | 4 => some .gt
  | 5 => some .ge
  | 6 => some .unord
  | 7 => some .ord
  | _ => none

/-- Codes of the element type codes, R44 (code 7 is reserved). -/
def Ty.code : Ty → Nat
  | .f32 => 0
  | .f16 => 1
  | .bf16 => 2
  | .e4m3 => 3
  | .e5m2 => 4
  | .e2m1 => 5
  | .sq4 => 6
  | .i8 => 8
  | .i16 => 9
  | .i32 => 10
  | .i64 => 11
  | .n8 => 12
  | .n16 => 13
  | .n32 => 14
  | .n64 => 15

/-- The element type codes, R44 (code 7 is reserved), by code; none for a reserved code. -/
def Ty.ofCode? : Nat → Option Ty
  | 0 => some .f32
  | 1 => some .f16
  | 2 => some .bf16
  | 3 => some .e4m3
  | 4 => some .e5m2
  | 5 => some .e2m1
  | 6 => some .sq4
  | 8 => some .i8
  | 9 => some .i16
  | 10 => some .i32
  | 11 => some .i64
  | 12 => some .n8
  | 13 => some .n16
  | 14 => some .n32
  | 15 => some .n64
  | _ => none

/-- Codes of the VCVT rounding selects, R36. -/
def RSel.code : RSel → Nat
  | .vtype => 0
  | .rne => 1
  | .rtz => 2
  | .sr => 3

/-- The VCVT rounding selects, R36, by code; none for a reserved code. -/
def RSel.ofCode? : Nat → Option RSel
  | 0 => some .vtype
  | 1 => some .rne
  | 2 => some .rtz
  | 3 => some .sr
  | _ => none

/-- Codes of the VRED operations, R36. -/
def RedOp.code : RedOp → Nat
  | .add => 0
  | .min => 1
  | .max => 2
  | .and => 3
  | .or => 4
  | .xor => 5

/-- The VRED operations, R36, by code; none for a reserved code. -/
def RedOp.ofCode? : Nat → Option RedOp
  | 0 => some .add
  | 1 => some .min
  | 2 => some .max
  | 3 => some .and
  | 4 => some .or
  | 5 => some .xor
  | _ => none

/-- Codes of the rounding modes, R44. -/
def RMode.code : RMode → Nat
  | .rne => 0
  | .rtz => 1
  | .rup => 2
  | .rdn => 3
  | .rna => 4

/-- The rounding modes, R44, by code; none for a reserved code. -/
def RMode.ofCode? : Nat → Option RMode
  | 0 => some .rne
  | 1 => some .rtz
  | 2 => some .rup
  | 3 => some .rdn
  | 4 => some .rna
  | _ => none

/-- Codes of the operand memories of MX words, R37. -/
def MMem.code : MMem → Nat
  | .wb => 0
  | .ab => 1
  | .cb => 2

/-- The operand memories of MX words, R37, by code; none for a reserved code. -/
def MMem.ofCode? : Nat → Option MMem
  | 0 => some .wb
  | 1 => some .ab
  | 2 => some .cb
  | _ => none

/-- Codes of the MDRAIN output types, R37. -/
def OutTy.code : OutTy → Nat
  | .f32 => 0
  | .bf16 => 1
  | .f16 => 2

/-- The MDRAIN output types, R37, by code; none for a reserved code. -/
def OutTy.ofCode? : Nat → Option OutTy
  | 0 => some .f32
  | 1 => some .bf16
  | 2 => some .f16
  | _ => none

/-- Codes of the CPRED types, R38. -/
def RedTy.code : RedTy → Nat
  | .f32 => 0
  | .bf16 => 1
  | .i32 => 2

/-- The CPRED types, R38, by code; none for a reserved code. -/
def RedTy.ofCode? : Nat → Option RedTy
  | 0 => some .f32
  | 1 => some .bf16
  | 2 => some .i32
  | _ => none

/-- SC words (R31). -/
def decodeSC (w : Nat) : Option Instr :=
  match fld w 24 5 with
  | 1 => match fld w 0 6 with
      | 0 => if fld w 6 3 = 0 then some (.add (bits w 19 5) (bits w 14 5) (bits w 9 5)) else none
      | 1 => if fld w 6 3 = 0 then some (.sub (bits w 19 5) (bits w 14 5) (bits w 9 5)) else none
      | 2 => if fld w 6 3 = 0 then some (.and (bits w 19 5) (bits w 14 5) (bits w 9 5)) else none
      | 3 => if fld w 6 3 = 0 then some (.or (bits w 19 5) (bits w 14 5) (bits w 9 5)) else none
      | 4 => if fld w 6 3 = 0 then some (.xor (bits w 19 5) (bits w 14 5) (bits w 9 5)) else none
      | 5 => if fld w 6 3 = 0 then some (.andn (bits w 19 5) (bits w 14 5) (bits w 9 5)) else none
      | 6 => if fld w 6 3 = 0 then some (.orn (bits w 19 5) (bits w 14 5) (bits w 9 5)) else none
      | 7 => if fld w 6 3 = 0 then some (.xnor (bits w 19 5) (bits w 14 5) (bits w 9 5)) else none
      | 8 => if fld w 6 3 = 0 then some (.shl (bits w 19 5) (bits w 14 5) (bits w 9 5)) else none
      | 9 => if fld w 6 3 = 0 then some (.shr (bits w 19 5) (bits w 14 5) (bits w 9 5)) else none
      | 10 => if fld w 6 3 = 0 then some (.sra (bits w 19 5) (bits w 14 5) (bits w 9 5)) else none
      | 11 => if fld w 6 3 = 0 then some (.rol (bits w 19 5) (bits w 14 5) (bits w 9 5)) else none
      | 12 => if fld w 6 3 = 0 then some (.ror (bits w 19 5) (bits w 14 5) (bits w 9 5)) else none
      | 16 => if fld w 6 3 = 0 then some (.mul (bits w 19 5) (bits w 14 5) (bits w 9 5)) else none
      | 17 => if fld w 6 3 = 0 then some (.mulh (bits w 19 5) (bits w 14 5) (bits w 9 5)) else none
      | 18 => if fld w 6 3 = 0 then some (.mulhu (bits w 19 5) (bits w 14 5) (bits w 9 5)) else none
      | 19 => if fld w 6 3 = 0 then some (.mulhsu (bits w 19 5) (bits w 14 5) (bits w 9 5)) else none
      | 20 => if fld w 6 3 = 0 then some (.div (bits w 19 5) (bits w 14 5) (bits w 9 5)) else none
      | 21 => if fld w 6 3 = 0 then some (.divu (bits w 19 5) (bits w 14 5) (bits w 9 5)) else none
      | 22 => if fld w 6 3 = 0 then some (.rem (bits w 19 5) (bits w 14 5) (bits w 9 5)) else none
      | 23 => if fld w 6 3 = 0 then some (.remu (bits w 19 5) (bits w 14 5) (bits w 9 5)) else none
      | 24 => if fld w 6 3 = 0 then some (.min (bits w 19 5) (bits w 14 5) (bits w 9 5)) else none
      | 25 => if fld w 6 3 = 0 then some (.max (bits w 19 5) (bits w 14 5) (bits w 9 5)) else none
      | 26 => if fld w 6 3 = 0 then some (.minu (bits w 19 5) (bits w 14 5) (bits w 9 5)) else none
      | 27 => if fld w 6 3 = 0 then some (.maxu (bits w 19 5) (bits w 14 5) (bits w 9 5)) else none
      | 28 => if fld w 6 3 = 0 then some (.seq (bits w 19 5) (bits w 14 5) (bits w 9 5)) else none
      | 29 => if fld w 6 3 = 0 then some (.slt (bits w 19 5) (bits w 14 5) (bits w 9 5)) else none
      | 30 => if fld w 6 3 = 0 then some (.sltu (bits w 19 5) (bits w 14 5) (bits w 9 5)) else none
      | 32 => if fld w 6 8 = 0 then some (.clz (bits w 19 5) (bits w 14 5)) else none
      | 33 => if fld w 6 8 = 0 then some (.ctz (bits w 19 5) (bits w 14 5)) else none
      | 34 => if fld w 6 8 = 0 then some (.popc (bits w 19 5) (bits w 14 5)) else none
      | 35 => if fld w 6 8 = 0 then some (.brev (bits w 19 5) (bits w 14 5)) else none
      | 36 => if fld w 6 3 = 0 then (ExtSize.ofCode? (fld w 9 5)).bind fun size' => some (.sext (bits w 19 5) (bits w 14 5) size') else none
      | 37 => if fld w 6 3 = 0 then (ExtSize.ofCode? (fld w 9 5)).bind fun size' => some (.zext (bits w 19 5) (bits w 14 5) size') else none
      | _ => none
  | 2 => some (.addi (bits w 19 5) (bits w 14 5) (bits w 0 14))
  | 3 => some (.andi (bits w 19 5) (bits w 14 5) (bits w 0 14))
  | 4 => some (.ori (bits w 19 5) (bits w 14 5) (bits w 0 14))
  | 5 => some (.xori (bits w 19 5) (bits w 14 5) (bits w 0 14))
  | 6 => if fld w 6 8 = 0 then some (.shli (bits w 19 5) (bits w 14 5) (bits w 0 6)) else none
  | 7 => if fld w 6 8 = 0 then some (.shri (bits w 19 5) (bits w 14 5) (bits w 0 6)) else none
  | 8 => if fld w 6 8 = 0 then some (.srai (bits w 19 5) (bits w 14 5) (bits w 0 6)) else none
  | 9 => some (.slti (bits w 19 5) (bits w 14 5) (bits w 0 14))
  | 10 => some (.sltiu (bits w 19 5) (bits w 14 5) (bits w 0 14))
  | 11 => some (.muli (bits w 19 5) (bits w 14 5) (bits w 0 14))
  | 30 => some (.lis (bits w 19 5) (bits w 0 19))
  | 31 => some (.lihs (bits w 19 5) (bits w 0 19))
  | _ => none

/-- SB words (R32). -/
def decodeSB (w : Nat) : Option Instr :=
  match fld w 25 4 with
  | 0 => some (.beq (bits w 20 5) (bits w 15 5) (bits w 0 15))
  | 1 => some (.bne (bits w 20 5) (bits w 15 5) (bits w 0 15))
  | 2 => some (.blt (bits w 20 5) (bits w 15 5) (bits w 0 15))
  | 3 => some (.bge (bits w 20 5) (bits w 15 5) (bits w 0 15))
  | 4 => some (.bltu (bits w 20 5) (bits w 15 5) (bits w 0 15))
  | 5 => some (.bgeu (bits w 20 5) (bits w 15 5) (bits w 0 15))
  | 6 => some (.jal (bits w 20 5) (bits w 0 20))
  | 7 => some (.jalr (bits w 20 5) (bits w 15 5) (bits w 0 15))
  | 8 => match fld w 20 5 with
      | 0 => if fld w 0 15 = 0 then some (.loop (bits w 15 5)) else none
      | 1 => if fld w 0 20 = 0 then some (.knext) else none
      | 2 => if fld w 0 20 = 0 then some (.tend) else none
      | 3 => some (.spawn (bits w 15 5) (bits w 10 5) (bits w 0 10))
      | 4 => if fld w 8 12 = 0 then some (.join (bits w 0 8)) else none
      | 5 => if fld w 8 12 = 0 then some (.leave (bits w 0 8)) else none
      | 6 => if fld w 8 12 = 0 then some (.bar (bits w 0 8)) else none
      | 7 => if fld w 8 7 = 0 then some (.gqry (bits w 15 5) (bits w 0 8)) else none
      | 8 => if fld w 0 20 = 0 then some (.yield) else none
      | 9 => if fld w 0 15 = 0 then some (.tsub (bits w 15 5)) else none
      | 10 => if fld w 0 20 = 0 then some (.ckpt) else none
      | 11 => if fld w 4 11 = 0 then some (.movb (bits w 15 5) (bits w 0 4)) else none
      | 12 => if fld w 10 10 = 0 then some (.gsel (bits w 0 10)) else none
      | _ => none
  | 9 => match fld w 22 3 with
      | 0 => if fld w 9 5 = 0 then some (.waitf (bits w 14 8) (bits w 0 9)) else none
      | 1 => if fld w 9 5 = 0 then some (.setf (bits w 14 8) (bits w 0 9)) else none
      | 2 => if fld w 0 14 = 0 then some (.clrf (bits w 14 8)) else none
      | 3 => if fld w 0 9 = 0 then some (.waitfx (bits w 14 8) (bits w 9 5)) else none
      | 4 => if fld w 0 9 = 0 then some (.fread (bits w 14 8) (bits w 9 5)) else none
      | _ => none
  | 10 => if fld w 0 5 = 0 then some (.waitc (bits w 20 5) (bits w 15 5) (bits w 10 5) (bits w 5 5)) else none
  | 11 => match fld w 22 3 with
      | 0 => if fld w 0 17 = 0 then some (.tclr (bits w 17 5)) else none
      | 1 => if fld w 0 11 = 0 ∧ fld w 17 5 = 0 then some (.tclrv (bits w 11 6)) else none
      | 2 => if fld w 0 22 = 0 then some (.tclrc) else none
      | 3 => if fld w 0 6 = 0 ∧ fld w 11 6 = 0 then some (.tqry (bits w 17 5) (bits w 6 5)) else none
      | _ => none
  | 12 => match fld w 20 5 with
      | 0 => if fld w 10 5 = 0 then some (.sysrd (bits w 15 5) (bits w 0 10)) else none
      | 1 => if fld w 15 5 = 0 then some (.syswr (bits w 10 5) (bits w 0 10)) else none
      | 2 => if fld w 10 10 = 0 then some (.trap (bits w 0 10)) else none
      | 3 => if fld w 10 10 = 0 then some (.bkpt (bits w 0 10)) else none
      | 4 => if fld w 0 20 = 0 then some (.eret) else none
      | 5 => if fld w 0 10 = 0 then some (.tlbinv (bits w 15 5) (bits w 10 5)) else none
      | 6 => if fld w 2 8 = 0 then some (.wpset (bits w 15 5) (bits w 10 5) (bits w 0 2)) else none
      | 7 => if fld w 2 18 = 0 then some (.wpclr (bits w 0 2)) else none
      | 8 => if fld w 10 5 = 0 then some (.cntclaim (bits w 15 5) (bits w 0 10)) else none
      | 9 => if fld w 10 10 = 0 then some (.cntrel (bits w 0 10)) else none
      | 10 => if fld w 0 10 = 0 then some (.kegsave (bits w 15 5) (bits w 10 5)) else none
      | 11 => if fld w 0 10 = 0 then some (.kegload (bits w 15 5) (bits w 10 5)) else none
      | 12 => if fld w 6 9 = 0 then some (.flowdef (bits w 15 5) (bits w 0 6)) else none
      | 13 => if fld w 4 6 = 0 then some (.winset (bits w 15 5) (bits w 10 5) (bits w 0 4)) else none
      | _ => none
  | _ => none

/-- SM words (R33). -/
def decodeSM (w : Nat) : Option Instr :=
  match fld w 25 4 with
  | 0 => (Size.ofCode? (fld w 23 2)).bind fun size' => some (.ld size' (bits w 18 5) (bits w 13 5) (bits w 0 13))
  | 1 => (Size.ofCode? (fld w 23 2)).bind fun size' => some (.ldu size' (bits w 18 5) (bits w 13 5) (bits w 0 13))
  | 2 => (Size.ofCode? (fld w 23 2)).bind fun size' => some (.st size' (bits w 18 5) (bits w 13 5) (bits w 0 13))
  | 3 => if fld w 0 7 = 0 then (Size.ofCode? (fld w 23 2)).bind fun size' => (Scope.ofCode? (fld w 9 4)).bind fun scope' => (Order.ofCode? (fld w 7 2)).bind fun order' => some (.lds size' (bits w 18 5) (bits w 13 5) scope' order') else none
  | 4 => if fld w 0 7 = 0 then (Size.ofCode? (fld w 23 2)).bind fun size' => (Scope.ofCode? (fld w 9 4)).bind fun scope' => (Order.ofCode? (fld w 7 2)).bind fun order' => some (.sts size' (bits w 18 5) (bits w 13 5) scope' order') else none
  | 5 => (AOp.ofCode? (fld w 6 4)).bind fun op' => (Scope.ofCode? (fld w 2 4)).bind fun scope' => (Order.ofCode? (fld w 0 2)).bind fun order' => some (.atomw (bits w 20 5) (bits w 15 5) (bits w 10 5) op' scope' order')
  | 6 => (AOp.ofCode? (fld w 6 4)).bind fun op' => (Scope.ofCode? (fld w 2 4)).bind fun scope' => (Order.ofCode? (fld w 0 2)).bind fun order' => some (.atomd (bits w 20 5) (bits w 15 5) (bits w 10 5) op' scope' order')
  | 7 => if fld w 6 4 = 0 then (Scope.ofCode? (fld w 2 4)).bind fun scope' => (Order.ofCode? (fld w 0 2)).bind fun order' => some (.casw (bits w 20 5) (bits w 15 5) (bits w 10 5) scope' order') else none
  | 8 => if fld w 6 4 = 0 then (Scope.ofCode? (fld w 2 4)).bind fun scope' => (Order.ofCode? (fld w 0 2)).bind fun order' => some (.casd (bits w 20 5) (bits w 15 5) (bits w 10 5) scope' order') else none
  | 9 => if fld w 0 5 = 0 then (Scope.ofCode? (fld w 5 4)).bind fun scope' => some (.fence (bits w 17 8) (bits w 9 8) scope') else none
  | 10 => if fld w 18 5 = 0 then (PrefTarget.ofCode? (fld w 23 2)).bind fun tgt' => some (.pref tgt' (bits w 13 5) (bits w 0 13)) else none
  | 11 => if fld w 0 13 = 0 then (RcmOp.ofCode? (fld w 23 2)).bind fun op' => some (.rcm op' (bits w 18 5) (bits w 13 5)) else none
  | _ => none

/-- VL words (R34). -/
def decodeVL (w : Nat) : Option Instr :=
  match fld w 25 4 with
  | 0 => some (.vld (bits w 19 6) (bits w 14 5) (bits w 11 3) (bits w 0 11))
  | 1 => if fld w 0 4 = 0 then (ESize.ofCode? (fld w 4 2)).bind fun es' => some (.vlds (bits w 19 6) (bits w 14 5) (bits w 9 5) (bits w 6 3) es') else none
  | 2 => some (.vldx (bits w 19 6) (bits w 14 5) (bits w 8 6) (bits w 6 2) (decide (fld w 5 1 = 1)) (bits w 3 2) (bits w 0 3))
  | 3 => if fld w 0 14 = 0 then some (.vbindi (bits w 19 6) (bits w 14 5)) else none
  | 4 => if fld w 0 19 = 0 then some (.vunbindi (bits w 19 6)) else none
  | 5 => some (.vldt (bits w 19 6) (bits w 14 5) (bits w 11 3) (bits w 0 11))
  | 6 => some (.vldb (bits w 19 6) (bits w 14 5) (bits w 11 3) (bits w 0 11))
  | 15 => match fld w 24 1 with
      | 0 => if fld w 0 7 = 0 then some (.vlwait (bits w 16 8) (bits w 7 9)) else none
      | 1 => if fld w 0 7 = 0 then some (.vlset (bits w 16 8) (bits w 7 9)) else none
      | _ => none
  | _ => none

/-- VA words (R35). -/
def decodeVA (w : Nat) : Option Instr :=
  match fld w 23 6 with
  | 1 => some (.vadd (bits w 17 6) (bits w 11 6) (bits w 5 6) (bits w 2 3) (decide (fld w 1 1 = 1)) (decide (fld w 0 1 = 1)))
  | 2 => some (.vsub (bits w 17 6) (bits w 11 6) (bits w 5 6) (bits w 2 3) (decide (fld w 1 1 = 1)) (decide (fld w 0 1 = 1)))
  | 3 => some (.vmul (bits w 17 6) (bits w 11 6) (bits w 5 6) (bits w 2 3) (decide (fld w 1 1 = 1)) (decide (fld w 0 1 = 1)))
  | 4 => some (.vfma (bits w 17 6) (bits w 11 6) (bits w 5 6) (bits w 2 3) (decide (fld w 1 1 = 1)) (decide (fld w 0 1 = 1)))
  | 5 => some (.vfnma (bits w 17 6) (bits w 11 6) (bits w 5 6) (bits w 2 3) (decide (fld w 1 1 = 1)) (decide (fld w 0 1 = 1)))
  | 6 => some (.vmin (bits w 17 6) (bits w 11 6) (bits w 5 6) (bits w 2 3) (decide (fld w 1 1 = 1)) (decide (fld w 0 1 = 1)))
  | 7 => some (.vmax (bits w 17 6) (bits w 11 6) (bits w 5 6) (bits w 2 3) (decide (fld w 1 1 = 1)) (decide (fld w 0 1 = 1)))
  | 8 => if fld w 0 1 = 0 ∧ fld w 5 6 = 0 then some (.vabs (bits w 17 6) (bits w 11 6) (bits w 2 3) (decide (fld w 1 1 = 1))) else none
  | 9 => if fld w 0 1 = 0 ∧ fld w 5 6 = 0 then some (.vneg (bits w 17 6) (bits w 11 6) (bits w 2 3) (decide (fld w 1 1 = 1))) else none
  | 10 => some (.vdiv (bits w 17 6) (bits w 11 6) (bits w 5 6) (bits w 2 3) (decide (fld w 1 1 = 1)) (decide (fld w 0 1 = 1)))
  | 11 => if fld w 0 1 = 0 ∧ fld w 5 6 = 0 then some (.vsqrt (bits w 17 6) (bits w 11 6) (bits w 2 3) (decide (fld w 1 1 = 1))) else none
  | 12 => if fld w 0 1 = 0 ∧ fld w 5 6 = 0 then some (.vrsq (bits w 17 6) (bits w 11 6) (bits w 2 3) (decide (fld w 1 1 = 1))) else none
  | 13 => if fld w 0 1 = 0 ∧ fld w 5 6 = 0 then some (.vexp2 (bits w 17 6) (bits w 11 6) (bits w 2 3) (decide (fld w 1 1 = 1))) else none
  | 14 => if fld w 0 1 = 0 ∧ fld w 5 6 = 0 then some (.vlog2 (bits w 17 6) (bits w 11 6) (bits w 2 3) (decide (fld w 1 1 = 1))) else none
  | 15 => if fld w 0 1 = 0 ∧ fld w 5 6 = 0 then some (.vfclass (bits w 17 6) (bits w 11 6) (bits w 2 3) (decide (fld w 1 1 = 1))) else none
  | 16 => (Cond.ofCode? (fld w 17 3)).bind fun cond' => some (.vcmp (bits w 20 3) cond' (bits w 11 6) (bits w 5 6) (bits w 2 3) (decide (fld w 1 1 = 1)) (decide (fld w 0 1 = 1)))
  | 17 => if fld w 4 1 = 0 then some (.vsel (bits w 17 6) (bits w 11 6) (bits w 5 6) (bits w 2 2) (decide (fld w 1 1 = 1)) (decide (fld w 0 1 = 1))) else none
  | 18 => some (.vand (bits w 17 6) (bits w 11 6) (bits w 5 6) (bits w 2 3) (decide (fld w 1 1 = 1)) (decide (fld w 0 1 = 1)))
  | 19 => some (.vor (bits w 17 6) (bits w 11 6) (bits w 5 6) (bits w 2 3) (decide (fld w 1 1 = 1)) (decide (fld w 0 1 = 1)))
  | 20 => some (.vxor (bits w 17 6) (bits w 11 6) (bits w 5 6) (bits w 2 3) (decide (fld w 1 1 = 1)) (decide (fld w 0 1 = 1)))
  | 21 => some (.vshl (bits w 17 6) (bits w 11 6) (bits w 5 6) (bits w 2 3) (decide (fld w 1 1 = 1)) (decide (fld w 0 1 = 1)))
  | 22 => some (.vshr (bits w 17 6) (bits w 11 6) (bits w 5 6) (bits w 2 3) (decide (fld w 1 1 = 1)) (decide (fld w 0 1 = 1)))
  | 23 => some (.vsra (bits w 17 6) (bits w 11 6) (bits w 5 6) (bits w 2 3) (decide (fld w 1 1 = 1)) (decide (fld w 0 1 = 1)))
  | 24 => (Ty.ofCode? (fld w 7 4)).bind fun ty' => (RSel.ofCode? (fld w 5 2)).bind fun rs' => some (.vcvt (bits w 17 6) (bits w 11 6) ty' rs' (bits w 0 5))
  | 25 => if fld w 0 5 = 0 ∧ fld w 9 2 = 0 then (Ty.ofCode? (fld w 5 4)).bind fun ty' => some (.vpack (bits w 17 6) (bits w 11 6) ty') else none
  | 26 => if fld w 0 1 = 0 ∧ fld w 2 3 = 0 ∧ fld w 9 2 = 0 then (Ty.ofCode? (fld w 5 4)).bind fun ty' => some (.vunpk (bits w 17 6) (bits w 11 6) ty' (decide (fld w 1 1 = 1))) else none
  | 27 => if fld w 0 1 = 0 ∧ fld w 4 1 = 0 ∧ fld w 8 3 = 0 then (RedOp.ofCode? (fld w 5 3)).bind fun op' => some (.vred (bits w 17 6) (bits w 11 6) op' (bits w 2 2) (decide (fld w 1 1 = 1))) else none
  | 28 => if fld w 0 1 = 0 ∧ fld w 4 7 = 0 then some (.vargmax (bits w 17 6) (bits w 11 6) (bits w 2 2) (decide (fld w 1 1 = 1))) else none
  | 29 => some (.vperm (bits w 17 6) (bits w 11 6) (bits w 5 6) (bits w 2 3) (decide (fld w 1 1 = 1)) (decide (fld w 0 1 = 1)))
  | 30 => if fld w 0 1 = 0 ∧ fld w 5 1 = 0 then some (.vrot (bits w 17 6) (bits w 11 6) (bits w 6 5) (bits w 2 3) (decide (fld w 1 1 = 1))) else none
  | 31 => if fld w 0 2 = 0 ∧ fld w 4 2 = 0 ∧ fld w 11 6 = 0 then some (.vbcast (bits w 17 6) (bits w 6 5) (bits w 2 2)) else none
  | 32 => if fld w 0 1 = 0 ∧ fld w 5 1 = 0 then some (.vextr (bits w 17 6) (bits w 11 6) (bits w 6 5) (bits w 2 3) (decide (fld w 1 1 = 1))) else none
  | 33 => if fld w 0 2 = 0 ∧ fld w 4 13 = 0 then some (.viota (bits w 17 6) (bits w 2 2)) else none
  | 34 => if fld w 0 1 = 0 ∧ fld w 5 6 = 0 then some (.vmov (bits w 17 6) (bits w 11 6) (bits w 2 3) (decide (fld w 1 1 = 1))) else none
  | 35 => if fld w 0 5 = 0 ∧ fld w 7 4 = 0 ∧ fld w 17 6 = 0 then some (.vdrop (bits w 11 6) (bits w 5 2)) else none
  | 36 => if fld w 0 1 = 0 ∧ fld w 5 6 = 0 then some (.vcnt (bits w 17 6) (bits w 11 6) (bits w 2 3) (decide (fld w 1 1 = 1))) else none
  | 37 => some (.vmix (bits w 17 6) (bits w 11 6) (bits w 5 6) (bits w 2 3) (decide (fld w 1 1 = 1)) (decide (fld w 0 1 = 1)))
  | 38 => if fld w 0 1 = 0 ∧ fld w 5 6 = 0 then some (.vunif (bits w 17 6) (bits w 11 6) (bits w 2 3) (decide (fld w 1 1 = 1))) else none
  | 39 => some (.vaddx (bits w 17 6) (bits w 11 6) (bits w 5 6) (bits w 2 3) (decide (fld w 1 1 = 1)) (decide (fld w 0 1 = 1)))
  | 40 => some (.vmulx (bits w 17 6) (bits w 11 6) (bits w 5 6) (bits w 2 3) (decide (fld w 1 1 = 1)) (decide (fld w 0 1 = 1)))
  | 41 => some (.vfmax (bits w 17 6) (bits w 11 6) (bits w 5 6) (bits w 2 3) (decide (fld w 1 1 = 1)) (decide (fld w 0 1 = 1)))
  | 42 => if fld w 0 10 = 0 then some (.kop (bits w 20 3) (bits w 17 3) (bits w 14 3) (bits w 10 4)) else none
  | 43 => if fld w 0 14 = 0 then some (.kpopc (bits w 17 6) (bits w 14 3)) else none
  | 44 => match fld w 22 1 with
      | 0 => if fld w 13 9 = 0 then some (.vsett (bits w 0 13)) else none
      | 1 => if fld w 0 17 = 0 then some (.vsettXa (bits w 17 5)) else none
      | _ => none
  | 45 => if fld w 0 1 = 0 ∧ fld w 5 6 = 0 then some (.vtagr (bits w 17 6) (bits w 11 6) (bits w 2 3) (decide (fld w 1 1 = 1))) else none
  | 46 => if fld w 0 1 = 0 ∧ fld w 8 3 = 0 then (RMode.ofCode? (fld w 5 3)).bind fun rm' => some (.vrnd (bits w 17 6) (bits w 11 6) rm' (bits w 2 3) (decide (fld w 1 1 = 1))) else none
  | 47 => some (.vscale (bits w 17 6) (bits w 11 6) (bits w 5 6) (bits w 2 3) (decide (fld w 1 1 = 1)) (decide (fld w 0 1 = 1)))
  | 63 => match fld w 22 1 with
      | 0 => if fld w 0 5 = 0 then some (.vawait (bits w 14 8) (bits w 5 9)) else none
      | 1 => if fld w 0 5 = 0 then some (.vaset (bits w 14 8) (bits w 5 9)) else none
      | _ => none
  | _ => none

/-- VS words (R34). -/
def decodeVS (w : Nat) : Option Instr :=
  match fld w 25 4 with
  | 0 => some (.vst (bits w 19 6) (bits w 14 5) (bits w 11 3) (bits w 0 11))
  | 1 => if fld w 0 4 = 0 then (ESize.ofCode? (fld w 4 2)).bind fun es' => some (.vsts (bits w 19 6) (bits w 14 5) (bits w 9 5) (bits w 6 3) es') else none
  | 2 => some (.vstx (bits w 19 6) (bits w 14 5) (bits w 8 6) (bits w 6 2) (decide (fld w 5 1 = 1)) (bits w 3 2) (bits w 0 3))
  | 3 => if fld w 0 14 = 0 then some (.vbindo (bits w 19 6) (bits w 14 5)) else none
  | 4 => if fld w 0 19 = 0 then some (.vunbindo (bits w 19 6)) else none
  | 5 => some (.vstt (bits w 19 6) (bits w 14 5) (bits w 11 3) (bits w 0 11))
  | 6 => (AtomTy.ofCode? (fld w 6 2)).bind fun ty' => (Scope.ofCode? (fld w 0 4)).bind fun scope' => some (.vatoma (bits w 19 6) (bits w 14 5) (bits w 8 6) ty' (bits w 4 2) scope')
  | 7 => if fld w 0 11 = 0 then some (.vstrw (bits w 19 6) (bits w 14 5) (bits w 11 3)) else none
  | 15 => match fld w 24 1 with
      | 0 => if fld w 0 7 = 0 then some (.vswait (bits w 16 8) (bits w 7 9)) else none
      | 1 => if fld w 0 7 = 0 then some (.vsset (bits w 16 8) (bits w 7 9)) else none
      | _ => none
  | _ => none

/-- MX words (R37). -/
def decodeMX (w : Nat) : Option Instr :=
  match fld w 25 4 with
  | 0 => if fld w 0 13 = 0 then (MMem.ofCode? (fld w 23 2)).bind fun mem' => some (.mclaim mem' (bits w 17 6) (bits w 13 4)) else none
  | 1 => if fld w 0 13 = 0 then (MMem.ofCode? (fld w 23 2)).bind fun mem' => some (.mrel mem' (bits w 17 6) (bits w 13 4)) else none
  | 2 => if fld w 0 6 = 0 then (MMem.ofCode? (fld w 23 2)).bind fun mem' => some (.mxfer mem' (bits w 17 6) (bits w 12 5) (bits w 6 6)) else none
  | 3 => if fld w 0 9 = 0 then some (.mldw (bits w 19 6) (bits w 14 5) (bits w 9 5)) else none
  | 4 => if fld w 0 4 = 0 then some (.mlda (bits w 19 6) (bits w 14 5) (bits w 9 5) (bits w 4 5)) else none
  | 5 => if fld w 5 3 = 0 then some (.mpass (bits w 19 6) (bits w 13 6) (bits w 9 4) (decide (fld w 8 1 = 1)) (bits w 0 5)) else none
  | 6 => if fld w 5 3 = 0 then some (.mpassat (bits w 19 6) (bits w 13 6) (bits w 9 4) (decide (fld w 8 1 = 1)) (bits w 0 5)) else none
  | 7 => if fld w 0 4 = 0 then (OutTy.ofCode? (fld w 4 2)).bind fun ty' => some (.mdrain (bits w 21 4) (bits w 16 5) (bits w 11 5) (bits w 6 5) ty') else none
  | 8 => if fld w 0 5 = 0 then some (.mdrainv (bits w 21 4) (bits w 15 6) (bits w 10 5) (bits w 5 5)) else none
  | 9 => if fld w 0 9 = 0 then some (.mdrainp (bits w 21 4) (bits w 18 3) (bits w 14 4) (bits w 9 5)) else none
  | 10 => if fld w 0 13 = 0 ∧ fld w 23 2 = 2 then some (.mzero (bits w 17 6) (bits w 13 4)) else none
  | 11 => if fld w 0 8 = 0 then some (.mldv (bits w 19 6) (bits w 13 6) (bits w 8 5)) else none
  | 15 => match fld w 24 1 with
      | 0 => if fld w 0 7 = 0 then some (.mxwait (bits w 16 8) (bits w 7 9)) else none
      | 1 => if fld w 0 7 = 0 then some (.mxset (bits w 16 8) (bits w 7 9)) else none
      | _ => none
  | _ => none

/-- CP words (R38). -/
def decodeCP (w : Nat) : Option Instr :=
  match fld w 25 4 with
  | 0 => if fld w 8 2 = 0 then some (.cpl (bits w 20 5) (bits w 15 5) (bits w 10 5) (bits w 0 8)) else none
  | 1 => if fld w 8 2 = 0 then some (.cpt (bits w 20 5) (bits w 15 5) (bits w 10 5) (bits w 0 8)) else none
  | 2 => if fld w 8 2 = 0 then some (.cpg (bits w 20 5) (bits w 15 5) (bits w 10 5) (bits w 0 8)) else none
  | 3 => if fld w 8 2 = 0 then some (.cps (bits w 20 5) (bits w 15 5) (bits w 10 5) (bits w 0 8)) else none
  | 4 => if fld w 9 1 = 0 then some (.cpstg (bits w 20 5) (bits w 15 5) (bits w 10 5) (decide (fld w 8 1 = 1)) (bits w 0 8)) else none
  | 5 => (RedTy.ofCode? (fld w 8 2)).bind fun ty' => some (.cpred (bits w 20 5) (bits w 15 5) (bits w 10 5) ty' (bits w 0 8))
  | 6 => (Size.ofCode? (fld w 8 2)).bind fun w' => some (.cpfill (bits w 20 5) (bits w 15 5) (bits w 10 5) w' (bits w 0 8))
  | 7 => if fld w 9 1 = 0 then some (.cptag (bits w 20 5) (bits w 15 5) (bits w 10 5) (decide (fld w 8 1 = 1)) (bits w 0 8)) else none
  | 8 => if fld w 8 7 = 0 then some (.cpsig (bits w 20 5) (bits w 15 5) (bits w 0 8)) else none
  | 9 => if fld w 8 2 = 0 then some (.cpconv (bits w 20 5) (bits w 15 5) (bits w 10 5) (bits w 0 8)) else none
  | 15 => match fld w 24 1 with
      | 0 => if fld w 0 7 = 0 then some (.cpwait (bits w 16 8) (bits w 7 9)) else none
      | 1 => if fld w 0 7 = 0 then some (.cpset (bits w 16 8) (bits w 7 9)) else none
      | _ => none
  | _ => none

/-- The operands a word of a core class names, before the constraints of `Instr.wellFormed` (R28). -/
def decodeRaw (w : Nat) : Option Instr :=
  match fld w 29 3 with
  | 0 => decodeSC w
  | 1 => decodeSB w
  | 2 => decodeSM w
  | 3 => decodeVL w
  | 4 => decodeVA w
  | 5 => decodeVS w
  | 6 => decodeMX w
  | 7 => decodeCP w
  | _ => none

/-- Sparge operations before the constraints of `Instr.wellFormed` (R317). -/
def decodeSpargeRaw (w : Nat) : Option Instr :=
  match fld w 0 8 with
  | 1 => (Size.ofCode? (fld w 30 2)).bind fun z' => some (.pld z' (bits w 16 14) (bits w 12 4) (bits w 8 4))
  | 2 => if fld w 12 4 = 0 then some (.qld (bits w 16 16) (bits w 8 4)) else none
  | 3 => some (.tld (bits w 16 16) (bits w 12 4) (bits w 8 4))
  | 4 => some (.tst (bits w 16 16) (bits w 12 4) (bits w 8 4))
  | 5 => (Size.ofCode? (fld w 30 2)).bind fun z' => some (.est z' (bits w 16 14) (bits w 12 4) (bits w 8 4))
  | 6 => if fld w 12 4 = 0 then some (.li (bits w 16 16) (bits w 8 4)) else none
  | 7 => if fld w 12 4 = 0 then some (.lih (bits w 16 16) (bits w 8 4)) else none
  | 8 => if fld w 16 16 = 0 then some (.mov (bits w 12 4) (bits w 8 4)) else none
  | 9 => if fld w 16 16 = 0 then some (.spargeAdd (bits w 12 4) (bits w 8 4)) else none
  | 10 => if fld w 16 16 = 0 then some (.spargeSub (bits w 12 4) (bits w 8 4)) else none
  | 11 => if fld w 16 16 = 0 then some (.spargeAnd (bits w 12 4) (bits w 8 4)) else none
  | 12 => if fld w 16 16 = 0 then some (.spargeOr (bits w 12 4) (bits w 8 4)) else none
  | 13 => if fld w 16 16 = 0 then some (.spargeXor (bits w 12 4) (bits w 8 4)) else none
  | 14 => if fld w 12 4 = 0 then some (.spargeAddi (bits w 16 16) (bits w 8 4)) else none
  | 15 => if fld w 12 4 = 0 then some (.spargeShli (bits w 16 16) (bits w 8 4)) else none
  | 16 => if fld w 12 4 = 0 then some (.spargeShri (bits w 16 16) (bits w 8 4)) else none
  | 17 => if fld w 16 16 = 0 then some (.ceq (bits w 12 4) (bits w 8 4)) else none
  | 18 => if fld w 16 16 = 0 then some (.cltu (bits w 12 4) (bits w 8 4)) else none
  | 19 => if fld w 16 16 = 0 then some (.clt (bits w 12 4) (bits w 8 4)) else none
  | 20 => if fld w 12 4 = 0 then some (.bz (bits w 16 16) (bits w 8 4)) else none
  | 21 => if fld w 12 4 = 0 then some (.bnz (bits w 16 16) (bits w 8 4)) else none
  | 22 => if fld w 8 8 = 0 then some (.jmp (bits w 16 16)) else none
  | 23 => if fld w 8 8 = 0 then some (.spargeLoop (bits w 23 9) (bits w 16 7)) else none
  | 24 => if fld w 8 24 = 0 then some (.elaunch) else none
  | 25 => if fld w 8 24 = 0 then some (.egang) else none
  | 26 => if fld w 8 24 = 0 then some (.etile) else none
  | 27 => if fld w 8 24 = 0 then some (.ecopy) else none
  | 28 => if fld w 8 24 = 0 then some (.esignal) else none
  | 29 => if fld w 8 24 = 0 then some (.efence) else none
  | 30 => if fld w 8 8 = 0 then some (.reject (bits w 16 16)) else none
  | 31 => if fld w 8 24 = 0 then some (.done) else none
  | _ => none

/-- Turns a raw decoding into a decoding: reserved encodings first, operand constraints after (R30). -/
def checked : Option Instr → Except DecodeError Instr
  | none => .error .reserved
  | some i => if i.wellFormed then .ok i else .error .operand

/-- Decodes a word of a program image (R29, R30 steps 1 and 2). DESIGN CHOICE: assumption log entry 68. -/
def decodeWord (w : Nat) : Except DecodeError Instr := checked (decodeRaw w)

/-- Decodes one operation of a sparge program (R317). -/
def decodeSparge (w : Nat) : Except DecodeError Instr := checked (decodeSpargeRaw w)

/-- The word with a base value and further fields, each at its lowest bit (R28). -/
def word (base : Nat) (fields : List (Nat × Nat)) : Nat :=
  fields.foldl (fun w f => w + f.2 * 2 ^ f.1) base

/-- The word of an instruction; none for a step of the device that has no word (R31 to R39, R317). -/
def encode : Instr → Option Nat
  | .add xd xa xb => some (word 0x01000000 [(19, xd.toNat), (14, xa.toNat), (9, xb.toNat)])
  | .sub xd xa xb => some (word 0x01000001 [(19, xd.toNat), (14, xa.toNat), (9, xb.toNat)])
  | .and xd xa xb => some (word 0x01000002 [(19, xd.toNat), (14, xa.toNat), (9, xb.toNat)])
  | .or xd xa xb => some (word 0x01000003 [(19, xd.toNat), (14, xa.toNat), (9, xb.toNat)])
  | .xor xd xa xb => some (word 0x01000004 [(19, xd.toNat), (14, xa.toNat), (9, xb.toNat)])
  | .andn xd xa xb => some (word 0x01000005 [(19, xd.toNat), (14, xa.toNat), (9, xb.toNat)])
  | .orn xd xa xb => some (word 0x01000006 [(19, xd.toNat), (14, xa.toNat), (9, xb.toNat)])
  | .xnor xd xa xb => some (word 0x01000007 [(19, xd.toNat), (14, xa.toNat), (9, xb.toNat)])
  | .shl xd xa xb => some (word 0x01000008 [(19, xd.toNat), (14, xa.toNat), (9, xb.toNat)])
  | .shr xd xa xb => some (word 0x01000009 [(19, xd.toNat), (14, xa.toNat), (9, xb.toNat)])
  | .sra xd xa xb => some (word 0x0100000A [(19, xd.toNat), (14, xa.toNat), (9, xb.toNat)])
  | .rol xd xa xb => some (word 0x0100000B [(19, xd.toNat), (14, xa.toNat), (9, xb.toNat)])
  | .ror xd xa xb => some (word 0x0100000C [(19, xd.toNat), (14, xa.toNat), (9, xb.toNat)])
  | .mul xd xa xb => some (word 0x01000010 [(19, xd.toNat), (14, xa.toNat), (9, xb.toNat)])
  | .mulh xd xa xb => some (word 0x01000011 [(19, xd.toNat), (14, xa.toNat), (9, xb.toNat)])
  | .mulhu xd xa xb => some (word 0x01000012 [(19, xd.toNat), (14, xa.toNat), (9, xb.toNat)])
  | .mulhsu xd xa xb => some (word 0x01000013 [(19, xd.toNat), (14, xa.toNat), (9, xb.toNat)])
  | .div xd xa xb => some (word 0x01000014 [(19, xd.toNat), (14, xa.toNat), (9, xb.toNat)])
  | .divu xd xa xb => some (word 0x01000015 [(19, xd.toNat), (14, xa.toNat), (9, xb.toNat)])
  | .rem xd xa xb => some (word 0x01000016 [(19, xd.toNat), (14, xa.toNat), (9, xb.toNat)])
  | .remu xd xa xb => some (word 0x01000017 [(19, xd.toNat), (14, xa.toNat), (9, xb.toNat)])
  | .min xd xa xb => some (word 0x01000018 [(19, xd.toNat), (14, xa.toNat), (9, xb.toNat)])
  | .max xd xa xb => some (word 0x01000019 [(19, xd.toNat), (14, xa.toNat), (9, xb.toNat)])
  | .minu xd xa xb => some (word 0x0100001A [(19, xd.toNat), (14, xa.toNat), (9, xb.toNat)])
  | .maxu xd xa xb => some (word 0x0100001B [(19, xd.toNat), (14, xa.toNat), (9, xb.toNat)])
  | .seq xd xa xb => some (word 0x0100001C [(19, xd.toNat), (14, xa.toNat), (9, xb.toNat)])
  | .slt xd xa xb => some (word 0x0100001D [(19, xd.toNat), (14, xa.toNat), (9, xb.toNat)])
  | .sltu xd xa xb => some (word 0x0100001E [(19, xd.toNat), (14, xa.toNat), (9, xb.toNat)])
  | .clz xd xa => some (word 0x01000020 [(19, xd.toNat), (14, xa.toNat)])
  | .ctz xd xa => some (word 0x01000021 [(19, xd.toNat), (14, xa.toNat)])
  | .popc xd xa => some (word 0x01000022 [(19, xd.toNat), (14, xa.toNat)])
  | .brev xd xa => some (word 0x01000023 [(19, xd.toNat), (14, xa.toNat)])
  | .sext xd xa size => some (word 0x01000024 [(19, xd.toNat), (14, xa.toNat), (9, size.code)])
  | .zext xd xa size => some (word 0x01000025 [(19, xd.toNat), (14, xa.toNat), (9, size.code)])
  | .addi xd xa imm => some (word 0x02000000 [(19, xd.toNat), (14, xa.toNat), (0, imm.toNat)])
  | .andi xd xa imm => some (word 0x03000000 [(19, xd.toNat), (14, xa.toNat), (0, imm.toNat)])
  | .ori xd xa imm => some (word 0x04000000 [(19, xd.toNat), (14, xa.toNat), (0, imm.toNat)])
  | .xori xd xa imm => some (word 0x05000000 [(19, xd.toNat), (14, xa.toNat), (0, imm.toNat)])
  | .shli xd xa sh => some (word 0x06000000 [(19, xd.toNat), (14, xa.toNat), (0, sh.toNat)])
  | .shri xd xa sh => some (word 0x07000000 [(19, xd.toNat), (14, xa.toNat), (0, sh.toNat)])
  | .srai xd xa sh => some (word 0x08000000 [(19, xd.toNat), (14, xa.toNat), (0, sh.toNat)])
  | .slti xd xa imm => some (word 0x09000000 [(19, xd.toNat), (14, xa.toNat), (0, imm.toNat)])
  | .sltiu xd xa imm => some (word 0x0A000000 [(19, xd.toNat), (14, xa.toNat), (0, imm.toNat)])
  | .muli xd xa imm => some (word 0x0B000000 [(19, xd.toNat), (14, xa.toNat), (0, imm.toNat)])
  | .lis xd imm => some (word 0x1E000000 [(19, xd.toNat), (0, imm.toNat)])
  | .lihs xd imm => some (word 0x1F000000 [(19, xd.toNat), (0, imm.toNat)])
  | .beq xa xb off => some (word 0x20000000 [(20, xa.toNat), (15, xb.toNat), (0, off.toNat)])
  | .bne xa xb off => some (word 0x22000000 [(20, xa.toNat), (15, xb.toNat), (0, off.toNat)])
  | .blt xa xb off => some (word 0x24000000 [(20, xa.toNat), (15, xb.toNat), (0, off.toNat)])
  | .bge xa xb off => some (word 0x26000000 [(20, xa.toNat), (15, xb.toNat), (0, off.toNat)])
  | .bltu xa xb off => some (word 0x28000000 [(20, xa.toNat), (15, xb.toNat), (0, off.toNat)])
  | .bgeu xa xb off => some (word 0x2A000000 [(20, xa.toNat), (15, xb.toNat), (0, off.toNat)])
  | .jal xd off => some (word 0x2C000000 [(20, xd.toNat), (0, off.toNat)])
  | .jalr xd xa off => some (word 0x2E000000 [(20, xd.toNat), (15, xa.toNat), (0, off.toNat)])
  | .loop xa => some (word 0x30000000 [(15, xa.toNat)])
  | .knext => some (word 0x30100000 [])
  | .tend => some (word 0x30200000 [])
  | .spawn xa xb n => some (word 0x30300000 [(15, xa.toNat), (10, xb.toNat), (0, n.toNat)])
  | .join g => some (word 0x30400000 [(0, g.toNat)])
  | .leave g => some (word 0x30500000 [(0, g.toNat)])
  | .bar g => some (word 0x30600000 [(0, g.toNat)])
  | .gqry xd g => some (word 0x30700000 [(15, xd.toNat), (0, g.toNat)])
  | .yield => some (word 0x30800000 [])
  | .tsub xa => some (word 0x30900000 [(15, xa.toNat)])
  | .ckpt => some (word 0x30A00000 [])
  | .movb xd n => some (word 0x30B00000 [(15, xd.toNat), (0, n.toNat)])
  | .gsel g => some (word 0x30C00000 [(0, g.toNat)])
  | .waitf f n => some (word 0x32000000 [(14, f.toNat), (0, n.toNat)])
  | .setf f n => some (word 0x32400000 [(14, f.toNat), (0, n.toNat)])
  | .clrf f => some (word 0x32800000 [(14, f.toNat)])
  | .waitfx f x => some (word 0x32C00000 [(14, f.toNat), (9, x.toNat)])
  | .fread f xd => some (word 0x33000000 [(14, f.toNat), (9, xd.toNat)])
  | .waitc l s c t => some (word 0x34000000 [(20, l.toNat), (15, s.toNat), (10, c.toNat), (5, t.toNat)])
  | .tclr x => some (word 0x36000000 [(17, x.toNat)])
  | .tclrv v => some (word 0x36400000 [(11, v.toNat)])
  | .tclrc => some (word 0x36800000 [])
  | .tqry xd xa => some (word 0x36C00000 [(17, xd.toNat), (6, xa.toNat)])
  | .sysrd xd reg => some (word 0x38000000 [(15, xd.toNat), (0, reg.toNat)])
  | .syswr xs reg => some (word 0x38100000 [(10, xs.toNat), (0, reg.toNat)])
  | .trap code => some (word 0x38200000 [(0, code.toNat)])
  | .bkpt code => some (word 0x38300000 [(0, code.toNat)])
  | .eret => some (word 0x38400000 [])
  | .tlbinv xa xb => some (word 0x38500000 [(15, xa.toNat), (10, xb.toNat)])
  | .wpset xa xb n => some (word 0x38600000 [(15, xa.toNat), (10, xb.toNat), (0, n.toNat)])
  | .wpclr n => some (word 0x38700000 [(0, n.toNat)])
  | .cntclaim xd n => some (word 0x38800000 [(15, xd.toNat), (0, n.toNat)])
  | .cntrel n => some (word 0x38900000 [(0, n.toNat)])
  | .kegsave xa xb => some (word 0x38A00000 [(15, xa.toNat), (10, xb.toNat)])
  | .kegload xa xb => some (word 0x38B00000 [(15, xa.toNat), (10, xb.toNat)])
  | .flowdef xa f => some (word 0x38C00000 [(15, xa.toNat), (0, f.toNat)])
  | .winset xa xb w => some (word 0x38D00000 [(15, xa.toNat), (10, xb.toNat), (0, w.toNat)])
  | .ld size xd xa imm => some (word 0x40000000 [(23, size.code), (18, xd.toNat), (13, xa.toNat), (0, imm.toNat)])
  | .ldu size xd xa imm => some (word 0x42000000 [(23, size.code), (18, xd.toNat), (13, xa.toNat), (0, imm.toNat)])
  | .st size xs xa imm => some (word 0x44000000 [(23, size.code), (18, xs.toNat), (13, xa.toNat), (0, imm.toNat)])
  | .lds size xd xa scope order => some (word 0x46000000 [(23, size.code), (18, xd.toNat), (13, xa.toNat), (9, scope.code), (7, order.code)])
  | .sts size xs xa scope order => some (word 0x48000000 [(23, size.code), (18, xs.toNat), (13, xa.toNat), (9, scope.code), (7, order.code)])
  | .atomw xd xa xb op scope order => some (word 0x4A000000 [(20, xd.toNat), (15, xa.toNat), (10, xb.toNat), (6, op.code), (2, scope.code), (0, order.code)])
  | .atomd xd xa xb op scope order => some (word 0x4C000000 [(20, xd.toNat), (15, xa.toNat), (10, xb.toNat), (6, op.code), (2, scope.code), (0, order.code)])
  | .casw xd xa xb scope order => some (word 0x4E000000 [(20, xd.toNat), (15, xa.toNat), (10, xb.toNat), (2, scope.code), (0, order.code)])
  | .casd xd xa xb scope order => some (word 0x50000000 [(20, xd.toNat), (15, xa.toNat), (10, xb.toNat), (2, scope.code), (0, order.code)])
  | .fence ma mb scope => some (word 0x52000000 [(17, ma.toNat), (9, mb.toNat), (5, scope.code)])
  | .pref tgt xa imm => some (word 0x54000000 [(23, tgt.code), (13, xa.toNat), (0, imm.toNat)])
  | .rcm op xb xa => some (word 0x56000000 [(23, op.code), (18, xb.toNat), (13, xa.toNat)])
  | .vld vd xa k imm => some (word 0x60000000 [(19, vd.toNat), (14, xa.toNat), (11, k.toNat), (0, imm.toNat)])
  | .vlds vd xa xb k es => some (word 0x62000000 [(19, vd.toNat), (14, xa.toNat), (9, xb.toNat), (6, k.toNat), (4, es.code)])
  | .vldx vd xa vb iw sgn sc k => some (word 0x64000000 [(19, vd.toNat), (14, xa.toNat), (8, vb.toNat), (6, iw.toNat), (5, Bool.code sgn), (3, sc.toNat), (0, k.toNat)])
  | .vbindi vd xa => some (word 0x66000000 [(19, vd.toNat), (14, xa.toNat)])
  | .vunbindi vd => some (word 0x68000000 [(19, vd.toNat)])
  | .vldt vd xa k imm => some (word 0x6A000000 [(19, vd.toNat), (14, xa.toNat), (11, k.toNat), (0, imm.toNat)])
  | .vldb vd xa k imm => some (word 0x6C000000 [(19, vd.toNat), (14, xa.toNat), (11, k.toNat), (0, imm.toNat)])
  | .vlwait f n => some (word 0x7E000000 [(16, f.toNat), (7, n.toNat)])
  | .vlset f n => some (word 0x7F000000 [(16, f.toNat), (7, n.toNat)])
  | .vst vs xa k imm => some (word 0xA0000000 [(19, vs.toNat), (14, xa.toNat), (11, k.toNat), (0, imm.toNat)])
  | .vsts vs xa xb k es => some (word 0xA2000000 [(19, vs.toNat), (14, xa.toNat), (9, xb.toNat), (6, k.toNat), (4, es.code)])
  | .vstx vs xa vb iw sgn sc k => some (word 0xA4000000 [(19, vs.toNat), (14, xa.toNat), (8, vb.toNat), (6, iw.toNat), (5, Bool.code sgn), (3, sc.toNat), (0, k.toNat)])
  | .vbindo vs xa => some (word 0xA6000000 [(19, vs.toNat), (14, xa.toNat)])
  | .vunbindo vs => some (word 0xA8000000 [(19, vs.toNat)])
  | .vstt vs xa k imm => some (word 0xAA000000 [(19, vs.toNat), (14, xa.toNat), (11, k.toNat), (0, imm.toNat)])
  | .vatoma vs xa vb ty k scope => some (word 0xAC000000 [(19, vs.toNat), (14, xa.toNat), (8, vb.toNat), (6, ty.code), (4, k.toNat), (0, scope.code)])
  | .vstrw vs xo k => some (word 0xAE000000 [(19, vs.toNat), (14, xo.toNat), (11, k.toNat)])
  | .vswait f n => some (word 0xBE000000 [(16, f.toNat), (7, n.toNat)])
  | .vsset f n => some (word 0xBF000000 [(16, f.toNat), (7, n.toNat)])
  | .vadd vd va vb mk pa pb => some (word 0x80800000 [(17, vd.toNat), (11, va.toNat), (5, vb.toNat), (2, mk.toNat), (1, Bool.code pa), (0, Bool.code pb)])
  | .vsub vd va vb mk pa pb => some (word 0x81000000 [(17, vd.toNat), (11, va.toNat), (5, vb.toNat), (2, mk.toNat), (1, Bool.code pa), (0, Bool.code pb)])
  | .vmul vd va vb mk pa pb => some (word 0x81800000 [(17, vd.toNat), (11, va.toNat), (5, vb.toNat), (2, mk.toNat), (1, Bool.code pa), (0, Bool.code pb)])
  | .vfma vd va vb mk pa pb => some (word 0x82000000 [(17, vd.toNat), (11, va.toNat), (5, vb.toNat), (2, mk.toNat), (1, Bool.code pa), (0, Bool.code pb)])
  | .vfnma vd va vb mk pa pb => some (word 0x82800000 [(17, vd.toNat), (11, va.toNat), (5, vb.toNat), (2, mk.toNat), (1, Bool.code pa), (0, Bool.code pb)])
  | .vmin vd va vb mk pa pb => some (word 0x83000000 [(17, vd.toNat), (11, va.toNat), (5, vb.toNat), (2, mk.toNat), (1, Bool.code pa), (0, Bool.code pb)])
  | .vmax vd va vb mk pa pb => some (word 0x83800000 [(17, vd.toNat), (11, va.toNat), (5, vb.toNat), (2, mk.toNat), (1, Bool.code pa), (0, Bool.code pb)])
  | .vabs vd va mk pa => some (word 0x84000000 [(17, vd.toNat), (11, va.toNat), (2, mk.toNat), (1, Bool.code pa)])
  | .vneg vd va mk pa => some (word 0x84800000 [(17, vd.toNat), (11, va.toNat), (2, mk.toNat), (1, Bool.code pa)])
  | .vdiv vd va vb mk pa pb => some (word 0x85000000 [(17, vd.toNat), (11, va.toNat), (5, vb.toNat), (2, mk.toNat), (1, Bool.code pa), (0, Bool.code pb)])
  | .vsqrt vd va mk pa => some (word 0x85800000 [(17, vd.toNat), (11, va.toNat), (2, mk.toNat), (1, Bool.code pa)])
  | .vrsq vd va mk pa => some (word 0x86000000 [(17, vd.toNat), (11, va.toNat), (2, mk.toNat), (1, Bool.code pa)])
  | .vexp2 vd va mk pa => some (word 0x86800000 [(17, vd.toNat), (11, va.toNat), (2, mk.toNat), (1, Bool.code pa)])
  | .vlog2 vd va mk pa => some (word 0x87000000 [(17, vd.toNat), (11, va.toNat), (2, mk.toNat), (1, Bool.code pa)])
  | .vfclass vd va mk pa => some (word 0x87800000 [(17, vd.toNat), (11, va.toNat), (2, mk.toNat), (1, Bool.code pa)])
  | .vcmp kd cond va vb mk pa pb => some (word 0x88000000 [(20, kd.toNat), (17, cond.code), (11, va.toNat), (5, vb.toNat), (2, mk.toNat), (1, Bool.code pa), (0, Bool.code pb)])
  | .vsel vd va vb k pa pb => some (word 0x88800000 [(17, vd.toNat), (11, va.toNat), (5, vb.toNat), (2, k.toNat), (1, Bool.code pa), (0, Bool.code pb)])
  | .vand vd va vb mk pa pb => some (word 0x89000000 [(17, vd.toNat), (11, va.toNat), (5, vb.toNat), (2, mk.toNat), (1, Bool.code pa), (0, Bool.code pb)])
  | .vor vd va vb mk pa pb => some (word 0x89800000 [(17, vd.toNat), (11, va.toNat), (5, vb.toNat), (2, mk.toNat), (1, Bool.code pa), (0, Bool.code pb)])
  | .vxor vd va vb mk pa pb => some (word 0x8A000000 [(17, vd.toNat), (11, va.toNat), (5, vb.toNat), (2, mk.toNat), (1, Bool.code pa), (0, Bool.code pb)])
  | .vshl vd va vb mk pa pb => some (word 0x8A800000 [(17, vd.toNat), (11, va.toNat), (5, vb.toNat), (2, mk.toNat), (1, Bool.code pa), (0, Bool.code pb)])
  | .vshr vd va vb mk pa pb => some (word 0x8B000000 [(17, vd.toNat), (11, va.toNat), (5, vb.toNat), (2, mk.toNat), (1, Bool.code pa), (0, Bool.code pb)])
  | .vsra vd va vb mk pa pb => some (word 0x8B800000 [(17, vd.toNat), (11, va.toNat), (5, vb.toNat), (2, mk.toNat), (1, Bool.code pa), (0, Bool.code pb)])
  | .vcvt vd va ty rs vr => some (word 0x8C000000 [(17, vd.toNat), (11, va.toNat), (7, ty.code), (5, rs.code), (0, vr.toNat)])
  | .vpack vd va ty => some (word 0x8C800000 [(17, vd.toNat), (11, va.toNat), (5, ty.code)])
  | .vunpk vd va ty pa => some (word 0x8D000000 [(17, vd.toNat), (11, va.toNat), (5, ty.code), (1, Bool.code pa)])
  | .vred vd va op k pa => some (word 0x8D800000 [(17, vd.toNat), (11, va.toNat), (5, op.code), (2, k.toNat), (1, Bool.code pa)])
  | .vargmax vd va k pa => some (word 0x8E000000 [(17, vd.toNat), (11, va.toNat), (2, k.toNat), (1, Bool.code pa)])
  | .vperm vd va vb mk pa pb => some (word 0x8E800000 [(17, vd.toNat), (11, va.toNat), (5, vb.toNat), (2, mk.toNat), (1, Bool.code pa), (0, Bool.code pb)])
  | .vrot vd va xb mk pa => some (word 0x8F000000 [(17, vd.toNat), (11, va.toNat), (6, xb.toNat), (2, mk.toNat), (1, Bool.code pa)])
  | .vbcast vd xb k => some (word 0x8F800000 [(17, vd.toNat), (6, xb.toNat), (2, k.toNat)])
  | .vextr vd va xb mk pa => some (word 0x90000000 [(17, vd.toNat), (11, va.toNat), (6, xb.toNat), (2, mk.toNat), (1, Bool.code pa)])
  | .viota vd k => some (word 0x90800000 [(17, vd.toNat), (2, k.toNat)])
  | .vmov vd va mk pa => some (word 0x91000000 [(17, vd.toNat), (11, va.toNat), (2, mk.toNat), (1, Bool.code pa)])
  | .vdrop va n => some (word 0x91800000 [(11, va.toNat), (5, n.toNat)])
  | .vcnt vd va mk pa => some (word 0x92000000 [(17, vd.toNat), (11, va.toNat), (2, mk.toNat), (1, Bool.code pa)])
  | .vmix vd va vb mk pa pb => some (word 0x92800000 [(17, vd.toNat), (11, va.toNat), (5, vb.toNat), (2, mk.toNat), (1, Bool.code pa), (0, Bool.code pb)])
  | .vunif vd va mk pa => some (word 0x93000000 [(17, vd.toNat), (11, va.toNat), (2, mk.toNat), (1, Bool.code pa)])
  | .vaddx vd va vb mk pa pb => some (word 0x93800000 [(17, vd.toNat), (11, va.toNat), (5, vb.toNat), (2, mk.toNat), (1, Bool.code pa), (0, Bool.code pb)])
  | .vmulx vd va vb mk pa pb => some (word 0x94000000 [(17, vd.toNat), (11, va.toNat), (5, vb.toNat), (2, mk.toNat), (1, Bool.code pa), (0, Bool.code pb)])
  | .vfmax vd va vb mk pa pb => some (word 0x94800000 [(17, vd.toNat), (11, va.toNat), (5, vb.toNat), (2, mk.toNat), (1, Bool.code pa), (0, Bool.code pb)])
  | .kop kd ka kb fn => some (word 0x95000000 [(20, kd.toNat), (17, ka.toNat), (14, kb.toNat), (10, fn.toNat)])
  | .kpopc vd ka => some (word 0x95800000 [(17, vd.toNat), (14, ka.toNat)])
  | .vsett imm => some (word 0x96000000 [(0, imm.toNat)])
  | .vsettXa xa => some (word 0x96400000 [(17, xa.toNat)])
  | .vtagr vd va mk pa => some (word 0x96800000 [(17, vd.toNat), (11, va.toNat), (2, mk.toNat), (1, Bool.code pa)])
  | .vrnd vd va rm mk pa => some (word 0x97000000 [(17, vd.toNat), (11, va.toNat), (5, rm.code), (2, mk.toNat), (1, Bool.code pa)])
  | .vscale vd va vb mk pa pb => some (word 0x97800000 [(17, vd.toNat), (11, va.toNat), (5, vb.toNat), (2, mk.toNat), (1, Bool.code pa), (0, Bool.code pb)])
  | .vawait f n => some (word 0x9F800000 [(14, f.toNat), (5, n.toNat)])
  | .vaset f n => some (word 0x9FC00000 [(14, f.toNat), (5, n.toNat)])
  | .mclaim mem h n => some (word 0xC0000000 [(23, mem.code), (17, h.toNat), (13, n.toNat)])
  | .mrel mem h n => some (word 0xC2000000 [(23, mem.code), (17, h.toNat), (13, n.toNat)])
  | .mxfer mem h xa rh => some (word 0xC4000000 [(23, mem.code), (17, h.toNat), (12, xa.toNat), (6, rh.toNat)])
  | .mldw wb xa xb => some (word 0xC6000000 [(19, wb.toNat), (14, xa.toNat), (9, xb.toNat)])
  | .mlda ab xa xb xc => some (word 0xC8000000 [(19, ab.toNat), (14, xa.toNat), (9, xb.toNat), (4, xc.toNat)])
  | .mpass wb ab cb acc x => some (word 0xCA000000 [(19, wb.toNat), (13, ab.toNat), (9, cb.toNat), (8, Bool.code acc), (0, x.toNat)])
  | .mpassat wb ab cb acc x => some (word 0xCC000000 [(19, wb.toNat), (13, ab.toNat), (9, cb.toNat), (8, Bool.code acc), (0, x.toNat)])
  | .mdrain cb xa xb xc ty => some (word 0xCE000000 [(21, cb.toNat), (16, xa.toNat), (11, xb.toNat), (6, xc.toNat), (4, ty.code)])
  | .mdrainv cb vd xf xn => some (word 0xD0000000 [(21, cb.toNat), (15, vd.toNat), (10, xf.toNat), (5, xn.toNat)])
  | .mdrainp cb rank pcb x => some (word 0xD2000000 [(21, cb.toNat), (18, rank.toNat), (14, pcb.toNat), (9, x.toNat)])
  | .mzero h n => some (word 0xD5000000 [(17, h.toNat), (13, n.toNat)])
  | .mldv ab va x => some (word 0xD6000000 [(19, ab.toNat), (13, va.toNat), (8, x.toNat)])
  | .mxwait f n => some (word 0xDE000000 [(16, f.toNat), (7, n.toNat)])
  | .mxset f n => some (word 0xDF000000 [(16, f.toNat), (7, n.toNat)])
  | .cpl xa xb xc f => some (word 0xE0000000 [(20, xa.toNat), (15, xb.toNat), (10, xc.toNat), (0, f.toNat)])
  | .cpt xa xb xc f => some (word 0xE2000000 [(20, xa.toNat), (15, xb.toNat), (10, xc.toNat), (0, f.toNat)])
  | .cpg xa xb xc f => some (word 0xE4000000 [(20, xa.toNat), (15, xb.toNat), (10, xc.toNat), (0, f.toNat)])
  | .cps xa xb xc f => some (word 0xE6000000 [(20, xa.toNat), (15, xb.toNat), (10, xc.toNat), (0, f.toNat)])
  | .cpstg xa xb xc out f => some (word 0xE8000000 [(20, xa.toNat), (15, xb.toNat), (10, xc.toNat), (8, Bool.code out), (0, f.toNat)])
  | .cpred xa xb xc ty f => some (word 0xEA000000 [(20, xa.toNat), (15, xb.toNat), (10, xc.toNat), (8, ty.code), (0, f.toNat)])
  | .cpfill xa xb xc w f => some (word 0xEC000000 [(20, xa.toNat), (15, xb.toNat), (10, xc.toNat), (8, w.code), (0, f.toNat)])
  | .cptag xa xb xc strm f => some (word 0xEE000000 [(20, xa.toNat), (15, xb.toNat), (10, xc.toNat), (8, Bool.code strm), (0, f.toNat)])
  | .cpsig xa xb f => some (word 0xF0000000 [(20, xa.toNat), (15, xb.toNat), (0, f.toNat)])
  | .cpconv xa xb xc f => some (word 0xF2000000 [(20, xa.toNat), (15, xb.toNat), (10, xc.toNat), (0, f.toNat)])
  | .cpwait f n => some (word 0xFE000000 [(16, f.toNat), (7, n.toNat)])
  | .cpset f n => some (word 0xFF000000 [(16, f.toNat), (7, n.toNat)])
  | .pld z off a d => some (word 0x00000001 [(30, z.code), (16, off.toNat), (12, a.toNat), (8, d.toNat)])
  | .qld n d => some (word 0x00000002 [(16, n.toNat), (8, d.toNat)])
  | .tld t a d => some (word 0x00000003 [(16, t.toNat), (12, a.toNat), (8, d.toNat)])
  | .tst t a d => some (word 0x00000004 [(16, t.toNat), (12, a.toNat), (8, d.toNat)])
  | .est z off a d => some (word 0x00000005 [(30, z.code), (16, off.toNat), (12, a.toNat), (8, d.toNat)])
  | .li imm d => some (word 0x00000006 [(16, imm.toNat), (8, d.toNat)])
  | .lih imm d => some (word 0x00000007 [(16, imm.toNat), (8, d.toNat)])
  | .mov a d => some (word 0x00000008 [(12, a.toNat), (8, d.toNat)])
  | .spargeAdd a d => some (word 0x00000009 [(12, a.toNat), (8, d.toNat)])
  | .spargeSub a d => some (word 0x0000000A [(12, a.toNat), (8, d.toNat)])
  | .spargeAnd a d => some (word 0x0000000B [(12, a.toNat), (8, d.toNat)])
  | .spargeOr a d => some (word 0x0000000C [(12, a.toNat), (8, d.toNat)])
  | .spargeXor a d => some (word 0x0000000D [(12, a.toNat), (8, d.toNat)])
  | .spargeAddi imm d => some (word 0x0000000E [(16, imm.toNat), (8, d.toNat)])
  | .spargeShli imm d => some (word 0x0000000F [(16, imm.toNat), (8, d.toNat)])
  | .spargeShri imm d => some (word 0x00000010 [(16, imm.toNat), (8, d.toNat)])
  | .ceq a d => some (word 0x00000011 [(12, a.toNat), (8, d.toNat)])
  | .cltu a d => some (word 0x00000012 [(12, a.toNat), (8, d.toNat)])
  | .clt a d => some (word 0x00000013 [(12, a.toNat), (8, d.toNat)])
  | .bz imm d => some (word 0x00000014 [(16, imm.toNat), (8, d.toNat)])
  | .bnz imm d => some (word 0x00000015 [(16, imm.toNat), (8, d.toNat)])
  | .jmp imm => some (word 0x00000016 [(16, imm.toNat)])
  | .spargeLoop len n => some (word 0x00000017 [(23, len.toNat), (16, n.toNat)])
  | .elaunch => some (word 0x00000018 [])
  | .egang => some (word 0x00000019 [])
  | .etile => some (word 0x0000001A [])
  | .ecopy => some (word 0x0000001B [])
  | .esignal => some (word 0x0000001C [])
  | .efence => some (word 0x0000001D [])
  | .reject code => some (word 0x0000001E [(16, code.toNat)])
  | .done => some (word 0x0000001F [])
  | .budget _ => none
  | .tailDoorbell _ _ _ => none
  | .inlineDoorbell _ _ _ => none
  | .ringEnable _ _ _ => none
  | .lqEnable _ _ _ => none
  | .merge _ _ => none
  | .interpreterHandoff _ => none
  | .emissionTakesEffect _ _ => none
  | .ecopyCompletion _ _ => none
  | .spargeProgramLoad _ _ => none
  | .spargeProgramUnload _ _ => none
  | .evqConfigWrite _ _ _ => none
  | .functionRangeWrite _ _ _ _ => none
  | .weightCmd _ _ => none
  | .shapeW1 _ _ _ => none
  | .shapeW0 _ _ _ => none
  | .powerCtlOn _ => none
  | .powerCtlIdle _ => none
  | .powerCtlGated _ _ => none
  | .powerCtlSleep _ => none
  | .powerCtlOff _ => none
  | .powerTransitionDone => none
  | .telemetryRefresh _ _ _ _ => none
  | .thermalOrCurrentTrip _ _ _ => none
  | .registerWrite _ _ _ => none
  | .ctxCreate _ _ _ => none
  | .ctxSet _ _ _ _ => none
  | .ctxDestroy _ _ => none
  | .frameSet _ _ _ _ => none
  | .inval _ _ _ _ => none
  | .dirtyRead _ _ _ _ _ => none
  | .cntClaim _ _ => none
  | .cntRel _ _ => none
  | .epSet _ _ _ _ _ => none
  | .trapResolve _ _ _ _ => none
  | .unitRetire _ _ => none
  | .pageDone _ _ _ _ _ => none
  | .kegSaveCmd _ _ _ _ _ _ => none
  | .kegLoadCmd _ _ _ _ => none
  | .kegThaw _ _ => none
  | .migKey _ _ _ _ => none
  | .pagePush _ _ _ _ _ _ => none
  | .parkForward _ _ _ _ => none
  | .relayEnd _ _ => none
  | .slotLoad _ _ _ _ _ => none
  | .tensorSeal _ _ _ _ _ => none
  | .slotUnpin _ _ => none
  | .flr _ => none
  | .vfTeardown _ => none
  | .teardownDrainTimeout _ => none
  | .powerUp => none
  | .bootCtlGo _ _ => none
  | .fwCtlGo _ => none
  | .fwHeartbeat => none
  | .heartbeatTimeout => none
  | .getVersion _ => none
  | .getCapabilities _ => none
  | .negotiateAlgorithms _ _ => none
  | .getDigests _ => none
  | .getCertificate _ _ _ _ => none
  | .challenge _ _ _ => none
  | .getMeasurements _ _ _ _ => none
  | .keyExchange _ _ _ => none
  | .finish _ _ => none
  | .keyUpdate _ => none
  | .heartbeat _ => none
  | .endSession _ => none
  | .keyInstall _ _ _ _ => none
  | .keyTransfer _ _ _ _ => none
  | .ideKm _ _ _ => none
  | .ideIntegrityFail _ => none
  | .qdepthWrite _ _ => none
  | .vstatWrite _ _ => none
  | .waitlogConfigWrite _ _ _ => none
  | .trapqConfigWrite _ _ _ => none
  | .resume _ _ => none
  | .kill _ _ => none
  | .cntEventWrite _ _ _ => none
  | .stopreq _ _ => none
  | .postedWrite _ _ _ _ _ => none
  | .lineRead _ _ => none
  | .markedAccess _ _ _ => none
  | .signal _ _ _ => none
  | .bulletinRead _ _ => none
  | .acknowledgement _ _ _ => none
  | .retry _ _ => none
  | .retryResend _ _ => none
  | .endpointGone _ _ => none
  | .lineEviction _ _ _ => none
  | .streamFill _ _ => none
  | .streamDrain _ _ => none
  | .mdrainpArrival _ => none
  | .placement _ _ => none
  | .placementReservation _ _ => none
  | .overlayLoad _ _ => none
  | .boundaryLanding _ => none
  | .quarantineEnd _ _ => none
  | .parkThreshold _ => none
  | .deadlock _ => none
  | .claimCycle _ => none
  | .timedPassStart _ => none
  | .gangStart _ => none
  | .gangLate _ => none
  | .preempt _ => none
  | .preemptRollback _ => none
  | .mscRoomRollback _ => none
  | .trapDelivery _ _ => none
  | .versionCascade _ _ => none
  | .correctedError _ _ => none
  | .uncorrectableError _ => none
  | .patienceExpiry _ => none
  | .passBegin _ _ => none
  | .passEnd _ => none
  | .passAbandon _ => none
  | .bulletinRefresh => none
  | .traceSample _ => none
  | .kilnReset => none
  | .endMarker _ => none
  | .cancelMessage _ _ => none
  | .registerCacheEviction _ _ => none

/-- The instruction is an operation of a sparge program (R317). -/
def Instr.isSparge : Instr → Bool
  | .pld _ _ _ _ => true
  | .qld _ _ => true
  | .tld _ _ _ => true
  | .tst _ _ _ => true
  | .est _ _ _ _ => true
  | .li _ _ => true
  | .lih _ _ => true
  | .mov _ _ => true
  | .spargeAdd _ _ => true
  | .spargeSub _ _ => true
  | .spargeAnd _ _ => true
  | .spargeOr _ _ => true
  | .spargeXor _ _ => true
  | .spargeAddi _ _ => true
  | .spargeShli _ _ => true
  | .spargeShri _ _ => true
  | .ceq _ _ => true
  | .cltu _ _ => true
  | .clt _ _ => true
  | .bz _ _ => true
  | .bnz _ _ => true
  | .jmp _ => true
  | .spargeLoop _ _ => true
  | .elaunch => true
  | .egang => true
  | .etile => true
  | .ecopy => true
  | .esignal => true
  | .efence => true
  | .reject _ => true
  | .done => true
  | _ => false

/-- The instruction is a word of a program image (R28). -/
def Instr.isWord (i : Instr) : Bool := (encode i).isSome && !i.isSparge

/-- One 32-bit word of the opcode table: a core word if it is one, otherwise a sparge operation. The two spaces
overlap in numbers only (a sparge program is never fetched by a sequencer); DESIGN CHOICE, assumption log entry 7. -/
def decodeTableWord (nbits w : Nat) : Option Instr :=
  if nbits = 32 then
    match decodeWord w with
    | .ok i => some i
    | .error _ =>
      match decodeSparge w with
      | .ok i => some i
      | .error _ => none
  else none

/-- The word held by four bytes, the first at the lowest address (R3, R28). -/
def wordOfBytes (b0 b1 b2 b3 : BitVec 8) : Nat :=
  b0.toNat + b1.toNat * 2 ^ 8 + b2.toNat * 2 ^ 16 + b3.toNat * 2 ^ 24

end Sys2Proof
end

