-- ==== Sys2Proof/Machine/Data.lean ====
section
/-! DEFINITION. Sparse tables by number, memory as tables of bytes and block tags, and the byte-order helpers
that every access uses (R3). -/

namespace Sys2Proof.Machine

/-- A sparse table keyed by numbers: keys strictly rising. -/
abbrev NMap (α : Type) := List (Nat × α)

/-- The entry at a key; the default value where none is listed. -/
def NMap.get {α : Type} [Inhabited α] : NMap α → Nat → α
  | [], _ => default
  | (j, v) :: t, k => if j = k then v else if k < j then default else NMap.get t k

/-- Whether a key is listed. -/
def NMap.has {α : Type} : NMap α → Nat → Bool
  | [], _ => false
  | (j, _) :: t, k => if j = k then true else if k < j then false else NMap.has t k

/-- The table with the key listed at a value. -/
def NMap.put {α : Type} : NMap α → Nat → α → NMap α
  | [], k, v => [(k, v)]
  | (j, w) :: t, k, v =>
    if k < j then (k, v) :: (j, w) :: t
    else if j = k then (k, v) :: t
    else (j, w) :: NMap.put t k v

/-- The table with the key unlisted. -/
def NMap.erase {α : Type} : NMap α → Nat → NMap α
  | [], _ => []
  | (j, w) :: t, k => if k < j then (j, w) :: t else if j = k then t else (j, w) :: NMap.erase t k

/-- The table with a value at a key, in the canonical form: an entry that equals the default is not listed. -/
def NMap.set {α : Type} [Inhabited α] [DecidableEq α] (m : NMap α) (k : Nat) (v : α) : NMap α :=
  if v = default then NMap.erase m k else NMap.put m k v

/-- The canonical form: keys strictly rising (above a bound), no entry at the default value. -/
def NMap.wfFrom {α : Type} [Inhabited α] [DecidableEq α] : Nat → NMap α → Bool
  | _, [] => true
  | lo, (j, v) :: t => decide (lo ≤ j) && decide (v ≠ default) && NMap.wfFrom (j + 1) t

/-- The canonical form of a table. -/
def NMap.wf {α : Type} [Inhabited α] [DecidableEq α] (m : NMap α) : Bool := NMap.wfFrom 0 m

/-- Replaces the value at a key by a function of it. -/
def NMap.upd {α : Type} [Inhabited α] (m : NMap α) (k : Nat) (f : α → α) : NMap α := NMap.put m k (f (NMap.get m k))

/-- The keys listed. -/
def NMap.keys {α : Type} (m : NMap α) : List Nat := m.map (·.1)

/-- The lowest number from a start that is not listed, within a limit. -/
def NMap.lowestFree {α : Type} (m : NMap α) : Nat → Nat → Option Nat
  | 0, _ => none
  | fuel + 1, k => if NMap.has m k then NMap.lowestFree m fuel (k + 1) else some k

/-- A byte memory with a 32-bit tag per 64-byte block, both sparse: an unlisted byte reads 0 and an unlisted
block has tag 0 (R3, R67; DESIGN CHOICE, assumption log entry 1). The byte cells are `Host.Cell` pairs. -/
structure Memory where
  cells : List Host.Cell
  tags : NMap W32
  deriving DecidableEq, Repr, Inhabited

/-- The canonical form of a memory: both tables are canonical. -/
def Memory.wf (m : Memory) : Bool := NMap.wf (α := Byte) m.cells && NMap.wf m.tags

/-- The byte at an address. -/
def Memory.byte (m : Memory) (a : Nat) : Byte := NMap.get (α := Byte) m.cells a

/-- The tag of the block that holds an address (R67). -/
def Memory.tag (m : Memory) (a : Nat) : W32 := NMap.get m.tags (a / 64)

/-- The memory with one byte written. -/
def Memory.setByte (m : Memory) (a : Nat) (b : Byte) : Memory := { m with cells := NMap.set (α := Byte) m.cells a b }

/-- The memory with the tag of the block that holds an address written. -/
def Memory.setTag (m : Memory) (a : Nat) (t : W32) : Memory := { m with tags := NMap.set m.tags (a / 64) t }

/-- The bytes from an address on. -/
def Memory.bytes (m : Memory) (a : Nat) : Nat → List Byte
  | 0 => []
  | n + 1 => m.byte a :: m.bytes (a + 1) n

/-- The memory with bytes written from an address on. -/
def Memory.setBytes (m : Memory) (a : Nat) : List Byte → Memory
  | [] => m
  | b :: t => Memory.setBytes (m.setByte a b) (a + 1) t

/-- The number whose little-endian bytes are given (R3). -/
def leNat : List Byte → Nat
  | [] => 0
  | b :: t => b.toNat + 256 * leNat t

/-- The n little-endian bytes of a number (R3). -/
def natLE : Nat → Nat → List Byte
  | 0, _ => []
  | n + 1, v => BitVec.ofNat 8 v :: natLE n (v / 256)

/-- The n bytes at an address as a number (R3). -/
def Memory.readLE (m : Memory) (a n : Nat) : Nat := leNat (m.bytes a n)

/-- The memory with the n bytes of a number written at an address (R3). -/
def Memory.writeLE (m : Memory) (a n v : Nat) : Memory := m.setBytes a (natLE n v)

/-- Consecutive chunks of a list. -/
def chunks {α : Type} (n : Nat) : Nat → List α → List (List α)
  | 0, _ => []
  | _, [] => []
  | fuel + 1, l => l.take n :: chunks n fuel (l.drop n)

/-- A list padded with a value or cut to a length. -/
def fitTo {α : Type} (n : Nat) (d : α) (l : List α) : List α := (l ++ List.replicate (n - l.length) d).take n

/-- The numbers from a start on. -/
def countFrom : Nat → Nat → List Nat
  | _, 0 => []
  | a, n + 1 => a :: countFrom (a + 1) n

/-- The first element that a test accepts, with its index. -/
def findIdx {α : Type} (p : α → Bool) : Nat → List α → Option (Nat × α)
  | _, [] => none
  | i, x :: t => if p x then some (i, x) else findIdx p (i + 1) t

/-- The i-th element replaced. -/
def setAt {α : Type} : List α → Nat → α → List α
  | [], _, _ => []
  | _ :: t, 0, v => v :: t
  | x :: t, i + 1, v => x :: setAt t i v

end Sys2Proof.Machine
end

