-- ==== Sys2Proof/Machine/State.lean ====
section
/-! DEFINITION. The state of the package as plain data: everything that spec/ gives the machine (INVENTORY.md lists
the rule of each piece), the few fields that are the model's own, and the state after power-up. -/

namespace Sys2Proof.Machine

/-- Why a step stops. No step does: every turn answers a next state, and a turn of an agent that does not exist changes nothing. -/
inductive Fault where
  /-- An agent named by the schedule does not exist. Raised by no step of this model: a turn that names no agent passes. Safe. -/
  | noAgent
  deriving DecidableEq, Repr, Inhabited

/-- Why an instruction has no meaning. -/
inductive Refusal where
  /-- The instruction has no meaning in the model yet. Raised by the arms of `exec` that name it. Safe. -/
  | notModelled (mnemonic : String)
  deriving DecidableEq, Repr, Inhabited

/-- The five engines of a core (R12). -/
inductive Eng where
  | vl
  | va
  | vs
  | mx
  | cp
  deriving DecidableEq, Repr, Inhabited

/-- An engine's number as TRAP_STATE.UNIT and the wait log name it (R251, R370). -/
def Eng.code : Eng → Nat
  | .vl => 1
  | .va => 2
  | .vs => 3
  | .mx => 4
  | .cp => 5

/-- A vector clock: for each path of each thread, how many of its accesses are known to come before (R177). Keys are
thread key times 256 plus path number (R151); a stream has a path of its own
(R208). -/
abbrev Clock := NMap Nat

/-- A scalar register (R40). -/
structure XReg where
  val : W64
  taint : BitVec 16
  sat : Bool
  deriving DecidableEq, Repr, Inhabited

/-- One entry of a vector register (R40), with what the vector loads that its value comes from, and that its taint would name, come after, them
included (R168, R176). -/
structure VEntry where
  data : VData
  taint : BitVec 16
  sat : Bool
  owner : W32
  after : Clock := []
  deriving DecidableEq, Repr, Inhabited

/-- A watchpoint (R427). -/
structure Watch where
  base : W64
  ctl : W64
  deriving DecidableEq, Repr, Inhabited

/-- What a vector register is bound to (R43). -/
inductive BindKind where
  | free
  | input
  | output
  deriving DecidableEq, Repr, Inhabited

/-- A stream held by a bound vector register: its descriptor's address and eight words, the position, and what its accesses
wait for: the control taint captured when its word was pushed, and the tickets that were live then (R171, R206 to R210); its word's place among
all the words pushed, and the watchpoints set then (R157, R428). -/
structure Stream where
  active : Bool
  out : Bool
  descVa : W64
  desc : List W64
  pos : Nat
  held : Option Trap
  taint : BitVec 16
  sat : Bool
  live : BitVec 16
  ver : Nat
  pc : Nat
  slot : Nat
  ser : Nat := 0
  wps : NMap Watch := []
  deriving DecidableEq, Repr, Inhabited

/-- A vector register: its entries, oldest first, the slot of the head, its binding as the sequencer marks it, and
the stream itself once the binding entry has run, and what the slots without an entry held last (R40, R43, R46). -/
structure VReg where
  fifo : List VEntry
  head : Nat
  kind : BindKind
  strm : Stream
  rest : NMap VEntry := []
  deriving DecidableEq, Repr, Inhabited

/-- A mask register (R40), with what the vector loads that its value comes from come after (R176); the owner tag is used in a pass slot (R284). -/
structure KReg where
  val : BitVec 512
  taint : BitVec 16
  sat : Bool
  owner : W32
  after : Clock := []
  deriving DecidableEq, Repr, Inhabited

/-- The phases of a task (R231). -/
inductive Phase where
  | prologue
  | kernel
  | epilogue
  deriving DecidableEq, Repr, Inhabited

/-- A loop record (R54) with its address; the PC fields are word indices of one model slot. -/
structure Rec where
  addr : W64
  slot : Nat
  proPc : Nat
  kerPc : Nat
  epiPc : Nat
  trip : W64
  commit : W32
  budget : W32
  trailer : BitVec 5
  epicommit : Bool
  args : W64
  next : W64
  deriving DecidableEq, Repr, Inhabited

/-- The register frame of a thread (R46): what a commit point saves and a roll-back restores. -/
structure Frame where
  x : NMap XReg
  v : NMap VReg
  k : NMap KReg
  f : NMap W32
  b : NMap W64
  vtype : W32
  vstat : W64
  ctaint : BitVec 16
  csat : Bool
  gsel : Option (BitVec 8)
  pc : Nat
  phase : Phase
  iter : W64
  task : Rec
  epiTaken : Bool
  bnd : Option W64
  deriving DecidableEq, Repr, Inhabited

/-- The spaces whose blocks a version can restore (R378). -/
inductive Space where
  | hbm
  | scratch (key : Nat)
  | staging
  deriving DecidableEq, Repr, Inhabited

/-- What a copy has done so far to a destination block that it has written in part (R72): the bytes, whether one came from
a POISON block, and the source block when there is one and the alignment matches. -/
structure Cover where
  sp : Space
  line : Nat
  mask : BitVec 64
  poison : Bool
  src : Option Nat
  deriving DecidableEq, Repr, Inhabited

/-- A held report (R377): a trap, with the version it was made for; for a version that has been discarded since, the task it ran and
whether it had published (R370, R387). -/
structure Held where
  t : Trap
  watch : Option Nat
  source : Nat
  verId : Nat
  gone : Option (W64 × Bool) := none
  deriving DecidableEq, Repr, Inhabited

/-- One entry of an engine's queue (R12, R41, R169): the word, its number, where it was pushed, the captured scalar
operands, control taint, live tickets, resolved group and version, its progress, and its place among all the words the
thread has pushed, its mask operand where a later VA entry has overwritten the register (R187), for a copy the
descriptor it has read, what it has written in part and the granules of the chunk under way that are still to be sent (R185, R214), when it
came to the head of its queue (R134), the remote lines that it has asked for with their packets (R191), what the loads of its control taint come after, which only its writes wait for (R173, R176), the watchpoints set when its word was pushed (R428), the hits of what it has
performed (R429), and the bytes that a load has read before the rest (R159). -/
structure QEntry where
  word : Instr
  num : Nat
  pc : Nat
  slot : Nat
  ops : List XReg
  ctaint : BitVec 16
  csat : Bool
  live : BitVec 16
  group : Option (BitVec 8)
  ver : Nat
  ticket : Option Nat
  since : Option Nat
  progress : Nat
  started : Bool
  deps : Clock
  pkts : List Nat
  ser : Nat
  taskNo : Nat
  kcap : Option KReg
  dwords : List W64
  cov : List Cover
  grans : Option (List (Nat × Nat × BitVec 512 × BitVec 64))
  headAt : Option Nat
  asked : List ((Nat × Nat) × Nat)
  cdeps : Clock
  wps : NMap Watch := []
  hits : List Held := []
  early : List (Space × Nat × Byte) := []
  deriving DecidableEq, Repr, Inhabited

/-- One queue: its entries, oldest first, and the entries ever pushed (R12, R371). -/
structure Queue where
  entries : List QEntry
  pushed : Nat
  deriving DecidableEq, Repr, Inhabited

/-- One load ticket (R167): whether it is live, and what an access that waits for it comes after: its load, and what that acquired (R176). -/
structure Ticket where
  live : Bool
  sq : Bool
  acq : Clock
  deriving DecidableEq, Repr, Inhabited

/-- The nine trap registers (R370). -/
structure TrapRegs where
  cause : W64
  addr : W64
  cut : W64
  info : W64
  pc : W64
  task : W64
  iter : W64
  state : W64
  ver : W64
  deriving DecidableEq, Repr, Inhabited

/-- A remote window (R200, R334): its two registers, its flow. -/
structure Win where
  target : W64
  limit : BitVec 10
  inflight : Nat
  deriving DecidableEq, Repr, Inhabited

/-- A flow of the thread (R334, R335): its mode, and the next sequence number for each destination endpoint. -/
structure Flow where
  unordered : Bool
  seqs : NMap Nat
  deriving DecidableEq, Repr, Inhabited

/-- A line of the remote line cache (R184): its bytes, whether it has been filled, and the bytes not yet written back. DESIGN CHOICE:
assumption log entry 67. -/
structure RLine where
  data : BitVec 512
  valid : Bool
  dirty : BitVec 64
  deriving DecidableEq, Repr, Inhabited

/-- The image of a WB, AB or CB slot bound to a handle (R124): its bytes and block tags, owner tags and status of
rows, FILL, whether an error has made it unusable (R396), and whether it is
lent from the pass-slot reserve (R123). -/
structure Slot where
  mem : Memory
  owner : NMap W32
  status : NMap (BitVec 8)
  fill : Nat
  bad : Bool
  dirty : Bool
  lent : Bool
  deriving DecidableEq, Repr, Inhabited

/-- A committed image of a CB handle (R128, R378). -/
structure CbSave where
  handle : Nat
  img : Slot
  deriving DecidableEq, Repr, Inhabited

/-- An MDRAINP round in progress at a receiving CB handle (R145). -/
structure Round where
  cb : Nat
  turn : Nat
  rows : Nat
  clk : Clock
  deriving DecidableEq, Repr, Inhabited

/-- An undo record of one write to one 64-byte block: the block's old bytes and tag, which bytes the write covers and
whether it wrote the tag, and its place in the order of all writes (R378). -/
structure Undo where
  space : Space
  line : Nat
  old : BitVec 512
  mask : BitVec 64
  oldTag : W32
  tagW : Bool
  stamp : Nat
  deriving DecidableEq, Repr, Inhabited

/-- The placement of the agent of an access when it was performed (R160, R161): its thread, core and context. -/
structure Agent where
  key : Nat
  core : Nat
  cid : Nat
  deriving DecidableEq, Repr, Inhabited

/-- A record of an access to global memory by a live version (R180), with its agent's placement. -/
structure Access where
  by_ : Agent
  path : Nat
  epoch : Nat
  lo : Nat
  len : Nat
  va : Nat
  write : Bool
  marked : Bool
  scope : Nat
  deriving DecidableEq, Repr, Inhabited

/-- What a boundary's restart point holds besides its frame (R128, R381): the images of CB slots, the bound WB and AB handles, which AB handles hold lent slots, and the task
whose handles they are, as the last MX entry of the ended task left them; and the dirty remote lines. -/
structure Landing where
  frame : Frame
  endTask : Nat
  cb : List CbSave
  wb : List Nat
  ab : List Nat
  lent : List Nat
  task : Nat
  lines : NMap RLine
  deriving DecidableEq, Repr, Inhabited

/-- A live version of a task (R378): id, undo records newest first, accesses, the lines of HBM it has written, what publishing left, use since
the last KNEXT and in all, the versions it depends on, the record it runs, and whether it waits at a publishing act or at a commit point, with
the frame that it will save there (R387). -/
structure Version where
  id : Nat
  undo : List Undo
  acc : List Access
  lines : List Nat
  published : Bool
  use : Nat
  useKnext : Nat
  deps : List Nat
  task : W64
  budget : W32
  landing : Option Landing
  waiting : Bool
  pend : Option Frame
  deriving DecidableEq, Repr, Inhabited

/-- Where a thread stands (R237, R373, R388, R403, R423). -/
inductive Run where
  | waiting
  | resident
  | parkedPage (t : Trap)
  | parkedWait
  | trapped
  | unstarted
  deriving DecidableEq, Repr, Inhabited

/-- What a unit is waiting on (R251, R261): a barrier it has still to arrive at, for its own entries, or has arrived at; a full scoreboard, a FIFO without an entry or without room, a stream that is exhausted, a claim, something
that another agent ends, or a condition of the thread's own. -/
inductive WaitKind where
  | running
  | flag
  | barIn
  | bar (gen : W64)
  | waitc
  | fence
  | commit
  | queue
  | board
  | ticket
  | boundary (step : Nat)
  | empty
  | full
  | exhausted
  | claim
  | outside
  | other
  deriving DecidableEq, Repr, Inhabited

/-- A wait of the sequencer: what it waits on and since when. -/
structure Wait where
  kind : WaitKind
  since : Nat
  deriving DecidableEq, Repr, Inhabited

/-- The page a walk ends at: physical address of the byte, whether it lies in host memory, the leaf's rights, and the
table that held the leaf as TRAP_INFO names it (R346, R347). -/
structure Leaf where
  pa : Nat
  host : Bool
  rd : Bool
  wr : Bool
  granary : Bool
  dt : Bool
  tbl : Nat
  deriving DecidableEq, Repr, Inhabited

/-- Where a piece of an access lies. -/
inductive Tgt where
  | hbm
  | granary
  | host
  | own
  | peer (key : Nat)
  | remote (w : Nat)
  deriving DecidableEq, Repr, Inhabited

/-- A translation that a core, or the row cache of a die, holds (R351): the page of 64 KiB that it is of, and what the walk found there; the
generation of the context that was current at the walk (R353). -/
structure Trans where
  place : Nat
  cid : Nat
  page : Nat
  tgt : Tgt
  leaf : Leaf
  gen : BitVec 16
  deriving DecidableEq, Repr, Inhabited

/-- An invalidation in progress (R353): its number, its context and range, none for the whole tree. -/
structure Inval where
  id : Nat
  cid : Nat
  range : Option (Nat × Nat)
  deriving DecidableEq, Repr, Inhabited

/-- A range recorded by the scoreboard (R157): whole allotment or a byte range of a scratch, or a handle run; and the
place of its push among all of the package, with the engine and number of its entry. -/
structure Score where
  eng : Eng
  num : Nat
  ser : Nat
  ord : Nat
  key : Nat
  lo : Nat
  len : Nat
  wb : List Nat
  ab : List Nat
  deriving DecidableEq, Repr, Inhabited

/-- A FENCE that has still to hold or to order entries: its place among the words pushed, its masks, whether posted remote writes
must be acknowledged, whether remote lines are to be invalidated before the next VL entry behind it, and what it orders before the later
entries of its B paths: the A accesses of words before it, as far as they have been made (R155, R184). -/
structure FenceRec where
  ser : Nat
  ma : BitVec 8
  mb : BitVec 8
  ack : Bool
  inv : Bool
  clk : Clock := []
  deriving DecidableEq, Repr, Inhabited

/-- What a class of WAITC remembers of its completed members: the last ones, newest first, by their places among the words (an entry at 2n + 1, a
word of the sequencer at 2n) with what comes before whoever follows them, and that of all the older ones (R156, R252). -/
structure Hist where
  recent : List (Nat × Clock)
  older : Clock
  deriving DecidableEq, Repr, Inhabited

/-- A range of a scratch that a copy has written: what comes before whoever reaches it later, the copy's thread and its word's place (R157). -/
structure Wrote where
  lo : Nat
  len : Nat
  clk : Clock
  by_ : Nat
  ser : Nat
  deriving DecidableEq, Repr, Inhabited

/-- The answer to a packet as it reaches the thread (R72, R185): data or old value, whether a POISON block was read, and what the access
acquires. -/
structure Reply where
  data : BitVec 512
  poison : Bool
  acq : Clock
  deriving DecidableEq, Repr, Inhabited

/-- Who last changed a flag (R251). -/
structure Setter where
  code : Nat
  thread : Nat
  endpoint : W32
  deriving DecidableEq, Repr, Inhabited

/-- A thread (R40 to R47, R225 to R237, R367 to R394): `placed` while it holds a slot (R230), `homed` while its allotment lies on its core
(R18, R26), `want` the model slot of a successor task that it needs a core for (R235), `frozen` while a freeze holds it (R402), `reload` when it comes from a keg and its loop record has still to be read (R410), `wrote` the ranges of its scratch that copies
have written, with what comes before whoever reaches them later (R157), `inval` the invalidation that a TLBINV of it waits for (R352), `sqPkt` and `rdPkts`
the packets that its sequencer and its other readers wait for, with the line each was sent to read, none for a marked access (R184, R185), `hist` what
the classes of WAITC remember (R156), `wide` the local flags that a CPSIG or a pass has set (R164, R166), `slotDone` the tick at which the last copy into
a WB or AB slot retired, by handle, AB handles from 64 on (R142), `kegAt` the tick at which its keg word was accepted (R411), and `early` the bytes that the
load at which its sequencer stands has read before the rest (R159). -/
structure Thread where
  alive : Bool
  cid : Nat
  num : Nat
  rank : Option Nat
  gangSize : Nat
  gang : Nat
  priv : Nat
  run : Run
  core : Nat
  slot : Nat
  placed : Bool
  frozen : Bool
  homed : Bool
  want : Option Nat
  reload : Bool
  scratchG : Nat
  live : Frame
  committed : Frame
  saved : List CbSave
  savedWb : List Nat
  savedAb : List Nat
  savedLent : List Nat
  savedTask : Nat
  savedPromised : List (Nat × Nat × Slot)
  savedLines : NMap RLine
  taskNo : Nat
  handleTask : Nat
  outside : NMap Nat
  queues : NMap Queue
  qdepth : BitVec 20
  tickets : NMap Ticket
  fences : List FenceRec
  scores : List Score
  scratch : Memory
  wb : NMap Slot
  ab : NMap Slot
  cb : NMap Slot
  promised : List (Nat × Nat × Slot)
  rounds : List Round
  trap : TrapRegs
  heldLost : Bool
  reports : List Held
  wp : NMap Watch
  win : NMap Win
  winFlow : NMap Nat
  flows : NMap Flow
  lines : NMap RLine
  versions : List Version
  know : NMap Clock
  base : Clock
  epoch : NMap Nat
  flagClk : NMap Clock
  setters : NMap Setter
  wait : Wait
  idle : Nat
  stepOn : Bool
  toDbg : Bool
  stopReq : Bool
  preemptReq : Option Nat
  resumePast : Bool
  hits : List Held
  sqPkt : Option (Nat × Option Nat)
  sentG : NMap Nat
  clearV : NMap Nat
  serial : Nat
  stepAt : Option (W64 × Nat)
  replies : NMap Reply
  rdPkts : NMap (Nat × Nat)
  prefs : List Nat
  wrote : List Wrote
  inval : Option Nat
  ksvc : W64
  hist : NMap Hist := []
  wide : List Nat := []
  slotDone : NMap Nat := []
  kegAt : Option Nat := none
  early : List (Space × Nat × Byte) := []
  deriving DecidableEq, Repr, Inhabited

/-- A group of a context (R244): members and whether each has arrived, the generation, 64 flags with what they
release and who set them last, and what the arrivals of this and the last generation release, with the last arrival of each (R251). -/
structure Group where
  members : NMap Bool
  gen : W64
  flags : NMap W32
  clk : NMap Clock
  setters : NMap Setter
  barClk : Clock
  doneClk : Clock
  lastArr : Nat
  doneArr : Nat := 0
  deriving DecidableEq, Repr, Inhabited

/-- A value that a release wrote to a location, the releasing agent, and what it releases (R165); the version that the write belongs to while it is not
committed, and the versions whose uncommitted writes have overwritten it, which a roll-back undoes (R378). -/
structure RelRec where
  space : Space
  host : Bool
  addr : Nat
  len : Nat
  by_ : Agent
  scope : Nat
  clk : Clock
  ver : Option Nat := none
  hid : List Nat := []
  deriving DecidableEq, Repr, Inhabited

/-- What an inbound fabric packet asks for (R184, R185, R223). -/
inductive InOp where
  | write (off : Nat) (data : BitVec 512) (be : BitVec 64) (red : Option RedTy)
  | line (off : Nat)
  | marked (off : Nat) (op : MarkedOp)
  | signal (flag : Nat) (val : W32)
  deriving DecidableEq, Repr, Inhabited

/-- An inbound packet that waits, in a reorder buffer or a parking store (R186, R417); when a thread of this package sent it, the sender's
placement, what comes before it, and the scopes at which it releases and acquires (R165, R166). -/
structure InPkt where
  h : FabHdr
  op : InOp
  acked : Bool
  src : Option Agent
  clk : Clock
  rel : Option Nat
  acq : Option Nat
  deriving DecidableEq, Repr, Inhabited

/-- A context (R338 to R341). Sixteen words of descriptor, its system registers by number, groups, and what the
device has taken from its tables; whether a freeze is under way with the thread left out of it, whether a HOLD keeps its threads
frozen and its keg is the last save, the save reserved by MIG_KEY, whether the MIG_KEY that made it HANDED has still to be answered, whether its threads wait for the end marker of a migration, when its end began (R344), where its packets are relayed, and its parking
store (R415 to R418). -/
structure Ctx where
  desc : NMap W64
  regs : NMap W64
  groups : NMap Group
  slotmap : List (Nat × Nat)
  grants : List (List W64)
  staging : List (List W64)
  key : Option (BitVec 256)
  quarantine : NMap Nat
  transGen : BitVec 16
  freezing : Option (Option Nat)
  holding : Bool
  heldSave : Bool
  reserved : Option W64
  awaitEnd : Bool
  dyingAt : Nat
  relay : Option (Nat × Nat)
  store : List InPkt
  handing : Bool := false
  deriving DecidableEq, Repr, Inhabited

/-- A resident program image (R56, R322). -/
structure Image where
  resident : Bool
  text : List W32
  dataBytes : Nat
  dataVa : W64
  frames : List Nat
  entry : Nat
  scratchG : Nat
  psafe : List (Nat × Nat × Nat × W64)
  hash : W64
  deriving DecidableEq, Repr, Inhabited

/-- A function: its event queue registers (R305), its ranges of package rings and logical queues (R306), and its command
block with the status of its last command, the opcode and context of a command that has not completed, and the tick at which it was accepted (R342,
R411), whether firmware that is being replaced, or an earlier keg operation, holds it unstarted (R411, R421), and whether a function-level reset is under way (R360). -/
structure Func where
  evqBase : W64
  evqSize : W64
  evqHead : W64
  evqTail : W64
  evqLost : W64
  ringFirst : Nat
  ringCount : Nat
  lqFirst : Nat
  lqCount : Nat
  cmd : NMap W64
  cmdStatus : W64
  pend : Option (Nat × Nat)
  cmdHeld : Bool
  flr : Bool
  pendAt : Nat := 0
  deriving DecidableEq, Repr, Inhabited

/-- Names a flag: a local flag of a thread by its key, or flag idx of group owner mod 256 of context owner / 256
(R41). -/
structure FlagRef where
  group : Bool
  owner : Nat
  idx : Nat
  deriving DecidableEq, Repr, Inhabited

/-- A wait on a flag that has begun (R248, R251): the unit that waits (0 for the sequencer, else the engine's code)
and its entry with the version it belongs to, the flag and count, since when, and whether the count has been taken, with the set that met
it and what the flag released then (R166). -/
structure Waiter where
  key : Nat
  unit : Nat
  num : Nat
  flag : FlagRef
  count : Nat
  since : Nat
  ver : Nat
  granted : Bool
  setter : Setter
  clk : Clock := []
  deriving DecidableEq, Repr, Inhabited

/-- What a fabric packet carries (R184, R185, R223, R300, R361, R416 to R418). -/
inductive PktKind where
  | write (off : Nat) (data : BitVec 512) (be : BitVec 64) (red : Option RedTy)
  | lineRead (off : Nat)
  | marked (off : Nat) (op : MarkedOp)
  | signal (flag : Nat) (val : W32)
  | bulletin (off : Nat)
  | endMarker
  | cancel (id : Nat)
  | keyTransfer (cid : Nat) (key : BitVec 256) (keygen : W32) (count : W64)
  | page (va : Nat) (data : List Byte) (tags : List W32)
  | parked (p : InPkt)
  | flow (ep srcEp : W32) (srcThread flow next : Nat) (done : List Nat)
  deriving DecidableEq, Repr, Inhabited

/-- A fabric packet sent and not yet answered (R332 to R334): its id, the sending thread, window, endpoint, target
thread, flow and sequence number, whether the fabric has answered RETRY, the sender's placement, what comes before it, the scopes at which it
releases and acquires, what it has acquired (R165), and the path of its access (R151). -/
structure Packet where
  id : Nat
  key : Nat
  win : Nat
  ep : W32
  gen : BitVec 16
  thread : Nat
  flow : Nat
  seq : Nat
  ordered : Bool
  kind : PktKind
  retry : Nat
  src : Agent
  clk : Clock
  rel : Option Nat
  acq : Option Nat
  got : Clock
  path : Nat := 0
  deriving DecidableEq, Repr, Inhabited

/-- A gang that starts at an agreed tick (R328): its threads, the tick, LATEOK, whether it is late, and the packet that
launched it. -/
structure GangHold where
  keys : List Nat
  start : Nat
  lateOk : Bool
  late : Bool
  fn : Nat
  ring : Nat
  tag : Nat
  cid : Nat
  deriving DecidableEq, Repr, Inhabited

/-- A request for placement (R229): its threads in rank order, the tick it was made, the entries of a spawner that must
complete before it leaves, with the packets that must be answered (R228), and the cores reserved for it. -/
structure PlaceReq where
  keys : List Nat
  since : Nat
  after : Option (Nat × List Nat)
  acks : Nat
  cores : List Nat
  reserved : Bool
  deriving DecidableEq, Repr, Inhabited

/-- A core: the model slots in its overlay, whether the host has retired it (R235, R397), and the thread, first tick and end of its last
timed pass (R142). -/
structure CoreSt where
  overlay : List Nat
  retired : Bool
  timed : Option (Nat × Nat × Nat)
  deriving DecidableEq, Repr, Inhabited

/-- The states of a tile task before it ends (R273); a finishing task has ended but for the set of a group flag, which
waits for the dependencies of the owning version (R386); a held task belongs to a frozen context (R278). -/
inductive TaskSt where
  | held
  | pending
  | matched
  | deferred
  | launched
  | finishing
  deriving DecidableEq, Repr, Inhabited

/-- A tile task (R264 to R267, R273, R277): its context and submitting thread, the function and tag of a TILE packet, the
fields of its descriptor, the flag its completion sets, submission tick, expiry, place in the order of acceptance, owning
version, the thread that submitted it whatever has become of that (R225), state, partition, what its TSUB released, pages it awaits, the cause that poisoned it with the rows concerned,
the pass whose rows it shares, whether its version has been discarded meanwhile, and the status bits its rows met. -/
structure TileTask where
  cid : Nat
  key : Option Nat
  origin : Option Nat
  host : Bool
  tag : Nat
  codehash : W64
  wid : BitVec 128
  ktile : Nat
  ntile : Nat
  shape : Nat
  rows : Nat
  patience : Nat
  flag : Option FlagRef
  src : Nat
  dst : Nat
  dstride : Nat
  desc : W64
  sub : Nat
  exp : Nat
  order : Nat
  ver : Option Nat
  st : TaskSt
  part : Nat
  clk : Clock
  pages : List Nat
  cause : Nat
  bad : List Nat
  pass : Option Nat
  gone : Bool
  passFault : Bool
  vflags : Nat
  deriving DecidableEq, Repr, Inhabited

/-- A pass (R274, R275, R282): its tasks in stacking order, the tick it was matched, and when it runs the core of its
pass slot and the tick it began, and how often each event that a counter may count has happened in it (R260, R295, R356). -/
structure PassRec where
  events : NMap Nat
  tasks : List Nat
  part : Nat
  matched : Nat
  core : Option Nat
  began : Nat
  wid : BitVec 128
  code : W64
  codeSlot : Nat
  deriving DecidableEq, Repr, Inhabited

/-- A sealed Granary tensor (R297, R298): the model slot that pins it, its context and address, its identity and layout,
where each 16 KiB of it lies, and how recently an accepted task named it (R301). -/
structure Tensor where
  slot : Nat
  cid : Nat
  va : Nat
  wid : BitVec 128
  kt : Nat
  nt : Nat
  k : Nat
  n : Nat
  wclass : Nat
  side : Nat
  chunks : List Nat
  named : Nat
  unpinned : Bool
  deriving DecidableEq, Repr, Inhabited

/-- The Granary bulletin (R300 to R302): SEQ, the tick of the refresh, the identities held with their tile counts, most
recently named first, and the pending tasks of each shape class. -/
structure Bulletin where
  seq : Nat
  at_ : Nat
  held : List (BitVec 128 × Nat)
  pending : NMap Nat
  deriving DecidableEq, Repr, Inhabited

/-- A counter bank or trace unit (R356 to R359, R426): who holds it (0 nobody, 1 the hypervisor, 2 plus the CID), its
control register, the trace ring, events and counters, and the tick of the last sample. -/
structure Bank where
  holder : Nat
  ctl : W64
  base : W64
  size : W64
  head : W64
  events : NMap W64
  values : NMap W64
  last : Nat
  deriving DecidableEq, Repr, Inhabited

/-- A packet of a ring (R312): its ring, bytes, slots and tag, and whether it came inline. -/
structure Pkt where
  ring : Nat
  bytes : List Byte
  slots : Nat
  tag : Nat
  deriving DecidableEq, Repr, Inhabited

/-- What an emission does (R313, R314). -/
inductive EmitKind where
  | launch (slot size : Nat) (start : Option (Nat × Bool)) (binds : NMap W64)
  | tile (desc : List Byte) (thr : Nat)
  | copy (dst src len thr flag : Nat)
  | signal (thr flag : Nat) (val : W32)
  | fence
  deriving DecidableEq, Repr, Inhabited

/-- An emission staged by a packet or released at its end (R315, R316). -/
structure Emission where
  kind : EmitKind
  opindex : Nat
  ring : Nat
  tag : Nat
  deriving DecidableEq, Repr, Inhabited

/-- An ECOPY that runs (R314): its emission, the bytes done, and the address whose page it waits for. -/
structure HostCopy where
  em : Emission
  done : Nat
  page : Option Nat
  cov : List Cover
  deriving DecidableEq, Repr, Inhabited

/-- A ring (R307, R308): its descriptor, HEAD, and the inline packets not yet taken, by slot number. -/
structure Ring where
  base : W64
  log2 : Nat
  cid : Nat
  lq : Nat
  shadow : W64
  enable : Bool
  overrun : Bool
  tail : W32
  head : W32
  inl : List (Nat × List Byte)
  deriving DecidableEq, Repr, Inhabited

/-- A logical queue (R311, R315): its descriptor, the packets merged and not yet run, emissions released and not yet in
effect, copies that run, and the threads launched by earlier emissions. -/
structure LQueue where
  cid : Nat
  program : Nat
  qval : Nat
  enable : Bool
  ended : Nat
  delivered : List Pkt
  released : List Emission
  copies : List HostCopy
  starting : List Nat
  deriving DecidableEq, Repr, Inhabited

/-- A table of a loaded sparge program (R319): where each 16 KiB of it lies, its entries, whether it is writable. -/
structure SpTable where
  places : List Nat
  count : Nat
  writable : Bool
  off : Nat
  deriving DecidableEq, Repr, Inhabited

/-- An entry of a sparge program table (R318): its words by offset, and when loaded the operations and tables. -/
structure SpProg where
  words : NMap W64
  loaded : Bool
  failed : Bool
  failCheck : Nat
  failIndex : Nat
  ops : List W32
  tables : List SpTable
  deriving DecidableEq, Repr, Inhabited

/-- A running LOOP of a sparge program (R317): its first and last operation and the rounds left. -/
structure SpLoop where
  first : Nat
  last : Nat
  left : Nat
  deriving DecidableEq, Repr, Inhabited

/-- A sparge interpreter (R317, R321). -/
structure Interp where
  busy : Bool
  fn : Nat
  lq : Nat
  pkt : Pkt
  regs : NMap W64
  buf : NMap Byte
  idx : Nat
  loops : List SpLoop
  count : Nat
  emits : List Emission
  writes : List (Nat × Nat × W64)
  deriving DecidableEq, Repr, Inhabited

/-- An entry of the endpoint table (R331). -/
structure Endpoint where
  pkg : Nat
  cid : Nat
  gen : BitVec 16
  st : Nat
  deriving DecidableEq, Repr, Inhabited

/-- The package registers of the PF (R306) but those that R363 and R420 hold, and the tick of the last refresh of telemetry (R336). -/
structure Pkg where
  shapeRefused : W64
  shapeW1 : NMap W64
  weightErr : Bool
  weights : NMap Nat
  powerCtl : W64
  powerState : W64
  powerLimit : W64
  powerW : W64
  tempDie : W64
  tempHbm : W64
  currentA : W64
  telemAt : Nat := 0
  errWindow : W64
  errThresh : W64
  flrDropped : W64
  dropped : W64
  self : Nat
  deriving DecidableEq, Repr, Inhabited

/-- What the device answers to a fabric packet (R332). -/
inductive AnsKind where
  | ack
  | retry
  | gone
  | data (d : BitVec 512)
  | reply (v : W64)
  | poison
  deriving DecidableEq, Repr, Inhabited

/-- An answer, to an endpoint, a thread there, and the packet of a flow. -/
structure Answer where
  ep : W32
  thread : Nat
  flow : Nat
  seq : Nat
  kind : AnsKind
  deriving DecidableEq, Repr, Inhabited

/-- The reorder buffer of an inbound flow (R186, R334): its source and target endpoints, the lowest sequence number not yet
performed, those above it that have been, and the packets that wait. -/
structure InFlow where
  ep : W32
  srcEp : W32
  srcThread : Nat
  flow : Nat
  next : Nat
  done : List Nat
  waiting : List InPkt
  deriving DecidableEq, Repr, Inhabited

/-- An event record that is posted later (R320, R421). -/
structure EvRec where
  fn : Nat
  kind : Nat
  reason : Nat
  tag : Nat
  ring : Nat
  cid : Nat
  opindex : Nat
  code : Nat
  detail : Nat
  deriving DecidableEq, Repr, Inhabited

/-- The handover structure (R421): MAGIC, FORMAT, its length, and the state of the image that writes it: the cores and slots of threads, the
requests for placement with their reservations, the commands and posts held, and where the interpreters stand in the rings. -/
structure Handover where
  magic : W32
  format : Nat
  len : Nat
  placed : List (Nat × Nat × Nat)
  requests : List PlaceReq
  commands : List (Nat × Nat × Nat)
  posts : List EvRec
  heads : List (Nat × W32)
  deriving DecidableEq, Repr, Inhabited

/-- Boot and firmware (R363, R364, R420, R421): BOOT_STATUS, the boot window, measurements 2 and 3, the digests in image
slots A and B, FW_STATUS, the tick at which a new image started, the page requests held meanwhile, and the last handover structure. -/
structure Boot where
  waiting : Bool
  fail : Bool
  running : Bool
  reason : Nat
  window : NMap Byte
  kiln : BitVec 256
  sched : BitVec 256
  slotA : BitVec 256
  slotB : BitVec 256
  slotBActive : Bool
  phase : Nat
  err : Nat
  started : Nat
  posts : List EvRec
  handover : Option Handover := none
  deriving DecidableEq, Repr, Inhabited

/-- A response of the SPDM responder (R364). -/
inductive SpdmAns where
  | error
  | version
  | capabilities
  | algorithms (a : SpdmAlgs)
  | digests (d : BitVec 256)
  | certificate (off : Nat) (bytes : List Byte)
  | challengeAuth (nonce : BitVec 256) (sig : BitVec 512)
  | measurements (blocks : List (Nat × BitVec 256)) (sig : Option (BitVec 512))
  | keyExchangeRsp (pub : BitVec 512) (sig : BitVec 512)
  | finishRsp
  | keyUpdateAck
  | heartbeatAck
  | endSessionAck
  | vendor (ok : Bool)
  deriving DecidableEq, Repr, Inhabited

/-- The SPDM responder (R364): what has been negotiated, the session and its key, and the responses given. -/
structure Spdm where
  version : Bool
  caps : Bool
  algs : Option SpdmAlgs
  exchanged : Bool
  session : Bool
  secret : BitVec 256
  keys : Nat
  out : List SpdmAns
  deriving DecidableEq, Repr, Inhabited

/-- A turn of the schedule: which agent moves next (R12, R257; DESIGN CHOICE, assumption log entry 2). A thread's sequencer or an engine of it, the
answer that binds a ticket, the answer to a packet that the block read is POISON (R72), a translation that a core or a die no longer holds (R351), a unit of a core that chooses by weight what it runs, with the ticks it will hold it (R257, R258), a sparge
interpreter, a step of the device, a write of the host to its own memory, a range of it whose completer refuses AtomicOps from now on (R196), the ranges that functions cannot read
through their IOMMU contexts from now on (R318), bytes that a load, the sequencer's or that at the head of a queue, reads before the rest of it
(R159), a granule that another package's PAGE_PUSH
copies to a context here (R416), a flow that moves here with a context (R417),
or the device's own services in their order.
DESIGN CHOICE: assumption log entry 66. -/
inductive Turn where
  | issue (key : Nat)
  | engine (key : Nat) (e : Eng)
  | bind (key : Nat) (t : Nat)
  | select (core : Nat) (unit : Nat) (occ : Nat)
  | hostMem (addr : Nat) (data : List Byte)
  | refuse (addr n : Nat)
  | hide (l : List (Nat × Nat × Nat))
  | early (key : Nat) (e : Option Eng) (l : List (Space × Nat))
  | evict (place cid page : Nat)
  | poison (key id : Nat)
  | pageIn (cid va : Nat) (data : List Byte) (tags : List W32)
  | flowIn (ep srcEp : W32) (srcThread flow next : Nat) (done : List Nat)
  | interp (it : Nat)
  | event (i : Instr)
  | services
  deriving DecidableEq, Repr, Inhabited

/-- The state of the package. Host memory is what is on the other side of the link, with the ranges whose completers refuse AtomicOps (R196) and
those, by function, that its IOMMU context does not let it read (R318). -/
structure State where
  tick : Nat
  hbm : Memory
  host : Memory
  refusers : List (Nat × Nat)
  hidden : List (Nat × Nat × Nat) := []
  staging : Memory
  frames : NMap W32
  funcs : NMap Func
  msix : List (Nat × Nat)
  ctxs : NMap Ctx
  images : NMap Image
  threads : NMap Thread
  cores : NMap CoreSt
  tlb : List Trans
  invals : List Inval
  invalNext : Nat
  places : List PlaceReq
  gangHolds : List GangHold
  gangNext : Nat
  rels : List RelRec
  waiters : List Waiter
  tasks : NMap TileTask
  taskNext : Nat
  passes : NMap PassRec
  passNext : Nat
  tensors : List Tensor
  bulletin : Bulletin
  shapes : NMap (W64 × W64)
  banks : NMap Bank
  revoked : NMap Bank
  rings : NMap Ring
  lqs : NMap LQueue
  progs : NMap SpProg
  interps : NMap Interp
  lastLq : Nat
  endpoints : NMap Endpoint
  pkg : Pkg
  boot : Boot
  spdm : Spdm
  ide : NMap (BitVec 256)
  ideFails : Nat
  errors : List (Nat × Nat × Nat)
  lasting : List (Nat × Nat × Nat)
  outbox : List Packet
  pktNext : Nat
  answers : List Answer
  inflows : List InFlow
  verNext : Nat
  stamp : Nat
  scoreNext : Nat
  fresh : Nat
  cur : Nat
  curI : Nat
  turns : List Turn
  rr : Nat
  held : List (Nat × Eng)
  bells : List (Nat × Nat × W32 × List Byte)
  deficits : NMap Int
  tenants : NMap (List Nat)
  lastPick : NMap Nat
  deriving DecidableEq, Repr, Inhabited

/-- The function range table after reset: the PF holds every ring and logical queue (R306). -/
def Func.pfReset : Func := { (default : Func) with ringCount := 131072, lqCount := 8192 }

/-- The package registers after reset (R306). -/
def Pkg.reset : Pkg := { (default : Pkg) with errWindow := 60, errThresh := 0x0000006400640064 }

/-- The machine after power-up: no firmware runs and the boot ROM waits for an image (R363); no context, thread, task or queue
exists; every table and register is at its reset value, and what the spec gives none is zero (DESIGN CHOICE, assumption log entries 1, 3
and 4). -/
def State.reset : State :=
  { (default : State) with
    funcs := [(0, Func.pfReset)], pkg := Pkg.reset, boot := { (default : Boot) with waiting := true }, verNext := 1 }

end Sys2Proof.Machine
end

