-- ==== Sys2Proof/Machine/Translate.lean ====
section
/-! DEFINITION. Addresses: the S-space (R16), the translation tree (R345 to R348), and the pieces of an access with
the place each of them reaches. -/

namespace Sys2Proof.Machine

/-- A trap with its cause, address and detail; class, unit, PC and version are filled in where it is taken. -/
def mkTrap (cause addr info : Nat) : Trap :=
  { (default : Trap) with cause := BitVec.ofNat 8 cause, addr := BitVec.ofNat 64 addr, info := BitVec.ofNat 64 info,
                          srcRank := 0xFF#8 }

/-- The number 2^64. -/
def two64 : Nat := 18446744073709551616

/-- The context of a CID. -/
def State.ctx (s : State) (cid : Nat) : Ctx := s.ctxs.get cid

/-- The thread of a key (CID times 65,536 plus logical number; pass slots above every CID). -/
def State.thr (s : State) (key : Nat) : Thread := s.threads.get key

/-- The state with a thread replaced. -/
def State.setThr (s : State) (key : Nat) (t : Thread) : State := { s with threads := s.threads.put key t }

/-- The state with a thread changed. -/
def State.updThr (s : State) (key : Nat) (f : Thread → Thread) : State := s.setThr key (f (s.thr key))

/-- The state with a context replaced. -/
def State.setCtx (s : State) (cid : Nat) (c : Ctx) : State := { s with ctxs := s.ctxs.put cid c }

/-- The state with a context changed. -/
def State.updCtx (s : State) (cid : Nat) (f : Ctx → Ctx) : State := s.setCtx cid (f (s.ctx cid))

/-- The first key of pass slots: pass slot n is thread key 2^28 + n (R13). -/
def passBase : Nat := 268435456

/-- A field of a 64-bit word. -/
def wfld (w : W64) (lo n : Nat) : Nat := fld w.toNat lo n

/-- A word of a context's descriptor (R340), by byte offset. -/
def Ctx.word (c : Ctx) (off : Nat) : W64 := c.desc.get (off / 8)

/-- The STATE field of a context (R340): 0 FREE, 1 ACTIVE, 2 FROZEN, 3 DYING. -/
def Ctx.stateOf (c : Ctx) : Nat := wfld (c.word 0) 21 2

/-- The function of a context (R340). -/
def Ctx.func (c : Ctx) : Nat := wfld (c.word 0) 12 8

/-- Leaves of the context may map host memory (R340). -/
def Ctx.hostOk (c : Ctx) : Bool := wfld (c.word 0) 20 1 = 1

/-- The context holds a model slot: its bit of SLOTMAP is set (R340). -/
def Ctx.granted (c : Ctx) (slot : Nat) : Bool := c.slotmap.any fun g => g.1 = slot

/-- The context's SLOTMAP also gives a model slot context-admin privilege (R340, R341). -/
def Ctx.adminSlot (c : Ctx) (slot : Nat) : Bool := c.slotmap.any fun g => g.1 = slot && g.2 = 1

/-- A frame-table entry says that a context owns the frame (R348). -/
def ownedBy (e : W32) (cid : Nat) : Bool := decide (fld e.toNat 12 1 = 1) && decide (fld e.toNat 0 12 = cid)

/-- The levels of a walk: number as TRAP_INFO names it, lowest address bit of the index, index bits, and for each TYPE
what it leads to (R345). -/
structure Level where
  num : Nat
  lo : Nat
  bits : Nat
  deriving DecidableEq, Repr

/-- The levels by their number (R345). -/
def levelOf : Nat → Level
  | 1 => ⟨1, 41, 11⟩
  | 2 => ⟨2, 31, 10⟩
  | 3 => ⟨3, 23, 8⟩
  | 4 => ⟨4, 16, 7⟩
  | _ => ⟨5, 21, 2⟩

/-- The level that a pointer of a TYPE at a level leads to, with the alignment of its table (R345). -/
def nextLevel : Nat → Nat → Option (Nat × Nat)
  | 1, 0 => some (2, 8192)
  | 2, 0 => some (3, 2048)
  | 3, 0 => some (4, 1024)
  | 3, 1 => some (5, 64)
  | _, _ => none

/-- A level allows leaves (R345). -/
def leafLevel (n : Nat) : Bool := n = 2 || n = 3 || n = 4 || n = 5

/-- A physical address of an entry is one that the context may name (R346, R347 step 3). -/
def paOk (c : Ctx) (pa : Nat) : Bool :=
  if pa ≥ 2251799813685248 then c.hostOk else pa < 1099511627776

/-- One level of the walk and those below it (R347 steps 1 to 3). -/
def walkFrom (s : State) (cid : Nat) (c : Ctx) (va : Nat) : Nat → Nat → Nat → Except Trap Leaf
  | 0, _, _ => .error (mkTrap 5 va 0)
  | fuel + 1, lvl, table =>
    let prot (bits : Nat) : Except Trap Leaf := .error (mkTrap 5 va (2147483648 + lvl + bits))
    if table ≥ 1099511627776 then prot 16
    else
      let e := s.frames.get (table / 65536)
      if !(ownedBy e cid && decide (fld e.toNat 13 1 = 1)) then prot 16
      else
        let l := levelOf lvl
        let w := s.hbm.readLE (table + 8 * fld va l.lo l.bits) 8
        if fld w 0 1 = 0 then .error (mkTrap 4 va 0)
        else
          let ty := fld w 1 2
          if ty = 2 then
            let pa := fld w 16 36 * 65536
            if !leafLevel lvl || fld w 7 9 ≠ 0 || fld w 52 12 ≠ 0 || pa % 2 ^ l.lo ≠ 0 || !paOk c pa then prot 8
            else
              .ok { pa := pa % 2251799813685248 + va % 2 ^ l.lo, host := decide (pa ≥ 2251799813685248),
                    rd := fld w 3 1 = 1, wr := fld w 4 1 = 1, granary := fld w 5 1 = 1, dt := fld w 6 1 = 1, tbl := lvl }
          else
            match nextLevel lvl ty with
            | none => prot 8
            | some (n, align) =>
              let next := fld w 6 46 * 64
              if fld w 3 3 ≠ 0 || fld w 52 12 ≠ 0 || next % align ≠ 0 || !paOk c next then prot 8
              else walkFrom s cid c va fuel n next

/-- The walk of a flat address of a context (R345, R347). -/
def walk (s : State) (cid va : Nat) : Except Trap Leaf :=
  let c := s.ctx cid
  walkFrom s cid c va 4 1 (fld (c.word 8).toNat 14 38 * 16384)

/-- A piece of an access: its virtual address and length, the target and the address within it, and the leaf. -/
structure Piece where
  va : Nat
  len : Nat
  tgt : Tgt
  addr : Nat
  leaf : Leaf
  deriving DecidableEq, Repr, Inhabited

/-- The thread that is a rank of a gang, retired ranks included (R16, R18). -/
def State.peerKey (s : State) (t : Thread) (rank : Nat) : Option Nat :=
  if t.gang = 0 then none
  else (s.threads.find? fun e => decide (e.2.gang = t.gang) && decide (e.2.cid = t.cid) && decide (e.2.rank = some rank)).map (·.1)

/-- Where a byte of the S-space lies, with its address there (R16). -/
def sspace (s : State) (key : Nat) (off : Nat) : Option (Tgt × Nat) :=
  let t := s.thr key
  if off < 16777216 then
    if off < t.scratchG * 16384 then some (.own, off) else none
  else if off < 33554432 then
    let p := (off - 16777216) / 2097152
    let o := off % 2097152
    match s.peerKey t p with
    | none => none
    | some k => if o < (s.thr k).scratchG * 16384 then some (if k = key then .own else .peer k, o) else none
  else if off < 67108864 then
    let w := (off - 33554432) / 2097152
    if (t.win.get w).target.toNat ≥ 9223372036854775808 then some (.remote w, off % 2097152) else none
  else none

/-- Cuts a span at multiples of 16 KiB, so that every piece lies in one frame, one page and one window. -/
def cutSpan : Nat → Nat → Nat → List (Nat × Nat)
  | 0, _, _ => []
  | _, _, 0 => []
  | fuel + 1, va, len =>
    let here := 16384 - va % 16384
    if len ≤ here then [(va % two64, len)] else (va % two64, here) :: cutSpan fuel ((va + here) % two64) (len - here)

/-- The pieces of a list of spans. -/
def cutSpans (l : List (Nat × Nat)) : List (Nat × Nat) := l.flatMap fun p => cutSpan (p.2 / 16384 + 2) p.1 p.2

/-- What an instruction's accesses may reach (R191): whether each target is refused at step 3 of R188. -/
structure Reach where
  host : Bool
  granary : Bool
  scratch : Bool
  remote : Bool
  deriving DecidableEq, Repr, Inhabited

/-- Every target. -/
def Reach.all : Reach := ⟨true, true, true, true⟩

/-- The target of a piece before any walk: an S-space target, a flat address, or PROT (R16). -/
def classify (s : State) (key va : Nat) : Except Trap (Option (Tgt × Nat)) :=
  if va < 4503599627370496 then .ok none
  else if va / 72057594037927936 = 254 && va / 4294967296 % 16777216 = 0 then
    match sspace s key (va % 4294967296) with
    | some r => .ok (some r)
    | none => .error (mkTrap 5 va 0)
  else .error (mkTrap 5 va 0)

/-- The piece of a flat address: walk, frame check (R347 steps 1 to 4). -/
def flatPiece (s : State) (cid va len : Nat) : Except Trap Piece :=
  match walk s cid va with
  | .error t => .error t
  | .ok l =>
    if l.host then .ok ⟨va, len, .host, l.pa, l⟩
    else
      let e := s.frames.get (l.pa / 65536)
      if ownedBy e cid then .ok ⟨va, len, .hbm, l.pa, l⟩
      else if fld e.toNat 14 1 = 1 && (s.ctx cid).granted (fld e.toNat 16 10) && l.granary then .ok ⟨va, len, .granary, l.pa, l⟩
      else .error (mkTrap 5 va (2147483648 + l.tbl + 16))

/-- Where the translations of a thread's accesses are held: its core, for a thread of a context (R351). -/
def State.placeOf (s : State) (key : Nat) : Option Nat := if key < passBase then some (s.thr key).core else none

/-- The row translation cache of a die, as a place (R351). -/
def rowCache (die : Nat) : Nat := 1000 + die

/-- The piece of a flat address through a translation that a place holds, else through a walk (R347, R351). DESIGN CHOICE: assumption log
entry 72. -/
def flatFrom (s : State) (place : Option Nat) (cid va len : Nat) : Except Trap Piece :=
  match place.bind fun p => s.tlb.find? fun x => decide (x.place = p) && decide (x.cid = cid) && decide (x.page = va / 65536) with
  | some x => .ok ⟨va, len, x.tgt, x.leaf.pa + va % 65536, { x.leaf with pa := x.leaf.pa + va % 65536 }⟩
  | none => flatPiece s cid va len

/-- A place holds the translations of flat pieces from now on, with the generation current at the walk; a row translation cache holds 1,024
(R351, R353). -/
def State.holdTrans (s : State) (place : Option Nat) (cid : Nat) (pieces : List Piece) : State :=
  match place with
  | none => s
  | some p =>
    let l := pieces.foldl (fun (l : List Trans) q =>
      let flat := q.tgt = .hbm || q.tgt = .granary || q.tgt = .host
      if !flat || l.any fun x => decide (x.place = p) && decide (x.cid = cid) && decide (x.page = q.va / 65536) then l
      else
        { place := p, cid := cid, page := q.va / 65536, tgt := q.tgt, leaf := { q.leaf with pa := q.leaf.pa - q.va % 65536 }
          gen := (s.ctx cid).transGen } :: l) s.tlb
    let full := decide (1000 ≤ p) && decide (1024 < (l.filter fun x => x.place = p).length)
    { s with tlb := if full then (l.filter fun x => x.place ≠ p) ++ (l.filter fun x => x.place = p).take 1024 else l }

/-- A translation leads to one of some frames of HBM. -/
def Trans.inFrames (x : Trans) (fs : List Nat) : Bool := decide (x.tgt ≠ .host) && fs.contains (x.leaf.pa / 65536)

/-- No place holds a translation of a range of a context any longer (R351, R353). -/
def State.dropTrans (s : State) (cid : Nat) (range : Option (Nat × Nat)) : State :=
  let hit := fun (x : Trans) => decide (x.cid = cid) && (match range with
    | none => true
    | some r => decide (x.page * 65536 < r.1 + r.2) && decide (r.1 < x.page * 65536 + 65536))
  { s with tlb := s.tlb.filter fun x => !hit x }

/-- An invalidation begins (R353): the generation of the context rises, and it joins those in progress, of which the package holds 16. One that
finds no room becomes a whole-tree invalidation of its context, joining the one that the context has in progress. Answers its number, and
whether it was merged. -/
def State.beginInval (s : State) (cid : Nat) (range : Option (Nat × Nat)) : Nat × Bool × State :=
  let s := s.updCtx cid fun c => { c with transGen := c.transGen + 1 }
  let mine := s.invals.reverse.find? fun i => i.cid = cid
  match decide (s.invals.length < 16), mine with
  | false, some i => (i.id, true, { s with invals := s.invals.map fun j => if j.id = i.id then { j with range := none } else j })
  | room, _ =>
    (s.invalNext, !room, { s with invals := s.invals ++ [{ id := s.invalNext, cid := cid, range := if room then range else none }]
                                  invalNext := s.invalNext + 1 })

/-- The oldest invalidations up to a number complete, those of one context in the order in which they were asked for (R353). -/
def State.endInvals (s : State) (p : Inval → Bool) : State :=
  (s.invals.filter p).foldl (fun s i => { s.dropTrans i.cid i.range with invals := s.invals.filter fun j => j.id ≠ i.id }) s

/-- A target is refused at step 3 of R188. -/
def Reach.refuses (r : Reach) : Tgt → Bool
  | .hbm => false
  | .granary => !r.granary
  | .host => !r.host
  | .own => !r.scratch
  | .peer _ => !r.scratch
  | .remote _ => !r.remote

/-- The failure with the lowest address. -/
def lowest : List Trap → Option Trap
  | [] => none
  | t :: r =>
    match lowest r with
    | none => some t
    | some u => if u.addr.toNat < t.addr.toNat then some u else some t

/-- The errors of a list of results. -/
def errorsOf {α : Type} (l : List (Except Trap α)) : List Trap :=
  l.filterMap fun e => match e with | .error t => some t | .ok _ => none

/-- The values of a list of results. -/
def oksOf {α : Type} (l : List (Except Trap α)) : List α :=
  l.filterMap fun e => match e with | .ok a => some a | .error _ => none

/-- The permission failure of a piece (R347 step 5, R188 step 5). A write to the Granary fails here, at step 5, as the table of R188 and R347
have it, where R191 says step 3 of a target marked PROT (DESIGN CHOICE: assumption log entry 73). -/
def permFail (s : State) (key : Nat) (rd wr : Bool) (p : Piece) : Option Trap :=
  let leafFail :=
    if wr && (p.leaf.granary || p.tgt = .granary) then some (mkTrap 5 p.va (2147483648 + p.leaf.tbl + 64))
    else if (rd && !p.leaf.rd) || (wr && !p.leaf.wr) then some (mkTrap 5 p.va (2147483648 + p.leaf.tbl + 32))
    else none
  match p.tgt with
  | .hbm => leafFail
  | .host => leafFail
  | .granary => leafFail
  | .remote w => if wr && ((s.thr key).win.get w).limit = 0#10 then some (mkTrap 5 p.va 0) else none
  | _ => none

/-- Steps 3 to 5 of R188 over every byte of an access, with the step that fails; the pieces when none does. -/
def resolveAt (s : State) (key cid : Nat) (rd wr : Bool) (reach : Reach) (spans : List (Nat × Nat)) :
    Except (Nat × Trap) (List Piece) :=
  let cut := cutSpans spans
  let cl := cut.map fun p => (p, classify s key p.1)
  let pre := cl.filterMap fun e => match e.2 with | .error t => some t | .ok _ => none
  let res := cl.filterMap fun e =>
    match e.2 with
    | .error _ => none
    | .ok (some (tg, a)) => some (Except.ok (Piece.mk e.1.1 e.1.2 tg a default))
    | .ok none => some (flatFrom s (s.placeOf key) cid e.1.1 e.1.2)
  let pieces := oksOf res
  let refused := pieces.filterMap fun p => if reach.refuses p.tgt then some (mkTrap 5 p.va 0) else none
  match lowest (pre ++ refused) with
  | some t => .error (3, t)
  | none =>
    match lowest (errorsOf res) with
    | some t => .error (4, t)
    | none =>
      match lowest (pieces.filterMap (permFail s key rd wr)) with
      | some t => .error (5, t)
      | none => .ok pieces

/-- Steps 3 to 5 of R188 over every byte of an access; the pieces when none fails. -/
def resolve (s : State) (key cid : Nat) (rd wr : Bool) (reach : Reach) (spans : List (Nat × Nat)) : Except Trap (List Piece) :=
  match resolveAt s key cid rd wr reach spans with
  | .ok p => .ok p
  | .error e => .error e.2

end Sys2Proof.Machine
end

