-- ==== Sys2Proof/Machine/Ops.lean ====
section
/-! DEFINITION. The named operations over threads, memory, versions, flags and traps that the meanings share. -/

namespace Sys2Proof.Machine

/-- Why an operation does not complete: a trap (nothing it did takes effect), a stall (nothing took effect, it is
tried again whole), a wait that leaves something started, or a trap that leaves what was performed before it (the earlier
chunks of a copy, the earlier rows of a drain). -/
inductive Stop where
  | trap (t : Trap)
  | stall (k : WaitKind)
  | wait (k : WaitKind) (s : State)
  | fault (t : Trap) (s : State)

/-- An operation of the machine: a trap or a stall discards every change it made. -/
abbrev M := StateT State (Except Stop)

/-- Raises a trap. -/
def raise {α : Type} (t : Trap) : M α := fun _ => .error (.trap t)

/-- Stalls. -/
def stall {α : Type} (k : WaitKind) : M α := fun _ => .error (.stall k)

/-- Waits, keeping what has been started. -/
def waitOn {α : Type} (k : WaitKind) : M α := fun s => .error (.wait k s)

/-- Turns a checked result into an operation. -/
def check {α : Type} : Except Trap α → M α
  | .ok a => pure a
  | .error t => raise t

/-- The thread of a key. -/
def getThr (key : Nat) : M Thread := do return (← get).thr key

/-- Changes the thread of a key. -/
def modThr (key : Nat) (f : Thread → Thread) : M Unit := modify fun s => s.updThr key f

/-! ## Clocks (R177) -/

/-- The later of two clocks at every path. -/
def joinClk : Clock → Clock → Clock
  | [], b => b
  | (k, v) :: t, b => joinClk t (if b.get k < v then b.put k v else b)

/-- The clock component of a path of a thread. -/
def clkKey (key path : Nat) : Nat := key * 256 + path

/-- The path code of R151 that a path reports: 64 plus v is the input stream of register v, 128 plus v its output
stream. -/
def pathCode (path : Nat) : Nat := if path < 64 then path else if path < 128 then 1 else 2

/-- What is known to come before an access on a path of a thread: what the path has learnt and the path's own
accesses. -/
def Thread.clkOf (t : Thread) (key path : Nat) : Clock :=
  joinClk (t.know.get path) [(clkKey key path, t.epoch.get path)]

/-- What is known to come before an event that follows every access of the given paths. -/
def Thread.clkAll (t : Thread) (key : Nat) (paths : List Nat) : Clock :=
  joinClk t.base (paths.foldl (fun c p => joinClk (t.clkOf key p) c) [])

/-- What the MDRAINs of a thread have written, and what came before it: not a path of its own, for their writes lie on the CP path (R143). -/
def drainPath : Nat := 9

/-- What the MX wait entries of a thread have acquired, which comes before the writes of its later MDRAINs (R143, R166). -/
def drainWait : Nat := 10

/-- The five queue paths and the sequencer's. -/
def ownPaths : List Nat := [0, 1, 2, 3, 4]

/-- A thread that has learnt a clock on some paths. -/
def Thread.learn (t : Thread) (paths : List Nat) (c : Clock) : Thread :=
  { t with know := paths.foldl (fun m p => m.put p (joinClk c (m.get p))) t.know }

/-- A thread that has learnt a clock for every word issued from now on (R166). -/
def Thread.acquire (t : Thread) (c : Clock) : Thread := { (t.learn [0] c) with base := joinClk c t.base }

/-! ## Registers (R40) -/

/-- A scalar register: x0 reads zero with empty taint. -/
def Frame.rx (f : Frame) (i : BitVec 5) : XReg := if i = 0#5 then default else f.x.get i.toNat

/-- A scalar register written: a write to x0 is discarded. -/
def Frame.wx (f : Frame) (i : BitVec 5) (v : XReg) : Frame :=
  if i = 0#5 then f else { f with x := f.x.put i.toNat v }

/-- A scalar register of a thread. -/
def Thread.rx (t : Thread) (i : BitVec 5) : XReg := t.live.rx i

/-- A thread with a scalar register written. -/
def Thread.wx (t : Thread) (i : BitVec 5) (v : XReg) : Thread := { t with live := t.live.wx i v }

/-- A mask register: k0 reads all ones with empty taint. -/
def Frame.rk (f : Frame) (i : Nat) : KReg :=
  if i = 0 then { val := BitVec.allOnes 512, taint := 0#16, sat := false, owner := 0#32 } else f.k.get i

/-- A mask register written. -/
def Frame.wk (f : Frame) (i : Nat) (v : KReg) : Frame := if i = 0 then f else { f with k := f.k.put i v }

/-- The frame with a vector register changed. -/
def Frame.updV (f : Frame) (i : Nat) (g : VReg → VReg) : Frame := { f with v := f.v.put i (g (f.v.get i)) }

/-- A thread with its live frame changed. -/
def Thread.updLive (t : Thread) (g : Frame → Frame) : Thread := { t with live := g t.live }

/-- The queue of an engine. -/
def Thread.queue (t : Thread) (e : Eng) : Queue := t.queues.get e.code

/-- A thread with the queue of an engine replaced. -/
def Thread.setQueue (t : Thread) (e : Eng) (q : Queue) : Thread := { t with queues := t.queues.put e.code q }

/-- The head of a queue: the number of its oldest entry, or its push count (R371). -/
def Queue.head (q : Queue) : Nat :=
  match q.entries with
  | [] => q.pushed
  | e :: _ => e.num

/-- The five engines. -/
def engs : List Eng := [.vl, .va, .vs, .mx, .cp]

/-- The path of an engine's accesses (R151); the VA engine makes none. -/
def Eng.path : Eng → Nat
  | .vl => 1
  | .va => 8
  | .vs => 2
  | .mx => 3
  | .cp => 4

/-- The engine whose queue carries the accesses of a path. -/
def engOfPath : Nat → Option Eng
  | 1 => some .vl
  | 2 => some .vs
  | 3 => some .mx
  | 4 => some .cp
  | _ => none

/-- Every queue of a thread is empty. -/
def Thread.idleQueues (t : Thread) : Bool := engs.all fun e => (t.queue e).entries.isEmpty

/-- The version a thread's new work belongs to (R378). -/
def Thread.curVer (t : Thread) : Version := t.versions.getLast?.getD default

/-- The thread with a version changed. -/
def Thread.updVer (t : Thread) (id : Nat) (f : Version → Version) : Thread :=
  { t with versions := t.versions.map fun v => if v.id = id then f v else v }

/-- A version of a thread by id. -/
def Thread.ver (t : Thread) (id : Nat) : Version := (t.versions.find? fun v => v.id = id).getD default

/-! ## Tickets and taint (R167 to R171) -/

/-- The mask of live tickets. -/
def Thread.liveTickets (t : Thread) : BitVec 16 :=
  t.tickets.foldl (fun m p => if p.2.live then m ||| (1#16 <<< p.1) else m) 0#16

/-- A taint mask without one ticket. -/
def dropBit (m : BitVec 16) (k : Nat) : BitVec 16 := m &&& ~~~(1#16 <<< k)

/-- A taint mask holds a ticket. -/
def hasBit (m : BitVec 16) (k : Nat) : Bool := m.getLsbD k

/-- A stream after a ticket has bound: the taint captured when its binding was pushed loses it, and so do the tickets live then (R170). -/
def Stream.dropTicket (s : Stream) (k : Nat) : Stream := { s with taint := dropBit s.taint k, live := dropBit s.live k }

/-- A frame whose taint masks no longer hold a ticket (R170); the vector entries and mask registers that held it remember what its load comes
after (R176). -/
def Frame.dropTicket (f : Frame) (k : Nat) (acq : Clock := []) : Frame :=
  { f with
    x := f.x.map fun p => (p.1, { p.2 with taint := dropBit p.2.taint k })
    k := f.k.map fun p => (p.1, { p.2 with taint := dropBit p.2.taint k, after := if hasBit p.2.taint k then joinClk acq p.2.after else p.2.after })
    v := f.v.map fun p =>
      (p.1, { p.2 with fifo := p.2.fifo.map fun e =>
                { e with taint := dropBit e.taint k, after := if hasBit e.taint k then joinClk acq e.after else e.after }, strm := p.2.strm.dropTicket k })
    ctaint := dropBit f.ctaint k }

/-- A queue entry after a ticket has bound: its captured taints lose it, and what its load comes after is remembered if the entry waited
for it; what only a write waits for, control taint, is remembered apart (R170, R173, R176). -/
def QEntry.dropTicket (e : QEntry) (k : Nat) (acq : Clock) : QEntry :=
  let held := e.ops.any (fun o => hasBit o.taint k) || (hasBit e.live k && e.ops.any (·.sat))
  let ctl := hasBit e.ctaint k || (hasBit e.live k && e.csat)
  { e with
    ops := e.ops.map fun o => { o with taint := dropBit o.taint k }
    ctaint := dropBit e.ctaint k
    live := dropBit e.live k
    deps := if held then joinClk acq e.deps else e.deps
    cdeps := if ctl then joinClk acq e.cdeps else e.cdeps }

/-- What only the writes of a stream wait for: a bound output stream whose binding holds a ticket learns what its load comes after on its
own path (R173, R176, R208). -/
def Thread.streamDeps (t : Thread) (k : Nat) (acq : Clock) : Thread :=
  let paths := t.live.v.filterMap fun p =>
    if p.2.strm.active && p.2.strm.out && (hasBit p.2.strm.taint k || (p.2.strm.sat && hasBit p.2.strm.live k)) then some (128 + p.1) else none
  if paths.isEmpty then t else t.learn paths acq

/-- A ticket binds (R170). -/
def Thread.bindTicket (t : Thread) (k : Nat) : Thread :=
  let tk := t.tickets.get k
  if tk.live then
    let t := t.streamDeps k tk.acq
    { t with
      live := t.live.dropTicket k tk.acq
      tickets := t.tickets.erase k
      queues := t.queues.map fun q => (q.1, { q.2 with entries := q.2.entries.map fun e => e.dropTicket k tk.acq }) }
  else t

/-- Tickets bind one after the other. -/
def Thread.bindMany (t : Thread) (m : BitVec 16) : Thread :=
  (countFrom 0 16).foldl (fun t k => if hasBit m k then t.bindTicket k else t) t

/-- A set of tickets holds one of a load that is still queued. -/
def Thread.pendingIn (t : Thread) (m : BitVec 16) : Bool := t.tickets.any fun p => hasBit m p.1 && p.2.live && !p.2.sq

/-- The tickets of the sequencer's own loads, which have been performed when their words have. -/
def Thread.sqTickets (t : Thread) : BitVec 16 :=
  t.tickets.foldl (fun m p => if p.2.live && p.2.sq then m ||| (1#16 <<< p.1) else m) 0#16

/-- What comes before an access that waits for a set of tickets: their loads, and what those acquired (R176). -/
def Thread.acqOf (t : Thread) (m : BitVec 16) : Clock :=
  t.tickets.foldl (fun c p => if hasBit m p.1 && p.2.live then joinClk p.2.acq c else c) []

/-- An access on some paths waits for every ticket of its operand taint, and for every live ticket when a saturation bit
is set; the wait ends when they have bound, and the access comes after their loads and what those acquired (R169, R171, R176). -/
def Thread.settle (t : Thread) (paths : List Nat) (taint : BitVec 16) (sat : Bool) (live : BitVec 16) : Thread :=
  let m := taint ||| (if sat then live else 0#16)
  let m := m &&& t.liveTickets
  if m = 0#16 then t else ((t.learn paths (t.acqOf m)).bindMany m)

/-! ## Functions and events (R305, R320) -/

/-- A function of the package. -/
def State.func (s : State) (fn : Nat) : Func := s.funcs.get fn

/-- Posts a record to a function's event queue, or counts it lost (R305, R320). -/
def EvRec.post (e : EvRec) (s : State) : State :=
  let f := s.func e.fn
  let n := f.evqSize.toNat / 32
  let base := wfld f.evqBase 6 46 * 64
  if base = 0 || n = 0 || f.evqTail.toNat - f.evqHead.toNat ≥ n then
    { s with funcs := s.funcs.put e.fn { f with evqLost := f.evqLost + 1 } }
  else
    let a := base + 32 * (f.evqTail.toNat % n)
    let bytes := natLE 1 e.kind ++ natLE 1 e.reason ++ natLE 2 e.tag ++ natLE 4 e.ring ++ natLE 2 e.cid ++ natLE 2 e.opindex ++
      natLE 4 e.code ++ natLE 8 s.tick ++ natLE 8 e.detail
    { s with
      host := s.host.setBytes a bytes
      funcs := s.funcs.put e.fn { f with evqTail := f.evqTail + 1 }
      msix := s.msix ++ [(e.fn, 0)] }

/-- The firmware's services are held: by a live update (R421), or because no firmware runs (R363; DESIGN CHOICE, assumption log entry 37). -/
def State.fwHeld (s : State) : Bool := !s.boot.running || (decide (2 ≤ s.boot.phase) && decide (s.boot.phase ≤ 4))

/-- Posts an event; page requests are held during a live update (R421). -/
def postEvent (fn kind reason tag ring cid opindex code detail : Nat) (s : State) : State :=
  let e : EvRec := ⟨fn, kind, reason, tag, ring, cid, opindex, code, detail⟩
  if kind = 8 && s.fwHeld then { s with boot := { s.boot with posts := s.boot.posts ++ [e] } } else e.post s

/-! ## Counters (R356 to R359) -/

/-- A counter of a bank moves on; it wraps, setting its overflow bit (R359). -/
def Bank.add (b : Bank) (i n : Nat) : Bank :=
  let v := (b.values.get i).toNat + n
  { b with values := b.values.put i (BitVec.ofNat 64 v), ctl := if v < two64 then b.ctl else b.ctl ||| (1#64 <<< (3 + i)) }

/-- The counters of an enabled bank that count an event count it n times more. -/
def Bank.bump (b : Bank) (ev n : Nat) : Bank :=
  if !b.ctl.getLsbD 0 then b else b.events.foldl (fun b e => if e.2.toNat = ev then b.add e.1 n else b) b

/-- The events whose counts depend on the implementation's timing and caches alone. DESIGN CHOICE: assumption log entry 62. -/
def timedEvent (ev : Nat) : Bool := ev = 4 || ev = 5 || ev = 6 || ev = 8

/-- The counters of timed events of an enabled bank catch up, each by a free amount; what a bank holds while it is not enabled stays (R358,
R359; DESIGN CHOICE, assumption log entry 62). -/
def Bank.catchUp (b : Bank) (fr : Nat) : Bank :=
  if !b.ctl.getLsbD 0 then b
  else b.events.foldl (fun b e => if timedEvent e.2.toNat then b.add e.1 (Config.freeWord (fr + e.1)).toNat else b) b

/-- The timed counters of a bank catch up before it is read, written or taken away. -/
def State.catchUp (s : State) (n : Nat) : State :=
  if (s.banks.get n).ctl.getLsbD 0 then { s with banks := s.banks.put n ((s.banks.get n).catchUp s.fresh), fresh := s.fresh + 8 } else s

/-- The banks that a context holds count an event of it, as do those of the hypervisor. -/
def State.countEv (s : State) (cid ev n : Nat) : State :=
  if s.banks.isEmpty then s
  else { s with banks := s.banks.map fun p =>
    if p.1 < 128 && (p.2.holder = cid + 2 || p.2.holder = 1) then (p.1, p.2.bump ev n) else p }

/-! ## Invalidation (R353) -/

/-- An invalidation begins; one that is merged is counted for the hypervisor (R353, R359). Answers its number. -/
def State.startInval (s : State) (cid : Nat) (range : Option (Nat × Nat)) : Nat × State :=
  let r := s.beginInval cid range
  (r.1, if r.2.1 then r.2.2.countEv cid 0x105 1 else r.2.2)

/-- The range that an address and a length name (R352). -/
def invalRange (va len : Nat) : Option (Nat × Nat) := if len = 0 then none else some (va, len)

/-- An invalidation that completes before the command that asks for it does, with every earlier one of the context (R353). -/
def State.invalidate (s : State) (cid : Nat) (range : Option (Nat × Nat)) : State :=
  (s.startInval cid range).2.endInvals fun i => i.cid = cid

/-! ## Blocks, undo records and versions (R378) -/

/-- The memory of a space. -/
def State.space (s : State) : Space → Memory
  | .hbm => s.hbm
  | .scratch k => (s.thr k).scratch
  | .staging => s.staging

/-- The state with the memory of a space replaced. -/
def State.setSpace (s : State) (sp : Space) (m : Memory) : State :=
  match sp with
  | .hbm => { s with hbm := m }
  | .scratch k => s.updThr k fun t => { t with scratch := m }
  | .staging => { s with staging := m }

/-- The 64 bytes of a block as a vector, byte 0 lowest. -/
def Memory.block (m : Memory) (line : Nat) : BitVec 512 := BitVec.ofNat 512 (m.readLE (line * 64) 64)

/-- The bytes from an address on, cut at blocks. -/
def cutBytes : Nat → Nat → List Byte → List (Nat × List Byte)
  | 0, _, _ => []
  | _, _, [] => []
  | fuel + 1, a, l =>
    let n := 64 - a % 64
    if l.length ≤ n then [(a, l)] else (a, l.take n) :: cutBytes fuel (a + n) (l.drop n)

/-- The blocks that a byte range touches. -/
def blocksOf (a len : Nat) : List Nat :=
  if len = 0 then [] else countFrom (a / 64) ((a + len - 1) / 64 - a / 64 + 1)

/-- The mask of n bytes of a block from an offset on. -/
def byteMask (off n : Nat) : BitVec 64 := (BitVec.ofNat 64 (2 ^ n - 1)) <<< off

/-- Whether a write by a version to a block adds nothing to its use (R384): a line of HBM that it has written before, or a block of
another space of which it holds an undo record. -/
def Version.hasLine (v : Version) (sp : Space) (line : Nat) : Bool :=
  if sp = .hbm then v.lines.contains line else v.undo.any fun u => decide (u.space = sp) && u.line = line

/-- Adds the undo record of a write by a version of a thread; no version keeps none for an id that is not live. In HBM every write has its
record; elsewhere the first write to a block since the version began, or since it last published, records the whole block and its tag
(R378, R386). -/
def State.addUndo (s : State) (key ver : Nat) (u : Undo) : State :=
  let s := { s with stamp := s.stamp + 1 }
  s.updThr key fun t => t.updVer ver fun v =>
    let old := v.hasLine u.space u.line
    let fresh := if old then 0 else 64
    if u.space = .hbm then
      { v with
        undo := { u with stamp := s.stamp } :: v.undo, use := v.use + fresh, useKnext := v.useKnext + fresh
        lines := if old then v.lines else u.line :: v.lines }
    else if old then v
    else
      { v with
        undo := { u with stamp := s.stamp, mask := BitVec.allOnes 64, tagW := true } :: v.undo
        use := v.use + fresh, useKnext := v.useKnext + fresh }

/-- Writes bytes and perhaps tags of a space under a version of a thread (R378). -/
def State.writeVer (s : State) (key ver : Nat) (sp : Space) (a : Nat) (data : List Byte) : State :=
  (cutBytes (data.length / 64 + 2) a data).foldl (fun s seg =>
    let m := s.space sp
    let line := seg.1 / 64
    let s := s.addUndo key ver
      { space := sp, line := line, old := m.block line, mask := byteMask (seg.1 % 64) seg.2.length, oldTag := m.tag seg.1,
        tagW := false, stamp := 0 }
    s.setSpace sp ((s.space sp).setBytes seg.1 seg.2)) s

/-- Writes the tag of a block under a version. -/
def State.writeTagVer (s : State) (key ver : Nat) (sp : Space) (a : Nat) (tag : W32) : State :=
  let m := s.space sp
  let s := s.addUndo key ver
    { space := sp, line := a / 64, old := m.block (a / 64), mask := 0#64, oldTag := m.tag a, tagW := true, stamp := 0 }
  s.setSpace sp ((s.space sp).setTag a tag)

/-- The undo record of a line of HBM without bytes (and tag) that a newer committed record of the same line covers; those of other spaces
are whole blocks, and are written back whole (R378). -/
def Undo.strip (r by_ : Undo) : Undo :=
  if r.space = .hbm && by_.space = .hbm && r.line = by_.line && r.stamp < by_.stamp then
    { r with mask := r.mask &&& ~~~by_.mask, tagW := r.tagW && !by_.tagW }
  else r

/-- Every live version's older undo records give way to writes that commit. -/
def State.stripBy (s : State) (id : Nat) (recs : List Undo) : State :=
  if recs.isEmpty then s else
  { s with threads := s.threads.map fun p =>
      (p.1, { p.2 with versions := p.2.versions.map fun v =>
        if v.id = id then v else { v with undo := v.undo.map fun r => recs.foldl (fun r b => r.strip b) r } }) }

/-- Versions that waited for a version wait for it no longer (R387). -/
def State.resolveDeps (s : State) (id : Nat) : State :=
  { s with threads := s.threads.map fun p =>
      (p.1, { p.2 with versions := p.2.versions.map fun v => { v with deps := v.deps.filter (· ≠ id) } }) }

/-- The releases once a version has committed what it has written: its own stand, and those that its writes have overwritten are gone (R165). -/
def State.commitRels (s : State) (id : Nat) : State :=
  if s.rels.isEmpty then s
  else { s with rels := (s.rels.filter fun x => !x.hid.contains id).map fun x => if x.ver = some id then { x with ver := none } else x }

/-- The releases once what a version has written is undone: its own are gone, and those that its writes had overwritten stand again (R165,
R382). -/
def State.undoRels (s : State) (id : Nat) : State :=
  if s.rels.isEmpty then s
  else { s with rels := (s.rels.filter fun x => x.ver ≠ some id).map fun x => { x with hid := x.hid.filter (· ≠ id) } }

/-- Commits what a version has written so far: its writes become ordinary data (R378, R386). -/
def State.commitWrites (s : State) (key id : Nat) : State :=
  let v := (s.thr key).ver id
  let s := s.stripBy id v.undo
  let s := s.updThr key fun t => t.updVer id fun v => { v with undo := [] }
  (s.resolveDeps id).commitRels id

/-- Writes bytes to a space outside every version: older undo records give way (R267, R378). -/
def State.writeCommitted (s : State) (sp : Space) (a : Nat) (data : List Byte) : State :=
  let s := { s with stamp := s.stamp + 1 }
  let recs := (cutBytes (data.length / 64 + 2) a data).map fun seg =>
    ({ space := sp, line := seg.1 / 64, old := 0#512, mask := byteMask (seg.1 % 64) seg.2.length, oldTag := 0#32, tagW := false
       stamp := s.stamp } : Undo)
  (s.stripBy 1048576 recs).setSpace sp ((s.space sp).setBytes a data)

/-- Restores one byte that an undo record covers: into the oldest newer live record of the byte, else into memory. -/
def State.undoByte (s : State) (r : Undo) (i : Nat) : State :=
  let b := BitVec.ofNat 8 (r.old.toNat / 2 ^ (8 * i))
  s.setSpace r.space ((s.space r.space).setByte (r.line * 64 + i) b)

/-- The newer records of other versions that cover bytes of a record. -/
def State.newer (s : State) (id : Nat) (r : Undo) : List Undo :=
  s.threads.flatMap fun p => p.2.versions.flatMap fun v =>
    if v.id = id then [] else v.undo.filter fun u =>
      decide (u.space = r.space) && u.line = r.line && r.stamp < u.stamp

/-- The bytes of a block merged under a mask of bytes. -/
def mergeBlock (old new : BitVec 512) (mask : BitVec 64) : BitVec 512 :=
  (countFrom 0 64).foldl (fun acc i =>
    if mask.getLsbD i then
      let m := (0xFF#512) <<< (8 * i)
      (acc &&& ~~~m) ||| (new &&& m)
    else acc) old

/-- A newer record takes over the old bytes of a record that is undone beneath it. -/
def Undo.rebase (u r : Undo) (mask : BitVec 64) : Undo :=
  { u with old := mergeBlock u.old r.old mask, oldTag := if r.tagW && u.tagW then r.oldTag else u.oldTag }

/-- Undoes one record of a version (R378, R382). -/
def State.undoOne (s : State) (id : Nat) (r : Undo) : State :=
  let nw := if r.space = .hbm then s.newer id r else []
  let cover := nw.foldl (fun m u => m ||| u.mask) 0#64
  let free := r.mask &&& ~~~cover
  let s := (countFrom 0 64).foldl (fun s i => if free.getLsbD i then s.undoByte r i else s) s
  let s := if r.tagW && !nw.any (·.tagW) then
      s.setSpace r.space ((s.space r.space).setTag (r.line * 64) r.oldTag) else s
  if nw.isEmpty then s else
  { s with threads := s.threads.map fun p =>
      (p.1, { p.2 with versions := p.2.versions.map fun v =>
        if v.id = id then v else { v with undo := v.undo.map fun u =>
          if u.space = r.space && u.line = r.line && r.stamp < u.stamp then u.rebase r (u.mask &&& r.mask) else u } }) }

/-- Discards a version: its undo records are written back, newest first (R378), and the held reports that concern it are
dropped (R377). -/
def State.discardVersion (s : State) (key id : Nat) : State :=
  let v := (s.thr key).ver id
  let s := (v.undo.foldl (fun s r => s.undoOne id r) s).undoRels id
  s.updThr key fun t =>
    { t with versions := t.versions.filter fun v => v.id ≠ id, reports := t.reports.filter fun h => h.verId ≠ id }

/-- The first number from one on that is no member of a list, modulo 2^20. -/
def freeId (used : List Nat) : Nat → Nat → Nat
  | 0, n => n
  | fuel + 1, n => if used.contains (n % 1048576) then freeId used fuel (n + 1) else n

/-- A number free among the live versions (R378). DESIGN CHOICE: assumption log entry 19. -/
def State.newVerId (s : State) : Nat × State :=
  let used := 0 :: s.threads.flatMap fun p => p.2.versions.map (·.id)
  let n := freeId used used.length s.verNext
  (n % 1048576, { s with verNext := n + 1 })

/-- A fresh version of a thread, running a record (R54, R378). -/
def freshVersion (id : Nat) (r : Rec) : Version :=
  { (default : Version) with id := id, task := r.addr, budget := r.budget }

/-! ## Dependencies of versions (R387) -/

/-- The versions of all threads with the keys of their threads. -/
def State.allVersions (s : State) : List (Nat × Version) := s.threads.flatMap fun p => p.2.versions.map fun v => (p.1, v)

/-- The versions that a list of versions depends on, directly and through others, the list's own among them. -/
def depClosure (l : List (Nat × Version)) : Nat → List Nat → List Nat
  | 0, seen => seen
  | fuel + 1, seen =>
    let more := l.flatMap fun p => if seen.contains p.2.id then p.2.deps else []
    let new := (more.filter fun d => !seen.contains d).eraseDups
    if new.isEmpty then seen else depClosure l fuel (seen ++ new)

/-- The other members of the cycle of dependencies that a version with open dependencies lies in, when every version it depends on is a
member of it. -/
def State.cycleOf (s : State) (v : Version) : Option (List (Nat × Version)) :=
  let l := s.allVersions
  let reach := depClosure l l.length v.deps
  let back := l.filter fun p => reach.contains p.2.id && (depClosure l l.length p.2.deps).contains v.id
  if reach.contains v.id && reach.all fun d => back.any fun p => p.2.id = d then some (back.filter fun p => p.2.id ≠ v.id) else none

/-- The dependencies of a version have resolved, or it lies in a cycle of versions whose others all wait at a commit point or a publishing
act (R387). -/
def State.depsReady (s : State) (v : Version) : Bool :=
  v.deps.isEmpty || (match s.cycleOf v with | some l => l.all fun p => p.2.waiting | none => false)

/-! ## What commits (R378 to R387) -/

/-- The saved images of the CB handles of a thread (R128, R378). -/
def Thread.cbImages (t : Thread) : List CbSave := t.cb.map fun p => { handle := p.1, img := { p.2 with dirty := false } }

/-- The live frame as a commit point saves it: taints, saturation bits and control taint clear (R380). -/
def Frame.clean (f : Frame) : Frame :=
  { f with
    x := f.x.foldl (fun m p => m.set p.1 { p.2 with taint := 0#16, sat := false }) []
    k := f.k.foldl (fun m p => m.set p.1 { p.2 with taint := 0#16, sat := false, after := [] }) []
    v := f.v.map fun p => (p.1, { p.2 with
      fifo := p.2.fifo.map fun e => { e with taint := 0#16, sat := false, after := [] }
      rest := p.2.rest.map fun e => (e.1, { e.2 with taint := 0#16, sat := false }) })
    ctaint := 0#16
    csat := false }

/-- The AB handles of a thread that hold lent slots (R123). -/
def Thread.lentAb (t : Thread) : List Nat := (t.ab.filter fun x => x.2.lent).map (·.1)

/-- The dirty lines of a thread's remote line cache. -/
def Thread.dirtyLines (t : Thread) : NMap RLine := t.lines.filter fun l => l.2.dirty ≠ 0#64

/-- The slots that MXFER has promised to the next task, as a commit point saves them (R128). -/
def Thread.promisedImages (t : Thread) : List (Nat × Nat × Slot) := t.promised.map fun p => (p.1, p.2.1, { p.2.2 with dirty := false })

/-- What a commit point saves besides the writes of the version: the frame, the CB images, the handle bindings, the promised slots and the
dirty remote lines (R128, R378, R380). -/
def Thread.saveAt (t : Thread) (frame : Frame) : Thread :=
  { t with
    committed := frame.clean, saved := t.cbImages, savedWb := t.wb.keys, savedAb := t.ab.keys, savedLent := t.lentAb, savedTask := t.handleTask
    savedPromised := t.promisedImages, savedLines := t.dirtyLines
    cb := t.cb.map fun p => (p.1, { p.2 with dirty := false })
    promised := t.promisedImages
    outside := [] }

/-- Takes a commit point that is not a boundary, once its conditions hold: the frame is saved, the version commits and
a new one begins at once (R380). -/
def State.commitNow (s : State) (key : Nat) (frame : Frame) : State :=
  let v := (s.thr key).curVer
  let s := (s.commitWrites key v.id).countEv (s.thr key).cid 9 1
  let (id, s) := s.newVerId
  s.updThr key fun t =>
    { t.saveAt frame with
      versions := (t.versions.filter fun w => w.id ≠ v.id) ++
        [{ freshVersion id t.live.task with budget := v.budget, task := v.task }] }

/-- The frame that a commit point saves: the live one, with the place to which its word passes (R380). -/
def Frame.passTo (f : Frame) (p : Frame) : Frame := { f with pc := p.pc, phase := p.phase, iter := p.iter }

/-- A member of a cycle of versions commits with the others (R387): a thread at a commit point takes it, with the word that stands there
done; at a publishing act, or a boundary, what the version has written commits, and the act follows when its unit goes on. -/
def State.commitMember (s : State) (p : Nat × Version) : State :=
  match p.2.pend with
  | some f =>
    let g := (s.thr p.1).live.passTo f
    (s.commitNow p.1 g).updThr p.1 fun t => { t with live := g, wait := default, idle := s.tick }
  | none => (s.commitWrites p.1 p.2.id).updThr p.1 fun t => t.updVer p.2.id fun v =>
      { v with waiting := false, published := v.published || v.landing.isNone }

/-- The other members of the cycle that a version commits in (R387). -/
def State.commitCycle (s : State) (v : Version) : State :=
  if v.deps.isEmpty then s else match s.cycleOf v with
    | some l => l.foldl State.commitMember s
    | none => s

/-- A version publishes: what it has written so far commits, and PUBLISHED is set (R386). -/
def State.publishNow (s : State) (key ver : Nat) : State :=
  ((s.commitCycle ((s.thr key).ver ver)).commitWrites key ver).updThr key fun t =>
    t.updVer ver fun w => { w with published := true, waiting := false, pend := none }

/-- A version waits at a commit point, with the frame it will save, or at a publishing act (R387). -/
def Thread.awaitDeps (t : Thread) (ver : Nat) (pend : Option Frame) : Thread :=
  t.updVer ver fun w => { w with waiting := true, pend := pend }

/-! ## Flags (R41, R248 to R251) -/

/-- The value of a flag; f0 reads zero. -/
def State.flagVal (s : State) (f : FlagRef) : W32 :=
  if f.group then ((s.ctx (f.owner / 256)).groups.get (f.owner % 256)).flags.get f.idx
  else if f.idx = 0 then 0#32 else (s.thr f.owner).live.f.get f.idx

/-- The state with a group changed. -/
def State.updGroup (s : State) (owner : Nat) (g : Group → Group) : State :=
  s.updCtx (owner / 256) fun c => { c with groups := c.groups.put (owner % 256) (g (c.groups.get (owner % 256))) }

/-- The state with the value of a flag replaced. -/
def State.setFlagVal (s : State) (f : FlagRef) (v : W32) : State :=
  if f.group then s.updGroup f.owner fun g => { g with flags := g.flags.put f.idx v }
  else if f.idx = 0 then s
  else s.updThr f.owner fun t => t.updLive fun fr => { fr with f := fr.f.put f.idx v }

/-- A sum that saturates at the largest flag value (R248). -/
def satAdd (v : W32) (n : Nat) : W32 := BitVec.ofNat 32 (Nat.min (v.toNat + n) 4294967295)

/-- What a flag releases to a wait (R166). -/
def State.flagClock (s : State) (f : FlagRef) : Clock :=
  if f.group then ((s.ctx (f.owner / 256)).groups.get (f.owner % 256)).clk.get f.idx else (s.thr f.owner).flagClk.get f.idx

/-- The set that last changed a flag. -/
def State.flagSetter (s : State) (f : FlagRef) : Setter :=
  if f.group then ((s.ctx (f.owner / 256)).groups.get (f.owner % 256)).setters.get f.idx else (s.thr f.owner).setters.get f.idx

/-- A wait may succeed as far as its thread's version goes: one on a group flag publishes, and so waits for the version's dependencies
(R386, R387). -/
def State.mayGrant (s : State) (w : Waiter) : Bool := !w.flag.group || s.depsReady ((s.thr w.key).ver w.ver)

/-- A wait that succeeds on a group flag publishes; one that may not yet marks its version as waiting. -/
def State.grantOf (s : State) (w : Waiter) : State :=
  if !w.flag.group then s
  else if s.mayGrant w then s.publishNow w.key w.ver
  else s.updThr w.key fun t => t.updVer w.ver fun v => { v with waiting := true }

/-- Serves the waiters of a flag in the order in which they began to wait (R248). -/
def serveWaiters (f : FlagRef) : List Waiter → State → List Waiter → State
  | [], s, done => { s with waiters := done }
  | w :: t, s, done =>
    if w.flag = f && !w.granted && w.count ≤ (s.flagVal f).toNat then
      let u := s.grantOf w
      if s.mayGrant w then
        serveWaiters f t (u.setFlagVal f (u.flagVal f - BitVec.ofNat 32 w.count))
          (done ++ [{ w with granted := true, setter := s.flagSetter f, clk := s.flagClock f }])
      else serveWaiters f t u (done ++ [w])
    else serveWaiters f t s (done ++ [w])

/-- The waits of a thread that a test of the unit selects, and that have not succeeded, are withdrawn (R390, R391); one that has succeeded stays so,
for its count has been taken and a wait on a group flag has published (R248, R386). No version of the thread waits at a publishing act any longer
but by a wait that is left. -/
def State.withdrawWaits (s : State) (key : Nat) (p : Nat → Bool) : State :=
  let s := { s with waiters := s.waiters.filter fun w => !(decide (w.key = key) && p w.unit && !w.granted) }
  if s.waiters.any fun w => decide (w.key = key) && !w.granted then s
  else s.updThr key fun t => { t with versions := t.versions.map fun v => { v with waiting := false, pend := none } }

/-- Adds to a flag (R248), with what the set releases and who made it; the waiters are then served. A set of a local
flag by an agent outside the thread's live versions is remembered for a roll-back (R383), and landing images take the
sets that R381 lists. A set by CPSIG or at the end of a pass is one at context scope or wider (R166). -/
def State.addFlag (s : State) (f : FlagRef) (n : Nat) (clk : Clock) (who : Setter) (ver : Option Nat) : State :=
  if !f.group && (f.idx = 0 || !(s.thr f.owner).alive) then s
  else
    let s := s.setFlagVal f (satAdd (s.flagVal f) n)
    let s :=
      if f.group then
        s.updGroup f.owner fun g => { g with clk := g.clk.put f.idx (joinClk clk (g.clk.get f.idx)), setters := g.setters.put f.idx who }
      else
        s.updThr f.owner fun t =>
          { t with
            flagClk := t.flagClk.put f.idx (joinClk clk (t.flagClk.get f.idx))
            setters := t.setters.put f.idx who
            wide := if (who.code = 8 || who.code = 9) && !t.wide.contains f.idx then f.idx :: t.wide else t.wide
            outside := if ver = none then t.outside.put f.idx (t.outside.get f.idx + n) else t.outside
            versions := t.versions.map fun v =>
              match v.landing with
              | some l =>
                if ver = none || ver = some v.id then
                  { v with landing := some { l with frame := { l.frame with f := l.frame.f.put f.idx (satAdd (l.frame.f.get f.idx) n) } } }
                else v
              | none => v }
    serveWaiters f s.waiters s []

/-- The flag that a flag field names, with the group resolved (R41). -/
def flagRef (key cid : Nat) (group : Option (BitVec 8)) (f : BitVec 8) : Option FlagRef :=
  if f.toNat < 192 then some ⟨false, key, f.toNat⟩
  else group.map fun g => ⟨true, cid * 256 + g.toNat, f.toNat - 192⟩

/-- Sets the dirty bit of a write through a leaf with DT (R349). -/
def markDirty (s : State) (cid : Nat) (p : Piece) : State :=
  if !(p.leaf.dt && (p.tgt = .hbm || p.tgt = .host)) then s
  else
    let c := s.ctx cid
    let base := wfld (c.word 48) 23 29 * 8388608
    let span := wfld (c.word 56) 0 18 * 8388608
    if base ≤ p.va && p.va - base < span then
      let i := (p.va - base) / 65536
      let a := wfld (c.word 40) 3 49 * 8 + i / 8
      { s with hbm := s.hbm.setByte a (s.hbm.byte a ||| (1#8 <<< (i % 8))) }
    else s.updCtx cid fun c => { c with desc := c.desc.put 7 (c.word 56 ||| (1#64 <<< 32)) }

/-- Writes bytes at a flat address of a context without checks of order, outside every version: the device's own
records (R251, R349, R373). Nothing is written where the address does not translate to a writable page of the context. -/
def State.kilnWrite (s : State) (cid va : Nat) (data : List Byte) : State :=
  (cutSpan (data.length / 16384 + 2) va data.length).foldl (fun (acc : State × List Byte) sp =>
    let s := acc.1
    let here := acc.2.take sp.2
    match flatPiece s cid sp.1 sp.2 with
    | .ok p =>
      if p.tgt = .hbm && p.leaf.wr && !p.leaf.granary then ((markDirty s cid p).writeCommitted .hbm p.addr here, acc.2.drop sp.2)
      else (s, acc.2.drop sp.2)
    | .error _ => (s, acc.2.drop sp.2)) (s, data) |>.1

/-- Writes the record of a wait that has ended, when logging is on and the wait was long enough (R251). -/
def State.logWait (s : State) (key unit flag count kind : Nat) (group : Nat) (since : Nat) (who : Setter) : State :=
  let t := s.thr key
  let c := s.ctx t.cid
  let base := wfld (c.regs.get 0x120) 6 46 * 64
  let size := (c.regs.get 0x121).toNat
  let waited := s.tick - since
  if base = 0 || size < 32 || waited < (c.regs.get 0x123).toNat then s
  else
    let head := (c.regs.get 0x122).toNat
    let rec_ := natLE 8 since ++ natLE 4 (Nat.min waited 4294967295) ++ natLE 4 count ++ natLE 2 t.num ++ natLE 1 unit ++
      natLE 1 flag ++ natLE 1 kind ++ natLE 1 who.code ++ natLE 2 (if who.code = 0 then 65535 else who.thread) ++
      natLE 4 who.endpoint.toNat ++ natLE 2 group ++ natLE 2 0
    let s := s.kilnWrite t.cid (base + 32 * (head % (size / 32))) rec_
    s.updCtx t.cid fun c => { c with regs := c.regs.put 0x122 (BitVec.ofNat 64 (head + 1)) }

/-- The group a flag reference names for the wait log, 0xFFFF for a local flag. -/
def FlagRef.groupNo (f : FlagRef) : Nat := if f.group then f.owner % 256 else 65535

/-- The flag number as a word names it. -/
def FlagRef.number (f : FlagRef) : Nat := if f.group then f.idx + 192 else f.idx

/-- A wait of a unit on a flag would pass now, as far as the flag goes. -/
def State.flagReady (s : State) (key unit num : Nat) (f : FlagRef) (n : Nat) : Bool :=
  match s.waiters.find? (fun w => decide (w.key = key) && decide (w.unit = unit) && decide (w.num = num)) with
  | some w => w.granted || decide (n ≤ (s.flagVal f).toNat)
  | none => decide (n ≤ (s.flagVal f).toNat)

/-- A wait on a flag by a unit of a thread: it passes when the count is there and takes it, and otherwise is entered
among the waiters and waits; one that waits on a group flag publishes as it succeeds (R248, R250, R251, R386). Answers what the flag
releases. -/
def waitFlag (key unit num ver : Nat) (f : FlagRef) (n : Nat) : M Clock := do
  modify fun s => if s.waiters.any fun w => w.flag = f && f.group && !w.granted then serveWaiters f s.waiters s [] else s
  modify fun s => { s with waiters := s.waiters.filter fun w =>
    !(decide (w.key = key) && decide (w.unit = unit) && decide (w.num = num) && !(decide (w.flag = f) && decide (w.count = n))) }
  let s ← get
  if !f.group && f.idx = 0 then
    set (s.logWait key unit 0 n 0 65535 s.tick default)
    return []
  match s.waiters.find? (fun w => decide (w.key = key) && decide (w.unit = unit) && decide (w.num = num)) with
  | some w =>
    if w.granted then
      let s := { s with waiters := s.waiters.filter fun w => !(decide (w.key = key) && decide (w.unit = unit) && decide (w.num = num)) }
      set (s.logWait key unit f.number n 0 f.groupNo w.since w.setter)
      return w.clk
    else stall .flag
  | none =>
    let w : Waiter := { key := key, unit := unit, num := num, flag := f, count := n, since := s.tick, ver := ver, granted := false,
                        setter := default }
    if n ≤ (s.flagVal f).toNat && s.mayGrant w then
      let s := s.grantOf w
      let s := s.setFlagVal f (s.flagVal f - BitVec.ofNat 32 n)
      set (s.logWait key unit f.number n 0 f.groupNo s.tick (s.flagSetter f))
      return s.flagClock f
    else
      let s := if n ≤ (s.flagVal f).toNat then s.grantOf w else s
      set { s with waiters := s.waiters ++ [w] }
      waitOn .flag

/-! ## Groups (R244 to R246) -/

/-- Completes the generation of a group when every member has arrived (R246, Check). -/
def State.groupCheck (s : State) (owner : Nat) : State :=
  s.updGroup owner fun g =>
    if g.members = [] then default
    else if g.members.all (·.2) then
      { g with members := g.members.map fun m => (m.1, false), gen := g.gen + 1, doneClk := g.barClk, barClk := [], doneArr := g.lastArr }
    else g

/-- The ticks that deadlock counts begin again for threads that a test selects: what could have ended a wait of theirs from outside has just
happened (R261). -/
def State.stir (s : State) (p : Nat → Thread → Bool) : State :=
  { s with threads := s.threads.map fun x => if p x.1 x.2 then (x.1, { x.2 with idle := s.tick }) else x }

/-- A thread leaves a group: its arrival goes with it, and the check is made (R245, R246). -/
def State.leaveGroup (s : State) (owner num : Nat) : State :=
  let left := ((s.ctx (owner / 256)).groups.get (owner % 256)).members
  ((s.updGroup owner fun g => { g with members := g.members.erase num }).groupCheck owner).stir fun _ t =>
    decide (t.cid = owner / 256) && left.has t.num

/-- A thread leaves every group of its context (R226). -/
def State.leaveAll (s : State) (cid num : Nat) : State :=
  (s.ctx cid).groups.foldl (fun s g => if g.2.members.has num then s.leaveGroup (cid * 256 + g.1) num else s) s

/-! ## Commit points and roll-back (R378 to R383) -/

/-- A flag is one whose waits acquire at context scope: a group flag, or one that a CPSIG or a pass has set (R164, R166). -/
def State.wideFlag (s : State) (f : FlagRef) : Bool := f.group || (s.thr f.owner).wide.contains f.idx

/-- The waiters of a thread's units are forgotten. -/
def State.dropWaiters (s : State) (key : Nat) : State := { s with waiters := s.waiters.filter fun w => w.key ≠ key }

/-- A commit point: it waits until every entry pushed before it has completed, every ticket has bound and every
dependency has resolved (R380). The frame is the live frame as the word leaves it. -/
def commitPoint (key : Nat) (after : Frame → Frame) : M Unit := do
  let s ← get
  let t := s.thr key
  if !t.idleQueues || t.versions.length ≠ 1 then stall .commit
  let t := t.bindMany t.liveTickets
  let s := s.setThr key t
  let v := t.curVer
  if s.depsReady v then set ((s.commitCycle v).commitNow key (after t.live))
  else
    set (s.updThr key fun u => u.awaitDeps v.id (some (after t.live)))
    waitOn .commit

/-- A thread publishes its current version: what it has written so far commits and PUBLISHED is set; it waits for the
version's dependencies first (R386, R387). The kind names what the unit waits on meanwhile. -/
def publishAs (k : WaitKind) (key ver : Nat) : M Unit := do
  let s ← get
  let v := (s.thr key).ver ver
  if s.depsReady v then set (s.publishNow key ver)
  else
    set (s.updThr key fun t => t.awaitDeps ver none)
    waitOn k

/-- A publishing act (R386). -/
def publish (key ver : Nat) : M Unit := publishAs .commit key ver

/-- A claim stands at the head of a thread's MX queue. -/
def Thread.claimHead (t : Thread) : Bool :=
  match (t.queue .mx).entries with
  | q :: _ => (match q.word with | .mclaim _ _ _ => true | _ => false)
  | [] => false

/-- The threads of a core whose claims wait count their ticks anew: slots have changed hands there (R134, R261). -/
def State.stirClaims (s : State) (core : Nat) : State :=
  s.stir fun _ t => decide (t.core = core) && t.claimHead

/-- The threads that wait on a flag count their ticks anew: a tile task that was to set it is gone (R261). -/
def State.stirFlag (s : State) (f : Option FlagRef) : State :=
  match f with
  | none => s
  | some f => s.stir fun k _ => s.waiters.any fun w => decide (w.key = k) && decide (w.flag = f)

/-- The tile tasks of a version that is discarded (R277): those not launched are withdrawn; the rows of the others are
dropped. -/
def State.withdrawVersion (s : State) (key id : Nat) : State :=
  if s.tasks.isEmpty then s
  else
    let own := fun (t : TileTask) => decide (t.key = some key) && decide (t.ver = some id)
    let gone := (s.tasks.filter fun p => own p.2 && p.2.st ≠ .launched).map (·.1)
    let s := (s.tasks.filter fun p => own p.2).foldl (fun s p => s.stirFlag p.2.flag) s
    { s with
      tasks := (s.tasks.filter fun p => !gone.contains p.1).map fun p =>
        if own p.2 then (p.1, { p.2 with gone := true, pass := none }) else p
      passes := (s.passes.map fun p =>
        if p.2.core.isSome then p else (p.1, { p.2 with tasks := p.2.tasks.filter fun x => !gone.contains x })).filter fun p =>
          p.2.core.isSome || !p.2.tasks.isEmpty }

/-- The tile tasks of a thread that retires run on without a submitter (R226, R277). -/
def State.orphanTasks (s : State) (key : Nat) : State :=
  if s.tasks.isEmpty then s
  else { s with tasks := s.tasks.map fun p =>
      let t := p.2
      (p.1, { t with key := if t.key = some key then none else t.key
                     ver := if t.key = some key then none else t.ver
                     flag := t.flag.filter fun f => f.group || f.owner ≠ key }) }

/-- A class of WAITC that remembers all its completed members as older ones. -/
def Hist.forget (h : Hist) : Hist := { recent := [], older := h.recent.foldl (fun c x => joinClk x.2 c) h.older }

/-- Restores a thread to its last restart point (R382, R383). A wait that has succeeded on a group flag has published, and is not taken back
(R386). -/
def State.rollBack (s : State) (key : Nat) : State :=
  let ids := ((s.thr key).versions.map (·.id)).reverse
  let s := s.dropWaiters key
  let s := ids.foldl (fun s id => (s.withdrawVersion key id).discardVersion key id) s
  let (id, s) := s.newVerId
  (s.stirClaims (s.thr key).core).updThr key fun t =>
    let f := t.outside.foldl (fun m p => m.set p.1 (satAdd (m.get p.1) p.2)) t.committed.f
    { t with
      live := { t.committed with f := f }
      queues := t.queues.map fun q => (q.1, { q.2 with entries := [] })
      tickets := []
      fences := []
      scores := []
      rounds := []
      cb := t.saved.map fun c => (c.handle, c.img)
      wb := t.savedWb.map fun h => (h, t.wb.get h)
      ab := t.savedAb.map fun h => (h, { t.ab.get h with lent := t.savedLent.contains h })
      handleTask := t.savedTask
      taskNo := t.savedTask
      promised := t.savedPromised
      lines := (t.lines.filter fun l => l.2.dirty = 0#64).foldl (fun (m : NMap RLine) l => if m.has l.1 then m else m.put l.1 l.2) t.savedLines
      sqPkt := none
      rdPkts := []
      replies := []
      prefs := []
      sentG := []
      inval := none
      versions := [freshVersion id t.committed.task]
      hist := t.hist.map fun h => (h.1, h.2.forget)
      hits := []
      stepAt := none
      resumePast := false
      wait := default }

/-! ## Traps (R367 to R377) -/

/-- The cut of a thread as TRAP_CUT holds it (R371). -/
def Thread.cut (t : Thread) : Nat :=
  (t.queue .vl).head % 4096 + (t.queue .va).head % 4096 * 2 ^ 12 + (t.queue .vs).head % 4096 * 2 ^ 24 +
    (t.queue .mx).head % 4096 * 2 ^ 36 + (t.queue .cp).head % 4096 * 2 ^ 48

/-- A PC as trap registers hold it: word index and model slot (R370). -/
def pcWord (slot pc : Nat) : W64 := BitVec.ofNat 64 (pc % 32768 + slot % 1024 * 32768)

/-- WATCH, STEP, BKPT and SWTRAP are stops (R369). -/
def isStop (cause : Nat) : Bool := cause = 15 || cause = 16 || cause = 17 || cause = 18

/-- PAGE and the stops keep the uncommitted version (R367). -/
def keepsVersion (cause : Nat) : Bool := isStop cause || cause = 4

/-- Every unit of a thread stops: its tickets bind and its frame is written back; a waiting claim or timed pass is
withdrawn unstarted, and comes to the head of its queue anew when the thread goes on; what loads have read early is read again (R134, R142, R149,
R391, R392). -/
def Thread.stopUnits (t : Thread) : Thread :=
  let t := t.bindMany t.liveTickets
  let park := fun (e : QEntry) => match e.word with
    | .mclaim _ _ _ => { e with ticket := none, since := none, headAt := none }
    | .mpassat _ _ _ _ _ => { e with ticket := none, since := none, headAt := none, started := false }
    | _ => { e with ticket := none }
  { t with queues := t.queues.map fun q => (q.1, { q.2 with entries := q.2.entries.map fun e => { park e with early := [] } }), kegAt := none, early := [] }

/-- A register of a context (R372). -/
def Ctx.reg (c : Ctx) (n : Nat) : W64 := c.regs.get n

/-- The trap record of a thread (R374). -/
def trapRecord (t : Thread) : List Byte :=
  natLE 1 t.trap.cause.toNat ++ natLE 1 t.trap.state.toNat ++ natLE 2 t.num ++ natLE 4 t.trap.ver.toNat ++
    natLE 8 t.trap.pc.toNat ++ natLE 8 t.trap.addr.toNat ++ natLE 8 t.trap.info.toNat ++ natLE 8 t.trap.cut.toNat ++
    natLE 8 t.trap.iter.toNat ++ natLE 8 t.trap.task.toNat ++ natLE 4 (wfld t.trap.state 32 32) ++
    natLE 1 (wfld t.trap.state 8 8) ++ natLE 3 0

/-- A ring slot is writable: it translates to present writable pages in frames that the context owns (R373). -/
def State.ringWritable (s : State) (cid va : Nat) : Bool :=
  match flatPiece s cid va 64 with
  | .ok p => decide (p.tgt = .hbm) && p.leaf.wr && !p.leaf.granary
  | .error _ => false

/-- Whether a logical thread exists. -/
def State.exists_ (s : State) (cid num : Nat) : Bool := (s.thr (cid * 65536 + num)).alive

/-- Tells the handler of a trap, by its ring and flag, or the host (R373). A stop of a thread under a debugger goes to
the debugger's thread (R423). -/
def State.notifyTrap (s : State) (key cause : Nat) : State :=
  let t := s.thr key
  let c := s.ctx t.cid
  let dbg := t.toDbg && isStop cause
  let h := if dbg then c.reg 0x162 else c.reg 0x104
  let base := wfld (c.reg 0x100) 6 46 * 64
  let n := (c.reg 0x101).toNat / 64
  let head := (c.reg 0x102).toNat
  let hNum := wfld h 0 16
  let slot := base + 64 * (head % n)
  if (dbg || (c.reg 0x105).getLsbD cause) && base ≠ 0 && n ≠ 0 && wfld h 63 1 = 1 && s.exists_ t.cid hNum && hNum ≠ t.num &&
      head - (c.reg 0x103).toNat < n && s.ringWritable t.cid slot then
    let s := s.kilnWrite t.cid slot (trapRecord t)
    let s := s.updCtx t.cid fun c => { c with regs := c.regs.put 0x102 (BitVec.ofNat 64 (head + 1)) }
    s.addFlag ⟨false, t.cid * 65536 + hNum, wfld h 16 8⟩ 1 [] { code := 10, thread := 65535, endpoint := 0#32 } none
  else postEvent c.func 5 0 0 4294967295 t.cid 0 cause t.trap.addr.toNat s

/-- The clean lines of a thread are discarded, and dirty ones hold their dirty bytes alone. -/
def Thread.dropClean (t : Thread) : Thread :=
  { t with lines := t.dirtyLines.map (fun l => (l.1, { l.2 with valid := false })), prefs := [] }

/-- Frees the place of a thread that leaves its slot: the remote line cache of the core keeps nothing of it, and the dirty bytes of its lines go
with it (DESIGN CHOICE: assumption log entry 67). A gang member keeps its slot reserved (R14, R230, R373). -/
def Thread.offSlot (t : Thread) : Thread :=
  if t.gang = 0 then { t.dropClean with core := 0, slot := 0, placed := false, homed := false } else t

/-- A thread, changed, leaves its slot, and the claims of the others on its core find what it held free (R126, R230, R261). -/
def State.leaveCore (s : State) (key : Nat) (f : Thread → Thread) : State :=
  (s.updThr key fun t => (f t).offSlot).stirClaims (s.thr key).core

/-- A hit is merged into an earlier one of the same watchpoint and source: the bytes it hit that lie within 32 bytes above that one's
address (R429). -/
def Held.merge (g h : Held) : Held :=
  let base := g.t.addr.toNat
  let at_ := h.t.addr.toNat
  let bits := wfld h.t.info 32 32
  let shifted := if at_ ≥ base then bits * 2 ^ Nat.min 32 (at_ - base) % 4294967296 else bits / 2 ^ Nat.min 32 (base - at_)
  { g with t := { g.t with info := g.t.info ||| BitVec.ofNat 64 (shifted * 4294967296) } }

/-- A report for a thread that is not resident is held: at most four, a further WATCH of the same watchpoint and source
merged, a displaced or dropped one remembered (R377, R429). -/
def Thread.hold (t : Thread) (h : Held) : Thread :=
  match findIdx (fun g => decide (h.watch.isSome) && decide (g.watch = h.watch) && decide (g.source = h.source)) 0 t.reports with
  | some (i, g) => { t with reports := setAt t.reports i (g.merge h) }
  | none =>
    if t.reports.length < 4 then { t with reports := t.reports ++ [h] }
    else
      match findIdx (fun g => g.watch.isSome) 0 t.reports.reverse with
      | some (i, _) =>
        let l := (t.reports.reverse.eraseIdx i).reverse
        { t with reports := l ++ [h], heldLost := true }
      | none => { t with heldLost := true }

/-- The engines' waits are withdrawn with every other unfinished entry, and every unit of a thread stops (R390, R391). -/
def State.stopThread (s : State) (key : Nat) : State := (s.withdrawWaits key fun u => u ≠ 0).updThr key Thread.stopUnits

/-- A wait that a stop leaves in place: the arrival of a thread at a barrier (R246). -/
def Wait.kept (w : Wait) : Wait := match w.kind with | .bar _ => w | _ => default

/-- Takes a trap for one thread, or reports one for a version that was discarded before, with the task it ran and whether it had published
(R373). The units stop and the cut is recorded; the trap registers
are written (R370); a cause that is neither a stop nor PAGE rolls the thread back; the thread becomes TRAPPED; and the
handler or the host is told. -/
def State.deliverOne (s : State) (key : Nat) (tr : Trap) (gone : Option (W64 × Bool)) : State :=
  let cause := tr.cause.toNat
  let s := (s.withdrawWaits key fun _ => true).updThr key Thread.stopUnits
  let t := s.thr key
  let verId := if tr.ver = 0#20 || (gone.isNone && !t.versions.any fun v => v.id = tr.ver.toNat) then t.curVer.id else tr.ver.toNat
  let v := t.ver verId
  let disc := !keepsVersion cause
  let published := match gone with | some g => g.2 | none => t.versions.any (·.published)
  let state := tr.cls.toNat + tr.unit.toNat * 4 + (if disc && published then 32 else 0) +
    (if disc then 64 else 0) + (if t.heldLost then 128 else 0) + tr.srcRank.toNat * 256 + tr.endpoint.toNat * 4294967296
  let regs : TrapRegs :=
    { cause := BitVec.ofNat 64 cause, addr := tr.addr, cut := BitVec.ofNat 64 t.cut, info := tr.info, pc := tr.pc,
      task := match gone with | some g => g.1 | none => v.task
      iter := if disc then t.committed.iter else t.live.iter, state := BitVec.ofNat 64 state,
      ver := BitVec.ofNat 64 verId }
  let s := s.updThr key fun t => { t with trap := regs, heldLost := false, wait := t.wait.kept, stepAt := none }
  let s := if disc then s.rollBack key else s
  let s := s.leaveCore key fun t => { t with run := .trapped }
  s.notifyTrap key cause

/-- The threads whose versions are discarded with those of the listed threads, because they depend on them, each with
the thread it depends on (R387). -/
def State.cascadeOf (s : State) : Nat → List (Nat × Nat) → List (Nat × Nat)
  | 0, acc => acc
  | fuel + 1, acc =>
    let keys := acc.map (·.1)
    let ids := keys.flatMap fun k => (s.thr k).versions.map fun v => (v.id, k)
    let new := s.threads.filterMap fun p =>
      if keys.contains p.1 then none
      else (p.2.versions.findSome? fun v => v.deps.findSome? fun d => (ids.find? fun e => e.1 = d).map (·.2)).map fun w => (p.1, w)
    if new.isEmpty then acc else State.cascadeOf s fuel (acc ++ new)

/-- A thread whose version is discarded with another's rolls back and takes VERSION, class I, held when it is not
resident (R387). -/
def State.cascadeTo (s : State) (src : State) (p : Nat × Nat) : State :=
  let w := src.thr p.2
  let t := src.thr p.1
  let num := if w.cid = t.cid then w.num else 65535
  let tr := { mkTrap 14 0 (1 + num * 65536) with cls := 2#2, ver := BitVec.ofNat 20 t.curVer.id, pc := pcWord t.live.task.slot t.live.pc }
  if t.run = .resident then s.deliverOne p.1 tr none
  else
    let gone := some (t.curVer.task, t.versions.any (·.published))
    (s.rollBack p.1).updThr p.1 fun t => t.hold { t := tr, watch := none, source := 0, verId := 0, gone := gone }

/-- The versions of a thread are discarded with those that depend on them (R387). -/
def State.cascade (s src : State) (key : Nat) : State :=
  ((src.cascadeOf src.threads.length [(key, key)]).drop 1).foldl (fun s p => s.cascadeTo src p) s

/-- TAKING A TRAP (R373, R387): the one way a trap is delivered. A cause that discards the version takes the versions
that depend on it along. -/
def State.deliver (s : State) (key : Nat) (tr : Trap) (gone : Option (W64 × Bool) := none) : State :=
  let s' := s.deliverOne key tr gone
  if keepsVersion tr.cause.toNat then s' else s'.cascade s key

/-- Parks a thread on a page fault (R388): its units stop, its version is kept, and a request is posted to the
context's function. -/
def State.parkPage (s : State) (key : Nat) (tr : Trap) (write : Bool) : State :=
  let s := (s.withdrawWaits key fun _ => true).leaveCore key fun t => { t.stopUnits with run := .parkedPage tr, wait := t.wait.kept }
  let t := s.thr key
  postEvent (s.ctx t.cid).func 8 0 0 4294967295 t.cid 0 (t.num + if write then 65536 else 0) tr.addr.toNat s

/-- An imprecise report of a thread: taken at once when the thread is resident, held otherwise, for the version it names or
the current one (R368, R377). -/
def State.report (s : State) (key : Nat) (h : Held) : State :=
  let t := s.thr key
  if !t.alive then s
  else if t.run = .resident then s.deliver key { h.t with pc := pcWord t.live.task.slot t.live.pc }
  else s.setThr key (t.hold { h with verId := if h.verId = 0 then t.curVer.id else h.verId })

/-! ## Ends of tile tasks and passes (R277, R286, R291 to R293) -/

/-- The pass that runs on a pass slot. -/
def State.passOf (s : State) (key : Nat) : Option (Nat × PassRec) :=
  s.passes.find? fun p => decide (p.2.core = some (key - passBase))

/-- The key under which a task's accesses are made: its submitter's, or one of its own (R267, R277). -/
def TileTask.agent (t : TileTask) (tid : Nat) : Nat := t.key.getD (2 * passBase + tid)

/-- The owning version of a task is live (R277). -/
def State.ownsLive (s : State) (t : TileTask) : Bool :=
  match t.key, t.ver with
  | some k, some v => (s.thr k).versions.any fun w => w.id = v
  | _, _ => false

/-- What is known to come before a task's accesses: what its TSUB released, and its own rows (R166). -/
def TileTask.clock (t : TileTask) (s : State) (tid : Nat) : Clock :=
  joinClk t.clk (match t.key with
    | some k => [(clkKey k 7, (s.thr k).epoch.get 7)]
    | none => [(clkKey (2 * passBase + tid) 7, 1)])

/-- The report of a poisoned task (R293): to its submitter, or to its context's function. -/
def State.reportTask (s : State) (t : TileTask) : State :=
  let low := t.bad.foldl Nat.min (t.bad.headD 0)
  let more := (t.bad.length - 1) % 512
  let pf := if t.passFault then 33554432 else 0
  let event := postEvent (s.ctx t.cid).func 5 0 t.tag 4294967295 t.cid 0
    (t.cause + low * 256 + more * 65536 + pf + 67108864) t.desc.toNat s
  match t.key with
  | some k =>
    if (s.thr k).alive then
      let tr := { mkTrap t.cause t.desc.toNat (low + more * 256 + 16777216 + pf) with
        cls := 2#2, unit := 6#3, ver := BitVec.ofNat 20 (t.ver.getD 0) }
      s.report k { t := tr, watch := none, source := 0, verId := t.ver.getD 0 }
    else event
  | none => event

/-- Adds 1 to the flag of a task that has ended (R265, R286): a group flag of a live version publishes, and waits for the
version's dependencies (R386). -/
def State.flagTask (s : State) (tid : Nat) (t : TileTask) (wasLive : Bool) : State :=
  match t.flag with
  | none => s
  | some f =>
    let clk := t.clock s tid
    let who : Setter := { code := 9, thread := (t.key.map (· % 65536)).getD 65535, endpoint := 0#32 }
    if f.group && s.ownsLive t then
      let k := t.key.getD 0
      let id := t.ver.getD 0
      if s.depsReady ((s.thr k).ver id) then
        ((s.publishNow k id).addFlag f 1 clk who none).stirFlag t.flag
      else
        { s.updThr k fun th => th.awaitDeps id none with tasks := s.tasks.put tid { t with st := .finishing } }
    else (s.addFlag f 1 clk who (if wasLive then t.ver else none)).stirFlag t.flag

/-- A task ends, DONE or POISONED (R286): its status bits, its report, its flag, which is set at once though the report is held (R293, R377; DEDUCED:
assumption log entry 26). -/
def State.finishTask (s : State) (tid : Nat) : State :=
  let t := s.tasks.get tid
  let live := s.ownsLive t
  let s := { s with tasks := s.tasks.erase tid }
  let s := match t.key with
    | some k => if (s.thr k).alive then
        s.updThr k fun th => th.updLive fun f => { f with vstat := f.vstat ||| BitVec.ofNat 64 t.vflags } else s
    | none => s
  let s := if t.cause = 0 then s else s.reportTask t
  s.flagTask tid t live

/-- Tasks whose last set waited for dependencies that have resolved (R386). -/
def State.finishDue (s : State) : State :=
  (s.tasks.filter fun p => p.2.st = .finishing).foldl (fun s p =>
    { s with tasks := s.tasks.erase p.1 }.flagTask p.1 p.2 true) s

/-- Poisons a task with every row of it (R282, R292, R299). -/
def TileTask.poisonAll (t : TileTask) (cause : Nat) (passFault : Bool) : TileTask :=
  { t with cause := if t.cause = 0 then cause else t.cause, bad := countFrom 0 t.rows, passFault := t.passFault || passFault }

/-- A frame-table entry given back to its owner (R299, R348). -/
def unsealEntry (e : W32) : W32 := (e &&& 0x3FFF#32) ||| 0x1000#32

/-- The frames that a tensor lies in (R297, R348). -/
def Tensor.frameList (t : Tensor) : List Nat := (t.chunks.map (· / 65536)).eraseDups

/-- Inserts a held identity, most recently named first. -/
def insertHeld (x : Nat × BitVec 128 × Nat) : List (Nat × BitVec 128 × Nat) → List (Nat × BitVec 128 × Nat)
  | [] => [x]
  | y :: r => if y.1 < x.1 then x :: y :: r else y :: insertHeld x r

/-- The identities held, once each, most recently named first (R301); one that has been unpinned is held until its pages are unsealed (R299). -/
def State.heldIds (s : State) : List (BitVec 128 × Nat) :=
  let l := s.tensors.foldl (fun (l : List (Nat × BitVec 128 × Nat)) t =>
    if l.any (fun e => e.2.1 = t.wid) then l else insertHeld (t.named, t.wid, t.kt * t.nt) l) []
  l.map (·.2)

/-- A refresh of the bulletin (R302): SEQ counts up before and after it. -/
def State.refreshBulletin (s : State) : State :=
  let pending := s.tasks.foldl (fun (m : NMap Nat) e => if e.2.st = .pending then m.put e.2.shape (m.get e.2.shape + 1) else m) []
  { s with bulletin := { seq := s.bulletin.seq + 2, at_ := s.tick, held := s.heldIds, pending := pending } }

/-- The tensors that have been unpinned and that no running pass reads are unsealed (R299); the bulletin then shows what is held (R302). -/
def State.releaseTensors (s : State) : State :=
  let free := fun (t : Tensor) => t.unpinned && !s.passes.any fun p => p.2.core.isSome && decide (p.2.wid = t.wid)
  let u := (s.tensors.filter free).foldl (fun s t =>
    { s with
      frames := t.frameList.foldl (fun m f => m.set f (unsealEntry (m.get f))) s.frames
      tlb := s.tlb.filter fun x => !x.inFrames t.frameList
      tensors := s.tensors.filter fun x => x ≠ t }) s
  if s.tensors.any free then u.refreshBulletin else u

/-- An event of a thread is counted for its context; in a pass slot it is counted for the pass, whose row owners share it at its end (R260,
R356). -/
def State.countFor (s : State) (key ev n : Nat) : State :=
  if passBase ≤ key then
    match s.passOf key with
    | some (i, p) => { s with passes := s.passes.put i { p with events := p.events.put ev (p.events.get ev + n) } }
    | none => s
  else s.countEv (s.thr key).cid ev n

/-- The share of a count that falls to each of some tasks, in proportion to their rows: the shares of the first ones add up to the whole times
their part of the rows, rounded down (R260, R295; DESIGN CHOICE, assumption log entry 75). -/
def shareOut (n total : Nat) : Nat → List Nat → List Nat
  | _, [] => []
  | before, r :: t => (n * (before + r) / total - n * before / total) :: shareOut n total (before + r) t

/-- The events of a pass are charged to the contexts of its tasks in proportion to their rows; those left out at step 2 are no longer among them
(R260, R282, R295). -/
def State.chargePass (s : State) (p : PassRec) : State :=
  let rows := p.tasks.map fun x => (s.tasks.get x).rows
  let total := rows.foldl (· + ·) 0
  if total = 0 then s
  else p.events.foldl (fun s e =>
    (p.tasks.zip (shareOut e.2 total 0 rows)).foldl (fun s x => s.countEv (s.tasks.get x.1).cid e.1 x.2) s) s

/-- A pass ends (R286): what it used is charged, its slots are released and scrubbed, its tasks end in stacking order; one whose version was rolled
back ends without its flag and without a report (R277; DEDUCED: assumption log entry 26). -/
def State.endPass (s : State) (n : Nat) : State :=
  let p := s.passes.get n
  let s := s.chargePass p
  let key := passBase + p.core.getD 0
  let s := (({ s with passes := s.passes.erase n, threads := s.threads.erase key } : State)).dropWaiters key
  (p.tasks.foldl (fun s tid =>
    let t := s.tasks.get tid
    if t.gone then ({ s with tasks := s.tasks.erase tid } : State).stirFlag t.flag
    else if t.pass = some n then s.finishTask tid
    else s) (s.stirClaims (p.core.getD 0))).releaseTensors

/-- A fault that no owner causes ends the pass (R292); the event goes to the PF unless a trip ends it (R294). -/
def State.passFault (s : State) (n cause : Nat) (event : Bool) : State :=
  let p := s.passes.get n
  let s := p.tasks.foldl (fun s tid =>
    let t := s.tasks.get tid
    if t.pass = some n then { s with tasks := s.tasks.put tid (t.poisonAll cause true) } else s) s
  let s := if event then postEvent 0 9 0 0 4294967295 0 0 cause p.code.toNat s else s
  s.endPass n

/-- The sealed tensor with an identity that a model slot granted to a context pins (R266). -/
def State.heldTensor (s : State) (cid : Nat) (wid : BitVec 128) : Option Tensor :=
  s.tensors.find? fun t => decide (t.wid = wid) && !t.unpinned && (s.ctx cid).granted t.slot

/-- A page request of a task, and its deferral (R273, R283, R320). A task whose tensor has been released since it was launched is poisoned
with PROT as it becomes DEFERRED (R299). -/
def State.deferTask (s : State) (tid : Nat) (absent : List (Nat × Bool)) : State :=
  let t := s.tasks.get tid
  if (s.heldTensor t.cid t.wid).isNone then
    ({ s with tasks := s.tasks.put tid { t.poisonAll 5 false with pass := none } } : State).finishTask tid
  else
  let s := { s with tasks := s.tasks.put tid { t with st := .deferred, pass := none, pages := t.pages ++ absent.map (·.1) } }
  absent.foldl (fun s a =>
    postEvent (s.ctx t.cid).func 8 0 0 4294967295 t.cid 0 (65535 + if a.2 then 65536 else 0) a.1 s) s

/-- A trap where it is raised: PAGE parks the thread, every other cause is delivered (R373, R388). TRAP_INFO bit 16 of
a PAGE carries whether the access writes, for the request alone. A trap in a pass slot ends the pass (R292). -/
def State.takeTrap (s : State) (key : Nat) (tr : Trap) : State :=
  if passBase ≤ key then
    match s.passOf key with
    | some (n, _) => s.passFault n tr.cause.toNat true
    | none => s
  else if tr.cause = 4#8 then s.parkPage key tr (tr.info.getLsbD 16) else s.deliver key tr

/-- Delivers the oldest held report of a thread that has become resident, before its first word (R377); one of class S names the word that it
was raised at (R368). -/
def State.deliverHeld (s : State) (key : Nat) : State :=
  let t := s.thr key
  match t.reports with
  | [] => s
  | h :: rest =>
    let s := s.setThr key { t with reports := rest }
    s.deliver key (if h.t.cls = 0#2 then h.t else { h.t with pc := pcWord t.live.task.slot t.live.pc }) h.gone

/-- Frees the operand-memory slots of a thread (R126). -/
def Thread.freeHandles (t : Thread) : Thread := { t with wb := [], ab := [], cb := [], promised := [], rounds := [] }

/-- The allotment and record of a retired thread go when no rank of its gang is left (R18, R226). -/
def State.dropThread (s : State) (key : Nat) : State :=
  let t := s.thr key
  if t.gang = 0 then { s with threads := s.threads.filter fun p => p.1 ≠ key }
  else
    let s := s.setThr key { t with alive := false, slot := 0, placed := false }
    if s.threads.any fun p => decide (p.2.gang = t.gang) && decide (p.2.cid = t.cid) && p.2.alive then s
    else { s with threads := s.threads.filter fun p => p.1 ≠ key && !(decide (p.2.gang = t.gang) && decide (p.2.cid = t.cid)) }

/-- A launched thread has started its first task, or is gone: EFENCE waits for it no longer (R315). -/
def State.noteStarted (s : State) (key : Nat) : State :=
  if s.lqs.any fun q => q.2.starting.contains key then
    { s with lqs := s.lqs.map fun q => (q.1, { q.2 with starting := q.2.starting.filter (· ≠ key) }) }
  else s

/-- A thread retires (R226 steps 2 to 6): its version commits or, when it is killed, is discarded; it leaves its
groups; its handles, slot, allotment and number are freed, and the number enters quarantine (R225). -/
def State.retire (s : State) (key : Nat) (kill : Bool) : State :=
  let t := s.thr key
  let ids := (t.versions.map (·.id)).reverse
  let src := s
  let s := if kill then (ids.foldl (fun s id => (s.withdrawVersion key id).discardVersion key id) s).cascade src key
           else (ids.reverse).foldl (fun s id => s.commitWrites key id) s
  let s := s.leaveAll t.cid t.num
  let s := ((s.dropWaiters key).orphanTasks key).noteStarted key
  let s := s.updThr key fun t => { t.freeHandles with versions := [], reports := [], lines := [] }
  let s := s.updCtx t.cid fun c => { c with quarantine := c.quarantine.put t.num s.tick }
  (s.dropThread key).stirClaims t.core

/-! ## Packets of threads (R186, R332, R334) -/

/-- A thread as the agent of an access that it performs now (R160). -/
def State.agent (s : State) (key : Nat) : Agent := { key := key, core := (s.thr key).core, cid := (s.thr key).cid }

/-- The endpoint and target thread of a window (R200). -/
def Win.endpoint (w : Win) : W32 := BitVec.ofNat 32 (wfld w.target 16 32)

/-- The flow of a window: its own number until FLOWDEF binds another (R186, R334). -/
def Thread.flowOf (t : Thread) (w : Nat) : Nat := if t.winFlow.has w then t.winFlow.get w else w

/-- A packet of an access on a path goes out through a window, with the generation that the endpoint table holds for its endpoint (R186, R332,
R334, R362), what comes before the access, and the scopes at which it releases and acquires. Answers its id. -/
def State.putPacket (s : State) (key path w : Nat) (rel acq : Option Nat) (kind : PktKind) : Nat × State :=
  let t := s.thr key
  let wn := t.win.get w
  let fl := t.flowOf w
  let f := t.flows.get fl
  let ep := wn.endpoint
  let id := s.pktNext
  let seq := f.seqs.get ep.toNat
  let p : Packet :=
    { id := id, key := key, win := w, ep := ep, gen := (s.endpoints.get ep.toNat).gen, thread := wfld wn.target 0 16,
      flow := fl, seq := seq, ordered := !f.unordered, kind := kind, retry := 0
      src := s.agent key, clk := t.clkOf key path, rel := rel, acq := acq, got := [], path := path }
  (id, { ((s.countEv t.cid 7 1).updThr key fun t => { t with flows := t.flows.put fl { f with seqs := f.seqs.put ep.toNat (seq + 1) } }) with
          outbox := s.outbox ++ [p], pktNext := id + 1 })

/-- The dirty bytes of remote lines that a thread has committed are written back before it is killed (R184, R354). They leave at once, whatever the
allowance of their windows (DESIGN CHOICE: assumption log entry 78). -/
def State.sendSaved (s : State) (key : Nat) : State :=
  (s.thr key).savedLines.foldl (fun s l =>
    (s.putPacket key 0 (l.1 / 32768) none none (.write (l.1 % 32768 * 64) l.2.data l.2.dirty none)).2) s

/-- KILL of a trapped thread (R375): it retires without a commit. -/
def State.kill (s : State) (key : Nat) : State := (s.sendSaved key).retire key true

/-- Threads ask for slots, as one request (R229, R230); those that a request names already are left to it. -/
def State.askPlace (s : State) (keys : List Nat) : State :=
  let new := keys.filter fun k => !s.places.any fun p => p.keys.contains k
  if new.isEmpty then s else { s with places := s.places ++ [{ (default : PlaceReq) with keys := new, since := s.tick }] }

/-- The members of a thread's gang that exist, itself alone outside a gang. -/
def State.gangKeys (s : State) (key : Nat) : List Nat :=
  let t := s.thr key
  if t.gang = 0 then [key]
  else (s.threads.filter fun p => decide (p.2.gang = t.gang) && decide (p.2.cid = t.cid) && p.2.alive).map (·.1)

/-- A thread that can go on asks for a slot: its own, when it still holds one, else with its whole gang (R230). -/
def State.askAgain (s : State) (key : Nat) : State := if (s.thr key).placed then s.askPlace [key] else s.askPlace (s.gangKeys key)

/-- RESUME of a trapped thread: it becomes eligible for placement (R375). -/
def State.resumeThread (s : State) (key : Nat) : State := (s.updThr key fun t => { t with run := .waiting }).askAgain key

/-- The action of a handler or the host on a trap (R375): 0 RESUME, 1 KILL. Answers 0 DONE, 1 NOTTRAPPED, 2 NOTHREAD. -/
def State.trapAction (s : State) (cid num act : Nat) : Nat × State :=
  let key := cid * 65536 + num
  let t := s.thr key
  if !t.alive then (2, s)
  else if t.run ≠ .trapped then (1, s)
  else if act = 0 then (0, s.resumeThread key)
  else (0, s.kill key)

/-! ## Power and host writes (R303, R336, R337, R360) -/

/-- The power state in force (R336). -/
def State.powerIn (s : State) : Nat := wfld s.pkg.powerState 0 3

/-- Nothing of a core runs: a trip has stopped the package, or it sleeps or is off (R336, R337). -/
def State.stopped (s : State) : Bool := s.pkg.powerState.getLsbD 5 || s.powerIn = 3 || s.powerIn = 4

/-- A die is gated, or a command to gate it is in progress (R336). -/
def State.gated (s : State) (die : Nat) : Bool :=
  s.pkg.powerState.getLsbD (8 + die) ||
    (s.pkg.powerState.getLsbD 3 && decide (wfld s.pkg.powerCtl 0 3 = 2) && s.pkg.powerCtl.getLsbD (8 + die))

/-- The die group of a Mash partition: its own die, or the next in order that is ON (R275, R336). -/
def State.groupDie (s : State) (p : Nat) : Nat := (((countFrom p 8).find? fun d => !s.gated (d % 8)).getD p) % 8

/-- The device counts a write that it drops (R303). -/
def State.dropWrite (s : State) : State := { s with pkg := { s.pkg with dropped := s.pkg.dropped + 1 } }

/-- A write to the BARs of a function of the 256: dropped and counted while its reset is under way (R303, R360); nothing takes it
while the package is OFF (R336). DEDUCED: assumption log entry 60. -/
def State.hostWrite (s : State) (fn : Nat) (f : State → State) : State :=
  if 256 ≤ fn || s.powerIn = 4 then s
  else if (s.func fn).flr then { s with pkg := { s.pkg with flrDropped := s.pkg.flrDropped + 1 } }
  else f s

/-- A write to a range that only the PF has (R303, R305). -/
def State.pfWrite (s : State) (fn : Nat) (f : State → State) : State := s.hostWrite fn fun s => if fn = 0 then f s else s.dropWrite

end Sys2Proof.Machine
end

