-- ==== Sys2Proof/Machine/Access.lean ====
section
/-! DEFINITION. Accesses: the checks of R188 in their order, race detection (R178 to R180), dependencies of versions
(R387), watchpoints (R429), the range scoreboard (R157), remote windows (R184, R185, R202), and the bytes moved. -/

namespace Sys2Proof.Machine

/-- What an access is: its thread, path, version, whether it is marked and at which scope, what it may reach, whether a
POISON block stops it, the push number of its entry (none for a sequencer word), the place of its word among all the words pushed, and the
watchpoints it is matched against, those set now when none are named (R428). -/
structure Req where
  key : Nat
  path : Nat
  ver : Nat
  marked : Bool
  scope : Nat
  reach : Reach
  poison : Bool
  num : Option Nat
  ser : Option Nat
  wps : Option (NMap Watch) := none
  deriving Repr

/-- The package core of a thread: die times 104 plus cluster times 8 plus core (R9, R11). -/
def Thread.cluster (t : Thread) : Nat := t.core / 8

/-- The die of a thread's core. -/
def Thread.die (t : Thread) : Nat := t.core / 104

/-- Agent b, where it stood when it made its access, lies within a scope of an access by agent a, where that one stood (R160, R161). -/
def Agent.within (a b : Agent) (scope : Nat) : Bool :=
  match scope with
  | 0 => decide (a.key = b.key)
  | 1 => decide (a.key = b.key)
  | 2 => decide (a.core = b.core)
  | 3 => decide (a.core / 8 = b.core / 8)
  | 4 => decide (a.core / 104 = b.core / 104)
  | 6 => decide (a.cid = b.cid)
  | _ => true

/-- The SCOPE failure of a marked access on a piece (R162, R181). -/
def scopeFail (scope : Nat) (p : Piece) : Option Trap :=
  let bad (n : Nat) : Option Trap := some (mkTrap 7 p.va (scope + n * 16))
  match p.tgt with
  | .own => if scope > 3 then bad 0 else none
  | .peer _ => if scope > 3 then bad 1 else none
  | .remote _ => if scope < 3 then bad 2 else none
  | .host => if scope ≠ 9 then bad 3 else none
  | _ => none

/-- The space of a piece that a version can restore; none for host memory and remote windows. -/
def Piece.space (key : Nat) (p : Piece) : Option Space :=
  match p.tgt with
  | .hbm => some .hbm
  | .granary => some .hbm
  | .own => some (.scratch key)
  | .peer k => some (.scratch k)
  | _ => none

/-- The POISON code of a tag (R68). -/
def isPoison (tag : W32) : Bool := fld tag.toNat 0 8 = 48

/-- The MEMERR failure of a read of a piece (R72). -/
def poisonFail (s : State) (key : Nat) (p : Piece) : Option Trap :=
  match p.space key with
  | none => none
  | some sp =>
    (blocksOf p.addr p.len).findSome? fun b =>
      if isPoison ((s.space sp).tag (b * 64)) then some (mkTrap 19 (p.va + (b * 64 - p.addr)) 0) else none

/-- Two ranges share a byte. -/
def overlaps (a n b m : Nat) : Bool := a < b + m && b < a + n && 0 < n && 0 < m

/-- A piece lies in memory that is race-checked (R180). -/
def Piece.global (p : Piece) : Bool := p.tgt = .hbm || p.tgt = .granary

/-- The RACE failure of a piece: of the accesses of live versions of other threads that conflict with no happens-before, one at the lowest
conflicting byte; host accesses never race (R178, R180, R181). -/
def raceFail (s : State) (r : Req) (wr : Bool) (clk : Clock) (p : Piece) : Option Trap :=
  if !p.global || r.path = 6 then none
  else
    let me := s.agent r.key
    lowest (s.threads.flatMap fun q =>
      if q.1 = r.key then []
      else q.2.versions.flatMap fun v => v.acc.filterMap fun a =>
        if overlaps p.addr p.len a.lo a.len && (wr || a.write) && clk.get (clkKey a.by_.key a.path) < a.epoch then
          let inBoth := me.within a.by_ r.scope && a.by_.within me a.scope
          if r.marked && a.marked && inBoth then none
          else
            let first := Nat.max p.addr a.lo
            let other := s.thr a.by_.key
            let num := if other.cid = (s.thr r.key).cid then other.num else 65535
            some (mkTrap 6 (p.va + (first - p.addr))
              (num + (if a.write then 65536 else 0) + (if wr then 131072 else 0) +
                (if r.marked && a.marked then 262144 else 0) + pathCode a.path * 524288))
        else none)

/-- The blocks that an access would be the first of its version to write (R384). -/
def newLines (key : Nat) (v : Version) (pieces : List Piece) : List (Space × Nat) :=
  (pieces.flatMap fun p => match p.space key with
    | none => []
    | some sp => ((blocksOf p.addr p.len).filter fun b => !v.hasLine sp b).map fun b => (sp, b)).eraseDups

/-- The version budget in bytes (R54, R384). -/
def State.budgetOf (s : State) (cid : Nat) (v : Version) : Nat :=
  let b := if v.budget = 0#32 then wfld ((s.ctx cid).word 32) 32 16 else v.budget.toNat
  b * 1048576

/-- The MSC bytes that a version fills: 64 for each block of HBM that it has written (R385). -/
def Version.mscBytes (v : Version) : Nat := 64 * (((v.undo.filter fun u => u.space = .hbm).map (·.line)).eraseDups).length

/-- The MSC bytes that uncommitted versions fill (R385). DEDUCED: assumption log entry 63. -/
def State.mscUse (s : State) : Nat :=
  s.threads.foldl (fun n p => p.2.versions.foldl (fun n v => n + v.mscBytes) n) 0

/-- A write has room for the blocks it is the first to write: VERSION beyond the budget of its version, and a wait while the MSC is full
(R384, R385). -/
def writeRoom (r : Req) (lines : List (Space × Nat)) (va : Nat) : M Unit := do
  let s ← get
  let t := s.thr r.key
  let v := t.ver r.ver
  if v.useKnext + 64 * lines.length > s.budgetOf t.cid v then raise (mkTrap 14 va 2)
  if s.mscUse + 64 * (lines.filter fun l => l.1 = .hbm).length > 7516192768 then stall .outside

/-- The versions of other threads whose uncommitted writes a read of a piece sees last (R387). -/
def dependsOn (s : State) (key : Nat) (p : Piece) : List Nat :=
  if !p.global then []
  else
    let recs := s.threads.flatMap fun q => q.2.versions.flatMap fun v =>
      (v.undo.filter fun u => decide (u.space = .hbm) && overlaps (u.line * 64) 64 p.addr p.len).map fun u => (q.1, v.id, u)
    let inRange (u : Undo) : BitVec 64 :=
      let lo := Nat.max p.addr (u.line * 64)
      let hi := Nat.min (p.addr + p.len) (u.line * 64 + 64)
      u.mask &&& byteMask (lo - u.line * 64) (hi - lo)
    (recs.filterMap fun e =>
      let later := recs.foldl (fun m f => if f.2.2.line = e.2.2.line && e.2.2.stamp < f.2.2.stamp then m ||| f.2.2.mask else m) 0#64
      if e.1 ≠ key && (inRange e.2.2 &&& ~~~later) ≠ 0#64 then some e.2.1 else none).eraseDups

/-- The bytes of spans, one address each. -/
def spanBytes (spans : List (Nat × Nat)) : List Nat := spans.flatMap fun p => (countFrom p.1 p.2).map (· % two64)

/-- The bytes a watchpoint is hit at (R427, R429). -/
def watchHits (w : Watch) (rd wr : Bool) (spans : List (Nat × Nat)) : List Nat :=
  let ctl := w.ctl
  if !(ctl.getLsbD 63 && ((rd && ctl.getLsbD 12) || (wr && ctl.getLsbD 13))) then []
  else
    (spanBytes spans).filter fun b =>
      w.base.toNat ≤ b && b < w.base.toNat + wfld ctl 0 12 + 1 && ctl.getLsbD (16 + (b - w.base.toNat) % 32)

/-- A WATCH report for bytes hit (R429). -/
def watchTrap (n : Nat) (rd wr : Bool) (source num : Nat) (cls unit : Nat) (rank : BitVec 8) (ep : W32) (hits : List Nat) : Trap :=
  let lo := hits.foldl Nat.min (hits.headD 0)
  let bits := hits.foldl (fun m b => if b - lo < 32 then m ||| (1#64 <<< (b - lo)) else m) 0#64
  let info := n + (if rd then 4 else 0) + (if wr then 8 else 0) + source * 16 +
    (if 1 ≤ source && source ≤ 4 then num % 4096 * 256 else 0) + bits.toNat * 4294967296
  { mkTrap 15 lo info with cls := BitVec.ofNat 2 cls, unit := BitVec.ofNat 3 unit, srcRank := rank, endpoint := ep }

/-- The source code of a WATCH report and the unit that it names, by the path of the access: a stream's is that of its engine (R370, R429). -/
def watchSource (path : Nat) : Nat × Nat :=
  match pathCode path with
  | 0 => (0, 0)
  | 1 => (1, 1)
  | 2 => (2, 3)
  | 3 => (3, 4)
  | _ => (4, 5)

/-- The reports of the watchpoints that an access of the thread itself hits, of a version (R428, R429). An access of a stream, which is of no entry, has
number 0 (DESIGN CHOICE: assumption log entry 79). -/
def ownHits (wps : NMap Watch) (ver path num : Nat) (rd wr : Bool) (spans : List (Nat × Nat)) : List Held :=
  wps.filterMap fun p =>
    let rd' := rd && p.2.ctl.getLsbD 12
    let wr' := wr && p.2.ctl.getLsbD 13
    match watchHits p.2 rd wr spans with
    | [] => none
    | hits =>
      let src := watchSource path
      some { t := watchTrap p.1 rd' wr' src.1 num (if path = 0 then 0 else 2) src.2 0xFF#8 0#32 hits,
             watch := some p.1, source := src.1, verId := ver }

/-- Adds a hit to those that wait to be reported: one of the same watchpoint and source is merged into it (R429). -/
def Held.join (l : List Held) (h : Held) : List Held :=
  match findIdx (fun (g : Held) => decide (h.watch.isSome) && decide (g.watch = h.watch) && decide (g.source = h.source)) 0 l with
  | some (i, g) => setAt l i (g.merge h)
  | none => l ++ [h]

/-- The reports of a thread's watchpoints for an access by a peer or through a remote window into its scratch (R429). -/
def inHits (t : Thread) (source : Nat) (rank : BitVec 8) (ep : W32) (rd wr : Bool) (off len : Nat) : List Held :=
  t.wp.filterMap fun p =>
    match watchHits p.2 rd wr [(18302628885633695744 + off, len)] with
    | [] => none
    | hits =>
      some { t := watchTrap p.1 (rd && p.2.ctl.getLsbD 12) (wr && p.2.ctl.getLsbD 13) source 0 2 7 rank ep hits,
             watch := some p.1, source := source, verId := 0 }

/-- A wait on a token stands in a queue before an entry. -/
def Queue.waitsBefore (q : Queue) (num : Nat) : Bool :=
  (q.entries.filter fun x => decide (x.num < num)).any fun x => match x.word with
    | .cpwait _ _ => true
    | .mxwait _ _ => true
    | _ => false

/-- What an entry records was pushed before a word: earlier by their places, or, of entries of one keg, which carries no order among queues,
one that no token holds back (R157, R409; DESIGN CHOICE, assumption log entry 30). -/
def Thread.recorded (t : Thread) (c : Score) (ser : Nat) : Bool :=
  decide (c.ser < ser) || (decide (c.ser = ser) && !(t.queue c.eng).waitsBefore c.num)

/-- A recorded copy destination covers bytes of a piece that is later than the push (R157). Of two copies the one pushed
first goes first. -/
def scoreBlocks (s : State) (r : Req) (p : Piece) : Bool :=
  let target := match p.tgt with | .own => some r.key | .peer k => some k | _ => none
  let mine := match r.ser with
    | none => none
    | some n => ((s.thr r.key).scores.find? fun c => c.ser = n).map (·.ord)
  match target with
  | none => false
  | some tk =>
    s.threads.any fun q => q.2.scores.any fun c =>
      decide (c.key = tk) && overlaps c.lo c.len p.addr p.len && (match mine with
          | none => true
          | some o => decide (c.ord < o)) &&
        (decide (q.1 ≠ r.key) || (match r.ser with
          | none => true
          | some n => q.2.recorded c n))

/-- Notes the accesses of pieces with the thread's version, for the race detector (R180). -/
def noteAccess (r : Req) (wr : Bool) (pieces : List Piece) : M Unit := do
  let me := (← get).agent r.key
  modThr r.key fun t =>
    let e := t.epoch.get r.path + 1
    let recs := (pieces.filter Piece.global).map fun p =>
      ({ by_ := me, path := r.path, epoch := e, lo := p.addr, len := p.len, va := p.va, write := wr, marked := r.marked,
         scope := r.scope } : Access)
    { (t.updVer r.ver fun v => { v with acc := recs ++ v.acc }) with epoch := t.epoch.put r.path e }

/-- The physical place of a byte of a tensor, counted from the 16 KiB boundary at or below its address. -/
def Tensor.place (t : Tensor) (i : Nat) : Nat := (t.chunks[i / 16384]?).getD 0 + i % 16384

/-- The piece of a pass-space range: the tensor's tiles from B0 and its side data from B1 (R279). -/
def passPiece (s : State) (key va len : Nat) : Except Trap (List Piece) :=
  let b := (s.thr key).live.b
  match s.passOf key with
  | none => .error (mkTrap 5 va 0)
  | some (_, p) =>
    match s.tensors.find? fun t => t.wid = p.wid with
    | none => .error (mkTrap 5 va 0)
    | some t =>
      let tiles := t.kt * t.nt * 32768
      let b0 := (b.get 0).toNat
      let b1 := (b.get 1).toNat
      let off := if b0 ≤ va && va + len ≤ b0 + tiles then some (va - b0)
        else if t.side ≠ 0 && b1 ≤ va && va + len ≤ b1 + t.side then some (va - b1 + tiles) else none
      match off with
      | none => .error (mkTrap 5 va 0)
      | some o =>
        let o := o + t.va % 16384
        .ok ((cutSpan (len / 16384 + 2) o len).map fun p =>
          { va := va + (p.1 - o), len := p.2, tgt := .hbm, addr := t.place p.1, leaf := default })

/-- A read of the pass's own space: no translation of a context, no race check (R279, R290). -/
def passAccess (key : Nat) (spans : List (Nat × Nat)) : M (List Piece) := do
  let s ← get
  let res := spans.map fun p => passPiece s key p.1 p.2
  match lowest (errorsOf res) with
  | some t => raise t
  | none =>
    let pieces := (oksOf res).flatten
    match lowest (pieces.filterMap (poisonFail s key)) with
    | some t => raise t
    | none => pure pieces

/-- A PAGE failure of an access that writes is marked so, for bit 16 of CODE of the page request (R320, R388). -/
def pageOfWrite (wr : Bool) (e : Trap) : Trap :=
  if wr && e.cause = 4#8 then { e with info := e.info ||| 65536#64 } else e

/-- What comes before an access that reaches bytes of a scratch: the copies that have written there, of those of its own thread the ones whose words
were pushed before its word (R157). -/
def State.wroteClk (s : State) (scratch by_ : Nat) (ser : Option Nat) (lo n : Nat) : Clock :=
  (s.thr scratch).wrote.foldl (fun c w =>
    if overlaps w.lo w.len lo n && (decide (w.by_ ≠ by_) || (match ser with | none => true | some x => decide (w.ser ≤ x))) then joinClk w.clk c
    else c) []

/-- What copies have written into a scratch comes before an access that reaches it later (R157). -/
def noteWrote (r : Req) (pieces : List Piece) : M Unit := do
  let s ← get
  let clk := pieces.foldl (fun c p =>
    match p.tgt with
    | .own => joinClk (s.wroteClk r.key r.key r.ser p.addr p.len) c
    | .peer k => joinClk (s.wroteClk k r.key r.ser p.addr p.len) c
    | _ => c) []
  if !clk.isEmpty then modThr r.key fun t => t.learn [r.path] clk

/-- Checks an access for all of its bytes before any is performed (R188 steps 3 to 8), with the waits of the range
scoreboard and of the MSC, and makes what precedes the bytes themselves: dirty bits, publishing, which a plain sequencer store into a remote
window leaves to the write-back of its line (R386), dependencies, watchpoint reports. Answers its pieces. DESIGN CHOICE: assumption log entry 58. -/
def access (r : Req) (rd wr : Bool) (spans : List (Nat × Nat)) : M (List Piece) := do
  let s ← get
  if passBase ≤ r.key && r.key < 2 * passBase then return ← passAccess r.key spans
  let t := s.thr r.key
  let pieces ← match resolve s r.key t.cid rd wr r.reach spans with
    | .ok p => pure p
    | .error e => raise (pageOfWrite wr e)
  if r.marked then
    match lowest (pieces.filterMap (scopeFail r.scope)) with
    | some e => raise e
    | none => pure ()
  if pieces.any (scoreBlocks s r) then stall .other
  modify fun s => s.holdTrans (s.placeOf r.key) t.cid pieces
  noteWrote r pieces
  let t ← getThr r.key
  if rd && r.poison then
    match lowest (pieces.filterMap (poisonFail s r.key)) with
    | some e => raise e
    | none => pure ()
  match lowest (pieces.filterMap (raceFail s r wr (t.clkOf r.key r.path))) with
  | some e => raise e
  | none => pure ()
  if wr then
    writeRoom r (newLines r.key (t.ver r.ver) pieces) ((pieces.head?.map (·.va)).getD 0)
    if pieces.any fun p => p.tgt = .host || (match p.tgt with | .remote _ => r.marked || r.path ≠ 0 | _ => false) then publish r.key r.ver
    modify fun s => pieces.foldl (fun s p => markDirty s t.cid p) s
  if rd && r.path ≠ 6 then
    let deps := pieces.flatMap (dependsOn s r.key)
    if !deps.isEmpty then
      modThr r.key fun t => t.updVer r.ver fun v => { v with deps := (v.deps ++ deps).eraseDups }
  noteAccess r wr pieces
  let hits := ownHits (r.wps.getD t.wp) r.ver r.path (r.num.getD 0) rd wr spans
  if !hits.isEmpty then modThr r.key fun t => { t with hits := hits.foldl Held.join t.hits }
  pure pieces

/-- Delivers the reports of peer watchpoints that a piece in a peer's scratch hits. -/
def peerWatch (r : Req) (rd wr : Bool) (p : Piece) : M Unit := do
  match p.tgt with
  | .peer k =>
    let s ← get
    let rank := BitVec.ofNat 8 ((s.thr r.key).rank.getD 255)
    set ((inHits (s.thr k) 5 rank 0#32 rd wr p.addr p.len).foldl (fun s h => s.report k h) s)
  | _ => pure ()

/-- The version that a write belongs to while it is live. -/
def State.liveVer (s : State) (key ver : Nat) : Option Nat := if (s.thr key).versions.any fun v => v.id = ver then some ver else none

/-- A write to bytes ends what an earlier release at them releases (R165); one of a live version does so until it is rolled back (R382). -/
def State.dropRels (s : State) (sp : Space) (host : Bool) (a n : Nat) (ver : Option Nat) : State :=
  if s.rels.isEmpty then s
  else
    let hit := fun (x : RelRec) => decide (x.space = sp) && decide (x.host = host) && overlaps x.addr x.len a n
    match ver with
    | none => { s with rels := s.rels.filter fun x => !hit x }
    | some v => { s with rels := s.rels.map fun x => if hit x && !x.hid.contains v then { x with hid := v :: x.hid } else x }

/-! ## Remote windows (R184, R185, R202) -/

/-- The key of a line of a window in the remote line cache. -/
def lineKey (w line : Nat) : Nat := w * 32768 + line

/-- Sends a packet of an access on a path through a window; a flow to an endpoint holds at most 1,024 packets that have not been answered (R334). -/
def sendPacket (key path w : Nat) (rel acq : Option Nat) (kind : PktKind) : M Nat := do
  let s ← get
  let t := s.thr key
  let fl := t.flowOf w
  let ep := (t.win.get w).endpoint
  if 1024 ≤ (s.outbox.filter fun p => decide (p.key = key) && decide (p.flow = fl) && decide (p.ep = ep)).length then waitOn .outside
  let (id, s) := s.putPacket key path w rel acq kind
  set s
  pure id

/-- Sends a posted write, taking a unit of allowance, and waiting for one (R202). -/
def postWrite (key path w off : Nat) (data : BitVec 512) (be : BitVec 64) (red : Option RedTy) : M Unit := do
  let t ← getThr key
  let wn := t.win.get w
  if wn.inflight ≥ wn.limit.toNat then waitOn .outside
  let _ ← sendPacket key path w none none (.write off data be red)
  modThr key fun t => { t with win := t.win.put w { wn with inflight := wn.inflight + 1 } }

/-- Runs an operation for each element. -/
def forEach {α : Type} (l : List α) (f : α → M Unit) : M Unit :=
  match l with
  | [] => pure ()
  | x :: t => do f x; forEach t f

/-- A block's worth of bytes at an offset of a block, as a vector with its byte enables. -/
def placeBytes (off : Nat) (data : List Byte) : BitVec 512 × BitVec 64 :=
  (BitVec.ofNat 512 (leNat data * 2 ^ (8 * off)), byteMask off data.length)

/-- The bytes of a vector of a block from an offset on. -/
def takeBytes (v : BitVec 512) (off n : Nat) : List Byte := natLE n (v.toNat / 2 ^ (8 * off))

/-- The granules of bytes written into a window, one per 64-byte block: window, offset, bytes and enables (R185). -/
def granules (w addr : Nat) (data : List Byte) : List (Nat × Nat × BitVec 512 × BitVec 64) :=
  (cutBytes (data.length / 64 + 2) addr data).map fun seg =>
    let (v, be) := placeBytes (seg.1 % 64) seg.2
    (w, seg.1 / 64 * 64, v, be)

/-- One granule per block, later bytes over earlier ones (R209). -/
def mergeGranules : List (Nat × Nat × BitVec 512 × BitVec 64) → List (Nat × Nat × BitVec 512 × BitVec 64) →
    List (Nat × Nat × BitVec 512 × BitVec 64)
  | [], done => done
  | g :: t, done =>
    match findIdx (fun h => decide (h.1 = g.1) && decide (h.2.1 = g.2.1)) 0 done with
    | some (i, h) => mergeGranules t (setAt done i (h.1, h.2.1, mergeBlock h.2.2.1 g.2.2.1 g.2.2.2, h.2.2.2 ||| g.2.2.2))
    | none => mergeGranules t (done ++ [g])

/-- Posts the granules of an entry of a path that have not been sent yet, one by one; a cached copy of a line is
updated (R185, R202). The count already sent is kept while the entry waits for allowance. -/
def postGranules (key path : Nat) (red : Option RedTy) (l : List (Nat × Nat × BitVec 512 × BitVec 64)) : M Unit := do
  let t ← getThr key
  forEach (l.drop (t.sentG.get path)) fun g => do
    postWrite key path g.1 g.2.1 g.2.2.1 g.2.2.2 red
    modThr key fun t =>
      let k := lineKey g.1 (g.2.1 / 64)
      let t := { t with sentG := t.sentG.put path (t.sentG.get path + 1) }
      if red.isNone && t.lines.has k then
        { t with lines := t.lines.put k { t.lines.get k with data := mergeBlock (t.lines.get k).data g.2.2.1 g.2.2.2 } }
      else t
  modThr key fun t => { t with sentG := t.sentG.erase path }

/-- Sends the dirty bytes of a line of the remote line cache as a posted write (R184). -/
def writeBackLine (key k : Nat) : M Unit := do
  let t ← getThr key
  let l := t.lines.get k
  if l.dirty ≠ 0#64 then
    publish key t.curVer.id
    postWrite key 0 (k / 32768) (k % 32768 * 64) l.data l.dirty none
    modThr key fun t =>
      { t with
        lines := t.lines.put k { l with dirty := 0#64 }
        savedLines := t.savedLines.erase k
        versions := t.versions.map fun v => { v with landing := v.landing.map fun x => { x with lines := x.lines.erase k } } }

/-- Writes back every dirty line of a thread that a test selects. -/
def writeBackLines (key : Nat) (p : Nat → Bool) : M Unit := do
  let t ← getThr key
  forEach (t.lines.keys.filter p) (writeBackLine key)

/-- The line that a packet was sent to read. -/
def Packet.lineKey (p : Packet) : Nat := match p.kind with | .lineRead off => p.win * 32768 + off / 64 | _ => 0

/-- Discards the lines of a thread that a test selects, and the fills of such lines that a prefetch has asked for (R184, R198). -/
def dropLines (key : Nat) (p : Nat → Bool) : M Unit :=
  modify fun s =>
    let late := (s.outbox.filter fun k => decide (k.key = key) && p k.lineKey).map (·.id)
    s.updThr key fun t => { t with lines := t.lines.filter fun l => !p l.1, prefs := t.prefs.filter fun id => !late.contains id }

/-- The lines that the threads of a core hold in its remote line cache: those that have a slot or an allotment there. -/
def State.linesOn (s : State) (core : Nat) : List (Nat × Nat × RLine) :=
  (s.threads.filter fun p => decide (p.2.core = core) && (p.2.placed || p.2.homed) && decide (p.1 < passBase)).flatMap fun p =>
    p.2.lines.map fun l => (p.1, l.1, l.2)

/-- The lines of a thread, and those that a roll-back would bring back (R382). -/
def Thread.lineKeys (t : Thread) : List Nat :=
  (t.lines.keys ++ t.savedLines.keys ++ t.versions.flatMap fun v => (v.landing.map fun l => l.lines.keys).getD []).eraseDups

/-- How many lines the remote line cache of a core has to hold, those that a roll-back would bring back among them (R14). -/
def State.lineCount (s : State) (core : Nat) : Nat :=
  s.threads.foldl (fun n p => if p.2.core = core && (p.2.placed || p.2.homed) && p.1 < passBase then n + p.2.lineKeys.length else n) 0

/-- Clean lines of a core give way until its remote line cache holds no more than it has room for (R14). -/
def State.trimLines (s : State) (core : Nat) : State :=
  (((s.linesOn core).filter fun x => x.2.2.dirty = 0#64).take (s.lineCount core - 4096)).foldl (fun s x =>
    s.updThr x.1 fun t => { t with lines := t.lines.erase x.2.1 }) s

/-- The dirty lines of a thread and of the others on a core have room in its remote line cache (R14; DESIGN CHOICE: assumption log entry 67). -/
def State.linesFit (s : State) (key core : Nat) : Bool :=
  let on := s.threads.filter fun p => decide (p.1 ≠ key) && decide (p.2.core = core) && (p.2.placed || p.2.homed) && decide (p.1 < passBase)
  decide (on.foldl (fun n p => n + p.2.dropClean.lineKeys.length) (s.thr key).dropClean.lineKeys.length ≤ 4096)

/-- Room for one more line in the remote line cache of a thread's core, which holds 4,096 (R14): a clean line gives way, or else a dirty one
is written back first (R184). DESIGN CHOICE: assumption log entry 67. -/
def makeRoom (key : Nat) : M Unit := do
  let s ← get
  let core := (s.thr key).core
  if 4096 ≤ s.lineCount core then
    let l := s.linesOn core
    match l.find? fun x => x.2.2.dirty = 0#64 with
    | some x => modThr x.1 fun t => { t with lines := t.lines.erase x.2.1 }
    | none =>
      match l with
      | x :: _ =>
        writeBackLine x.1 x.2.1
        modThr x.1 fun t => { t with lines := t.lines.erase x.2.1 }
      | [] => pure ()

/-- A packet reads a line, and changes nothing where it goes. -/
def PktKind.isRead : PktKind → Bool
  | .lineRead _ => true
  | _ => false

/-- Every packet of a thread but those that read lines has been answered (R163). -/
def State.allAcked (s : State) (key : Nat) : Bool := !s.outbox.any fun p => decide (p.key = key) && !p.kind.isRead

/-- What a release at context scope waits for: the dirty remote lines are written back, and every posted write has been acknowledged (R163,
R184). -/
def releaseCtx (key : Nat) : M Unit := do
  writeBackLines key (fun _ => true)
  let s ← get
  if !s.allAcked key then waitOn .outside

/-- What an acquire at context scope does first: dirty remote lines are written back, then every line is invalid (R164, R184). -/
def acquireCtx (key : Nat) : M Unit := do
  writeBackLines key (fun _ => true)
  dropLines key (fun _ => true)

/-- The packet whose answer a unit that reads on a path waits for, with the line that it was sent to read: the sequencer's, or that of VL or of a
stream. -/
def Thread.rdPkt (t : Thread) (path : Nat) : Option (Nat × Option Nat) :=
  if path = 0 then t.sqPkt else if t.rdPkts.has path then some ((t.rdPkts.get path).1, some (t.rdPkts.get path).2) else none

/-- The thread with the packet that a unit waits for set, with its line, or cleared. -/
def Thread.setRdPkt (t : Thread) (path : Nat) (pkt : Option (Nat × Nat)) : Thread :=
  if path = 0 then { t with sqPkt := pkt.map fun p => (p.1, some p.2) }
  else { t with rdPkts := match pkt with | some n => t.rdPkts.put path n | none => t.rdPkts.erase path }

/-- A unit waits for its packet no longer: one whose line is still to come fills it as a prefetch would, and no other access takes its answer
(R184, R191). -/
def Thread.leaveRdPkt (t : Thread) (path : Nat) : Thread :=
  match t.rdPkt path with
  | none => t
  | some (id, line) =>
    let due := match line with | some k => !(t.lines.get k).valid && !t.replies.has id | none => false
    let u := { t.setRdPkt path none with replies := t.replies.erase id }
    if due then { u with prefs := u.prefs ++ [id] } else u

/-- A line of the remote line cache is filled; bytes that the thread has written in it stay (R184). -/
def Thread.fillLine (t : Thread) (k : Nat) (data : BitVec 512) : Thread :=
  let l := t.lines.get k
  { t with lines := t.lines.put k { l with data := mergeBlock data l.data l.dirty, valid := true } }

/-- The bytes of a remote line, filled from the target when the cache does not hold them (R184); a reply that the target's block is POISON
raises MEMERR at the bytes' address (R72). -/
def readRemote (key path w addr n va : Nat) : M (List Byte) := do
  let t ← getThr key
  let k := lineKey w (addr / 64)
  let l := t.lines.get k
  let want := byteMask (addr % 64) n
  let mine := match t.rdPkt path with | some (id, some k') => if k' = k then some id else none | _ => none
  if l.valid || (want &&& ~~~l.dirty) = 0#64 then
    if mine.isSome then modThr key fun t => t.leaveRdPkt path
    pure (takeBytes l.data (addr % 64) n)
  else
    match mine with
    | some id =>
      if !t.replies.has id then stall .outside
      if (t.replies.get id).poison then raise (mkTrap 19 va 0)
      if !t.lines.has k then makeRoom key
      modThr key fun t => ({ t.setRdPkt path none with replies := t.replies.erase id } : Thread).fillLine k (t.replies.get id).data
      let t ← getThr key
      pure (takeBytes (t.lines.get k).data (addr % 64) n)
    | none =>
      modThr key fun t => t.leaveRdPkt path
      let id ← sendPacket key path w none none (.lineRead (addr / 64 * 64))
      modThr key fun t => t.setRdPkt path (some (id, k))
      waitOn .outside

/-- The bytes that the load on a path has read before the rest of it: the sequencer's word's, or those of the head of the path's queue (R159). -/
def Thread.earlyOf (t : Thread) (path : Nat) : List (Space × Nat × Byte) :=
  if path = 0 then t.early
  else match engOfPath path with
    | some e => ((t.queue e).entries.head?.map (·.early)).getD []
    | none => []

/-- Bytes from an address of a space on, with those that have been read early in their places. -/
def withEarly (l : List (Space × Nat × Byte)) (sp : Space) (a : Nat) (b : List Byte) : List Byte :=
  if l.isEmpty then b
  else (b.zip (countFrom a b.length)).map fun x => ((l.find? fun e => decide (e.1 = sp) && decide (e.2.1 = x.2)).map (·.2.2)).getD x.1

/-- Reads the bytes of a piece; a plain load may have read some of them earlier, so that of a path hazard each byte is old or new (R159). -/
def readPiece (r : Req) (p : Piece) : M (List Byte) := do
  let s ← get
  match p.tgt with
  | .host => pure (s.host.bytes p.addr p.len)
  | .remote w =>
    let segs := cutBytes (p.len / 64 + 2) p.addr (List.replicate p.len 0#8)
    segs.foldlM (fun acc seg => do return acc ++ (← readRemote r.key r.path w seg.1 seg.2.length (p.va + (seg.1 - p.addr)))) []
  | _ =>
    match p.space r.key with
    | some sp => pure (withEarly (if r.marked then [] else (s.thr r.key).earlyOf r.path) sp p.addr ((s.space sp).bytes p.addr p.len))
    | none => pure []

/-- Pieces by rising virtual address. -/
def sortPieces (ps : List Piece) : List Piece :=
  ps.foldl (fun l p => (l.takeWhile fun q => q.va ≤ p.va) ++ p :: l.dropWhile fun q => q.va ≤ p.va) []

/-- The lines behind remote windows that pieces need are asked for by rising address, so that of several POISON blocks the lowest is met
(R188). -/
def fillPieces (r : Req) (ps : List Piece) : M Unit :=
  forEach (sortPieces (ps.filter fun p => match p.tgt with | .remote _ => true | _ => false)) fun p => do
    let _ ← readPiece r p

/-- Reads the bytes of pieces in order. -/
def readPieces (r : Req) (ps : List Piece) : M (List Byte) := do
  if 1 < ps.length then fillPieces r ps
  ps.foldlM (fun acc p => do return acc ++ (← readPiece r p)) []

/-- An access that writes a peer's scratch counts there as an access on path IN: what comes before it is known on that path (R151, R155). -/
def noteIn (r : Req) (p : Piece) : M Unit :=
  match p.tgt with
  | .peer k => modify fun s => s.updThr k fun t => t.learn [5] ((s.thr r.key).clkOf r.key r.path)
  | _ => pure ()

/-- Writes bytes to a piece of host, scratch, HBM or Granary memory under the access's version. -/
def putPiece (r : Req) (p : Piece) (data : List Byte) : M Unit := do
  noteIn r p
  match p.tgt with
  | .host => modify fun s => { (s.dropRels .hbm true p.addr p.len none) with host := s.host.setBytes p.addr data }
  | _ =>
    match p.space r.key with
    | some sp => modify fun s => (s.dropRels sp false p.addr p.len (s.liveVer r.key r.ver)).writeVer r.key r.ver sp p.addr data
    | none => pure ()

/-- Writes bytes to a piece under the access's version. Plain sequencer stores into a remote window go into the line
cache, every other write there is posted (R184, R185). -/
def writePiece (r : Req) (p : Piece) (data : List Byte) : M Unit := do
  match p.tgt with
  | .remote w =>
    if r.path = 0 then
      forEach (granules w p.addr data) fun g => do
        let t ← getThr r.key
        if !t.lines.has (lineKey w (g.2.1 / 64)) then makeRoom r.key
        modThr r.key fun t =>
          let k := lineKey w (g.2.1 / 64)
          let l := t.lines.get k
          { t with lines := t.lines.put k { l with data := mergeBlock l.data g.2.2.1 g.2.2.2, dirty := l.dirty ||| g.2.2.2 } }
  | _ =>
    putPiece r p data
    peerWatch r false true p

/-- Each piece with its share of consecutive bytes. -/
def shareBytes : List Piece → List Byte → List (Piece × List Byte)
  | [], _ => []
  | p :: t, data => (p, data.take p.len) :: shareBytes t (data.drop p.len)

/-- The granules of consecutive bytes that are written to pieces behind remote windows (R185). -/
def remoteGranules (ps : List Piece) (data : List Byte) : List (Nat × Nat × BitVec 512 × BitVec 64) :=
  mergeGranules ((shareBytes ps data).flatMap fun p => match p.1.tgt with | .remote w => granules w p.1.addr p.2 | _ => []) []

/-- Writes consecutive bytes to pieces, but what is posted. -/
def writeLocal (r : Req) (ps : List Piece) (data : List Byte) : M Unit := forEach (shareBytes ps data) fun p => writePiece r p.1 p.2

/-- Writes consecutive bytes to pieces: what is posted first, then the rest. -/
def writePieces (r : Req) (ps : List Piece) (data : List Byte) : M Unit := do
  if r.path ≠ 0 then
    let gs := remoteGranules ps data
    if !gs.isEmpty then postGranules r.key r.path none gs
  writeLocal r ps data

/-- A read of spans: the checks, then the bytes. -/
def readSpans (r : Req) (spans : List (Nat × Nat)) : M (List Byte) := do
  let ps ← access r true false spans
  for p in ps do peerWatch r true false p
  readPieces r ps

/-- A write of spans: the checks, then the bytes. -/
def writeSpans (r : Req) (spans : List (Nat × Nat)) (data : List Byte) : M Unit := do
  let ps ← access r false true spans
  writePieces r ps data

end Sys2Proof.Machine
end

