-- ==== Sys2Proof/Machine/Seq.lean ====
section
/-! DEFINITION. The sequencer: how a word of the current thread is performed, waits or traps, and the transfer of
control (R12, R231, R368, R424). -/

namespace Sys2Proof.Machine

/-- The outcome of a step of this machine. -/
abbrev Out := Host.Outcome State Fault Refusal

/-- Control passes to a word of the current image (R231, Goto). -/
def Frame.goto (f : Frame) (pc : Nat) : Frame :=
  if f.phase = .prologue ∧ pc = f.task.kerPc then
    if f.task.trip = 0#64 then { f with phase := .epilogue, pc := f.task.epiPc } else { f with phase := .kernel, pc := pc }
  else { f with pc := pc }

/-- Control passes to the next word. -/
def Frame.next (f : Frame) : Frame := f.goto (f.pc + 1)

/-- The current thread passes to its next word. -/
def advance (key : Nat) : M Unit := modThr key fun t => t.updLive Frame.next

/-- The PC of a thread as trap registers name it. -/
def Thread.pcw (t : Thread) : W64 := pcWord t.live.task.slot t.live.pc

/-- A trap raised by the word of the sequencer (R368 class S). -/
def Thread.sTrap (t : Thread) (tr : Trap) : Trap :=
  { tr with cls := 0#2, unit := 0#3, pc := t.pcw, ver := BitVec.ofNat 20 t.curVer.id }

/-- Delivers the watchpoint reports of a word, an entry, a chunk or a stream's access that has just been performed, each at the word that the
trap names: the first is the stop, the others are held (R368, R377, R429). -/
def State.takeHits (s : State) (key : Nat) (pc : W64) : State :=
  let t := s.thr key
  match t.hits with
  | [] => s
  | h :: rest =>
    let s := s.setThr key { t with hits := [] }
    let s := s.deliver key { h.t with pc := pc }
    rest.foldl (fun s h => s.updThr key fun t => t.hold { h with t := { h.t with pc := pc } }) s

/-- STEP is raised after a word, once the entries it pushed have completed (R424). -/
def State.takeStep (s : State) (key : Nat) : State :=
  let t := s.thr key
  match t.stepAt with
  | none => s
  | some (pc, ser) =>
    if !(t.alive && decide (t.run = .resident)) then s.updThr key fun t => { t with stepAt := none }
    else if engs.all fun e => (t.queue e).entries.all fun x => x.ser < ser then
      (s.updThr key fun t => { t with stepAt := none }).deliver key { mkTrap 16 (pc.toNat % 32768) 0 with pc := pc }
    else s

/-- A word has been performed: what it waited for is over, and its stops are reported (R368, R424, R429). -/
def State.wordDone (s : State) (key : Nat) (pc : W64) (ser : Nat) : State :=
  let s := s.updThr key fun t =>
    { t with wait := default, idle := s.tick, resumePast := false, early := [],
             stepAt := if t.stepOn then some (pc, ser) else none }
  ((s.countFor key 1 1).takeHits key pc).takeStep key

/-- A word waits: since when, and on what (R237, R261). -/
def State.wordWaits (s : State) (key : Nat) (k : WaitKind) : State :=
  s.updThr key fun t =>
    { t with wait := { kind := k, since := if t.wait.kind = .running then s.tick else t.wait.since }, hits := [] }

/-- Performs a word of the current thread: it completes, traps with no effect, or waits (R12, R368). A thread that is
not resident performs nothing. -/
def sqWord (body : Nat → M Unit) (s : State) : Out :=
  let key := s.cur
  let t := s.thr key
  if !(t.alive && decide (t.run = .resident)) then .next s
  else
    match body key s with
    | .ok ((), s') => .next (s'.wordDone key t.pcw t.serial)
    | .error (.trap tr) => .next (s.takeTrap key (t.sTrap tr))
    | .error (.stall k) => .next (s.wordWaits key k)
    | .error (.wait k s') => .next (s'.wordWaits key k)
    | .error (.fault tr s') => .next (s'.takeTrap key (t.sTrap tr))

/-- ILLEGAL at the word of the current thread: TRAP_ADDR holds its PC, as a word index (R29, R243; DEDUCED, assumption log entry 9). -/
def illegal {α : Type} (key : Nat) : M α := do
  let t ← getThr key
  raise (mkTrap 1 t.live.pc 0)

/-- PRIV at the word of the current thread (R30, R47). -/
def privFault {α : Type} (key : Nat) : M α := do
  let t ← getThr key
  raise (mkTrap 2 t.live.pc 0)

/-- The taint of a value computed from registers (R168). -/
def unionTaint (l : List XReg) : BitVec 16 := l.foldl (fun m r => m ||| r.taint) 0#16

/-- The saturation bit of a value computed from registers (R168). -/
def orSat (l : List XReg) : Bool := l.any (·.sat)

/-- A value computed from registers (R168, R238). -/
def derive (l : List XReg) (v : W64) : XReg := { val := v, taint := unionTaint l, sat := orSat l }

/-- A value with empty taint. -/
def plain (v : W64) : XReg := { val := v, taint := 0#16, sat := false }

/-- An SC word: a register result from the live frame, then the next word (R238). -/
def scWord (xd : BitVec 5) (res : Frame → XReg) (s : State) : Out :=
  sqWord (fun key => modThr key fun t => t.updLive fun f => (f.wx xd (res f)).next) s

/-- An SC word of two registers (R238). -/
def scR (xd xa xb : BitVec 5) (op : W64 → W64 → W64) (s : State) : Out :=
  scWord xd (fun f => derive [f.rx xa, f.rx xb] (op (f.rx xa).val (f.rx xb).val)) s

/-- An SC word of one register (R238, R239). -/
def scU (xd xa : BitVec 5) (op : W64 → W64) (s : State) : Out :=
  scWord xd (fun f => derive [f.rx xa] (op (f.rx xa).val)) s

/-- The text of the image a thread runs. -/
def State.text (s : State) (t : Thread) : List W32 := (s.images.get t.live.task.slot).text

/-- Waits for tickets to bind: those of loads still queued hold the word (R167). -/
def bindTickets (key : Nat) (m : BitVec 16) : M Unit := do
  let t ← getThr key
  if m &&& t.liveTickets ≠ 0#16 then
    if t.pendingIn m then stall .ticket
    modThr key fun t => t.bindMany m

/-- An access on some paths waits for the tickets of its operand taint (R169, R171). -/
def settleOn (key : Nat) (paths : List Nat) (taint : BitVec 16) (sat : Bool) (live : BitVec 16) : M Unit := do
  let t ← getThr key
  let m := taint ||| (if sat then live else 0#16)
  if m &&& t.liveTickets ≠ 0#16 then
    if t.pendingIn m then stall .ticket
    modThr key fun t => t.settle paths taint sat live

/-- A write of the sequencer waits for the taint of its operands and for control taint (R169, R173). -/
def settleWrite (key : Nat) (l : List XReg) : M Unit := do
  let t ← getThr key
  settleOn key [0] (unionTaint l ||| t.live.ctaint) (orSat l || t.live.csat) t.liveTickets

/-- The current thread waits for the taint of operands of a sequencer access (R169). -/
def settleSQ (key : Nat) (l : List XReg) : M Unit := do
  let t ← getThr key
  settleOn key [0] (unionTaint l) (orSat l) t.liveTickets

end Sys2Proof.Machine
end

