-- ==== Sys2Proof/Machine/Operands.lean ====
section
/-! DEFINITION. Operand forms: immediates, S-space and flat addresses of memory operands, masks, and the operand step
of vector registers (R31 to R43, R187). -/

namespace Sys2Proof.Machine

/-- An immediate sign-extended to 64 bits (R31, R33). -/
def sx64 {n : Nat} (i : BitVec n) : W64 := i.signExtend 64

/-- An immediate zero-extended to 64 bits (R31). -/
def zx64 {n : Nat} (i : BitVec n) : W64 := i.zeroExtend 64

/-- The bytes of an operand size (R33). -/
def sizeBytes : Size → Nat
  | .b => 1
  | .h => 2
  | .w => 4
  | .d => 8

/-- The n low bytes of a number, sign-extended to 64 bits (R192). -/
def sextBytes (n v : Nat) : W64 :=
  if v / 2 ^ (8 * n - 1) % 2 = 1 then BitVec.ofNat 64 (v + (2 ^ 64 - 2 ^ (8 * n))) else BitVec.ofNat 64 v

/-- The flag a word of the current thread names; ILLEGAL for a group flag while no group is selected (R41). -/
def wordFlag (key : Nat) (f : BitVec 8) : M FlagRef := do
  let t ← getThr key
  match flagRef key t.cid t.live.gsel f with
  | some r => pure r
  | none => illegal key

end Sys2Proof.Machine
end

