-- ==== Sys2Proof/Machine/Numbers.lean ====
section
/-! DEFINITION. Number formats, exact values and their rounding (R60 to R65, R75 to R79), and the functions of the
vector unit as exact values with a sticky last bit (R97). -/

namespace Sys2Proof

/-- An exact value: a NaN, an infinity, or (-1)^neg times m times 2^e, zero when m is 0. -/
inductive Num where
  | nan (sig : Bool)
  | inf (neg : Bool)
  | fin (neg : Bool) (m : Nat) (e : Int)
  deriving DecidableEq, Repr, Inhabited

/-- A rounding rule: the five modes of R44 and stochastic rounding with a random word (R75, R76). -/
inductive RM where
  | rne
  | rtz
  | rup
  | rdn
  | rna
  | sr (r : Nat)
  deriving DecidableEq, Repr, Inhabited

/-- The rounding mode of a code (R44). -/
def RM.ofCode : Nat → RM
  | 0 => .rne
  | 1 => .rtz
  | 2 => .rup
  | 3 => .rdn
  | _ => .rna

/-- Flags by their bit of VSTAT (R89). -/
def fNV : Nat := 1
/-- Divide by zero. -/
def fDZ : Nat := 2
/-- Overflow. -/
def fOF : Nat := 4
/-- Underflow. -/
def fUF : Nat := 8
/-- Inexact. -/
def fNX : Nat := 16
/-- An SQ4 block with more than four outliers. -/
def fUNF : Nat := 32
/-- An integer result out of range. -/
def fIS : Nat := 64

/-- A floating-point layout (R60): exponent and mantissa bits, bias, whether an all-ones exponent holds infinities and
NaNs (R62), and the largest finite value as m times 2^e. -/
structure Fmt where
  eb : Nat
  mb : Nat
  bias : Int
  ieee : Bool
  maxM : Nat
  maxE : Int
  deriving DecidableEq, Repr

/-- The floating-point types (R60, R62, R63). -/
def Ty.fmt? : Ty → Option Fmt
  | .f32 => some ⟨8, 23, 127, true, 16777215, 104⟩
  | .f16 => some ⟨5, 10, 15, true, 2047, 5⟩
  | .bf16 => some ⟨8, 7, 127, true, 255, 120⟩
  | .e4m3 => some ⟨4, 3, 7, false, 14, 5⟩
  | .e5m2 => some ⟨5, 2, 15, true, 7, 13⟩
  | .e2m1 => some ⟨2, 1, 1, false, 3, 1⟩
  | _ => none

/-- The width of an element in bits, 4-bit types at their true width (R60). -/
def Ty.width : Ty → Nat
  | .f32 => 32
  | .f16 => 16
  | .bf16 => 16
  | .e4m3 => 8
  | .e5m2 => 8
  | .e2m1 => 4
  | .sq4 => 4
  | .i8 => 8
  | .i16 => 16
  | .i32 => 32
  | .i64 => 64
  | .n8 => 8
  | .n16 => 16
  | .n32 => 32
  | .n64 => 64

/-- The width of a lane: the 4-bit types take 8-bit lanes (R80). -/
def Ty.lane (t : Ty) : Nat := Nat.max 8 t.width

/-- A signed integer type. -/
def Ty.signed : Ty → Bool
  | .i8 => true
  | .i16 => true
  | .i32 => true
  | .i64 => true
  | _ => false

/-- Class I of R81. -/
def Ty.isInt : Ty → Bool
  | .i8 => true
  | .i16 => true
  | .i32 => true
  | .i64 => true
  | .n8 => true
  | .n16 => true
  | .n32 => true
  | .n64 => true
  | _ => false

/-- Class F of R81. -/
def Ty.isF : Ty → Bool
  | .f32 => true
  | .f16 => true
  | .bf16 => true
  | _ => false

/-- The format code of a type in a block tag (R60). -/
def Ty.fmtCode? : Ty → Option Nat
  | .f32 => some 0x01
  | .bf16 => some 0x02
  | .f16 => some 0x03
  | .e4m3 => some 0x10
  | .e5m2 => some 0x11
  | .i8 => some 0x12
  | .e2m1 => some 0x20
  | .sq4 => some 0x21
  | _ => none

/-- The bits of a number. -/
def bitLen : Nat → Nat
  | 0 => 0
  | n + 1 => Nat.log2 (n + 1) + 1

/-- A w-bit code as a signed number. -/
def signedW (w v : Nat) : Int := if 2 ^ (w - 1) ≤ v then (v : Int) - 2 ^ w else v

/-- The low w bits of an integer. -/
def lowBits (w : Nat) (v : Int) : Nat := (v % (2 ^ w : Int)).toNat

/-- The value of a code of a floating-point format (R62, R63). -/
def Fmt.value (f : Fmt) (code : Nat) : Num :=
  let neg := fld code (f.eb + f.mb) 1 = 1
  let e := fld code f.mb f.eb
  let m := fld code 0 f.mb
  if f.ieee && e = 2 ^ f.eb - 1 then
    if m = 0 then .inf neg else .nan (decide (m < 2 ^ (f.mb - 1)))
  else if !f.ieee && decide (f.eb = 4) && e = 15 && m = 7 then .nan false
  else if e = 0 then .fin neg m (1 - f.bias - f.mb)
  else .fin neg (m + 2 ^ f.mb) (e - f.bias - f.mb)

/-- An integer as a value. -/
def Num.ofInt (v : Int) : Num := .fin (decide (v < 0)) v.natAbs 0

/-- The value of an element code outside a block (R62 to R66); a lone SQ4 marker reads zero. -/
def Ty.value (t : Ty) (code : Nat) : Num :=
  match t.fmt? with
  | some f => f.value code
  | none =>
    if t = .sq4 then (if code % 16 = 8 then .fin false 0 0 else Num.ofInt (signedW 4 (code % 16)))
    else if t.signed then Num.ofInt (signedW t.width code)
    else .fin false code 0

/-- The largest finite code of a format, without sign. -/
def Fmt.maxCode (f : Fmt) : Nat :=
  if f.ieee then (2 ^ f.eb - 1) * 2 ^ f.mb - 1 else if f.eb = 4 then 0x7E else 0x7

/-- The code of an infinity, without sign. -/
def Fmt.infCode (f : Fmt) : Nat := (2 ^ f.eb - 1) * 2 ^ f.mb

/-- The canonical NaN (R62): sign 0, quiet, no payload. -/
def Fmt.nanCode (f : Fmt) : Nat := if f.ieee then f.infCode + 2 ^ (f.mb - 1) else 0x7F

/-- Rounds m times 2^e to a multiple of 2^q (R75, R76): the multiple and whether it is inexact. -/
def roundQ (rm : RM) (neg : Bool) (m : Nat) (e q : Int) : Nat × Bool :=
  if q ≤ e then (m * 2 ^ (e - q).toNat, false)
  else
    let sh := (q - e).toNat
    let lo := m / 2 ^ sh
    let rest := m % 2 ^ sh
    if rest = 0 then (lo, false)
    else
      let half := 2 ^ (sh - 1)
      let up := match rm with
        | .rne => decide (half < rest) || (decide (rest = half) && decide (lo % 2 = 1))
        | .rtz => false
        | .rup => !neg
        | .rdn => neg
        | .rna => decide (half ≤ rest)
        | .sr r => decide (r / 512 < rest * 8388608 / 2 ^ sh)
      (if up then lo + 1 else lo, true)

/-- The mode rounds a value of a sign towards zero (R78). -/
def RM.toZero (rm : RM) (neg : Bool) : Bool :=
  match rm with
  | .rtz => true
  | .rup => neg
  | .rdn => !neg
  | _ => false

/-- Rounds an exact value to a floating-point format: code and flags (R75 to R79). -/
def Fmt.encode (f : Fmt) (rm : RM) (sat : Bool) (x : Num) : Nat × Nat :=
  let w := f.eb + f.mb
  match x with
  | .nan sig =>
    if !f.ieee && f.eb = 2 then (0, fNV) else (f.nanCode, if sig then fNV else 0)
  | .inf neg =>
    let s := if neg then 2 ^ w else 0
    if f.ieee then (s + f.infCode, 0)
    else if f.eb = 4 && !sat then (f.nanCode, fNV)
    else (s + f.maxCode, fNV)
  | .fin neg m e =>
    let s := if neg then 2 ^ w else 0
    if m = 0 then (s, 0)
    else
      let emin : Int := 1 - f.bias
      let top : Int := (bitLen m : Int) - 1 + e
      let q : Int := (if top < emin then emin else top) - f.mb
      let (ip, inex) := roundQ rm neg m e q
      let big := decide (f.maxM * 2 ^ (f.maxE - q).toNat < ip * 2 ^ (q - f.maxE).toNat)
      if big then
        let fl := fOF + fNX
        if !f.ieee && f.eb = 4 && !sat then (f.nanCode, fl)
        else if f.ieee && !sat && !rm.toZero neg then (s + f.infCode, fl)
        else (s + f.maxCode, fl)
      else
        let tiny := inex && decide (top < emin) &&
          (let r := (roundQ rm neg m e (top - f.mb)).1
           decide ((bitLen r : Int) - 1 + (top - f.mb) < emin))
        let fl := (if inex then fNX else 0) + (if inex && (ip = 0 || tiny) then fUF else 0)
        if ip < 2 ^ f.mb then (s + ip, fl)
        else if 2 ^ (f.mb + 1) ≤ ip then (s + (q + 1 + f.mb + f.bias).toNat * 2 ^ f.mb + (ip / 2 - 2 ^ f.mb), fl)
        else (s + (q + f.mb + f.bias).toNat * 2 ^ f.mb + (ip - 2 ^ f.mb), fl)

/-- The range of an integer type (R65). -/
def Ty.range (t : Ty) : Int × Int :=
  if t.signed then (-(2 ^ (t.width - 1) : Int), 2 ^ (t.width - 1) - 1) else (0, 2 ^ t.width - 1)

/-- Reduces an exact integer to an integer type (R92): low bits or clamped, ISAT when out of range. -/
def Ty.reduce (t : Ty) (sat : Bool) (v : Int) : Nat × Nat :=
  let (lo, hi) := t.range
  if lo ≤ v ∧ v ≤ hi then (lowBits t.width v, 0)
  else (lowBits t.width (if sat then (if v < lo then lo else hi) else v), fIS)

/-- Rounds an exact value to an integer (R78): the value and whether it is inexact. -/
def roundInt (rm : RM) (neg : Bool) (m : Nat) (e : Int) : Int × Bool :=
  let (ip, inex) := roundQ rm neg m e 0
  (if neg then -(ip : Int) else ip, inex)

/-- The flags of a finite value that is rounded to an integral value v within range (R79): NX when inexact, and UF when a
non-zero value becomes zero. -/
def intFlags (v : Int) (inex : Bool) : Nat := if inex then (if v = 0 then fNX + fUF else fNX) else 0

/-- Converts an exact value to an element type: code and flags (R75 to R79, R109). A finite value outside an integer
type's range raises NV and NX: what is delivered differs from the exact value. -/
def Ty.encode (t : Ty) (rm : RM) (sat : Bool) (x : Num) : Nat × Nat :=
  match t.fmt? with
  | some f => f.encode rm sat x
  | none =>
    if t = .sq4 then
      match x with
      | .nan _ => (0, fNV)
      | .inf neg => (if neg then 9 else 7, fNV)
      | .fin neg m e =>
        let (v, inex) := roundInt rm neg m e
        if 7 < v then (7, fOF + fNX) else if v < -7 then (9, fOF + fNX)
        else (lowBits 4 v, intFlags v inex)
    else
      let (lo, hi) := t.range
      match x with
      | .nan _ => (0, fNV)
      | .inf neg => (if sat then lowBits t.width (if neg then lo else hi) else 0, fNV)
      | .fin neg m e =>
        let (v, inex) := roundInt rm neg m e
        if lo ≤ v ∧ v ≤ hi then (lowBits t.width v, intFlags v inex)
        else (lowBits t.width (if sat then (if v < lo then lo else hi) else v), fNV + fNX)

/-! ## Exact arithmetic -/

/-- A value is a signalling NaN. -/
def Num.isSig : Num → Bool
  | .nan s => s
  | _ => false

/-- A value is a NaN. -/
def Num.isNaN : Num → Bool
  | .nan _ => true
  | _ => false

/-- The NV flag of operands that signal (R77). -/
def sigFlag (l : List Num) : Nat := if l.any Num.isSig then fNV else 0

/-- The integer that a finite value is in units of 2^q. -/
def scaled (neg : Bool) (m : Nat) (e q : Int) : Int := (if neg then -1 else 1) * ((m * 2 ^ (e - q).toNat : Nat) : Int)

/-- The exact sum (R91): NV for opposite infinities; the sign of an exact zero follows IEEE 754-2019. -/
def Num.add (rm : RM) (a b : Num) : Num × Nat :=
  match a, b with
  | .nan _, _ => (.nan false, sigFlag [a, b])
  | _, .nan _ => (.nan false, sigFlag [a, b])
  | .inf x, .inf y => if x = y then (.inf x, 0) else (.nan false, fNV)
  | .inf x, _ => (.inf x, 0)
  | _, .inf y => (.inf y, 0)
  | .fin x m e, .fin y n g =>
    if m = 0 ∧ n = 0 then (if x = y then .fin x 0 0 else .fin (decide (rm = .rdn)) 0 0, 0)
    else if m = 0 then (.fin y n g, 0)
    else if n = 0 then (.fin x m e, 0)
    else
      let q := if e ≤ g then e else g
      let v := scaled x m e q + scaled y n g q
      if v = 0 then (.fin (decide (rm = .rdn)) 0 0, 0) else (.fin (decide (v < 0)) v.natAbs q, 0)

/-- The negation of a value. -/
def Num.neg : Num → Num
  | .nan s => .nan s
  | .inf x => .inf (!x)
  | .fin x m e => .fin (!x) m e

/-- The exact product (R91): NV for zero times infinity. -/
def Num.mul (a b : Num) : Num × Nat :=
  match a, b with
  | .nan _, _ => (.nan false, sigFlag [a, b])
  | _, .nan _ => (.nan false, sigFlag [a, b])
  | .inf x, .inf y => (.inf (x != y), 0)
  | .inf x, .fin y m _ => if m = 0 then (.nan false, fNV) else (.inf (x != y), 0)
  | .fin x m _, .inf y => if m = 0 then (.nan false, fNV) else (.inf (x != y), 0)
  | .fin x m e, .fin y n g => (.fin (x != y) (m * n) (e + g), 0)

/-- The exact a times b plus c (R93): zero times infinity raises NV whatever c holds. -/
def Num.fma (rm : RM) (a b c : Num) : Num × Nat :=
  let zi := match a, b with
    | .inf _, .fin _ 0 _ => true
    | .fin _ 0 _, .inf _ => true
    | _, _ => false
  if zi then (.nan false, fNV)
  else if a.isNaN || b.isNaN || c.isNaN then (.nan false, sigFlag [a, b, c])
  else (a.mul b).1.add rm c

/-- A value with a sticky bit below its last bit. -/
def sticky (neg : Bool) (m : Nat) (e : Int) (rest : Bool) : Num :=
  .fin neg (2 * m + if rest then 1 else 0) (e - 1)

/-- The quotient (R97): exact to 128 bits with a sticky bit. -/
def Num.div (a b : Num) : Num × Nat :=
  match a, b with
  | .nan _, _ => (.nan false, sigFlag [a, b])
  | _, .nan _ => (.nan false, sigFlag [a, b])
  | .inf _, .inf _ => (.nan false, fNV)
  | .inf x, .fin y _ _ => (.inf (x != y), 0)
  | .fin x _ _, .inf y => (.fin (x != y) 0 0, 0)
  | .fin x m e, .fin y n g =>
    if n = 0 then (if m = 0 then (.nan false, fNV) else (.inf (x != y), fDZ))
    else
      let k : Nat := 128
      let t := m * 2 ^ k
      (if m = 0 then .fin (x != y) 0 0 else sticky (x != y) (t / n) (e - g - k) (t % n ≠ 0), 0)

/-- The integer square root, bit by bit from a bit down. -/
def isqrtFrom (n : Nat) : Nat → Nat → Nat
  | 0, r => r
  | b + 1, r =>
    let c := r + 2 ^ b
    if c * c ≤ n then isqrtFrom n b c else isqrtFrom n b r

/-- The integer square root. -/
def isqrt (n : Nat) : Nat := isqrtFrom n (bitLen n / 2 + 1) 0

/-- The square root (R97). -/
def Num.sqrt (a : Num) : Num × Nat :=
  match a with
  | .nan s => (.nan false, if s then fNV else 0)
  | .inf true => (.nan false, fNV)
  | .inf false => (.inf false, 0)
  | .fin neg m e =>
    if m = 0 then (.fin neg 0 0, 0)
    else if neg then (.nan false, fNV)
    else
      let (m, e) := if e % 2 = 0 then (m, e) else (2 * m, e - 1)
      let t := m * 2 ^ 128
      let r := isqrt t
      (sticky false r (e / 2 - 64) (r * r ≠ t), 0)

/-- The reciprocal square root (R97). -/
def Num.rsq (a : Num) : Num × Nat :=
  match a with
  | .nan s => (.nan false, if s then fNV else 0)
  | .inf true => (.nan false, fNV)
  | .inf false => (.fin false 0 0, 0)
  | .fin neg m e =>
    if m = 0 then (.inf neg, fDZ)
    else if neg then (.nan false, fNV)
    else
      let (m, e) := if e % 2 = 0 then (m, e) else (2 * m, e - 1)
      let t := 2 ^ 256
      let r := isqrt (t / m)
      (sticky false r (-(e / 2) - 128) (r * r * m ≠ t), 0)

/-- The number 2 to the power of a fraction in fixed point at 200 bits, from the fraction's bits, lowest first. -/
def pow2Frac (bits : List Bool) : Nat :=
  bits.foldl (fun r b => isqrt ((if b then 2 * r else r) * 2 ^ 200)) (2 ^ 200)

/-- The low n bits of a number, lowest first. -/
def bitsLow (v : Nat) : Nat → List Bool
  | 0 => []
  | n + 1 => decide (v % 2 = 1) :: bitsLow (v / 2) n

/-- The power of two (R97): exact for integers; otherwise the value is irrational and correctly rounded from 200 bits. -/
def Num.exp2 (a : Num) : Num × Nat :=
  match a with
  | .nan s => (.nan false, if s then fNV else 0)
  | .inf true => (.fin false 0 0, 0)
  | .inf false => (.inf false, 0)
  | .fin neg m e =>
    if m = 0 then (.fin false 1 0, 0)
    else if (bitLen m : Int) + e > 12 then (.fin false 1 (if neg then -4096 else 4096), 0)
    else
      let k := (-e).toNat
      let v : Int := (if neg then -1 else 1) * ((m * 2 ^ e.toNat : Nat) : Int)
      let n := v / 2 ^ k
      let f := (v % 2 ^ k).toNat
      if f = 0 then (.fin false 1 n, 0) else (sticky false (pow2Frac (bitsLow f k)) (n - 200) true, 0)

/-- The fraction bits of the logarithm of a fixed-point number in [1, 2) at 300 bits, highest first. -/
def log2Bits : Nat → Nat → Nat → Nat
  | 0, _, acc => acc
  | n + 1, y, acc =>
    let z := y * y / 2 ^ 300
    if 2 ^ 301 ≤ z then log2Bits n (z / 2) (2 * acc + 1) else log2Bits n z (2 * acc)

/-- The logarithm to base two (R97): exact for powers of two; otherwise irrational and correctly rounded from 130 bits
of fraction. -/
def Num.log2 (a : Num) : Num × Nat :=
  match a with
  | .nan s => (.nan false, if s then fNV else 0)
  | .inf true => (.nan false, fNV)
  | .inf false => (.inf false, 0)
  | .fin neg m e =>
    if m = 0 then (.inf true, fDZ)
    else if neg then (.nan false, fNV)
    else
      let top := bitLen m - 1
      let n : Int := e + top
      if m = 2 ^ top then ((if n = 0 then .fin false 0 0 else Num.ofInt n), 0)
      else
        let f := log2Bits 130 (m * 2 ^ 300 / 2 ^ top) 0
        let v : Int := n * 2 ^ 130 + f
        if 0 ≤ v then (sticky false v.toNat (-130) true, 0)
        else (sticky true ((-v).toNat - 1) (-130) true, 0)

/-- A value rounded to an integral value (R98): the value, and NX when it differs. -/
def Num.integral (rm : RM) (a : Num) : Num × Nat :=
  match a with
  | .nan s => (.nan false, if s then fNV else 0)
  | .inf x => (.inf x, 0)
  | .fin neg m e =>
    if m = 0 then (a, 0)
    else
      let (ip, inex) := roundQ rm neg m e (if 0 ≤ e then e else 0)
      if 0 ≤ e then (a, 0) else (.fin neg ip 0, if inex then fNX else 0)

/-- Orders two numbers, neither a NaN: less, with the two zeros equal. -/
def Num.lt (a b : Num) : Bool :=
  match a, b with
  | .inf x, .inf y => x && !y
  | .inf x, _ => x
  | _, .inf y => !y
  | .fin x m e, .fin y n g =>
    let q := if e ≤ g then e else g
    decide (scaled x m e q < scaled y n g q)
  | _, _ => false

/-- The sign of a value; a NaN has none. -/
def Num.isNeg : Num → Bool
  | .inf x => x
  | .fin x _ _ => x
  | .nan _ => false

/-- The smaller or the larger of two values (R93): minus zero below plus zero, a number before a NaN. -/
def Num.minmax (max : Bool) (a b : Num) : Num × Nat :=
  let fl := sigFlag [a, b]
  if a.isNaN && b.isNaN then (.nan false, fl)
  else if a.isNaN then (b, fl)
  else if b.isNaN then (a, fl)
  else
    let less := a.lt b || (!b.lt a && a.isNeg && !b.isNeg)
    (if less != max then a else b, fl)

end Sys2Proof
end

