-- ==== Sys2Proof/Machine/Flags.lean ====
section
/-! DEFINITION. VTYPE, VSTAT and the flag computations of lanes (R44, R81, R82, R89 to R92). -/

namespace Sys2Proof.Machine

/-! ## VTYPE (R44) -/

/-- The element type of a VTYPE; a VTYPE never holds the reserved code 7. -/
def vtEt (v : W32) : Ty := (Ty.ofCode? (fld v.toNat 0 4)).getD .f32

/-- The rounding mode of a VTYPE. -/
def vtRm (v : W32) : RM := RM.ofCode (fld v.toNat 4 3)

/-- The saturation bit of a VTYPE. -/
def vtSat (v : W32) : Bool := v.getLsbD 7

/-- The trap enables of a VTYPE, in VSTAT bit order. -/
def vtTrapen (v : W32) : Nat := fld v.toNat 8 5

/-- A VTYPE value is not reserved. -/
def vtypeOk (v : Nat) : Bool := fld v 0 4 ≠ 7 && fld v 4 3 < 5

/-! ## Type classes (R81) -/

/-- Classes F and I. -/
def accFI (t : Ty) : Bool := t.isF || t.isInt

/-- Class F. -/
def accF (t : Ty) : Bool := t.isF

/-- Class I. -/
def accI (t : Ty) : Bool := t.isInt

/-- Classes F and I but the types that have no wider one (R94). -/
def accWiden (t : Ty) : Bool := accFI t && t ≠ .f32 && t ≠ .i64 && t ≠ .n64

/-- Any type. -/
def accA (_ : Ty) : Bool := true

/-! ## Lanes (R61, R80) -/

/-- The n w-bit lanes of a number, lane 0 lowest. -/
def lanesFrom (w : Nat) : Nat → Nat → List Nat
  | 0, _ => []
  | n + 1, v => v % 2 ^ w :: lanesFrom w n (v / 2 ^ w)

/-- The lanes of a vector entry. -/
def lanesOf (w : Nat) (d : VData) : List Nat := lanesFrom w (4096 / w) d.toNat

/-- The number whose w-bit lanes are given. -/
def packNat (w : Nat) : List Nat → Nat
  | [] => 0
  | v :: t => v % 2 ^ w + 2 ^ w * packNat w t

/-- The vector entry whose w-bit lanes are given. -/
def packLanes (w : Nat) (l : List Nat) : VData := BitVec.ofNat 4096 (packNat w l)

/-- The n low bits of a mask. -/
def maskBits (m : BitVec 512) (n : Nat) : List Bool := (countFrom 0 n).map fun i => m.getLsbD i

/-- A lane result: the code written and its flags. -/
abbrev LaneRes := Nat × Nat

/-- The value of a lane as an exact integer (R65). -/
def laneInt (t : Ty) (v : Nat) : Int := if t.signed then signedW t.width v else v

/-- A result in class F or I, with the flags that led to it (R91, R92). -/
def encFlags (t : Ty) (rm : RM) (sat : Bool) (x : Num × Nat) : LaneRes :=
  let r := t.encode rm sat x.1
  (r.1, r.2 ||| x.2)

/-- All flags of a list of lane results. -/
def allFlags (l : List LaneRes) : Nat := l.foldl (fun f r => f ||| r.2) 0

/-- The lowest lane that raised an enabled flag (R89). -/
def lowestLane (en : Nat) : Nat → List LaneRes → Nat
  | i, [] => i
  | i, r :: t => if r.2 &&& en ≠ 0 then i else lowestLane en (i + 1) t

/-- The FPE trap of an entry whose flags are enabled (R89); no rule names its TRAP_ADDR, which is 0. DESIGN CHOICE: assumption log
entry 12. -/
def fpeTrap (en : Nat) (l : List LaneRes) : Trap :=
  mkTrap 13 0 (allFlags l % 32 + lowestLane en 0 l * 65536)

/-- VSTAT after flags are raised (R89). -/
def vstatOr (v : W64) (fl : Nat) : W64 := v ||| BitVec.ofNat 64 fl

end Sys2Proof.Machine
end

