-- ==== Sys2Proof/Machine/Threads.lean ====
section
/-! DEFINITION. The life of threads and tasks: loop records (R54, R55), creation (R45, R225, R227), the task boundary
(R234, R381), the overlay (R235). -/

namespace Sys2Proof.Machine

/-- A plain sequencer access of a thread (R187). -/
def sqReq (s : State) (key : Nat) : Req :=
  { key := key, path := 0, ver := (s.thr key).curVer.id, marked := false, scope := 0, reach := Reach.all, poison := true, num := none, ser := none }

/-- A field of the bytes of a structure. -/
def bfld (l : List Byte) (off n : Nat) : Nat := leNat ((l.drop off).take n)

/-- The record that 64 bytes hold, when no reserved field is set and the PC fields name one slot (R54, R55 step 3). -/
def parseRec (addr : W64) (l : List Byte) : Option Rec :=
  let pro := bfld l 0 8
  let ker := bfld l 8 8
  let epi := bfld l 16 8
  let q5 := bfld l 40 8
  let budget := bfld l 36 4
  let args := bfld l 48 8
  let next := bfld l 56 8
  if pro / 33554432 ≠ 0 || ker / 33554432 ≠ 0 || epi / 33554432 ≠ 0 || fld q5 5 3 ≠ 0 || q5 / 512 ≠ 0 || budget > 8192 ||
      pro / 32768 ≠ ker / 32768 || pro / 32768 ≠ epi / 32768 then none
  else
    some { addr := addr, slot := pro / 32768, proPc := pro % 32768, kerPc := ker % 32768, epiPc := epi % 32768,
           trip := BitVec.ofNat 64 (bfld l 24 8), commit := BitVec.ofNat 32 (bfld l 32 4), budget := BitVec.ofNat 32 budget,
           trailer := BitVec.ofNat 5 (fld q5 0 5), epicommit := fld q5 8 1 = 1, args := BitVec.ofNat 64 args,
           next := BitVec.ofNat 64 next }

/-- Reads and checks the loop record at an address through the current thread's translation (R55). -/
def readRecord (key : Nat) (addr : W64) : M Rec := do
  if addr.toNat % 64 ≠ 0 then raise (mkTrap 3 addr.toNat 0)
  let s ← get
  let l ← readSpans (sqReq s key) [(addr.toNat, 64)]
  let c := s.ctx (s.thr key).cid
  match parseRec addr l with
  | none => raise (mkTrap 1 addr.toNat 0)
  | some r =>
    let img := s.images.get r.slot
    if img.resident && (img.text.length ≤ r.proPc || img.text.length ≤ r.kerPc || img.text.length ≤ r.epiPc) then
      raise (mkTrap 1 addr.toNat 0)
    if !(img.resident && c.granted r.slot) then raise (mkTrap 5 addr.toNat 0)
    pure r

/-- The frame at the start of a task (R231, StartTask). -/
def Frame.startTask (f : Frame) (r : Rec) : Frame :=
  { f with iter := 0#64, phase := .prologue, task := r, epiTaken := false, bnd := none }.goto r.proPc

/-- The lowest logical number free in a context, from a start (R225). -/
def State.freeNum (s : State) (cid start : Nat) : Option Nat :=
  let used : NMap Unit := s.threads.filterMap fun p => if p.1 / 65536 = cid then some (p.1 % 65536, ()) else none
  let c := s.ctx cid
  let rec go : Nat → Nat → Option Nat
    | 0, _ => none
    | fuel + 1, k => if used.has k || c.quarantine.has k then go fuel (k + 1) else if k < 65536 then some k else none
  go (used.length + c.quarantine.length + 1) start

/-- The threads of a context that exist (R225). -/
def State.liveThreads (s : State) (cid : Nat) : Nat :=
  (s.threads.filter fun p => p.1 / 65536 = cid && p.2.alive).length

/-- The thread limit of a context (R340). -/
def Ctx.threadLimit (c : Ctx) : Nat := wfld (c.word 16) 0 17

/-- A new thread (R45, R225): its registers, its first task, the version it starts with, and its privilege (R341). -/
def newThread (s : State) (cid num : Nat) (rank : Option Nat) (size gang : Nat) (binds : NMap W64) (r : Rec) (ver : Nat) : Thread :=
  let f := { (default : Frame) with b := binds }.startTask r
  { (default : Thread) with
    alive := true, cid := cid, num := num, rank := rank, gangSize := size, gang := gang
    priv := if (s.ctx cid).adminSlot r.slot then 1 else 0
    run := .waiting, scratchG := (s.images.get r.slot).scratchG
    live := f, committed := f, versions := [freshVersion ver r], idle := s.tick }

/-- Creates threads of a context, one per rank, and answers their keys (R225, R227): none for ranks for which no number is free (DESIGN CHOICE:
assumption log entry 80). -/
def createThreads (cid size gang : Nat) (isGang : Bool) (binds : NMap W64) (r : Rec) (base : Clock) : Nat → M (List Nat)
  | 0 => pure []
  | n + 1 => do
    let s ← get
    match s.freeNum cid 0 with
    | none => pure []
    | some num =>
      let rank := size - (n + 1)
      let (id, s) := s.newVerId
      let t := newThread s cid num (if isGang then some rank else none) (if isGang then size else 0) gang binds r id
      set (s.setThr (cid * 65536 + num) { t with base := base, know := [(0, base)] })
      let rest ← createThreads cid size gang isGang binds r base n
      pure ((cid * 65536 + num) :: rest)

/-- The room an image takes in the overlay (R235). -/
def State.imageRoom (s : State) (slot : Nat) : Nat := ((s.images.get slot).text.length + 511) / 512 * 512

/-- The image a thread needs: its task's, or that of the successor task it waits to be placed for (R235). -/
def Thread.wanted (t : Thread) : Nat := t.want.getD t.live.task.slot

/-- The image a waiting thread needs. -/
def State.wantedSlot (s : State) (key : Nat) : Nat := (s.thr key).wanted

/-- The images in use on a core by threads that a test selects: those of its resident and reserved threads' tasks (R235). -/
def State.imagesOf (s : State) (core : Nat) (p : Nat → Bool) : List Nat :=
  ((s.threads.filter fun e => p e.1 && e.2.alive && e.2.core = core && (e.2.placed || passBase ≤ e.1)).map fun e => e.2.wanted).eraseDups

/-- The images in use on a core. -/
def State.imagesInUse (s : State) (core : Nat) : List Nat := s.imagesOf core fun _ => true

/-- The overlay room that images take. -/
def State.roomOf (s : State) (l : List Nat) : Nat := l.foldl (fun n i => n + s.imageRoom i) 0

/-- The image of a slot fits beside others. -/
def State.fitsBeside (s : State) (used : List Nat) (slot : Nat) : Bool := used.contains slot || s.roomOf used + s.imageRoom slot ≤ 32768

/-- The image of a slot fits on a core beside those in use (R235). -/
def State.imageFits (s : State) (core slot : Nat) : Bool := s.fitsBeside (s.imagesInUse core) slot

/-- The image of a successor task fits on a thread's core beside those that the others there use (R235). -/
def State.successorFits (s : State) (key slot : Nat) : Bool := s.fitsBeside (s.imagesOf (s.thr key).core fun k => k ≠ key) slot

/-- The images of an overlay that stay when room is needed for one more: those out of use give way, the first first, as far as needed.
DESIGN CHOICE: assumption log entry 59. -/
def State.evictImages (s : State) (used : List Nat) (slot : Nat) : Nat → List Nat → List Nat
  | 0, l => l
  | fuel + 1, l =>
    if s.roomOf (l ++ [slot]) ≤ 32768 then l
    else match l.find? fun i => !used.contains i with
      | some i => State.evictImages s used slot fuel (l.filter (· ≠ i))
      | none => l

/-- Brings an image into the overlay of a core; images that are not among those used give way as room is needed (R235). -/
def State.loadBeside (s : State) (core : Nat) (used : List Nat) (slot : Nat) : State :=
  let c := s.cores.get core
  if c.overlay.contains slot then s
  else { s with cores := s.cores.put core { c with overlay := s.evictImages used slot c.overlay.length c.overlay ++ [slot] } }

/-- Brings an image into the overlay of a core beside those in use there (R235). -/
def State.loadOverlay (s : State) (core slot : Nat) : State := s.loadBeside core (s.imagesInUse core) slot

/-- Whether an entry pushes a register: a boundary waits for it whatever TRAILER says (R381). -/
def pushesReg : Instr → Bool
  | .vlwait _ _ => false
  | .vlset _ _ => false
  | .vawait _ _ => false
  | .vaset _ _ => false
  | .mdrainv _ _ _ _ => true
  | _ => false

/-- A queue has drained as far as a boundary waits for it (R234 step 1, R381). -/
def Thread.drained (t : Thread) (e : Eng) (all : Bool) : Bool :=
  let q := (t.queue e).entries
  let named := t.live.task.trailer.getLsbD (e.code - 1)
  if all || named then q.isEmpty
  else
    match e with
    | .vl => q.all fun x => match x.word with | .vlwait _ _ => true | .vlset _ _ => true | _ => false
    | .va => q.all fun x => match x.word with | .vawait _ _ => true | .vaset _ _ => true | _ => false
    | .mx => q.all fun x => !pushesReg x.word
    | _ => true

/-- Releases the handles of a task that has ended and binds those that MXFER passed on, which no commit has to save until they are written
again (R126, R128, R384); the restart point of the boundary that ended the task holds what is bound then (R381). -/
def Thread.releaseHandles (t : Thread) : Thread :=
  let pick := fun m => (t.promised.filterMap fun p => if p.1 = m then some (p.2.1, { p.2.2 with dirty := false }) else none).foldl
    (fun (a : NMap Slot) p => a.put p.1 p.2) []
  let u := { t with wb := pick 0, ab := pick 1, cb := pick 2, promised := [], handleTask := t.handleTask + 1 }
  { u with versions := u.versions.map fun v =>
      { v with landing := v.landing.map fun l =>
          if l.endTask = t.handleTask then { l with cb := u.cbImages, wb := u.wb.keys, ab := u.ab.keys, lent := u.lentAb, task := u.handleTask } else l } }

/-- The handles of every task that has ended, and has no MX entry left, are released, in the order of the tasks; a fuel bounds them (R126,
R234). -/
def Thread.releaseDue : Nat → Thread → Thread
  | 0, t => t
  | fuel + 1, t =>
    if t.handleTask < t.taskNo && (t.queue .mx).entries.all (fun x => t.handleTask < x.taskNo) then releaseDue fuel t.releaseHandles else t

/-- The handles of ended tasks are released when they can be, and claims find them free (R126, R261). -/
def State.releaseEnded (s : State) (key : Nat) : State :=
  let t := s.thr key
  let u := t.releaseDue (t.taskNo - t.handleTask)
  if u.handleTask = t.handleTask then s else (s.setThr key u).stirClaims t.core

/-- The frame a boundary commits: the word repeats the boundary from its step 6 (R234, R381). -/
def Frame.atBoundary (f : Frame) (succ : W64) : Frame := { f.clean with bnd := some succ }

/-- An outgoing version has landed: no entry of it remains, and every version before it has landed (R381). -/
def Thread.canLand (t : Thread) (v : Version) : Bool :=
  decide (t.versions.head?.map (·.id) = some v.id) &&
    engs.all fun e => (t.queue e).entries.all fun x => x.ver ≠ v.id

/-- The first outgoing version commits and its boundary becomes the restart point, when it can (R381). -/
def State.landFirst (s : State) (key : Nat) : State :=
  let t := s.thr key
  match t.versions with
  | v :: _ :: _ =>
    match v.landing with
    | some _ =>
      if !t.canLand v then s
      else if s.depsReady v then
        let s := ((s.commitCycle v).commitWrites key v.id).countEv t.cid 9 1
        s.updThr key fun t =>
          let l := ((t.ver v.id).landing).getD default
          { t with
            committed := l.frame, saved := l.cb, savedWb := l.wb, savedAb := l.ab, savedLent := l.lent, savedTask := l.task
            savedPromised := [], savedLines := l.lines
            outside := [], versions := t.versions.filter fun w => w.id ≠ v.id }
      else s.updThr key fun t => t.awaitDeps v.id none
    | none => s
  | _ => s

/-- What the accesses of an ending task order before those of the next (R158): those of the sequencer and of the paths that TRAILER names. -/
def Thread.taskClock (t : Thread) (key : Nat) : Clock :=
  let named := (engs.filter fun e => e ≠ .va && t.live.task.trailer.getLsbD (e.code - 1)).flatMap fun e =>
    if e = .mx then [e.path, drainPath] else [e.path]
  (0 :: named).foldl (fun c p => joinClk (t.clkOf key p) c) []

/-- Steps 1 to 3 of a task boundary (R234): the queues drain, the version commits or is left to land, the next one
begins, handles are released; at a thread's last boundary its dirty remote lines are written back first (R354). -/
def boundaryA (key : Nat) (succ : W64) : M Unit := do
  let s ← get
  let t := s.thr key
  let last := succ = 0#64
  if !(engs.all fun e => t.drained e last) then stall (.boundary 1)
  let t := t.bindMany t.liveTickets
  set (s.setThr key t)
  if t.versions.length > 1 && last then stall (.boundary 1)
  if last then
    writeBackLines key (fun _ => true)
    let s ← get
    if !s.allAcked key then waitOn .outside
  let s ← get
  let t := s.thr key
  let v := t.curVer
  if t.idleQueues && t.versions.length = 1 && !s.depsReady v then
    set (s.updThr key fun t => t.awaitDeps v.id none)
    waitOn .commit
  let (id, s) := s.newVerId
  let s := s.updThr key fun t =>
    let t := t.acquire (t.taskClock key)
    { t with
      live := { t.live with bnd := some succ }
      taskNo := t.taskNo + 1
      versions := (t.versions.map fun w => if w.id = v.id then
          { w with landing := some { (default : Landing) with frame := t.live.atBoundary succ, endTask := t.taskNo, lines := t.dirtyLines } }
        else w) ++ [freshVersion id t.live.task] }
  set ((s.releaseEnded key).landFirst key)

/-- A pre-emption is asked of a resident thread (R392). -/
def Thread.askStop (t : Thread) (tick : Nat) : Thread :=
  if t.alive && decide (t.run = .resident) && t.preemptReq.isNone then { t with preemptReq := some tick } else t

/-- The thread leaves its slot and asks to be placed again (R235, R392). A gang member takes the others along, and the gang is
placed again as one request once none of it runs (R230); its allotments stay where they are (R18). -/
def State.replace (s : State) (key : Nat) : State :=
  let s := (s.withdrawWaits key fun _ => true).leaveCore key fun t => { t.stopUnits with run := .waiting, preemptReq := none, wait := default }
  let keys := s.gangKeys key
  let s := keys.foldl (fun s k => s.updThr k fun t => t.askStop s.tick) s
  if keys.any fun k => decide ((s.thr k).run = .resident) then s
  else (keys.foldl (fun s k => (s.updThr k fun t => { t with slot := 0, placed := false }).stirClaims (s.thr k).core) s).askPlace keys

/-- Steps 6 and 7 of a task boundary (R234): the successor record is read and checked, and its task starts. -/
def boundaryB (key : Nat) (succ : W64) : M Unit := do
  let r ← readRecord key succ
  let s ← get
  let t := s.thr key
  if !s.successorFits key r.slot then set ((s.updThr key fun t => { t with want := some r.slot }).replace key)
  else
    let s := (s.loadBeside t.core (s.imagesOf t.core fun k => k ≠ key) r.slot).noteStarted key
    set (s.updThr key fun t =>
      { t with
        live := t.live.startTask r, want := none
        versions := t.versions.map fun w => if w.id = t.curVer.id then { w with task := r.addr, budget := r.budget } else w })

/-- A task boundary at a TEND or LOOP word (R234). What steps 1 to 5 have done stands when step 6 faults. In a pass slot
the word completes when every queue has, and the pass then ends (R282 step 5). Step 4 is a stop point (R237, R423). -/
def boundary (succ : Frame → M W64) (s : State) : Out :=
  let key := s.cur
  let finish (s : State) (a : W64) : Out :=
    let t := s.thr key
    if a = 0#64 then .next (s.retire key false)
    else if t.stopReq then
      .next ((s.updThr key fun t => { t with stopReq := false }).deliver key { mkTrap 16 t.live.pc 1 with pc := t.pcw })
    else if t.preemptReq.isSome then .next (s.replace key)
    else sqWord (fun key => boundaryB key a) s
  let t := s.thr key
  if !(t.alive && decide (t.run = .resident)) then .next s
  else if passBase ≤ key then
    if t.live.bnd.isSome then .next s
    else if t.idleQueues then .next (s.updThr key fun t => t.updLive fun f => { f with bnd := some 0#64 })
    else .next (s.wordWaits key (.boundary 1))
  else
    match t.live.bnd with
    | some a => finish s a
    | none =>
      match (do let a ← succ t.live; boundaryA key a; pure a : M W64) s with
      | .ok (a, s') => finish s' a
      | .error (.trap tr) => .next (s.takeTrap key (t.sTrap tr))
      | .error (.stall k) => .next (s.wordWaits key k)
      | .error (.wait k s') => .next (s'.wordWaits key k)
      | .error (.fault tr s') => .next (s'.takeTrap key (t.sTrap tr))

end Sys2Proof.Machine
end

