-- ==== Sys2Proof/Machine/ThreadCtl.lean ====
section
/-! DEFINITION. The THREAD group but TSUB: loops, tasks, spawning, groups, barriers, commit points (R227 to R236,
R245, R246, R253, R255). -/

namespace Sys2Proof.Machine

/-- A pre-emption point (R237): a thread that the Kiln wants off its slot leaves it, and one that a debugger wants
stopped takes STEP (R423). -/
def stopPoint (key : Nat) (pc : W64) : M Unit := do
  let s ← get
  let t := s.thr key
  if t.stopReq then
    set ((s.updThr key fun t => { t with stopReq := false }).deliver key { mkTrap 16 (pc.toNat % 32768) 1 with pc := pc })
  else if t.preemptReq.isSome then set (s.replace key)

/-- KNEXT (R232): one kernel iteration ends; the commit it may take is part of it (R379, R384). -/
def execKnext (s : State) : Out :=
  sqWord (fun key => do
    let s ← get
    let t := s.thr key
    let f := t.live
    if f.phase ≠ .kernel then illegal key
    let iter := f.iter + 1
    let v := t.curVer
    let commits := (f.task.commit ≠ 0#32 && iter.toNat % f.task.commit.toNat = 0) || v.use > s.budgetOf t.cid v
    let after := fun (g : Frame) =>
      if iter.toNat < g.task.trip.toNat then { g with iter := iter, pc := g.task.kerPc }
      else { g with iter := iter, phase := .epilogue, pc := g.task.epiPc }
    if commits then commitPoint key after
    modThr key fun t =>
      let t := t.updLive after
      t.updVer t.curVer.id fun w => { w with useKnext := 0 }
    stopPoint key t.pcw) s

/-- TEND (R233): the record's NEXT is the successor. -/
def execTend (s : State) : Out := boundary (fun f => pure f.task.next) s

/-- LOOP (R233): the value of xa is the successor; its taint is waited for. -/
def execLoop (xa : BitVec 5) (s : State) : Out :=
  boundary (fun f => do
    let s ← get
    settleSQ s.cur [f.rx xa]
    pure (f.rx xa).val) s

/-- Everything pushed before a release at context scope has been performed (R163, R246); the kind names the wait for entries. -/
def releaseAll (key : Nat) (k : WaitKind) : M Unit := do
  let t ← getThr key
  if !t.idleQueues then stall k
  modThr key fun t => t.bindMany t.liveTickets
  releaseCtx key

/-- SPAWN (R227, R228): new threads begin at a record; the release is at context scope, so that dirty remote lines are written back, and their
placement request leaves once every entry pushed before has completed and what was posted has been acknowledged (R163, R184). -/
def execSpawn (xa xb : BitVec 5) (n : BitVec 10) (s : State) : Out :=
  sqWord (fun key => do
    let t ← getThr key
    let a := t.rx xa
    let b := t.rx xb
    settleSQ key [a, b]
    let r ← readRecord key a.val
    let s ← get
    let size := if n = 0#10 then 1 else n.toNat
    if s.liveThreads t.cid + size > (s.ctx t.cid).threadLimit then raise (mkTrap 5 a.val.toNat 1)
    writeBackLines key (fun _ => true)
    publish key t.curVer.id
    let s ← get
    let t := s.thr key
    let gang := if n = 0#10 then 0 else s.gangNext + 1
    set { s with gangNext := s.gangNext + 1 }
    let keys ← createThreads t.cid size gang (n ≠ 0#10) (t.live.b.put 15 b.val) r (t.clkAll key ownPaths) size
    modify fun s =>
      { s with places := s.places ++ [{ (default : PlaceReq) with
          keys := keys, since := s.tick, after := some (key, engs.map fun e => (t.queue e).pushed), acks := s.pktNext }] }
    advance key) s

/-- The number of a group of the current thread's context. -/
def Thread.groupOf (t : Thread) (g : Nat) : Nat := t.cid * 256 + g

/-- A group of a context. -/
def State.group (s : State) (owner : Nat) : Group := (s.ctx (owner / 256)).groups.get (owner % 256)

/-- JOIN (R245): the thread becomes a member that has not arrived; ILLEGAL when it is one already. -/
def execJoin (g : BitVec 8) (s : State) : Out :=
  sqWord (fun key => do
    let s ← get
    let t := s.thr key
    let o := t.groupOf g.toNat
    if (s.group o).members.has t.num then illegal key
    set (s.updGroup o fun gr => { gr with members := gr.members.put t.num false })
    advance key) s

/-- LEAVE (R245): the thread stops being a member, and the arrival check is made. -/
def execLeave (g : BitVec 8) (s : State) : Out :=
  sqWord (fun key => do
    let s ← get
    let t := s.thr key
    let o := t.groupOf g.toNat
    if !(s.group o).members.has t.num then illegal key
    set ((s.leaveGroup o t.num).updThr key fun t =>
      t.updLive fun f => { f with gsel := if f.gsel = some g then none else f.gsel }.next)) s

/-- GSEL (R245): selects a group the thread belongs to, or none. -/
def execGsel (g : BitVec 10) (s : State) : Out :=
  sqWord (fun key => do
    let s ← get
    let t := s.thr key
    if g = 0x3FF#10 then modThr key fun t => t.updLive fun f => { f with gsel := none }.next
    else
      if !(s.group (t.groupOf g.toNat)).members.has t.num then illegal key
      modThr key fun t => t.updLive fun f => { f with gsel := some (BitVec.ofNat 8 g.toNat) }.next) s

/-- The state of a group as GQRY reports it (R245). -/
def Group.query (g : Group) (num : Nat) : W64 :=
  BitVec.ofNat 64 (g.members.length + (if g.members.has num then 131072 else 0) +
    (if g.members.any (·.2) then 262144 else 0) + g.gen.toNat % 4294967296 * 4294967296)

/-- GQRY (R245). -/
def execGqry (xd : BitVec 5) (g : BitVec 8) (s : State) : Out :=
  sqWord (fun key => do
    let s ← get
    let t := s.thr key
    let q := (s.group (t.groupOf g.toNat)).query t.num
    modThr key fun t => t.updLive fun f => (f.wx xd (plain q)).next) s

/-- BAR (R246): arrives at the group's generation and waits for it to complete. Arrival releases and publishes,
completion acquires and publishes (R164, R166, R386): no line is dirty by then, and every line is invalid after. For the wait log, its wait begins
with that for its own entries when it has to wait for the group too, and at its completion when not (R251; DESIGN CHOICE: assumption log entry 81). -/
def execBar (g : BitVec 8) (s : State) : Out :=
  sqWord (fun key => do
    let s ← get
    let t := s.thr key
    let o := t.groupOf g.toNat
    match t.wait.kind with
    | .bar gen =>
      let gr := s.group o
      if gr.gen.toNat ≤ gen.toNat then stall (.bar gen)
      publishAs (.bar gen) key t.curVer.id
      dropLines key (fun _ => true)
      modThr key fun t => t.acquire gr.doneClk
      modify fun s => s.logWait key 0 g.toNat (gen.toNat % 4294967296) 1 65535 t.wait.since
        { code := 11, thread := gr.doneArr, endpoint := 0#32 }
      advance key
    | _ =>
      if !(s.group o).members.has t.num then illegal key
      releaseAll key .barIn
      publish key t.curVer.id
      let s ← get
      let t := s.thr key
      let gen := (s.group o).gen
      let s := s.updGroup o fun gr =>
        { gr with members := gr.members.put t.num true, barClk := joinClk (t.clkAll key ownPaths) gr.barClk, lastArr := t.num }
      let s := s.groupCheck o
      set s
      let gr := s.group o
      if gen.toNat < gr.gen.toNat then
        dropLines key (fun _ => true)
        modThr key fun t => t.acquire gr.doneClk
        modify fun s => s.logWait key 0 g.toNat (gen.toNat % 4294967296) 1 65535 s.tick
          { code := 11, thread := gr.doneArr, endpoint := 0#32 }
        advance key
      else waitOn (.bar gen)) s

/-- A placement request may leave: its spawner's earlier entries have completed, and what they posted has been answered (R228); and no freeze or
migration holds its threads (R402, R412). -/
def State.mayLeave (s : State) (p : PlaceReq) : Bool :=
  (p.keys.all fun k => !(s.thr k).frozen && !(s.ctx (s.thr k).cid).awaitEnd) &&
    match p.after with
    | none => true
    | some (k, pushed) =>
      !(s.thr k).alive || (((engs.zip pushed).all fun e => decide (e.2 ≤ ((s.thr k).queue e.1).head)) &&
        !s.outbox.any fun x => decide (x.key = k) && decide (x.id < p.acks) && !(s.thr k).prefs.contains x.id)

/-- CKPT (R236): a commit point at once. -/
def execCkpt (s : State) : Out :=
  sqWord (fun key => do
    commitPoint key Frame.next
    advance key) s

/-- MOVB (R255). -/
def execMovb (xd : BitVec 5) (n : BitVec 4) (s : State) : Out :=
  scWord xd (fun f => plain (f.b.get n.toNat)) s

end Sys2Proof.Machine
end

