-- ==== Sys2Proof/Machine/FlagCtl.lean ====
section
/-! DEFINITION. The FLAG group, WAITC and the TAINT group (R248 to R254). -/

namespace Sys2Proof.Machine

/-- Who a set of a flag is, for the wait log (R251). -/
def Thread.setter (t : Thread) (code : Nat) : Setter := { code := code, thread := t.num, endpoint := 0#32 }

/-- A wait of the sequencer on a flag: it acquires what the flag releases; one on a group flag, or on one that a CPSIG or a pass has set, does so at
context scope, and one on a group flag publishes (R164, R166, R184, R250, R386). -/
def seqWait (key : Nat) (f : BitVec 8) (n : Nat) : M Unit := do
  let r ← wordFlag key f
  let s ← get
  if s.wideFlag r && s.flagReady key 0 0 r n then acquireCtx key
  let clk ← waitFlag key 0 0 (s.thr key).curVer.id r n
  modThr key fun t => t.acquire clk
  advance key

/-- WAITF (R250). -/
def execWaitf (f : BitVec 8) (n : BitVec 9) (s : State) : Out := sqWord (fun key => seqWait key f n.toNat) s

/-- WAITFX (R250): the count is the low 32 bits of x, once its value is present. -/
def execWaitfx (f : BitVec 8) (x : BitVec 5) (s : State) : Out :=
  sqWord (fun key => do
    let t ← getThr key
    let c := t.rx x
    bindTickets key c.taint
    seqWait key f (c.val.toNat % 4294967296)) s

/-- SETF (R250): waits for control taint, adds, and releases the sequencer's accesses; a group flag publishes
(R166, R173, R386). -/
def execSetf (f : BitVec 8) (n : BitVec 9) (s : State) : Out :=
  sqWord (fun key => do
    let r ← wordFlag key f
    settleWrite key []
    if r.group then
      releaseCtx key
      publish key (s.thr key).curVer.id
    let t ← getThr key
    modify fun s => s.addFlag r n.toNat (joinClk t.base (t.clkOf key 0)) (t.setter 1) (some t.curVer.id)
    advance key) s

/-- CLRF (R250). -/
def execClrf (f : BitVec 8) (s : State) : Out :=
  sqWord (fun key => do
    let r ← wordFlag key f
    modify fun s => s.setFlagVal r 0#32
    modify fun s =>
      if r.group then s.updGroup r.owner fun g => { g with setters := g.setters.erase r.idx }
      else s.updThr r.owner fun t => { t with setters := t.setters.erase r.idx }
    advance key) s

/-- FREAD (R250): the flag's value with empty taint. -/
def execFread (f : BitVec 8) (xd : BitVec 5) (s : State) : Out :=
  sqWord (fun key => do
    let r ← wordFlag key f
    let s ← get
    let v := s.flagVal r
    modThr key fun t => t.updLive fun fr => (fr.wx xd (plain (v.setWidth 64))).next) s

/-- The members of a class of WAITC that have not completed, by their places, newest first (R252). -/
def Thread.waitcOpen (t : Thread) (e : Eng) : List Nat := ((t.queue e).entries.map fun x => 2 * x.ser + 1).reverse

/-- A class of WAITC is within its limit: every member has completed but the most recently pushed ones, as many as the field says; 31 places no
limit (R156, R252). -/
def Thread.within31 (t : Thread) (cls : Nat) (e : Eng) (limit : BitVec 5) : Bool :=
  limit = 31#5 || (t.waitcOpen e).all fun o =>
    decide (((t.waitcOpen e).filter fun x => o < x).length + ((t.hist.get cls).recent.filter fun x => o < x.1).length < limit.toNat)

/-- What the completed members of a class of WAITC have accessed, but the most recently pushed ones, as many as the field says (R156). -/
def Thread.waitcClk (t : Thread) (cls : Nat) (e : Eng) (limit : BitVec 5) : Clock :=
  if limit = 31#5 then []
  else
    let h := t.hist.get cls
    (h.recent.drop (limit.toNat - (t.waitcOpen e).length)).foldl (fun c x => joinClk x.2 c) h.older

/-- WAITC (R156, R252): loads still holding tickets bind; of each class named, all have completed but the most recent ones that its field leaves out,
and what they have accessed comes before every word issued after. The sequencer's own loads have been performed, and bind. DEDUCED: assumption log
entry 77. -/
def execWaitc (l st c ti : BitVec 5) (s : State) : Out :=
  sqWord (fun key => do
    let t ← getThr key
    if !(t.within31 0 .vl l && t.within31 1 .vs st && t.within31 2 .cp c && t.within31 3 .mx ti) then stall .waitc
    if l ≠ 31#5 then modThr key fun t => t.bindMany t.sqTickets
    let t ← getThr key
    let clk := joinClk (t.waitcClk 0 .vl l) (joinClk (t.waitcClk 1 .vs st) (joinClk (t.waitcClk 2 .cp c) (t.waitcClk 3 .mx ti)))
    modThr key fun _ => (t.acquire clk).updLive Frame.next) s

/-- TCLR (R254). -/
def execTclr (x : BitVec 5) (s : State) : Out :=
  sqWord (fun key => modThr key fun t => t.updLive fun f => (f.wx x (plain (f.rx x).val)).next) s

/-- TCLRV (R174, R254): clears the taint of every entry of v; entries owed to it by VL words already pushed carry no
operand taint when they arrive. -/
def execTclrv (v : BitVec 6) (s : State) : Out :=
  sqWord (fun key => modThr key fun t =>
    let t := t.updLive fun f =>
      f.updV v.toNat fun r => { r with fifo := r.fifo.map fun e => { e with taint := 0#16, sat := false, after := [] } }
    { t with clearV := t.clearV.put v.toNat t.serial }.updLive Frame.next) s

/-- TCLRC (R254). -/
def execTclrc (s : State) : Out :=
  sqWord (fun key => modThr key fun t => t.updLive fun f => { f with ctaint := 0#16, csat := false }.next) s

/-- TQRY (R254): the taint and saturation of a register. -/
def execTqry (xd xa : BitVec 5) (s : State) : Out :=
  scWord xd (fun f => plain (BitVec.ofNat 64 ((f.rx xa).taint.toNat + if (f.rx xa).sat then 65536 else 0))) s

end Sys2Proof.Machine
end

