-- ==== Sys2Proof/Machine/ScalarMem.lean ====
section
/-! DEFINITION. SM words: scalar loads and stores, atomics, fences, prefetch, remote-line maintenance (R155, R192 to
R199). -/

namespace Sys2Proof.Machine

/-- A free ticket of a thread (R167). -/
def Thread.freeTicket (t : Thread) : Option Nat := (countFrom 0 16).find? fun k => !(t.tickets.get k).live

/-- Takes a ticket; a word that finds none free waits, and the oldest loads bind meanwhile (R167).
DEDUCED: assumption log entry 11. -/
def takeTicket (key : Nat) (sq : Bool) : M Nat := do
  let t ← getThr key
  match t.freeTicket with
  | none => stall .ticket
  | some k =>
    modThr key fun t => { t with tickets := t.tickets.put k { live := true, sq := sq, acq := [] } }
    pure k

/-- An agent lies within a scope of an access by another: for a scratch, every agent that reaches it lies within cluster scope and wider
(R160, R161). -/
def Agent.reaches (a b : Agent) (scope : Nat) (sp : Space) : Bool :=
  a.within b scope || (decide (3 ≤ scope) && match sp with | .scratch _ => true | _ => false)

/-- The releases whose values a read of bytes sees: those that no write has overwritten. -/
def State.relsAt (s : State) (sp : Space) (host : Bool) (a n : Nat) : List RelRec :=
  s.rels.filter fun x => x.hid.isEmpty && decide (x.space = sp) && decide (x.host = host) && overlaps x.addr x.len a n

/-- What the releases whose values a read of bytes sees release to an agent (R165): those in whose scope the reader lies,
and the releasing agent within the read's scope. -/
def relsOf (s : State) (me : Agent) (scope : Nat) (sp : Space) (host : Bool) (a n : Nat) : Clock :=
  (s.relsAt sp host a n).foldl (fun c x =>
    if x.by_.reaches me x.scope sp && me.reaches x.by_ scope sp then joinClk x.clk c else c) []

/-- The space and address of a piece for the record of releases; what lies behind a remote window is seen to where it is performed (R185). -/
def Piece.relAt (p : Piece) (key : Nat) : Option (Space × Bool × Nat) :=
  match p.tgt with
  | .remote _ => none
  | .host => some (.hbm, true, p.addr)
  | _ => (p.space key).map fun sp => (sp, false, p.addr)

/-- What the releases that reads of pieces see release to a thread (R165). -/
def relsOfPieces (s : State) (key scope : Nat) (ps : List Piece) : Clock :=
  ps.foldl (fun c p => match p.relAt key with
    | some (sp, h, a) => joinClk (relsOf s (s.agent key) scope sp h a p.len) c
    | none => c) []

/-- An access order acquires, or releases (R150). -/
def acquires (o : Order) : Bool := o = .acq || o = .ar

/-- An access order releases (R150). -/
def releases (o : Order) : Bool := o = .rel || o = .ar

/-- The waits of a release at a scope: at context scope or wider the dirty remote lines are written back and every
posted write acknowledged (R163, R184); at die scope or wider the version is published (R386). -/
def beforeRelease (key scope : Nat) : M Unit := do
  if scope ≥ 6 then releaseCtx key
  if scope ≥ 4 then
    let t ← getThr key
    publish key t.curVer.id

/-- A releasing write at die scope or wider belongs to the part of the version that the release publishes (R386). -/
def afterRelease (key scope : Nat) : M Unit := do
  if scope ≥ 4 then
    modify fun s => s.commitWrites key (s.thr key).curVer.id

/-- What an acquire at context scope or wider does first: dirty lines back, then every line invalid (R164). -/
def beforeAcquire (key scope : Nat) : M Unit := do
  if scope ≥ 6 then acquireCtx key

/-- The request of a sequencer access. -/
def smReq (s : State) (key : Nat) (marked : Bool) (scope : Nat) : Req :=
  { sqReq s key with marked := marked, scope := scope }

/-- Aligned to a size, or ALIGN (R193, R194). -/
def aligned (a n : Nat) : M Unit := if a % n = 0 then pure () else raise (mkTrap 3 a 0)

/-- A class of WAITC remembers a member that completes, 0 loads, 1 stores, 2 copies, 3 tile operations: the last 31 by themselves, as many as a
field of WAITC can leave out (R156, R252). -/
def Hist.add (h : Hist) (at_ : Nat) (clk : Clock) : Hist :=
  let l := (h.recent.takeWhile fun x => at_ < x.1) ++ (at_, clk) :: h.recent.dropWhile fun x => at_ < x.1
  { recent := l.take 31, older := (l.drop 31).foldl (fun c x => joinClk x.2 c) h.older }

/-- A thread remembers a completed member of a class of WAITC. -/
def Thread.remember (t : Thread) (cls at_ : Nat) (clk : Clock) : Thread := { t with hist := t.hist.put cls ((t.hist.get cls).add at_ clk) }

/-- A word of the sequencer has made its access: it is a member of its classes of WAITC that has completed (R156, R252). -/
def noteWord (key : Nat) (classes : List Nat) : M Unit :=
  modThr key fun t => classes.foldl (fun t c => t.remember c (2 * t.serial) (t.clkOf key 0)) t

/-- A marked access through a remote window: sent once, with the scopes at which it releases and acquires, and waited for until its reply has
come; answers the old value and what the access acquires. A reply that the block is POISON raises MEMERR (R72, R185). -/
def remoteMarked (key va w off : Nat) (rel acq : Option Nat) (op : MarkedOp) : M (W64 × Clock) := do
  let t ← getThr key
  match t.sqPkt with
  | some (id, none) =>
    if t.replies.has id then
      let r := t.replies.get id
      modThr key fun t => { t with sqPkt := none, replies := t.replies.erase id }
      if r.poison then raise (mkTrap 19 va 0)
      pure (r.data.setWidth 64, r.acq)
    else stall .outside
  | _ =>
    modThr key fun t => t.leaveRdPkt 0
    publish key t.curVer.id
    forEach [lineKey w (off / 64)] (writeBackLine key)
    let id ← sendPacket key 0 w rel acq (.marked off op)
    modThr key fun t => { t with sqPkt := some (id, none) }
    waitOn .outside

/-- The remote window a sequencer access lies in. -/
def remoteOf (ps : List Piece) : Option (Nat × Nat) :=
  match ps with
  | [p] => match p.tgt with | .remote w => some (w, p.addr) | _ => none
  | _ => none

/-- Remembers what a releasing write releases at its location (R165). -/
def noteRelease (key scope : Nat) (ps : List Piece) (clk : Clock) : M Unit :=
  modify fun s => { s with rels := (ps.filterMap fun p => (p.relAt key).map fun r =>
    ({ space := r.1, host := r.2.1, addr := r.2.2, len := p.len, by_ := s.agent key, scope := scope, clk := clk
       ver := s.liveVer key (s.thr key).curVer.id } : RelRec)) ++ s.rels }

/-- The effects of a read on order, given what it acquires: an acquire learns that at once, any load through its ticket, with itself (R164,
R165, R176). -/
def noteAcquire (key : Nat) (acq : Bool) (ticket : Option Nat) (clk : Clock) : M Unit := do
  if acq then modThr key fun t => t.learn [0] clk
  match ticket with
  | some k => modThr key fun t => { t with tickets := t.tickets.put k { (t.tickets.get k) with acq := joinClk clk (t.clkOf key 0) } }
  | none => pure ()

/-- A load of the sequencer (R192, R193): the value, extended, with the address taint and the load's ticket. -/
def loadWord (size : Size) (xd xa : BitVec 5) (imm : W64) (signed marked : Bool) (scope : Nat) (acq : Bool) (s : State) : Out :=
  sqWord (fun key => do
    let t ← getThr key
    let a := t.rx xa
    let ea := (a.val + imm).toNat
    let n := sizeBytes size
    settleSQ key [a]
    if marked then aligned ea n
    if acq then beforeAcquire key scope
    let s ← get
    let r := smReq s key marked scope
    let ps ← access r true false [(ea, n)]
    for p in ps do peerWatch r true false p
    let (v, clk) ← match remoteOf ps, marked with
      | some (w, off), true => do
        let v ← remoteMarked key ea w off none (some scope) (.load size)
        pure (v.1.toNat, v.2)
      | _, _ => do
        let l ← readPieces r ps
        let s ← get
        pure (leNat l, if marked then relsOfPieces s key scope ps else [])
    let tk ← takeTicket key true
    noteAcquire key acq (some tk) clk
    noteWord key [0]
    let v := if signed then sextBytes n (v % 2 ^ (8 * n)) else BitVec.ofNat 64 (v % 2 ^ (8 * n))
    modThr key fun t => t.updLive fun f =>
      (f.wx xd { val := v, taint := (unionTaint [t.rx xa]) ||| (1#16 <<< tk), sat := a.sat }).next) s

/-- A store of the sequencer (R192, R193): waits for the taint of data, address and control (R169). -/
def storeWord (size : Size) (xs xa : BitVec 5) (imm : W64) (marked : Bool) (scope : Nat) (rel : Bool) (s : State) : Out :=
  sqWord (fun key => do
    let t ← getThr key
    let a := t.rx xa
    let d := t.rx xs
    let ea := (a.val + imm).toNat
    let n := sizeBytes size
    settleWrite key [a, d]
    if marked then aligned ea n
    if rel then beforeRelease key scope
    let s ← get
    let r := smReq s key marked scope
    let ps ← access r false true [(ea, n)]
    match remoteOf ps, marked with
    | some (w, off), true => do
      let _ ← remoteMarked key ea w off (if rel then some scope else none) none (.store size d.val)
    | _, _ => writePieces r ps (natLE n d.val.toNat)
    noteWord key [1]
    if rel then
      let t ← getThr key
      noteRelease key scope ps (t.clkOf key 0)
      afterRelease key scope
    advance key) s

/-- LD (R192). -/
def execLd (size : Size) (xd xa : BitVec 5) (imm : BitVec 13) (s : State) : Out :=
  loadWord size xd xa (sx64 imm) true false 0 false s

/-- LDU (R192). -/
def execLdu (size : Size) (xd xa : BitVec 5) (imm : BitVec 13) (s : State) : Out :=
  loadWord size xd xa (sx64 imm) false false 0 false s

/-- ST (R192). -/
def execSt (size : Size) (xs xa : BitVec 5) (imm : BitVec 13) (s : State) : Out :=
  storeWord size xs xa (sx64 imm) false 0 false s

/-- LDS (R193). -/
def execLds (size : Size) (xd xa : BitVec 5) (scope : Scope) (order : Order) (s : State) : Out :=
  loadWord size xd xa 0#64 true true scope.code (acquires order) s

/-- STS (R193). -/
def execSts (size : Size) (xs xa : BitVec 5) (scope : Scope) (order : Order) (s : State) : Out :=
  storeWord size xs xa 0#64 true scope.code (releases order) s

/-- The signed value of the n low bytes of a number. -/
def signedOf (n v : Nat) : Int := if v / 2 ^ (8 * n - 1) % 2 = 1 then (v : Int) - 2 ^ (8 * n) else v

/-- The result of an atomic operation on n-byte values (R194). -/
def atomOp (op : AOp) (n old b : Nat) : Nat :=
  match op with
  | .add => (old + b) % 2 ^ (8 * n)
  | .and => old &&& b
  | .or => old ||| b
  | .xor => old ^^^ b
  | .min => if signedOf n old ≤ signedOf n b then old else b
  | .max => if signedOf n old ≤ signedOf n b then b else old
  | .minu => Nat.min old b
  | .maxu => Nat.max old b
  | .swap => b
  | .incw => if old ≥ b then 0 else old + 1
  | .decw => if old = 0 ∨ old > b then b else old - 1

/-- The operations that a PCI Express completer takes: FetchAdd, Swap and CAS (R196). -/
def hostAtomic (op : Option AOp) : Bool := op = none || op = some .add || op = some .swap

/-- An atomic or compare-and-swap (R194 to R196). With no operation it is a CAS, whose compare value is xd: its faults are
those of a write, and one whose comparison fails is in every other respect a marked read. It keeps the releases that it reads at their
location, and adds its own (R165). A completer that refuses AtomicOps raises MEMERR, with xd as it was.
DEDUCED: assumption log entry 65. -/
def atomWord (size : Size) (xd xa xb : BitVec 5) (op : Option AOp) (scope : Nat) (order : Order) (s : State) : Out :=
  sqWord (fun key => do
    let t ← getThr key
    let a := t.rx xa
    let b := t.rx xb
    let c := t.rx xd
    let n := sizeBytes size
    let m := 2 ^ (8 * n)
    let srcs := if op.isNone then [a, b, c] else [a, b]
    settleWrite key srcs
    aligned a.val.toNat n
    if releases order then beforeRelease key scope
    if acquires order then beforeAcquire key scope
    let s ← get
    let r := smReq s key true scope
    let pre ← match resolve s key t.cid true true r.reach [(a.val.toNat, n)] with
      | .ok p => pure p
      | .error e => raise (pageOfWrite true e)
    if (pre.any fun p => p.tgt = .host) && !hostAtomic op then raise (mkTrap 5 a.val.toNat 0)
    let refused := fun (p : Piece) => decide (p.tgt = .host) && s.refusers.any fun x => overlaps x.1 x.2 p.addr p.len
    let wr := op.isSome || pre.any fun p =>
      match p.space key with
      | some sp => leNat ((s.space sp).bytes p.addr p.len) = c.val.toNat % m
      | none => true
    let ps ← access r true wr [(a.val.toNat, n)]
    if ps.any refused then raise (mkTrap 19 a.val.toNat 0)
    for p in ps do peerWatch r true wr p
    if releases order && scope ≥ 4 then publish key t.curVer.id
    let s ← get
    let kept := ps.flatMap fun p => match p.relAt key with | some (sp, h, ad) => s.relsAt sp h ad p.len | none => []
    let new := fun (old : Nat) => match op with
      | some o => some (atomOp o n old (b.val.toNat % m))
      | none => if old = c.val.toNat % m then some (b.val.toNat % m) else none
    let (old, clk) ← match remoteOf ps with
      | some (w, off) => do
        let v ← remoteMarked key a.val.toNat w off (if releases order then some scope else none) (some scope) (match op with
          | some o => .atom size o b.val
          | none => .cas size c.val b.val)
        pure (v.1.toNat % m, v.2)
      | none => do
        let clk := relsOfPieces s key scope ps
        let l ← readPieces r ps
        let old := leNat l
        match new old with
        | some v =>
          forEach (shareBytes ps (natLE n v)) fun p => putPiece r p.1 p.2
          modify fun s => { s with rels := (kept.map fun x => { x with ver := s.liveVer key r.ver, hid := [] }) ++ s.rels }
        | none => pure ()
        pure (old, clk)
    let tk ← if xd = 0#5 then pure none else do
      let k ← takeTicket key true
      pure (some k)
    noteAcquire key (acquires order) tk clk
    noteWord key [0, 1]
    let t ← getThr key
    if releases order && (new old).isSome then
      noteRelease key scope ps (t.clkOf key 0)
      afterRelease key scope
    modThr key fun t => t.updLive fun f =>
      (f.wx xd { val := sextBytes n old,
                 taint := (unionTaint [t.rx xa, t.rx xb]) ||| (match tk with | some k => 1#16 <<< k | none => 0#16),
                 sat := orSat srcs }).next) s

/-- ATOMW (R194). -/
def execAtomw (xd xa xb : BitVec 5) (op : AOp) (scope : Scope) (order : Order) (s : State) : Out :=
  atomWord .w xd xa xb (some op) scope.code order s

/-- ATOMD (R194). -/
def execAtomd (xd xa xb : BitVec 5) (op : AOp) (scope : Scope) (order : Order) (s : State) : Out :=
  atomWord .d xd xa xb (some op) scope.code order s

/-- CASW (R195). -/
def execCasw (xd xa xb : BitVec 5) (scope : Scope) (order : Order) (s : State) : Out :=
  atomWord .w xd xa xb none scope.code order s

/-- CASD (R195). -/
def execCasd (xd xa xb : BitVec 5) (scope : Scope) (order : Order) (s : State) : Out :=
  atomWord .d xd xa xb none scope.code order s

/-- The paths of a mask that a queue or the sequencer carries (R151). -/
def maskPaths (m : BitVec 8) : List Nat := (countFrom 0 5).filter fun p => m.getLsbD p

/-- The paths on which an entry of an engine makes accesses, or waits behind a FENCE; MDRAIN writes on the CP path, and reads nothing on the
MX path (R151). -/
def entryPaths (e : Eng) : Instr → List Nat
  | .mdrain _ _ _ _ _ => [3, 4]
  | _ => [e.path]

/-- The paths on which an entry makes accesses: none for a token or a VA entry, and for an MX entry only those that load or drain (R151). -/
def accessPaths (e : Eng) : Instr → List Nat
  | .mdrain _ _ _ _ _ => [4]
  | .mldw _ _ _ => [3]
  | .mlda _ _ _ _ => [3]
  | .vlwait _ _ => []
  | .vlset _ _ => []
  | .vswait _ _ => []
  | .vsset _ _ => []
  | .cpwait _ _ => []
  | .cpset _ _ => []
  | _ => if e = .va || e = .mx then [] else [e.path]

/-- Every access on the paths of a mask made before now has been performed (R155).
DEDUCED: assumption log entry 16. -/
def Thread.maskDone (t : Thread) (m : BitVec 8) : Bool :=
  !engs.any fun e => (t.queue e).entries.any fun x => (accessPaths e x.word).any fun p => m.getLsbD p

/-- What has been accessed so far on the paths of a mask. -/
def Thread.maskClk (t : Thread) (key : Nat) (m : BitVec 8) : Clock :=
  ((countFrom 0 8).filter fun p => m.getLsbD p).foldl (fun c p => joinClk (t.clkOf key p) c) []

/-- A FENCE takes effect at its word: what came before on the A paths comes before the sequencer's later accesses, when SQ is in mask B, and before
the entries pushed from now on to the B queues: at once, when no earlier entry waits there and the FENCE holds none, and otherwise when one
comes to start (R155). -/
def Thread.fenced (t : Thread) (key : Nat) (ma mb : BitVec 8) (ack now : Bool) : Thread :=
  let clk := t.maskClk key ma
  let u := if mb.getLsbD 0 then t.learn [0] clk else t
  let later := (maskPaths mb).filter fun p => p ≠ 0
  if now && engs.all fun e => (t.queue e).entries.all fun x => !(entryPaths e x.word).any fun p => later.contains p then u.learn later clk
  else { u with fences := u.fences ++ [{ ser := t.serial, ma := ma, mb := mb, ack := ack, inv := false, clk := clk }] }

/-- FENCE (R155, R184, R197): with SQ in mask B, or only accesses of others there, the sequencer waits; otherwise the later
entries of the B queues wait. At context scope or wider it performs the remote-window actions; while earlier VL entries are queued, which may
fill lines yet, the lines are invalidated again before the next VL entry behind it. -/
def execFence (ma mb : BitVec 8) (scope : Scope) (s : State) : Out :=
  sqWord (fun key => do
    let t ← getThr key
    if scope.code ≥ 6 && ma.getLsbD 0 then writeBackLines key (fun _ => true)
    let waits := mb.getLsbD 0 || maskPaths mb = []
    if waits then
      if !t.maskDone ma then stall .fence
      let s ← get
      if scope.code ≥ 6 && !s.allAcked key then waitOn .fence
    let t ← getThr key
    let s ← get
    let ack := decide (scope.code ≥ 6) && !s.allAcked key
    let t := t.fenced key ma mb (!waits && ack) (waits || (t.maskDone ma && !ack))
    let late := decide (scope.code ≥ 6) && mb.getLsbD 1 && !(t.queue .vl).entries.isEmpty
    modThr key fun _ =>
      if late then { t with fences := t.fences ++ [{ ser := t.serial, ma := 0#8, mb := 2#8, ack := false, inv := true }] } else t
    if scope.code ≥ 6 && (mb.getLsbD 0 || mb.getLsbD 1) then
      writeBackLines key (fun _ => true)
      dropLines key (fun _ => true)
    advance key) s

/-- The remote line that a prefetch of an address would fill: a byte that the thread may read through a window, whose line is neither held
nor asked for (R184, R188, R198). -/
def State.prefLine (s : State) (key ea : Nat) : Option (Nat × Nat) :=
  let t := s.thr key
  match resolve s key t.cid true false Reach.all [(ea, 1)] with
  | .ok [p] =>
    match p.tgt with
    | .remote w =>
      let k := lineKey w (p.addr / 64)
      if (t.lines.get k).valid || s.outbox.any (fun x => decide (x.key = key) && decide (x.lineKey = k) && t.prefs.contains x.id) then none
      else some (w, p.addr / 64 * 64)
    | _ => none
  | _ => none

/-- PREF (R22, R198): into the remote line cache the line of a remote window is asked for, and the word goes on; into the L1 or the MSC, which
hold nothing that a program could tell from memory, and for any other address, nothing is done. -/
def execPref (tgt : PrefTarget) (xa : BitVec 5) (imm : BitVec 13) (s : State) : Out :=
  sqWord (fun key => do
    let s ← get
    let ea := (((s.thr key).rx xa).val + sx64 imm).toNat
    match tgt, s.prefLine key ea with
    | .rlc, some (w, off) =>
      match (do makeRoom key; sendPacket key 0 w none none (.lineRead off) : M Nat) s with
      | .ok (id, s') => set (s'.updThr key fun t => { t with prefs := t.prefs ++ [id] })
      | .error _ => pure ()
    | _, _ => pure ()
    advance key) s

/-- RCM (R199): maintains the lines of one window over a byte range. -/
def execRcm (op : RcmOp) (xb xa : BitVec 5) (s : State) : Out :=
  sqWord (fun key => do
    let t ← getThr key
    let a := t.rx xa
    let b := t.rx xb
    settleSQ key [a, b]
    let n := b.val.toNat
    if n ≠ 0 then
      let s ← get
      match classify s key a.val.toNat, classify s key ((a.val.toNat + n - 1) % two64) with
      | .ok (some (.remote w, o)), .ok (some (.remote w', o')) =>
        if w ≠ w' || o' < o || n > 2097152 then raise (mkTrap 5 a.val.toNat 0)
        let inRange := fun k => k / 32768 = w && o / 64 ≤ k % 32768 && k % 32768 ≤ o' / 64
        match op with
        | .wb => writeBackLines key inRange
        | .inv => dropLines key inRange
        | .wbinv =>
          writeBackLines key inRange
          dropLines key inRange
        let s ← get
        if op ≠ .inv && (s.outbox.any fun p => decide (p.key = key) && decide (p.win = w)) then waitOn .outside
      | _, _ => raise (mkTrap 5 a.val.toNat 0)
    advance key) s

end Sys2Proof.Machine
end

