-- ==== Sys2Proof/Machine/Rows.lean ====
section
/-! DEFINITION. Rows of Mash passes: owner tags, poisoned rows, and the accesses of rows on their owners' PASS path
(R280, R285, R291). -/

namespace Sys2Proof.Machine

/-- The task index of an owner tag (R280). -/
def ownerTask (o : W32) : Nat := fld o.toNat 8 9

/-- The row of an owner tag (R280). -/
def ownerRow (o : W32) : Nat := fld o.toNat 0 8

/-- The owner tag of row r of task t (R280). -/
def ownerTag (t r : Nat) : W32 := BitVec.ofNat 32 (r % 256 + t % 512 * 256 + 2147483648)

/-- The task that an owner tag names in the pass of a pass slot, unless it has left the pass. -/
def State.ownerId (s : State) (key : Nat) (o : W32) : Option Nat :=
  if o = 0#32 then none
  else match s.passOf key with
    | some (n, p) => (p.tasks[ownerTask o]?).filter fun tid => (s.tasks.get tid).pass = some n
    | none => none

/-- A fault of one row poisons its task (R291). -/
def State.poisonRow (s : State) (tid row cause : Nat) : State :=
  let t := s.tasks.get tid
  let t := { t with cause := if t.cause = 0 then cause else t.cause, bad := if t.bad.contains row then t.bad else t.bad ++ [row] }
  { s with tasks := s.tasks.put tid t }

/-- A fault of the row that an owner tag names. -/
def State.poisonOwner (s : State) (key : Nat) (o : W32) (cause : Nat) : State :=
  match s.ownerId key o with
  | some tid => s.poisonRow tid (ownerRow o) cause
  | none => s

/-- The request of a row's access on its owner's PASS path at package scope; the rows of a host's task are the host's, whose accesses never race
(R151, R178, R212, R264). -/
def rowReq (t : TileTask) (tid : Nat) : Req :=
  { key := t.agent tid, path := if t.host then 6 else 7, ver := t.ver.getD 1048576, marked := false, scope := 5
    reach := { Reach.all with host := false, scratch := false, remote := false }, poison := true, num := none, ser := none }

/-- What each piece of a row's range is in its owner's translation: flat addresses in HBM, or for a source in the Granary. The die's row
translation cache may hold a page (R282, R351). -/
def rowCuts (s : State) (die cid : Nat) (wr : Bool) (va len : Nat) : List (Except Trap Piece) :=
  (cutSpan (len / 16384 + 2) va len).map fun p =>
    if p.1 ≥ 4503599627370496 then .error (mkTrap 5 p.1 0)
    else match flatFrom s (some (rowCache die)) cid p.1 p.2 with
      | .error t => .error t
      | .ok pc =>
        if pc.tgt = .host || (wr && (pc.leaf.granary || pc.tgt = .granary)) || (wr && !pc.leaf.wr) || (!wr && !pc.leaf.rd) then
          .error (mkTrap 5 p.1 0)
        else .ok pc

/-- The pieces of a row's range. -/
def rowPieces (s : State) (die cid : Nat) (wr : Bool) (va len : Nat) : Except Trap (List Piece) :=
  let res := rowCuts s die cid wr va len
  match lowest (errorsOf res) with
  | some t => .error t
  | none => .ok (oksOf res)

/-- The die of the pass slot of a key. -/
def slotDie (key : Nat) : Nat := (key - passBase) / 104

/-- Notes a row's access with its owner's version, while that lives (R277). -/
def noteRow (s : State) (t : TileTask) (tid : Nat) (wr : Bool) (ps : List Piece) : State :=
  match t.key with
  | none => s
  | some k =>
    let r := rowReq t tid
    match noteAccess r wr ps s with
    | .ok ((), s') => (s'.updThr k fun th => if wr then th else
        th.updVer r.ver fun v => { v with deps := (v.deps ++ ps.flatMap (dependsOn s k)).eraseDups })
    | .error _ => s

/-- Writes the bytes of a row under the owning version, or as a committed write (R267, R277). -/
def State.rowWrite (s : State) (t : TileTask) (p : Piece) (data : List Byte) : State :=
  let own := match t.key, t.ver with | some k, some v => (s.liveVer k v).map fun v => (k, v) | _, _ => none
  let s := s.dropRels .hbm false p.addr p.len (own.map (·.2))
  match own with
  | some (k, v) => s.writeVer k v .hbm p.addr data
  | none => s.writeCommitted .hbm p.addr data

/-- The MSC has room for the blocks that a row's store would be the first of its task's live version to write (R385). -/
def State.rowRoom (s : State) (key : Nat) (o : W32) (units : List (Nat × List Byte)) : Bool :=
  match s.ownerId key o with
  | none => true
  | some tid =>
    let t := s.tasks.get tid
    match t.key, t.ver with
    | some k, some v =>
      let base := (t.dst + ownerRow o * t.dstride) % two64
      let ps := (oksOf (units.map fun u => rowPieces s (slotDie key) t.cid true (base + u.1) u.2.length)).flatten
      !s.ownsLive t || decide (t.cause ≠ 0) || decide (s.mscUse + 64 * (newLines k ((s.thr k).ver v) ps).length ≤ 7516192768)
    | _, _ => true

/-- A row's store (R285): nothing for a task that has been dropped or poisoned; a fault poisons the task, a page not
present drops it (R283, R291). -/
def State.storeRow (s : State) (key : Nat) (o : W32) (units : List (Nat × List Byte)) (beyond : Bool) : State :=
  match s.ownerId key o with
  | none => s
  | some tid =>
    let t := s.tasks.get tid
    if t.cause ≠ 0 then s
    else if beyond then s.poisonRow tid (ownerRow o) 5
    else
      let base := (t.dst + ownerRow o * t.dstride) % two64
      let res := units.map fun u => (rowPieces s (slotDie key) t.cid true (base + u.1) u.2.length, u.2)
      match lowest (errorsOf (res.map (·.1))) with
      | some tr =>
        if tr.cause = 4#8 then s.deferTask tid [(tr.addr.toNat, true)]
        else s.poisonRow tid (ownerRow o) 5
      | none =>
        let ps := (oksOf (res.map (·.1))).flatten
        match lowest (ps.filterMap (raceFail s (rowReq t tid) true (t.clock s tid))) with
        | some _ => s.poisonRow tid (ownerRow o) 6
        | none =>
          let s := noteRow s t tid true ps
          let s := ps.foldl (fun s p => markDirty s t.cid p) s
          let shares := res.flatMap fun u => match u.1 with | .ok l => shareBytes l u.2 | .error _ => []
          shares.foldl (fun s p => s.rowWrite t p.1 p.2) s

end Sys2Proof.Machine
end

