-- ==== Sys2Proof/Machine/Engine.lean ====
section
/-! DEFINITION. The engine queues: pushing an entry, running the head of a queue, the operand step of vector
registers, and token entries (R12, R39, R42, R43, R155, R166, R169, R187). -/

namespace Sys2Proof.Machine

/-- The depth of a queue (R47, QDEPTH). -/
def Thread.depthOf (t : Thread) (e : Eng) : Nat := 16 * (fld t.qdepth.toNat (4 * (e.code - 1)) 4 + 1)

/-- A word that names a group flag while no group is selected is ILLEGAL (R30 step 3, R41). -/
def flagOk (key : Nat) (flag : Option (BitVec 8)) : M Unit := do
  let t ← getThr key
  match flag with
  | some f => if 192 ≤ f.toNat && t.live.gsel = none then illegal key
  | none => pure ()

/-- Pushes an entry (R12, R41, R169): the group is resolved, scalar operands and control taint are captured; a full
queue, or no free ticket, holds the word. -/
def pushEntry (key : Nat) (e : Eng) (word : Instr) (ops : List (BitVec 5)) (flag : Option (BitVec 8)) (takes : Bool) : M Unit := do
  flagOk key flag
  let s ← get
  let q := (s.thr key).queue e
  if (s.thr key).depthOf e ≤ q.entries.length then stall .queue
  let tk ← if takes then (do let k ← takeTicket key false; pure (some k)) else pure none
  modThr key fun u =>
    let t := s.thr key
    let x : QEntry :=
      { word := word, num := q.pushed, pc := t.live.pc, slot := t.live.task.slot, ops := ops.map t.rx, ctaint := t.live.ctaint
        csat := t.live.csat, live := t.liveTickets, group := t.live.gsel, ver := t.curVer.id, wps := t.wp, ticket := tk, since := none
        progress := 0, started := false, deps := t.base, pkts := [], ser := t.serial, taskNo := t.taskNo, kcap := none
        dwords := [], cov := [], grans := none, headAt := if q.entries.isEmpty then some s.tick else none, asked := [], cdeps := [] }
    { (u.setQueue e { entries := q.entries ++ [x], pushed := q.pushed + 1 }) with serial := t.serial + 1 }
  advance key

/-! ## The range scoreboard (R157) -/

/-- The virtual address of the S space (R16). -/
def sBase : Nat := 18302628885633695744

/-- The part of a range that lies in another. -/
def clip (a n lo len : Nat) : Option (Nat × Nat) :=
  let b := Nat.max a lo
  let e := Nat.min (a + n) (lo + len)
  if b < e then some (b, e - b) else none

/-- The scoreboard's ranges of a virtual range: in the thread's own scratch, and in that of each peer whose window it meets (R16, R157). -/
def scoreAt (s : State) (key : Nat) (c : Score) (a n : Nat) : List Score :=
  let a := a % two64
  let own := (clip a n sBase 16777216).toList.map fun r => { c with key := key, lo := r.1 - sBase, len := r.2 }
  let peers := (countFrom 0 8).flatMap fun p =>
    let w := sBase + 16777216 + 2097152 * p
    match clip a n w 2097152, s.peerKey (s.thr key) p with
    | some r, some k => [{ c with key := k, lo := r.1 - w, len := r.2 }]
    | _, _ => []
  own ++ peers

/-- The whole allotment of a thread, and all its bound WB and AB slots for a word that may write them. -/
def scoreWhole (t : Thread) (key : Nat) (c : Score) (slots : Bool) : List Score :=
  [{ c with key := key, lo := 0, len := 16777216, wb := if slots then t.wb.keys else [], ab := if slots then t.ab.keys else [] }]

/-- The range that rows with a signed stride span: its lowest address and its length. -/
def rowSpan (a : W64) (rows rowBytes : Nat) (st : W64) : Nat × Nat :=
  let st' : Int := st.toInt * ((rows : Int) - 1)
  if rows = 0 || rowBytes = 0 then (a.toNat, 0)
  else if st' < 0 then ((a + BitVec.ofInt 64 st').toNat, st'.natAbs + rowBytes) else (a.toNat, st'.natAbs + rowBytes)

/-- The ranges recorded on a core: those whose scratch, or slots, are there. -/
def State.scoreCount (s : State) (core : Nat) : Nat :=
  s.threads.foldl (fun n p => n + (p.2.scores.filter fun c => (s.thr c.key).core = core).length) 0

/-- The range of an entry is known: the record narrows to it (R157). -/
def narrowScore (key : Nat) (e : Eng) (q : QEntry) (l : List Score) : M Unit :=
  modThr key fun t =>
    match t.scores.find? fun c => decide (c.eng = e) && decide (c.num = q.num) with
    | some c => { t with scores := (t.scores.filter fun c => !(decide (c.eng = e) && decide (c.num = q.num))) ++
                    l.map fun x => { x with eng := e, num := q.num, ser := q.ser, ord := c.ord } }
    | none => t

/-- Narrows the record to one virtual range. -/
def narrowVa (key : Nat) (e : Eng) (q : QEntry) (a n : Nat) : M Unit := do
  let s ← get
  narrowScore key e q (scoreAt s key default a n)

/-- Ranges in peers' scratches that an entry has come to know while its record stands: the record of each peer grows to hold them (R157). -/
def growScore (key : Nat) (e : Eng) (q : QEntry) (l : List Score) : M Unit :=
  modThr key fun t =>
    match t.scores.find? fun c => decide (c.eng = e) && decide (c.num = q.num) with
    | none => t
    | some c => { t with scores := (l.filter fun x => x.key ≠ key).foldl (fun (m : List Score) x =>
        let same := fun (y : Score) => decide (y.eng = e) && decide (y.num = q.num) && decide (y.key = x.key)
        match m.find? same with
        | some y =>
          let lo := Nat.min x.lo y.lo
          (m.filter fun z => !same z) ++ [{ y with lo := lo, len := Nat.max (x.lo + x.len) (y.lo + y.len) - lo }]
        | none => m ++ [{ x with eng := e, num := q.num, ser := q.ser, ord := c.ord }]) t.scores }

/-- Pushes an entry whose destination the scoreboard records, with the ranges it records: a full scoreboard of a core that is written holds the
word (R157). A word that names a group flag while no group is selected is ILLEGAL before that (R30). -/
def pushScored (key : Nat) (e : Eng) (word : Instr) (ops : List (BitVec 5)) (flag : Option (BitVec 8))
    (ranges : State → Score → List XReg → List Score) : M Unit := do
  flagOk key flag
  let s ← get
  let t := s.thr key
  let c : Score := { (default : Score) with eng := e, num := (t.queue e).pushed, ser := t.serial, ord := s.scoreNext }
  let sc := ranges s c (ops.map t.rx)
  if sc.any fun c => 64 ≤ s.scoreCount (s.thr c.key).core then stall .board
  pushEntry key e word ops flag false
  modify fun s => { (s.updThr key fun t => { t with scores := t.scores ++ sc }) with scoreNext := s.scoreNext + 1 }

/-- A copy that retires has written the ranges recorded for it: what comes before its writes comes before whoever reaches them later
(R157). -/
def State.retireScores (s : State) (key : Nat) (e : Eng) (q : QEntry) : State :=
  let mine := fun (c : Score) => decide (c.eng = e) && decide (c.num = q.num)
  let t := s.thr key
  let clk := t.clkOf key 4
  (t.scores.filter fun c => mine c && 0 < c.len).foldl (fun s c => s.updThr c.key fun u =>
      { u with wrote := { lo := c.lo, len := c.len, clk := clk, by_ := key, ser := q.ser } ::
          u.wrote.filter fun w => !(decide (w.by_ = key) && decide (c.lo ≤ w.lo) && decide (w.lo + w.len ≤ c.lo + c.len)) })
    (s.updThr key fun t =>
      let slots := (t.scores.filter mine).flatMap fun c => c.wb ++ c.ab.map (· + 64)
      { t with scores := t.scores.filter fun c => !mine c, slotDone := slots.foldl (fun m h => m.put h s.tick) t.slotDone })

/-- A register binding that a word may not meet (R43): written while input-bound, read by VA while output-bound, or
either for what must be unbound. -/
def bindOk (key : Nat) (noIn noOut free : List (BitVec 6)) : M Unit := do
  let t ← getThr key
  let kind := fun (v : BitVec 6) => (t.live.v.get v.toNat).kind
  if noIn.any (fun v => kind v = .input) || noOut.any (fun v => kind v = .output) || free.any (fun v => kind v ≠ .free) then
    illegal key

/-- A FENCE holds an entry: it was pushed after the FENCE, lies on a path of mask B, and the accesses of mask A that
the FENCE orders are not all performed (R155). -/
def State.fenceHolds (s : State) (key : Nat) (f : FenceRec) : Bool :=
  (f.ack && !s.allAcked key) ||
    engs.any fun e => ((s.thr key).queue e).entries.any fun x => x.ser < f.ser && (accessPaths e x.word).any fun p => f.ma.getLsbD p

/-- A FENCE that is still to invalidate remote lines does so before the next VL entry behind it starts: the VL entries before it have
completed (R155, R184). -/
def Thread.lateInvalidate (t : Thread) (e : Eng) (q : QEntry) : Thread :=
  let due := fun (f : FenceRec) => f.inv && decide (e = .vl) && decide (f.ser ≤ q.ser)
  if t.fences.any due then { t.dropClean with fences := t.fences.filter fun f => !due f } else t

/-- An entry of another queue that was pushed earlier makes accesses on a path of an entry's: those of one path are performed in the order
in which their words were pushed, so that an MDRAIN and a CP entry do not pass one another (R143, R151, R154). -/
def Thread.pathBusy (t : Thread) (e : Eng) (q : QEntry) : Bool :=
  engs.any fun e' => decide (e' ≠ e) && (t.queue e').entries.any fun x =>
    decide (x.ser < q.ser) && (accessPaths e' x.word).any fun p => (accessPaths e q.word).contains p

/-- What the FENCEs before an entry order before it (R155). -/
def Thread.fenceClk (t : Thread) (e : Eng) (q : QEntry) : Clock :=
  t.fences.foldl (fun c f =>
    if f.ser ≤ q.ser && (entryPaths e q.word).any (fun p => f.mb.getLsbD p) then joinClk f.clk c else c) []

/-- FENCEs that hold nothing any longer have ordered what they order, for every later entry of their B paths, once no entry before them is left
there (R155). -/
def State.settleFences (s : State) (key : Nat) : State :=
  let t := s.thr key
  let done := fun (f : FenceRec) => !f.inv && !s.fenceHolds key f &&
    engs.all fun e => (t.queue e).entries.all fun x => f.ser ≤ x.ser || !(entryPaths e x.word).any fun p => f.mb.getLsbD p
  if t.fences.any done then
    s.setThr key { (t.fences.filter done).foldl (fun (t : Thread) f => t.learn (maskPaths f.mb) f.clk) t with
                   fences := t.fences.filter fun f => !done f }
  else s

/-- Before an entry starts: FENCEs before it hold it or are settled, those before it on its path have been performed, and its accesses come
after what its word knew and what the FENCEs before it order (R154, R155, R166). -/
def entryStart (key : Nat) (e : Eng) (q : QEntry) : M Unit := do
  let s ← get
  let t := s.thr key
  if t.fences.any fun f => f.ser ≤ q.ser && s.fenceHolds key f && (entryPaths e q.word).any fun p => f.mb.getLsbD p then stall .fence
  if t.pathBusy e q then stall .other
  modThr key fun t => ((t.lateInvalidate e q).learn (entryPaths e q.word) (joinClk (t.fenceClk e q) q.deps))
  modify fun s => s.settleFences key

/-- An entry that completes before the placement request of threads that its thread spawned after it: its accesses come before theirs, and
the request waits for what it has posted (R166, R228). -/
def State.noteSpawn (s : State) (key : Nat) (e : Eng) (q : QEntry) : State :=
  let mine := fun (p : PlaceReq) => match p.after with
    | some (k, pushed) => decide (k = key) && decide (q.num < (pushed[e.code - 1]?).getD 0)
    | none => false
  if !s.places.any mine then s
  else
    let clk := (entryPaths e q.word).foldl (fun c p => joinClk ((s.thr key).clkOf key p) c) []
    let keys := (s.places.filter mine).flatMap (·.keys)
    let s := { s with places := s.places.map fun p => if mine p then { p with acks := s.pktNext } else p }
    keys.foldl (fun s k => s.updThr k fun t => t.acquire clk) s

/-- What comes before whoever follows the accesses of an entry. -/
def Thread.entryClk (t : Thread) (key : Nat) (e : Eng) (q : QEntry) : Clock :=
  (accessPaths e q.word).foldl (fun c p => joinClk (t.clkOf key p) c) []

/-- An entry that completes: the FENCEs after it order what it has accessed on their A paths, and its class of WAITC remembers it (R155, R156). -/
def Thread.noteDone (t : Thread) (key : Nat) (e : Eng) (q : QEntry) : Thread :=
  let clk := t.entryClk key e q
  let grow := fun (f : FenceRec) =>
    if q.ser < f.ser && (accessPaths e q.word).any (fun p => f.ma.getLsbD p) then { f with clk := joinClk clk f.clk } else f
  let t := { t with fences := t.fences.map grow }
  match e with
  | .vl => t.remember 0 (2 * q.ser + 1) clk
  | .va => t
  | .vs => t.remember 1 (2 * q.ser + 1) clk
  | .cp => t.remember 2 (2 * q.ser + 1) clk
  | .mx => t.remember 3 (2 * q.ser + 1) clk

/-- The hits noted so far are those of accesses that have been performed: the entry keeps them until they are reported (R429). -/
def keepHits (key : Nat) (e : Eng) : M Unit :=
  modThr key fun t =>
    let qu := t.queue e
    match t.hits, qu.entries with
    | [], _ => t
    | _, [] => t
    | l, x :: r => { (t.setQueue e { qu with entries := { x with hits := l.foldl Held.join x.hits } :: r }) with hits := [] }

/-- The head of a queue is done with: it leaves with its hits, its ticket binds, and the next entry comes to the head (R134, R167). An access that
waited for the ticket comes after the load and all before it (R176). -/
def popEntry (key : Nat) (e : Eng) (q : QEntry) : M Unit := do
  let s ← get
  modThr key fun t =>
    let t := t.noteDone key e q
    let t := { t with hits := t.hits.foldl Held.join (((t.queue e).entries.head?.map fun (x : QEntry) => x.hits).getD []) }
    let t := match q.ticket with
      | some k => ({ t with tickets := t.tickets.put k { t.tickets.get k with acq := t.clkOf key e.path } } : Thread).bindTicket k
      | none => t
    let qu := t.queue e
    let rest := match qu.entries.drop 1 with | x :: r => { x with headAt := some s.tick } :: r | [] => []
    t.setQueue e { qu with entries := rest }
  modify fun s => ((s.retireScores key e q).noteSpawn key e q).settleFences key

/-- A trap raised at an entry (R368 class E), or in class I at the word where the sequencer stands. -/
def Thread.eTrap (t : Thread) (e : Eng) (q : QEntry) (tr : Trap) : Trap :=
  let cur := ((t.queue e).entries.head?).getD q
  if tr.cls = 2#2 then { tr with unit := BitVec.ofNat 3 e.code, pc := t.pcw }
  else { tr with cls := 1#2, unit := BitVec.ofNat 3 e.code, pc := pcWord cur.slot cur.pc, ver := BitVec.ofNat 20 cur.ver }

/-- What follows an entry's completion: versions that can land do, and stops are reported (R381, R424, R429). -/
def State.entryDone (s : State) (key : Nat) (e : Eng) (q : QEntry) : State :=
  let s := if e = .mx then s.releaseEnded key else if e = .va then s.countFor key 2 1 else s
  let s := (s.updThr key fun t => { t with idle := s.tick }).landFirst key
  let s := s.takeHits key (pcWord (s.thr key).live.task.slot (s.thr key).live.pc)
  let _ := q
  s.takeStep key

/-- An entry that waits has started something: what it waits for is not a flag's count or a claim (R261). -/
def WaitKind.begun : WaitKind → Bool
  | .flag => false
  | .claim => false
  | .commit => false
  | _ => true

/-- The hits that an entry at the head of a queue keeps are reported, the first as the stop (R429). -/
def State.reportHits (s : State) (key : Nat) (e : Eng) : State :=
  let t := s.thr key
  let qu := t.queue e
  match qu.entries with
  | x :: r =>
    if x.hits = [] then s
    else (s.setThr key { (t.setQueue e { qu with entries := { x with hits := [] } :: r }) with hits := x.hits }).takeHits key t.pcw
  | [] => s

/-- An entry waits: since when (R261). What it has noted of accesses that it has still to perform is noted again then. -/
def State.entryWaits (s : State) (key : Nat) (e : Eng) : State :=
  s.updThr key fun t =>
    let qu := t.queue e
    match qu.entries with
    | [] => t
    | x :: r => { (t.setQueue e { qu with entries := { x with since := some (x.since.getD s.tick) } :: r }) with hits := [] }

/-- Runs the head of a queue of a resident thread: it completes, traps with no effect, or waits (R12, R368). -/
def State.runHead (s : State) (eff : Nat → QEntry → M Unit) (e : Eng) (key : Nat) : State :=
  let t := s.thr key
  if !(t.alive && decide (t.run = .resident)) then s
  else
    match (t.queue e).entries with
    | [] => s
    | q :: _ =>
      match (do
          entryStart key e q
          eff key q
          popEntry key e q : M Unit) s with
      | .ok ((), s') => s'.entryDone key e q
      | .error (.trap tr) => s.takeTrap key (t.eTrap e q tr)
      | .error (.stall _) => s.entryWaits key e
      | .error (.wait k s') =>
        let s' := (if k.begun then s'.updThr key fun t => { t with idle := s'.tick } else s').entryWaits key e
        if e = .cp then s'.reportHits key e else s'
      | .error (.fault tr s') => s'.takeTrap key (t.eTrap e q tr)

/-- A word of an engine: the sequencer pushes its entry, and the engine runs the head of the queue at once unless the
schedule holds it back (R12; DESIGN CHOICE, assumption log entry 2). -/
def engineWord (e : Eng) (eff : Nat → QEntry → M Unit) (push : Nat → M Unit) (s : State) : Out :=
  let key := s.cur
  let t := s.thr key
  if !(t.alive && decide (t.run = .resident)) then .next s
  else
    match push key s with
    | .ok ((), s') =>
      let s' := if s'.held.contains (key, e) then s' else s'.runHead eff e key
      .next (if decide ((s'.thr key).run = .resident) && (s'.thr key).alive then s'.wordDone key t.pcw t.serial else s')
    | .error (.trap tr) => .next (s.takeTrap key (t.sTrap tr))
    | .error (.stall k) => .next (s.wordWaits key k)
    | .error (.wait k s') => .next (s'.wordWaits key k)
    | .error (.fault tr s') => .next (s'.takeTrap key (t.sTrap tr))

/-- An entry waits for the tickets of its scalar operands, of what it popped, and for a write of the control taint
captured at push (R169, R171, R173). -/
def settleEntry (key : Nat) (e : Eng) (q : QEntry) (taint : BitVec 16) (sat : Bool) (write : Bool) : M Unit := do
  settleOn key (entryPaths e q.word) (unionTaint q.ops ||| taint ||| (if write then q.ctaint else 0#16))
    (orSat q.ops || sat || (write && q.csat)) q.live
  if write && !q.cdeps.isEmpty then modThr key fun t => t.learn (entryPaths e q.word) q.cdeps

/-! ## Vector registers (R42, R43, R187) -/

/-- The register an entry will push into, with the number of entries; VUNPK at least one (R42). -/
def pushTarget : Instr → Option Nat
  | .vld vd _ _ _ => some vd.toNat
  | .vlds vd _ _ _ _ => some vd.toNat
  | .vldx vd _ _ _ _ _ _ => some vd.toNat
  | .vldt vd _ _ _ => some vd.toNat
  | .vldb vd _ _ _ => some vd.toNat
  | .mdrainv _ vd _ _ => some vd.toNat
  | .vadd vd _ _ _ _ _ => some vd.toNat
  | .vsub vd _ _ _ _ _ => some vd.toNat
  | .vmul vd _ _ _ _ _ => some vd.toNat
  | .vfma vd _ _ _ _ _ => some vd.toNat
  | .vfnma vd _ _ _ _ _ => some vd.toNat
  | .vmin vd _ _ _ _ _ => some vd.toNat
  | .vmax vd _ _ _ _ _ => some vd.toNat
  | .vabs vd _ _ _ => some vd.toNat
  | .vneg vd _ _ _ => some vd.toNat
  | .vdiv vd _ _ _ _ _ => some vd.toNat
  | .vsqrt vd _ _ _ => some vd.toNat
  | .vrsq vd _ _ _ => some vd.toNat
  | .vexp2 vd _ _ _ => some vd.toNat
  | .vlog2 vd _ _ _ => some vd.toNat
  | .vfclass vd _ _ _ => some vd.toNat
  | .vsel vd _ _ _ _ _ => some vd.toNat
  | .vand vd _ _ _ _ _ => some vd.toNat
  | .vor vd _ _ _ _ _ => some vd.toNat
  | .vxor vd _ _ _ _ _ => some vd.toNat
  | .vshl vd _ _ _ _ _ => some vd.toNat
  | .vshr vd _ _ _ _ _ => some vd.toNat
  | .vsra vd _ _ _ _ _ => some vd.toNat
  | .vcvt vd _ _ _ _ => some vd.toNat
  | .vpack vd _ _ => some vd.toNat
  | .vunpk vd _ _ _ => some vd.toNat
  | .vred vd _ _ _ _ => some vd.toNat
  | .vargmax vd _ _ _ => some vd.toNat
  | .vperm vd _ _ _ _ _ => some vd.toNat
  | .vrot vd _ _ _ _ => some vd.toNat
  | .vbcast vd _ _ => some vd.toNat
  | .vextr vd _ _ _ _ => some vd.toNat
  | .viota vd _ => some vd.toNat
  | .vmov vd _ _ _ => some vd.toNat
  | .vcnt vd _ _ _ => some vd.toNat
  | .vmix vd _ _ _ _ _ => some vd.toNat
  | .vunif vd _ _ _ => some vd.toNat
  | .vaddx vd _ _ _ _ _ => some vd.toNat
  | .vmulx vd _ _ _ _ _ => some vd.toNat
  | .vfmax vd _ _ _ _ _ => some vd.toNat
  | .kpopc vd _ => some vd.toNat
  | .vtagr vd _ _ _ => some vd.toNat
  | .vrnd vd _ _ _ _ => some vd.toNat
  | .vscale vd _ _ _ _ _ => some vd.toNat
  | _ => none

/-- The mask register that an access entry reads (R187). -/
def maskOperand : Instr → Option Nat
  | .vld _ _ k _ => some k.toNat
  | .vlds _ _ _ k _ => some k.toNat
  | .vldx _ _ _ _ _ _ k => some k.toNat
  | .vldt _ _ k _ => some k.toNat
  | .vldb _ _ k _ => some k.toNat
  | .vst _ _ k _ => some k.toNat
  | .vsts _ _ _ k _ => some k.toNat
  | .vstx _ _ _ _ _ _ k => some k.toNat
  | .vstt _ _ k _ => some k.toNat
  | .vatoma _ _ _ _ k _ => some k.toNat
  | .vstrw _ _ k => some k.toNat
  | _ => none

/-- An MDRAINV of 0 rows, as it was captured: it pushes nothing (R42, R144). -/
def QEntry.drainsNone (q : QEntry) : Bool := match q.word with | .mdrainv _ _ _ _ => ((q.ops[1]?).getD default).val = 0#64 | _ => false

/-- An entry is owed to a register: a word pushed before the reader on another queue will push it (R42, R187). VA entries
count for the VS and MX readers, and for the index of a VLDX (DESIGN CHOICE: assumption log entry 76). Entries from a keg share one serial number
and count for one another (assumption log entry 30). -/
def Thread.owed (t : Thread) (reader : Eng) (ser reg : Nat) : Bool :=
  engs.any fun e =>
    e ≠ reader && (t.queue e).entries.any fun x => x.ser ≤ ser && pushTarget x.word = some reg && !x.drainsNone

/-- A register is bound to an input stream for a reader: a stream runs, or its binding entry is still queued (R42,
R43). -/
def Thread.inBound (t : Thread) (ser reg : Nat) : Bool :=
  let r := t.live.v.get reg
  (r.strm.active && r.kind ≠ .output && !r.strm.out) ||
    (t.queue .vl).entries.any fun x => x.ser ≤ ser && (match x.word with | .vbindi v _ => v.toNat = reg | _ => false)

/-- The number of entries a stream visits. -/
def Stream.count (t : Stream) : Nat :=
  wfld ((t.desc[1]?).getD 0) 0 32 * wfld ((t.desc[3]?).getD 0) 0 32 * wfld ((t.desc[5]?).getD 0) 0 32

/-- A stream is exhausted (R207). -/
def Stream.spent (t : Stream) : Bool := !t.desc.isEmpty && decide (t.count ≤ t.pos)

/-- The reads of an operand step, in operand order: the entries read and how many leave each register (R42). Nothing is
taken. -/
def readSources (key : Nat) (rd : Eng) (ser : Nat) : List (Nat × Bool) → NMap Nat → List VEntry → M (List VEntry × NMap Nat)
  | [], n, acc => pure (acc.reverse, n)
  | (reg, peek) :: rest, n, acc => do
    let t ← getThr key
    let r := t.live.v.get reg
    match r.fifo[n.get reg]? with
    | some x => readSources key rd ser rest (if peek then n else n.put reg (n.get reg + 1)) (x :: acc)
    | none =>
      if t.inBound ser reg then
        match r.strm.held with
        | some tr => raise { tr with info := tr.info ||| 0x80000000#64 }
        | none => stall (if !r.strm.active then .empty else if r.strm.spent then .exhausted else .outside)
      else if t.owed rd ser reg then stall .empty
      else raise (mkTrap 8 0 0)

/-- The register without its first entries. -/
def VReg.popN (r : VReg) (n : Nat) : VReg :=
  { r with fifo := r.fifo.drop n, head := (r.head + n) % 4
           rest := ((r.fifo.take n).zip (countFrom 0 n)).foldl (fun (m : NMap VEntry) e => m.set ((r.head + e.2) % 4) { e.1 with after := [] }) r.rest }

/-- The register with entries at its tail. -/
def VReg.pushL (r : VReg) (l : List VEntry) : VReg := { r with fifo := r.fifo ++ l }

/-- Removes what an operand step popped. -/
def Frame.popV (f : Frame) (n : NMap Nat) : Frame := n.foldl (fun f p => f.updV p.1 fun r => r.popN p.2) f

/-- The union of the taints of entries. -/
def entryTaint (l : List VEntry) : BitVec 16 := l.foldl (fun m e => m ||| e.taint) 0#16

/-- What the loads that entries come from come after (R168, R176). -/
def entryAfter (l : List VEntry) : Clock := l.foldl (fun c e => joinClk e.after c) []

/-- An access of an entry waits for the loads whose values it has taken from registers and masks: it comes after them (R154 case 5, R176). -/
def learnAfter (key : Nat) (paths : List Nat) (ents : List VEntry) (masks : List KReg) : M Unit := do
  let clk := masks.foldl (fun c k => joinClk k.after c) (entryAfter ents)
  if !clk.isEmpty then modThr key fun t => t.learn paths clk

/-- The owner tag of a result: the one non-zero tag among the entries read; PROT when two differ (R85). -/
def ownerOf (l : List VEntry) : M W32 :=
  l.foldlM (fun o e =>
    if e.owner = 0#32 || e.owner = o then pure o
    else if o = 0#32 then pure e.owner
    else raise (mkTrap 5 0 0)) 0#32

/-- The mask operand of an access entry, as the VA words before it left it; the entry waits for them (R187). -/
def accessMask (key : Nat) (q : QEntry) (k : Nat) : M KReg := do
  let t ← getThr key
  if k ≠ 0 && (t.queue .va).entries.any (fun x => x.ser < q.ser) then stall .other
  pure (q.kcap.getD (t.live.rk k))

/-- Before a VA entry overwrites a mask register, the access entries pushed before it that read it keep its value
(R187). -/
def Thread.keepMask (t : Thread) (k ser : Nat) : Thread :=
  let old := t.live.rk k
  let keep := fun (x : QEntry) =>
    if x.ser < ser && maskOperand x.word = some k && x.kcap.isNone then { x with kcap := some old } else x
  { t with queues := t.queues.map fun p => (p.1, { p.2 with entries := p.2.entries.map keep }) }

/-! ## Token entries (R39, R166, R386) -/

/-- The paths that a set entry of a queue releases and a wait entry acquires on (R166); VA makes no access, and of the CP path MX has what its
MDRAINs write. -/
def tokenPaths (set : Bool) : Eng → List Nat
  | .va => []
  | .mx => [3, if set then drainPath else drainWait]
  | e => [e.path]

/-- The flag of an entry, with the group resolved when its word was pushed (R41). -/
def entryFlag (key : Nat) (q : QEntry) (f : BitVec 8) : M FlagRef := do
  let t ← getThr key
  pure ((flagRef key t.cid q.group f).getD ⟨false, key, 0⟩)

/-- A wait entry: it takes the count from the flag, once it is there, and later entries of its queue come after what
the sets released; on a group flag, and on one that a CPSIG or a pass has set, it acquires at context scope (R39, R164, R166, R184). -/
def tokenWait (key : Nat) (e : Eng) (q : QEntry) (f : BitVec 8) (n : BitVec 9) : M Unit := do
  let r ← entryFlag key q f
  let s ← get
  if s.wideFlag r && s.flagReady key e.code q.num r n.toNat then acquireCtx key
  let clk ← waitFlag key e.code q.num q.ver r n.toNat
  modThr key fun t => t.learn (tokenPaths false e) clk

/-- A set by an entry of a queue: it waits for control taint, a group flag publishes and releases at context scope, and the flag takes the
count with what the queue's earlier entries released (R39, R163, R166, R173, R386). -/
def tokenSet (key : Nat) (e : Eng) (q : QEntry) (f : BitVec 8) (n : Nat) (code : Nat) : M Unit := do
  let r ← entryFlag key q f
  settleEntry key e q 0#16 false true
  if r.group then
    releaseCtx key
    publish key q.ver
  let t ← getThr key
  let clk := (tokenPaths true e).foldl (fun c p => joinClk (t.clkOf key p) c) []
  modify fun s => s.addFlag r n clk (t.setter code) (some q.ver)

end Sys2Proof.Machine
end

