-- ==== Sys2Proof/Machine/Tags.lean ====
section
/-! DEFINITION. Tagged blocks: formats, malformed tags and the exact values of a block's elements (R66 to R70). -/

namespace Sys2Proof.Machine

/-- The element type that a tag's FMT names (R60, R68). -/
def tagTy (tag : Nat) : Option Ty :=
  match fld tag 0 8 with
  | 0x01 => some .f32
  | 0x02 => some .bf16
  | 0x03 => some .f16
  | 0x10 => some .e4m3
  | 0x11 => some .e5m2
  | 0x12 => some .i8
  | 0x20 => some .e2m1
  | 0x21 => some .sq4
  | _ => none

/-- The scale decrement of sub-block j (R68, R70). -/
def tagDec (tag j : Nat) : Nat :=
  match fld tag 0 8 with
  | 0x10 => fld tag (16 + 4 * j) 4
  | 0x11 => fld tag (16 + 4 * j) 4
  | 0x20 => fld tag (16 + 4 * j) 4
  | _ => 0

/-- The sub-blocks of a format (R68). -/
def tagSubs (tag : Nat) : Nat :=
  match fld tag 0 8 with
  | 0x10 => 2
  | 0x11 => 2
  | 0x20 => 4
  | _ => 1

/-- The bits above SCALE that a format requires to be zero (R68). -/
def tagZeroOk (tag : Nat) : Bool :=
  match fld tag 0 8 with
  | 0x01 => fld tag 16 16 = 0
  | 0x02 => fld tag 16 16 = 0
  | 0x03 => fld tag 16 16 = 0
  | 0x10 => fld tag 24 8 = 0
  | 0x11 => fld tag 24 8 = 0
  | 0x12 => fld tag 8 8 = 0x7F && fld tag 16 16 = 0
  | _ => true

/-- A tag is malformed (R69). -/
def tagMalformed (tag : Nat) : Bool :=
  let fmt := fld tag 0 8
  let sc := fld tag 8 8
  ((tagTy tag).isNone && fmt ≠ 0 && fmt ≠ 0x30) || !tagZeroOk tag ||
    (sc ≠ 255 && (countFrom 0 (tagSubs tag)).any fun j => decide (sc < tagDec tag j))

/-- A decoded value times a power of two; a NaN is a plain NaN from here on (R70). -/
def scaleNum (x : Num) (k : Int) : Num :=
  match x with
  | .nan _ => .nan false
  | .fin s m e => .fin s m (e + k)
  | y => y

/-- The unscaled values of the pairs of an SQ4 block from a number of outliers met, and how many there are (R66). -/
def sq4Pairs (tag : Nat) : Nat → List Nat → List Num × Nat
  | k, e :: o :: t =>
    let out (hi : Nat) : Num :=
      if k < 4 then Fmt.value ⟨4, 3, 7, false, 14, 5⟩ (hi * 16 + fld tag (16 + 4 * k) 4) else .fin false 0 0
    let zero : Num := .fin false 0 0
    if e = 8 then
      let r := sq4Pairs tag (k + 1) t
      (out o :: zero :: r.1, r.2)
    else if o = 8 then
      let r := sq4Pairs tag (k + 1) t
      (zero :: out e :: r.1, r.2)
    else
      let r := sq4Pairs tag k t
      (Num.ofInt (signedW 4 e) :: Num.ofInt (signedW 4 o) :: r.1, r.2)
  | k, _ => ([], k)

/-- The unscaled values of the elements of a block, and whether an outlier is unfunded (R62, R63, R66). -/
def blockValues (t : Ty) (tag block : Nat) : List Num × Bool :=
  let w := t.width
  let codes := lanesFrom w (512 / w) block
  if t = .sq4 then
    let r := sq4Pairs tag 0 codes
    (r.1, decide (4 < r.2))
  else (codes.map t.value, false)

/-- The values of the elements of a block with a well-formed tag of a numeric format (R70). -/
def decodeBlock (t : Ty) (tag block : Nat) : List Num × Bool :=
  let r := blockValues t tag block
  if t = .i8 then r
  else if fld tag 8 8 = 255 then (r.1.map fun _ => .nan false, r.2)
  else
    let sub := r.1.length / tagSubs tag
    ((r.1.zip (countFrom 0 r.1.length)).map fun p =>
      scaleNum p.1 ((fld tag 8 8 : Int) - tagDec tag (p.2 / sub) - 127), r.2)

end Sys2Proof.Machine
end

