-- ==== Sys2Proof/Machine/VectorArith.lean ====
section
/-! DEFINITION. The VA engine: the common step of its entries and the effect of every VA instruction (R80 to R119). -/

namespace Sys2Proof.Machine

/-! ## Lane functions -/

/-- The operands of one lane: its index and its lanes of the sources. -/
structure Ln where
  i : Nat
  a : Nat
  b : Nat
  c : Nat
  deriving Repr, Inhabited

/-- The operands of the lanes of three sources; a source that is absent reads zero. -/
def zipLn : Nat → Nat → List Nat → List Nat → List Nat → List Ln
  | 0, _, _, _, _ => []
  | n + 1, i, a, b, c => ⟨i, a.headD 0, b.headD 0, c.headD 0⟩ :: zipLn n (i + 1) a.tail b.tail c.tail

/-- The lanes of a result (R82): active lanes are computed, masked-off ones take a lane of va or zero, and raise
nothing. -/
def activeLanes (f : Ln → LaneRes) : List Bool → List Nat → List Ln → List LaneRes
  | m :: ms, mer, l :: ls => (if m then f l else (mer.headD 0, 0)) :: activeLanes f ms mer.tail ls
  | _, _, _ => []

/-- What a VA entry reads: its type, rounding, saturation, the entries, mask and merge, the captured scalar, and the
mask sources of KOP and KPOPC with the old value of kd. -/
structure VaIn where
  et : Ty
  rm : RM
  sat : Bool
  ents : List VEntry
  mask : BitVec 512
  merge : Bool
  xb : W64
  ka : BitVec 512
  kb : BitVec 512
  kold : BitVec 512

/-- What a VA entry makes: the entries it pushes, the mask it writes, and the results of its lanes. -/
structure VaOut where
  outs : List VData
  k : BitVec 512
  lanes : List LaneRes

/-- A VA instruction: the types it accepts, the register it pushes into and how often, its vector sources, whether it
has a mask and merges, its mask sources, and the mask it writes. -/
structure VaOp where
  acc : Ty → Bool
  vd : Option Nat
  pushes : Ty → Option Nat
  srcs : Ty → List (Nat × Bool)
  mkf : BitVec 3
  ks : List Nat
  kd : Option Nat
  run : VaIn → VaOut

/-- The n-th entry read. -/
def VaIn.ent (x : VaIn) (n : Nat) : VData := ((x.ents[n]?).getD default).data

/-- A lane-wise result of wr-bit lanes from sources of wa-bit lanes, n lanes (R80, R82, R94). A masked-off lane that merges
takes lane i of va, which is wa bits wide. DEDUCED: assumption log entry 13. -/
def laneWise (x : VaIn) (wa wc wr : Nat) (f : Ln → LaneRes) : VaOut :=
  let n := 4096 / wr
  let mer := if x.merge then lanesOf wa (x.ent 0) else []
  let r := activeLanes f (maskBits x.mask n) mer
    (zipLn n 0 (lanesOf wa (x.ent 0)) (lanesOf wa (x.ent 1)) (lanesOf wc (x.ent 2)))
  { outs := [packLanes wr (r.map (·.1))], k := 0#512, lanes := r }

/-- A lane-wise result under the type in force (R80). -/
def laneEt (x : VaIn) (f : Ln → LaneRes) : VaOut := laneWise x x.et.lane x.et.lane x.et.lane f

/-- A lane-wise result of 32-bit lanes, whatever the type (R80). -/
def lane32 (x : VaIn) (f : Ln → LaneRes) : VaOut := laneWise x 32 32 32 f

/-- An arithmetic lane: exact in F or in I, rounded or reduced once (R91, R92). -/
def arith (t : Ty) (rm : RM) (sat : Bool) (ff : Unit → Num × Nat) (fi : Unit → Int) : LaneRes :=
  if t.isF then encFlags t rm sat (ff ()) else t.reduce sat (fi ())

/-- a + b (R91, R92). -/
def laneAdd (x : VaIn) (l : Ln) : LaneRes :=
  arith x.et x.rm x.sat (fun _ => (x.et.value l.a).add x.rm (x.et.value l.b)) (fun _ => laneInt x.et l.a + laneInt x.et l.b)

/-- a - b (R91, R92). -/
def laneSub (x : VaIn) (l : Ln) : LaneRes :=
  arith x.et x.rm x.sat (fun _ => (x.et.value l.a).add x.rm (x.et.value l.b).neg) (fun _ => laneInt x.et l.a - laneInt x.et l.b)

/-- a times b (R91, R92). -/
def laneMul (x : VaIn) (l : Ln) : LaneRes :=
  arith x.et x.rm x.sat (fun _ => (x.et.value l.a).mul (x.et.value l.b)) (fun _ => laneInt x.et l.a * laneInt x.et l.b)

/-- a times b plus c (R93). -/
def laneFma (x : VaIn) (l : Ln) : LaneRes :=
  arith x.et x.rm x.sat (fun _ => Num.fma x.rm (x.et.value l.a) (x.et.value l.b) (x.et.value l.c))
    (fun _ => laneInt x.et l.a * laneInt x.et l.b + laneInt x.et l.c)

/-- c minus a times b (R93). -/
def laneFnma (x : VaIn) (l : Ln) : LaneRes :=
  arith x.et x.rm x.sat (fun _ => Num.fma x.rm (x.et.value l.a).neg (x.et.value l.b) (x.et.value l.c))
    (fun _ => laneInt x.et l.c - laneInt x.et l.a * laneInt x.et l.b)

/-- The smaller or larger of two codes (R93). -/
def codeMinMax (t : Ty) (mx : Bool) (a b : Nat) : LaneRes :=
  if t.isF then
    let r := Num.minmax mx (t.value a) (t.value b)
    ((t.encode .rne false r.1).1, r.2)
  else
    let less := decide (laneInt t a < laneInt t b)
    (if less != mx then a else b, 0)

/-- A widening lane (R94): the operands in the narrow type, the result in the type twice as wide. -/
def wideTy : Ty → Ty
  | .f16 => .f32
  | .bf16 => .f32
  | .i8 => .i16
  | .i16 => .i32
  | .i32 => .i64
  | .n8 => .n16
  | .n16 => .n32
  | .n32 => .n64
  | t => t

/-- A shift of a lane (R96): 0 left, 1 logical right, 2 arithmetic right. -/
def laneShift (w kind : Nat) (a n : Nat) : Nat :=
  match kind with
  | 0 => if w ≤ n then 0 else a * 2 ^ n % 2 ^ w
  | 1 => if w ≤ n then 0 else a / 2 ^ n
  | _ => lowBits w (signedW w a / (2 ^ Nat.min n w : Int))

/-- The class bit of a floating-point code (R99). -/
def fclass (t : Ty) (code : Nat) : Nat :=
  match t.fmt? with
  | none => 0
  | some f =>
    let neg := fld code (f.eb + f.mb) 1 = 1
    let e := fld code f.mb f.eb
    let m := fld code 0 f.mb
    if e = 2 ^ f.eb - 1 then
      if m = 0 then (if neg then 1 else 128) else if m < 2 ^ (f.mb - 1) then 256 else 512
    else if e = 0 then
      if m = 0 then (if neg then 8 else 16) else (if neg then 4 else 32)
    else if neg then 2 else 64

/-- A value times a power of two within any format's range (R95). -/
def laneScale (x : VaIn) (l : Ln) : LaneRes :=
  let n := signedW x.et.width l.b
  let n := if n < -1000 then -1000 else if 1000 < n then 1000 else n
  let v := x.et.value l.a
  encFlags x.et x.rm x.sat (scaleNum v n, if v.isSig then fNV else 0)

/-- The truth of a comparison with the flag it raises (R101). -/
def laneCmp (t : Ty) (c : Cond) (a b : Nat) : Bool × Nat :=
  if t.isF then
    let x := t.value a
    let y := t.value b
    let nan := x.isNaN || y.isNaN
    let sig := sigFlag [x, y]
    let any := if nan then fNV else 0
    match c with
    | .eq => (!nan && !x.lt y && !y.lt x, sig)
    | .ne => (nan || x.lt y || y.lt x, sig)
    | .lt => (!nan && x.lt y, any)
    | .le => (!nan && !y.lt x, any)
    | .gt => (!nan && y.lt x, any)
    | .ge => (!nan && !x.lt y, any)
    | .unord => (nan, sig)
    | .ord => (!nan, sig)
  else
    let x := laneInt t a
    let y := laneInt t b
    (match c with
      | .eq => decide (x = y)
      | .ne => decide (x ≠ y)
      | .lt => decide (x < y)
      | .le => decide (x ≤ y)
      | .gt => decide (y < x)
      | .ge => decide (y ≤ x)
      | .unord => false
      | .ord => true, 0)

/-- The mask whose bits are given, bit 0 first. -/
def packBits (l : List Bool) : BitVec 512 := BitVec.ofNat 512 (packNat 1 (l.map fun b => if b then 1 else 0))

/-- VCMP (R101). -/
def runCmp (c : Cond) (x : VaIn) : VaOut :=
  let w := x.et.lane
  let n := 4096 / w
  let lns := zipLn n 0 (lanesOf w (x.ent 0)) (lanesOf w (x.ent 1)) []
  let old := if x.merge then (maskBits x.kold n).map fun b => if b then 1 else 0 else []
  let r := activeLanes (fun l => let p := laneCmp x.et c l.a l.b; (if p.1 then 1 else 0, p.2)) (maskBits x.mask n) old lns
  { outs := [], k := packBits (r.map fun p => p.1 = 1), lanes := r }

/-! ## Reductions (R107, R108) -/

/-- One level of the tree: neighbours combine. -/
def treeLevel {α : Type} (f : α → α → α) : List (Option α) → List (Option α)
  | a :: b :: t => (match a, b with
      | some x, some y => some (f x y)
      | some x, none => some x
      | none, y => y) :: treeLevel f t
  | l => l

/-- The fixed pairwise tree over lane index (R107). -/
def tree {α : Type} (f : α → α → α) : Nat → List (Option α) → Option α
  | 0, l => (l.head?).getD none
  | n + 1, l => tree f n (treeLevel f l)

/-- A node of a reduction: its value, the lowest active lane under it, and the flags with the lane that raised each. -/
structure Node where
  v : Nat
  lane : Nat
  fl : List (Nat × Nat)
  deriving Repr, Inhabited

/-- The leaves of a reduction. -/
def leaves (w : Nat) (x : VaIn) : List (Option Node) :=
  ((maskBits x.mask (4096 / w)).zip (zipLn (4096 / w) 0 (lanesOf w (x.ent 0)) [] [])).map fun p =>
    if p.1 then some { v := p.2.a, lane := p.2.i, fl := [] } else none

/-- The flags of lanes, one result per lane. -/
def laneFlags (n : Nat) (fl : List (Nat × Nat)) : List LaneRes :=
  (countFrom 0 n).map fun i => (0, fl.foldl (fun m p => if p.1 = i then m ||| p.2 else m) 0)

/-- The identity of a reduction (R107). -/
def redIdent (t : Ty) (op : RedOp) : Nat :=
  match op with
  | .min => if t.isF then (t.encode .rne false (.inf false)).1 else lowBits t.width t.range.2
  | .max => if t.isF then (t.encode .rne false (.inf true)).1 else lowBits t.width t.range.1
  | .and => 2 ^ t.width - 1
  | _ => 0

/-- Combines two nodes (R107). -/
def redNode (x : VaIn) (op : RedOp) (a b : Node) : Node :=
  let r : LaneRes := match op with
    | .add => encFlags x.et .rne x.sat ((x.et.value a.v).add .rne (x.et.value b.v))
    | .min => codeMinMax x.et false a.v b.v
    | .max => codeMinMax x.et true a.v b.v
    | .and => (a.v &&& b.v, 0)
    | .or => (a.v ||| b.v, 0)
    | .xor => (a.v ^^^ b.v, 0)
  { v := r.1, lane := a.lane, fl := a.fl ++ b.fl ++ (if r.2 = 0 then [] else [(a.lane, r.2)]) }

/-- A root that no node combined: a NaN is written canonical, a signalling one raises NV (R77). -/
def redRoot (x : VaIn) (op : RedOp) (n : Node) : Node :=
  let v := x.et.value n.v
  match op with
  | .add => if x.et.isF && v.isNaN then { n with v := (x.et.encode .rne false v).1, fl := if v.isSig then n.fl ++ [(n.lane, fNV)] else n.fl } else n
  | .min => if x.et.isF && v.isNaN then { n with v := (x.et.encode .rne false v).1, fl := if v.isSig then n.fl ++ [(n.lane, fNV)] else n.fl } else n
  | .max => if x.et.isF && v.isNaN then { n with v := (x.et.encode .rne false v).1, fl := if v.isSig then n.fl ++ [(n.lane, fNV)] else n.fl } else n
  | _ => n

/-- VRED (R107). -/
def runRed (op : RedOp) (x : VaIn) : VaOut :=
  let w := x.et.lane
  let n := 4096 / w
  let lv := leaves w x
  if op = .add && x.et.isInt then
    let sum := lv.foldl (fun (s : Int) p => match p with | some d => s + laneInt x.et d.v | none => s) 0
    let r := x.et.reduce x.sat sum
    { outs := [packLanes w [r.1]], k := 0#512, lanes := [(0, r.2)] }
  else
    match tree (redNode x op) 9 lv with
    | none => { outs := [packLanes w [redIdent x.et op]], k := 0#512, lanes := [] }
    | some r =>
      let r := redRoot x op r
      { outs := [packLanes w [r.v]], k := 0#512, lanes := if r.fl.isEmpty then [] else laneFlags n r.fl }

/-- A node of VARGMAX (R89, R108): the winner, the lowest active lane under the node, and whether the winner is a
signalling NaN that no node has combined yet. -/
structure ArgNode where
  win : Node
  low : Nat
  sig : Bool
  deriving Repr, Inhabited

/-- Combines two nodes of VARGMAX; a signalling NaN raises NV at the node that first combines it, for the lowest active
lane under that node (R89, R108). -/
def argNode (better : Nat → Nat → Bool) (a b : ArgNode) : ArgNode :=
  let fl := a.win.fl ++ b.win.fl ++ (if a.sig || b.sig then [(a.low, fNV)] else [])
  { win := { (if better b.win.v a.win.v then b.win else a.win) with fl := fl }, low := a.low, sig := false }

/-- VARGMAX (R108). DEDUCED: assumption log entry 13. -/
def runArgmax (x : VaIn) : VaOut :=
  let w := x.et.lane
  let n := 4096 / w
  let lv := leaves w x
  let isNan := fun (v : Nat) => x.et.isF && (x.et.value v).isNaN
  let gt := fun (a b : Nat) => if x.et.isF then (x.et.value b).lt (x.et.value a) else decide (laneInt x.et b < laneInt x.et a)
  let better := fun (b a : Nat) => !isNan b && (isNan a || gt b a)
  let lv := lv.map fun p => p.map fun d => { win := d, low := d.lane, sig := x.et.isF && (x.et.value d.v).isSig : ArgNode }
  let out := fun (v i : Nat) => BitVec.ofNat 4096 (v % 2 ^ w + i * 2 ^ 64)
  match tree (argNode better) 9 lv with
  | none => { outs := [out (redIdent x.et .max) 0xFFFFFFFF], k := 0#512, lanes := [] }
  | some r =>
    let fl := r.win.fl ++ (if r.sig then [(r.low, fNV)] else [])
    let v := if isNan r.win.v then (x.et.encode .rne false (.nan false)).1 else r.win.v
    { outs := [out v r.win.lane], k := 0#512, lanes := if fl.isEmpty then [] else laneFlags n fl }

/-! ## Conversions and repacking (R109 to R113) -/

/-- The values of sq4 source elements: groups of 64 bytes decoded under a tag of scale 1 (R110), each with UNFUNDED for
the outliers beyond the fourth. A group is decoded whole even where only its first half is converted, and an outlier of the
other half then counts too. DESIGN CHOICE: assumption log entry 69. -/
def sq4Source (n : Nat) (v : Nat) : List (Num × Nat) :=
  let groups := lanesFrom 512 8 v
  (groups.flatMap fun g =>
    let r := decodeBlock .sq4 0x7F21 g
    (r.1.zip (countFrom 0 128)).map fun p => (p.1, if r.2 && p.2 = 0 then fUNF else 0)).take n

/-- The random word of a destination element (R111). -/
def randWord (r : VData) (e : Nat) : Nat :=
  let w := fld r.toNat (32 * (e % 128)) 32
  let k := 4 * (e / 128)
  (w * 2 ^ k + w / 2 ^ (32 - k)) % 2 ^ 32

/-- The rounding rule of an element of VCVT (R36, R109, R111). -/
def cvtMode (x : VaIn) (rs : RSel) (e : Nat) : RM :=
  match rs with
  | .vtype => x.rm
  | .rne => .rne
  | .rtz => .rtz
  | .sr => .sr (randWord (x.ent 1) e)

/-- VCVT (R109 to R111). -/
def runCvt (t : Ty) (rs : RSel) (x : VaIn) : VaOut :=
  let ws := x.et.width
  let wt := t.width
  let n := 4096 / Nat.max ws wt
  let conv (e : Nat) (rm : RM) : Num × Nat → LaneRes := fun p => let r := t.encode rm x.sat p.1; let _ := e; (r.1, r.2 ||| p.2)
  let res : List LaneRes :=
    if x.et = .sq4 then
      ((sq4Source n (x.ent 0).toNat).zip (countFrom 0 n)).map fun p => conv p.2 (cvtMode x rs p.2) p.1
    else
      ((lanesFrom ws n (x.ent 0).toNat).zip (countFrom 0 n)).map fun p =>
        if x.et.isInt && t.isInt then t.reduce x.sat (laneInt x.et p.1)
        else
          let v := x.et.value p.1
          let r := t.encode (cvtMode x rs p.2) x.sat v
          (r.1, if v.isSig then r.2 ||| fNV else r.2)
  { outs := [BitVec.ofNat 4096 (packNat wt (res.map (·.1)))], k := 0#512, lanes := res }

/-- The ratio of two widths when it is one that VPACK and VUNPK allow (R112). -/
def packRatio (big small : Nat) : Option Nat :=
  let r := big / small
  if r * small = big && (r = 2 || r = 4 || r = 8 || r = 16) then some r else none

/-- VPACK (R112). -/
def runPack (ratio : Nat) (x : VaIn) : VaOut :=
  let s := 4096 / ratio
  { outs := [packLanes s (x.ents.map fun e => e.data.toNat)], k := 0#512, lanes := [] }

/-- VUNPK (R112). -/
def runUnpk (ratio m : Nat) (x : VaIn) : VaOut :=
  let s := 4096 / ratio
  { outs := (lanesFrom s m (x.ent 0).toNat).map fun v => BitVec.ofNat 4096 v, k := 0#512, lanes := [] }

/-- The scale of a sub-block of a tag in f32 (R113). -/
def tagScale (tag j : Nat) : LaneRes :=
  if tagMalformed tag || (tagTy tag).isNone then (0x7FC00000, fNV)
  else if fld tag 8 8 = 255 then (0x7FC00000, 0)
  else ((Ty.f32.encode .rne false (.fin false 1 ((fld tag 8 8 : Int) - tagDec tag j - 127))).1, 0)

/-- The mixing function of VMIX (R114). -/
def mix (c s : W32) : W32 :=
  let h := c ^^^ (s * 0x9E3779B9#32)
  let h := (h ^^^ (h >>> 16)) * 0x85EBCA6B#32
  let h := (h ^^^ (h >>> 13)) * 0xC2B2AE35#32
  let h := (h ^^^ (h >>> 16)) * 0x27D4EB2F#32
  h ^^^ (h >>> 15)

/-- VUNIF of a lane (R115). -/
def unif (v : Nat) : Nat := (Ty.f32.encode .rne false (.fin false (2 * (v / 512) + 1) (-24))).1

/-! ## The instructions -/

/-- The mask field's register. -/
def mkReg (mk : BitVec 3) : Nat := mk.toNat % 4

/-- A VA.R instruction of two sources. -/
def vaR (acc : Ty → Bool) (vd va vb : BitVec 6) (mk : BitVec 3) (pa pb : Bool) (run : VaIn → VaOut) : VaOp :=
  { acc := acc, vd := some vd.toNat, pushes := fun _ => some 1, srcs := fun _ => [(va.toNat, pa), (vb.toNat, pb)], mkf := mk
    ks := [], kd := none, run := run }

/-- A VA.R instruction that also takes the head of vd. -/
def vaR3 (acc : Ty → Bool) (vd va vb : BitVec 6) (mk : BitVec 3) (pa pb : Bool) (run : VaIn → VaOut) : VaOp :=
  { vaR acc vd va vb mk pa pb run with srcs := fun _ => [(va.toNat, pa), (vb.toNat, pb), (vd.toNat, false)] }

/-- A VA instruction of one vector source. -/
def vaX (acc : Ty → Bool) (vd va : BitVec 6) (mk : BitVec 3) (pa : Bool) (run : VaIn → VaOut) : VaOp :=
  { acc := acc, vd := some vd.toNat, pushes := fun _ => some 1, srcs := fun _ => [(va.toNat, pa)], mkf := mk
    ks := [], kd := none, run := run }

/-- A lane of a function of one value (R97). -/
def laneFn (x : VaIn) (f : Num → Num × Nat) : VaOut := laneEt x fun l => encFlags x.et x.rm x.sat (f (x.et.value l.a))

/-- A widening arithmetic of two or three sources (R94). DEDUCED: assumption log entry 13. -/
def runWide (x : VaIn) (ff : Num → Num → Num → Num × Nat) (fi : Int → Int → Int → Int) : VaOut :=
  let t := wideTy x.et
  laneWise x x.et.width t.width t.width fun l =>
    arith t x.rm x.sat (fun _ => ff (x.et.value l.a) (x.et.value l.b) (t.value l.c))
      (fun _ => fi (laneInt x.et l.a) (laneInt x.et l.b) (laneInt t l.c))

/-- The absolute value of a value (R97). -/
def absNum : Num → Num
  | .fin _ m e => .fin false m e
  | .inf _ => .inf false
  | .nan s => .nan s

/-- The NV flag of a signalling operand. -/
def sigOf (x : Num) : Nat := if x.isSig then fNV else 0

/-- The VA instructions but the token entries and VSETT (R36). -/
def vaOp : Instr → Option VaOp
  | .vadd vd va vb mk pa pb => some (vaR accFI vd va vb mk pa pb fun x => laneEt x (laneAdd x))
  | .vsub vd va vb mk pa pb => some (vaR accFI vd va vb mk pa pb fun x => laneEt x (laneSub x))
  | .vmul vd va vb mk pa pb => some (vaR accFI vd va vb mk pa pb fun x => laneEt x (laneMul x))
  | .vfma vd va vb mk pa pb => some (vaR3 accFI vd va vb mk pa pb fun x => laneEt x (laneFma x))
  | .vfnma vd va vb mk pa pb => some (vaR3 accFI vd va vb mk pa pb fun x => laneEt x (laneFnma x))
  | .vmin vd va vb mk pa pb => some (vaR accFI vd va vb mk pa pb fun x => laneEt x fun l => codeMinMax x.et false l.a l.b)
  | .vmax vd va vb mk pa pb => some (vaR accFI vd va vb mk pa pb fun x => laneEt x fun l => codeMinMax x.et true l.a l.b)
  | .vdiv vd va vb mk pa pb => some (vaR accF vd va vb mk pa pb fun x =>
      laneEt x fun l => encFlags x.et x.rm x.sat ((x.et.value l.a).div (x.et.value l.b)))
  | .vscale vd va vb mk pa pb => some (vaR accF vd va vb mk pa pb fun x => laneEt x (laneScale x))
  | .vaddx vd va vb mk pa pb => some (vaR accWiden vd va vb mk pa pb fun x =>
      runWide x (fun a b _ => a.add x.rm b) (fun a b _ => a + b))
  | .vmulx vd va vb mk pa pb => some (vaR accWiden vd va vb mk pa pb fun x =>
      runWide x (fun a b _ => a.mul b) (fun a b _ => a * b))
  | .vfmax vd va vb mk pa pb => some (vaR3 accWiden vd va vb mk pa pb fun x =>
      runWide x (fun a b c => Num.fma x.rm a b c) (fun a b c => a * b + c))
  | .vand vd va vb mk pa pb => some (vaR accA vd va vb mk pa pb fun x => laneEt x fun l => (l.a &&& l.b, 0))
  | .vor vd va vb mk pa pb => some (vaR accA vd va vb mk pa pb fun x => laneEt x fun l => (l.a ||| l.b, 0))
  | .vxor vd va vb mk pa pb => some (vaR accA vd va vb mk pa pb fun x => laneEt x fun l => (l.a ^^^ l.b, 0))
  | .vshl vd va vb mk pa pb => some (vaR accI vd va vb mk pa pb fun x => laneEt x fun l => (laneShift x.et.width 0 l.a l.b, 0))
  | .vshr vd va vb mk pa pb => some (vaR accI vd va vb mk pa pb fun x => laneEt x fun l => (laneShift x.et.width 1 l.a l.b, 0))
  | .vsra vd va vb mk pa pb => some (vaR accI vd va vb mk pa pb fun x => laneEt x fun l => (laneShift x.et.width 2 l.a l.b, 0))
  | .vsel vd va vb k pa pb => some (vaR accA vd va vb (k.zeroExtend 3) pa pb fun x =>
      let w := x.et.lane
      let n := 4096 / w
      let r := activeLanes (fun l => (l.a, 0)) (maskBits x.mask n) (lanesOf w (x.ent 1)) (zipLn n 0 (lanesOf w (x.ent 0)) [] [])
      { outs := [packLanes w (r.map (·.1))], k := 0#512, lanes := [] })
  | .vperm vd va vb mk pa pb => some (vaR accA vd va vb mk pa pb fun x =>
      let w := x.et.lane
      let src := (x.ent 0).toNat
      laneEt x fun l =>
        if w = 8 then (fld src (8 * (256 * (l.i / 256) + l.b)) 8, 0)
        else if 4096 / w ≤ l.b then (0, 0) else (fld src (w * l.b) w, 0))
  | .vmix vd va vb mk pa pb => some (vaR accA vd va vb mk pa pb fun x =>
      lane32 x fun l => ((mix (BitVec.ofNat 32 l.a) (BitVec.ofNat 32 l.b)).toNat, 0))
  | .vbcast vd _ k => some { vaX accA vd 0#6 (k.zeroExtend 3) false (fun x => laneEt x fun _ => (x.xb.toNat % 2 ^ x.et.lane, 0)) with
      srcs := fun _ => [] }
  | .vextr vd va _ mk pa => some (vaX accA vd va mk pa fun x =>
      let w := x.et.lane
      let v := fld (x.ent 0).toNat (w * (x.xb.toNat % (4096 / w))) w
      laneEt x fun _ => (v, 0))
  | .vrot vd va _ mk pa => some (vaX accA vd va mk pa fun x =>
      let w := x.et.lane
      let n := 4096 / w
      let src := (x.ent 0).toNat
      let sh := x.xb.toNat % n
      laneEt x fun l => (fld src (w * ((l.i + sh) % n)) w, 0))
  | .vabs vd va mk pa => some (vaX accFI vd va mk pa fun x => laneEt x fun l =>
      arith x.et x.rm x.sat (fun _ => let v := x.et.value l.a; (absNum v, sigOf v)) (fun _ => |laneInt x.et l.a|))
  | .vneg vd va mk pa => some (vaX accFI vd va mk pa fun x => laneEt x fun l =>
      arith x.et x.rm x.sat (fun _ => let v := x.et.value l.a; (v.neg, sigOf v)) (fun _ => -laneInt x.et l.a))
  | .vsqrt vd va mk pa => some (vaX accF vd va mk pa fun x => laneFn x Num.sqrt)
  | .vrsq vd va mk pa => some (vaX accF vd va mk pa fun x => laneFn x Num.rsq)
  | .vexp2 vd va mk pa => some (vaX accF vd va mk pa fun x => laneFn x Num.exp2)
  | .vlog2 vd va mk pa => some (vaX accF vd va mk pa fun x => laneFn x Num.log2)
  | .vrnd vd va rm mk pa => some (vaX accF vd va mk pa fun x => laneEt x fun l =>
      encFlags x.et .rne false (Num.integral (RM.ofCode rm.code) (x.et.value l.a)))
  | .vfclass vd va mk pa => some (vaX accF vd va mk pa fun x => laneEt x fun l => (fclass x.et l.a, 0))
  | .vcnt vd va mk pa => some (vaX accI vd va mk pa fun x => laneEt x fun l =>
      (((lanesFrom 1 x.et.width l.a).foldl (· + ·) 0), 0))
  | .vmov vd va mk pa => some (vaX accA vd va mk pa fun x => laneEt x fun l => (l.a, 0))
  | .viota vd k => some { vaX accFI vd 0#6 (k.zeroExtend 3) false (fun x => laneEt x fun l =>
      (if x.et.isF then (x.et.encode .rne false (.fin false l.i 0)).1 else l.i % 2 ^ x.et.width, 0)) with srcs := fun _ => [] }
  | .vred vd va op k pa => some (vaX accFI vd va (k.zeroExtend 3) pa (runRed op))
  | .vargmax vd va k pa => some (vaX accFI vd va (k.zeroExtend 3) pa runArgmax)
  | .vpack vd va t => some { vaX accA vd va 0#3 false (fun x => runPack ((packRatio x.et.width t.width).getD 2) x) with
      pushes := fun et => (packRatio et.width t.width).map fun _ => 1
      srcs := fun et => List.replicate (Nat.min ((packRatio et.width t.width).getD 2) 4) (va.toNat, false) }
  | .vunpk vd va t pa => some { vaX accA vd va 0#3 pa
        (fun x => let r := (packRatio t.width x.et.width).getD 2; runUnpk r (Nat.min r 4) x) with
      pushes := fun et => (packRatio t.width et.width).map fun r => Nat.min r 4 }
  | .vdrop va n => some { vaX accA 0#6 va 0#3 false (fun _ => { outs := [], k := 0#512, lanes := [] }) with
      vd := none, pushes := fun _ => some 0, srcs := fun _ => List.replicate (n.toNat + 1) (va.toNat, false) }
  | .vtagr vd va mk pa => some (vaX accA vd va mk pa fun x =>
      let src := (x.ent 0).toNat
      lane32 x fun l => tagScale (fld src (32 * (l.i / 4)) 32) (l.i % 4))
  | .vunif vd va mk pa => some (vaX accA vd va mk pa fun x => lane32 x fun l => (unif l.a, 0))
  | .vcmp kd c va vb mk pa pb => some { vaR accFI 0#6 va vb mk pa pb (runCmp c) with
      vd := none, pushes := fun _ => some 0, kd := some kd.toNat }
  | .vcvt vd va t rs vr => some { vaX accA vd va 0#3 false (runCvt t rs) with
      srcs := fun _ => if rs = .sr then [(va.toNat, false), (vr.toNat, false)] else [(va.toNat, false)] }
  | .kop kd ka kb fn => some
      { acc := accA, vd := none, pushes := fun _ => some 0, srcs := fun _ => [], mkf := 0#3, ks := [ka.toNat, kb.toNat]
        kd := some kd.toNat
        run := fun x =>
          let pick := fun (i : Nat) (m : BitVec 512) => if fn.getLsbD i then m else 0#512
          { outs := []
            k := pick 0 (~~~x.ka &&& ~~~x.kb) ||| pick 1 (~~~x.ka &&& x.kb) ||| pick 2 (x.ka &&& ~~~x.kb) ||| pick 3 (x.ka &&& x.kb)
            lanes := [] } }
  | .kpopc vd ka => some
      { acc := accA, vd := some vd.toNat, pushes := fun _ => some 1, srcs := fun _ => [], mkf := 0#3, ks := [ka.toNat], kd := none
        run := fun x =>
          { outs := [BitVec.ofNat 4096 ((maskBits x.ka (4096 / x.et.lane)).foldl (fun n b => if b then n + 1 else n) 0)]
            k := 0#512, lanes := [] } }
  | _ => none

/-- A register is output-bound for a VA entry: its stream runs, or its binding entry is still queued (R43, R86). -/
def Thread.outBound (t : Thread) (ser reg : Nat) : Bool :=
  let r := t.live.v.get reg
  (r.strm.active && r.strm.out) ||
    (t.queue .vs).entries.any fun x => x.ser ≤ ser && (match x.word with | .vbindo v _ => v.toNat = reg | _ => false)

/-- ILLEGAL at an entry: TRAP_ADDR holds the PC of its word (R29, R81). DESIGN CHOICE: assumption log entry 12. -/
def illegalEntry {α : Type} (q : QEntry) : M α := raise (mkTrap 1 q.pc 0)

/-- The common step of a VA entry (R84). A merging VCMP reads the old value of its mask register too, with its owner (R101,
R284); the result of a word older than a TCLRV of its register carries no taint (R254). -/
def vaEntry (op : VaOp) (key : Nat) (q : QEntry) : M Unit := do
  let t ← getThr key
  let f := t.live
  let et := vtEt f.vtype
  if !op.acc et then illegalEntry q
  match op.pushes et with
  | none => illegalEntry q
  | some p =>
    let vd := op.vd.getD 0
    let occ := (f.v.get vd).fifo.length
    if op.vd.isSome && t.outBound q.ser vd && 4 < occ + p then stall .full
    let (ents, n) ← readSources key .va q.ser (op.srcs et) [] []
    if op.vd.isSome && 4 < occ - n.get vd + p then raise (mkTrap 9 0 0)
    let mk := f.rk (mkReg op.mkf)
    let ks := op.ks.map f.rk
    let xb : XReg := (q.ops.head?).getD default
    let masks := mk :: ks
    let old := if op.mkf.getLsbD 2 then op.kd.toList.map f.rk else []
    let owner ← ownerOf ents
    let kOwner ← if passBase ≤ key then
        ownerOf (ents ++ (masks ++ old).map fun k => { (default : VEntry) with owner := k.owner })
      else pure 0#32
    let x : VaIn :=
      { et := et, rm := vtRm f.vtype, sat := vtSat f.vtype, ents := ents, mask := mk.val, merge := op.mkf.getLsbD 2, xb := xb.val
        ka := ((ks[0]?).getD default).val, kb := ((ks[1]?).getD default).val, kold := (f.rk (op.kd.getD 0)).val }
    let r := op.run x
    let en := vtTrapen f.vtype
    let fpe := allFlags r.lanes &&& en ≠ 0
    if fpe && !(passBase ≤ key && kOwner ≠ 0#32) then raise (fpeTrap en r.lanes)
    if fpe then modify fun s => s.poisonOwner key kOwner 13
    let r := if fpe then { outs := r.outs.map fun _ => 0, k := 0#512, lanes := [] } else r
    let taint := entryTaint ents ||| masks.foldl (fun m k => m ||| k.taint) 0#16 ||| xb.taint
    let sat := ents.any (·.sat) || masks.any (·.sat) || xb.sat
    let cleared := decide (q.ser < t.clearV.get vd)
    let after := masks.foldl (fun c k => joinClk k.after c) (joinClk q.deps (entryAfter ents))
    let outOwner := match q.word with | .kpopc _ _ => kOwner | _ => owner
    modThr key fun t =>
      let t := match op.kd with | some k => t.keepMask k q.ser | none => t
      t.updLive fun f =>
        let f := f.popV n
        let f := if op.vd.isSome then
            f.updV vd fun v => v.pushL (r.outs.map fun d =>
              { data := d, taint := if cleared then 0#16 else taint, sat := sat && !cleared, owner := outOwner
                after := if cleared then [] else after }) else f
        let f := match op.kd with
          | some k => f.wk k { val := r.k, taint := taint, sat := sat, owner := kOwner, after := after }
          | none => f
        { f with vstat := vstatOr f.vstat (allFlags r.lanes) }

/-- VSETT at its entry (R118). -/
def vsettEntry (key : Nat) (q : QEntry) (v : Nat) : M Unit := do
  if !vtypeOk v then illegalEntry q
  modThr key fun t => t.updLive fun f => { f with vtype := BitVec.ofNat 32 (v % 8192) }

/-- The effect of a VA entry (R84, R118, R119). -/
def vaEffect (key : Nat) (q : QEntry) : M Unit :=
  match q.word with
  | .vsett imm => vsettEntry key q imm.toNat
  | .vsettXa _ => vsettEntry key q (((q.ops.head?).getD default).val.toNat % 8192)
  | .vawait f n => tokenWait key .va q f n
  | .vaset f n => tokenSet key .va q f n.toNat 3
  | w => match vaOp w with
    | some op => vaEntry op key q
    | none => pure ()

/-- A VA word: bindings are checked, and the entry pushed (R30, R43). -/
def vaWord (w : Instr) (writes reads : List (BitVec 6)) (ops : List (BitVec 5)) (flag : Option (BitVec 8)) (s : State) : Out :=
  engineWord .va vaEffect (fun key => do
    bindOk key writes reads []
    pushEntry key .va w ops flag false) s

/-- VADD (R91, R92). -/
def execVadd (vd va vb : BitVec 6) (mk : BitVec 3) (pa pb : Bool) (s : State) : Out :=
  vaWord (.vadd vd va vb mk pa pb) [vd] [va, vb] [] none s

/-- VSUB (R91, R92). -/
def execVsub (vd va vb : BitVec 6) (mk : BitVec 3) (pa pb : Bool) (s : State) : Out :=
  vaWord (.vsub vd va vb mk pa pb) [vd] [va, vb] [] none s

/-- VMUL (R91, R92). -/
def execVmul (vd va vb : BitVec 6) (mk : BitVec 3) (pa pb : Bool) (s : State) : Out :=
  vaWord (.vmul vd va vb mk pa pb) [vd] [va, vb] [] none s

/-- VMIN (R93). -/
def execVmin (vd va vb : BitVec 6) (mk : BitVec 3) (pa pb : Bool) (s : State) : Out :=
  vaWord (.vmin vd va vb mk pa pb) [vd] [va, vb] [] none s

/-- VMAX (R93). -/
def execVmax (vd va vb : BitVec 6) (mk : BitVec 3) (pa pb : Bool) (s : State) : Out :=
  vaWord (.vmax vd va vb mk pa pb) [vd] [va, vb] [] none s

/-- VDIV (R97). -/
def execVdiv (vd va vb : BitVec 6) (mk : BitVec 3) (pa pb : Bool) (s : State) : Out :=
  vaWord (.vdiv vd va vb mk pa pb) [vd] [va, vb] [] none s

/-- VSCALE (R95). -/
def execVscale (vd va vb : BitVec 6) (mk : BitVec 3) (pa pb : Bool) (s : State) : Out :=
  vaWord (.vscale vd va vb mk pa pb) [vd] [va, vb] [] none s

/-- VADDX (R94). -/
def execVaddx (vd va vb : BitVec 6) (mk : BitVec 3) (pa pb : Bool) (s : State) : Out :=
  vaWord (.vaddx vd va vb mk pa pb) [vd] [va, vb] [] none s

/-- VMULX (R94). -/
def execVmulx (vd va vb : BitVec 6) (mk : BitVec 3) (pa pb : Bool) (s : State) : Out :=
  vaWord (.vmulx vd va vb mk pa pb) [vd] [va, vb] [] none s

/-- VAND (R96). -/
def execVand (vd va vb : BitVec 6) (mk : BitVec 3) (pa pb : Bool) (s : State) : Out :=
  vaWord (.vand vd va vb mk pa pb) [vd] [va, vb] [] none s

/-- VOR (R96). -/
def execVor (vd va vb : BitVec 6) (mk : BitVec 3) (pa pb : Bool) (s : State) : Out :=
  vaWord (.vor vd va vb mk pa pb) [vd] [va, vb] [] none s

/-- VXOR (R96). -/
def execVxor (vd va vb : BitVec 6) (mk : BitVec 3) (pa pb : Bool) (s : State) : Out :=
  vaWord (.vxor vd va vb mk pa pb) [vd] [va, vb] [] none s

/-- VSHL (R96). -/
def execVshl (vd va vb : BitVec 6) (mk : BitVec 3) (pa pb : Bool) (s : State) : Out :=
  vaWord (.vshl vd va vb mk pa pb) [vd] [va, vb] [] none s

/-- VSHR (R96). -/
def execVshr (vd va vb : BitVec 6) (mk : BitVec 3) (pa pb : Bool) (s : State) : Out :=
  vaWord (.vshr vd va vb mk pa pb) [vd] [va, vb] [] none s

/-- VSRA (R96). -/
def execVsra (vd va vb : BitVec 6) (mk : BitVec 3) (pa pb : Bool) (s : State) : Out :=
  vaWord (.vsra vd va vb mk pa pb) [vd] [va, vb] [] none s

/-- VPERM (R104). -/
def execVperm (vd va vb : BitVec 6) (mk : BitVec 3) (pa pb : Bool) (s : State) : Out :=
  vaWord (.vperm vd va vb mk pa pb) [vd] [va, vb] [] none s

/-- VMIX (R114). -/
def execVmix (vd va vb : BitVec 6) (mk : BitVec 3) (pa pb : Bool) (s : State) : Out :=
  vaWord (.vmix vd va vb mk pa pb) [vd] [va, vb] [] none s

/-- VFMA (R93). -/
def execVfma (vd va vb : BitVec 6) (mk : BitVec 3) (pa pb : Bool) (s : State) : Out :=
  vaWord (.vfma vd va vb mk pa pb) [vd] [va, vb, vd] [] none s

/-- VFNMA (R93). -/
def execVfnma (vd va vb : BitVec 6) (mk : BitVec 3) (pa pb : Bool) (s : State) : Out :=
  vaWord (.vfnma vd va vb mk pa pb) [vd] [va, vb, vd] [] none s

/-- VFMAX (R94). -/
def execVfmax (vd va vb : BitVec 6) (mk : BitVec 3) (pa pb : Bool) (s : State) : Out :=
  vaWord (.vfmax vd va vb mk pa pb) [vd] [va, vb, vd] [] none s

/-- VABS (R97). -/
def execVabs (vd va : BitVec 6) (mk : BitVec 3) (pa : Bool) (s : State) : Out :=
  vaWord (.vabs vd va mk pa) [vd] [va] [] none s

/-- VNEG (R97). -/
def execVneg (vd va : BitVec 6) (mk : BitVec 3) (pa : Bool) (s : State) : Out :=
  vaWord (.vneg vd va mk pa) [vd] [va] [] none s

/-- VSQRT (R97). -/
def execVsqrt (vd va : BitVec 6) (mk : BitVec 3) (pa : Bool) (s : State) : Out :=
  vaWord (.vsqrt vd va mk pa) [vd] [va] [] none s

/-- VRSQ (R97). -/
def execVrsq (vd va : BitVec 6) (mk : BitVec 3) (pa : Bool) (s : State) : Out :=
  vaWord (.vrsq vd va mk pa) [vd] [va] [] none s

/-- VEXP2 (R97). -/
def execVexp2 (vd va : BitVec 6) (mk : BitVec 3) (pa : Bool) (s : State) : Out :=
  vaWord (.vexp2 vd va mk pa) [vd] [va] [] none s

/-- VLOG2 (R97). -/
def execVlog2 (vd va : BitVec 6) (mk : BitVec 3) (pa : Bool) (s : State) : Out :=
  vaWord (.vlog2 vd va mk pa) [vd] [va] [] none s

/-- VFCLASS (R99). -/
def execVfclass (vd va : BitVec 6) (mk : BitVec 3) (pa : Bool) (s : State) : Out :=
  vaWord (.vfclass vd va mk pa) [vd] [va] [] none s

/-- VCNT (R100). -/
def execVcnt (vd va : BitVec 6) (mk : BitVec 3) (pa : Bool) (s : State) : Out :=
  vaWord (.vcnt vd va mk pa) [vd] [va] [] none s

/-- VMOV (R116). -/
def execVmov (vd va : BitVec 6) (mk : BitVec 3) (pa : Bool) (s : State) : Out :=
  vaWord (.vmov vd va mk pa) [vd] [va] [] none s

/-- VTAGR (R113). -/
def execVtagr (vd va : BitVec 6) (mk : BitVec 3) (pa : Bool) (s : State) : Out :=
  vaWord (.vtagr vd va mk pa) [vd] [va] [] none s

/-- VUNIF (R115). -/
def execVunif (vd va : BitVec 6) (mk : BitVec 3) (pa : Bool) (s : State) : Out :=
  vaWord (.vunif vd va mk pa) [vd] [va] [] none s

/-- VSEL (R103). -/
def execVsel (vd va vb : BitVec 6) (k : BitVec 2) (pa pb : Bool) (s : State) : Out :=
  vaWord (.vsel vd va vb k pa pb) [vd] [va, vb] [] none s

/-- VBCAST (R105). -/
def execVbcast (vd : BitVec 6) (xb : BitVec 5) (k : BitVec 2) (s : State) : Out :=
  vaWord (.vbcast vd xb k) [vd] [] [xb] none s

/-- VEXTR (R105). -/
def execVextr (vd va : BitVec 6) (xb : BitVec 5) (mk : BitVec 3) (pa : Bool) (s : State) : Out :=
  vaWord (.vextr vd va xb mk pa) [vd] [va] [xb] none s

/-- VROT (R105). -/
def execVrot (vd va : BitVec 6) (xb : BitVec 5) (mk : BitVec 3) (pa : Bool) (s : State) : Out :=
  vaWord (.vrot vd va xb mk pa) [vd] [va] [xb] none s

/-- VRND (R98). -/
def execVrnd (vd va : BitVec 6) (rm : RMode) (mk : BitVec 3) (pa : Bool) (s : State) : Out :=
  vaWord (.vrnd vd va rm mk pa) [vd] [va] [] none s

/-- VIOTA (R106). -/
def execViota (vd : BitVec 6) (k : BitVec 2) (s : State) : Out := vaWord (.viota vd k) [vd] [] [] none s

/-- VRED (R107). -/
def execVred (vd va : BitVec 6) (op : RedOp) (k : BitVec 2) (pa : Bool) (s : State) : Out :=
  vaWord (.vred vd va op k pa) [vd] [va] [] none s

/-- VARGMAX (R108). -/
def execVargmax (vd va : BitVec 6) (k : BitVec 2) (pa : Bool) (s : State) : Out :=
  vaWord (.vargmax vd va k pa) [vd] [va] [] none s

/-- VPACK (R112). -/
def execVpack (vd va : BitVec 6) (t : Ty) (s : State) : Out := vaWord (.vpack vd va t) [vd] [va] [] none s

/-- VUNPK (R112). -/
def execVunpk (vd va : BitVec 6) (t : Ty) (pa : Bool) (s : State) : Out := vaWord (.vunpk vd va t pa) [vd] [va] [] none s

/-- VDROP (R117). -/
def execVdrop (va : BitVec 6) (n : BitVec 2) (s : State) : Out := vaWord (.vdrop va n) [] [va] [] none s

/-- VCMP (R101). -/
def execVcmp (kd : BitVec 3) (c : Cond) (va vb : BitVec 6) (mk : BitVec 3) (pa pb : Bool) (s : State) : Out :=
  vaWord (.vcmp kd c va vb mk pa pb) [] [va, vb] [] none s

/-- VCVT (R109 to R111). -/
def execVcvt (vd va : BitVec 6) (t : Ty) (rs : RSel) (vr : BitVec 5) (s : State) : Out :=
  vaWord (.vcvt vd va t rs vr) [vd] (if rs = .sr then [va, vr.zeroExtend 6] else [va]) [] none s

/-- KOP (R102). -/
def execKop (kd ka kb : BitVec 3) (fn : BitVec 4) (s : State) : Out := vaWord (.kop kd ka kb fn) [] [] [] none s

/-- KPOPC (R102). -/
def execKpopc (vd : BitVec 6) (ka : BitVec 3) (s : State) : Out := vaWord (.kpopc vd ka) [vd] [] [] none s

/-- VSETT with an immediate (R118). -/
def execVsett (imm : BitVec 13) (s : State) : Out := vaWord (.vsett imm) [] [] [] none s

/-- VSETT with a register (R118). -/
def execVsettXa (xa : BitVec 5) (s : State) : Out := vaWord (.vsettXa xa) [] [] [xa] none s

/-- VAWAIT (R39, R119). -/
def execVawait (f : BitVec 8) (n : BitVec 9) (s : State) : Out := vaWord (.vawait f n) [] [] [] (some f) s

/-- VASET (R39, R119). -/
def execVaset (f : BitVec 8) (n : BitVec 9) (s : State) : Out := vaWord (.vaset f n) [] [] [] (some f) s

end Sys2Proof.Machine
end

