-- ==== Sys2Proof/Machine/VectorLoad.lean ====
section
/-! DEFINITION. The VL engine: vector loads, tag loads, gathers and input streams (R189, R190, R203 to R208, R213). -/

namespace Sys2Proof.Machine

/-- The request of an access by an entry (R151, R191). -/
def entryReq (key : Nat) (e : Eng) (q : QEntry) (reach : Reach) : Req :=
  { key := key, path := e.path, ver := q.ver, marked := false, scope := 0, reach := reach, poison := true
    num := some q.num, ser := some q.ser, wps := some q.wps }

/-- The byte of each vector entry index. -/
def dataBytes (d : VData) : List Byte := natLE 512 d.toNat

/-- The vector entry of bytes, zeros above them. -/
def bytesData (l : List Byte) : VData := BitVec.ofNat 4096 (leNat l)

/-- The units of an access entry: each unit's position in the entry and its address (R189). -/
structure Unit_ where
  pos : Nat
  va : Nat
  len : Nat
  deriving Repr, Inhabited

/-- Joins units that follow one another in the entry and in memory. -/
def joinUnits : List Unit_ → List Unit_
  | a :: b :: t =>
    match joinUnits (b :: t) with
    | c :: r => if a.pos + a.len = c.pos && a.va + a.len = c.va then ⟨a.pos, a.va, a.len + c.len⟩ :: r else a :: c :: r
    | [] => [a]
  | l => l

/-- The active units of n bytes of an entry (R189): unit i lies at an address and is governed by mask bit i. -/
def activeUnits (mask : BitVec 512) (count n : Nat) (addr : Nat → Nat) : List Unit_ :=
  (countFrom 0 count).filterMap fun i => if mask.getLsbD i then some ⟨i * n, addr i % two64, n⟩ else none

/-- The active bytes of a contiguous access of 512 bytes (R203). -/
def byteUnits (mask : BitVec 512) (ea : Nat) : List Unit_ :=
  if mask = BitVec.allOnes 512 then [⟨0, ea, 512⟩] else joinUnits (activeUnits mask 512 1 fun i => ea + i)

/-- ALIGN at the lowest address that is not a multiple of a size (R188 step 2). -/
def alignUnits (n : Nat) (l : List Unit_) : M Unit := do
  match lowest ((l.filter fun u => u.va % n ≠ 0).map fun u => mkTrap 3 u.va 0) with
  | some t => raise t
  | none => pure ()

/-- The spans of units. -/
def unitSpans (l : List Unit_) : List (Nat × Nat) := l.map fun u => (u.va, u.len)

/-- The entry that units and their bytes fill (R203): zero elsewhere. -/
def placeUnits : List Unit_ → List Byte → Nat
  | [], _ => 0
  | u :: t, l => leNat (l.take u.len) * 2 ^ (8 * u.pos) + placeUnits t (l.drop u.len)

/-- The bytes of units taken from an entry (R209). -/
def takeUnits (d : VData) (l : List Unit_) : List Byte :=
  l.flatMap fun u => natLE u.len (d.toNat / 2 ^ (8 * u.pos))

/-- Pushes the result of a VL entry with owner 0; TCLRV since then leaves it no taint (R168, R174, R190). Its operand
tickets have bound, and its own binds as the entry leaves; whoever takes the value comes after the load (R154 case 5, R176). -/
def pushLoad (key : Nat) (q : QEntry) (vd : BitVec 6) (d : VData) (sat : Bool) : M Unit :=
  modThr key fun t =>
    let cleared := decide (q.ser < t.clearV.get vd.toNat)
    t.updLive fun f => f.updV vd.toNat fun r =>
      r.pushL [{ data := d, taint := 0#16, sat := !cleared && (sat || orSat q.ops), owner := 0#32
                 after := if cleared then [] else t.clkOf key 1 }]

/-- A VL entry waits for room in its destination, which entries that it pops there itself give it (R42, R190). -/
def loadRoom (key : Nat) (vd : BitVec 6) (pops : Nat) : M Unit := do
  let t ← getThr key
  if 4 + pops ≤ (t.live.v.get vd.toNat).fifo.length then stall .full

/-- A load of units: mask and operand waits, the access, and the push (R189, R203). -/
def loadUnits (key : Nat) (q : QEntry) (vd : BitVec 6) (align : Nat) (units : List Unit_) (taint : BitVec 16) (sat : Bool) (pops : NMap Nat) :
    M Unit := do
  loadRoom key vd (pops.get vd.toNat)
  settleEntry key .vl q taint sat false
  if units.isEmpty then pushLoad key q vd 0 sat
  else
    alignUnits align units
    let l ← readSpans (entryReq key .vl q Reach.all) (unitSpans units)
    pushLoad key q vd (BitVec.ofNat 4096 (placeUnits units l)) sat

/-- The n-th scalar operand that an entry captured. -/
def QEntry.op (q : QEntry) (n : Nat) : XReg := (q.ops[n]?).getD default

/-- The effective address of a VL or VS entry with an immediate in a unit (R203). -/
def QEntry.ea (q : QEntry) (imm : BitVec 11) (unit : Nat) : Nat :=
  (((q.op 0).val + sx64 imm * BitVec.ofNat 64 unit)).toNat

/-- VLD and VST name the 512 bytes at a multiple of 64 (R203). -/
def blockUnits (q : QEntry) (k : KReg) (imm : BitVec 11) : List Unit_ := byteUnits k.val (q.ea imm 64)

/-- ALIGN where the address is no multiple of 64 and some byte is active (R188, R203). -/
def blockAlign (q : QEntry) (k : KReg) (imm : BitVec 11) : M Unit :=
  if k.val ≠ 0#512 && q.ea imm 64 % 64 ≠ 0 then raise (mkTrap 3 (q.ea imm 64) 0) else pure ()

/-- The elements of VLDS and VSTS (R204). -/
def stridedUnits (q : QEntry) (k : KReg) (n : Nat) : List Unit_ :=
  let a := (q.op 0).val
  let st := (q.op 1).val
  activeUnits k.val (512 / n) n fun i => (a + st * BitVec.ofNat 64 i).toNat

/-- The bytes of a strided element size (R34). -/
def esBytes : ESize → Nat
  | .e8 => 1
  | .e16 => 2
  | .e32 => 4

/-- The elements of VLDX and VSTX (R205). -/
def indexedUnits (q : QEntry) (k : KReg) (idx : VData) (iw sc : BitVec 2) (sgn : Bool) : List Unit_ :=
  let n := 2 ^ sc.toNat
  let w := 8 * 2 ^ iw.toNat
  let cnt := Nat.min (512 / n) (4096 / w)
  let a := (q.op 0).val
  let ix := ((lanesFrom w cnt idx.toNat).zip (countFrom 0 cnt)).filterMap fun p =>
    if k.val.getLsbD p.2 then
      let j : Int := if sgn then signedW w p.1 else p.1
      some (⟨p.2 * n, (a + BitVec.ofInt 64 (j * n)).toNat, n⟩ : Unit_)
    else none
  ix

/-- The pieces of the blocks whose tags an entry reads or writes: translation and permission, no bytes (R72, R203). -/
def tagAccess (r : Req) (wr : Bool) (blocks : List Nat) : M (List Piece) := do
  let s ← get
  let t := s.thr r.key
  let pieces ← match resolve s r.key t.cid (!wr) wr r.reach (blocks.map fun b => (b % two64, 64)) with
    | .ok p => pure p
    | .error e => raise (if wr && e.cause = 4#8 then { e with info := e.info ||| 65536#64 } else e)
  if pieces.any (scoreBlocks s r) then stall .other
  modify fun s => s.holdTrans (s.placeOf r.key) t.cid pieces
  noteWrote r pieces
  if wr then writeRoom r (newLines r.key (t.ver r.ver) pieces) ((pieces.head?.map (·.va)).getD 0)
  pure pieces

/-- The tag of a piece's block; host memory has tag 0 (R72). -/
def tagOfPiece (s : State) (key : Nat) (p : Piece) : Nat :=
  match p.space key with
  | some sp => ((s.space sp).tag p.addr).toNat
  | none => 0

/-- VLDT (R203). -/
def vldtEntry (key : Nat) (q : QEntry) (vd : BitVec 6) (k : BitVec 3) (imm : BitVec 11) : M Unit := do
  let m ← accessMask key q k.toNat
  loadRoom key vd 0
  learnAfter key [1] [] [m]
  settleEntry key .vl q m.taint m.sat false
  let ea := q.ea imm 64
  let idx := (countFrom 0 128).filter fun i => m.val.getLsbD i
  if idx.isEmpty then pushLoad key q vd 0 m.sat
  else
    if ea % 64 ≠ 0 then raise (mkTrap 3 (ea + 64 * idx.headD 0) 0)
    let ps ← tagAccess (entryReq key .vl q { Reach.all with remote := false }) false (idx.map fun i => ea + 64 * i)
    let s ← get
    let tags := ps.map (tagOfPiece s key)
    let v := (idx.zip tags).foldl (fun n p => n + p.2 * 2 ^ (32 * p.1)) 0
    pushLoad key q vd (BitVec.ofNat 4096 v) m.sat

/-- VLDB (R203). -/
def vldbEntry (key : Nat) (q : QEntry) (vd : BitVec 6) (k : BitVec 3) (imm : BitVec 11) : M Unit := do
  let m ← accessMask key q k.toNat
  loadRoom key vd 0
  learnAfter key [1] [] [m]
  settleEntry key .vl q m.taint m.sat false
  let act := maskBits m.val 128
  if !act.any id then pushLoad key q vd 0 m.sat
  else
    let ea := q.ea imm 4
    if ea % 4 ≠ 0 then raise (mkTrap 3 ea 0)
    let l ← readSpans (entryReq key .vl q Reach.all) [(ea, 4)]
    let w := leNat l
    pushLoad key q vd (packLanes 32 (act.map fun b => if b then w else 0)) m.sat

/-! ## Streams (R206 to R208) -/

/-- The address of the entry a stream stands at. -/
def Stream.addr (t : Stream) : Nat :=
  let d := fun n => (t.desc[n]?).getD 0
  let n0 := wfld (d 1) 0 32
  let n1 := wfld (d 3) 0 32
  (d 0 + d 2 * BitVec.ofNat 64 (t.pos % n0) + d 4 * BitVec.ofNat 64 (t.pos / n0 % n1) + d 6 * BitVec.ofNat 64 (t.pos / n0 / n1)).toNat

/-- The eight words of the stream descriptor at an address, in bytes; none where a count is 0 or a reserved field is not zero (R6, R206). -/
def parseStream (l : List Byte) : Option (List W64) :=
  let d := (countFrom 0 8).map fun i => BitVec.ofNat 64 (bfld l (8 * i) 8)
  let w := fun n => (d[n]?).getD 0
  if ([1, 3, 5].any fun i => wfld (w i) 0 32 = 0 || wfld (w i) 32 32 ≠ 0) || w 7 ≠ 0 then none else some d

/-- Reads a stream descriptor on a binding path and starts the stream, whose accesses come after all that its word knew; the writes of an
output stream come after what its control taint waited for (R173, R206, R207, R208, R210). -/
def bindStream (key : Nat) (e : Eng) (q : QEntry) (v : BitVec 6) (out : Bool) : M Unit := do
  settleEntry key e q 0#16 false false
  let a := (q.op 0).val.toNat
  if a % 64 ≠ 0 then raise (mkTrap 3 a 0)
  let l ← readSpans (entryReq key e q Reach.all) [(a, 64)]
  let d ← match parseStream l with
    | some d => pure d
    | none => illegalEntry q
  let path := if out then 128 + v.toNat else 64 + v.toNat
  modThr key fun t =>
    let t := (t.learn [path] (t.clkOf key e.path)).learn [path] (if out then q.cdeps else [])
    t.updLive fun f => f.updV v.toNat fun r =>
      { r with strm := { active := true, out := out, descVa := BitVec.ofNat 64 a, desc := d, pos := 0, held := none, taint := q.ctaint, sat := q.csat
                         live := q.live, ver := q.ver, pc := q.pc, slot := q.slot, ser := q.ser, wps := q.wps } }

/-- A stream ends; what follows the unbinding word comes after its accesses (R208). -/
def endStream (key : Nat) (e : Eng) (v : BitVec 6) (out : Bool) : M Unit :=
  modThr key fun t =>
    let path := if out then 128 + v.toNat else 64 + v.toNat
    let t := (t.leaveRdPkt path).learn [e.path] (t.clkOf key path)
    t.updLive fun f => f.updV v.toNat fun r => { r with strm := default }

/-- A stream may move: it runs, is not exhausted, and no fault of it but PAGE is held. -/
def Stream.ready (t : Stream) (out : Bool) : Bool :=
  t.active && t.out = out && (t.desc.isEmpty || t.pos < t.count) && (match t.held with | none => true | some tr => tr.cause = 4#8)

/-- The request of an access of a register's stream: it belongs to the binding word's place among the words pushed (R157, R208, R428). -/
def streamReq (t : Thread) (key path : Nat) (st : Stream) : Req :=
  { key := key, path := path, ver := t.curVer.id, marked := false, scope := 0, reach := Reach.all, poison := true, num := none
    ser := some st.ser, wps := some st.wps }

/-- A stream that comes from a keg reads its descriptor again before it moves, with the checks of its binding (R6, R46, R206; PRESUMED, assumption
log entry 31). -/
def streamDesc (key v path : Nat) : M Unit := do
  let t ← getThr key
  let r := t.live.v.get v
  if r.strm.desc.isEmpty then
    let l ← readSpans (streamReq t key path r.strm) [(r.strm.descVa.toNat, 64)]
    match parseStream l with
    | some d => modThr key fun t => t.updLive fun f => f.updV v fun r => { r with strm := { r.strm with desc := d } }
    | none => raise (mkTrap 1 r.strm.pc 0)

/-- Reads the next entry of an input stream into its register (R207). An entry address that is no multiple of 64 holds ALIGN at that entry's
access (DESIGN CHOICE, assumption log entry 70: R206 names neither the cause nor the moment). -/
def streamRead (key v : Nat) : M Unit := do
  streamDesc key v (64 + v)
  let t ← getThr key
  let r := t.live.v.get v
  if r.strm.pos < r.strm.count then
    let a := r.strm.addr
    if a % 64 ≠ 0 then raise (mkTrap 3 a 0)
    let l ← readSpans (streamReq t key (64 + v) r.strm) [(a, 512)]
    modThr key fun t => t.updLive fun f => f.updV v fun r =>
      { r.pushL [{ data := bytesData l, taint := 0#16, sat := false, owner := 0#32 }] with
        strm := { r.strm with pos := r.strm.pos + 1, held := none } }

/-- Holds a fault of a stream until a consumer, the unbinding word or the next VS entry meets it (R207, R210). -/
def State.holdStream (s : State) (key v : Nat) (tr : Trap) : State :=
  s.updThr key fun t => t.updLive fun f => f.updV v fun r => { r with strm := { r.strm with held := some tr } }

/-- A stream's access that waits has noted hits that it notes again when it is performed (R429). -/
def State.dropHits (s : State) (key : Nat) : State := s.updThr key fun t => { t with hits := [] }

/-- One step of a stream: it moves, which starts the count of R261 anew, and its watchpoint hits are reported, or it waits, or holds its fault. -/
def State.streamStep (s : State) (key v : Nat) (body : Nat → Nat → M Unit) : State :=
  match body key v s with
  | .ok ((), s') => (s'.updThr key fun t => { t with idle := s'.tick }).takeHits key (s'.thr key).pcw
  | .error (.trap tr) => s.holdStream key v tr
  | .error (.stall _) => s
  | .error (.wait _ s') => s'.dropHits key
  | .error (.fault tr s') => s'.holdStream key v tr

/-- One step of every input stream of a thread that can move (R207). -/
def State.inputStreams (s : State) (key : Nat) : State :=
  (s.thr key).live.v.keys.foldl (fun s v =>
    let r := (s.thr key).live.v.get v
    if r.strm.ready false && r.fifo.length < 4 then s.streamStep key v streamRead else s) s

/-- VUNBINDI: the read in flight, when there is one, is pushed first, unless it faults; then the stream ends (R207). -/
def unbindInput (key : Nat) (v : BitVec 6) : M Unit := do
  let t ← getThr key
  if t.rdPkts.has (64 + v.toNat) then
    if 4 ≤ (t.live.v.get v.toNat).fifo.length then stall .full
    fun s => match streamRead key v.toNat s with
      | .error (.trap _) => .ok ((), s)
      | .error (.fault _ s') => .ok ((), s')
      | r => r
  endStream key .vl v false

/-! ## The VL words -/

/-- The effect of a VL entry. -/
def vlEffect (key : Nat) (q : QEntry) : M Unit := do
  match q.word with
  | .vld vd _ k imm =>
    let m ← accessMask key q k.toNat
    learnAfter key [1] [] [m]
    blockAlign q m imm
    loadUnits key q vd 1 (blockUnits q m imm) m.taint m.sat []
  | .vlds vd _ _ k es =>
    let m ← accessMask key q k.toNat
    learnAfter key [1] [] [m]
    loadUnits key q vd (esBytes es) (stridedUnits q m (esBytes es)) m.taint m.sat []
  | .vldx vd _ vb iw sgn sc k =>
    let m ← accessMask key q k.toNat
    let (ents, n) ← readSources key .vl q.ser [(vb.toNat, false)] [] []
    learnAfter key [1] ents [m]
    loadUnits key q vd (2 ^ sc.toNat) (indexedUnits q m ((ents.head?).getD default).data iw sc sgn)
      (m.taint ||| entryTaint ents) (m.sat || ents.any (·.sat)) n
    modThr key fun t => t.updLive fun f => f.popV n
  | .vldt vd _ k imm => vldtEntry key q vd k imm
  | .vldb vd _ k imm => vldbEntry key q vd k imm
  | .vbindi vd _ => bindStream key .vl q vd false
  | .vunbindi vd => unbindInput key vd
  | .vlwait f n => tokenWait key .vl q f n
  | .vlset f n => tokenSet key .vl q f n.toNat 2
  | _ => pure ()

/-- A vector load word: the destination must not be bound, and a ticket is taken (R43, R167). -/
def loadVec (w : Instr) (vd : BitVec 6) (ops : List (BitVec 5)) (s : State) : Out :=
  engineWord .vl vlEffect (fun key => do
    bindOk key [] [] [vd]
    pushEntry key .vl w ops none true) s

/-- VLD (R203). -/
def execVld (vd : BitVec 6) (xa : BitVec 5) (k : BitVec 3) (imm : BitVec 11) (s : State) : Out :=
  loadVec (.vld vd xa k imm) vd [xa] s

/-- VLDS (R204). -/
def execVlds (vd : BitVec 6) (xa xb : BitVec 5) (k : BitVec 3) (es : ESize) (s : State) : Out :=
  loadVec (.vlds vd xa xb k es) vd [xa, xb] s

/-- VLDX (R205). -/
def execVldx (vd : BitVec 6) (xa : BitVec 5) (vb : BitVec 6) (iw : BitVec 2) (sgn : Bool) (sc : BitVec 2) (k : BitVec 3)
    (s : State) : Out :=
  loadVec (.vldx vd xa vb iw sgn sc k) vd [xa] s

/-- VLDT (R203). -/
def execVldt (vd : BitVec 6) (xa : BitVec 5) (k : BitVec 3) (imm : BitVec 11) (s : State) : Out :=
  loadVec (.vldt vd xa k imm) vd [xa] s

/-- VLDB (R203). -/
def execVldb (vd : BitVec 6) (xa : BitVec 5) (k : BitVec 3) (imm : BitVec 11) (s : State) : Out :=
  loadVec (.vldb vd xa k imm) vd [xa] s

/-- Marks the binding of a register as the sequencer sees it (R43). -/
def markBinding (key : Nat) (v : BitVec 6) (b : BindKind) : M Unit :=
  modThr key fun t => t.updLive fun f => f.updV v.toNat fun r => { r with kind := b }

/-- The registers of a thread that are bound (R207). -/
def Thread.boundCount (t : Thread) : Nat := (t.live.v.filter fun p => p.2.kind ≠ .free).length

/-- A binding word (R43, R207): the register must be unbound, and at most 16 are bound at once. -/
def bindWord (e : Eng) (eff : Nat → QEntry → M Unit) (w : Instr) (v : BitVec 6) (xa : BitVec 5) (b : BindKind) (s : State) : Out :=
  engineWord e eff (fun key => do
    bindOk key [] [] [v]
    let t ← getThr key
    if 16 ≤ t.boundCount then illegal key
    pushEntry key e w [xa] none false
    markBinding key v b) s

/-- An unbinding word (R43): the register must be bound the matching way. -/
def unbindWord (e : Eng) (eff : Nat → QEntry → M Unit) (w : Instr) (v : BitVec 6) (b : BindKind) (s : State) : Out :=
  engineWord e eff (fun key => do
    let t ← getThr key
    if (t.live.v.get v.toNat).kind ≠ b then illegal key
    pushEntry key e w [] none false
    markBinding key v .free) s

/-- VBINDI (R207). -/
def execVbindi (vd : BitVec 6) (xa : BitVec 5) (s : State) : Out := bindWord .vl vlEffect (.vbindi vd xa) vd xa .input s

/-- VUNBINDI (R207). -/
def execVunbindi (vd : BitVec 6) (s : State) : Out := unbindWord .vl vlEffect (.vunbindi vd) vd .input s

/-- VLWAIT (R39, R213). -/
def execVlwait (f : BitVec 8) (n : BitVec 9) (s : State) : Out :=
  engineWord .vl vlEffect (fun key => pushEntry key .vl (.vlwait f n) [] (some f) false) s

/-- VLSET (R39, R213). -/
def execVlset (f : BitVec 8) (n : BitVec 9) (s : State) : Out :=
  engineWord .vl vlEffect (fun key => pushEntry key .vl (.vlset f n) [] (some f) false) s

end Sys2Proof.Machine
end

