-- ==== Sys2Proof/Machine/VectorStore.lean ====
section
/-! DEFINITION. The VS engine: vector stores, tag stores, scatters, vector atomics, row stores and output streams
(R189, R190, R206 to R213). -/

namespace Sys2Proof.Machine

/-- The head entry of a store's register and what leaves: PROT for an owner tag that is not 0 (R187, R190). -/
def storeSources (key : Nat) (q : QEntry) (regs : List Nat) : M (List VEntry × NMap Nat) := do
  let (ents, n) ← readSources key .vs q.ser (regs.map fun r => (r, false)) [] []
  if ents.any (fun e => e.owner ≠ 0#32) then raise (mkTrap 5 0 0)
  pure (ents, n)

/-- Removes what a store popped. -/
def takePops (key : Nat) (n : NMap Nat) : M Unit := modThr key fun t => t.updLive fun f => f.popV n

/-- A store of units of a popped entry (R189, R209). -/
def storeUnits (key : Nat) (q : QEntry) (align : Nat) (units : List Unit_) (d : VData) (m : KReg) (ents : List VEntry) : M Unit := do
  learnAfter key [2] ents [m]
  settleEntry key .vs q (m.taint ||| entryTaint ents) (m.sat || ents.any (·.sat)) true
  if !units.isEmpty then
    alignUnits align units
    writeSpans (entryReq key .vs q Reach.all) (unitSpans units) (takeUnits d units)

/-- The first entry read. -/
def firstData (l : List VEntry) : VData := ((l.head?).getD default).data

/-- VST (R209). -/
def vstEntry (key : Nat) (q : QEntry) (vs : BitVec 6) (k : BitVec 3) (imm : BitVec 11) : M Unit := do
  let m ← accessMask key q k.toNat
  let (ents, n) ← storeSources key q [vs.toNat]
  blockAlign q m imm
  storeUnits key q 1 (blockUnits q m imm) (firstData ents) m ents
  takePops key n

/-- VSTS (R209). -/
def vstsEntry (key : Nat) (q : QEntry) (vs : BitVec 6) (k : BitVec 3) (es : ESize) : M Unit := do
  let m ← accessMask key q k.toNat
  let (ents, n) ← storeSources key q [vs.toNat]
  storeUnits key q (esBytes es) (stridedUnits q m (esBytes es)) (firstData ents) m ents
  takePops key n

/-- VSTX (R209): pops vs, then vb. -/
def vstxEntry (key : Nat) (q : QEntry) (vs vb : BitVec 6) (iw sc : BitVec 2) (sgn : Bool) (k : BitVec 3) : M Unit := do
  let m ← accessMask key q k.toNat
  let (ents, n) ← storeSources key q [vs.toNat, vb.toNat]
  let idx := ((ents[1]?).getD default).data
  storeUnits key q (2 ^ sc.toNat) (indexedUnits q m idx iw sc sgn) (firstData ents) m ents
  takePops key n

/-- VSTT (R209): whole tags, no data bytes; no effect in host memory. -/
def vsttEntry (key : Nat) (q : QEntry) (vs : BitVec 6) (k : BitVec 3) (imm : BitVec 11) : M Unit := do
  let m ← accessMask key q k.toNat
  let (ents, n) ← storeSources key q [vs.toNat]
  learnAfter key [2] ents [m]
  settleEntry key .vs q (m.taint ||| entryTaint ents) (m.sat || ents.any (·.sat)) true
  let idx := (countFrom 0 128).filter fun i => m.val.getLsbD i
  if !idx.isEmpty then
    let ea := q.ea imm 64
    if ea % 64 ≠ 0 then raise (mkTrap 3 (ea + 64 * idx.headD 0) 0)
    let r := entryReq key .vs q { Reach.all with remote := false }
    let ps ← tagAccess r true (idx.map fun i => ea + 64 * i)
    let d := (firstData ents).toNat
    let t ← getThr key
    forEach (ps.zip idx) fun p =>
      match p.1.space key with
      | some sp => modify fun s =>
          (markDirty s t.cid p.1).writeTagVer key q.ver sp p.1.addr (BitVec.ofNat 32 (fld d (32 * p.2) 32))
      | none => pure ()
  takePops key n

/-! ## VATOMA (R211) -/

/-- The sum of a location and a lane (R211, R219): wrapped for i32, to nearest even for f32 and for each bf16 half. -/
def addLane (ty : RedTy) (m v : Nat) : Nat :=
  let fadd (t : Ty) (a b : Nat) : Nat := (t.encode .rne false ((t.value a).add .rne (t.value b)).1).1
  match ty with
  | .i32 => (m + v) % 2 ^ 32
  | .f32 => fadd .f32 m v
  | .bf16 => fadd .bf16 (m % 65536) (v % 65536) + 65536 * fadd .bf16 (m / 65536) (v / 65536 % 65536)

/-- The type of a vector atomic. -/
def atomRed : AtomTy → RedTy
  | .i32 => .i32
  | .f32 => .f32
  | .bf16 => .bf16

/-- Performs the lanes of a vector atomic that lie in local memory. -/
def atomLanes (key : Nat) (q : QEntry) (ty : RedTy) (l : List (Piece × Nat)) : M Unit :=
  forEach l fun p =>
    match p.1.space key with
    | some sp => do
      noteIn (entryReq key .vs q Reach.all) p.1
      let s ← get
      let m := (s.space sp).readLE p.1.addr 4
      modify fun s => s.writeVer key q.ver sp p.1.addr (natLE 4 (addLane ty m p.2))
    | none => pure ()

/-- The entry at the head of the VS queue changed. -/
def modStore (key : Nat) (f : QEntry → QEntry) : M Unit :=
  modThr key fun t =>
    let qu := t.queue .vs
    match qu.entries with
    | x :: r => t.setQueue .vs { qu with entries := f x :: r }
    | [] => t

/-- The operation that a lane of a vector atomic asks for at a remote target (R211). -/
def laneOp (ty : RedTy) (v : Nat) : MarkedOp :=
  match ty with
  | .i32 => .atom .w .add (BitVec.ofNat 64 v)
  | t => .fadd t (BitVec.ofNat 32 v)

/-- Sends the lanes of a vector atomic that lie behind remote windows, one by one, each with the lane's address; those sent are kept while
one waits (R185, R211). -/
def sendLanes (key : Nat) (ty : RedTy) (l : List (Nat × Nat × BitVec 512 × BitVec 64)) : M Unit :=
  match l with
  | [] => modStore key fun x => { x with grans := none }
  | g :: r => do
    writeBackLine key (lineKey g.1 (g.2.1 / 64))
    let id ← sendPacket key 2 g.1 none none (.marked g.2.1 (laneOp ty (g.2.2.1.toNat)))
    modStore key fun x => { x with grans := some r, pkts := x.pkts ++ [id], dwords := x.dwords ++ [g.2.2.2] }
    sendLanes key ty r

/-- VATOMA (R211): one marked relaxed access per lane; lanes behind a remote window are performed at the target and
their replies waited for; a reply that its block is POISON raises MEMERR at the lowest such lane's address (R72, R185, R188). -/
def vatomaEntry (key : Nat) (q : QEntry) (vs vb : BitVec 6) (ty : AtomTy) (k : BitVec 2) (scope : Scope) : M Unit := do
  if q.started then
    if q.grans.isSome then
      sendLanes key (atomRed ty) (q.grans.getD [])
      waitOn .outside
    let t ← getThr key
    if q.pkts.any fun id => !t.replies.has id then stall .outside
    match lowest ((q.pkts.zip q.dwords).filterMap fun p => if (t.replies.get p.1).poison then some (mkTrap 19 p.2.toNat 0) else none) with
    | some tr => raise tr
    | none => modThr key fun t => { t with replies := q.pkts.foldl (fun m id => m.erase id) t.replies }
  else
    let m ← accessMask key q k.toNat
    let (ents, n) ← storeSources key q [vs.toNat, vb.toNat]
    learnAfter key [2] ents [m]
    settleEntry key .vs q (m.taint ||| entryTaint ents) (m.sat || ents.any (·.sat)) true
    let v := (firstData ents).toNat
    let idx := (((ents[1]?).getD default).data).toNat
    let xa := (q.op 0).val.toNat
    let act := (countFrom 0 128).filter fun i => m.val.getLsbD i
    if act.isEmpty then takePops key n
    else
      if xa % 4 ≠ 0 then raise (mkTrap 3 xa 0)
      let r := { entryReq key .vs q { Reach.all with host := false } with marked := true, scope := scope.code }
      let ps ← access r true true (act.map fun i => ((xa + 4 * fld idx (32 * i) 32) % two64, 4))
      let l := ps.zip (act.map fun i => fld v (32 * i) 32)
      atomLanes key q (atomRed ty) l
      for p in ps do peerWatch r true true p
      takePops key n
      let rem := l.filterMap fun p => match p.1.tgt with
        | .remote w => some (w, p.1.addr, BitVec.ofNat 512 p.2, BitVec.ofNat 64 p.1.va)
        | _ => none
      if !rem.isEmpty then
        keepHits key .vs
        modStore key fun x => { x with started := true, grans := some rem }
        sendLanes key (atomRed ty) rem
        waitOn .outside

/-! ## VSTRW (R212) -/

/-- VSTRW: PROT for owner tag 0; otherwise the owner's row is stored by Mash (R285), once the MSC has room for it (R385). -/
def vstrwEntry (key : Nat) (q : QEntry) (vs : BitVec 6) (k : BitVec 3) : M Unit := do
  let m ← accessMask key q k.toNat
  let (ents, n) ← readSources key .vs q.ser [(vs.toNat, false)] [] []
  let o := ((ents.head?).getD default).owner
  if o = 0#32 || key < passBase then raise (mkTrap 5 0 0)
  let off := (q.op 0).val.toNat
  let units := byteUnits m.val 0
  let beyond := units.any fun u => 512 < off + u.pos + u.len
  let row := units.map fun u => (off + u.pos, natLE u.len ((firstData ents).toNat / 2 ^ (8 * u.pos)))
  if !((← get).rowRoom key o row) then stall .outside
  modify fun s => s.storeRow key o row beyond
  takePops key n

/-! ## Output streams (R210) -/

/-- Writes the oldest entry of an output-bound register to its stream's next address, once the tickets of the entry and of the binding's
control taint have bound; a saturated one waits for the tickets that were live when VBINDO was pushed (R171, R208, R210). An entry address that
is no multiple of 64 holds ALIGN (DESIGN CHOICE, assumption log entry 70). -/
def streamWrite (key v : Nat) : M Unit := do
  streamDesc key v (128 + v)
  let t ← getThr key
  let r := t.live.v.get v
  match r.fifo with
  | [] => pure ()
  | e :: _ =>
    if r.strm.pos < r.strm.count then
      if e.owner ≠ 0#32 then raise (mkTrap 5 0 0)
      learnAfter key [128 + v] [e] []
      settleOn key [128 + v] (e.taint ||| r.strm.taint) (e.sat || r.strm.sat) r.strm.live
      let a := r.strm.addr
      if a % 64 ≠ 0 then raise (mkTrap 3 a 0)
      writeSpans (streamReq t key (128 + v) r.strm) [(a, 512)] (dataBytes e.data)
      modThr key fun t => t.updLive fun f => f.updV v fun r =>
        { r.popN 1 with strm := { r.strm with pos := r.strm.pos + 1, held := none } }

/-- One step of every output stream of a thread that can move (R210). -/
def State.outputStreams (s : State) (key : Nat) : State :=
  (s.thr key).live.v.keys.foldl (fun s v =>
    let r := (s.thr key).live.v.get v
    if r.strm.ready true && !r.fifo.isEmpty then s.streamStep key v streamWrite else s) s

/-- VUNBINDO: everything owed by earlier words has been written; a held fault is raised here (R210). -/
def vunbindoEntry (key : Nat) (q : QEntry) (vs : BitVec 6) : M Unit := do
  let t ← getThr key
  let r := t.live.v.get vs.toNat
  if t.owed .vs q.ser vs.toNat || !r.fifo.isEmpty then stall .other
  endStream key .vs vs true

/-- A fault held by an output stream of a thread: the first VS entry to run raises it (R210). -/
def heldWrites (key : Nat) : M Unit := do
  let t ← getThr key
  match t.live.v.findSome? fun p => if p.2.strm.active && p.2.strm.out then p.2.strm.held else none with
  | some tr => raise { tr with info := tr.info ||| 0x80000000#64 }
  | none => pure ()

/-! ## The VS words -/

/-- The effect of a VS entry. -/
def vsEffect (key : Nat) (q : QEntry) : M Unit := do
  heldWrites key
  match q.word with
  | .vst vs _ k imm => vstEntry key q vs k imm
  | .vsts vs _ _ k es => vstsEntry key q vs k es
  | .vstx vs _ vb iw sgn sc k => vstxEntry key q vs vb iw sc sgn k
  | .vstt vs _ k imm => vsttEntry key q vs k imm
  | .vatoma vs _ vb ty k scope => vatomaEntry key q vs vb ty k scope
  | .vstrw vs _ k => vstrwEntry key q vs k
  | .vbindo vs _ => bindStream key .vs q vs true
  | .vunbindo vs => vunbindoEntry key q vs
  | .vswait f n => tokenWait key .vs q f n
  | .vsset f n => tokenSet key .vs q f n.toNat 4
  | _ => pure ()

/-- A vector store word. -/
def storeVec (w : Instr) (ops : List (BitVec 5)) (s : State) : Out :=
  engineWord .vs vsEffect (fun key => pushEntry key .vs w ops none false) s

/-- VST (R209). -/
def execVst (vs : BitVec 6) (xa : BitVec 5) (k : BitVec 3) (imm : BitVec 11) (s : State) : Out :=
  storeVec (.vst vs xa k imm) [xa] s

/-- VSTS (R209). -/
def execVsts (vs : BitVec 6) (xa xb : BitVec 5) (k : BitVec 3) (es : ESize) (s : State) : Out :=
  storeVec (.vsts vs xa xb k es) [xa, xb] s

/-- VSTX (R209). -/
def execVstx (vs : BitVec 6) (xa : BitVec 5) (vb : BitVec 6) (iw : BitVec 2) (sgn : Bool) (sc : BitVec 2) (k : BitVec 3)
    (s : State) : Out :=
  storeVec (.vstx vs xa vb iw sgn sc k) [xa] s

/-- VSTT (R209). -/
def execVstt (vs : BitVec 6) (xa : BitVec 5) (k : BitVec 3) (imm : BitVec 11) (s : State) : Out :=
  storeVec (.vstt vs xa k imm) [xa] s

/-- VATOMA (R211). -/
def execVatoma (vs : BitVec 6) (xa : BitVec 5) (vb : BitVec 6) (ty : AtomTy) (k : BitVec 2) (scope : Scope) (s : State) : Out :=
  storeVec (.vatoma vs xa vb ty k scope) [xa] s

/-- VSTRW (R212). -/
def execVstrw (vs : BitVec 6) (xo : BitVec 5) (k : BitVec 3) (s : State) : Out := storeVec (.vstrw vs xo k) [xo] s

/-- VBINDO (R210). -/
def execVbindo (vs : BitVec 6) (xa : BitVec 5) (s : State) : Out := bindWord .vs vsEffect (.vbindo vs xa) vs xa .output s

/-- VUNBINDO (R210). -/
def execVunbindo (vs : BitVec 6) (s : State) : Out := unbindWord .vs vsEffect (.vunbindo vs) vs .output s

/-- VSWAIT (R39, R213). -/
def execVswait (f : BitVec 8) (n : BitVec 9) (s : State) : Out :=
  engineWord .vs vsEffect (fun key => pushEntry key .vs (.vswait f n) [] (some f) false) s

/-- VSSET (R39, R213). -/
def execVsset (f : BitVec 8) (n : BitVec 9) (s : State) : Out :=
  engineWord .vs vsEffect (fun key => pushEntry key .vs (.vsset f n) [] (some f) false) s

end Sys2Proof.Machine
end

