-- ==== Sys2Proof/Machine/Matrix.lean ====
section
/-! DEFINITION. The matrix engine: operand slots and handles, the block-step rule, and the MX instructions (R120 to
R149). -/

namespace Sys2Proof.Machine

/-! ## Handles (R122 to R126) -/

/-- The slots a thread holds of a memory, by handle. -/
def Thread.slots (t : Thread) : MMem → NMap Slot
  | .wb => t.wb
  | .ab => t.ab
  | .cb => t.cb

/-- A thread with its slots of a memory replaced. -/
def Thread.setSlots (t : Thread) (m : MMem) (l : NMap Slot) : Thread :=
  match m with
  | .wb => { t with wb := l }
  | .ab => { t with ab := l }
  | .cb => { t with cb := l }

/-- The handles of a memory (R37). -/
def handleMax : MMem → Nat
  | .cb => 16
  | _ => 64

/-- CLAIM of a handle (R132). -/
def claimTrap {α : Type} (m : MMem) (h : Nat) : M α := raise (mkTrap 21 0 (h % 64 + m.code * 256))

/-- The handles of a run of n rows (R124). -/
def runOf (h n : Nat) : List Nat := countFrom h ((n + 255) / 256)

/-- Every handle of a list is bound, and none passes the last handle of its memory; CLAIM otherwise (R124). -/
def needBound (key : Nat) (m : MMem) (l : List Nat) : M Unit := do
  let t ← getThr key
  match l.find? fun h => !(t.slots m).has h || handleMax m ≤ h with
  | some h => claimTrap m h
  | none => pure ()

/-- An unusable slot that an entry names is reported to its holder, once: MEMERR, class I (R396). -/
def needSound (key : Nat) (m : MMem) (l : List Nat) : M Unit := fun s =>
  match l.find? fun h => (((s.thr key).slots m).get h).bad with
  | some h =>
    .error (.fault { mkTrap 19 0 0 with cls := 2#2 }
      (s.updThr key fun t => t.setSlots m ((t.slots m).put h { (t.slots m).get h with bad := false })))
  | none => .ok ((), s)

/-- The slots of a memory that a record of the scoreboard names. -/
def Score.slots (c : Score) : MMem → List Nat
  | .wb => c.wb
  | .ab => c.ab
  | .cb => []

/-- The copy at the head of a thread's CP queue has begun: it is in flight (R135). -/
def Thread.copying (t : Thread) (c : Score) : Bool :=
  match (t.queue .cp).entries with
  | x :: _ => decide (c.eng = .cp) && decide (c.num = x.num) &&
      (x.started || decide (x.progress ≠ 0) || decide (x.pkts ≠ []) || decide (x.asked ≠ []) || decide (x.dwords ≠ []) || x.grans.isSome)
  | [] => false

/-- A copy recorded by the scoreboard writes into a slot that an entry names, and was pushed before it (R157). -/
def Thread.copyHolds (t : Thread) (q : QEntry) (m : MMem) (l : List Nat) : Bool :=
  t.scores.any fun c => (c.slots m).any (l.contains ·) && t.recorded c q.ser

/-- An entry waits for the copies into slots that it names (R141, R157). -/
def copyWait (key : Nat) (q : QEntry) (m : MMem) (l : List Nat) : M Unit := do
  if (← getThr key).copyHolds q m l then stall .other

/-- The handles that an MDRAINP round holds: one at least, though no row has come (R145). -/
def Round.run (r : Round) : List Nat := runOf r.cb (Nat.max r.rows 1)

/-- An MDRAINP round is in progress on a handle (R145). -/
def roundWait (key : Nat) (l : List Nat) : M Unit := do
  let t ← getThr key
  if t.rounds.any fun r => r.run.any (l.contains ·) then stall .other

/-- Changes a slot of a thread. -/
def modSlot (key : Nat) (m : MMem) (h : Nat) (f : Slot → Slot) : M Unit :=
  modThr key fun t => t.setSlots m ((t.slots m).put h (f ((t.slots m).get h)))

/-- FILL of a run becomes a value, or the greater of the old and the new, for every handle of it (R125). -/
def setFill (key : Nat) (m : MMem) (h n value : Nat) (grow : Bool) : M Unit :=
  forEach (if n = 0 then [h] else runOf h n) fun i =>
    modSlot key m i fun s =>
      let v := value - 256 * (i - h)
      { s with fill := if grow then Nat.max s.fill v else v }

/-- The slots of a memory that the threads of a core hold, promised ones included; lent ones are counted apart. -/
def State.heldSlots (s : State) (core : Nat) (m : MMem) (lent : Bool) : Nat :=
  s.threads.foldl (fun n p =>
    if p.2.core = core && p.1 < passBase && p.2.placed then
      n + ((p.2.slots m).filter fun x => x.2.lent = lent).length +
        (p.2.promised.filter fun x => x.1 = m.code && x.2.2.lent = lent).length
    else n) 0

/-- The slots of a memory that a context's threads hold on a core (R340). -/
def State.ctxSlots (s : State) (core cid : Nat) (m : MMem) : Nat :=
  s.threads.foldl (fun n p =>
    if p.2.core = core && p.2.cid = cid && p.1 < passBase && p.2.placed then
      n + (p.2.slots m).length + (p.2.promised.filter fun x => x.1 = m.code).length
    else n) 0

/-- The limit of a context on a memory's slots (R340). -/
def Ctx.slotLimit (c : Ctx) : MMem → Nat
  | .wb => wfld (c.word 24) 0 8
  | .ab => wfld (c.word 24) 8 8
  | .cb => wfld (c.word 24) 16 8

/-- The slots of a memory that threads may claim on a core (R122). -/
def claimable : MMem → Nat
  | .wb => 30
  | .ab => 6
  | .cb => 14

/-- The pass slot of a core runs a pass. -/
def State.passRuns (s : State) (core : Nat) : Bool := s.passes.any fun p => p.2.core = some core

/-- The cores of a die that have lent their reserve (R123). -/
def State.lenders (s : State) (die : Nat) : Nat :=
  ((countFrom (104 * die) 104).filter fun c => 0 < s.heldSlots c .ab true).length

/-- The slots of the reserve that an AB claim of n slots may borrow now, when the six claimable slots alone cannot meet it (R123). -/
def State.lendable (s : State) (core free n : Nat) : Option Nat :=
  let out := s.heldSlots core .ab true
  if n ≤ free + 2 && n + out ≤ free + 2 && !s.passRuns core && (0 < out || s.lenders (core / 104) < 8) then some (n - free) else none

/-- A claim may be granted now, with how many slots of the reserve it borrows (R123, R134). Of two claims that came to the head of their queues
in one tick the lower thread key is first (DESIGN CHOICE: assumption log entry 71).
DESIGN CHOICE: assumption log entry 14. -/
def State.grantable (s : State) (key : Nat) (q : QEntry) (m : MMem) (n : Nat) : Option Nat :=
  let t := s.thr key
  let free := claimable m - s.heldSlots t.core m false
  let ahead := s.threads.any fun p =>
    p.1 ≠ key && p.2.core = t.core && p.2.run = .resident && match (p.2.queue .mx).entries.head? with
      | some x => (match x.word with
          | .mclaim m' _ _ => m' = m &&
              (x.headAt.getD s.tick < q.headAt.getD s.tick || (x.headAt.getD s.tick = q.headAt.getD s.tick && p.1 < key))
          | _ => false)
      | none => false
  if ahead || (s.ctx t.cid).slotLimit m < s.ctxSlots t.core t.cid m + n then none
  else if m = .ab && 6 < n then s.lendable t.core free n
  else if n ≤ free then some 0 else none

/-- MCLAIM (R134). The last of the handles hold the slots that are lent (DESIGN CHOICE: assumption log entry 14). -/
def mclaimEntry (key : Nat) (q : QEntry) (m : MMem) (h n : Nat) : M Unit := do
  let s ← get
  let t := s.thr key
  let l := countFrom h n
  match l.find? fun i => (t.slots m).has i with
  | some i => claimTrap m i
  | none =>
    if (s.ctx t.cid).slotLimit m < n then claimTrap m h
    match s.grantable key q m n with
    | none => stall .claim
    | some lent =>
      forEach l fun i => modSlot key m i fun _ => { (default : Slot) with lent := decide (n - lent ≤ i - h) }

/-- MREL (R135): it waits for every copy in flight into the slots, whichever was pushed first. DEDUCED: assumption log entry 64. -/
def mrelEntry (key : Nat) (q : QEntry) (m : MMem) (h n : Nat) : M Unit := do
  let l := countFrom h n
  needBound key m l
  needSound key m l
  copyWait key q m l
  let t ← getThr key
  if t.scores.any fun c => (c.slots m).any (l.contains ·) && t.copying c then stall .other
  if m = .cb then roundWait key l
  modThr key fun t => t.setSlots m (l.foldl (fun a i => a.erase i) (t.slots m))
  modify fun s => s.stirClaims t.core

/-- A CB slot that is written counts against the version's budget once since the last commit point (R128, R384).
DEDUCED: assumption log entry 15. -/
def chargeCb (key : Nat) (q : QEntry) (l : List Nat) : M Unit := do
  let s ← get
  let t := s.thr key
  if key < passBase then
    let fresh := l.filter fun h => !((t.slots .cb).get h).dirty
    let v := t.ver q.ver
    if !fresh.isEmpty then
      let n := 131072 * fresh.length
      if v.useKnext + n > s.budgetOf t.cid v then raise (mkTrap 14 0 2)
      modThr key fun t => t.updVer q.ver fun w => { w with use := w.use + n, useKnext := w.useKnext + n }
      forEach fresh fun h => modSlot key .cb h fun s => { s with dirty := true }

/-- The thread once a row, slot or chunk of the entry at the head of a queue is done: the progress, and the hits, which the entry keeps until they
are reported (R429). -/
def Thread.rowDone (t : Thread) (e : Eng) (i : Nat) : Thread :=
  let qu := t.queue e
  match qu.entries with
  | x :: r => { (t.setQueue e { qu with entries := { x with progress := i + 1, hits := t.hits.foldl Held.join x.hits } :: r }) with hits := [] }
  | [] => t

/-- The entry at the head of a queue keeps hits. -/
def Thread.hasHits (t : Thread) (e : Eng) : Bool := match (t.queue e).entries with | x :: _ => !x.hits.isEmpty | [] => false

/-- Rows, slots or chunks one by one from where the entry stands; what is done stays when one waits or faults, and the entry goes on from there
(R143, R149, R214). A copy stops after a chunk that has hit a watchpoint (R429). -/
def rowLoop (key : Nat) (e : Eng) (body : Nat → M Unit) : Nat → Nat → M Unit
  | 0, _ => pure ()
  | fuel + 1, i => fun s =>
    match body i s with
    | .ok ((), s') =>
      let u := s'.updThr key fun t => t.rowDone e i
      if e = .cp && fuel ≠ 0 && (u.thr key).hasHits e then .error (.wait .other u) else rowLoop key e body fuel (i + 1) u
    | .error (.trap tr) => .error (.fault tr s)
    | .error (.stall k) => .error (.wait k s)
    | .error (.wait k s') => .error (.wait k s')
    | .error (.fault tr s') => .error (.fault tr s')

/-- MZERO (R136), slot by slot (R149). -/
def mzeroEntry (key : Nat) (q : QEntry) (h n : Nat) : M Unit := do
  let l := countFrom h n
  needBound key .cb l
  roundWait key l
  chargeCb key q l
  rowLoop key .mx (fun i => modSlot key .cb (h + i) fun s => { (default : Slot) with dirty := s.dirty, lent := s.lent })
    (n - q.progress) q.progress

/-- MXFER (R137). While an MDRAINP round is in progress on the slot it waits, as R145 says, where R137 lists CLAIM (DESIGN CHOICE: assumption log
entry 71). A receiver whose last task still holds its handles gets the slot for its next, whose handles alone are then checked. -/
def mxferEntry (key : Nat) (q : QEntry) (m : MMem) (h rh : Nat) : M Unit := do
  needBound key m [h]
  needSound key m [h]
  if m = .cb then roundWait key [h]
  let s ← get
  let t := s.thr key
  let slot := (t.slots m).get h
  let v := (q.op 0).val.toNat
  if v = 0 then
    if t.promised.any fun p => p.1 = m.code && p.2.1 = rh then claimTrap m rh
    modThr key fun t => { t.setSlots m ((t.slots m).erase h) with promised := t.promised ++ [(m.code, rh, slot)] }
  else
    if 65536 < v then claimTrap m h
    let rk := t.cid * 65536 + (v - 1)
    let r := s.thr rk
    if !(r.alive && decide (r.run = .resident) && r.core = t.core) then claimTrap m h
    let ending := decide (r.handleTask < r.taskNo)
    let taken := if ending then r.promised.any fun p => p.1 = m.code && p.2.1 = rh else (r.slots m).has rh && (rk ≠ key || rh ≠ h)
    if taken then claimTrap m rh
    settleEntry key .mx q 0#16 false true
    publish key q.ver
    modThr key fun t => t.setSlots m ((t.slots m).erase h)
    modThr rk fun r =>
      if ending then { r with promised := r.promised ++ [(m.code, rh, { slot with dirty := false })] }
      else r.setSlots m ((r.slots m).put rh { slot with dirty := false })
    modify fun s => s.stirClaims t.core

/-! ## Loading (R138 to R140) -/

/-- The request of MLDW and MLDA (R138, R191): no host memory, no remote window; POISON is judged by the pass (R73). -/
def mxReq (key : Nat) (q : QEntry) : Req :=
  { entryReq key .mx q { Reach.all with host := false, remote := false } with poison := false }

/-- The tags of the blocks of pieces, in order. -/
def tagsOfPieces (s : State) (key : Nat) (ps : List Piece) : List W32 :=
  ps.flatMap fun p => (countFrom 0 (p.len / 64)).map fun i =>
    match p.space key with
    | some sp => (s.space sp).tag (p.addr + 64 * i)
    | none => 0#32

/-- Writes a row of 256 bytes with its four tags at a row of a slot's memory. -/
def Slot.putRow (s : Slot) (row : Nat) (data : List Byte) (tags : List W32) : Slot :=
  { s with mem := ((tags.zip (countFrom 0 4)).foldl (fun m p => m.setTag (256 * row + 64 * p.2) p.1) (s.mem.setBytes (256 * row) data)) }

/-- The stride an operand gives: 256 when it is 0 (R138). -/
def strideOf (x : XReg) : W64 := if x.val = 0#64 then 256#64 else x.val

/-- ALIGN of an address and a stride to 64 bytes, whatever the count (R132). -/
def align64 (a : Nat) (st : W64) : M Unit :=
  if a % 64 ≠ 0 then raise (mkTrap 3 a 0) else if st.toNat % 64 ≠ 0 then raise (mkTrap 3 a 0) else pure ()

/-- MLDW (R138): the whole tile is checked, then loaded. -/
def mldwEntry (key : Nat) (q : QEntry) (h : Nat) : M Unit := do
  needBound key .wb [h]
  let a := (q.op 0).val
  let st := strideOf (q.op 1)
  align64 a.toNat st
  needSound key .wb [h]
  copyWait key q .wb [h]
  settleEntry key .mx q 0#16 false false
  let r := mxReq key q
  let ps ← access r true false ((countFrom 0 128).map fun c => ((a + st * BitVec.ofNat 64 c).toNat, 256))
  for p in ps do peerWatch r true false p
  let l ← readPieces r ps
  let s ← get
  let tags := tagsOfPieces s key ps
  modSlot key .wb h fun s => (countFrom 0 128).foldl (fun s c => s.putRow c ((l.drop (256 * c)).take 256) ((tags.drop (4 * c)).take 4)) s

/-- MLDA (R139). -/
def mldaEntry (key : Nat) (q : QEntry) (h : Nat) : M Unit := do
  let n := (q.op 2).val.toNat
  if 2048 < n then claimTrap .ab h
  let run := runOf h n
  needBound key .ab (if n = 0 then [h] else run)
  let a := (q.op 0).val
  let st := strideOf (q.op 1)
  align64 a.toNat st
  needSound key .ab (if n = 0 then [h] else run)
  copyWait key q .ab (if n = 0 then [h] else run)
  if n ≠ 0 then
    settleEntry key .mx q 0#16 false false
    let r := mxReq key q
    let ps ← access r true false ((countFrom 0 n).map fun i => ((a + st * BitVec.ofNat 64 i).toNat, 256))
    for p in ps do peerWatch r true false p
    let l ← readPieces r ps
    let s ← get
    let tags := tagsOfPieces s key ps
    forEach (countFrom 0 n) fun i =>
      modSlot key .ab (h + i / 256) fun s =>
        { s.putRow (i % 256) ((l.drop (256 * i)).take 256) ((tags.drop (4 * i)).take 4) with owner := s.owner.set (i % 256) 0#32 }
  setFill key .ab h n n false

/-- MLDV (R140). -/
def mldvEntry (key : Nat) (q : QEntry) (h : Nat) (va : BitVec 6) : M Unit := do
  let r := (q.op 0).val.toNat
  if 2047 < r then claimTrap .ab h
  let run := countFrom h (r / 256 + 1)
  needBound key .ab run
  needSound key .ab run
  copyWait key q .ab run
  let (ents, n) ← readSources key .mx q.ser [(va.toNat, false)] [] []
  let e := (ents.head?).getD default
  takePops key n
  let l := natLE 256 e.data.toNat
  let tags := (countFrom 0 4).map fun j => BitVec.ofNat 32 (fld e.data.toNat (2048 + 32 * j) 32)
  modSlot key .ab (h + r / 256) fun s => { s.putRow (r % 256) l tags with owner := s.owner.set (r % 256) e.owner }
  setFill key .ab h (r + 1) (r + 1) true

/-! ## The block-step rule (R129 to R131) -/

/-- The width class of a type in the matrix engine (R129). -/
def mxClass : Ty → Nat
  | .bf16 => 1
  | .f16 => 1
  | .e4m3 => 2
  | .e5m2 => 2
  | .i8 => 3
  | .e2m1 => 4
  | .sq4 => 4
  | _ => 0

/-- A block as the array meets it: its class (0 when no pair with it is implemented), POISON, the exact values of its
elements, and whether an outlier is unfunded. -/
structure Blk where
  cls : Nat
  poison : Bool
  vals : List Num
  unf : Bool

/-- The block of a tag and 64 bytes (R69, R70, R129). -/
def blkOf (tag : W32) (data : Nat) : Blk :=
  let tg := tag.toNat
  match tagTy tg with
  | none => { cls := 0, poison := isPoison tag, vals := [], unf := false }
  | some t =>
    if tagMalformed tg || mxClass t = 0 then { cls := 0, poison := false, vals := [], unf := false }
    else
      let r := decodeBlock t tg data
      { cls := mxClass t, poison := false, vals := r.1, unf := r.2 }

/-- The magnitude's top bit position of a non-zero finite value. -/
def topOf : Num → Option Int
  | .fin _ m e => if m = 0 then none else some ((bitLen m : Int) - 1 + e)
  | _ => none

/-- The multiple of 2^q nearest to a value, towards zero (R130). -/
def truncTo (q : Int) : Num → Num
  | .fin s m e => if q ≤ e then .fin s m e else .fin s (m / 2 ^ (q - e).toNat) q
  | x => x

/-- The larger of two positions. -/
def maxTop (a b : Option Int) : Option Int :=
  match a, b with
  | some x, some y => some (if x ≤ y then y else x)
  | some x, none => some x
  | none, y => y

/-- The exact sum of finite values (R130): minus zero when every value is minus zero. -/
def sumNums (l : List Num) : Num :=
  let q := l.foldl (fun (q : Int) x => match x with | .fin _ m e => if m ≠ 0 && e < q then e else q | _ => q) 0
  let v := l.foldl (fun (v : Int) x => match x with | .fin s m e => v + scaled s m e q | _ => v) 0
  if v = 0 then .fin (l.all fun x => match x with | .fin s m _ => s && m = 0 | _ => false) 0 0
  else .fin (decide (v < 0)) v.natAbs q

/-- The sum of one block step (R130): the value and whether NV arises. -/
def stepSum (w a : Blk) : Num × Bool :=
  let ps := (w.vals.zip a.vals).map fun p => Num.mul p.1 p.2
  if ps.any fun p => p.1.isNaN then (.nan false, ps.any fun p => p.2 ≠ 0)
  else
    let vs := ps.map (·.1)
    let pos := vs.any fun x => x = .inf false
    let neg := vs.any fun x => x = .inf true
    if pos && neg then (.nan false, true)
    else if pos then (.inf false, false)
    else if neg then (.inf true, false)
    else
      let vs := if w.cls = 1 then
          match vs.foldl (fun m x => maxTop m (topOf x)) none with
          | some e => vs.map (truncTo (e - 62))
          | none => vs
        else vs
      (sumNums vs, false)

/-- An element while its block steps run: its code, and the NV and OF bits met. -/
structure Acc where
  c : Nat
  nv : Bool
  of : Bool

/-- One block step of an FP32 element (R130). -/
def stepF (first : Bool) (w a : Blk) (x : Acc) : Acc :=
  let p := stepSum w a
  let q := Ty.f32.encode .rne false p.1
  let ofq := q.2 &&& fOF ≠ 0
  if first then { c := q.1, nv := x.nv || p.2, of := x.of || ofq }
  else
    let r := encFlags .f32 .rne false ((Ty.f32.value x.c).add .rne (Ty.f32.value q.1))
    { c := r.1, nv := x.nv || p.2 || r.2 &&& fNV ≠ 0, of := x.of || ofq || r.2 &&& fOF ≠ 0 }

/-- One block step of an I32 element (R130). -/
def stepI (first : Bool) (w a : Blk) (x : Acc) : Acc :=
  let s := (w.vals.zip a.vals).foldl (fun (v : Int) p =>
    match p.1, p.2 with
    | .fin s m _, .fin u n _ => v + scaled s m 0 0 * scaled u n 0 0
    | _, _ => v) 0
  { x with c := lowBits 32 (if first then s else (x.c : Int) + s) }

/-- The element of a row and a column (R130). -/
def element (kindI first : Bool) (ws as_ : List Blk) (c : Nat) : Acc :=
  ((ws.zip as_).zip (countFrom 0 4)).foldl (fun x p =>
    if kindI then stepI (first && p.2 = 0) p.1.1 p.1.2 x else stepF (first && p.2 = 0) p.1.1 p.1.2 x) { c := c, nv := false, of := false }

/-- The four blocks of row n of a slot. -/
def Slot.blks (s : Slot) (row : Nat) : List Blk :=
  (countFrom 0 4).map fun j => blkOf (s.mem.tag (256 * row + 64 * j)) (s.mem.readLE (256 * row + 64 * j) 64)

/-- The elements of a CB row. -/
def Slot.elems (s : Slot) (row : Nat) : List Nat := lanesFrom 32 128 (s.mem.readLE (512 * row) 512)

/-- A CB row written: elements, owner tag, status. -/
def Slot.putCb (s : Slot) (row : Nat) (l : List Nat) (owner : W32) (status : Nat) : Slot :=
  { s with mem := s.mem.writeLE (512 * row) 512 (packNat 32 l), owner := s.owner.set row owner
           status := s.status.set row (BitVec.ofNat 8 status) }

/-- The canonical NaN of FP32, in every element of a poisoned row (R131). -/
def nanRow : List Nat := List.replicate 128 0x7FC00000

/-- The cause that poisons a row, 0 for none (R131). -/
def rowFault (ws : List (List Blk)) (as_ : List Blk) (kindI accW : Bool) (ownOk kindOk : Bool) : Nat :=
  let poison := as_.any (·.poison) || ws.any fun w => w.any (·.poison)
  let bad := ws.any fun w => (w.zip as_).any fun p => p.1.cls = 0 || p.1.cls ≠ p.2.cls || (p.1.cls = 3) ≠ kindI
  if accW && !ownOk then 5 else if poison then 19 else if bad || (accW && !kindOk) then 12 else 0

/-- One row of a pass (R130, R131): the CB slot after it, and the cause that poisoned it. A row that it accumulates into keeps its POISON bit (R141;
DESIGN CHOICE: assumption log entry 71). -/
def passRow (ws : List (List Blk)) (ab cb : Slot) (row arow : Nat) (acc : Bool) : Slot × Nat :=
  let as_ := ab.blks arow
  let owner := ab.owner.get arow
  let old := (cb.status.get row).toNat
  let written := old % 2 = 1
  let accW := acc && written
  let kindI := fld (ab.mem.tag (256 * arow)).toNat 0 8 = 0x12
  let oldKind := fld old 1 1 = 1
  let cause := rowFault ws as_ kindI accW (cb.owner.get row = owner) (oldKind = kindI)
  if cause ≠ 0 then
    let k := if accW then oldKind else kindI
    (cb.putCb row nanRow owner (1 + (if k then 2 else 0) + 4), cause)
  else
    let res := (ws.zip (cb.elems row)).map fun p => element kindI (!accW) p.1 as_ p.2
    let unf := as_.any (·.unf) || ws.any fun w => w.any (·.unf)
    let st := 1 + (if kindI then 2 else 0) + (if unf then 8 else 0) + (if res.any (·.nv) then 16 else 0) + (if res.any (·.of) then 32 else 0)
    (cb.putCb row (res.map (·.c)) owner (if accW then st ||| old else st), 0)

/-- The columns of a weight tile. -/
def Slot.columns (s : Slot) : List (List Blk) := (countFrom 0 128).map s.blks

/-- The rows of a pass over a thread's slots: the state after them, and the poisoned rows with owner and cause. -/
def passRows (key wb ab cb : Nat) (acc : Bool) (n : Nat) (s : State) : State × List (Nat × W32 × Nat) :=
  let ws := ((s.thr key).wb.get wb).columns
  (countFrom 0 n).foldl (fun (x : State × List (Nat × W32 × Nat)) r =>
    let t := x.1.thr key
    let a := t.ab.get (ab + r / 256)
    let c := t.cb.get (cb + r / 256)
    let (c', cause) := passRow ws a c (r % 256) (r % 256) acc
    (x.1.setThr key { t with cb := t.cb.put (cb + r / 256) c' },
     if cause = 0 then x.2 else x.2 ++ [(r, a.owner.get (r % 256), cause)])) (s, [])

/-- The fault that an entry raises for the poisoned rows whose owner is 0 (R131, R132). -/
def rowTrap (l : List (Nat × W32 × Nat)) : Option Trap :=
  match l with
  | [] => none
  | (r, _, c) :: _ => some (mkTrap c 0 (r % 2048 + (l.length - 1) * 65536))

/-- What MPASS and MPASSAT check and wait for: the row count, runs, rounds (R141). A row count beyond its limit names the AB handle in TRAP_INFO
(DESIGN CHOICE: assumption log entry 71). -/
def passReady (key : Nat) (q : QEntry) (wb ab cb n : Nat) : M Unit := do
  if 2048 < n then claimTrap .ab ab
  needBound key .wb [wb]
  needBound key .ab (if n = 0 then [ab] else runOf ab n)
  needBound key .cb (if n = 0 then [cb] else runOf cb n)
  needSound key .wb [wb]
  needSound key .ab (if n = 0 then [ab] else runOf ab n)
  let _ := q
  roundWait key (runOf cb n)

/-- The ticks for which a thread's MX queue holds, or is to hold, the array at an agreed tick: of the MPASSAT at its head, when that has been
admitted, or in any case (R142). -/
def timedWindow (t : Thread) (admitted : Bool) : Option (Nat × Nat) :=
  match (t.queue .mx).entries.head? with
  | some x => (match x.word with
      | .mpassat _ ab _ _ _ =>
        if x.started || !admitted then some ((x.op 0).val.toNat, (x.op 0).val.toNat + (t.ab.get ab.toNat).fill + 256) else none
      | _ => none)
  | none => none

/-- A timed pass holds the array of a core back from an untimed pass that starts now and takes n rows: one that runs, or one at the head of
another queue whose tick the pass would run into (R142). -/
def State.arrayHeld (s : State) (key n : Nat) : Bool :=
  let core := (s.thr key).core
  (match (s.cores.get core).timed with | some (_, a, b) => decide (a ≤ s.tick) && decide (s.tick < b) | none => false) ||
    s.threads.any fun p => p.1 ≠ key && p.2.core = core && p.2.run = .resident && (match timedWindow p.2 false with
      | some (a, _) => decide (s.tick ≤ a) && decide (a < s.tick + n + 256)
      | none => false)

/-- The pass itself (R141). -/
def runPass (key : Nat) (q : QEntry) (wb ab cb n : Nat) (acc : Bool) : M Unit := do
  if n ≠ 0 then
    chargeCb key q (runOf cb n)
    modify fun s => s.countFor key 3 (n + 256)
    let s ← get
    let r := passRows key wb ab cb acc n s
    set r.1
    match rowTrap (r.2.filter fun x => x.2.1 = 0#32) with
    | some tr => raise tr
    | none =>
      modify fun s => (r.2.filter fun x => x.2.1 ≠ 0#32).foldl (fun s x => s.poisonOwner key x.2.1 x.2.2) s
      setFill key .cb cb n n acc

/-- MPASS (R141): FILL is taken once the copies into its slot have retired. -/
def mpassEntry (key : Nat) (q : QEntry) (wb ab cb : Nat) (acc : Bool) : M Unit := do
  let x := (q.op 0).val.toNat
  if x = 0 then
    needBound key .ab [ab]
    copyWait key q .ab [ab]
  let t ← getThr key
  let n := if x = 0 then (t.ab.get ab).fill else x
  passReady key q wb ab cb n
  copyWait key q .wb [wb]
  copyWait key q .ab (runOf ab n)
  if n ≠ 0 && (← get).arrayHeld key n then stall .outside
  runPass key q wb ab cb n acc

/-- The tick by which the last copy into slots has retired. -/
def Thread.copiedBy (t : Thread) (wb : Nat) (ab : List Nat) : Nat := (wb :: ab.map (· + 64)).foldl (fun n h => Nat.max n (t.slotDone.get h)) 0

/-- MPASSAT (R142): at the head of its queue, with no copy in flight into its slots, at least 16 ticks before its start tick, or SCHEDMISS; it runs
at the start tick exactly, and holds the array for its ticks. SCHEDMISS is judged before the bindings of the WB and CB handles (DESIGN CHOICE:
assumption log entry 71). -/
def mpassatEntry (key : Nat) (q : QEntry) (wb ab cb : Nat) (acc : Bool) : M Unit := do
  let s ← get
  let t := s.thr key
  let at_ := (q.op 0).val.toNat
  let n := (t.ab.get ab).fill
  needBound key .ab [ab]
  if !q.started then
    let open_ := t.copyHolds q .wb [wb] || t.copyHolds q .ab (ab :: runOf ab n)
    if at_ < q.headAt.getD s.tick + 16 || (open_ && at_ < s.tick + 16) || at_ < t.copiedBy wb (ab :: runOf ab n) + 16 then raise (mkTrap 11 0 0)
    if open_ then stall .outside
    passReady key q wb ab cb n
    let meets := fun (w : Option (Nat × Nat)) => match w with
      | some (a, b) => decide (at_ < b) && decide (a < at_ + n + 256)
      | none => false
    if meets ((s.cores.get t.core).timed.map (·.2)) || s.threads.any (fun p =>
        p.1 ≠ key && p.2.core = t.core && p.2.run = .resident && meets (timedWindow p.2 true)) then raise (mkTrap 11 0 0)
    modThr key fun t =>
      let qu := t.queue .mx
      t.setQueue .mx { qu with entries := qu.entries.map fun x => if x.num = q.num then { x with started := true } else x }
    waitOn .outside
  else
    if s.tick < at_ then stall .outside
    if at_ < s.tick then raise (mkTrap 11 0 0)
    passReady key q wb ab cb n
    modify fun s => { s with cores := s.cores.put t.core { s.cores.get t.core with timed := some (key, s.tick, s.tick + n + 256) } }
    runPass key q wb ab cb n acc

/-! ## Draining (R143 to R145) -/

/-- The VSTAT bits of a row status (R147). -/
def statFlags (st : Nat) : Nat :=
  (if fld st 3 1 = 1 then fUNF else 0) + (if fld st 4 1 = 1 then fNV else 0) + (if fld st 5 1 = 1 then fOF else 0)

/-- ORs flags into a thread's VSTAT; in a pass slot they go to the row's owner (R147, R286). -/
def drainFlags (key : Nat) (owner : W32) (fl : Nat) : M Unit :=
  modify fun s =>
    if key < passBase then s.updThr key fun t => t.updLive fun f => { f with vstat := vstatOr f.vstat fl }
    else match s.ownerId key owner with
      | some tid => { s with tasks := s.tasks.put tid { s.tasks.get tid with vflags := (s.tasks.get tid).vflags ||| fl } }
      | none => s

/-- The bytes, the tag and the flags that MDRAIN makes of a CB row (R72, R143). -/
def drainRow (c : Slot) (row : Nat) (ty : OutTy) : List Byte × W32 × Nat :=
  let st := (c.status.get row).toNat
  let kindI := fld st 1 1 = 1
  let es := c.elems row
  let conv (t : Ty) (tag : W32) : List Byte × W32 × Nat :=
    let r := es.map fun v => t.encode .rne false (if kindI then Num.ofInt (signedW 32 v) else Ty.f32.value v)
    (natLE 256 (packNat 16 (r.map (·.1))), tag, statFlags st ||| (allFlags r &&& fOF))
  match ty with
  | .f32 => (natLE 512 (packNat 32 es), if kindI then 0#32 else 0x7F01#32, statFlags st)
  | .bf16 => conv .bf16 0x7F02#32
  | .f16 => conv .f16 0x7F03#32

/-- The bytes of a drained row (R143). -/
def outBytes : OutTy → Nat
  | .f32 => 512
  | _ => 256

/-- MDRAIN (R143): rows written on the CP path. -/
def mdrainEntry (key : Nat) (q : QEntry) (h : Nat) (ty : OutTy) : M Unit := do
  let n := (q.op 2).val.toNat
  if 2048 < n then claimTrap .cb h
  needBound key .cb (if n = 0 then [h] else runOf h n)
  let a := (q.op 0).val
  let st := (q.op 1).val
  align64 a.toNat st
  roundWait key (runOf h n)
  if n ≠ 0 then
    let sp := rowSpan a n (outBytes ty) st
    narrowVa key .mx q sp.1 sp.2
    settleOn key [4] (unionTaint q.ops ||| q.ctaint) (orSat q.ops || q.csat) q.live
    modThr key fun t => t.learn [4] (joinClk q.cdeps (t.know.get drainWait))
    let r := { entryReq key .mx q { Reach.all with host := false, remote := false } with path := 4 }
    let t ← getThr key
    rowLoop key .mx (fun i => do
      let t ← getThr key
      let d := drainRow (t.cb.get (h + i / 256)) (i % 256) ty
      let ea := (a + st * BitVec.ofNat 64 i).toNat
      let ps ← access r false true [(ea, d.1.length)]
      writePieces r ps d.1
      forEach ps fun p => match p.space key with
        | some sp => modify fun s => (countFrom 0 (p.len / 64)).foldl (fun s j => s.writeTagVer key q.ver sp (p.addr + 64 * j) d.2.1) s
        | none => pure ()) (n - q.progress) q.progress
    modThr key fun t => t.learn [drainPath] (t.clkOf key 4)
    let fl := (countFrom 0 n).foldl (fun f i => f ||| (drainRow (t.cb.get (h + i / 256)) (i % 256) ty).2.2) 0
    drainFlags key 0#32 fl

/-- MDRAINV (R144): rows f to f + n − 1 lie in the run, also when n is 0; what the rows' status says reaches VSTAT when the entry completes
(R147). -/
def mdrainvEntry (key : Nat) (q : QEntry) (h : Nat) (vd : BitVec 6) : M Unit := do
  let f := (q.op 0).val.toNat
  let n := (q.op 1).val.toNat
  if 2048 < n then claimTrap .cb h
  let run := if f + n = 0 then [h] else runOf h (Nat.min (f + n) 4352)
  needBound key .cb run
  roundWait key run
  rowLoop key .mx (fun i => do
    let t ← getThr key
    if 4 ≤ (t.live.v.get vd.toNat).fifo.length then stall .full
    let r := f + i
    let c := t.cb.get (h + r / 256)
    let e : VEntry := { data := packLanes 32 (c.elems (r % 256)), taint := 0#16, sat := false, owner := c.owner.get (r % 256) }
    modThr key fun t => t.updLive fun fr => fr.updV vd.toNat fun v => v.pushL [e]) (n - q.progress) q.progress
  let t ← getThr key
  forEach (countFrom f n) fun r =>
    let c := t.cb.get (h + r / 256)
    drainFlags key (c.owner.get (r % 256)) (statFlags (c.status.get (r % 256)).toNat)

/-- A row of a contribution meets the receiving row (R145): the slot after it and the cause at the sender. The kind is judged before the owner tag, and
none of a mismatching row's bits reach the poisoned one (DESIGN CHOICE: assumption log entry 71). -/
def joinRow (rc : Slot) (row : Nat) (es : List Nat) (owner : W32) (st : Nat) : Slot × Nat :=
  let old := (rc.status.get row).toNat
  if old % 2 = 0 then (rc.putCb row es owner st, 0)
  else
    let kindI := fld old 1 1 = 1
    let poisoned (cause : Nat) := (rc.putCb row nanRow (rc.owner.get row) (old ||| 4), cause)
    if (fld st 1 1 = 1) ≠ kindI then poisoned 12
    else if rc.owner.get row ≠ owner then poisoned 5
    else if fld st 2 1 = 1 || fld old 2 1 = 1 then (rc.putCb row nanRow owner (old ||| (st &&& 0x3C) ||| 4), 0)
    else
      let r : List (Nat × Nat) := ((rc.elems row).zip es).map fun p =>
        if kindI then ((p.1 + p.2) % 2 ^ 32, 0) else encFlags .f32 .rne false ((Ty.f32.value p.1).add .rne (Ty.f32.value p.2))
      let fl := allFlags r
      let add := (if fl &&& fNV ≠ 0 then 16 else 0) ||| (if fl &&& fOF ≠ 0 then 32 else 0)
      (rc.putCb row (r.map (·.1)) owner (old ||| (st &&& 0x38) ||| add), 0)

/-- The rank after one in a round into rank p of a gang (R145). -/
def nextTurn (p size r : Nat) : Option Nat := (countFrom (r + 1) (size - (r + 1))).find? fun x => x ≠ p

/-- The receiver of an arrival stands inside one of its own MX entries (R145). -/
def Thread.inEntry (t : Thread) : Bool :=
  match (t.queue .mx).entries with
  | x :: _ => decide (x.progress ≠ 0)
  | [] => false

/-- MDRAINP (R145): one contribution, applied whole when its turn has come, between two of the receiver's entries; rows that an entry from a keg
has sent already are not sent again (R149, R409). It publishes when it begins (R386). An arrival that would take the receiver's version beyond
its budget raises VERSION at the sender's entry (DESIGN CHOICE: assumption log entry 71). -/
def mdrainpEntry (key : Nat) (q : QEntry) (h p ph : Nat) : M Unit := do
  let s ← get
  let t := s.thr key
  match t.rank with
  | none => claimTrap .cb h
  | some me =>
    if p = me || t.gangSize ≤ p then claimTrap .cb h
    let x := (q.op 0).val.toNat
    if x = 0 then needBound key .cb [h]
    let n := if x = 0 then (t.cb.get h).fill else x
    if 2048 < n then claimTrap .cb h
    needBound key .cb (if n = 0 then [h] else runOf h n)
    match s.peerKey t p with
    | none => claimTrap .cb h
    | some rk =>
      let rt := s.thr rk
      if !rt.cb.has ph then stall .outside
      match (runOf ph n).find? fun i => !rt.cb.has i || 16 ≤ i with
      | some i => claimTrap .cb i
      | none =>
        settleEntry key .mx q 0#16 false false
        publish key q.ver
        let round := rt.rounds.find? fun r => r.cb = ph
        let turn := match round with | some r => r.turn | none => if p = 0 then 1 else 0
        if turn ≠ me || rt.inEntry then stall .outside
        roundWait key (runOf h n)
        chargeCb rk { q with ver := rt.curVer.id } (runOf ph n)
        let res := (countFrom q.progress (n - q.progress)).foldl (fun (acc : NMap Slot × List (Nat × W32 × Nat)) r =>
          let src := t.cb.get (h + r / 256)
          let rc := acc.1.get (ph + r / 256)
          let o := src.owner.get (r % 256)
          let (rc', cause) := joinRow rc (r % 256) (src.elems (r % 256)) o (src.status.get (r % 256)).toNat
          (acc.1.put (ph + r / 256) rc', if cause = 0 then acc.2 else acc.2 ++ [(r, o, cause)])) ((← getThr rk).cb, [])
        let rest := nextTurn p t.gangSize me
        let rows := Nat.max n ((round.map (·.rows)).getD 0)
        modThr rk fun r =>
          { r with
            cb := res.1
            rounds := (r.rounds.filter fun x => x.cb ≠ ph) ++ (match rest with
              | some nx => [{ cb := ph, turn := nx, rows := rows, clk := [] }]
              | none => []) }
        setFill rk .cb ph n n true
        match rowTrap res.2 with
        | some tr => fun s => .error (.fault tr s)
        | none => pure ()

/-! ## The MX words -/

/-- The effect of an MX entry. -/
def mxEffect (key : Nat) (q : QEntry) : M Unit :=
  match q.word with
  | .mclaim m h n => mclaimEntry key q m h.toNat n.toNat
  | .mrel m h n => mrelEntry key q m h.toNat n.toNat
  | .mzero h n => mzeroEntry key q h.toNat n.toNat
  | .mxfer m h _ rh => mxferEntry key q m h.toNat rh.toNat
  | .mldw wb _ _ => mldwEntry key q wb.toNat
  | .mlda ab _ _ _ => mldaEntry key q ab.toNat
  | .mldv ab va _ => mldvEntry key q ab.toNat va
  | .mpass wb ab cb acc _ => mpassEntry key q wb.toNat ab.toNat cb.toNat acc
  | .mpassat wb ab cb acc _ => mpassatEntry key q wb.toNat ab.toNat cb.toNat acc
  | .mdrain cb _ _ _ ty => mdrainEntry key q cb.toNat ty
  | .mdrainv cb vd _ _ => mdrainvEntry key q cb.toNat vd
  | .mdrainp cb rank pcb _ => mdrainpEntry key q cb.toNat rank.toNat pcb.toNat
  | .mxwait f n => tokenWait key .mx q f n
  | .mxset f n => tokenSet key .mx q f n.toNat 5
  | _ => pure ()

/-- The scratch that an MX word writes: the rows of an MDRAIN (R143, R157). -/
def mxScore (w : Instr) (s : State) (c : Score) (key : Nat) (ops : List XReg) : List Score :=
  match w with
  | .mdrain _ _ _ _ ty =>
    let t := s.thr key
    let op := fun (n : Nat) => ((ops[n]?).getD default).val
    if decide (unionTaint ops &&& t.liveTickets ≠ 0#16) || orSat ops then scoreWhole t key c false
    else if 2048 < (op 2).toNat then []
    else
      let sp := rowSpan (op 0) (op 2).toNat (outBytes ty) (op 1)
      scoreAt s key c sp.1 sp.2
  | _ => []

/-- An MX word is pushed with its scalar operands, and the scoreboard records what it writes (R132, R157). -/
def mxWord (w : Instr) (ops : List (BitVec 5)) (flag : Option (BitVec 8)) (s : State) : Out :=
  engineWord .mx mxEffect (fun key => pushScored key .mx w ops flag fun s c l => mxScore w s c key l) s

/-- MCLAIM (R134). -/
def execMclaim (m : MMem) (h : BitVec 6) (n : BitVec 4) (s : State) : Out := mxWord (.mclaim m h n) [] none s

/-- MREL (R135). -/
def execMrel (m : MMem) (h : BitVec 6) (n : BitVec 4) (s : State) : Out := mxWord (.mrel m h n) [] none s

/-- MZERO (R136). -/
def execMzero (h : BitVec 6) (n : BitVec 4) (s : State) : Out := mxWord (.mzero h n) [] none s

/-- MXFER (R137). -/
def execMxfer (m : MMem) (h : BitVec 6) (xa : BitVec 5) (rh : BitVec 6) (s : State) : Out := mxWord (.mxfer m h xa rh) [xa] none s

/-- MLDW (R138). -/
def execMldw (wb : BitVec 6) (xa xb : BitVec 5) (s : State) : Out := mxWord (.mldw wb xa xb) [xa, xb] none s

/-- MLDA (R139). -/
def execMlda (ab : BitVec 6) (xa xb xc : BitVec 5) (s : State) : Out := mxWord (.mlda ab xa xb xc) [xa, xb, xc] none s

/-- MLDV (R140). -/
def execMldv (ab : BitVec 6) (va : BitVec 6) (x : BitVec 5) (s : State) : Out := mxWord (.mldv ab va x) [x] none s

/-- MPASS (R141). -/
def execMpass (wb ab : BitVec 6) (cb : BitVec 4) (acc : Bool) (x : BitVec 5) (s : State) : Out :=
  mxWord (.mpass wb ab cb acc x) [x] none s

/-- MPASSAT (R142). -/
def execMpassat (wb ab : BitVec 6) (cb : BitVec 4) (acc : Bool) (x : BitVec 5) (s : State) : Out :=
  mxWord (.mpassat wb ab cb acc x) [x] none s

/-- MDRAIN (R143). -/
def execMdrain (cb : BitVec 4) (xa xb xc : BitVec 5) (ty : OutTy) (s : State) : Out := mxWord (.mdrain cb xa xb xc ty) [xa, xb, xc] none s

/-- MDRAINV (R144): vd must not be bound (R43). -/
def execMdrainv (cb : BitVec 4) (vd : BitVec 6) (xf xn : BitVec 5) (s : State) : Out :=
  engineWord .mx mxEffect (fun key => do
    bindOk key [] [] [vd]
    pushEntry key .mx (.mdrainv cb vd xf xn) [xf, xn] none false) s

/-- MDRAINP (R145). -/
def execMdrainp (cb : BitVec 4) (rank : BitVec 3) (pcb : BitVec 4) (x : BitVec 5) (s : State) : Out :=
  mxWord (.mdrainp cb rank pcb x) [x] none s

/-- MXWAIT (R39, R146). -/
def execMxwait (f : BitVec 8) (n : BitVec 9) (s : State) : Out := mxWord (.mxwait f n) [] (some f) s

/-- MXSET (R39, R146). -/
def execMxset (f : BitVec 8) (n : BitVec 9) (s : State) : Out := mxWord (.mxset f n) [] (some f) s

end Sys2Proof.Machine
end

