-- ==== Sys2Proof/Machine/Copy.lean ====
section
/-! DEFINITION. The copy engine: chunks, copy tags, the range scoreboard, and the CP instructions (R72, R157, R214 to
R224). -/

namespace Sys2Proof.Machine

/-! ## Where bytes lie -/

/-- An end of a run of copied bytes: a virtual address, an address in the staging slices, the name of the byte after a slice for what lies
beyond it, literal bytes, or rows of operand memory with the handle run they lie in. -/
inductive Loc where
  | va (a : Nat)
  | stg (a : Nat)
  | beyond (name : Nat)
  | lit (l : List Byte)
  | row (m : MMem) (h r : Nat)
  deriving Repr, Inhabited

/-- A run of a chunk: destination, source, length, and the tag that CPTAG gives each block. -/
structure Part where
  dst : Loc
  src : Loc
  len : Nat
  tag : Option W32
  deriving Repr, Inhabited

/-- The spans of the ends that are virtual addresses. -/
def vaSpans (l : List (Loc × Nat)) : List (Nat × Nat) :=
  l.filterMap fun p => match p.1 with | .va a => if p.2 = 0 then none else some (a % two64, p.2) | _ => none

/-- The pieces, by virtual address, that hold a byte. -/
def pieceAt (ps : List Piece) (a : Nat) : Option Piece := ps.find? fun p => p.va ≤ a && a < p.va + p.len

/-- The block that holds a byte of an end, by its space, and the byte's place there; none for what carries no tags. -/
def Loc.block (key : Nat) (ps : List Piece) (l : Loc) (off : Nat) : Option (Space × Nat) :=
  match l with
  | .va a =>
    let b := (a + off) % two64
    match pieceAt ps b with
    | some p => (p.space key).map fun sp => (sp, p.addr + (b - p.va))
    | none => none
  | .stg a => some (.staging, a + off)
  | _ => none

/-- A byte of an end by its own address, for alignment. -/
def Loc.addr (l : Loc) (off : Nat) : Nat :=
  match l with
  | .va a => (a + off) % two64
  | .stg a => a + off
  | .row _ _ r => 256 * r + off
  | .lit _ => off
  | .beyond _ => off

/-- The tag of the block of an end that holds a byte. DEDUCED: assumption log entry 27. -/
def Loc.tag (s : State) (key : Nat) (ps : List Piece) (l : Loc) (off : Nat) : Option W32 :=
  (l.block key ps off).map fun b => (s.space b.1).tag b.2

/-! ## Staging extents (R23, R218) -/

/-- A staging extent: its first byte in the slices and its length (R340). -/
def extentOf (w : W64) : Nat × Nat := (((wfld w 27 3) * 12 + wfld w 23 4) * 8388608 + wfld w 0 23, wfld w 30 23)

/-- The first byte of a range that no extent of the list holds. -/
def outsideAt (ext : List (Nat × Nat)) : Nat → Nat → Nat → Option Nat
  | 0, a, _ => some a
  | fuel + 1, a, n =>
    if n = 0 then none
    else
      match ext.find? fun e => e.1 ≤ a && a < e.1 + e.2 with
      | none => some a
      | some e => outsideAt ext fuel (Nat.min (a + n) (e.1 + e.2)) (a + n - Nat.min (a + n) (e.1 + e.2))

/-- A byte of the slices as CPSTG names it (R218). -/
def stgName (a : Nat) : Nat := a % 8388608 + (a / 8388608 % 12) * 8388608 + (a / 8388608 / 12) * 134217728

/-- A byte of an end as TRAP_ADDR names it (R188, R218). -/
def Loc.name (l : Loc) (off : Nat) : Nat := match l with | .stg a => stgName (a + off) | l => l.addr off

/-- PROT for a staging range beyond its slice or outside the context's extents (R188 step 5, R218). -/
def stgFail (s : State) (cid : Nat) (l : List (Loc × Nat)) : List Trap :=
  let ext := (s.ctx cid).staging.filterMap fun e => e.head?.map extentOf
  l.filterMap fun p =>
    match p.1 with
    | .stg a =>
      let room := 8388608 - a % 8388608
      match outsideAt ext (ext.length + 2) a (Nat.min p.2 room) with
      | some b => some (mkTrap 5 (stgName b) 0)
      | none => if room < p.2 then some (mkTrap 5 (stgName (a + room - 1) + 1) 0) else none
    | .beyond n => some (mkTrap 5 n 0)
    | _ => none

/-! ## Chunks (R214) -/

/-- The entry at the head of a queue. -/
def headEntry (key : Nat) (e : Eng) : M QEntry := do
  let t ← getThr key
  pure (((t.queue e).entries.head?).getD default)

/-- Changes the entry at the head of a queue. -/
def modHead (key : Nat) (e : Eng) (f : QEntry → QEntry) : M Unit :=
  modThr key fun t =>
    let qu := t.queue e
    match qu.entries with
    | x :: r => t.setQueue e { qu with entries := f x :: r }
    | [] => t

/-- Of two failures the one of the earlier step of R188, then of the lower address. -/
def firstFail (a b : Except (Nat × Trap) (List Piece)) (stg : List Trap) : Option Trap :=
  let l := (match a with | .error e => [e] | .ok _ => []) ++ (match b with | .error e => [e] | .ok _ => []) ++ stg.map fun t => (5, t)
  let step := l.foldl (fun n e => Nat.min n e.1) 9
  lowest ((l.filter fun e => e.1 = step).map (·.2))

/-- Checks every byte of a chunk before any is performed (R188 steps 3 to 8, R214); the pieces read and written. The
groups of destinations are each accessed at a scope of their own when they are marked. -/
def checkChunk (r : Req) (rreach : Reach) (parts : List Part) (marked : Bool) : M (List Piece × List Piece) := do
  let s ← get
  let t := s.thr r.key
  let srcs := vaSpans (parts.map fun p => (p.src, p.len))
  let dsts := vaSpans (parts.map fun p => (p.dst, p.len))
  let a := resolveAt s r.key t.cid true false rreach srcs
  let b := resolveAt s r.key t.cid marked true r.reach dsts
  let stg := stgFail s t.cid (parts.flatMap fun p => [(p.src, p.len), (p.dst, p.len)])
  match firstFail a b stg with
  | some e => raise (match b with
      | .error (_, w) => if decide (w = e) && e.cause = 4#8 then { e with info := e.info ||| 65536#64 } else e
      | .ok _ => e)
  | none =>
    let rp := match a with | .ok l => l | .error _ => []
    let wp := match b with | .ok l => l | .error _ => []
    let scopeOf := fun (p : Piece) => match p.tgt with | .host => 9 | .own => 3 | .peer _ => 3 | .remote _ => 3 | _ => 5
    let leaves := fun (q : Piece) => match q.tgt with | .host => true | .remote _ => true | _ => false
    let bad := if !wp.any leaves then [] else parts.filterMap fun p =>
      match p.dst with
      | .va d =>
        ((countFrom 0 p.len).find? fun i =>
          (match pieceAt wp ((d + i) % two64) with | some q => leaves q | none => false) &&
            (match p.src.tag s r.key rp i with | some tg => isPoison tg | none => false)).map fun i => mkTrap 19 (p.src.name i) 0
      | _ => none
    match lowest bad with
    | some e => raise e
    | none => pure ()
    let clk := t.clkOf r.key r.path
    let races := rp.filterMap (raceFail s r false clk) ++
      wp.filterMap fun p => raceFail s { r with marked := marked, scope := scopeOf p } true clk p
    match lowest races with
    | some e => raise e
    | none => pure ()
    let rp ← if srcs = [] then pure [] else access { r with reach := rreach } true false srcs
    if marked then
      for p in wp do
        let _ ← access { r with marked := true, scope := scopeOf p } true true [(p.va, p.len)]
      pure (rp, wp)
    else
      let wp ← if dsts = [] then pure [] else access r false true dsts
      let v := t.ver r.ver
      let lines := (parts.flatMap fun p => match p.dst with
        | .stg d => ((blocksOf d p.len).filter fun b => !v.hasLine .staging b).map fun b => (Space.staging, b)
        | _ => []).eraseDups
      if lines ≠ [] then writeRoom r lines (stgName (64 * (lines.headD (.staging, 0)).2))
      pure (rp, wp)

/-- The lines of remote windows that pieces read, window and line, with the lowest address read there. -/
def remoteLines (ps : List Piece) : List ((Nat × Nat) × Nat) :=
  ps.flatMap fun p => match p.tgt with
    | .remote w => (blocksOf p.addr p.len).map fun b => ((w, b), p.va + (Nat.max p.addr (64 * b) - p.addr))
    | _ => []

/-- Reads of remote windows by the copy engine are not cached (R191): the lines are asked for, and their replies waited
for. Answers the lines with their bytes; one that is POISON at its target raises MEMERR (R72; DEDUCED, assumption log entry 27). -/
def fetchRemote (key : Nat) (ps : List Piece) : M (List ((Nat × Nat) × BitVec 512)) := do
  let ls := remoteLines ps
  if ls = [] then pure []
  else
    let q ← headEntry key .cp
    let new := ((ls.map (·.1)).eraseDups).filter fun l => !q.asked.any fun a => a.1 = l
    if new ≠ [] then
      let ids ← new.foldlM (fun (acc : List ((Nat × Nat) × Nat)) l => do
        return acc ++ [(l, ← sendPacket key 4 l.1 none none (.lineRead (l.2 * 64)))]) []
      modHead key .cp fun x => { x with asked := x.asked ++ ids }
      waitOn .outside
    let t ← getThr key
    let replyOf := fun (l : Nat × Nat) => ((q.asked.find? fun a => a.1 = l).map (·.2)).getD 0
    if ls.any fun l => !t.replies.has (replyOf l.1) then stall .outside
    match lowest (ls.filterMap fun l => if (t.replies.get (replyOf l.1)).poison then some (mkTrap 19 l.2 0) else none) with
    | some tr => raise tr
    | none => pure (ls.map fun l => (l.1, (t.replies.get (replyOf l.1)).data))

/-- The remote lines that an entry has asked for have served their purpose. -/
def endFetch (key : Nat) : M Unit := do
  let q ← headEntry key .cp
  if q.asked ≠ [] then
    modThr key fun t => { t with replies := q.asked.foldl (fun m a => m.erase a.2) t.replies }
    modHead key .cp fun x => { x with asked := [] }

/-- The bytes of a source end; a copy may have read some of them earlier (R159). -/
def Loc.bytes (s : State) (key : Nat) (ps : List Piece) (rem : List ((Nat × Nat) × BitVec 512)) (l : Loc) (n : Nat) : List Byte :=
  match l with
  | .lit b => fitTo n 0#8 b
  | .stg a => s.staging.bytes a n
  | .va a =>
    (cutSpan (n / 16384 + 2) (a % two64) n).flatMap fun sp =>
      match pieceAt ps sp.1 with
      | none => List.replicate sp.2 0#8
      | some p =>
        let at_ := p.addr + (sp.1 - p.va)
        match p.tgt with
        | .host => s.host.bytes at_ sp.2
        | .remote w =>
          (cutBytes (sp.2 / 64 + 2) at_ (List.replicate sp.2 0#8)).flatMap fun seg =>
            match rem.find? fun r => r.1 = (w, seg.1 / 64) with
            | some r => takeBytes r.2 (seg.1 % 64) seg.2.length
            | none => seg.2
        | _ => match p.space key with
          | some spc => withEarly ((s.thr key).earlyOf 4) spc at_ ((s.space spc).bytes at_ sp.2)
          | none => List.replicate sp.2 0#8
  | .row _ _ _ => List.replicate n 0#8
  | .beyond _ => List.replicate n 0#8

/-- Bytes that the copy engine reads for an entry besides its source, a descriptor, an index list or a tag stream: on the CP path, and from a
remote window uncached (R191, R214). -/
def readUncached (key : Nat) (q : QEntry) (a n : Nat) : M (List Byte) := do
  let ps ← access (entryReq key .cp q Reach.all) true false [(a % two64, n)]
  let rem ← fetchRemote key ps
  for p in ps do peerWatch (entryReq key .cp q Reach.all) true false p
  keepHits key .cp
  pure ((Loc.va a).bytes (← get) key ps rem n)

/-! ## Tags of copied blocks (R72, R221) -/

/-- The part of one destination block that a run writes: its offset in the run, the block, its first byte and length,
whether a byte comes from a POISON block, and the source block whose tag it would take with that tag. -/
structure BlockPart where
  off : Nat
  sp : Space
  at_ : Nat
  len : Nat
  poison : Bool
  src : Option (Nat × W32)
  deriving Repr, Inhabited

/-- The destination offsets of a run cut at blocks. -/
def blockCuts (first n : Nat) : List (Nat × Nat) :=
  (cutBytes (n / 64 + 2) first (List.replicate n 0#8)).map fun seg => (seg.1 - first, seg.2.length)

/-- A source byte range touches a POISON block. -/
def Loc.poisoned (s : State) (key : Nat) (ps : List Piece) (l : Loc) (off n : Nat) : Bool :=
  [off, off + n - 1].any fun i => match l.tag s key ps i with | some t => isPoison t | none => false

/-- The source block that a destination block would take its tag from: both aligned alike (R72). -/
def Loc.srcBlock (s : State) (key : Nat) (ps : List Piece) (l : Loc) (off d : Nat) : Option (Nat × W32) :=
  if (l.addr off) % 64 = d % 64 then (l.tag s key ps off).map fun t => (l.addr off / 64, t) else none

/-- The block parts of a run. -/
def Part.blocks (s : State) (key : Nat) (rp wp : List Piece) (p : Part) : List BlockPart :=
  (blockCuts (p.dst.addr 0 % 64) p.len).filterMap fun c =>
    (p.dst.block key wp c.1).map fun b =>
      { off := c.1, sp := b.1, at_ := b.2, len := c.2, poison := p.src.poisoned s key rp c.1 c.2
        src := p.src.srcBlock s key rp c.1 b.2 }

/-- What a block has received once a part is added. -/
def Cover.add (o : Option Cover) (b : BlockPart) : Cover :=
  let mask := byteMask (b.at_ % 64) b.len
  match o with
  | none => { sp := b.sp, line := b.at_ / 64, mask := mask, poison := b.poison, src := b.src.map (·.1) }
  | some c =>
    if b.len = 64 then { c with mask := mask, poison := c.poison || b.poison, src := b.src.map (·.1) }
    else { c with mask := c.mask ||| mask, poison := c.poison || b.poison, src := if c.src = b.src.map (·.1) then c.src else none }

/-- The code of POISON as the device writes it (R68). -/
def poisonTag : W32 := 0x30#32

/-- The tag that a block part leaves on its block: none keeps the old one (R72, R221). -/
def Cover.tag (c : Cover) (b : BlockPart) (fix : Option W32) : Option W32 :=
  if c.poison then some poisonTag
  else match fix with
    | some t => some t
    | none =>
      if c.mask = BitVec.allOnes 64 then
        some (match c.src, b.src with | some _, some x => x.2 | _, _ => 0#32)
      else none

/-- Writes the tags of the blocks that a run has written. -/
def tagPart (key : Nat) (q : QEntry) (keep : Bool) (fix : Option W32) (bs : List BlockPart) : M Unit :=
  forEach bs fun b => do
    let x ← headEntry key .cp
    let old := x.cov.find? fun c => decide (c.sp = b.sp) && c.line = b.at_ / 64
    let c := Cover.add old b
    let rest := x.cov.filter fun c => !(decide (c.sp = b.sp) && c.line = b.at_ / 64)
    if b.len < 64 || old.isSome then modHead key .cp fun y => { y with cov := c :: rest }
    let tg := if keep then (if b.poison then some poisonTag else none) else c.tag b fix
    match tg with
    | some t => modify fun s => s.writeTagVer key q.ver b.sp b.at_ t
    | none => pure ()

/-- The tags of the four blocks of an operand-memory row (R72, R216). -/
def rowTags (s : State) (key : Nat) (rp : List Piece) (l : Loc) : List W32 :=
  (countFrom 0 4).map fun j =>
    if l.poisoned s key rp (64 * j) 64 then poisonTag
    else if l.addr (64 * j) % 64 = 0 then (l.tag s key rp (64 * j)).getD 0#32 else 0#32

/-- Sends the granules of the chunk under way that are still to be sent; the entry keeps them while it waits for allowance (R185, R202). -/
def sendGranules (key : Nat) (red : Option RedTy) : M Unit := do
  let x ← headEntry key .cp
  match x.grans with
  | none => pure ()
  | some gs =>
    postGranules key 4 red gs
    modHead key .cp fun x => { x with grans := none }

/-- A chunk has been read and written, but for the granules that are posted last: its reads are all performed before (R185, R214). -/
def finishChunk (key : Nat) (red : Option RedTy) (gs : List (Nat × Nat × BitVec 512 × BitVec 64)) : M Unit := do
  endFetch key
  if !gs.isEmpty then
    modHead key .cp fun x => { x with grans := some gs }
    sendGranules key red

/-- A chunk of an entry: what is left to be sent of the one under way, or the whole of it. -/
def oneChunk (key : Nat) (red : Option RedTy) (body : M Unit) : M Unit := do
  let x ← headEntry key .cp
  if x.grans.isSome then sendGranules key red else body

/-- The bytes of a chunk that go to virtual addresses, in order. -/
def flatBytes (l : List (Part × List Byte)) : List Byte :=
  (l.filterMap fun p => match p.1.dst with | .va _ => some p.2 | _ => none).flatten

/-- Writes the bytes of the runs of a chunk, but what is posted. -/
def writeChunk (r : Req) (q : QEntry) (wp : List Piece) (l : List (Part × List Byte)) : M Unit := do
  writeLocal r wp (flatBytes l)
  forEach l fun p =>
    match p.1.dst with
    | .stg a => modify fun s => s.writeVer r.key q.ver .staging a p.2
    | _ => pure ()

/-- The request of a copy's accesses: no POISON trap (R72); a host copy's lie on the HOST path (R151, R314). -/
def cpReq (key : Nat) (q : QEntry) : Req :=
  { entryReq key .cp q { Reach.all with granary := true } with poison := false, path := if 3 * passBase ≤ key then 6 else 4 }

/-- One chunk of a copy: checks, reads, writes, tags (R72, R214). -/
def copyChunk (key : Nat) (q : QEntry) (reach : Reach) (parts : List Part) : M Unit := oneChunk key none do
  let r := { cpReq key q with reach := reach }
  let (rp, wp) ← checkChunk r Reach.all parts false
  let rem ← fetchRemote key rp
  for p in rp do peerWatch r true false p
  let s ← get
  let l := parts.map fun p => (p, p.src.bytes s key rp rem p.len)
  let bs := parts.map fun p => (p.tag, p.blocks s key rp wp)
  let tags := parts.map fun p => rowTags s key rp p.src
  writeChunk r q wp l
  forEach bs fun b => tagPart key q false b.1 b.2
  forEach (l.zip tags) fun p =>
    match p.1.1.dst with
    | .row m h n => modSlot key m (h + n / 256) fun sl =>
        { sl.putRow (n % 256) p.1.2 p.2 with owner := sl.owner.set (n % 256) 0#32 }
    | _ => pure ()
  finishChunk key none (remoteGranules wp (flatBytes l))

/-- Runs of n destination bytes from a point of rows of equal length: row, offset in the row, length (R214). -/
def rowRuns (rowBytes rows : Nat) : Nat → Nat → Nat → List (Nat × Nat × Nat)
  | 0, _, _ => []
  | fuel + 1, at_, n =>
    if n = 0 || rowBytes = 0 || rows ≤ at_ / rowBytes then []
    else
      let here := Nat.min n (rowBytes - at_ % rowBytes)
      (at_ / rowBytes, at_ % rowBytes, here) :: rowRuns rowBytes rows fuel (at_ + here) (n - here)

/-- The chunks of an entry from its progress on, each of at most 4 KiB of destination; what is done stays when a chunk
waits or faults (R214). -/
def chunkLoop (key : Nat) (total : Nat) (body : Nat → Nat → M Unit) : M Unit := do
  let q ← headEntry key .cp
  let n := (total + 4095) / 4096
  rowLoop key .cp (fun i => body (4096 * i) (Nat.min 4096 (total - 4096 * i))) (n - q.progress) q.progress

/-! ## The range scoreboard (R157) -/

/-- The ranges a CP word records when it is pushed: its destination, when that is known; the whole allotment, with the
bound slots for CPT and CPG, when it comes from a descriptor or from an operand that awaits a ticket. -/
def scorePush (w : Instr) (s : State) (c : Score) (key : Nat) (ops : List XReg) : List Score :=
  let t := s.thr key
  let op := fun (n : Nat) => ((ops[n]?).getD default).val.toNat
  let late := decide (unionTaint ops &&& t.liveTickets ≠ 0#16) || orSat ops
  let known := fun (n : Nat) => if late then scoreWhole t key c false else scoreAt s key c (op 0) (Nat.min n (2 ^ 36))
  match w with
  | .cpl _ _ _ _ => known (op 2)
  | .cpt _ _ _ _ => scoreWhole t key c true
  | .cpg _ _ _ _ => scoreWhole t key c true
  | .cps _ _ _ _ => scoreWhole t key c false
  | .cpstg _ _ _ out _ => if out then known (op 2) else []
  | .cpred _ _ _ _ _ => known (op 2)
  | .cpfill _ _ _ _ _ => known (op 2)
  | .cptag _ _ _ strm _ => if strm then scoreWhole t key c false else known (op 2 / 2 ^ 32 * 64)
  | .cpconv _ _ _ _ => known (op 2 % 2 ^ 32 * 8)
  | _ => []

/-! ## Entries -/

/-- A length or total above 2^36 is ILLEGAL (R214). -/
def lengthOk (q : QEntry) (n : Nat) : M Unit := if 2 ^ 36 < n then illegalEntry q else pure ()

/-- An entry begins: its operands are waited for as those of a write, once (R169, R173). -/
def cpBegin (key : Nat) (q : QEntry) : M Unit := settleEntry key .cp q 0#16 false true

/-- The 64 bytes of an entry's descriptor as eight words, read once when the entry starts (R214). -/
def descriptor (key : Nat) (q : QEntry) (a : Nat) : M (List W64) := do
  if q.dwords ≠ [] then pure q.dwords
  else
    if a % 64 ≠ 0 then raise (mkTrap 3 a 0)
    let l ← readUncached key q a 64
    let d := (countFrom 0 8).map fun i => BitVec.ofNat 64 (bfld l (8 * i) 8)
    endFetch key
    modHead key .cp fun x => { x with dwords := d }
    pure d

/-- A virtual address plus a signed multiple of a step. -/
def stepVa (a : W64) (i : Nat) (st : W64) : Nat := (a + st * BitVec.ofNat 64 i).toNat

/-- CPL (R215): chunks in decreasing destination order when the destination overlaps its source from above. -/
def cplEntry (key : Nat) (q : QEntry) : M Unit := do
  let n := (q.op 2).val.toNat
  lengthOk q n
  let a := (q.op 0).val.toNat
  let b := (q.op 1).val.toNat
  narrowVa key .cp q a n
  let down := decide (b < a) && decide (a < b + n)
  chunkLoop key n fun at_ k =>
    let o := if down then n - at_ - k else at_
    copyChunk key q Reach.all [{ dst := .va (a + o), src := .va (b + o), len := k, tag := none }]

/-- CPT (R216). -/
def cptEntry (key : Nat) (q : QEntry) : M Unit := do
  let d ← descriptor key q (q.op 2).val.toNat
  let w := fun (n : Nat) => (d[n]?).getD 0
  let rb := wfld (w 0) 0 32
  let rows := wfld (w 0) 32 32
  let planes := wfld (w 3) 0 16
  let kind := wfld (w 3) 16 2
  if 2 ^ 20 < rb || 65535 < rows || kind = 3 || wfld (w 3) 18 46 ≠ 0 || w 6 ≠ 0 || w 7 ≠ 0 then illegalEntry q
  lengthOk q (planes * rows * rb)
  let a := (q.op 0).val
  let b := (q.op 1).val
  let src := fun (i : Nat) => (b + w 4 * BitVec.ofNat 64 (i / rows) + w 1 * BitVec.ofNat 64 (i % rows)).toNat
  if kind = 0 then
    let dst := fun (i : Nat) => (a + w 5 * BitVec.ofNat 64 (i / rows) + w 2 * BitVec.ofNat 64 (i % rows)).toNat
    let one := rowSpan a rows rb (w 2)
    let all := rowSpan (BitVec.ofNat 64 one.1) planes one.2 (w 5)
    narrowVa key .cp q all.1 all.2
    chunkLoop key (planes * rows * rb) fun at_ k =>
      copyChunk key q Reach.all ((rowRuns rb (planes * rows) 4097 at_ k).map fun r =>
        { dst := .va (dst r.1 + r.2.1), src := .va (src r.1 + r.2.1), len := r.2.2, tag := none })
  else
    let h := a.toNat
    if 64 ≤ h || rb ≠ 256 || planes ≠ 1 || w 2 ≠ 0 || w 5 ≠ 0 then illegalEntry q
    if kind = 1 && rows ≠ 128 then illegalEntry q
    if kind = 2 && (rows = 0 || 2048 < rows) then illegalEntry q
    let m : MMem := if kind = 1 then .wb else .ab
    let run := if kind = 1 then [h] else runOf h rows
    needBound key m run
    narrowScore key .cp q [{ (default : Score) with
                         key := key, wb := if kind = 1 then run else [], ab := if kind = 2 then run else [] }]
    chunkLoop key (rows * 256) fun at_ k =>
      copyChunk key q Reach.all ((rowRuns 256 rows 17 at_ k).map fun r =>
        { dst := .row m h r.1, src := .va (src r.1), len := 256, tag := none })
    if kind = 2 then setFill key .ab h rows rows false

/-- The indices of rows of CPG and CPS, read from their list on the CP path (R217). -/
def readIndices (key : Nat) (q : QEntry) (index : W64) (iw : Nat) (sgn : Bool) (first n : Nat) : M (List W64) := do
  let l ← readUncached key q (stepVa index first (BitVec.ofNat 64 iw)) (n * iw)
  pure ((countFrom 0 n).map fun i =>
    let v := bfld l (i * iw) iw
    if sgn then sextBytes iw v else BitVec.ofNat 64 v)

/-- The fields of a row-gather or row-scatter descriptor, checked, the shape that KIND 2 asks for first (R188 step 1, R217). -/
def gatherDesc (key : Nat) (q : QEntry) (ab : Bool) : M (List W64) := do
  let d ← descriptor key q (q.op 2).val.toNat
  let w := fun (n : Nat) => (d[n]?).getD 0
  let kind := wfld (w 4) 4 2
  if 2 ^ 20 < wfld (w 0) 0 32 || 65536 < wfld (w 0) 32 32 || 2 ≤ wfld (w 4) 0 2 || wfld (w 4) 3 1 ≠ 0 || wfld (w 4) 6 58 ≠ 0 ||
      !(kind = 0 || (ab && kind = 2)) || w 5 ≠ 0 || w 6 ≠ 0 || w 7 ≠ 0 then illegalEntry q
  lengthOk q (wfld (w 0) 0 32 * wfld (w 0) 32 32)
  if kind = 2 && (64 ≤ (q.op 0).val.toNat || wfld (w 0) 0 32 ≠ 256 || 2048 < wfld (w 0) 32 32) then illegalEntry q
  if (w 1).toNat % (4 * 2 ^ wfld (w 4) 0 2) ≠ 0 then raise (mkTrap 3 (w 1).toNat 0)
  pure d

/-- The rows of a chunk with their indices. -/
def rowsAndIndices (key : Nat) (q : QEntry) (d : List W64) (rb at_ k : Nat) : M (List ((Nat × Nat × Nat) × W64)) := do
  let w := fun (n : Nat) => (d[n]?).getD 0
  let runs := rowRuns rb (wfld (w 0) 32 32) 4097 at_ k
  let ix ← readIndices key q (w 1) (4 * 2 ^ wfld (w 4) 0 2) (wfld (w 4) 2 1 = 1) (at_ / rb) runs.length
  pure (runs.zip ix)

/-- CPG (R217). With KIND 2 and ROWS 0 its handle must be bound, and its FILL becomes 0 (DESIGN CHOICE: assumption log entry 74, for R214 says that a
length of 0 performs nothing). -/
def cpgEntry (key : Nat) (q : QEntry) : M Unit := do
  let d ← gatherDesc key q true
  let w := fun (n : Nat) => (d[n]?).getD 0
  let rb := wfld (w 0) 0 32
  let rows := wfld (w 0) 32 32
  let a := (q.op 0).val
  let b := (q.op 1).val
  if wfld (w 4) 4 2 = 0 then
    let sp := rowSpan a rows rb (w 3)
    narrowVa key .cp q sp.1 sp.2
    chunkLoop key (rows * rb) fun at_ k => oneChunk key none do
      let l ← rowsAndIndices key q d rb at_ k
      copyChunk key q Reach.all (l.map fun r =>
        { dst := .va (stepVa a r.1.1 (w 3) + r.1.2.1), src := .va ((b + r.2 * w 2).toNat + r.1.2.1), len := r.1.2.2, tag := none })
  else
    let h := a.toNat
    let run := if rows = 0 then [h] else runOf h rows
    needBound key .ab run
    narrowScore key .cp q [{ (default : Score) with key := key, ab := run }]
    chunkLoop key (rows * 256) fun at_ k => do
      let l ← rowsAndIndices key q d 256 at_ k
      copyChunk key q Reach.all (l.map fun r => { dst := .row .ab h r.1.1, src := .va (b + r.2 * w 2).toNat, len := 256, tag := none })
    setFill key .ab h rows rows false

/-- CPS (R217). The ranges that it writes in peers' scratches are recorded as their rows' indices come to be known (R157). -/
def cpsEntry (key : Nat) (q : QEntry) : M Unit := do
  let d ← gatherDesc key q false
  let w := fun (n : Nat) => (d[n]?).getD 0
  let rb := wfld (w 0) 0 32
  let rows := wfld (w 0) 32 32
  let a := (q.op 0).val
  let b := (q.op 1).val
  chunkLoop key (rows * rb) fun at_ k => oneChunk key none do
    let l ← rowsAndIndices key q d rb at_ k
    let s ← get
    growScore key .cp q (l.flatMap fun r => scoreAt s key default ((a + r.2 * w 2).toNat + r.1.2.1) r.1.2.2)
    copyChunk key q Reach.all (l.map fun r =>
      { dst := .va ((a + r.2 * w 2).toNat + r.1.2.1), src := .va (stepVa b r.1.1 (w 3) + r.1.2.1), len := r.1.2.2, tag := none })

/-- CPSTG (R218): into the slice, or out of it. -/
def cpstgEntry (key : Nat) (q : QEntry) (out : Bool) : M Unit := do
  let n := (q.op 2).val.toNat
  let a := (q.op 0).val.toNat
  let nm := (q.op 1).val
  if 12 ≤ wfld nm 23 4 || wfld nm 30 34 ≠ 0 then illegalEntry q
  lengthOk q n
  let g := (wfld nm 27 3 * 12 + wfld nm 23 4) * 8388608 + wfld nm 0 23
  if out then narrowVa key .cp q a n
  chunkLoop key n fun at_ k =>
    let room := 8388608 - wfld nm 0 23
    let side : Loc := if at_ < room then .stg (g + at_) else .beyond (stgName (g + room - 1) + 1)
    copyChunk key q Reach.all
      [if out then { dst := .va (a + at_), src := side, len := k, tag := none }
       else { dst := side, src := .va (a + at_), len := k, tag := none }]

/-- The element bytes of a reduction (R219). -/
def redBytes : RedTy → Nat
  | .bf16 => 2
  | _ => 4

/-- The sum of a destination element and a source element (R219). -/
def redSum (ty : RedTy) (m v : Nat) : Nat :=
  match ty with
  | .bf16 => (Ty.bf16.encode .rne false ((Ty.bf16.value m).add .rne (Ty.bf16.value v)).1).1
  | t => addLane t m v

/-- Adds elements into a piece. -/
def redPiece (r : Req) (ty : RedTy) (p : Piece) (data : List Byte) : M Unit := do
  let s ← get
  let n := redBytes ty
  let mem := match p.tgt with | .host => s.host | _ => match p.space r.key with | some sp => s.space sp | none => default
  let res := (countFrom 0 (p.len / n)).flatMap fun i => natLE n (redSum ty (mem.readLE (p.addr + n * i) n) (bfld data (n * i) n))
  match p.tgt with
  | .host => modify fun s => { s with host := s.host.setBytes p.addr res }
  | _ => match p.space r.key with
    | some sp =>
      noteIn r p
      modify fun s => s.writeVer r.key r.ver sp p.addr res
      peerWatch r true true p
    | none => pure ()

/-- ALIGN of addresses to a size, at the lowest that is not a multiple of it (R188 step 2). -/
def alignAll (n : Nat) (l : List Nat) : M Unit :=
  match lowest ((l.filter fun a => a % n ≠ 0).map fun a => mkTrap 3 a 0) with
  | some t => raise t
  | none => pure ()

/-- CPRED (R219): marked relaxed updates, each at the scope of its target's kind (R150); a remote line that it reaches is written back first
(R184). -/
def cpredEntry (key : Nat) (q : QEntry) (ty : RedTy) : M Unit := do
  let n := (q.op 2).val.toNat
  let a := (q.op 0).val.toNat
  let b := (q.op 1).val.toNat
  let w := redBytes ty
  lengthOk q n
  alignAll w [a, b]
  if n % w ≠ 0 then raise (mkTrap 3 a 0)
  narrowVa key .cp q a n
  chunkLoop key n fun at_ k => oneChunk key (some ty) do
    let r := { cpReq key q with reach := { Reach.all with host := decide (ty = .i32) } }
    let parts : List Part := [{ dst := .va (a + at_), src := .va (b + at_), len := k, tag := none }]
    let (rp, wp) ← checkChunk r Reach.all parts true
    forEach ((remoteLines wp).map fun l => lineKey l.1.1 l.1.2) (writeBackLine key)
    let rem ← fetchRemote key rp
    for p in rp do peerWatch r true false p
    let s ← get
    let l := parts.map fun p => (p, p.src.bytes s key rp rem p.len)
    let data := (l.map (·.2)).flatten
    let sh := shareBytes wp data
    forEach (parts.map fun p => p.blocks s key rp wp) fun bs => tagPart key q true none bs
    forEach sh fun p => redPiece r ty p.1 p.2
    finishChunk key (some ty) (remoteGranules wp data)

/-- The pattern bytes of CPFILL (R220). -/
def fillBytes (w v n : Nat) : List Byte := ((countFrom 0 (n / w)).flatMap fun _ => natLE w v)

/-- CPFILL (R220). -/
def cpfillEntry (key : Nat) (q : QEntry) (z : Size) : M Unit := do
  let n := (q.op 2).val.toNat
  let a := (q.op 0).val.toNat
  let w := sizeBytes z
  lengthOk q n
  if a % w ≠ 0 || n % w ≠ 0 then raise (mkTrap 3 a 0)
  narrowVa key .cp q a n
  chunkLoop key n fun at_ k =>
    copyChunk key q Reach.all
      [{ dst := .va (a + at_), src := .lit (fillBytes w (q.op 1).val.toNat k), len := k, tag := none }]

/-- CPTAG (R221). -/
def cptagEntry (key : Nat) (q : QEntry) (strm : Bool) : M Unit := do
  let a := (q.op 0).val.toNat
  let b := (q.op 1).val.toNat
  let c := (q.op 2).val
  if strm && c.toNat % 4 ≠ 0 then raise (mkTrap 3 (if a % 64 ≠ 0 then Nat.min a c.toNat else c.toNat) 0)
  let cnt ← if strm then do
      if q.dwords ≠ [] then pure ((q.dwords.headD 0).toNat)
      else
        let l ← readUncached key q c.toNat 4
        endFetch key
        modHead key .cp fun x => { x with dwords := [BitVec.ofNat 64 (leNat l)] }
        pure (leNat l)
    else pure (wfld c 32 32)
  if 2 ^ 26 < cnt then illegalEntry q
  if a % 64 ≠ 0 then raise (mkTrap 3 a 0)
  narrowVa key .cp q a (cnt * 64)
  chunkLoop key (cnt * 64) fun at_ k => oneChunk key none do
    let tags ← if strm then do
        let l ← readUncached key q (c.toNat + 4 + at_ / 64 * 4) (k / 64 * 4)
        pure ((countFrom 0 (k / 64)).map fun i => BitVec.ofNat 32 (bfld l (4 * i) 4))
      else pure (List.replicate (k / 64) (c.setWidth 32))
    copyChunk key q { Reach.all with host := false, granary := false, remote := false }
      ((tags.zip (countFrom 0 (k / 64))).map fun p =>
        { dst := .va (a + at_ + 64 * p.2), src := .va (b + at_ + 64 * p.2), len := 64, tag := some p.1 })

/-! ## CPCONV (R222) -/

/-- How the elements of a source block decode: none when the block's tag raises FORMAT. A signalling NaN is one until it is converted (R70, R77). A
malformed tag whose FMT is the format code of ST raises FORMAT, as an FMT of another type does: R70 decodes well-formed tags alone (DESIGN CHOICE:
assumption log entry 74). -/
def convBlock (st : Ty) (tag : W32) (data : Nat) : Option (List (Num × Nat)) :=
  let tg := tag.toNat
  let fmt := fld tg 0 8
  match st.fmtCode? with
  | none => some ((lanesFrom st.width (512 / st.width) data).map fun v => (st.value v, 0))
  | some c =>
    let use := if fmt = c then some tg else if fmt = 0 then some (0x7F00 + c) else none
    match use with
    | none => none
    | some u =>
      if tagMalformed u then none
      else
        let r := decodeBlock st u data
        let sig := fun (v : Nat) => fld u 8 8 ≠ 255 && st ≠ .sq4 && (st.value v).isSig
        some (((lanesFrom st.width (512 / st.width) data).zip r.1).map fun v =>
          (if sig v.1 then .nan true else v.2, if r.2 && st = .sq4 then fUNF else 0))

/-- One element converted, with its flags (R75, R77, R78). -/
def convElem (st dt : Ty) (rm : RM) (sat : Bool) (code : Nat) (x : Num × Nat) : LaneRes :=
  if st.isInt && dt.isInt then dt.reduce sat (laneInt st code)
  else
    let r := dt.encode rm sat x.1
    (r.1, (if x.1.isSig then r.2 ||| fNV else r.2) ||| x.2)

/-- The source blocks of a chunk: tag, whether POISON, and the bits. Of a last block that N covers in part only those bytes are read, the rest
taken as 0, so that UNFUNDED is judged on them alone (DESIGN CHOICE: assumption log entry 69, for R66 speaks of whole blocks). -/
def convSources (s : State) (key : Nat) (rp : List Piece) (rem : List ((Nat × Nat) × BitVec 512)) (b n : Nat) : List (W32 × Nat) :=
  (countFrom 0 ((n + 63) / 64)).map fun j =>
    let k := Nat.min 64 (n - 64 * j)
    (((Loc.va (b + 64 * j)).tag s key rp 0).getD 0#32, leNat ((Loc.va (b + 64 * j)).bytes s key rp rem k))

/-- CPCONV (R222). The flags are gathered in the entry and reach VSTAT when it completes. FORMAT puts the first source byte of its chunk into
TRAP_ADDR (DESIGN CHOICE: assumption log entry 74). -/
def cpconvEntry (key : Nat) (q : QEntry) : M Unit := do
  let c := (q.op 2).val
  let a := (q.op 0).val.toNat
  let b := (q.op 1).val.toNat
  let n := wfld c 0 32
  match Ty.ofCode? (wfld c 32 4), Ty.ofCode? (wfld c 36 4) with
  | some st, some dt =>
    if 5 ≤ wfld c 40 3 || wfld c 44 20 ≠ 0 || n * st.width % 8 ≠ 0 || n * dt.width % 8 ≠ 0 then illegalEntry q
    alignAll 64 [a, b]
    let rm := RM.ofCode (wfld c 40 3)
    let sat := decide (wfld c 43 1 = 1)
    let per := 512 / dt.width
    narrowVa key .cp q a (n * dt.width / 8)
    chunkLoop key (n * dt.width / 8) fun at_ k => oneChunk key none do
      let i0 := at_ * 8 / dt.width
      let cnt := k * 8 / dt.width
      let so := i0 * st.width / 8
      let sn := cnt * st.width / 8
      let r := cpReq key q
      let parts : List Part := [{ dst := .va (a + at_), src := .lit [], len := k, tag := none },
                                { dst := .lit [], src := .va (b + so), len := sn, tag := none }]
      let (rp, wp) ← checkChunk r Reach.all parts false
      let rem ← fetchRemote key rp
      for p in rp do peerWatch r true false p
      let s ← get
      let blks := convSources s key rp rem (b + so) sn
      if blks.any fun x => !isPoison x.1 && (convBlock st x.1 x.2).isNone then
        raise (mkTrap 12 ((b + so) % two64) 0)
      let elems := (blks.flatMap fun x =>
        let codes := lanesFrom st.width (512 / st.width) (if isPoison x.1 then 0 else x.2)
        let vals := if isPoison x.1 then codes.map fun v => (st.value v, 0) else (convBlock st x.1 x.2).getD []
        (codes.zip vals).map fun p => (isPoison x.1, p.1, p.2)).take cnt
      let res := elems.map fun e => (e.1, convElem st dt rm sat e.2.1 e.2.2)
      let data := (natLE k (packNat dt.width (res.map fun e => e.2.1)))
      writeLocal r wp data
      let dtag : W32 := match dt.fmtCode? with | some f => BitVec.ofNat 32 (0x7F00 + f) | none => 0#32
      forEach (countFrom 0 ((k + 63) / 64)) fun j =>
        match (Loc.va (a + at_)).block key wp (64 * j) with
        | some blk =>
          if ((res.drop (per * j)).take per).any (·.1) then modify fun s => s.writeTagVer key q.ver blk.1 blk.2 poisonTag
          else if 64 * (j + 1) ≤ k then modify fun s => s.writeTagVer key q.ver blk.1 blk.2 dtag
          else pure ()
        | none => pure ()
      let fl := res.foldl (fun f e => f ||| e.2.2) 0
      modHead key .cp fun x => { x with dwords := [BitVec.ofNat 64 (((x.dwords.headD 0).toNat) ||| fl)] }
      finishChunk key none (remoteGranules wp data)
    let x ← headEntry key .cp
    modThr key fun t => t.updLive fun f => { f with vstat := vstatOr f.vstat (x.dwords.headD 0).toNat }
  | _, _ => illegalEntry q

/-! ## CPSIG (R223) -/

/-- The endpoint is granted to the context by the host (R201, R331). PRESUMED: assumption log entry 17. -/
def Ctx.epGranted (c : Ctx) (ep : W32) : Bool := c.grants.any fun g => decide ((g.headD 0).setWidth 32 = ep)

/-- CPSIG (R223): a release at panel scope that publishes (R166, R386): what was sent before on another flow, or to another endpoint, which no sequence
number orders before the signal, has been answered first (R186). A remote signal waits for its reply. -/
def cpsigEntry (key : Nat) (q : QEntry) : M Unit := do
  let t ← getThr key
  if q.started then
    if q.pkts.any fun id => !t.replies.has id then stall .outside
    modThr key fun t => { t with replies := q.pkts.foldl (fun m id => m.erase id) t.replies }
    modHead key .cp fun y => { y with pkts := [] }
  else
    let x := (q.op 0).val
    let d := wfld x 0 5
    let f := wfld x 5 8
    let v := (q.op 1).val.setWidth 32
    if 24 ≤ d || f = 0 || 192 ≤ f || wfld x 13 51 ≠ 0 then illegalEntry q
    let s ← get
    let dead := if d < 16 then decide ((t.win.get d).target.toNat < 9223372036854775808) || !(s.ctx t.cid).epGranted (t.win.get d).endpoint
      else (s.peerKey t (d - 16)).isNone
    if dead then raise (mkTrap 5 x.toNat 0)
    writeBackLines key (fun _ => true)
    publish key q.ver
    let t ← getThr key
    let clk := t.clkOf key 4
    if d < 16 then
      let fl := t.flowOf d
      let s ← get
      if s.outbox.any fun p => decide (p.key = key) && (decide (p.flow ≠ fl) || decide (p.ep ≠ (t.win.get d).endpoint)) && (match p.kind with | .write _ _ _ _ => true | _ => false) then
        waitOn .outside
      let id ← sendPacket key 4 d none none (.signal f v)
      modHead key .cp fun y => { y with started := true, pkts := [id] }
      waitOn .outside
    else
      let s ← get
      if !s.allAcked key then waitOn .outside
      match s.peerKey t (d - 16) with
      | some k =>
        modify fun s => s.addFlag ⟨false, k, f⟩ v.toNat clk (t.setter 8) none
        modHead key .cp fun y => { y with started := true }
      | none => pure ()

/-! ## The CP words -/

/-- The flag an entry signals on completion. -/
def doneFlag : Instr → Option (BitVec 8)
  | .cpl _ _ _ f => some f
  | .cpt _ _ _ f => some f
  | .cpg _ _ _ f => some f
  | .cps _ _ _ f => some f
  | .cpstg _ _ _ _ f => some f
  | .cpred _ _ _ _ f => some f
  | .cpfill _ _ _ _ f => some f
  | .cptag _ _ _ _ f => some f
  | .cpsig _ _ f => some f
  | .cpconv _ _ _ f => some f
  | _ => none

/-- The work of a CP entry before its completion. -/
def cpBody (key : Nat) (q : QEntry) : M Unit :=
  match q.word with
  | .cpl _ _ _ _ => cplEntry key q
  | .cpt _ _ _ _ => cptEntry key q
  | .cpg _ _ _ _ => cpgEntry key q
  | .cps _ _ _ _ => cpsEntry key q
  | .cpstg _ _ _ out _ => cpstgEntry key q out
  | .cpred _ _ _ ty _ => cpredEntry key q ty
  | .cpfill _ _ _ z _ => cpfillEntry key q z
  | .cptag _ _ _ strm _ => cptagEntry key q strm
  | .cpconv _ _ _ _ => cpconvEntry key q
  | .cpsig _ _ _ => cpsigEntry key q
  | _ => pure ()

/-- The effect of a CP entry: its work, then its completion flag (R214, R166). -/
def cpEffect (key : Nat) (q : QEntry) : M Unit := do
  match q.word with
  | .cpwait f n => tokenWait key .cp q f n
  | .cpset f n => tokenSet key .cp q f n.toNat 6
  | w =>
    cpBegin key q
    cpBody key q
    match doneFlag w with
    | some f => if f ≠ 0#8 then (fun s => match tokenSet key .cp q f 1 7 s with
        | .error (.stall k) => .error (.wait k s)
        | r => r)
    | none => pure ()

/-- A CP word is pushed, and its destination recorded (R157, R214). -/
def cpWord (w : Instr) (ops : List (BitVec 5)) (flag : Option (BitVec 8)) (s : State) : Out :=
  engineWord .cp cpEffect (fun key => do
    pushScored key .cp w ops flag fun s c l => scorePush w s c key l) s

/-- CPL (R215). -/
def execCpl (xa xb xc : BitVec 5) (f : BitVec 8) (s : State) : Out := cpWord (.cpl xa xb xc f) [xa, xb, xc] (some f) s

/-- CPT (R216). -/
def execCpt (xa xb xc : BitVec 5) (f : BitVec 8) (s : State) : Out := cpWord (.cpt xa xb xc f) [xa, xb, xc] (some f) s

/-- CPG (R217). -/
def execCpg (xa xb xc : BitVec 5) (f : BitVec 8) (s : State) : Out := cpWord (.cpg xa xb xc f) [xa, xb, xc] (some f) s

/-- CPS (R217). -/
def execCps (xa xb xc : BitVec 5) (f : BitVec 8) (s : State) : Out := cpWord (.cps xa xb xc f) [xa, xb, xc] (some f) s

/-- CPSTG (R218). -/
def execCpstg (xa xb xc : BitVec 5) (out : Bool) (f : BitVec 8) (s : State) : Out :=
  cpWord (.cpstg xa xb xc out f) [xa, xb, xc] (some f) s

/-- CPRED (R219). -/
def execCpred (xa xb xc : BitVec 5) (ty : RedTy) (f : BitVec 8) (s : State) : Out :=
  cpWord (.cpred xa xb xc ty f) [xa, xb, xc] (some f) s

/-- CPFILL (R220). -/
def execCpfill (xa xb xc : BitVec 5) (z : Size) (f : BitVec 8) (s : State) : Out :=
  cpWord (.cpfill xa xb xc z f) [xa, xb, xc] (some f) s

/-- CPTAG (R221). -/
def execCptag (xa xb xc : BitVec 5) (strm : Bool) (f : BitVec 8) (s : State) : Out :=
  cpWord (.cptag xa xb xc strm f) [xa, xb, xc] (some f) s

/-- CPCONV (R222). -/
def execCpconv (xa xb xc : BitVec 5) (f : BitVec 8) (s : State) : Out := cpWord (.cpconv xa xb xc f) [xa, xb, xc] (some f) s

/-- CPSIG (R223). -/
def execCpsig (xa xb : BitVec 5) (f : BitVec 8) (s : State) : Out := cpWord (.cpsig xa xb f) [xa, xb] (some f) s

/-- CPWAIT (R39, R224). -/
def execCpwait (f : BitVec 8) (n : BitVec 9) (s : State) : Out := cpWord (.cpwait f n) [] (some f) s

/-- CPSET (R39, R224). -/
def execCpset (f : BitVec 8) (n : BitVec 9) (s : State) : Out := cpWord (.cpset f n) [] (some f) s

end Sys2Proof.Machine
end

