-- ==== Sys2Proof/Machine/Mash.lean ====
section
/-! DEFINITION. Mash: tile tasks from submission to completion, passes, and the Granary bulletin (R256, R263 to R302). -/

namespace Sys2Proof.Machine

/-! ## Shape classes (R268 to R270) -/

/-- The fields of a shape class (R268). -/
structure Shape where
  valid : Bool
  k : Nat
  n : Nat
  wclass : Nat
  maxRows : Nat
  fill : Nat
  pitch : Nat
  deriving DecidableEq, Repr, Inhabited

/-- The fields of the two words of a class (R268). -/
def shapeFields (w0 w1 : W64) : Shape :=
  { valid := wfld w0 63 1 = 1, k := wfld w0 0 14, n := wfld w0 16 8, wclass := wfld w0 24 2, maxRows := wfld w0 32 10
    fill := wfld w0 48 10, pitch := wfld w1 0 12 }

/-- A shape class of the package. -/
def State.shape (s : State) (c : Nat) : Shape := shapeFields (s.shapes.get c).1 (s.shapes.get c).2

/-- The bits of an element of a width class (R269). -/
def widthOf : Nat → Nat
  | 0 => 16
  | 1 => 8
  | 2 => 8
  | _ => 4

/-- ROWBYTES (R269). -/
def Shape.rowBytes (h : Shape) : Nat := (h.k * widthOf h.wclass + 511) / 512 * 64

/-- KSTEPS (R269). -/
def Shape.kSteps (h : Shape) : Nat := (h.rowBytes + 255) / 256

/-- BLAST (R269). -/
def Shape.bLast (h : Shape) : Nat := (h.rowBytes - 256 * (h.kSteps - 1) + 63) / 64

/-- The fields of a class lie in their ranges while VALID is set (R268, R269). -/
def Shape.ok (h : Shape) : Bool :=
  !h.valid ||
    (h.k % 16 = 0 && 16 ≤ h.k && h.n % 16 = 0 && 16 ≤ h.n && h.n ≤ 128 && 1 ≤ h.maxRows && h.maxRows ≤ 512 &&
      1 ≤ h.fill && h.fill ≤ h.maxRows && 1 ≤ h.pitch)

/-- The device refuses a class (R269). -/
def Shape.refused (h : Shape) : Bool := decide (16 < h.kSteps) || decide (64 * h.pitch < h.rowBytes) || !h.ok

/-- A task that has not ended names a class (R270). -/
def State.shapeUsed (s : State) (c : Nat) : Bool := s.tasks.any fun p => p.2.shape = c && p.2.st ≠ .finishing && p.2.st ≠ .held

/-! ## Submission (R256, R264 to R267, R271 to R273) -/

/-- A pass-safe program with a hash in an image that a context holds: the model slot and the first word (R266, R288). -/
def State.passProgram (s : State) (cid : Nat) (h : W64) : Option (Nat × Nat) :=
  let c := s.ctx cid
  s.images.findSome? fun p =>
    if p.2.resident && c.granted p.1 then (p.2.psafe.find? fun e => e.2.2.2 = h).map fun e => (p.1, e.1) else none

/-- The lowest offset of the fields that fail one step of R266. -/
def lowestOff (l : List (Nat × Bool)) : Option Nat := (l.find? (·.2)).map (·.1)

/-- The checks of a tile-task descriptor but those of its own address (R266): the cause and the offset of the first
failure. -/
def State.descFail (s : State) (cid : Nat) (gsel host : Bool) (l : List Byte) : Option (Nat × Nat) :=
  let f := bfld l 36 4
  let h := s.shape (bfld l 28 2)
  let rows := bfld l 30 2
  let valid := bfld l 28 2 < 64 && h.valid
  match lowestOff [(40, bfld l 40 8 % 64 ≠ 0), (48, bfld l 48 8 % 64 ≠ 0), (56, bfld l 56 4 % 64 ≠ 0)] with
  | some o => some (3, o)
  | none =>
    match lowestOff [(28, !valid), (30, rows = 0 || 256 < rows || (valid && h.maxRows < rows)),
        (36, 256 ≤ f || (192 ≤ f && (host || !gsel))), (60, bfld l 60 4 ≠ 0)] with
    | some o => some (1, o)
    | none =>
      match lowestOff [(0, (s.passProgram cid (BitVec.ofNat 64 (bfld l 0 8))).isNone),
          (8, (s.heldTensor cid (BitVec.ofNat 128 (bfld l 8 16))).isNone), (40, 4503599627370496 ≤ bfld l 40 8),
          (48, 4503599627370496 ≤ bfld l 48 8)] with
      | some o => some (5, o)
      | none =>
        let t := (s.heldTensor cid (BitVec.ofNat 128 (bfld l 8 16))).getD default
        match lowestOff [(24, t.kt < bfld l 24 2 + h.kSteps), (26, t.nt ≤ bfld l 26 2),
            (28, t.wclass ≠ h.wclass || t.k ≠ h.k || t.n ≠ h.n)] with
        | some o => some (1, o)
        | none => none

/-- The coalescing domain of a context in match keys; a context without one has a domain of its own (R272). -/
def Ctx.domain (c : Ctx) (cid : Nat) : Nat :=
  let d := wfld (c.word 16) 32 16
  if d = 0 then 65536 + cid else d

/-- The match key of a task (R271). -/
def State.matchKey (s : State) (t : TileTask) : List Nat :=
  [t.codehash.toNat, t.wid.toNat, t.ktile, t.ntile, t.shape, (s.ctx t.cid).domain t.cid]

/-- The task of a descriptor (R264, R273): accepted at this tick. -/
def taskOf (s : State) (cid : Nat) (l : List Byte) : TileTask :=
  let pat := bfld l 32 4
  { (default : TileTask) with
    cid := cid, codehash := BitVec.ofNat 64 (bfld l 0 8), wid := BitVec.ofNat 128 (bfld l 8 16), ktile := bfld l 24 2
    ntile := bfld l 26 2, shape := bfld l 28 2, rows := bfld l 30 2, patience := pat, src := bfld l 40 8, dst := bfld l 48 8
    dstride := bfld l 56 4, sub := s.tick, exp := s.tick + pat, order := s.taskNext, st := .pending }

/-- The partition of a task (R271): a fixed hash of its match key that programs do not see. -/
def State.partitionOf (s : State) (t : TileTask) : Nat := Config.partition (s.matchKey t) % 8

/-- A partition has no free pending entry (R271, R273). -/
def State.partFull (s : State) (p : Nat) : Bool :=
  2048 ≤ (s.tasks.filter fun e => e.2.part = p && e.2.st ≠ .finishing && e.2.st ≠ .held).length

/-- Stacking order (R274). -/
def TileTask.before (a b : TileTask) : Bool :=
  if a.sub ≠ b.sub then a.sub < b.sub else if a.cid ≠ b.cid then a.cid < b.cid else a.order < b.order

/-- Inserts a task in stacking order. -/
def insertTask (x : Nat × TileTask) : List (Nat × TileTask) → List (Nat × TileTask)
  | [] => [x]
  | y :: r => if x.2.before y.2 then x :: y :: r else y :: insertTask x r

/-- The pending tasks of a partition, in stacking order (R274). -/
def State.pendingIn (s : State) (p : Nat) : List (Nat × TileTask) :=
  (s.tasks.filter fun e => e.2.part = p && e.2.st = .pending).foldl (fun l e => insertTask e l) []

/-- The longest prefix whose rows fit in a pass (R274). -/
def takeRows : Nat → List (Nat × TileTask) → List (Nat × TileTask)
  | _, [] => []
  | room, x :: r => if x.2.rows ≤ room then x :: takeRows (room - x.2.rows) r else []

/-- Launch (R274) for a group in stacking order: passes are formed while its rule says so. -/
def launchGroup : Nat → List (Nat × TileTask) → State → State
  | 0, _, s => s
  | _, [], s => s
  | fuel + 1, g, s =>
    let t := ((g.head?).map (·.2)).getD default
    let h := s.shape t.shape
    let expired := g.any fun e => e.2.exp ≤ s.tick
    let rows := g.foldl (fun n e => n + e.2.rows) 0
    if !expired && rows < h.fill then s
    else
      let take := takeRows h.maxRows g
      if take.isEmpty then s
      else
        let prog := (s.passProgram t.cid t.codehash).getD (0, 0)
        let pass : PassRec :=
          { events := [], tasks := take.map (·.1), part := t.part, matched := s.tick, core := none, began := 0, wid := t.wid, code := t.codehash
            codeSlot := prog.1 }
        launchGroup fuel (g.drop take.length)
          { s with
            tasks := take.foldl (fun m e => m.put e.1 { e.2 with st := .matched }) s.tasks
            passes := s.passes.put s.passNext pass
            passNext := s.passNext + 1 }

/-- Launch for every group of a partition (R274). -/
def launchAll : Nat → List (Nat × TileTask) → State → State
  | 0, _, s => s
  | _, [], s => s
  | fuel + 1, x :: r, s =>
    let same := fun (e : Nat × TileTask) => decide (s.matchKey e.2 = s.matchKey x.2)
    let g := x :: r.filter same
    launchAll fuel (r.filter fun e => !same e) (launchGroup g.length g s)

/-- Launch over the pending tasks of a partition (R274). -/
def State.launch (s : State) (p : Nat) : State :=
  let l := s.pendingIn p
  launchAll l.length l s

/-- Launch as it has been applied at every tick before this one: what expired earlier has been matched without what arrives now (R274). -/
def State.launchBefore (s : State) : State :=
  if s.tick = 0 then s
  else { (countFrom 0 8).foldl (fun s p => s.launch p) { s with tick := s.tick - 1 } with tick := s.tick }

/-- Mash accepts a task (R273), notes the tensor it names (R301), and applies Launch. -/
def State.acceptTask (s : State) (t : TileTask) : State :=
  let s := s.launchBefore
  ({ s with
    tasks := s.tasks.put s.taskNext t
    taskNext := s.taskNext + 1
    tensors := s.tensors.map fun x => if x.wid = t.wid then { x with named := s.taskNext + 1 } else x } : State).launch t.part

/-- TSUB (R256, R266): what came before is released, the descriptor is read and checked, and Mash accepts the task. -/
def execTsub (xa : BitVec 5) (s : State) : Out :=
  sqWord (fun key => do
    let t ← getThr key
    let a := t.rx xa
    settleSQ key [a]
    if a.val.toNat % 64 ≠ 0 then raise (mkTrap 3 a.val.toNat 0)
    releaseAll key .other
    let s ← get
    let l ← readSpans (sqReq s key) [(a.val.toNat, 64)]
    match s.descFail t.cid t.live.gsel.isSome false l with
    | some (c, o) => raise (mkTrap c a.val.toNat o)
    | none => pure ()
    let x := taskOf s t.cid l
    let p := s.partitionOf x
    if s.partFull p then stall .outside
    publish key t.curVer.id
    let s ← get
    let t := s.thr key
    let f := bfld l 36 4
    set (s.acceptTask
      { x with
        key := some key, origin := some key, desc := a.val, ver := some t.curVer.id, part := p, clk := t.clkAll key ownPaths
        flag := if f = 0 then none else flagRef key t.cid t.live.gsel (BitVec.ofNat 8 f) })
    advance key) s

/-- PATIENCE_EXPIRY (R274): Launch is applied to the groups of a partition. -/
def execPatienceExpiry (p : Nat) (s : State) : Out := .next (s.launch p)

/-! ## Running a pass (R275, R279 to R282) -/

/-- The earliest expiry of the tasks of a pass. -/
def State.passExp (s : State) (p : PassRec) : Nat :=
  let l := p.tasks.map fun t => (s.tasks.get t).exp
  l.foldl Nat.min (l.headD 0)

/-- Lexicographic order of number lists. -/
def lexLt : List Nat → List Nat → Bool
  | [], _ => false
  | _, [] => false
  | x :: a, y :: b => if x < y then true else if y < x then false else lexLt a b

/-- The place of a pass in the order of service (R275). -/
def State.serviceKey (s : State) (p : PassRec) : List Nat :=
  let t := s.tasks.get ((p.tasks.head?).getD 0)
  let e := s.passExp p
  (if e ≤ s.tick then [0, e] else [1, 0]) ++ [p.matched, t.sub, t.cid, t.order]

/-- A pass slot is eligible for a pass (R275, R336, R397). -/
def State.eligible (s : State) (p : PassRec) (core : Nat) : Bool :=
  decide (core / 104 = s.groupDie p.part) && !s.stopped && !s.passRuns core && decide (s.heldSlots core .ab true = 0) && s.imageFits core p.codeSlot &&
    !(s.cores.get core).retired && (s.images.get p.codeSlot).resident

/-- The overlay of a core holds the image of a pass. -/
def State.holdsImage (s : State) (p : PassRec) (core : Nat) : Bool := (s.cores.get core).overlay.contains p.codeSlot

/-- The eligible pass slots of a pass. -/
def State.eligibleCores (s : State) (p : PassRec) : List Nat := (countFrom (104 * s.groupDie p.part) 104).filter (s.eligible p)

/-- A pass may begin on a core now: the slot is eligible, a slot that holds the image is preferred, and no pass that is
served before it has an eligible slot (R275). -/
def State.mayBegin (s : State) (n core : Nat) : Bool :=
  let p := s.passes.get n
  s.passes.has n && p.core.isNone && s.eligible p core && (s.holdsImage p core || !(s.eligibleCores p).any (s.holdsImage p)) &&
    !s.passes.any fun q => q.2.core.isNone && q.1 ≠ n && s.groupDie q.2.part = s.groupDie p.part && lexLt (s.serviceKey q.2) (s.serviceKey p) &&
      !(s.eligibleCores q.2).isEmpty

/-- The pass slot that a pass takes: an eligible one that holds its image, else the first (R275). -/
def State.passSlot (s : State) (p : PassRec) : Option Nat :=
  ((s.eligibleCores p).find? (s.holdsImage p)).orElse fun _ => (s.eligibleCores p).head?

/-- The bytes of a source row and of a destination row of a task (R264). -/
def TileTask.srcRow (t : TileTask) (h : Shape) (r : Nat) : Nat := (t.src + r * (64 * h.pitch)) % two64

/-- The address of a destination row (R264). -/
def TileTask.dstRow (t : TileTask) (r : Nat) : Nat := (t.dst + r * t.dstride) % two64

/-- What step 2 of R282 finds for every page that a task's rows touch, with whether it is written. -/
def State.taskCuts (s : State) (die : Nat) (t : TileTask) : List (Except Trap Piece × Bool) :=
  let h := s.shape t.shape
  (countFrom 0 t.rows).flatMap fun r =>
    ((rowCuts s die t.cid false (t.srcRow h r) h.rowBytes).map fun c => (c, false)) ++
      (rowCuts s die t.cid true (t.dstRow r) 512).map fun c => (c, true)

/-- The failures of the translation of a task's rows (R282 step 2), each with whether it concerns a write. -/
def State.taskFails (s : State) (die : Nat) (t : TileTask) : List (Trap × Bool) :=
  (s.taskCuts die t).filterMap fun c => match c.1 with | .error e => some (e, c.2) | .ok _ => none

/-- The pages that are not present, one request each. -/
def absentPages : List (Trap × Bool) → List (Nat × Bool) → List (Nat × Bool)
  | [], done => done
  | (e, w) :: r, done =>
    if e.cause = 4#8 && !done.any (fun d => d.1 / 65536 = e.addr.toNat / 65536) then absentPages r (done ++ [(e.addr.toNat, w)])
    else absentPages r done

/-- Step 2 of R282 for one task: it is left out, DEFERRED or POISONED, or stays, and the die holds the translations of its rows (R351).
DEDUCED: assumption log entry 26. -/
def State.judge (s : State) (die tid : Nat) : State :=
  let t := s.tasks.get tid
  if t.gone then { s with tasks := s.tasks.erase tid }
  else
    let fails := s.taskFails die t
    if fails.isEmpty then s.holdTrans (some (rowCache die)) t.cid (oksOf ((s.taskCuts die t).map (·.1)))
    else if fails.any fun e => e.1.cause ≠ 4#8 then
      ({ s with tasks := s.tasks.put tid { t.poisonAll 5 false with pass := none } } : State).finishTask tid
    else s.deferTask tid (absentPages fails [])

/-- The address of a byte of a tensor. -/
def Tensor.at_ (t : Tensor) (off : Nat) : Nat := t.place (t.va % 16384 + off)

/-- The tags of the blocks from an address on. -/
def tagsAt (s : State) (a n : Nat) : List W32 := (countFrom 0 n).map fun j => s.hbm.tag (a + 64 * j)

/-- A WB slot that holds a weight tile (R282 step 3, R297). -/
def tileSlot (s : State) (t : Tensor) (kt nt : Nat) : Slot :=
  (countFrom 0 128).foldl (fun sl c =>
    let a := t.at_ ((nt * t.kt + kt) * 32768 + 256 * c)
    sl.putRow c (s.hbm.bytes a 256) (tagsAt s a 4)) default

/-- The bytes and tags of an AB row for k-tile k, padded (R281). -/
def padRow (h : Shape) (k : Nat) (data : List Byte) (tags : List W32) : List Byte × List W32 :=
  let keep := h.k * widthOf h.wclass - 2048 * k
  let last := (tags.getLast?).getD 0#32
  let pad := BitVec.ofNat 32 (fld last.toNat 0 8 + 32512)
  (natLE 256 (leNat data % 2 ^ keep), fitTo 4 pad tags)

/-- Reads an activation row of a task for k-tile k on its PASS path (R281, R282): its bytes and tags, or the fault of
the row. -/
def State.readRow (s : State) (die tid r k : Nat) : State × List Byte × List W32 :=
  let t := s.tasks.get tid
  let h := s.shape t.shape
  let nb := if k + 1 = h.kSteps then 64 * h.bLast else 256
  let none_ := (List.replicate 256 0#8, List.replicate 4 0#32)
  match rowPieces s die t.cid false ((t.srcRow h r + 256 * k) % two64) nb with
  | .error _ => (s.poisonRow tid r 5, none_)
  | .ok ps =>
    if (lowest (ps.filterMap (raceFail s (rowReq t tid) false (t.clock s tid)))).isSome then (s.poisonRow tid r 6, none_)
    else
      let data := ps.flatMap fun p => s.hbm.bytes p.addr p.len
      let tags := ps.flatMap fun p => tagsAt s p.addr (p.len / 64)
      (noteRow s t tid false ps, padRow h k data tags)

/-- The rows of a pass in stacking order: task index, task, row of the task (R280, R281). -/
def State.passLayout (s : State) (p : PassRec) : List (Nat × Nat × Nat) :=
  (p.tasks.zip (countFrom 0 p.tasks.length)).flatMap fun e => (countFrom 0 (s.tasks.get e.1).rows).map fun r => (e.2, e.1, r)

/-- The MLDA of k-tile k: every row enters the AB with its owner tag (R281, R282). -/
def State.loadRows (s : State) (key k : Nat) (rows : List (Nat × Nat × Nat)) : State :=
  (rows.zip (countFrom 0 rows.length)).foldl (fun s e =>
    let (s, d, g) := s.readRow (slotDie key) e.1.2.1 e.1.2.2 k
    s.updThr key fun t =>
      let sl := t.ab.get (e.2 / 256)
      let fill := rows.length - 256 * (e.2 / 256)
      let sl := { (sl.putRow (e.2 % 256) d g) with owner := sl.owner.set (e.2 % 256) (ownerTag e.1.1 e.1.2.2), fill := fill }
      { t with ab := t.ab.put (e.2 / 256) sl }) s

/-- The entries of k-tile k (R282 step 3). -/
def State.passStep (s : State) (key : Nat) (x : Tensor) (kt nt : Nat) (rows : List (Nat × Nat × Nat)) (k : Nat) : State :=
  let s := s.updThr key fun t => { t with wb := t.wb.put (k % 2) (tileSlot s x (kt + k) nt) }
  let s := (s.loadRows key k rows).countFor key 3 (rows.length + 256)
  let r := passRows key (k % 2) 0 0 (decide (0 < k)) rows.length s
  let s := r.1.updThr key fun t =>
    { t with cb := (countFrom 0 2).foldl (fun m h => m.put h { m.get h with fill := rows.length - 256 * h }) t.cb }
  r.2.foldl (fun s e => s.poisonOwner key e.2.1 e.2.2) s

/-- The bind registers of a pass (R279). -/
def passBinds (b0 : W64) (x : Tensor) (t : TileTask) (h : Shape) (n : Nat) : NMap W64 :=
  let put := fun (m : NMap W64) (p : Nat × W64) => m.set p.1 p.2
  [(0, b0), (1, if x.side = 0 then 0#64 else b0 + BitVec.ofNat 64 (x.kt * x.nt * 32768)), (2, BitVec.ofNat 64 t.ktile),
   (3, BitVec.ofNat 64 t.ntile), (4, BitVec.ofNat 64 h.k), (5, BitVec.ofNat 64 h.n), (6, BitVec.ofNat 64 n),
   (7, BitVec.ofNat 64 t.shape)].foldl put []

/-- The frame of a pass as it begins (R279): a new thread's, at the epilogue program. -/
def passFrame (slot epi : Nat) (binds : NMap W64) : Frame :=
  { (default : Frame) with b := binds, phase := .epilogue, pc := epi, task := { (default : Rec) with slot := slot, epiPc := epi } }

/-- The record of a pass slot that runs a pass (R279). -/
def passThread (core : Nat) (f : Frame) : Thread :=
  { (default : Thread) with
    alive := true, cid := 4096, num := 65535, run := .resident, core := core, slot := 4, live := f, committed := f
    wb := [(0, default), (1, default)], ab := [(0, default), (1, default)], cb := [(0, default), (1, default)] }

/-- Steps 1 to 3 of a pass (R282). -/
def State.passBegin (s : State) (n core : Nat) : State :=
  let p := s.passes.get n
  let t0 := s.tasks.get ((p.tasks.head?).getD 0)
  let key := passBase + core
  let tasks := p.tasks.foldl (fun m x => m.put x { m.get x with st := .launched, pass := some n }) s.tasks
  let s := ({ s with tasks := tasks, passes := s.passes.put n { p with core := some core, began := s.tick } }).loadOverlay core p.codeSlot
  let s := p.tasks.foldl (fun s x => s.judge (core / 104) x) s
  let keep := p.tasks.filter fun x => (s.tasks.get x).pass = some n
  let s := { s with tasks := s.tasks.filter fun e => !(e.2.gone && p.tasks.contains e.1) }
  let p := { p with core := some core, began := s.tick, tasks := keep }
  let s := { s with passes := s.passes.put n p }
  let x := (s.tensors.find? fun t => t.wid = p.wid).getD default
  let h := s.shape t0.shape
  let rows := s.passLayout p
  let b0 := BitVec.ofNat 64 ((Config.freeWord s.fresh).toNat % 2 ^ 32 * 32768)
  let epi := (((s.images.get p.codeSlot).psafe.find? fun e => e.2.2.2 = p.code).map (·.1)).getD 0
  let s := { s with fresh := s.fresh + 1 }.setThr key (passThread core (passFrame p.codeSlot epi (passBinds b0 x t0 h rows.length)))
  if rows.isEmpty then s.endPass n
  else (countFrom 0 h.kSteps).foldl (fun s k => s.passStep key x t0.ktile t0.ntile rows k) s

/-- PASS_BEGIN (R282): a matched pass takes an eligible pass slot. -/
def execPassBegin (p : Nat) (core : Nat) (s : State) : Out :=
  let s := s.launchBefore
  .next (if s.mayBegin p core then s.passBegin p core else s)

/-- PASS_END (R286): once the TEND of the pass has completed. -/
def execPassEnd (core : Nat) (s : State) : Out :=
  let key := passBase + core
  .next (match s.passOf key with
    | some (n, _) => if (s.thr key).live.bnd.isSome && (s.thr key).idleQueues then s.endPass n else s
    | none => s)

/-- PASS_ABANDON (R287): 65,536 ticks after the pass began. -/
def execPassAbandon (core : Nat) (s : State) : Out :=
  .next (match s.passOf (passBase + core) with
    | some (n, p) => if p.began + 65536 ≤ s.tick then s.passFault n 10 true else s
    | none => s)

/-! ## Pages and tensors of tasks that wait (R273, R299) -/

/-- The pager's answer for the pages that deferred tasks await (R273, R388). -/
def State.pagesDone (s : State) (cid va len : Nat) (fail : Bool) : State :=
  let s := s.launchBefore
  let hit := fun a => decide (va ≤ a) && decide (a < va + Nat.max len 1)
  let s := (s.tasks.filter fun e => e.2.cid = cid && e.2.st = .deferred && e.2.pages.any hit).foldl (fun s e =>
    if fail then ({ s with tasks := s.tasks.put e.1 (e.2.poisonAll 5 false) } : State).finishTask e.1
    else
      let left := e.2.pages.filter fun a => !hit a
      { s with tasks := s.tasks.put e.1 (if left.isEmpty then
          { e.2 with pages := [], st := .pending, sub := s.tick, exp := s.tick } else { e.2 with pages := left }) }) s
  (countFrom 0 8).foldl (fun s p => s.launch p) s

/-- Tasks whose tensor has been released, or whose program has left with its image, and which have not been launched are
poisoned (R299; DEDUCED, assumption log entry 21). -/
def State.poisonOrphans (s : State) : State :=
  let hit := s.tasks.filter fun e =>
    ((s.heldTensor e.2.cid e.2.wid).isNone || (s.passProgram e.2.cid e.2.codehash).isNone) && (match e.2.st with
    | .pending => true | .matched => true | .deferred => true | _ => false)
  let ids := hit.map (·.1)
  let s := { s with passes := (s.passes.map fun p =>
      if p.2.core.isSome then p else (p.1, { p.2 with tasks := p.2.tasks.filter fun x => !ids.contains x })).filter fun p =>
        p.2.core.isSome || !p.2.tasks.isEmpty }
  hit.foldl (fun s e =>
    if s.tasks.has e.1 then ({ s with tasks := s.tasks.put e.1 (e.2.poisonAll 5 false) } : State).finishTask e.1 else s) s

/-! ## The bulletin (R300 to R302) -/

/-- BULLETIN_REFRESH (R302): every 1,250,000 ticks. -/
def execBulletinRefresh (s : State) : Out :=
  .next (if s.bulletin.at_ + 1250000 ≤ s.tick then s.refreshBulletin else s)

/-- The summary bits of the identities held (R301). -/
def Bulletin.summary (b : Bulletin) : Nat :=
  b.held.foldl (fun v e =>
    let i := e.1.toNat
    v ||| 2 ^ fld i 0 14 ||| 2 ^ fld i 14 14 ||| 2 ^ fld i 28 14) 0

/-- The 4,096 bytes of the bulletin (R300). -/
def Bulletin.bytes (b : Bulletin) : List Byte :=
  let listed := b.held.take 240
  natLE 4 0x4E4C4C42 ++ natLE 4 b.seq ++ natLE 8 b.at_ ++ natLE 4 b.held.length ++ natLE 2 listed.length ++ natLE 2 1 ++ natLE 8 0 ++
    ((countFrom 0 64).map fun c => BitVec.ofNat 8 (Nat.min (b.pending.get c) 255)) ++
    fitTo 1920 0#8 (listed.flatMap fun e => natLE 8 (e.1.toNat % 2 ^ 48 + Nat.min e.2 65535 * 2 ^ 48)) ++
    natLE 32 0 ++ natLE 2048 b.summary

end Sys2Proof.Machine
end

