-- ==== Sys2Proof/Machine/Sparge.lean ====
section
/-! DEFINITION. Sparge programs: the operations, the interpreters, the verifier and the program table (R312 to R321,
R324, R441). -/

namespace Sys2Proof.Machine

/-- The key of a ring of a function. -/
def ringKey (fn ring : Nat) : Nat := fn * 131072 + ring

/-- The key of a logical queue of a function. -/
def lqKey (fn lq : Nat) : Nat := fn * 8192 + lq

/-- The key of a program of a function. -/
def progKey (fn prog : Nat) : Nat := fn * 256 + prog

/-- A ring of a function. -/
def State.ring (s : State) (fn ring : Nat) : Ring := s.rings.get (ringKey fn ring)

/-- A logical queue of a function. -/
def State.lq (s : State) (fn lq : Nat) : LQueue := s.lqs.get (lqKey fn lq)

/-- A program of a function. -/
def State.prog (s : State) (fn prog : Nat) : SpProg := s.progs.get (progKey fn prog)

/-- The interpreter that runs. -/
def State.interp (s : State) : Interp := s.interps.get s.curI

/-! ## The end of a packet (R308, R316) -/

/-- The interpreter is freed: HEAD advances and its shadow is written (R308, R316). -/
def State.freeInterp (s : State) (it : Nat) : State :=
  let x := s.interps.get it
  let r := s.ring x.fn x.pkt.ring
  let head := r.head + BitVec.ofNat 32 x.pkt.slots
  let q := s.lq x.fn x.lq
  { s with
    interps := s.interps.put it default
    rings := s.rings.put (ringKey x.fn x.pkt.ring) { r with head := head, inl := r.inl.filter fun e => e.1 ≠ r.head.toNat }
    lqs := s.lqs.put (lqKey x.fn x.lq) { q with ended := q.ended + 1 }
    host := s.host.writeLE r.shadow.toNat 8 head.toNat }

/-- A packet is rejected: nothing of it takes effect, and an event is posted (R316, R320). -/
def State.rejectPkt (s : State) (it reason op code : Nat) : State :=
  let x := s.interps.get it
  (postEvent x.fn 1 reason x.pkt.tag x.pkt.ring (s.lq x.fn x.lq).cid op code 0 s).freeInterp it

/-- The address of byte i of a table (R319). -/
def SpTable.byteAt (t : SpTable) (i : Nat) : Nat := (t.places[(t.off + i) / 16384]?).getD 0 + (t.off + i) % 16384

/-- An entry of a table (R441). -/
def SpTable.read (t : SpTable) (s : State) (i : Nat) : W64 :=
  BitVec.ofNat 64 (leNat ((countFrom (8 * i) 8).map fun j => s.hbm.byte (t.byteAt j)))

/-- An entry of a table written, as a committed write (R316, R441). -/
def SpTable.write (t : SpTable) (s : State) (i : Nat) (v : W64) : State :=
  ((countFrom 0 8).zip (natLE 8 v.toNat)).foldl (fun s e => s.writeCommitted .hbm (t.byteAt (8 * i + e.1)) [e.2]) s

/-- The packet is accepted: its table writes are performed and its emissions released, in order (R316). -/
def State.acceptPkt (s : State) (it : Nat) : State :=
  let x := s.interps.get it
  let q := s.lq x.fn x.lq
  let tables := (s.prog x.fn q.program).tables
  let s := x.writes.foldl (fun s w => ((tables[w.1]?).getD default).write s w.2.1 w.2.2) s
  ({ s with lqs := s.lqs.put (lqKey x.fn x.lq) { q with released := q.released ++ x.emits } } : State).freeInterp it

/-! ## The operations (R317) -/

/-- Why an operation ends its packet: DONE, or a rejection with its reason and code. -/
inductive SpEnd where
  | done
  | reject (reason code : Nat)

/-- A register: s0 reads zero. -/
def Interp.rs (x : Interp) (i : BitVec 4) : W64 := if i = 0#4 then 0#64 else x.regs.get i.toNat

/-- A register written; writes to s0 are discarded. -/
def Interp.ws (x : Interp) (i : BitVec 4) (v : W64) : Interp :=
  if i = 0#4 then x else { x with regs := x.regs.put i.toNat v }

/-- Control reaches an operation: the ends of LOOP bodies are left or repeated (R317). -/
def leaveLoops : List SpLoop → Nat → List SpLoop × Nat
  | [], i => ([], i)
  | l :: r, i =>
    if i = l.last + 1 then
      if 1 < l.left then ({ l with left := l.left - 1 } :: r, l.first) else leaveLoops r i
    else (l :: r, i)

/-- Control passes to an operation. -/
def Interp.goTo (x : Interp) (i : Nat) : Interp :=
  let r := leaveLoops x.loops i
  { x with loops := r.1, idx := r.2 }

/-- Runs one operation of the current interpreter (R317, R320): the 513th of a packet is not executed. -/
def spOp (body : State → Interp → Except SpEnd Interp) (s : State) : Out :=
  let it := s.curI
  let x := s.interps.get it
  if !x.busy then .next s
  else if 512 ≤ x.count then .next (s.rejectPkt it 2 x.idx 22)
  else
    match body s { x with count := x.count + 1 } with
    | .ok y => .next { s with interps := s.interps.put it y }
    | .error .done => .next (s.acceptPkt it)
    | .error (.reject reason code) => .next (s.rejectPkt it reason x.idx code)

/-- An operation that writes a register and goes on at the next. -/
def spReg (d : BitVec 4) (v : State → Interp → W64) (s : State) : Out :=
  spOp (fun s x => .ok ((x.ws d (v s x)).goTo (x.idx + 1))) s

/-- The byte address of PLD and EST, checked (R320). -/
def spAddr (x : Interp) (z : Size) (off : BitVec 14) (a : BitVec 4) : Except SpEnd Nat :=
  let n := sizeBytes z
  let ad := (x.rs a + off.zeroExtend 64).toNat
  if ad % n ≠ 0 || 256 < ad + n then .error (.reject 3 0) else .ok ad

/-- PLD. DEDUCED: assumption log entry 45. -/
def execPld (z : Size) (off : BitVec 14) (a : BitVec 4) (d : BitVec 4) (s : State) : Out :=
  spOp (fun _ x =>
    match spAddr x z off a with
    | .error e => .error e
    | .ok ad =>
      let l := (x.pkt.bytes.drop ad).take (sizeBytes z)
      .ok ((x.ws d (BitVec.ofNat 64 (leNat l))).goTo (x.idx + 1))) s

/-- The queue items of QLD. -/
def queueItem (s : State) (x : Interp) (n : Nat) : Nat :=
  let q := s.lq x.fn x.lq
  match n with
  | 0 => s.tick
  | 1 => x.pkt.ring
  | 2 => q.cid
  | 3 => x.fn
  | 4 => x.pkt.slots
  | 5 => q.ended
  | _ => 0

/-- QLD. -/
def execQld (n : BitVec 16) (d : BitVec 4) (s : State) : Out :=
  spReg d (fun s x => BitVec.ofNat 64 (queueItem s x n.toNat)) s

/-- A table of the running program. -/
def State.spTable (s : State) (x : Interp) (t : Nat) : SpTable :=
  ((s.prog x.fn (s.lq x.fn x.lq).program).tables[t]?).getD default

/-- TLD: the packet's own staged writes are seen (R441). -/
def execTld (t : BitVec 16) (a : BitVec 4) (d : BitVec 4) (s : State) : Out :=
  spOp (fun s x =>
    let tb := s.spTable x t.toNat
    let i := (x.rs a).toNat
    if tb.count ≤ i then .error (.reject 9 0)
    else
      let v := match x.writes.reverse.find? fun w => w.1 = t.toNat && w.2.1 = i with
        | some w => w.2.2
        | none => tb.read s i
      .ok ((x.ws d v).goTo (x.idx + 1))) s

/-- TST: staged until DONE. -/
def execTst (t : BitVec 16) (a : BitVec 4) (d : BitVec 4) (s : State) : Out :=
  spOp (fun s x =>
    let i := (x.rs a).toNat
    if (s.spTable x t.toNat).count ≤ i then .error (.reject 9 0)
    else .ok (Interp.goTo { x with writes := x.writes ++ [(t.toNat, i, x.rs d)] } (x.idx + 1))) s

/-- EST. -/
def execEst (z : Size) (off : BitVec 14) (a : BitVec 4) (d : BitVec 4) (s : State) : Out :=
  spOp (fun _ x =>
    match spAddr x z off a with
    | .error e => .error e
    | .ok ad =>
      let buf := ((countFrom ad 8).zip (natLE (sizeBytes z) (x.rs d).toNat)).foldl (fun (b : NMap Byte) e => b.put e.1 e.2) x.buf
      .ok (Interp.goTo { x with buf := buf } (x.idx + 1))) s

/-- LI. -/
def execLi (imm : BitVec 16) (d : BitVec 4) (s : State) : Out := spReg d (fun _ _ => sx64 imm) s

/-- LIH. -/
def execLih (imm : BitVec 16) (d : BitVec 4) (s : State) : Out := spReg d (fun _ x => (x.rs d <<< 16) ||| zx64 imm) s

/-- MOV. -/
def execMov (a : BitVec 4) (d : BitVec 4) (s : State) : Out := spReg d (fun _ x => x.rs a) s

/-- ADD of sparge programs. -/
def execSpargeAdd (a : BitVec 4) (d : BitVec 4) (s : State) : Out := spReg d (fun _ x => x.rs d + x.rs a) s

/-- SUB of sparge programs. -/
def execSpargeSub (a : BitVec 4) (d : BitVec 4) (s : State) : Out := spReg d (fun _ x => x.rs d - x.rs a) s

/-- AND of sparge programs. -/
def execSpargeAnd (a : BitVec 4) (d : BitVec 4) (s : State) : Out := spReg d (fun _ x => x.rs d &&& x.rs a) s

/-- OR of sparge programs. -/
def execSpargeOr (a : BitVec 4) (d : BitVec 4) (s : State) : Out := spReg d (fun _ x => x.rs d ||| x.rs a) s

/-- XOR of sparge programs. -/
def execSpargeXor (a : BitVec 4) (d : BitVec 4) (s : State) : Out := spReg d (fun _ x => x.rs d ^^^ x.rs a) s

/-- ADDI of sparge programs. -/
def execSpargeAddi (imm : BitVec 16) (d : BitVec 4) (s : State) : Out := spReg d (fun _ x => x.rs d + sx64 imm) s

/-- SHLI of sparge programs. -/
def execSpargeShli (imm : BitVec 16) (d : BitVec 4) (s : State) : Out := spReg d (fun _ x => x.rs d <<< imm.toNat) s

/-- SHRI of sparge programs. -/
def execSpargeShri (imm : BitVec 16) (d : BitVec 4) (s : State) : Out := spReg d (fun _ x => x.rs d >>> imm.toNat) s

/-- The number of a truth value as a word. -/
def truth (b : Bool) : W64 := if b then 1#64 else 0#64

/-- CEQ. -/
def execCeq (a : BitVec 4) (d : BitVec 4) (s : State) : Out := spReg d (fun _ x => truth (x.rs d = x.rs a)) s

/-- CLTU. -/
def execCltu (a : BitVec 4) (d : BitVec 4) (s : State) : Out := spReg d (fun _ x => truth (decide (x.rs d < x.rs a))) s

/-- CLT. -/
def execClt (a : BitVec 4) (d : BitVec 4) (s : State) : Out := spReg d (fun _ x => truth ((x.rs d).slt (x.rs a))) s

/-- BZ. -/
def execBz (imm : BitVec 16) (d : BitVec 4) (s : State) : Out :=
  spOp (fun _ x => .ok (x.goTo (if x.rs d = 0#64 then x.idx + imm.toNat else x.idx + 1))) s

/-- BNZ. -/
def execBnz (imm : BitVec 16) (d : BitVec 4) (s : State) : Out :=
  spOp (fun _ x => .ok (x.goTo (if x.rs d = 0#64 then x.idx + 1 else x.idx + imm.toNat))) s

/-- JMP. -/
def execJmp (imm : BitVec 16) (s : State) : Out := spOp (fun _ x => .ok (x.goTo (x.idx + imm.toNat))) s

/-- LOOP of sparge programs: the next operations run n times. -/
def execSpargeLoop (len : BitVec 9) (n : BitVec 7) (s : State) : Out :=
  spOp (fun _ x =>
    let l : SpLoop := { first := x.idx + 1, last := x.idx + len.toNat, left := n.toNat }
    .ok (Interp.goTo { x with loops := l :: x.loops } (x.idx + 1))) s

/-! ## Emit operations (R313, R314, R324) -/

/-- The 256 bytes of the emit buffer. -/
def Interp.bufBytes (x : Interp) : List Byte := (countFrom 0 256).map fun i => x.buf.get i

/-- A byte of a range of the emit buffer is not zero. -/
def nonZero (l : List Byte) (lo hi : Nat) : Bool := ((l.drop lo).take (hi - lo)).any (· ≠ 0#8)

/-- An emit operation stages its emission. -/
def Interp.emit (x : Interp) (k : EmitKind) : Interp :=
  let e : Emission := { kind := k, opindex := x.idx, ring := x.pkt.ring, tag := x.pkt.tag }
  Interp.goTo { x with emits := x.emits ++ [e] } (x.idx + 1)

/-- The bind registers of a launch (R313). -/
def bindsOf (l : List Byte) : NMap W64 :=
  (countFrom 0 16).foldl (fun (m : NMap W64) n => m.set n (BitVec.ofNat 64 (bfld l (64 + 8 * n) 8))) []

/-- The checks of a launch (R324): the reason of the first that fails, NOGRANT too for a context that ends (R344). GANGSIZE is judged when the
operation runs. -/
def launchFail (s : State) (cid slot size : Nat) (first : Bool) : Option Nat :=
  let c := s.ctx cid
  if !(s.images.get slot).resident then some 4
  else if (c.stateOf ≠ 1 && c.stateOf ≠ 2) || !c.granted slot then some 5
  else if first && !(size = 0 || (2 ≤ size && size ≤ 8)) then some 8
  else if c.threadLimit < s.liveThreads cid + (if size = 0 then 1 else size) then some 6
  else none

/-- ELAUNCH and EGANG (R313, R324). -/
def emitLaunch (gang : Bool) (s : State) (x : Interp) : Except SpEnd Interp :=
  let l := x.bufBytes
  let slot := bfld l 0 2
  let size := bfld l 2 1
  let late := bfld l 3 1
  if nonZero l 4 8 || nonZero l 16 64 || nonZero l 192 256 || (if gang then 1 < late else nonZero l 3 16) then .error (.reject 3 0)
  else
    match launchFail s (s.lq x.fn x.lq).cid slot size true with
    | some r => .error (.reject r 0)
    | none =>
      let start := if gang then some (bfld l 8 8, decide (late = 1)) else none
      .ok (x.emit (.launch slot size start (bindsOf l)))

/-- ELAUNCH. -/
def execElaunch (s : State) : Out := spOp (emitLaunch false) s

/-- EGANG. -/
def execEgang (s : State) : Out := spOp (emitLaunch true) s

/-- ETILE: the checks of R266 (R314). -/
def execEtile (s : State) : Out :=
  spOp (fun s x =>
    let l := x.bufBytes
    if nonZero l 66 256 then .error (.reject 3 0)
    else
      match s.descFail (s.lq x.fn x.lq).cid false true l with
      | some (c, o) => .error (.reject 7 (o + c * 256))
      | none => .ok (x.emit (.tile (l.take 64) (bfld l 64 2)))) s

/-- ECOPY (R313). -/
def execEcopy (s : State) : Out :=
  spOp (fun _ x =>
    let l := x.bufBytes
    if nonZero l 27 256 || 2 ^ 36 < bfld l 16 8 || 191 < bfld l 26 1 then .error (.reject 3 0)
    else .ok (x.emit (.copy (bfld l 0 8) (bfld l 8 8) (bfld l 16 8) (bfld l 24 2) (bfld l 26 1)))) s

/-- ESIGNAL (R313). -/
def execEsignal (s : State) : Out :=
  spOp (fun _ x =>
    let l := x.bufBytes
    if nonZero l 3 4 || nonZero l 8 256 || bfld l 2 1 = 0 || 191 < bfld l 2 1 then .error (.reject 3 0)
    else .ok (x.emit (.signal (bfld l 0 2) (bfld l 2 1) (BitVec.ofNat 32 (bfld l 4 4))))) s

/-- EFENCE: no byte of the buffer is read (R313). -/
def execEfence (s : State) : Out := spOp (fun _ x => .ok (x.emit .fence)) s

/-- REJECT. -/
def execReject (code : BitVec 16) (s : State) : Out := spOp (fun _ _ => .error (.reject 1 code.toNat)) s

/-- DONE. -/
def execDone (s : State) : Out := spOp (fun _ _ => .error .done) s

/-- BUDGET (R320): the 513th operation of a packet. -/
def execBudget (it : Nat) (s : State) : Out :=
  let x := s.interps.get it
  .next (if x.busy && 512 ≤ x.count then s.rejectPkt it 2 x.idx 22 else s)

/-! ## The verifier (R319) -/

/-- The LOOP bodies of a program: first and last operation. -/
def spBodies (l : List W32) : List (Nat × Nat) :=
  (l.zip (countFrom 0 l.length)).filterMap fun e =>
    if e.1.toNat % 256 = 23 then some (e.2 + 1, e.2 + fld e.1.toNat 23 9) else none

/-- The bodies that hold an operation. -/
def bodiesOf (b : List (Nat × Nat)) (i : Nat) : List (Nat × Nat) := b.filter fun e => e.1 ≤ i && i ≤ e.2

/-- The smallest of the bodies that hold an operation. -/
def innerBody (b : List (Nat × Nat)) (i : Nat) : Option (Nat × Nat) :=
  (bodiesOf b i).foldl (fun o e => match o with
    | none => some e
    | some x => if e.2 - e.1 < x.2 - x.1 then some e else some x) none

/-- Check 2: a branch stays within the bodies that hold it; as the last operation of the innermost it may go to the word just after that. -/
def branchBad (l : List W32) (b : List (Nat × Nat)) (i imm : Nat) : Bool :=
  let t := i + imm
  if imm = 0 || 32768 ≤ imm || l.length ≤ t then true
  else if bodiesOf b t = bodiesOf b i then false
  else match innerBody b i with
    | some e => !(i = e.2 && t = e.2 + 1)
    | none => true

/-- Check 3: a LOOP. -/
def loopBad (l : List W32) (b : List (Nat × Nat)) (i len n : Nat) : Bool :=
  n = 0 || 64 < n || len = 0 || l.length ≤ i + len || ((l[i + len]?).getD 0#32).toNat % 256 = 23 ||
    4 < (bodiesOf b (i + 1)).length || b.any fun e => e.1 < i + 1 && i + 1 ≤ e.2 && e.2 < i + len

/-- The lowest-numbered check that fails at an operation (R319). -/
def checkOp (l : List W32) (tables : List SpTable) (i : Nat) (w : W32) : Option Nat :=
  let b := spBodies l
  let last := i + 1 = l.length && !(w.toNat % 256 = 22 || w.toNat % 256 = 30 || w.toNat % 256 = 31)
  let tbl := fun (t : BitVec 16) => (tables[t.toNat]?).getD default
  match decodeSparge w.toNat with
  | .error _ => some 1
  | .ok x =>
    let own : Option Nat := match x with
      | .bz imm _ => if branchBad l b i imm.toNat then some 2 else none
      | .bnz imm _ => if branchBad l b i imm.toNat then some 2 else none
      | .jmp imm => if branchBad l b i imm.toNat then some 2 else none
      | .spargeLoop len n => if loopBad l b i len.toNat n.toNat then some 3 else none
      | _ => none
    let late : Option Nat := match x with
      | .pld z off a _ => if a = 0#4 && (off.toNat % sizeBytes z ≠ 0 || 256 < off.toNat + sizeBytes z) then some 5 else none
      | .est z off a _ => if a = 0#4 && (off.toNat % sizeBytes z ≠ 0 || 256 < off.toNat + sizeBytes z) then some 5 else none
      | .tld t _ _ => if (tbl t).count = 0 then some 6 else none
      | .tst t _ _ => if (tbl t).count = 0 || !(tbl t).writable then some 6 else none
      | .qld n _ => if 5 < n.toNat then some 7 else none
      | .spargeShli n _ => if 63 < n.toNat then some 7 else none
      | .spargeShri n _ => if 63 < n.toNat then some 7 else none
      | _ => none
    match own with
    | some c => some c
    | none => if last then some 4 else late

/-- The failing check and index of a program, the lowest index first (R319). -/
def verify (l : List W32) (tables : List SpTable) : Option (Nat × Nat) :=
  (l.zip (countFrom 0 l.length)).findSome? fun e => (checkOp l tables e.2 e.1).map fun c => (c, e.2)

/-! ## Loading (R318, R319) -/

/-- The places of a table's pages, pinned; none when a page is not the context's to read, or to write (R319). -/
def pinTable (s : State) (cid base count : Nat) (wr : Bool) : Option SpTable :=
  let res := (cutSpan (8 * count / 16384 + 2) base (8 * count)).map fun p =>
    match flatPiece s cid p.1 p.2 with
    | .error _ => none
    | .ok pc => if pc.tgt = .hbm && pc.leaf.rd && !pc.leaf.granary && (!wr || pc.leaf.wr) && base / 2 ^ 52 = 0 then
        some (pc.addr - p.1 % 16384) else none
  if res.any (·.isNone) then none
  else some { places := res.filterMap id, count := count, writable := wr, off := base % 16384 }

/-- A table declaration of a program entry (R318). -/
def SpProg.table (p : SpProg) (s : State) (cid t : Nat) : Option SpTable :=
  let w0 := p.words.get (8 + 2 * t)
  let n := wfld (p.words.get (9 + 2 * t)) 0 17
  if n = 0 then some default
  else if 65536 < n then none
  else pinTable s cid (wfld w0 0 52) n (w0.getLsbD 63)

/-- The eight table declarations, when all can be pinned. -/
def SpProg.tablesOf (p : SpProg) (s : State) (cid : Nat) : Option (List SpTable) :=
  let l := (countFrom 0 8).map (p.table s cid)
  if l.any (·.isNone) then none else some (l.filterMap id)

/-- A context is bound to a function and may be used by it (R307, R311, R318). -/
def State.ownsCtx (s : State) (fn cid : Nat) : Bool :=
  let c := s.ctx cid
  (c.stateOf = 1 || c.stateOf = 2) && c.func = fn

/-- An enabled logical queue of a function names a program (R318). -/
def State.progUsed (s : State) (fn prog : Nat) : Bool :=
  s.lqs.any fun q => q.1 / 8192 = fn && q.2.enable && q.2.program = prog

/-- The empty program entry with its registers kept. -/
def SpProg.unloaded (p : SpProg) : SpProg := { (default : SpProg) with words := p.words }

/-- A function cannot read some byte of a range of host memory through its IOMMU context (R318). -/
def State.hostHidden (s : State) (fn addr n : Nat) : Bool :=
  s.hidden.any fun h => decide (h.1 = fn) && decide (h.2.1 < addr + n) && decide (addr < h.2.1 + h.2.2)

/-- LOAD (R318, R319). -/
def State.loadProgram (s : State) (fn prog : Nat) : State :=
  if s.progUsed fn prog then s.dropWrite
  else
    let p := (s.prog fn prog).unloaded
    let put := fun (q : SpProg) => { s with progs := s.progs.put (progKey fn prog) q }
    let n := wfld (p.words.get 2) 0 11
    let cid := wfld (p.words.get 4) 0 12
    let src := (p.words.get 1).toNat / 4 * 4
    if !s.ownsCtx fn cid || n = 0 || 1024 < n || s.hostHidden fn src (4 * n) then put { p with failed := true }
    else
      match p.tablesOf s cid with
      | none => put { p with failed := true }
      | some tables =>
        let ops := (countFrom 0 n).map fun i => BitVec.ofNat 32 (s.host.readLE (src + 4 * i) 4)
        match verify ops tables with
        | some (c, i) => put { p with failed := true, failCheck := c, failIndex := i }
        | none => put { p with loaded := true, ops := ops, tables := tables }

/-- UNLOAD (R318). -/
def State.unloadProgram (s : State) (fn prog : Nat) : State :=
  if s.progUsed fn prog then s.dropWrite
  else ({ s with progs := s.progs.put (progKey fn prog) (s.prog fn prog).unloaded } : State).stir fun _ t =>
    decide (t.cid = wfld ((s.prog fn prog).words.get 4) 0 12)

/-- SPARGE_PROGRAM_LOAD. -/
def execSpargeProgramLoad (fn : Nat) (prog : Nat) (s : State) : Out :=
  .next (s.hostWrite fn fun s => if prog < 256 then s.loadProgram fn prog else s.dropWrite)

/-- SPARGE_PROGRAM_UNLOAD. -/
def execSpargeProgramUnload (fn : Nat) (prog : Nat) (s : State) : Out :=
  .next (s.hostWrite fn fun s => if prog < 256 then s.unloadProgram fn prog else s.dropWrite)

/-- INTERPRETER_HANDOFF (R321): a free interpreter takes the next logical queue with a delivered packet, in round-robin
order of queue number across the package. A packet with a bad SLOTS field is rejected before the program runs (R312). -/
def State.handoff (s : State) (it : Nat) : State :=
  let number := fun (k : Nat) => (s.func (k / 8192)).lqFirst + k % 8192
  let busy := fun (k : Nat) => s.interps.any fun x => x.2.busy && lqKey x.2.fn x.2.lq = k
  let ready := s.lqs.filter fun q => q.2.enable && !q.2.delivered.isEmpty && !busy q.1 && (s.ctx q.2.cid).stateOf ≠ 2 && (s.ctx q.2.cid).freezing.isNone
  let dist := fun (k : Nat) => (number k + 8192 - (s.lastLq + 1) % 8192) % 8192
  let best := ready.foldl (fun (o : Option (Nat × LQueue)) q => match o with
    | none => some q
    | some b => if dist q.1 < dist b.1 then some q else some b) none
  match best with
  | none => s
  | some (k, q) =>
    match q.delivered with
    | [] => s
    | p :: rest =>
      let x : Interp := { (default : Interp) with busy := true, fn := k / 8192, lq := k % 8192, pkt := p }
      let s := { s with lqs := s.lqs.put k { q with delivered := rest }, lastLq := number k, interps := s.interps.put it x }
      let declared := ((p.bytes[1]?).getD 0#8).toNat
      if declared = 0 || 4 < declared then s.rejectPkt it 3 65535 0
      else if (s.ctx q.cid).stateOf ≠ 1 then s.rejectPkt it 5 65535 0
      else s

/-- INTERPRETER_HANDOFF. -/
def execInterpreterHandoff (it : Nat) (s : State) : Out :=
  .next (if it < 16 && !(s.interps.get it).busy && !s.fwHeld && !s.stopped then s.handoff it else s)

end Sys2Proof.Machine
end

