-- ==== Sys2Proof/Machine/HostQueue.lean ====
section
/-! DEFINITION. Host queues: rings, doorbells, logical queues and their merge, emissions taking effect, host copies, and
gangs that start at an agreed tick (R307 to R316, R325, R328). -/

namespace Sys2Proof.Machine

/-! ## Rings and doorbells (R307 to R310) -/

/-- A doorbell returns an idle package to ON (R336). -/
def State.wake (s : State) : State :=
  if s.powerIn = 1 then { s with pkg := { s.pkg with powerState := s.pkg.powerState &&& ~~~7#64 } } else s

/-- A bad doorbell disables its ring (R309). -/
def State.overrun (s : State) (fn ring : Nat) : State :=
  let r := s.ring fn ring
  let s := { s with rings := s.rings.put (ringKey fn ring) { r with enable := false, overrun := true } }
  postEvent fn 2 0 0 ring r.cid 0 0 0 s

/-- TAIL would pass what the ring holds (R309). -/
def Ring.tooFar (r : Ring) (tail : W32) : Bool := decide (2 ^ r.log2 < (tail - r.head).toNat)

/-- A tail doorbell (R309). -/
def State.tailBell (s : State) (fn ring : Nat) (tail : W32) : State :=
  if (s.func fn).ringCount ≤ ring then s.dropWrite
  else
    let s := s.wake
    let r := s.ring fn ring
    if !r.enable then s
    else if r.tooFar tail then s.overrun fn ring
    else { s with rings := s.rings.put (ringKey fn ring) { r with tail := tail } }

/-- An inline doorbell (R309): a packet with a bad SLOTS field that comes in 64 bytes takes one slot. -/
def State.inlineBell (s : State) (fn ring : Nat) (bytes : List Byte) : State :=
  if (s.func fn).ringCount ≤ ring || !(bytes.length = 64 || bytes.length = 128 || bytes.length = 192 || bytes.length = 256) then s.dropWrite
  else
    let s := s.wake
    let r := s.ring fn ring
    let declared := ((bytes[1]?).getD 0#8).toNat
    let odd := declared = 0 || 4 < declared
    let slots := if odd then 1 else declared
    let tail := r.tail + BitVec.ofNat 32 slots
    if !r.enable then s
    else if bytes.length ≠ 64 * slots || r.tooFar tail then s.overrun fn ring
    else { s with rings := s.rings.put (ringKey fn ring) { r with tail := tail, inl := r.inl ++ [(r.tail.toNat, bytes)] } }

/-- A doorbell that SLEEP has held, or another (R336): no bytes for a tail doorbell. -/
def State.bell (s : State) (b : Nat × Nat × W32 × List Byte) : State :=
  if b.2.2.2.isEmpty then s.tailBell b.1 b.2.1 b.2.2.1 else s.inlineBell b.1 b.2.1 b.2.2.2

/-- A doorbell arrives; SLEEP holds it (R336). DEDUCED: assumption log entry 29. -/
def State.ringBell (s : State) (b : Nat × Nat × W32 × List Byte) : State :=
  s.hostWrite b.1 fun s => if s.powerIn = 3 then { s with bells := s.bells ++ [b] } else s.bell b

/-- TAIL_DOORBELL (R309). -/
def execTailDoorbell (fn ring : Nat) (tail : BitVec 32) (s : State) : Out := .next (s.ringBell (fn, ring, tail, []))

/-- INLINE_DOORBELL (R309): an empty write is no doorbell and is dropped. -/
def execInlineDoorbell (fn ring : Nat) (bytes : List (BitVec 8)) (s : State) : Out :=
  .next (if bytes.isEmpty then s.hostWrite fn State.dropWrite else s.ringBell (fn, ring, 0, bytes))

/-- The enabled rings of a function that name a logical queue, in increasing index (R307, R311). -/
def State.ringsOf (s : State) (fn lq : Nat) : List (Nat × Ring) :=
  s.rings.filterMap fun r => if r.1 / 131072 = fn && r.2.enable && r.2.lq = lq then some (r.1 % 131072, r.2) else none

/-- A ring may be enabled (R307). -/
def State.ringOk (s : State) (fn : Nat) (r : Ring) : Bool :=
  s.ownsCtx fn r.cid && decide (r.lq < (s.func fn).lqCount) && decide ((s.lq fn r.lq).cid = r.cid) &&
    decide (6 ≤ r.log2) && decide (r.log2 ≤ 16) && decide ((s.ringsOf fn r.lq).length < 64)

/-- RING_ENABLE (R307): a write of +24 of a ring's descriptor. -/
def execRingEnable (fn ring : Nat) (val : BitVec 64) (s : State) : Out :=
  .next (s.hostWrite fn fun s =>
    if (s.func fn).ringCount ≤ ring then s.dropWrite
    else
      let r := s.ring fn ring
      let r := { r with overrun := r.overrun && !val.getLsbD 1 }
      let on := val.getLsbD 0 && (r.enable || s.ringOk fn r)
      { s with rings := s.rings.put (ringKey fn ring) { r with enable := on } })

/-! ## Logical queues (R311, R312) -/

/-- LQ_ENABLE (R311): a write of +8 of a queue's descriptor. -/
def execLqEnable (fn lq : Nat) (val : BitVec 64) (s : State) : Out :=
  .next (s.hostWrite fn fun s =>
    if (s.func fn).lqCount ≤ lq then s.dropWrite
    else
      let q := s.lq fn lq
      let on := val.getLsbD 0 && (q.enable || (s.ownsCtx fn q.cid && (s.prog fn q.program).loaded))
      { s with lqs := s.lqs.put (lqKey fn lq) { q with enable := on } })

/-- The bytes of the slots from a slot number on: those of an inline packet, else from host memory (R308, R309). -/
def State.slotBytes (s : State) (r : Ring) (at_ : Nat) (n : Nat) : List Byte :=
  match r.inl.find? fun e => e.1 = at_ with
  | some e => e.2.take (64 * n)
  | none => (countFrom at_ n).flatMap fun i => s.host.bytes (r.base.toNat + 64 * (i % 4294967296 % 2 ^ r.log2)) 64

/-- The whole packet of a ring at a slot number, when there is one (R311, R312). -/
def State.packetAt (s : State) (g : Nat) (r : Ring) (at_ : Nat) : Option Pkt :=
  let avail := (r.tail - BitVec.ofNat 32 at_).toNat
  let first := s.slotBytes r at_ 1
  let declared := ((first[1]?).getD 0#8).toNat
  let slots := if declared = 0 || 4 < declared then 1 else declared
  if avail < slots || 2 ^ r.log2 < avail then none
  else some { ring := g, bytes := s.slotBytes r at_ slots, slots := slots, tag := bfld first 2 2 }

/-- The packets of a ring from a slot number on, up to a count (R311). -/
def State.takePackets (s : State) (g : Nat) (r : Ring) : Nat → Nat → List Pkt
  | 0, _ => []
  | fuel + 1, at_ =>
    match s.packetAt g r at_ with
    | none => []
    | some p => p :: State.takePackets s g r fuel ((at_ + p.slots) % 4294967296)

/-- The slots of a ring that packets handed to an interpreter hold: HEAD has not passed them yet (R316). -/
def State.runningSlots (s : State) (fn g : Nat) : Nat :=
  s.interps.foldl (fun n x => if x.2.busy && x.2.fn = fn && x.2.pkt.ring = g then n + x.2.pkt.slots else n) 0

/-- One turn of Merge (R311). -/
def State.mergeTurn (s : State) (fn lq : Nat) : State :=
  let q := s.lq fn lq
  let got := (s.ringsOf fn lq).flatMap fun r =>
    s.takePackets r.1 r.2 (q.qval + 1) ((r.2.head.toNat + s.runningSlots fn r.1) % 4294967296)
  { s with lqs := s.lqs.put (lqKey fn lq) { q with delivered := got } }

/-- MERGE (R311): a turn begins when the packets of the last one have been handed on. -/
def execMerge (fn lq : Nat) (s : State) : Out :=
  let q := s.lq fn lq
  .next (if q.enable && q.delivered.isEmpty && !s.fwHeld && !s.stopped && decide (lq < (s.func fn).lqCount) then s.mergeTurn fn lq else s)

/-! ## Emissions taking effect (R314 to R316, R325) -/

/-- EMITFAIL (R316). -/
def State.emitFail (s : State) (fn cid : Nat) (e : Emission) (reason code : Nat) : State :=
  postEvent fn 10 reason e.tag e.ring cid e.opindex code 0 s

/-- Creates the threads of a launch (R325): the first task is the image's entry record.
DEDUCED: assumption log entry 44. -/
def State.launchThreads (s : State) (cid slot size : Nat) (binds : NMap W64) : List Nat × State :=
  let img := s.images.get slot
  let addr := img.dataVa + BitVec.ofNat 64 img.entry
  let n := if size = 0 then 1 else size
  let gang := if size = 0 then 0 else s.gangNext + 1
  let r : Rec := { (default : Rec) with addr := addr, slot := slot }
  match createThreads cid n gang (size ≠ 0) binds r [] n { s with gangNext := s.gangNext + 1 } with
  | .ok (keys, s) =>
    (keys, keys.foldl (fun s k => s.updThr k fun t =>
      { t with live := { t.live with bnd := some addr }, committed := { t.committed with bnd := some addr } }) s)
  | .error _ => ([], s)

/-- A launch takes effect (R325, R328): a gang that cannot be wholly placed by tick T − 16 any more is late, or comes to nothing. -/
def State.launchNow (s : State) (fn lq slot size : Nat) (start : Option (Nat × Bool)) (binds : NMap W64) (e : Emission) : State :=
  let cid := (s.lq fn lq).cid
  match launchFail s cid slot size false with
  | some r => s.emitFail fn cid e r 0
  | none =>
    let missed := match start with | some (t, _) => decide (t < s.tick + 16) | none => false
    if missed && !(start.map (·.2)).getD true then postEvent fn 4 0 e.tag e.ring cid 0 (s.tick - (start.map (·.1)).getD 0) 0 s
    else
      let (keys, s) := s.launchThreads cid slot size binds
      let s := s.askPlace keys
      let q := s.lq fn lq
      let s := { s with lqs := s.lqs.put (lqKey fn lq) { q with starting := q.starting ++ keys } }
      match start with
      | none => s
      | some (t, late) =>
        let h : GangHold := { keys := keys, start := t, lateOk := late, late := missed, fn := fn, ring := e.ring, tag := e.tag, cid := cid }
        { s with gangHolds := s.gangHolds ++ [h] }

/-- A tile emission takes effect (R267, R314): none while its partition is full (R271). -/
def State.tileNow (s : State) (fn lq : Nat) (desc : List Byte) (thr : Nat) (e : Emission) : Option State :=
  let cid := (s.lq fn lq).cid
  match s.descFail cid false true desc with
  | some (c, o) => some (s.emitFail fn cid e 7 (o + c * 256))
  | none =>
    let x := taskOf s cid desc
    let p := s.partitionOf x
    let f := bfld desc 36 4
    if s.partFull p then none
    else some (s.acceptTask
      { x with host := true, tag := e.tag, part := p, flag := if f = 0 then none else some ⟨false, cid * 65536 + thr, f⟩ })

/-- Who made a set that an emission or the device makes (R251). -/
def hostSetter : Setter := { code := 10, thread := 65535, endpoint := 0#32 }

/-- Adds to a flag of a thread of a context for an emission (R314). -/
def State.hostSignal (s : State) (cid thr flag n : Nat) : State :=
  if flag = 0 then s else s.addFlag ⟨false, cid * 65536 + thr, flag⟩ n [] hostSetter none

/-- The first released emission of a logical queue takes effect, when its conditions hold (R315). Those of a context that is
being destroyed are discarded (R344). -/
def State.emission (s : State) (fn lq : Nat) : State :=
  let q := s.lq fn lq
  let c := s.ctx q.cid
  match q.released with
  | [] => s
  | e :: rest =>
    let taken := { s with lqs := s.lqs.put (lqKey fn lq) { q with released := rest } }
    if c.stateOf = 2 then s
    else if c.stateOf ≠ 1 then taken
    else
      match e.kind with
      | .fence => if q.copies.isEmpty && q.starting.isEmpty then taken else s
      | .copy _ _ _ _ _ =>
        let x : HostCopy := { em := e, done := 0, page := none, cov := [] }
        { s with lqs := s.lqs.put (lqKey fn lq) { q with released := rest, copies := q.copies ++ [x] } }
      | .launch slot size start binds => if q.copies.isEmpty then taken.launchNow fn lq slot size start binds e else s
      | .tile desc thr => if q.copies.isEmpty then (taken.tileNow fn lq desc thr e).getD s else s
      | .signal thr flag v => if q.copies.isEmpty then taken.hostSignal q.cid thr flag v.toNat else s

/-- EMISSION_TAKES_EFFECT (R315). -/
def execEmissionTakesEffect (fn lq : Nat) (s : State) : Out := .next (if s.fwHeld || s.stopped then s else s.emission fn lq)

/-! ## Host copies (R314) -/

/-- The record under which a host copy of a queue makes its accesses; it has no S-space, so only flat addresses are
reached (R313). -/
def copyAgent (cid ver : Nat) (x : HostCopy) : Thread :=
  let q : QEntry := { (default : QEntry) with word := .cpl 0 0 0 0, ver := ver, cov := x.cov }
  { (default : Thread) with
    alive := true, cid := cid, num := 65535, versions := [freshVersion ver default]
    queues := [(Eng.cp.code, { entries := [q], pushed := 1 })] }

/-- A copy leaves its queue. -/
def State.dropCopy (s : State) (fn lq i : Nat) : State :=
  let q := s.lq fn lq
  { s with lqs := s.lqs.put (lqKey fn lq) { q with copies := q.copies.eraseIdx i } }

/-- COPYFAULT: the copy stops and sets no flag (R314). -/
def State.copyFault (s : State) (fn lq i cause addr : Nat) (x : HostCopy) : State :=
  (postEvent fn 3 0 x.em.tag x.em.ring (s.lq fn lq).cid 0 cause addr s).dropCopy fn lq i

/-- What a host copy may reach: flat addresses alone (R313). -/
def flatReach : Reach := { Reach.all with scratch := false, remote := false }

/-- One chunk of a host copy, or its completion (R314). -/
def State.copyStep (s : State) (fn lq i : Nat) (x : HostCopy) : State :=
  match x.em.kind with
  | .copy dst src len thr flag =>
    let cid := (s.lq fn lq).cid
    if len ≤ x.done then (s.dropCopy fn lq i).hostSignal cid thr flag 1
    else
      let n := Nat.min 4096 (len - x.done)
      let key := 3 * passBase + lqKey fn lq
      let (ver, s1) := s.newVerId
      let t := copyAgent cid ver x
      let part : Part := { dst := .va (dst + x.done), src := .va (src + x.done), len := n, tag := none }
      let q0 := (((t.queue .cp).entries.head?).getD default)
      match copyChunk key q0 flatReach [part] (s1.setThr key t) with
      | .ok ((), s2) =>
        let s2 := s2.commitWrites key ver
        let cov := ((((s2.thr key).queue .cp).entries.head?).map (·.cov)).getD []
        let s2 := { s2 with threads := s2.threads.erase key }
        let q := s2.lq fn lq
        let y := { x with done := x.done + n, cov := cov }
        let s2 := { s2 with lqs := s2.lqs.put (lqKey fn lq) { q with copies := setAt q.copies i y } }
        if len ≤ y.done then (s2.dropCopy fn lq i).hostSignal cid thr flag 1 else s2
      | .error (.trap tr) =>
        if tr.cause = 4#8 then
          let q := s.lq fn lq
          let y := { x with page := some tr.addr.toNat }
          let s := { s with lqs := s.lqs.put (lqKey fn lq) { q with copies := setAt q.copies i y } }
          postEvent fn 8 0 x.em.tag x.em.ring cid 0 (65535 + (if tr.info.getLsbD 16 then 65536 else 0) + 131072) tr.addr.toNat s
        else s.copyFault fn lq i tr.cause.toNat tr.addr.toNat x
      | .error _ => s
  | _ => s.dropCopy fn lq i

/-- ECOPY_COMPLETION (R314): the first copy of a queue that does not wait for a page performs a chunk; the last chunk
completes it. -/
def execEcopyCompletion (fn lq : Nat) (s : State) : Out :=
  let q := s.lq fn lq
  if s.stopped || (s.ctx q.cid).stateOf ≠ 1 then .next s
  else
    match findIdx (fun x => x.page.isNone) 0 q.copies with
    | some (i, x) => .next (s.copyStep fn lq i x)
    | none => .next s

/-- The copies of a context that wait for a page within a range take the verdict (R314, R388). -/
def State.copyVerdict (s : State) (cid va len : Nat) (fail : Bool) : State :=
  let here := fun (x : HostCopy) => match x.page with | some a => decide (va ≤ a) && decide (a < va + len) | none => false
  let keys := (s.lqs.filter fun q => q.2.cid = cid && q.2.copies.any here).map (·.1)
  keys.foldl (fun s k =>
    let q := s.lqs.get k
    let failed := if fail then q.copies.filter here else []
    let s := failed.foldl (fun s x => postEvent (k / 8192) 3 0 x.em.tag x.em.ring cid 0 4 (x.page.getD 0) s) s
    let keep := if fail then q.copies.filter fun x => !here x else q.copies.map fun x => if here x then { x with page := none } else x
    { s with lqs := s.lqs.put k { q with copies := keep } }) s

/-! ## Gangs with a start tick (R328) -/

/-- Every member of a gang holds its slot, unstarted. -/
def State.gangPlaced (s : State) (h : GangHold) : Bool :=
  h.keys.all fun k => !(s.thr k).alive || decide ((s.thr k).run = .unstarted)

/-- SCHEDMISS of a gang: CODE holds the ticks late (R320, R328). -/
def State.gangMiss (s : State) (h : GangHold) : State := postEvent h.fn 4 0 h.tag h.ring h.cid 0 (s.tick - h.start) 0 s

/-- The gangs that are not wholly placed at a tick when they should be are late from then on (R328). -/
def State.judgeGangs (s : State) : State :=
  if s.gangHolds.isEmpty then s
  else { s with gangHolds := s.gangHolds.map fun h => if h.lateOk && decide (h.start < s.tick + 16) && !s.gangPlaced h then { h with late := true } else h }

/-- A gang that was not placed in time and may not be late is placed no more (R328). -/
def State.gangOver (s : State) (keys : List Nat) : Bool :=
  s.gangHolds.any fun h => !h.lateOk && decide (h.start < s.tick + 16) && h.keys.any keys.contains

/-- GANG_START (R328): at tick T, or once placed when the gang is late, its members become issuable.
DEDUCED: assumption log entry 28. -/
def execGangStart (n : Nat) (s : State) : Out :=
  match s.gangHolds[n]? with
  | none => .next s
  | some h =>
    if h.start ≤ s.tick && s.gangPlaced h then
      let s := if h.late then s.gangMiss h else s
      let s := { s with gangHolds := s.gangHolds.eraseIdx n }
      .next (h.keys.foldl (fun s k => if (s.thr k).alive then s.updThr k fun t => { t with run := .resident, idle := s.tick } else s) s)
    else .next s

/-- GANG_LATE (R328): a gang that is not wholly placed by tick T − 16. -/
def execGangLate (n : Nat) (s : State) : Out :=
  match s.gangHolds[n]? with
  | none => .next s
  | some h =>
    if h.late || s.tick + 16 < h.start || s.gangPlaced h then .next s
    else if h.lateOk then .next { s with gangHolds := setAt s.gangHolds n { h with late := true } }
    else
      let s := { s with gangHolds := s.gangHolds.eraseIdx n, places := s.places.filter fun p => !p.keys.any h.keys.contains }
      .next (h.keys.foldl (fun s k => if (s.thr k).alive then s.retire k true else s) (s.gangMiss h))

end Sys2Proof.Machine
end

