-- ==== Sys2Proof/Machine/Fabric.lean ====
section
/-! DEFINITION. The Onsil fabric: inbound packets, flows and their order, parked traffic, answers to packets of this
package, and the bulletin over the fabric (R184 to R186, R202, R223, R300, R331 to R334, R362, R417). -/

namespace Sys2Proof.Machine

/-! ## Where an inbound packet goes (R331, R362) -/

/-- What the endpoint table says of a packet's target: a context of this package, or an answer. -/
inductive Target where
  | here (cid : Nat)
  | gone
  | wait

/-- The first service endpoint (R331). -/
def serviceBase : Nat := 4294901760

/-- The target of a packet for an endpoint with a generation: a generation that differs, an entry that is GONE or a context
that is ending is answered ENDPOINT_GONE (R344, R361, R362). While a context awaits a migration's end, a packet for an entry
that still names another package is sent again later; a packet for an entry that a relay has moved is relayed (R417). The packages' service endpoints stand for no context (R331). -/
def State.targetOf (s : State) (ep : Nat) (gen : BitVec 16) : Target :=
  let e := s.endpoints.get ep
  let c := s.ctx e.cid
  if serviceBase ≤ ep || !s.endpoints.has ep || e.st = 2 || e.gen ≠ gen then .gone
  else if e.pkg ≠ s.pkg.self then
    match s.ctxs.find? fun c => c.2.relay = some (e.pkg, e.cid) with
    | some c => .here c.1
    | none => if s.ctxs.any fun c => c.2.awaitEnd then .wait else .gone
  else if c.stateOf = 1 || c.stateOf = 2 then .here e.cid
  else .gone

/-- Answers a packet. -/
def State.answer (s : State) (h : FabHdr) (k : AnsKind) : State :=
  { s with answers := s.answers ++ [{ ep := h.srcEp, thread := h.srcThread.toNat, flow := h.flow.toNat, seq := h.seq, kind := k }] }

/-! ## Performing an inbound packet (R185, R223) -/

/-- Who made a signal that came over the fabric (R251). -/
def fabricSetter (h : FabHdr) : Setter := { code := 8, thread := 65535, endpoint := h.srcEp }

/-- Reports the hits of a remote access on the watchpoints of the thread whose scratch it reaches (R429). -/
def State.remoteWatch (s : State) (key : Nat) (h : FabHdr) (rd wr : Bool) (off len : Nat) : State :=
  (inHits (s.thr key) 6 0xFF#8 h.srcEp rd wr off len).foldl (fun s x => s.report key x) s

/-- Writes bytes of a scratch for a remote access: it belongs to no version here. -/
def State.remoteStore (s : State) (key off : Nat) (data : List Byte) : State :=
  (s.dropRels (.scratch key) false off data.length none).writeCommitted (.scratch key) off data

/-- The bytes that a posted write stores, run by run of its byte enables. -/
def enabledRuns (data : BitVec 512) (be : BitVec 64) : List (Nat × List Byte) :=
  let l := (countFrom 0 64).filter fun i => be.getLsbD i
  (l.foldl (fun (acc : List (Nat × List Byte)) i =>
    let b := BitVec.ofNat 8 (data.toNat / 2 ^ (8 * i))
    match acc with
    | (at_, bs) :: r => if at_ + bs.length = i then (at_, bs ++ [b]) :: r else (i, [b]) :: acc
    | [] => [(i, [b])]) []).reverse

/-- The bytes of a run after a reduction into memory (R219). -/
def redRun (m : Memory) (ty : RedTy) (at_ : Nat) (b : List Byte) : List Byte :=
  let n := redBytes ty
  (countFrom 0 (b.length / n)).flatMap fun i => natLE n (redSum ty (m.readLE (at_ + n * i) n) (bfld b (n * i) n))

/-- An access that writes a scratch from outside is one on path IN of its thread: what comes before it is known there (R151, R155). -/
def State.noteInbound (s : State) (key : Nat) (clk : Clock) : State := if clk.isEmpty then s else s.updThr key fun t => t.learn [5] clk

/-- A release that an atomic of no version carries on with the value that it writes (R165). -/
def RelRec.carried (x : RelRec) : RelRec := { x with ver := none, hid := [] }

/-- A posted write is performed at the target's scratch (R185); a reduction is an atomic, which keeps the releases that it reads (R165, R219). Bytes
beyond its allotment are not written. -/
def State.remoteWrite (s : State) (key : Nat) (h : FabHdr) (off : Nat) (data : BitVec 512) (be : BitVec 64) (red : Option RedTy) : State :=
  let room := (s.thr key).scratchG * 16384
  (enabledRuns data be).foldl (fun s r =>
    let a := off / 64 * 64 + r.1
    if a + r.2.length ≤ room then
      let b := match red with | some ty => redRun (s.thr key).scratch ty a r.2 | none => r.2
      let kept := if red.isSome then (s.relsAt (.scratch key) false a r.2.length).map RelRec.carried else []
      let s := s.remoteStore key a b
      ({ s with rels := kept ++ s.rels } : State).remoteWatch key h red.isSome true a r.2.length
    else s) s

/-- A value that no memory stands behind (R332; DESIGN CHOICE, assumption log entry 23). -/
def State.unread (s : State) : W64 × State := (Config.freeWord s.fresh, { s with fresh := s.fresh + 1 })

/-- The bytes, the new value and the old value of a marked access (R185, R194, R195, R211). -/
def markedApply (op : MarkedOp) (old : Nat) : Nat × Option Nat × Nat :=
  match op with
  | .load z => (sizeBytes z, none, old)
  | .store z v => (sizeBytes z, some (v.toNat % 2 ^ (8 * sizeBytes z)), old)
  | .atom z o v => (sizeBytes z, some (atomOp o (sizeBytes z) old (v.toNat % 2 ^ (8 * sizeBytes z))), old)
  | .cas z c v =>
    (sizeBytes z, if old = c.toNat % 2 ^ (8 * sizeBytes z) then some (v.toNat % 2 ^ (8 * sizeBytes z)) else none, old)
  | .fadd ty v => (4, some (addLane ty old v.toNat), old)

/-- The bytes of a marked access. -/
def markedBytes (op : MarkedOp) : Nat := (markedApply op 0).1

/-- A marked access reads what is there, and whether it also writes, as an atomic does. -/
def markedReads : MarkedOp → Bool
  | .store _ _ => false
  | _ => true

/-- A range of a thread's scratch lies within its allotment. -/
def State.inAllot (s : State) (key off n : Nat) : Bool := (s.thr key).alive && decide (off + n ≤ (s.thr key).scratchG * 16384)

/-- The packet of this package that an inbound header belongs to. -/
def Packet.matches (q : Packet) (h : FabHdr) (key : Nat) : Bool :=
  decide (q.key = key) && decide (q.ep = h.ep) && decide (q.thread = h.thread.toNat) && decide (q.flow = h.flow.toNat) && decide (q.seq = h.seq)

/-- The key of the thread that sent a packet, when it is one of this package. -/
def State.senderKey (s : State) (h : FabHdr) : Option Nat :=
  let e := s.endpoints.get h.srcEp.toNat
  if s.endpoints.has h.srcEp.toNat && decide (e.pkg = s.pkg.self) then some (e.cid * 65536 + h.srcThread.toNat) else none

/-- The packet that a thread of this package sent, as it is known here. -/
def State.sentPacket (s : State) (h : FabHdr) : Option Packet :=
  (s.senderKey h).bind fun key => s.outbox.find? fun q => q.matches h key

/-- What a marked access has acquired where it was performed goes to its sender with the reply (R165). -/
def State.carryBack (s : State) (h : FabHdr) (clk : Clock) : State :=
  if clk.isEmpty then s
  else match s.senderKey h with
    | some key => { s with outbox := s.outbox.map fun q => if q.matches h key then { q with got := clk } else q }
    | none => s

/-- A marked write is performed: it is an access on path IN, it keeps the releases that an atomic has read at its location, and one that
releases leaves its own (R165). -/
def State.storeIn (s : State) (key : Nat) (p : InPkt) (off n v : Nat) (kept : List RelRec) : State :=
  let s := (s.remoteStore key off (natLE n v)).noteInbound key p.clk
  let own := match p.src, p.rel with
    | some a, some sc => [({ space := .scratch key, host := false, addr := off, len := n, by_ := a, scope := sc, clk := p.clk } : RelRec)]
    | _, _ => []
  { s with rels := own ++ kept.map RelRec.carried ++ s.rels }

/-- A marked access is performed at the target's scratch: the old value, unless its block is POISON (R72, R165, R185). -/
def State.remoteMarkedOp (s : State) (key : Nat) (p : InPkt) (off : Nat) (op : MarkedOp) : AnsKind × State :=
  let n := markedBytes op
  if !s.inAllot key off n then (.reply s.unread.1, s.unread.2)
  else if markedReads op && isPoison ((s.thr key).scratch.tag (off / 64 * 64)) then (.poison, s)
  else
    let old := (s.thr key).scratch.readLE off n
    let r := markedApply op old
    let clk := match p.src, p.acq with | some a, some sc => relsOf s a sc (.scratch key) false off n | _, _ => []
    let kept := if markedReads op then s.relsAt (.scratch key) false off n else []
    let s := match r.2.1 with | some v => s.storeIn key p off n v kept | none => s
    (.reply (BitVec.ofNat 64 old), (s.carryBack p.h clk).remoteWatch key p.h (markedReads op) r.2.1.isSome off n)

/-- The answer to a line read (R72, R184). -/
def State.remoteLine (s : State) (key off : Nat) : AnsKind × State :=
  if s.inAllot key (off / 64 * 64) 64 then
    (if isPoison ((s.thr key).scratch.tag (off / 64 * 64)) then .poison else .data ((s.thr key).scratch.block (off / 64)), s)
  else
    let r := (countFrom 0 8).foldl (fun (acc : BitVec 512 × State) i =>
      let r := acc.2.unread
      (acc.1 ||| (r.1.setWidth 512 <<< (64 * i)), r.2)) (0#512, s)
    (.data r.1, r.2)

/-- Answers a packet unless it has been acknowledged already. -/
def State.answerOnce (s : State) (p : InPkt) (k : AnsKind) : State := if p.acked then s else s.answer p.h k

/-- The range of a scratch that a packet reaches. -/
def InOp.range : InOp → Option (Nat × Nat)
  | .write off _ _ _ => some (off / 64 * 64, 64)
  | .line off => some (off / 64 * 64, 64)
  | .marked off op => some (off, markedBytes op)
  | .signal _ _ => none

/-- The copies that have written what a packet reaches come before its access, and so before its sender's later ones on that path; a write is an
access on path IN of the thread whose scratch it is (R151, R157). -/
def State.afterCopies (s : State) (key : Nat) (p : InPkt) : State :=
  match p.op.range with
  | none => s
  | some r =>
    let clk := s.wroteClk key (4 * passBase) none r.1 r.2
    if clk.isEmpty then s
    else
      let s := match s.sentPacket p.h with
        | some q => s.updThr q.key fun t => t.learn [q.path] clk
        | none => s
      match p.op with
      | .line _ => s
      | _ => s.noteInbound key clk

/-- Performs a packet in its context, and answers it unless it has been acknowledged already (R166, R185, R223, R226). -/
def State.performIn (s : State) (cid : Nat) (p : InPkt) : State :=
  let key := cid * 65536 + p.h.thread.toNat
  let s := s.afterCopies key p
  match p.op with
  | .write off data be red =>
    (if (s.thr key).alive then (s.remoteWrite key p.h off data be red).noteInbound key p.clk else s).answerOnce p .ack
  | .line off =>
    let r := s.remoteLine key off
    (r.2.remoteWatch key p.h true false (off / 64 * 64) 64).answerOnce p r.1
  | .marked off op =>
    let r := s.remoteMarkedOp key p off op
    r.2.answerOnce p r.1
  | .signal flag v => (s.addFlag ⟨false, key, flag⟩ v.toNat p.clk (fabricSetter p.h) none).answerOnce p .ack

/-- No recorded copy destination holds a packet that reaches a scratch (R157). -/
def State.inFree (s : State) (cid : Nat) (p : InPkt) : Bool :=
  match p.op.range with
  | none => true
  | some r => !s.threads.any fun q => q.2.scores.any fun c => decide (c.key = cid * 65536 + p.h.thread.toNat) && overlaps c.lo c.len r.1 r.2

/-! ## Parking (R417) -/

/-- The packets that a parking store of 64 KiB holds (R417; DESIGN CHOICE, assumption log entry 24). -/
def parkRoom : Nat := 1024

/-- A device packet to another package. -/
def State.sendDevice (s : State) (cid pkg dcid : Nat) (kind : PktKind) : State :=
  let p : Packet :=
    { id := s.pktNext, key := 4 * passBase + cid, win := 0, ep := BitVec.ofNat 32 (serviceBase + pkg), gen := 0#16, thread := dcid
      flow := 0, seq := s.pktNext, ordered := true, kind := kind, retry := 0, src := default, clk := [], rel := none, acq := none, got := [] }
  { s with outbox := s.outbox ++ [p], pktNext := s.pktNext + 1 }

/-- A packet is accepted for a context whose endpoints are FROZEN: it is parked, or relayed (R417). Writes and signals are
acknowledged at once; a marked access is answered when it is performed. -/
def State.parkIn (s : State) (cid : Nat) (p : InPkt) : State :=
  let own := match p.op with | .marked _ _ => true | .line _ => true | _ => false
  let s := if own || p.acked then s else s.answer p.h .ack
  let q := { p with acked := p.acked || !own }
  match (s.ctx cid).relay with
  | some (pkg, dcid) => s.sendDevice cid pkg dcid (.parked q)
  | none => s.updCtx cid fun c => { c with store := c.store ++ [q] }

/-- The packets for an endpoint of a context are parked or relayed: the context is frozen, the entry FROZEN, or the context has
moved (R417). -/
def State.parks (s : State) (cid : Nat) (ep : W32) : Bool :=
  (s.ctx cid).stateOf = 2 || (s.ctx cid).relay.isSome || (s.endpoints.get ep.toNat).st = 1

/-! ## Flows (R186, R334) -/

/-- The flow of a packet. -/
def InFlow.holds (f : InFlow) (h : FabHdr) : Bool :=
  decide (f.ep = h.ep) && decide (f.srcEp = h.srcEp) && decide (f.srcThread = h.srcThread.toNat) && decide (f.flow = h.flow.toNat)

/-- A packet may be performed: in its turn, or at once in unordered mode unless it is a signal (R186). -/
def InFlow.ready (f : InFlow) (p : InPkt) : Bool :=
  decide (p.h.seq = f.next) || (!p.h.ordered && (match p.op with | .signal _ _ => false | _ => true))

/-- The flow once a packet has been performed. -/
def InFlow.mark (f : InFlow) (seq : Nat) : InFlow :=
  let rec up : Nat → Nat → List Nat → Nat × List Nat
    | 0, n, l => (n, l)
    | fuel + 1, n, l => if l.contains n then up fuel (n + 1) (l.filter (· ≠ n)) else (n, l)
  let r := up (f.done.length + 1) f.next (seq :: f.done)
  { f with next := r.1, done := r.2 }

/-- Performs the packets of a flow that may be performed, the lowest sequence number first among those in turn; one that would reach what a
copy is writing waits, and all of them while the endpoint is frozen (R157, R186, R417). -/
def drainFlow (cid : Nat) : Nat → InFlow → State → InFlow × State
  | 0, f, s => (f, s)
  | fuel + 1, f, s =>
    match findIdx (fun p => f.ready p && !s.parks cid p.h.ep && s.inFree cid p) 0 f.waiting with
    | none => (f, s)
    | some (i, p) => drainFlow cid fuel ({ f with waiting := f.waiting.eraseIdx i }.mark p.h.seq) (s.performIn cid p)

/-- A packet enters the reorder buffer of its flow (R186). A flow not yet known begins at 0; at a migration's destination the source tells the number
that it has come to (DESIGN CHOICE: assumption log entry 25). -/
def State.enterFlow (s : State) (cid : Nat) (p : InPkt) : State :=
  let at_ := findIdx (fun f => InFlow.holds f p.h) 0 s.inflows
  let f : InFlow := match at_ with
    | some (_, f) => f
    | none => { ep := p.h.ep, srcEp := p.h.srcEp, srcThread := p.h.srcThread.toNat, flow := p.h.flow.toNat, next := 0, done := []
                waiting := [] }
  if p.h.seq < f.next || f.done.contains p.h.seq || f.waiting.any fun q => q.h.seq = p.h.seq then s
  else
    let f := { f with waiting := f.waiting ++ [p] }
    let r := drainFlow cid f.waiting.length f s
    match at_ with
    | some (i, _) => { r.2 with inflows := setAt r.2.inflows i r.1 }
    | none => { r.2 with inflows := r.2.inflows ++ [r.1] }

/-- The packets that wait in reorder buffers are performed as far as they may be by now (R157). -/
def State.drainFlows (s : State) : State :=
  (countFrom 0 s.inflows.length).foldl (fun s i =>
    match s.inflows[i]? with
    | some f =>
      if f.waiting.isEmpty then s
      else
        let r := drainFlow (s.endpoints.get f.ep.toNat).cid f.waiting.length f s
        { r.2 with inflows := setAt r.2.inflows i r.1 }
    | none => s) s

/-- A flow goes on here from the number that it had come to where its context was before, and what has arrived of it in its turn is performed (R417,
R419). -/
def State.flowIn (s : State) (ep srcEp : W32) (srcThread flow next : Nat) (done : List Nat) : State :=
  let is := fun (f : InFlow) => decide (f.ep = ep) && decide (f.srcEp = srcEp) && decide (f.srcThread = srcThread) && decide (f.flow = flow)
  let old := (s.inflows.find? is).map (·.waiting)
  let f : InFlow := { ep := ep, srcEp := srcEp, srcThread := srcThread, flow := flow, next := next, done := done
                      waiting := (old.getD []).filter fun p => next ≤ p.h.seq && !done.contains p.h.seq }
  ({ s with inflows := s.inflows.filter (fun f => !is f) ++ [f] } : State).drainFlows

/-- A packet is parked already. -/
def Ctx.parked (c : Ctx) (h : FabHdr) : Bool :=
  c.store.any fun p => decide (p.h.ep = h.ep) && decide (p.h.srcEp = h.srcEp) && decide (p.h.srcThread = h.srcThread) &&
    decide (p.h.flow = h.flow) && decide (p.h.seq = h.seq)

/-- An inbound packet (R331 to R334, R362, R417): for a full parking store, or a line read of a frozen context, RETRY. -/
def State.inbound (s : State) (h : FabHdr) (op : InOp) : State :=
  match s.targetOf h.ep.toNat h.gen with
  | .gone => s.answer h .gone
  | .wait => s.answer h .retry
  | .here cid =>
    let c := s.ctx cid
    let q := s.sentPacket h
    let p : InPkt := { h := h, op := op, acked := false, src := q.map (·.src), clk := (q.map (·.clk)).getD [], rel := q.bind (·.rel)
                       acq := q.bind (·.acq) }
    let line := match op with | .line _ => true | _ => false
    if s.parks cid h.ep then
      if c.parked h then s
      else if c.relay.isNone && (line || parkRoom ≤ c.store.length) then s.answer h .retry
      else s.parkIn cid p
    else s.enterFlow cid p

/-- POSTED_WRITE (R185). -/
def execPostedWrite (h : FabHdr) (off : BitVec 32) (data : BitVec 512) (be : BitVec 64) (red : Option RedTy) (s : State) : Out :=
  .next (s.inbound h (.write off.toNat data be red))

/-- The 64 bytes of the bulletin at an offset (R300, R332). -/
def State.bulletinLine (s : State) (off : Nat) : BitVec 512 := BitVec.ofNat 512 (leNat (fitTo 64 0#8 (s.bulletin.bytes.drop (off / 64 * 64))))

/-- LINE_READ (R184); the package's service endpoint answers with the bulletin (R331). -/
def execLineRead (h : FabHdr) (off : BitVec 32) (s : State) : Out :=
  if h.ep.toNat = serviceBase + s.pkg.self && off.toNat < 4096 then .next (s.answer h (.data (s.bulletinLine off.toNat)))
  else .next (s.inbound h (.line off.toNat))

/-- MARKED_ACCESS (R185). -/
def execMarkedAccess (h : FabHdr) (off : BitVec 32) (op : MarkedOp) (s : State) : Out := .next (s.inbound h (.marked off.toNat op))

/-- SIGNAL (R223). -/
def execSignal (h : FabHdr) (flag : BitVec 8) (val : BitVec 32) (s : State) : Out := .next (s.inbound h (.signal flag.toNat val))

/-- BULLETIN_READ (R300, R331): 64 bytes of the bulletin from the package's service endpoint. -/
def execBulletinRead (ep : BitVec 32) (off : Nat) (s : State) : Out :=
  let k : AnsKind := if ep.toNat = serviceBase + s.pkg.self && decide (off < 4096) then .data (s.bulletinLine off) else .gone
  .next { s with answers := s.answers ++ [{ ep := ep, thread := 0, flow := 0, seq := off, kind := k }] }

/-- END_MARKER (R417): every forwarded packet has been performed, and the threads of the context may be placed. -/
def execEndMarker (cid : Nat) (s : State) : Out := .next (if (s.ctx cid).awaitEnd then s.updCtx cid fun c => { c with awaitEnd := false } else s)

/-- CANCEL_MESSAGE (R361 step 4): the reply that this package owes for a request of an endpoint is owed no longer. -/
def execCancelMessage (ep : BitVec 32) (id : Nat) (s : State) : Out :=
  let drop := fun (p : InPkt) => if decide (p.h.srcEp = ep) && decide (p.h.seq = id) then { p with acked := true } else p
  .next { s with
    ctxs := s.ctxs.map fun c => (c.1, { c.2 with store := c.2.store.map drop })
    inflows := s.inflows.map fun f => { f with waiting := f.waiting.map drop } }

/-! ## Answers to packets of this package (R202, R332, R333) -/

/-- A packet of a thread that awaits its answer. -/
def State.packet (s : State) (key id : Nat) : Option Packet := s.outbox.find? fun p => decide (p.key = key) && decide (p.id = id)

/-- A packet is answered: it leaves, no access of its thread is in flight by it (R261), and a posted write returns its unit of allowance (R202). -/
def State.settlePacket (s : State) (p : Packet) : State :=
  let s := ({ s with outbox := s.outbox.filter fun x => x.id ≠ p.id } : State).stir fun k _ => k = p.key
  match p.kind with
  | .write _ _ _ _ =>
    if (s.thr p.key).alive then
      s.updThr p.key fun t => { t with win := t.win.put p.win { t.win.get p.win with inflight := (t.win.get p.win).inflight - 1 } }
    else s
  | _ => s

/-- A unit or an entry of a thread waits for the reply to a packet. -/
def Thread.awaits (t : Thread) (id : Nat) : Bool :=
  decide (t.sqPkt.map (·.1) = some id) || t.rdPkts.any (fun p => p.2.1 = id) ||
    engs.any fun e => (t.queue e).entries.any fun q => q.pkts.contains id || q.asked.any fun a => a.2 = id

/-- A line that a prefetch has asked for arrives: it is kept when there is room for it, a clean line giving way (R184, R198). -/
def State.fillPref (s : State) (key k : Nat) (r : Reply) : State :=
  let core := (s.thr key).core
  let s := if s.lineCount core < 4096 then s else match (s.linesOn core).find? fun x => x.2.2.dirty = 0#64 with
    | some x => s.updThr x.1 fun t => { t with lines := t.lines.erase x.2.1 }
    | none => s
  if r.poison || decide (4096 ≤ s.lineCount core) then s else s.updThr key fun t => t.fillLine k r.data

/-- The answer of a packet reaches its thread. -/
def State.replyTo (s : State) (p : Packet) (r : Reply) : State :=
  let t := s.thr p.key
  if !t.alive then s
  else if t.prefs.contains p.id then
    (s.updThr p.key fun t => { t with prefs := t.prefs.filter (· ≠ p.id) }).fillPref p.key p.lineKey r
  else if t.awaits p.id then s.updThr p.key fun t => { t with replies := t.replies.put p.id r }
  else s

/-- A command that waited completes with an ERR (R342). -/
def State.endCommand (s : State) (op cid err : Nat) : State :=
  let close := fun (f : Nat × Func) =>
    if f.2.pend = some (op, cid) then (f.1, { f.2 with pend := none, cmdStatus := BitVec.ofNat 64 (err * 256) }) else f
  { s with funcs := s.funcs.map close }

/-- A granule of PAGE_PUSH has been answered (R416): a granule that the destination's tree does not map writable ends the
command with RANGE; the last one acknowledged completes it. -/
def State.pageAnswered (s : State) (key : Nat) (ok : Bool) : State :=
  let cid := key - 4 * passBase
  let page := fun (p : Packet) => decide (p.key = key) && (match p.kind with | .page _ _ _ => true | _ => false)
  if !ok then { s with outbox := s.outbox.filter fun p => !page p }.endCommand 0x11 cid 2
  else if s.outbox.any page then s
  else s.endCommand 0x11 cid 0

/-- MIG_KEY has been answered (R418): the command completes, with STATE when the destination has refused; a context that this MIG_KEY had made HANDED
is so no longer then (DESIGN CHOICE: assumption log entry 35). -/
def State.migAnswered (s : State) (cid : Nat) (ok : Bool) : State :=
  (s.endCommand 0x10 cid (if ok then 0 else 3)).updCtx cid fun c =>
    let c := if c.handing && !ok then { c with desc := c.desc.put 14 (c.word 112 &&& ~~~2#64), reserved := none } else c
    { c with handing := false }

/-- The answer to a packet of this package: its acknowledgement, data or reply, or that the block read is POISON (R72, R202, R332). -/
def State.answered (s : State) (key id : Nat) (reply : BitVec 512) (poison : Bool) : State :=
  match s.packet key id with
  | none => s
  | some p =>
    let s := s.settlePacket p
    match p.kind with
    | .keyTransfer _ _ _ _ => s.migAnswered (key - 4 * passBase) (reply.getLsbD 0)
    | .page _ _ _ => s.pageAnswered key (reply.getLsbD 0)
    | _ => s.replyTo p { data := reply, poison := poison, acq := p.got }

/-- ACKNOWLEDGEMENT (R202, R332): the acknowledgement, data or reply of a packet of this package. A POISON answer is a turn of its own. -/
def execAcknowledgement (key : Nat) (id : Nat) (reply : BitVec 512) (s : State) : Out := .next (s.answered key id reply false)

/-- RETRY (R333): the packet keeps its sequence number and its allowance, and may be sent again after 256 ticks. -/
def execRetry (key : Nat) (id : Nat) (s : State) : Out :=
  let f := fun (p : Packet) =>
    if decide (p.key = key) && decide (p.id = id) && decide (p.retry = 0) then { p with retry := s.tick + 256 } else p
  .next { s with outbox := s.outbox.map f }

/-- RETRY_RESEND (R333): at least 256 ticks later the same packet is sent again. -/
def execRetryResend (key : Nat) (id : Nat) (s : State) : Out :=
  let f := fun (p : Packet) =>
    if decide (p.key = key) && decide (p.id = id) && decide (p.retry ≠ 0) && decide (p.retry ≤ s.tick) then { p with retry := 0 } else p
  .next { s with outbox := s.outbox.map f }

/-- ENDPOINT_GONE (R202): the unit of allowance returns, and FABRIC is raised against the sending thread. -/
def execEndpointGone (key : Nat) (id : Nat) (s : State) : Out :=
  match s.packet key id with
  | none => .next s
  | some p =>
    let s := s.settlePacket p
    match p.kind with
    | .keyTransfer _ _ _ _ => .next (s.migAnswered (key - 4 * passBase) false)
    | .page _ _ _ => .next (s.pageAnswered key false)
    | _ =>
      if (s.thr key).alive then
        let tr := { mkTrap 0x14 0 (p.win % 16) with cls := 2#2, unit := 7#3, endpoint := p.ep }
        .next (s.report key { t := tr, watch := none, source := 0, verId := 0 })
      else .next s

/-- LINE_EVICTION (R184): a dirty line is written back before it goes, and waits for its unit of allowance. -/
def execLineEviction (key : Nat) (w : Nat) (line : Nat) (s : State) : Out :=
  let k := lineKey w line
  if !((s.thr key).alive && (s.thr key).lines.has k) then .next s
  else
    match (do
        writeBackLine key k
        dropLines key fun x => x = k : M Unit) s with
    | .ok ((), s') => .next s'
    | .error (.wait _ s') => .next s'
    | .error _ => .next s

end Sys2Proof.Machine
end

