-- ==== Sys2Proof/Machine/Gcm.lean ====
section
/-! DEFINITION. AES-256-GCM, under which kegs are sealed (R406). -/

namespace Sys2Proof.Machine

/-- Multiplication by x in the field of AES. -/
def xtime (a : Nat) : Nat := if a < 128 then 2 * a else (2 * a) ^^^ 0x11B

/-- The product in the field of AES, over the low bits of the second factor. -/
def gmul (a : Nat) : Nat → Nat → Nat
  | 0, _ => 0
  | n + 1, b => (if b % 2 = 1 then a else 0) ^^^ gmul (xtime a) n (b / 2)

/-- The square in the field of AES. -/
def gsq (a : Nat) : Nat := gmul a 8 a

/-- The inverse in the field of AES, with 0 for 0: the power 254. -/
def ginv (a : Nat) : Nat :=
  let p2 := gsq a
  let p4 := gsq p2
  let p8 := gsq p4
  let p16 := gsq p8
  let p32 := gsq p16
  let p64 := gsq p32
  let p128 := gsq p64
  [p4, p8, p16, p32, p64, p128].foldl (fun r p => gmul r 8 p) p2

/-- A byte rotated to the left. -/
def rotl8 (a n : Nat) : Nat := (a * 2 ^ n % 256) ||| (a / 2 ^ (8 - n))

/-- The substitution of AES. -/
def sboxOf (a : Nat) : Nat :=
  let b := ginv a
  b ^^^ rotl8 b 1 ^^^ rotl8 b 2 ^^^ rotl8 b 3 ^^^ rotl8 b 4 ^^^ 0x63

/-- The substitution table. -/
def sbox : List Nat := (countFrom 0 256).map sboxOf

/-- A byte substituted. -/
def subByte (a : Nat) : Nat := (sbox[a]?).getD 0

/-- Two byte lists added. -/
def xorL (a b : List Nat) : List Nat := (a.zip b).map fun p => p.1 ^^^ p.2

/-- The key schedule: each word of four bytes from those before it, newest first (60 words for a 256-bit key). -/
def expandKey : Nat → Nat → Nat → List (List Nat) → List (List Nat)
  | 0, _, _, ws => ws.reverse
  | n + 1, i, rcon, ws =>
    let prev := ws.headD []
    let old := (ws[7]?).getD []
    if i % 8 = 0 then
      let r := ((prev.drop 1) ++ prev.take 1).map subByte
      let w := xorL old (xorL r [rcon, 0, 0, 0])
      expandKey n (i + 1) (xtime rcon) (w :: ws)
    else if i % 8 = 4 then expandKey n (i + 1) rcon (xorL old (prev.map subByte) :: ws)
    else expandKey n (i + 1) rcon (xorL old prev :: ws)

/-- The round keys of a key of 32 bytes, 16 bytes each. -/
def roundKeys (key : List Nat) : List (List Nat) :=
  chunks 16 15 (expandKey 52 8 1 (chunks 4 8 key).reverse).flatten

/-- The rows of the state shifted: byte i of the result is byte 5 i mod 16 of the state. -/
def shiftRows (s : List Nat) : List Nat := (countFrom 0 16).map fun i => (s[5 * i % 16]?).getD 0

/-- The product of two field elements. -/
def gm (a b : Nat) : Nat := gmul a 8 b

/-- One column mixed. -/
def mixColumn : List Nat → List Nat
  | [a, b, c, d] =>
    [gm a 2 ^^^ gm b 3 ^^^ c ^^^ d, a ^^^ gm b 2 ^^^ gm c 3 ^^^ d, a ^^^ b ^^^ gm c 2 ^^^ gm d 3, gm a 3 ^^^ b ^^^ c ^^^ gm d 2]
  | l => l

/-- The rounds of AES after the first key. -/
def aesRounds : List (List Nat) → List Nat → List Nat
  | [], s => s
  | [k], s => xorL (shiftRows (s.map subByte)) k
  | k :: r, s => aesRounds r (xorL ((chunks 4 4 (shiftRows (s.map subByte))).flatMap mixColumn) k)

/-- AES on one block. -/
def aesBlock (ks : List (List Nat)) (b : List Nat) : List Nat := aesRounds (ks.drop 1) (xorL b (ks.headD []))

/-- A number's n bytes, the highest first. -/
def natBE : Nat → Nat → List Nat
  | 0, _ => []
  | n + 1, v => natBE n (v / 256) ++ [v % 256]

/-- The number whose bytes, the highest first, are given. -/
def beNat (l : List Nat) : Nat := l.foldl (fun n b => n * 256 + b) 0

/-- The product in the field of GCM: the bits of the first factor from the highest down. -/
def ghashMul : Nat → Nat → Nat → Nat → Nat
  | 0, _, _, z => z
  | n + 1, x, v, z =>
    let z := if x / 2 ^ n % 2 = 1 then z ^^^ v else z
    ghashMul n x (if v % 2 = 1 then (v / 2) ^^^ (0xE1 * 2 ^ 120) else v / 2) z

/-- GHASH over blocks of 16 bytes. -/
def ghash (h : Nat) (blocks : List (List Nat)) : Nat :=
  blocks.foldl (fun y b => ghashMul 128 (y ^^^ beNat (fitTo 16 0 b)) h 0) 0

/-- Counter mode from a counter value on. -/
def gcmCtr (ks : List (List Nat)) (iv : List Nat) : List (List Nat) → Nat → List Nat
  | [], _ => []
  | b :: r, c => xorL b (aesBlock ks (iv ++ natBE 4 c)) ++ gcmCtr ks iv r (c + 1)

/-- The blocks of a byte list. -/
def blocks16 (l : List Nat) : List (List Nat) := chunks 16 (l.length / 16 + 1) l

/-- The tag of a ciphertext with its associated data. -/
def gcmTag (ks : List (List Nat)) (iv aad c : List Nat) : List Nat :=
  let h := beNat (aesBlock ks (List.replicate 16 0))
  let s := ghash h (blocks16 aad ++ blocks16 c ++ [natBE 8 (8 * aad.length) ++ natBE 8 (8 * c.length)])
  xorL (natBE 16 s) (aesBlock ks (iv ++ natBE 4 1))

/-- The numbers of bytes. -/
def byteNats (l : List Byte) : List Nat := l.map (·.toNat)

/-- The bytes of numbers. -/
def natBytes (l : List Nat) : List Byte := l.map (BitVec.ofNat 8)

/-- The bytes of a 256-bit key, its lowest byte first. -/
def keyBytes (k : BitVec 256) : List Nat := byteNats (natLE 32 k.toNat)

/-- Seals a plaintext: the ciphertext and the tag (R406). -/
def gcmSeal (key : BitVec 256) (iv aad p : List Byte) : List Byte × List Byte :=
  let ks := roundKeys (keyBytes key)
  let c := gcmCtr ks (byteNats iv) (blocks16 (byteNats p)) 2
  (natBytes c, natBytes (gcmTag ks (byteNats iv) (byteNats aad) c))

/-- Opens a ciphertext, when its tag passes (R406, R412). -/
def gcmOpen (key : BitVec 256) (iv aad c tag : List Byte) : Option (List Byte) :=
  let ks := roundKeys (keyBytes key)
  if natBytes (gcmTag ks (byteNats iv) (byteNats aad) (byteNats c)) = tag then
    some (natBytes (gcmCtr ks (byteNats iv) (blocks16 (byteNats c)) 2))
  else none

end Sys2Proof.Machine
end

