-- ==== Sys2Proof/Machine/KegFormat.lean ====
section
/-! DEFINITION. The bytes of a keg's items, written and read: the register frame of R46 and R410, thread records (R408), saved
queue entries (R409), slots, groups and tasks (R405, R436). -/

namespace Sys2Proof.Machine

/-- Zero bytes. -/
def zeros (n : Nat) : List Byte := List.replicate n 0#8

/-- A taint mask with its saturation bit, as frames hold them. -/
def taintBits (t : BitVec 16) (sat : Bool) : Nat := t.toNat + if sat then 65536 else 0

/-- The taint of frame bits. -/
def taintOf (n : Nat) : BitVec 16 := BitVec.ofNat 16 n

/-- The saturation bit of frame bits. -/
def satOf (n : Nat) : Bool := fld n 16 1 = 1

/-! ## The register frame (R46, R410) -/

/-- The entry of a register in a slot (R42, R46); a slot that holds no live entry is carried as it stands, with what was last popped from it
(R437). -/
def VReg.atSlot (r : VReg) (e : Nat) : VEntry := (r.fifo[(e + 4 - r.head % 4) % 4]?).getD (r.rest.get (e % 4))

/-- The bytes of an entry's data. -/
def VEntry.bytes (e : VEntry) : List Byte := natLE 512 e.data.toNat

/-- The metadata of an entry. -/
def VEntry.meta_ (e : VEntry) : List Byte := natLE 4 (taintBits e.taint e.sat) ++ natLE 4 e.owner.toNat

/-- A binding's number. -/
def BindKind.code : BindKind → Nat
  | .free => 0
  | .input => 1
  | .output => 2

/-- The binding of a number. -/
def bindOf : Nat → BindKind
  | 1 => .input
  | 2 => .output
  | _ => .free

/-- The 32 bytes of a register's stream binding (R46); their layout is the model's (PRESUMED, assumption log entry 31). -/
def VReg.streamBytes (r : VReg) : List Byte :=
  let st := r.strm
  natLE 8 (st.descVa.toNat + r.kind.code + (if st.active then 4 else 0) + (if st.out then 8 else 0)) ++ natLE 8 st.pos ++ zeros 8 ++
    natLE 8 (st.pc + st.slot * 32768)

/-- The register as its binding bytes leave it. -/
def VReg.bound (r : VReg) (l : List Byte) (ver : Nat) : VReg :=
  let w := bfld l 0 8
  let p := bfld l 24 8
  let st : Stream :=
    { (default : Stream) with
      active := fld w 2 1 = 1, out := fld w 3 1 = 1, descVa := BitVec.ofNat 64 (w / 64 * 64), pos := bfld l 8 8
      ver := if fld w 2 1 = 1 then ver else 0, pc := p % 32768, slot := p / 32768 }
  { r with kind := bindOf (fld w 0 2), strm := st }

/-- A phase's number. -/
def Phase.code : Phase → Nat
  | .prologue => 0
  | .kernel => 1
  | .epilogue => 2

/-- The phase of a number. -/
def phaseOf : Nat → Phase
  | 1 => .kernel
  | 2 => .epilogue
  | _ => .prologue

/-- A packed list of small numbers, the first lowest. -/
def packFields (bits : Nat) (l : List Nat) : Nat := (l.zip (countFrom 0 l.length)).foldl (fun n e => n + e.1 * 2 ^ (bits * e.2)) 0

/-- The state block (R410). A thread that stands at step 6 of a task boundary has the successor's address for its record, and
bit 1 of +75 set (DEDUCED, assumption log entry 32). -/
def Frame.stateBlock (f : Frame) : List Byte :=
  let vs := (countFrom 0 64).map fun v => f.v.get v
  natLE 4 f.vtype.toNat ++ natLE 4 (taintBits f.ctaint f.csat) ++ natLE 8 f.vstat.toNat ++
    ((countFrom 0 8).flatMap fun k => natLE 4 (taintBits (f.k.get k).taint (f.k.get k).sat)) ++
    natLE 8 (f.pc % 32768 + f.task.slot % 1024 * 32768) ++ natLE 8 f.iter.toNat ++ natLE 8 (f.bnd.getD f.task.addr).toNat ++
    natLE 2 (match f.gsel with | some g => g.toNat | none => 0x3FF) ++ natLE 1 f.phase.code ++
    natLE 1 ((if f.epiTaken then 1 else 0) + (if f.bnd.isSome then 2 else 0)) ++ zeros 4 ++
    natLE 24 (packFields 3 (vs.map fun r => r.fifo.length)) ++ natLE 16 (packFields 2 (vs.map fun r => r.head % 4)) ++ zeros 8

/-- The 139,264 bytes of a frame, with the flags of the selected group (R46). The 64 bytes of k0, whose content R46 does not give, are zero (DESIGN
CHOICE: assumption log entry 31). -/
def Frame.bytes (f : Frame) (group : NMap W32) : List Byte :=
  let vs := (countFrom 0 64).map fun v => f.v.get v
  (vs.flatMap fun r => (countFrom 0 4).flatMap fun e => (r.atSlot e).bytes) ++
    (vs.flatMap fun r => (countFrom 0 4).flatMap fun e => (r.atSlot e).meta_) ++
    ((countFrom 0 32).flatMap fun i => natLE 8 (f.x.get i).val.toNat ++ natLE 8 (taintBits (f.x.get i).taint (f.x.get i).sat)) ++
    ((countFrom 0 8).flatMap fun k => natLE 64 (f.k.get k).val.toNat) ++
    ((countFrom 0 256).flatMap fun i => natLE 4 (if i < 192 then f.f.get i else group.get (i - 192)).toNat) ++
    ((countFrom 0 16).flatMap fun i => natLE 8 (f.b.get i).toNat) ++ f.stateBlock ++ (vs.flatMap VReg.streamBytes) ++ zeros 1792

/-- A vector register from the bytes of a frame. -/
def readVReg (l : List Byte) (ver v : Nat) : VReg :=
  let occ := fld (bfld l (0x21080 + 80) 24) (3 * v) 3
  let head := fld (bfld l (0x21080 + 104) 16) (2 * v) 2
  let entry := fun i =>
    let e := 4 * v + (head + i) % 4
    let m := 0x20000 + 8 * e
    ({ data := BitVec.ofNat 4096 (bfld l (512 * e) 512), taint := taintOf (bfld l m 4), sat := satOf (bfld l m 4)
       owner := BitVec.ofNat 32 (bfld l (m + 4) 4) } : VEntry)
  let rest : NMap VEntry := (countFrom occ (4 - occ)).foldl (fun m i => m.set ((head + i) % 4) { entry i with taint := 0#16, sat := false }) []
  ({ (default : VReg) with fifo := (countFrom 0 occ).map entry, head := head, rest := rest }).bound ((l.drop (0x21100 + 32 * v)).take 32) ver

/-- A field of zero bytes (R6). -/
def zeroAt (l : List Byte) (p : Nat × Nat) : Bool := bfld l p.1 p.2 = 0

/-- Every byte and bit of a frame that R46 and R410 do not name is zero (R6). -/
def frameOk (l : List Byte) : Bool :=
  let st := 0x21080
  let below := fun (bits off n : Nat) => decide (bfld l off n < 2 ^ bits)
  (countFrom 0 256).all (fun e => below 17 (0x20000 + 8 * e) 4) &&
    (countFrom 0 32).all (fun i => below 17 (0x20808 + 16 * i) 8) &&
    below 17 (st + 4) 4 && (countFrom 0 8).all (fun k => below 17 (st + 16 + 4 * k) 4) &&
    below 25 (st + 48) 8 && below 10 (st + 72) 2 && below 2 (st + 75) 1 &&
    [(st + 76, 4), (st + 120, 8), (0x21900, 1792)].all (zeroAt l)

/-- A frame from its bytes (R46, R410). Its loop record has still to be read. -/
def readFrame (l : List Byte) (ver : Nat) : Frame :=
  let st := 0x21080
  let at_ := bfld l (st + 48) 8
  let rec_ := BitVec.ofNat 64 (bfld l (st + 64) 8)
  let g := bfld l (st + 72) 2
  let fl := bfld l (st + 75) 1
  { x := (countFrom 1 31).foldl (fun m i =>
      m.set i { val := BitVec.ofNat 64 (bfld l (0x20800 + 16 * i) 8), taint := taintOf (bfld l (0x20808 + 16 * i) 4)
                sat := satOf (bfld l (0x20808 + 16 * i) 4) }) []
    v := (countFrom 0 64).foldl (fun m v => m.set v (readVReg l ver v)) []
    k := (countFrom 1 7).foldl (fun m k =>
      m.set k { val := BitVec.ofNat 512 (bfld l (0x20A00 + 64 * k) 64), taint := taintOf (bfld l (st + 16 + 4 * k) 4)
                sat := satOf (bfld l (st + 16 + 4 * k) 4), owner := 0#32 }) []
    f := (countFrom 1 191).foldl (fun m i => m.set i (BitVec.ofNat 32 (bfld l (0x20C00 + 4 * i) 4))) []
    b := (countFrom 0 16).foldl (fun m i => m.set i (BitVec.ofNat 64 (bfld l (0x21000 + 8 * i) 8))) []
    vtype := BitVec.ofNat 32 (bfld l st 4) &&& 0x1FFF#32
    vstat := BitVec.ofNat 64 (bfld l (st + 8) 8) &&& 0x7F#64
    ctaint := taintOf (bfld l (st + 4) 4)
    csat := satOf (bfld l (st + 4) 4)
    gsel := if g < 256 then some (BitVec.ofNat 8 g) else none
    pc := at_ % 32768
    phase := phaseOf (bfld l (st + 74) 1)
    iter := BitVec.ofNat 64 (bfld l (st + 56) 8)
    task := { (default : Rec) with addr := rec_, slot := at_ / 32768 % 1024 }
    epiTaken := fld fl 0 1 = 1
    bnd := if fld fl 1 1 = 1 then some rec_ else none }

/-! ## Saved queue entries (R409) -/

/-- The flag field of an entry's word. -/
def flagField : Instr → Option (BitVec 8)
  | .vlwait f _ => some f
  | .vlset f _ => some f
  | .vswait f _ => some f
  | .vsset f _ => some f
  | .vawait f _ => some f
  | .vaset f _ => some f
  | .mxwait f _ => some f
  | .mxset f _ => some f
  | .cpwait f _ => some f
  | .cpset f _ => some f
  | .cpl _ _ _ f => some f
  | .cpt _ _ _ f => some f
  | .cpg _ _ _ f => some f
  | .cps _ _ _ f => some f
  | .cpstg _ _ _ _ f => some f
  | .cpred _ _ _ _ f => some f
  | .cpfill _ _ _ _ f => some f
  | .cptag _ _ _ _ f => some f
  | .cpconv _ _ _ f => some f
  | .cpsig _ _ f => some f
  | _ => none

/-- The destination bytes of a copy in all, as far as its operands and its descriptor tell (R214 to R222). -/
def QEntry.copyTotal (q : QEntry) : Nat :=
  let n := (q.op 2).val.toNat
  let w := fun (i : Nat) => (q.dwords[i]?).getD 0
  let rows := wfld (w 0) 0 32 * wfld (w 0) 32 32
  match q.word with
  | .cpt _ _ _ _ => wfld (w 3) 0 16 * rows
  | .cpg _ _ _ _ => rows
  | .cps _ _ _ _ => rows
  | .cptag _ _ _ strm _ => 64 * if strm then (w 0).toNat else wfld (q.op 2).val 32 32
  | .cpconv _ _ _ _ => match Ty.ofCode? (wfld (q.op 2).val 36 4) with | some dt => wfld (q.op 2).val 0 32 * dt.width / 8 | none => 0
  | _ => n

/-- PROGRESS of an entry (R409): of a copy, destination bytes performed; else rows or slots completed. -/
def QEntry.done (q : QEntry) (e : Eng) : Nat := if e = .cp then Nat.min (4096 * q.progress) q.copyTotal else q.progress

/-- The 64 bytes of a saved entry (R409). -/
def QEntry.bytes (q : QEntry) (e : Eng) : List Byte :=
  let grp := match flagField q.word with
    | some f => if 192 ≤ f.toNat then (q.group.map (·.toNat)).getD 0xFFFF else 0xFFFF
    | none => 0xFFFF
  natLE 4 ((encode q.word).getD 0) ++ natLE 2 grp ++ natLE 2 (if q.progress = 0 && !q.started then 0 else 1) ++ natLE 8 (q.op 0).val.toNat ++
    natLE 8 (q.op 1).val.toNat ++ natLE 8 (q.op 2).val.toNat ++ natLE 8 (q.done e) ++ zeros 24

/-- An entry from its bytes; none when its word does not decode (R409). A CPSIG that has begun has signalled, and only completes (R403). DESIGN
CHOICE: assumption log entry 30. -/
def readEntry (l : List Byte) (e : Eng) (num pc slot ver : Nat) (gsel : Option (BitVec 8)) : Option QEntry :=
  match decodeWord (bfld l 0 4) with
  | .error _ => none
  | .ok w =>
    let g := bfld l 4 2
    let unit := if e = .cp then 4096 else 1
    let reg := fun o => ({ val := BitVec.ofNat 64 (bfld l o 8), taint := 0#16, sat := false } : XReg)
    some { (default : QEntry) with
           word := w, num := num, pc := pc, slot := slot, ops := [reg 8, reg 16, reg 24]
           group := if g < 256 then some (BitVec.ofNat 8 g) else gsel, ver := ver, progress := (bfld l 32 8 + unit - 1) / unit
           started := decide (e = .cp) && bfld l 6 2 = 1 }

/-! ## Thread records (R408) -/

/-- A trap record of a held report (R374, R408). -/
def Held.bytes (h : Held) (num : Nat) : List Byte :=
  let t := h.t
  let pub := match h.gone with | some g => if g.2 then 32 else 0 | none => 0
  let task := match h.gone with | some g => g.1.toNat | none => 0
  natLE 1 t.cause.toNat ++ natLE 1 (t.cls.toNat + t.unit.toNat * 4 + pub) ++ natLE 2 num ++ natLE 4 t.ver.toNat ++ natLE 8 t.pc.toNat ++
    natLE 8 t.addr.toNat ++ natLE 8 t.info.toNat ++ zeros 16 ++ natLE 8 task ++ natLE 4 t.endpoint.toNat ++ natLE 1 t.srcRank.toNat ++ zeros 3

/-- A held report from its record; none when it is all zero. One that names a task is of a version discarded before. -/
def readHeld (l : List Byte) : Option Held :=
  if bfld l 0 1 = 0 then none
  else
    let t : Trap :=
      { cause := BitVec.ofNat 8 (bfld l 0 1), cls := BitVec.ofNat 2 (bfld l 1 1), unit := BitVec.ofNat 3 (bfld l 1 1 / 4)
        addr := BitVec.ofNat 64 (bfld l 16 8), info := BitVec.ofNat 64 (bfld l 24 8), pc := BitVec.ofNat 64 (bfld l 8 8)
        ver := BitVec.ofNat 20 (bfld l 4 4), endpoint := BitVec.ofNat 32 (bfld l 56 4), srcRank := BitVec.ofNat 8 (bfld l 60 1) }
    let watch := t.cause = 15#8
    some { t := t, watch := if watch then some (wfld t.info 0 2) else none, source := if watch then wfld t.info 4 4 else 0
           verId := t.ver.toNat
           gone := if bfld l 48 8 = 0 then none else some (BitVec.ofNat 64 (bfld l 48 8), fld (bfld l 1 1) 5 1 = 1) }

/-- The number of a thread's state (R408). DEDUCED: assumption log entry 50. -/
def Thread.stateCode (t : Thread) : Nat :=
  match t.run with
  | .parkedPage _ => 1
  | .parkedWait => 2
  | .trapped => if t.toDbg && isStop t.trap.cause.toNat then 4 else 3
  | _ => 0

/-- The bits of the numbers below 256 that a test accepts. -/
def bits256 (p : Nat → Bool) : Nat := (countFrom 0 256).foldl (fun n i => if p i then n + 2 ^ i else n) 0

/-- The 1,024 bytes of a thread record (R408). -/
def Thread.recordBytes (t : Thread) (c : Ctx) (gang : Nat) : List Byte :=
  let isMember := fun g => (c.groups.get g).members.has t.num
  let arrived := fun g => (c.groups.get g).members.get t.num
  let body :=
    natLE 2 t.num ++ natLE 1 t.gangSize ++ natLE 1 (t.rank.getD 0xFF) ++ natLE 2 gang ++ natLE 1 t.stateCode ++ natLE 1 t.priv ++
      natLE 1 t.scratchG ++ zeros 3 ++ natLE 4 t.qdepth.toNat ++
      (engs.flatMap fun e => natLE 2 (t.queue e).entries.length) ++ zeros 6 ++ (engs.flatMap fun e => natLE 8 (t.queue e).pushed) ++
      ([0x10, 0x11, 0x12, 0x13, 0x14, 0x15, 0x16, 0x17, 0x18].flatMap fun n => natLE 8 (
        match n with
        | 0x10 => t.trap.cause
        | 0x11 => t.trap.addr
        | 0x12 => t.trap.cut
        | 0x13 => t.trap.info
        | 0x14 => t.trap.pc
        | 0x15 => t.trap.task
        | 0x16 => t.trap.iter
        | 0x17 => t.trap.state
        | _ => t.trap.ver).toNat) ++
      ((countFrom 0 16).flatMap fun w => natLE 8 (t.win.get w).target.toNat) ++
      ((countFrom 0 16).flatMap fun w => natLE 8 (t.win.get w).limit.toNat) ++
      natLE 8 (packFields 1 ((countFrom 0 64).map fun f => if (t.flows.get f).unordered then 1 else 0)) ++
      ((countFrom 0 16).flatMap fun w => natLE 1 (if t.winFlow.has w then t.winFlow.get w else w)) ++
      natLE 32 (bits256 isMember) ++ natLE 32 (bits256 arrived) ++
      ((countFrom 0 4).flatMap fun n => natLE 8 (t.wp.get n).base.toNat ++ natLE 8 (t.wp.get n).ctl.toNat) ++
      fitTo 256 0#8 ((t.reports.take 4).flatMap fun h => h.bytes t.num) ++
      natLE 8 ((if t.stepOn then 1 else 0) + (if t.toDbg then 2 else 0))
  fitTo 1024 0#8 body

/-- A record of a held report has zero in every bit that R370 and R374 do not name, and an unused one is all zero (R6, R408). -/
def heldOk (l : List Byte) : Bool :=
  zeroAt l (61, 3) && decide (bfld l 4 4 < 1048576) && decide (bfld l 8 8 < 33554432) && (bfld l 0 1 ≠ 0 || zeroAt l (0, 64))

/-- Every byte and bit of a thread record and its frame that R408 to R410 do not name is zero (R6). -/
def threadOk (l : List Byte) : Bool :=
  [(9, 3), (26, 6), (816, 208)].all (zeroAt l) && decide (bfld l 808 8 < 4) &&
    (countFrom 0 16).all (fun w => decide (bfld l (272 + 8 * w) 8 < 1024) && decide (bfld l (408 + w) 1 < 64)) &&
    (countFrom 0 4).all (fun n => heldOk ((l.drop (552 + 64 * n)).take 64)) && frameOk (l.drop 1024)

/-- Every byte and bit of a saved entry that R409 does not name is zero (R6). -/
def entriesOk (l : List Byte) : Bool := (countFrom 0 (l.length / 64)).all fun i => zeroAt l (64 * i + 40, 24) && decide (bfld l (64 * i + 6) 2 < 2)

/-- The engine of a place in the order of the queues. -/
def engAt (i : Nat) : Eng := (engs[i]?).getD .vl

/-- The trap registers of a thread record, without their reserved bits (R6, R370, R371). -/
def readTrapRegs (l : List Byte) : TrapRegs :=
  let reg := fun (i bits : Nat) => BitVec.ofNat 64 (bfld l (72 + 8 * i) 8 % 2 ^ bits)
  { cause := reg 0 8, addr := reg 1 64, cut := reg 2 60, info := reg 3 64, pc := reg 4 25, task := reg 5 64, iter := reg 6 64
    state := reg 7 64 &&& 0xFFFFFFFF0000FFFF#64, ver := reg 8 20 }

/-- A thread from its record and frame (R408): its queues are filled and its scratch and slots bound afterwards. One saved as it stood at a
breakpoint issues the word there without matching it again (R423). -/
def readThread (cid ver gang : Nat) (rec_ frame : List Byte) : Thread :=
  let f := readFrame frame ver
  let w := fun o => BitVec.ofNat 64 (bfld rec_ o 8)
  let rank := bfld rec_ 3 1
  let st := bfld rec_ 6 1
  let modes := bfld rec_ 400 8
  let dbg := bfld rec_ 808 8
  { (default : Thread) with
    alive := true, cid := cid, num := bfld rec_ 0 2, rank := if rank = 0xFF then none else some rank, gangSize := bfld rec_ 2 1
    gang := gang, priv := bfld rec_ 7 1, run := if st = 3 || st = 4 then .trapped else .waiting, reload := true
    scratchG := bfld rec_ 8 1, qdepth := BitVec.ofNat 20 (bfld rec_ 12 4), live := f, committed := f
    queues := (countFrom 0 5).foldl (fun m i => m.put (engAt i).code { entries := [], pushed := bfld rec_ (32 + 8 * i) 8 }) []
    trap := readTrapRegs rec_
    win := (countFrom 0 16).foldl (fun m n =>
      m.set n { target := w (144 + 8 * n) &&& 0x8000FFFFFFFFFFFF#64, limit := BitVec.ofNat 10 (bfld rec_ (272 + 8 * n) 8), inflight := 0 }) []
    flows := (countFrom 0 64).foldl (fun m n => m.set n { (default : Flow) with unordered := fld modes n 1 = 1 }) []
    winFlow := (countFrom 0 16).foldl (fun m n => if bfld rec_ (408 + n) 1 = n then m else m.put n (bfld rec_ (408 + n) 1)) []
    wp := (countFrom 0 4).foldl (fun m n => m.set n { base := w (488 + 16 * n), ctl := w (496 + 16 * n) &&& 0x8000FFFFFFFF3FFF#64 }) []
    reports := (countFrom 0 4).filterMap fun n => readHeld ((rec_.drop (552 + 64 * n)).take 64)
    stepOn := fld dbg 0 1 = 1, toDbg := fld dbg 1 1 = 1, resumePast := (st = 3 || st = 4) && bfld rec_ 72 1 = 17
    versions := [freshVersion ver f.task], serial := 1 }

/-! ## Memories (R405) -/

/-- Bytes of a memory followed by one tag for each block. -/
def Memory.extent (m : Memory) (a n : Nat) : List Byte :=
  m.bytes a n ++ (countFrom 0 (n / 64)).flatMap fun i => natLE 4 (m.tag (a + 64 * i)).toNat

/-- The memory with an extent's bytes and tags written. -/
def Memory.setExtent (m : Memory) (a n : Nat) (l : List Byte) : Memory :=
  (countFrom 0 (n / 64)).foldl (fun (m : Memory) i => m.setTag (a + 64 * i) (BitVec.ofNat 32 (bfld l (n + 4 * i) 4)))
    (m.setBytes a (l.take n))

/-- The bytes of a row of a CB slot's owner and status. -/
def Slot.rowState (s : Slot) (r : Nat) : List Byte := natLE 4 (s.owner.get r).toNat ++ natLE 4 (s.status.get r).toNat

/-- The payload of a SLOT item (R405). -/
def Slot.bytes (s : Slot) (m h : Nat) (promised : Bool) : List Byte :=
  let head := natLE 8 (m + h * 256 + (if promised then 65536 else 0) + s.fill * 4294967296) ++ zeros 56
  match m with
  | 0 => head ++ s.mem.extent 0 32768
  | 1 =>
    head ++ s.mem.bytes 0 65536 ++ (countFrom 0 256).flatMap fun r =>
      ((countFrom 0 4).flatMap fun i => natLE 4 (s.mem.tag (256 * r + 64 * i)).toNat) ++ natLE 4 (s.owner.get r).toNat
  | _ => head ++ s.mem.bytes 0 131072 ++ (countFrom 0 256).flatMap s.rowState

/-- The length of a SLOT item (R405). -/
def slotItemLen : Nat → Nat
  | 0 => 34880
  | 1 => 70720
  | _ => 133184

/-- A slot from the payload of its item, after the 64 bytes of its head. -/
def readSlot (m fill : Nat) (l : List Byte) : Slot :=
  let d : Slot := default
  match m with
  | 0 => { d with mem := (default : Memory).setExtent 0 32768 l, fill := fill }
  | 1 =>
    let mem := (countFrom 0 256).foldl (fun (mm : Memory) r =>
      (countFrom 0 4).foldl (fun (mm : Memory) i => mm.setTag (256 * r + 64 * i) (BitVec.ofNat 32 (bfld l (65536 + 20 * r + 4 * i) 4))) mm)
      ((default : Memory).setBytes 0 (l.take 65536))
    { d with
      mem := mem, fill := fill
      owner := (countFrom 0 256).foldl (fun o r => o.set r (BitVec.ofNat 32 (bfld l (65536 + 20 * r + 16) 4))) [] }
  | _ =>
    { d with
      mem := (default : Memory).setBytes 0 (l.take 131072), fill := fill
      owner := (countFrom 0 256).foldl (fun o r => o.set r (BitVec.ofNat 32 (bfld l (131072 + 8 * r) 4))) []
      status := (countFrom 0 256).foldl (fun o r => o.set r (BitVec.ofNat 8 (bfld l (131076 + 8 * r) 4))) [] }

/-- Every byte and bit of a SLOT item that R125 and R405 do not name is zero (R6): those of its head, and of the status of CB rows. -/
def slotHeadOk (l : List Byte) : Bool :=
  decide (bfld l 2 2 < 2) && zeroAt l (8, 56) &&
    (bfld l 0 1 ≠ 2 || (countFrom 0 256).all fun r => decide (bfld l (64 + 131076 + 8 * r) 4 < 64))

/-! ## Groups and tasks (R405) -/

/-- The 288 bytes of a group (R405). -/
def Group.bytes (g : Group) : List Byte :=
  natLE 8 g.gen.toNat ++ natLE 4 (g.members.filter (·.2)).length ++ natLE 4 g.members.length ++
    ((countFrom 0 64).flatMap fun i => natLE 4 (g.flags.get i).toNat) ++ zeros 16

/-- A group from its record: its members come from the thread records. -/
def readGroup (l : List Byte) (members : NMap Bool) : Group :=
  { (default : Group) with
    members := members, gen := BitVec.ofNat 64 (bfld l 0 8)
    flags := (countFrom 0 64).foldl (fun m i => m.set i (BitVec.ofNat 32 (bfld l (16 + 4 * i) 4))) [] }

/-- The 128 bytes of a task (R264, R405), with the ticks left of its patience. -/
def TileTask.bytes (t : TileTask) : List Byte :=
  let num := match t.flag with | some f => f.number | none => 0
  let grp := match t.flag with | some f => f.groupNo | none => 0xFFFF
  let thr := match t.key with
    | some k => k % 65536
    | none => (match t.flag with | some f => if f.group then 0xFFFF else f.owner % 65536 | none => 0xFFFF)
  natLE 8 t.codehash.toNat ++ natLE 16 t.wid.toNat ++ natLE 2 t.ktile ++ natLE 2 t.ntile ++ natLE 2 t.shape ++ natLE 2 t.rows ++
    natLE 4 t.patience ++ natLE 4 num ++ natLE 8 t.src ++ natLE 8 t.dst ++ natLE 4 t.dstride ++ zeros 4 ++ natLE 1 num ++ zeros 1 ++
    natLE 2 grp ++ natLE 2 thr ++ zeros 2 ++ natLE 8 t.exp ++ zeros 48

/-- A held task from its bytes; its submitter is the thread named, when the keg has it. -/
def readTask (cid order : Nat) (has : Nat → Bool) (l : List Byte) : TileTask :=
  let num := bfld l 64 1
  let grp := bfld l 66 2
  let thr := bfld l 68 2
  let flag : Option FlagRef :=
    if num = 0 then none
    else if 192 ≤ num then (if grp < 256 then some ⟨true, cid * 256 + grp, num - 192⟩ else none)
    else if has thr then some ⟨false, cid * 65536 + thr, num⟩ else none
  { (default : TileTask) with
    cid := cid, key := if has thr then some (cid * 65536 + thr) else none, origin := if has thr then some (cid * 65536 + thr) else none, host := !has thr
    codehash := BitVec.ofNat 64 (bfld l 0 8), wid := BitVec.ofNat 128 (bfld l 8 16), ktile := bfld l 24 2, ntile := bfld l 26 2
    shape := bfld l 28 2, rows := bfld l 30 2, patience := bfld l 32 4, flag := flag, src := bfld l 40 8, dst := bfld l 48 8
    dstride := bfld l 56 4, exp := bfld l 72 8, order := order, st := .held }

/-- Every byte of the GROUPS item that R405 does not name is zero (R6). -/
def groupsOk (l : List Byte) : Bool := (countFrom 0 256).all fun g => zeroAt l (288 * g + 272, 16)

/-- Every byte of the tasks of a TASKS item that R264, R265 and R405 do not name is zero (R6). -/
def tasksOk (l : List Byte) : Bool :=
  (countFrom 0 (l.length / 128)).all fun i => [(37, 3), (60, 4), (65, 1), (70, 2), (80, 48)].all fun p => zeroAt l (128 * i + p.1, p.2)

/-! ## Items (R405) -/

/-- An item of a keg: its kind, thread and payload. -/
structure KegItem where
  kind : Nat
  thr : Nat
  data : List Byte
  deriving Repr, Inhabited

/-- The THREAD field of an item of the whole context. -/
def wholeCtx : Nat := 4294967295

/-- A payload filled up to a multiple of 64 bytes. -/
def pad64 (l : List Byte) : List Byte := l ++ zeros ((64 - l.length % 64) % 64)

/-- The bytes of an item. -/
def KegItem.bytes (i : KegItem) : List Byte :=
  let d := pad64 i.data
  natLE 2 i.kind ++ zeros 2 ++ natLE 4 i.thr ++ natLE 8 d.length ++ zeros 48 ++ d

/-- The items of a body, when their headers are well formed (R405). -/
def readItems : Nat → List Byte → Option (List KegItem)
  | 0, l => if l.isEmpty then some [] else none
  | fuel + 1, l =>
    if l.isEmpty then some []
    else
      let n := bfld l 8 8
      if l.length < 64 || bfld l 2 2 ≠ 0 || ((l.drop 16).take 48).any (· ≠ 0#8) || n % 64 ≠ 0 || l.length < 64 + n then none
      else (readItems fuel (l.drop (64 + n))).map fun r => { kind := bfld l 0 2, thr := bfld l 4 4, data := (l.drop 64).take n } :: r

/-- Items in increasing order of kind, then of thread; a thread may have several SLOT items and a context several STAGING items. -/
def itemsOrdered : List KegItem → Bool
  | a :: b :: r =>
    (decide (a.kind < b.kind) ||
      (decide (a.kind = b.kind) && (decide (a.thr < b.thr) || (decide (a.thr = b.thr) && (a.kind = 5 || a.kind = 6))))) && itemsOrdered (b :: r)
  | _ => true

end Sys2Proof.Machine
end

