-- ==== Sys2Proof/Machine/Sys.lean ====
section
/-! DEFINITION. System registers and the SYS words: SYSRD and SYSWR with the effects of each register, TRAP, BKPT, ERET,
TLBINV, watchpoints, counters, flows and windows (R47, R201, R335, R352, R357 to R359, R372, R375, R399 to R401, R413,
R422, R427, R428). -/

namespace Sys2Proof.Machine

/-! ## Allocation and privilege (R47) -/

/-- The registers with thread privilege. -/
def sysThread (n : Nat) : Bool := n ≤ 0x00C || (0x010 ≤ n && n ≤ 0x018) || (0x020 ≤ n && n ≤ 0x027) || (0x040 ≤ n && n ≤ 0x05F)

/-- The registers with context-admin privilege. -/
def sysAdmin (n : Nat) : Bool :=
  (0x100 ≤ n && n ≤ 0x107) || (0x120 ≤ n && n ≤ 0x123) || (0x130 ≤ n && n ≤ 0x135) || (0x138 ≤ n && n ≤ 0x147) ||
    (0x150 ≤ n && n ≤ 0x152) || (0x160 ≤ n && n ≤ 0x164)

/-- The allocated registers. -/
def sysAllocated (n : Nat) : Bool := sysThread n || sysAdmin n || n = 0x300

/-- The registers that SYSWR may write. -/
def sysWritable (n : Nat) : Bool :=
  n = 0x008 || n = 0x00A || n = 0x100 || n = 0x101 || (0x103 ≤ n && n ≤ 0x106) || n = 0x120 || n = 0x121 || n = 0x123 ||
    (0x130 ≤ n && n ≤ 0x133) || n = 0x135 || (0x138 ≤ n && n ≤ 0x147) || (0x160 ≤ n && n ≤ 0x164) || n = 0x300

/-- The privilege a register needs. -/
def sysPriv (n : Nat) : Nat := if n < 0x100 then 0 else if n < 0x300 then 1 else 2

/-- PRIV below a privilege. -/
def needPriv (key p : Nat) : M Unit := do
  let t ← getThr key
  if t.priv < p then privFault key

/-! ## Counter banks (R357 to R359) -/

/-- The bank or unit that a context has selected. -/
def State.bankSel (s : State) (cid : Nat) : Nat := wfld ((s.ctx cid).reg 0x130) 0 8

/-- A context's view of the bank it has selected: held, or revoked and frozen. -/
def State.bankView (s : State) (cid : Nat) : Option (Bank × Bool) :=
  let n := s.bankSel cid
  let b := s.banks.get n
  if b.holder = cid + 2 then some (b, false)
  else if s.revoked.has (cid * 256 + n) then some (s.revoked.get (cid * 256 + n), true)
  else none

/-- The value of a counter register. -/
def counterVal (s : State) (cid n : Nat) : W64 :=
  match s.bankView cid with
  | none => 0
  | some (b, revoked) =>
    if n = 0x131 then b.ctl ||| (if revoked then 4#64 else 2#64)
    else if n = 0x132 then b.base
    else if n = 0x133 then b.size
    else if n = 0x134 then b.head
    else if n < 0x140 then b.events.get (n - 0x138)
    else b.values.get (n - 0x140)

/-- Changes the selected bank, whose counters have caught up, when the context holds it. -/
def State.updBank (s : State) (cid : Nat) (f : Bank → Bank) : State :=
  let n := s.bankSel cid
  let s := s.catchUp n
  if (s.banks.get n).holder = cid + 2 then { s with banks := s.banks.put n (f (s.banks.get n)) } else s

/-- A SYSWR of an event register: a code the context may not count writes 0 (R359). -/
def State.writeEvent (s : State) (cid n : Nat) (v : W64) : State :=
  let ev := v &&& 0xFFFF#64
  s.updBank cid fun b => { b with events := b.events.put n (if ev.toNat < 0x100 then ev else 0) }

/-- Claims a bank or unit for a context (R357): the result code, and the state. -/
def State.claimBank (s : State) (cid n : Nat) : Nat × State :=
  let b := s.banks.get n
  let c := s.ctx cid
  if b.holder = cid + 2 then (3, s)
  else if b.holder ≠ 0 then (1, s)
  else
    let held := (s.banks.filter fun p => p.2.holder = cid + 2 && decide ((p.1 < 128) = (n < 128))).length
    let quota := if n < 128 then wfld (c.word 64) 0 5 else wfld (c.word 64) 8 2
    if quota ≤ held then (2, s)
    else (0, { (s.updCtx cid fun c => { c with regs := c.regs.put 0x130 0 }) with
                banks := s.banks.put n { (default : Bank) with holder := cid + 2 } })

/-- Releases a bank that a context holds, or clears its revoked view (R357, R358). -/
def State.releaseBank (s : State) (cid n : Nat) : State :=
  let s := { s with revoked := s.revoked.erase (cid * 256 + n) }
  if (s.banks.get n).holder = cid + 2 then { s with banks := s.banks.erase n } else s

/-! ## Reading (R399) -/

/-- PLACE (R11). DESIGN CHOICE: assumption log entry 51. -/
def Thread.place (t : Thread) (key : Nat) : W64 :=
  BitVec.ofNat 64 (t.core / 104 + t.core / 8 % 13 * 16 + t.core % 8 * 256 + (if passBase ≤ key then 4 else t.slot) * 4096)

/-- A window's ALLOW register (R200). -/
def Win.allow (w : Win) : W64 := BitVec.ofNat 64 (w.limit.toNat + w.inflight * 65536)

/-- The value of a trap register (R370). -/
def TrapRegs.val (r : TrapRegs) (n : Nat) : W64 :=
  match n with
  | 0x010 => r.cause
  | 0x011 => r.addr
  | 0x012 => r.cut
  | 0x013 => r.info
  | 0x014 => r.pc
  | 0x015 => r.task
  | 0x016 => r.iter
  | 0x017 => r.state
  | _ => r.ver

/-- The control taint as CTAINT reports it (R47). -/
def Frame.ctaintWord (f : Frame) : W64 := BitVec.ofNat 64 (f.ctaint.toNat + if f.csat then 65536 else 0)

/-- The registers of a counter bank or trace unit (R359). -/
def counterReg (n : Nat) : Bool := decide (0x131 ≤ n) && decide (n ≤ 0x147) && decide (n ≠ 0x135)

/-- The value of a system register. -/
def sysVal (s : State) (key n : Nat) : W64 :=
  let t := s.thr key
  let c := s.ctx t.cid
  if n = 0x000 then (if passBase ≤ key then 0xFFFF#64 else BitVec.ofNat 64 t.num)
  else if n = 0x001 then BitVec.ofNat 64 t.cid
  else if n = 0x002 then (match t.rank with | some r => BitVec.ofNat 64 r | none => 0xFFFFFFFFFFFFFFFF#64)
  else if n = 0x003 then BitVec.ofNat 64 t.gangSize
  else if n = 0x004 then t.live.iter
  else if n = 0x005 then t.live.task.args
  else if n = 0x006 then BitVec.ofNat 64 s.tick
  else if n = 0x007 then t.place key
  else if n = 0x008 then t.qdepth.setWidth 64
  else if n = 0x009 then t.live.vtype.setWidth 64
  else if n = 0x00A then t.live.vstat
  else if n = 0x00B then t.live.ctaintWord
  else if n = 0x00C then (match t.live.gsel with | some g => g.setWidth 64 | none => 0x3FF#64)
  else if n ≤ 0x018 then t.trap.val n
  else if n ≤ 0x023 then (t.wp.get (n - 0x020)).base
  else if n ≤ 0x027 then (t.wp.get (n - 0x024)).ctl
  else if n ≤ 0x04F then (t.win.get (n - 0x040)).target
  else if n ≤ 0x05F then (t.win.get (n - 0x050)).allow
  else if counterReg n then counterVal s t.cid n
  else if n = 0x152 then c.word 120
  else if n = 0x161 then
    let u := s.thr (t.cid * 65536 + wfld (c.reg 0x160) 0 16)
    BitVec.ofNat 64 ((if u.stepOn then 1 else 0) + (if u.toDbg then 2 else 0))
  else if n = 0x300 then t.ksvc
  else c.reg n

/-- SYSRD (R47, R90, R399). -/
def execSysrd (xd : BitVec 5) (reg : BitVec 10) (s : State) : Out :=
  sqWord (fun key => do
    let n := reg.toNat
    if !sysAllocated n || n = 0x106 || (passBase ≤ key && n = 0x001) then illegal key
    needPriv key (sysPriv n)
    let s ← get
    let t := s.thr key
    if (n = 0x009 || n = 0x00A) && !(t.queue .va).entries.isEmpty then stall .other
    let s := if counterReg n then s.catchUp (s.bankSel t.cid) else s
    let v := sysVal s key n
    set s
    modThr key fun t => t.updLive fun f => (f.wx xd (plain v)).next) s

/-! ## Writing (R399) -/

/-- A queue of a thread holds no more entries than a depth (R47). -/
def Thread.fitsDepth (t : Thread) (q : BitVec 20) : Bool :=
  engs.all fun e => decide ((t.queue e).entries.length ≤ 16 * (fld q.toNat (4 * (e.code - 1)) 4 + 1))

/-- A write of QDEPTH takes effect once every queue fits (R47). -/
def State.writeQdepth (s : State) (key : Nat) (v : W64) : Option State :=
  if (s.thr key).fitsDepth (v.setWidth 20) then some (s.updThr key fun t => { t with qdepth := v.setWidth 20 }) else none

/-- A write of VSTAT clears the bits written as 1, once the VA entries pushed before have completed (R90). -/
def State.writeVstat (s : State) (key : Nat) (v : W64) : Option State :=
  if ((s.thr key).queue .va).entries.isEmpty then
    some (s.updThr key fun t => t.updLive fun f => { f with vstat := f.vstat &&& ~~~v })
  else none

/-- Sets a register of a context. -/
def State.setReg (s : State) (cid n : Nat) (v : W64) : State := s.updCtx cid fun c => { c with regs := c.regs.put n v }

/-- A write of WAITLOG_BASE or WAITLOG_SIZE resets WAITLOG_HEAD (R251). -/
def State.writeWaitlog (s : State) (cid : Nat) (size : Bool) (v : W64) : State :=
  (s.setReg cid (if size then 0x121 else 0x120) (if size then v else v &&& 0x000FFFFFFFFFFFC0#64)).setReg cid 0x122 0

/-- A write of TRAPQ_BASE or TRAPQ_SIZE resets TRAPQ_HEAD and TRAPQ_TAIL (R372). -/
def State.writeTrapq (s : State) (cid : Nat) (size : Bool) (v : W64) : State :=
  ((s.setReg cid (if size then 0x101 else 0x100) (if size then v else v &&& 0x000FFFFFFFFFFFC0#64)).setReg cid 0x102 0).setReg cid 0x103 0

/-- The bits of TRAP_HANDLER and DBG_HANDLER that are not reserved (R372, R422). -/
def handlerMask : W64 := 0x8000000000FFFFFF#64

/-- A SYSWR of TRAP_CMD (R375): it releases at context scope, the action is taken, and the resumed thread's first word
acquires. -/
def trapCmd (key : Nat) (v : W64) : M Unit := do
  if 2 ≤ wfld v 16 2 || wfld v 18 46 ≠ 0 then illegal key
  beforeRelease key 6
  let s ← get
  let t := s.thr key
  let r := s.trapAction t.cid (wfld v 0 16) (wfld v 16 2)
  set (r.2.setReg t.cid 0x107 (BitVec.ofNat 64 r.1))
  let clk := joinClk t.base (t.clkOf key 0)
  if r.1 = 0 && wfld v 16 2 = 0 then modThr (t.cid * 65536 + wfld v 0 16) fun u => u.acquire clk

/-- A write of DBG_CTL acts on the selected thread, when it exists (R422, R423). -/
def State.writeDbgCtl (s : State) (cid : Nat) (v : W64) : State :=
  let k := cid * 65536 + wfld ((s.ctx cid).reg 0x160) 0 16
  if (s.thr k).alive then
    s.updThr k fun t =>
      { t with stepOn := v.getLsbD 0, toDbg := v.getLsbD 1, stopReq := t.stopReq || v.getLsbD 2 }
  else s

/-- Takes a write that may not be due yet. -/
def takeWrite (o : State → Option State) : M Unit := do
  match o (← get) with
  | some s => set s
  | none => stall .other

/-- A write of CNT_CTL: ENABLE, and the overflow bits clear where ones are written (R359). -/
def Bank.writeCtl (b : Bank) (v : W64) : Bank := { b with ctl := ((b.ctl &&& 0x7F8#64) &&& ~~~v) ||| (v &&& 1#64) }

/-- The effect of a SYSWR on each register. -/
def writeSys (key n : Nat) (v : W64) : M Unit := do
  let t ← getThr key
  let cid := t.cid
  match n with
  | 0x008 => takeWrite fun s => s.writeQdepth key v
  | 0x00A => takeWrite fun s => s.writeVstat key v
  | 0x100 => modify fun s => s.writeTrapq cid false v
  | 0x101 => modify fun s => s.writeTrapq cid true v
  | 0x103 => modify fun s => s.setReg cid n v
  | 0x104 => modify fun s => s.setReg cid n (v &&& handlerMask)
  | 0x105 => modify fun s => s.setReg cid n (v &&& 0x3FFFFE#64)
  | 0x106 => trapCmd key v
  | 0x120 => modify fun s => s.writeWaitlog cid false v
  | 0x121 => modify fun s => s.writeWaitlog cid true v
  | 0x123 => modify fun s => s.setReg cid n v
  | 0x130 => modify fun s => s.setReg cid n (v &&& 0xFF#64)
  | 0x131 => modify fun s => s.updBank cid fun b => b.writeCtl v
  | 0x132 => modify fun s => s.updBank cid fun b => { b with base := v &&& 0x000FFFFFFFFFFFC0#64 }
  | 0x133 => modify fun s => s.updBank cid fun b => { b with size := v }
  | 0x135 => modify fun s => s.setReg cid n (v &&& 0xFFFFFF01#64)
  | 0x160 => modify fun s => s.setReg cid n (v &&& 0xFFFF#64)
  | 0x161 => modify fun s => s.writeDbgCtl cid v
  | 0x162 => modify fun s => s.setReg cid n (v &&& handlerMask)
  | 0x163 => modify fun s => s.setReg cid n (v &&& 0x8000000001FFFFFF#64)
  | 0x164 => modify fun s => s.setReg cid n (v &&& 0x8000000001FFFFFF#64)
  | 0x300 => modThr key fun t => { t with ksvc := v }
  | _ =>
    if n < 0x140 then modify fun s => s.writeEvent cid (n - 0x138) v
    else modify fun s => s.updBank cid fun b => { b with values := b.values.put (n - 0x140) v }

/-- SYSWR (R47, R399). -/
def execSyswr (xs : BitVec 5) (reg : BitVec 10) (s : State) : Out :=
  sqWord (fun key => do
    let n := reg.toNat
    if !sysAllocated n || !sysWritable n then illegal key
    needPriv key (sysPriv n)
    let t ← getThr key
    bindTickets key (t.rx xs).taint
    writeSys key n (t.rx xs).val
    advance key) s

/-- A step of a thread's register write that stands by itself. -/
def threadStep (s : State) (key : Nat) (f : State → State) : Out :=
  if (s.thr key).alive then .next (f s) else .next s

/-- QDEPTH_WRITE (R47). -/
def execQdepthWrite (key : Nat) (val : W64) (s : State) : Out := threadStep s key fun s => (s.writeQdepth key val).getD s

/-- VSTAT_WRITE (R90). -/
def execVstatWrite (key : Nat) (val : W64) (s : State) : Out := threadStep s key fun s => (s.writeVstat key val).getD s

/-- WAITLOG_CONFIG_WRITE (R251). DESIGN CHOICE: assumption log entry 46. -/
def execWaitlogConfigWrite (key : Nat) (isSize : Bool) (val : W64) (s : State) : Out :=
  threadStep s key fun s => s.writeWaitlog (s.thr key).cid isSize val

/-- TRAPQ_CONFIG_WRITE (R372). -/
def execTrapqConfigWrite (key : Nat) (isSize : Bool) (val : W64) (s : State) : Out :=
  threadStep s key fun s => s.writeTrapq (s.thr key).cid isSize val

/-- CNT_EVENT_WRITE (R359). -/
def execCntEventWrite (key n : Nat) (val : W64) (s : State) : Out :=
  threadStep s key fun s => s.writeEvent (s.thr key).cid (n % 8) val

/-- RESUME (R375). -/
def execResume (cid thr : Nat) (s : State) : Out := .next (s.trapAction cid thr 0).2

/-- KILL (R375). -/
def execKill (cid thr : Nat) (s : State) : Out := .next (s.trapAction cid thr 1).2

/-- STOPREQ (R423): the thread stops at its next stop point. -/
def execStopreq (cid thr : Nat) (s : State) : Out :=
  threadStep s (cid * 65536 + thr) fun s => s.updThr (cid * 65536 + thr) fun t => { t with stopReq := true }

/-! ## Software traps (R400, R401) -/

/-- A word that raises a stop: a RESUME continues at the next word. -/
def stopWord (cause code : Nat) (s : State) : Out :=
  sqWord (fun key => do
    let t ← getThr key
    advance key
    fun s => .error (.fault (mkTrap cause t.live.pc code) s)) s

/-- TRAP (R400). -/
def execTrap (code : BitVec 10) (s : State) : Out := stopWord 18 code.toNat s

/-- BKPT (R400). -/
def execBkpt (code : BitVec 10) (s : State) : Out := stopWord 17 code.toNat s

/-- ERET (R401): the thread that KSVC_THREAD names resumes, and the service thread ends its task.
DESIGN CHOICE: assumption log entry 5. -/
def execEret (s : State) : Out :=
  if (s.thr s.cur).priv < 2 then sqWord (fun key => privFault key) s
  else
    boundary (fun f => do
      let s ← get
      let k := wfld (s.thr s.cur).ksvc 0 28
      set (s.trapAction (k / 65536) (k % 65536) 0).2
      pure f.task.next) s

/-! ## Invalidation (R351 to R353) -/

/-- The streams of a thread have nothing to read or write at present. -/
def Thread.streamsDone (t : Thread) : Bool :=
  t.live.v.all fun p =>
    !(p.2.strm.ready false && decide (p.2.fifo.length < 4)) && !(p.2.strm.ready true && (!p.2.fifo.isEmpty || t.owed .vs t.serial p.1))

/-- TLBINV (R352): the accesses of every word before it are performed, streams among them; then the sequencer waits for the invalidation. -/
def execTlbinv (xa xb : BitVec 5) (s : State) : Out :=
  sqWord (fun key => do
    needPriv key 1
    let s ← get
    let t := s.thr key
    match t.inval with
    | some id =>
      if s.invals.any fun i => i.id = id then stall .outside
      modThr key fun t => { t with inval := none }
      advance key
    | none =>
      let a := t.rx xa
      let b := t.rx xb
      settleSQ key [a, b]
      if b.val ≠ 0 then
        if a.val.toNat % 65536 ≠ 0 || b.val.toNat % 65536 ≠ 0 then raise (mkTrap 3 a.val.toNat 0)
        if 2 ^ 52 < a.val.toNat + b.val.toNat then raise (mkTrap 5 a.val.toNat 0)
      let s ← get
      if !((s.thr key).maskDone (BitVec.allOnes 8) && (s.thr key).streamsDone) then stall .other
      let r := s.startInval t.cid (invalRange a.val.toNat b.val.toNat)
      set (r.2.updThr key fun t => { t with inval := some r.1 })
      waitOn .outside) s

/-! ## Watchpoints (R427, R428) -/

/-- An S-space range lies within the own allotment, one peer window up to its rank's allotment, or one remote window. -/
def watchRange (s : State) (key o len : Nat) : Bool :=
  let e := o + len
  let inAllot := (sspace s key o).isSome && (sspace s key (e - 1)).isSome
  if o < 16777216 then inAllot && e ≤ 16777216
  else if o < 67108864 then inAllot && o / 2097152 = (e - 1) / 2097152
  else false

/-- WPSET (R428). -/
def execWpset (xa xb : BitVec 5) (n : BitVec 2) (s : State) : Out :=
  sqWord (fun key => do
    let t ← getThr key
    let a := t.rx xa
    let b := t.rx xb
    settleSQ key [a, b]
    if wfld b.val 14 2 ≠ 0 || wfld b.val 48 15 ≠ 0 || wfld b.val 12 2 = 0 then illegal key
    let s ← get
    let va := a.val.toNat
    let len := wfld b.val 0 12 + 1
    let ok := if va < 4503599627370496 then true
      else va / 72057594037927936 = 254 && va / 4294967296 % 16777216 = 0 && watchRange s key (va % 4294967296) len
    if !ok then raise (mkTrap 5 va 0)
    modThr key fun t => { t with wp := t.wp.put n.toNat { base := a.val, ctl := b.val ||| 0x8000000000000000#64 } }
    advance key) s

/-- WPCLR (R428). -/
def execWpclr (n : BitVec 2) (s : State) : Out :=
  sqWord (fun key => do
    modThr key fun t => { t with wp := t.wp.put n.toNat { (t.wp.get n.toNat) with ctl := 0 } }
    advance key) s

/-! ## Counters (R357) -/

/-- CNTCLAIM (R357). DEDUCED: assumption log entry 18. -/
def execCntclaim (xd : BitVec 5) (n : BitVec 10) (s : State) : Out :=
  sqWord (fun key => do
    if 144 ≤ n.toNat then illegal key
    needPriv key 1
    let s ← get
    let r := s.claimBank (s.thr key).cid n.toNat
    set r.2
    modThr key fun t => t.updLive fun f => (f.wx xd (plain (BitVec.ofNat 64 r.1))).next) s

/-- CNTREL (R357). -/
def execCntrel (n : BitVec 10) (s : State) : Out :=
  sqWord (fun key => do
    if 144 ≤ n.toNat then illegal key
    needPriv key 1
    modify fun s => s.releaseBank (s.thr key).cid n.toNat
    advance key) s

/-! ## Flows and windows (R201, R335) -/

/-- A packet of the thread that a test selects has not been acknowledged. -/
def State.unacked (s : State) (key : Nat) (p : Packet → Bool) : Bool := s.outbox.any fun x => decide (x.key = key) && p x

/-- FLOWDEF (R335). -/
def execFlowdef (xa : BitVec 5) (f : BitVec 6) (s : State) : Out :=
  sqWord (fun key => do
    let t ← getThr key
    let a := t.rx xa
    settleSQ key [a]
    if wfld a.val 17 47 ≠ 0 then illegal key
    let s ← get
    if s.unacked key fun p => a.val.getLsbD p.win || p.flow = f.toNat then waitOn .outside
    modThr key fun t =>
      { t with
        winFlow := (countFrom 0 16).foldl (fun m w => if a.val.getLsbD w then m.put w f.toNat else m) t.winFlow
        flows := t.flows.put f.toNat { (t.flows.get f.toNat) with unordered := a.val.getLsbD 16 } }
    advance key) s

/-- WINSET (R201). -/
def execWinset (xa xb : BitVec 5) (win : BitVec 4) (s : State) : Out :=
  sqWord (fun key => do
    let t ← getThr key
    let a := t.rx xa
    let b := t.rx xb
    let w := win.toNat
    settleSQ key [a, b]
    if wfld a.val 48 15 ≠ 0 || wfld b.val 10 54 ≠ 0 then illegal key
    let s ← get
    if wfld a.val 63 1 = 1 && !(s.ctx t.cid).epGranted (BitVec.ofNat 32 (wfld a.val 16 32)) then raise (mkTrap 5 a.val.toNat 0)
    if s.unacked key fun p => p.win = w then waitOn .outside
    writeBackLines key fun k => k / 32768 = w
    let s ← get
    if s.unacked key fun p => p.win = w then waitOn .outside
    dropLines key fun k => k / 32768 = w
    modThr key fun t => { t with win := t.win.put w { (t.win.get w) with target := a.val, limit := b.val.setWidth 10 } }
    advance key) s

end Sys2Proof.Machine
end

