-- ==== Sys2Proof/Machine/Keg.lean ====
section
/-! DEFINITION. Freezing and thawing a context, saving and loading kegs, and the words KEGSAVE and KEGLOAD (R278, R402 to R414,
R436). -/

namespace Sys2Proof.Machine

/-! ## Descriptor fields the device writes (R340) -/

/-- The context with its STATE set. -/
def Ctx.withState (c : Ctx) (n : Nat) : Ctx :=
  { c with desc := c.desc.put 0 ((c.word 0 &&& ~~~0x600000#64) ||| BitVec.ofNat 64 (n * 2097152)) }

/-- SAVECOUNT (R407). -/
def Ctx.saveCount (c : Ctx) : W64 := c.word 120

/-- KEYED (R365). -/
def Ctx.keyed (c : Ctx) : Bool := (c.word 112).getLsbD 0

/-- HANDED (R418). -/
def Ctx.handed (c : Ctx) : Bool := (c.word 112).getLsbD 1

/-- KEYGEN (R365). -/
def Ctx.keyGen (c : Ctx) : Nat := wfld (c.word 112) 32 32

/-- The context with another SAVECOUNT. -/
def Ctx.withSaveCount (c : Ctx) (v : W64) : Ctx := { c with desc := c.desc.put 15 v }

/-! ## Memory as the device reaches it (R411) -/

/-- The failure of a buffer in a context's flat space: it must translate to HBM or host memory, with the right asked for. -/
def bufferFail (s : State) (cid va len : Nat) (wr : Bool) : Option Trap :=
  lowest ((cutSpan (len / 16384 + 2) va len).filterMap fun p =>
    if 4503599627370496 ≤ p.1 then some (mkTrap 5 p.1 0)
    else
      match flatPiece s cid p.1 p.2 with
      | .error t => some t
      | .ok q =>
        if q.tgt = .granary || q.leaf.granary || (if wr then !q.leaf.wr else !q.leaf.rd) then
          some (mkTrap 5 p.1 (2147483648 + q.leaf.tbl + (if wr && q.leaf.granary then 64 else 32)))
        else none)

/-- The bytes of a buffer. -/
def State.deviceRead (s : State) (cid va len : Nat) : List Byte :=
  (cutSpan (len / 16384 + 2) va len).flatMap fun p =>
    match flatPiece s cid p.1 p.2 with
    | .ok q => if q.tgt = .host then s.host.bytes q.addr q.len else s.hbm.bytes q.addr q.len
    | .error _ => zeros p.2

/-- Writes the bytes of a buffer, outside every version; pages tracked for writes are marked (R349). -/
def State.deviceWrite (s : State) (cid va : Nat) (data : List Byte) : State :=
  ((cutSpan (data.length / 16384 + 2) va data.length).foldl (fun (acc : State × List Byte) p =>
    let here := acc.2.take p.2
    let rest := acc.2.drop p.2
    match flatPiece acc.1 cid p.1 p.2 with
    | .ok q =>
      let s := markDirty acc.1 cid q
      if q.tgt = .host then ({ s with host := s.host.setBytes q.addr here }, rest)
      else if q.tgt = .hbm then (s.writeCommitted .hbm q.addr here, rest)
      else (s, rest)
    | .error _ => (acc.1, rest)) (s, data)).1

/-! ## Freezing (R278, R358, R402, R403) -/

/-- The threads that a freeze takes (R402): every thread of the context, or all but the issuer, with whose gang it stays
(DEDUCED, assumption log entry 33). -/
def State.freezeSet (s : State) (cid : Nat) (left : Option Nat) : List Nat :=
  let out := match left with | some k => s.gangKeys k | none => []
  (s.threads.filter fun p => p.2.alive && decide (p.2.cid = cid) && decide (p.1 < passBase) && !out.contains p.1).map (·.1)

/-- Tile tasks of a context that have not been launched leave Mash, with the ticks left of their patience (R278). -/
def State.holdTasks (s : State) (cid : Nat) : State :=
  let take := fun (t : TileTask) => decide (t.cid = cid) && (t.st = .pending || t.st = .matched || t.st = .deferred)
  let ids := (s.tasks.filter fun p => take p.2).map (·.1)
  if ids.isEmpty then s
  else
    { s with
      tasks := s.tasks.map fun p =>
        if take p.2 then (p.1, { p.2 with st := .held, exp := p.2.exp - s.tick, pages := [], pass := none }) else p
      passes := (s.passes.map fun p =>
        if p.2.core.isSome then p else (p.1, { p.2 with tasks := p.2.tasks.filter fun x => !ids.contains x })).filter fun p =>
          p.2.core.isSome || !p.2.tasks.isEmpty }

/-- The held tasks of a context, in stacking order. -/
def State.heldTasks (s : State) (cid : Nat) : List (Nat × TileTask) :=
  (s.tasks.filter fun p => p.2.cid = cid && p.2.st = .held).foldl (fun l e => insertTask e l) []

/-- The held tasks of a context are accepted again, in their order, from this tick on (R278). -/
def State.acceptHeld (s : State) (cid : Nat) : State :=
  let l := s.heldTasks cid
  if l.isEmpty then s
  else
    let s := { s with tasks := s.tasks.filter fun p => !l.any fun e => e.1 = p.1 }
    (l.foldl (fun s e =>
      let t := { e.2 with st := TaskSt.pending, sub := s.tick, exp := s.tick + e.2.exp, order := s.taskNext }
      s.acceptTask { t with part := s.partitionOf t }) s).poisonOrphans

/-- A thread of a freeze (R402 step 3): a resident one is asked to stop, an unstarted one leaves its slot. -/
def Thread.freeze (t : Thread) (tick : Nat) : Thread :=
  let t := { t with frozen := true }.askStop tick
  if t.run = .unstarted then { t with run := .waiting, core := 0, slot := 0, placed := false, homed := false } else t

/-- A queue entry as a cut commit leaves it: untainted, and of the new version (R403). -/
def QEntry.cut (q : QEntry) (ver : Nat) : QEntry :=
  { q with ops := q.ops.map fun o => { o with taint := 0#16, sat := false }, ctaint := 0#16, csat := false, live := 0#16, ver := ver
           ticket := none, since := none }

/-- The waits of a thread that have succeeded are over: what the flags released is acquired, and the words and entries that made them are complete
(R250, R386, R390). -/
def endGranted (key : Nat) : M Unit := do
  let l := (← get).waiters.filter fun w => decide (w.key = key) && w.granted
  forEach l fun w => do
    modify fun s => s.logWait key w.unit w.flag.number w.count 0 w.flag.groupNo w.since w.setter
    match engs.find? fun e => decide (e.code = w.unit) with
    | some e =>
      modThr key fun t => t.learn (tokenPaths false e) w.clk
      match ((← getThr key).queue e).entries with
      | q :: _ => popEntry key e q
      | [] => pure ()
    | none =>
      modThr key fun t => t.acquire w.clk
      advance key
      modify fun s => s.countFor key 1 1
  modify fun s => { s with waiters := s.waiters.filter fun w => !(decide (w.key = key) && w.granted) }

/-- A cut commit (R403): everything the thread has done commits, its live frame becomes its committed frame, and a new version
begins. It holds no slot any more. -/
def State.cutCommit (s : State) (key : Nat) : State :=
  let s := s.withdrawWaits key fun _ => true
  let s := match endGranted key s with | .ok ((), s) => s | .error _ => s
  let ids := (s.thr key).versions.map (·.id)
  let s := (ids.foldl (fun s id => s.commitWrites key id) s).countEv (s.thr key).cid 9 1
  let (id, s) := s.newVerId
  s.updThr key fun t =>
    let t := t.stopUnits
    let v := t.curVer
    let f := t.live.clean
    { t.saveAt f with
      live := f, lines := [], savedLines := [], wait := t.wait.kept
      queues := t.queues.map fun q => (q.1, { q.2 with entries := q.2.entries.map fun e => e.cut id })
      versions := [{ freshVersion id f.task with budget := v.budget, task := v.task }]
      core := 0, slot := 0, placed := false, homed := false, preemptReq := none }

/-- The dirty lines of a thread's remote line cache are written back as far as allowances go (R402 step 4). -/
def State.flushLines (s : State) (key : Nat) : State :=
  if (s.thr key).lines.isEmpty then s
  else
    match writeBackLines key (fun _ => true) s with
    | .ok ((), s') => s'
    | .error (.wait _ s') => s'
    | .error _ => s

/-- The conditions of the cut (R402 steps 2 to 5): no thread of the set runs, no tile task is launched, its fabric traffic has
been acknowledged, and its versions may commit. -/
def State.cutReady (s : State) (cid : Nat) (keys : List Nat) : Bool :=
  (keys.all fun k => decide ((s.thr k).run ≠ .resident) && ((s.thr k).lines.all fun l => l.2.dirty = 0#64) &&
      (s.thr k).versions.all fun v => s.depsReady v) &&
    (!s.tasks.any fun p => p.2.cid = cid && (p.2.st = .launched || p.2.st = .finishing)) && !s.outbox.any fun p => keys.contains p.key

/-- The counter banks and trace units of a context are released (R358). -/
def State.releaseClaims (s : State) (cid : Nat) : State :=
  { s with banks := s.banks.filter fun b => b.2.holder ≠ cid + 2, revoked := s.revoked.filter fun b => b.1 / 256 ≠ cid }

/-- The endpoints of a context on this package take a state (R331). -/
def State.markEndpoints (s : State) (cid st : Nat) : State :=
  { s with endpoints := s.endpoints.map fun e =>
      if e.2.pkg = s.pkg.self && e.2.cid = cid && e.2.st ≠ 2 then (e.1, { e.2 with st := st }) else e }

/-- One step of a freeze (R402): whether it is complete, and the state. It first waits until no task of the context is launched (R278). -/
def State.freezeStep (s : State) (cid : Nat) (left : Option Nat) : Bool × State :=
  let keys := s.freezeSet cid left
  let s := s.updCtx cid fun c => { c with freezing := some left }
  if s.tasks.any fun p => p.2.cid = cid && p.2.st = .launched then (false, s) else
  let s := (keys.foldl (fun s k => s.updThr k fun t => t.freeze s.tick) s).holdTasks cid
  let off := keys.filter fun k => decide ((s.thr k).run ≠ .resident)
  let s := off.foldl (fun s k => (s.flushLines k).updThr k fun t => { t with versions := t.versions.map fun v => { v with waiting := true } }) s
  if s.cutReady cid keys then
    let s := ((keys.foldl State.cutCommit s).markEndpoints cid 1).releaseClaims cid
    (true, s.updCtx cid fun c => c.withState 2)
  else (false, s)

/-- The threads of a context that can go on ask for slots, each alone or with its gang (R412, R414). -/
def State.askAll (s : State) (cid : Nat) : State :=
  let keys := (s.threads.filter fun p => p.2.alive && decide (p.2.cid = cid) && decide (p.1 < passBase) && decide (p.2.run = .waiting)).map (·.1)
  keys.foldl (fun s k => s.askAgain k) s

/-- The thaw (R402, R417): parked packets are performed in the order of their flows, tasks are accepted again, and the threads ask for slots. -/
def State.thaw (s : State) (cid : Nat) : State :=
  let store := (s.ctx cid).store
  let s := (s.markEndpoints cid 0).updCtx cid fun c =>
    { c.withState 1 with freezing := none, holding := false, heldSave := false, store := [] }
  let s := (store.foldl (fun s p => s.enterFlow cid p) s).drainFlows
  let s := s.acceptHeld cid
  let melt := fun (p : Nat × Thread) => if p.2.cid = cid && p.1 < passBase then (p.1, { p.2 with frozen := false }) else p
  let s : State := { s with threads := s.threads.map melt }
  s.askAll cid

/-! ## Saving (R404 to R411, R436) -/

/-- The registers that the CONTEXT item carries, before and after the dirty range (R405). -/
def kegRegs : List Nat := [0x100, 0x101, 0x102, 0x103, 0x104, 0x105, 0x120, 0x121, 0x122, 0x123, 0x135]

/-- The debug registers that the CONTEXT item carries. -/
def kegDebugRegs : List Nat := [0x162, 0x163, 0x164]

/-- The gangs of threads, in order. -/
def State.gangsOf (s : State) (keys : List Nat) : List Nat := ((keys.map fun k => (s.thr k).gang).filter (· ≠ 0)).eraseDups

/-- The CONTEXT item (R405). -/
def Ctx.kegItem (c : Ctx) : KegItem :=
  let regs := fun (l : List Nat) => l.flatMap fun n => natLE 8 (c.reg n).toNat
  { kind := 1, thr := wholeCtx
    data := fitTo 1024 0#8 (regs kegRegs ++ natLE 8 (c.word 48).toNat ++ natLE 8 (wfld (c.word 56) 0 18) ++ regs kegDebugRegs) }

/-- The items of a thread's slots (R405). -/
def Thread.slotItems (t : Thread) : List KegItem :=
  let item := fun (m h : Nat) (p : Bool) (x : Slot) => ({ kind := 5, thr := t.num, data := x.bytes m h p } : KegItem)
  (t.wb.map fun e => item 0 e.1 false e.2) ++ (t.ab.map fun e => item 1 e.1 false e.2) ++ (t.cb.map fun e => item 2 e.1 false e.2) ++
    t.promised.map fun p => item p.1 p.2.1 true p.2.2

/-- The items of a keg of threads of a context (R405, R436). -/
def State.kegItems (s : State) (cid : Nat) (keys : List Nat) : List KegItem :=
  let c := s.ctx cid
  let gangs := s.gangsOf keys
  let ts := keys.map s.thr
  let thread := fun (t : Thread) =>
    let gang := match findIdx (fun g => decide (g = t.gang)) 0 gangs with | some (i, _) => i | none => 0xFFFF
    let flags := match t.committed.gsel with | some g => (c.groups.get g.toNat).flags | none => []
    ({ kind := 2, thr := t.num, data := t.recordBytes c gang ++ t.committed.bytes flags } : KegItem)
  let queue := fun (t : Thread) => engs.flatMap fun e => (t.queue e).entries.flatMap fun q => q.bytes e
  let stage := c.staging.filterMap fun e => e.head?
  [c.kegItem] ++ ts.map thread ++
    (ts.filter fun t => !t.idleQueues).map (fun t => ({ kind := 3, thr := t.num, data := queue t } : KegItem)) ++
    ts.map (fun t => ({ kind := 4, thr := t.num, data := t.scratch.extent 0 (16384 * t.scratchG) } : KegItem)) ++
    ts.flatMap Thread.slotItems ++
    stage.map (fun w => ({ kind := 6, thr := wholeCtx, data := natLE 8 w.toNat ++ zeros 56 ++ s.staging.extent (extentOf w).1 (extentOf w).2 } : KegItem)) ++
    [{ kind := 7, thr := wholeCtx, data := (countFrom 0 256).flatMap fun g => (c.groups.get g).bytes },
     { kind := 8, thr := wholeCtx, data := (s.heldTasks cid).flatMap fun t => t.2.bytes },
     { kind := 9, thr := wholeCtx, data := s.hbm.bytes (wfld (c.word 40) 3 49 * 8) (wfld (c.word 56) 0 18 * 16) }]

/-- The header of a keg (R404, R406). -/
def kegHeader (flags count iv keyGen cid threads items body : Nat) : List Byte :=
  fitTo 256 0#8 (natLE 4 0x3147454B ++ natLE 2 1 ++ natLE 2 flags ++ natLE 8 count ++ natLE 4 iv ++ natLE 8 count ++ natLE 4 keyGen ++
    natLE 2 cid ++ zeros 2 ++ natLE 4 threads ++ natLE 4 items ++ zeros 4 ++ natLE 8 body)

/-- The result of a save for a context is written (R413). DEDUCED: assumption log entry 49. -/
def State.kegStatus (s : State) (cid st : Nat) : State := s.setReg cid 0x150 (BitVec.ofNat 64 st)

/-- A save (R407, R411): none while the freeze is not complete, else its KEG_STATUS. -/
def State.saveKeg (s : State) (cid : Nat) (left : Option Nat) (va len : Nat) (hold mig : Bool) : Option Nat × State :=
  let (done, s) := s.freezeStep cid left
  if !done then (none, s)
  else
    let keys := s.freezeSet cid left
    let items := s.kegItems cid keys
    let body := items.flatMap KegItem.bytes
    let need := body.length + 272
    let s := s.setReg cid 0x151 (BitVec.ofNat 64 need)
    if len < need then (some 1, (s.kegStatus cid 1).thaw cid)
    else
      let c := s.ctx cid
      let count := c.saveCount + 1
      let iv := (Config.freeWord s.fresh).toNat % 4294967296
      let flags := (if mig then 1 else 0) + if left.isSome then 2 else 0
      let h := kegHeader flags count.toNat iv c.keyGen cid keys.length items.length body.length
      let (ct, tag) := gcmSeal (c.key.getD 0) ((h.drop 16).take 12) h body
      let s := { s with fresh := s.fresh + 1 }.updCtx cid fun c =>
        { c.withSaveCount count with reserved := if c.reserved = some count then none else c.reserved, heldSave := hold }
      let s := (s.deviceWrite cid va (h ++ ct ++ tag)).kegStatus cid 0
      (some 0, if hold then s.updCtx cid fun c => { c with holding := true } else s.thaw cid)

/-- A save is refused before it freezes anything: no key (DEDUCED, assumption log entry 34), or HANDED (R411). -/
def Ctx.saveFail (c : Ctx) : Option Nat :=
  if c.handed && c.reserved.isNone then some 9 else if !c.keyed || c.key.isNone then some 5 else none

/-! ## Loading (R412) -/

/-- The header of a keg is well formed within a length (R404, R412 check 2). -/
def headerOk (l : List Byte) (len : Nat) : Bool :=
  256 ≤ l.length && bfld l 0 4 = 0x3147454B && bfld l 4 2 = 1 && bfld l 6 2 < 4 && bfld l 32 2 < 4096 && bfld l 34 2 = 0 &&
    bfld l 44 4 = 0 && ((l.drop 56).take 200).all (· = 0#8) && bfld l 48 8 % 64 = 0 && bfld l 48 8 + 272 ≤ len

/-- The items of a kind. -/
def ofKind (k : Nat) (l : List KegItem) : List KegItem := l.filter fun i => i.kind = k

/-- The saved entries that a thread record counts (R408). -/
def qsaved (rec_ : List Byte) : List Nat := (countFrom 0 5).map fun i => bfld rec_ (16 + 2 * i) 2

/-- The queue entries of a thread from its QUEUE item; none when a word does not decode (R409). -/
def readQueues (rec_ q : List Byte) (pc slot ver : Nat) (gsel : Option (BitVec 8)) : Option (NMap Queue) :=
  let rec go : List Nat → Nat → Nat → NMap Queue → Option (NMap Queue)
    | [], _, _, m => some m
    | n :: r, i, off, m =>
      let pushed := bfld rec_ (32 + 8 * i) 8
      let e := engAt i
      let l := (countFrom 0 n).map fun j => readEntry ((q.drop (64 * (off + j))).take 64) e (pushed - n + j) pc slot ver gsel
      if l.any (·.isNone) then none
      else go r (i + 1) (off + n) (m.put e.code { entries := l.filterMap id, pushed := pushed })
  go (qsaved rec_) 0 0 []

/-- A gang of a keg is whole: its size, every rank once (R412 check 6). -/
def gangWhole (recs : List (List Byte)) (g : Nat) : Bool :=
  let mine := recs.filter fun r => bfld r 4 2 = g
  let n := mine.length
  mine.all (fun r => bfld r 2 1 = n) && (countFrom 0 n).all fun k => (mine.filter fun r => bfld r 3 1 = k).length = 1

/-- The items of a keg keep R405 and R436, with every reserved byte zero (R6), and the threads what R412 check 6 says. -/
def State.itemsOk (s : State) (cid : Nat) (issuer : Option Nat) (l : List KegItem) (threads items : Nat) : Bool :=
  let c := s.ctx cid
  let ts := ofKind 2 l
  let recs := ts.map fun i => i.data.take 1024
  let nums := ts.map (·.thr)
  let one := fun k n => match ofKind k l with | [i] => i.thr = wholeCtx && (match n with | some x => i.data.length = x | none => true) | _ => false
  let span := match ofKind 1 l with | i :: _ => bfld i.data 96 8 | [] => 0
  let gangs := ((recs.map fun r => bfld r 4 2).filter (· ≠ 0xFFFF)).eraseDups
  itemsOrdered l && decide (l.length = items) && decide (ts.length = threads) && threads ≤ c.threadLimit &&
    l.all (fun i => 1 ≤ i.kind && i.kind ≤ 9) && one 1 (some 1024) && one 7 (some 73728) && one 8 none &&
    span ≤ 131072 && one 9 (some (pad64 (zeros (16 * span))).length) && (ofKind 9 l).all (fun i => (i.data.drop (16 * span)).all (· = 0#8)) &&
    (ofKind 8 l).all (fun i => i.data.length % 128 = 0 && tasksOk i.data) && (ofKind 1 l).all (fun i => zeroAt i.data (128, 896)) &&
    (ofKind 7 l).all (fun i => groupsOk i.data) && (ofKind 3 l).all (fun i => entriesOk i.data) &&
    ts.all (fun i => i.data.length = 140288 && threadOk i.data && i.thr < 65536 && bfld i.data 0 2 = i.thr && bfld i.data 6 1 ≤ 4 && bfld i.data 7 1 ≤ 1 &&
      1 ≤ bfld i.data 8 1 && bfld i.data 8 1 ≤ 128 && decide (issuer ≠ some (cid * 65536 + i.thr))) &&
    ts.all (fun i =>
      let n := (qsaved i.data).foldl (· + ·) 0
      let q := (ofKind 3 l).filter fun x => x.thr = i.thr
      (if n = 0 then q.isEmpty else (q.map fun x => x.data.length) = [64 * n]) &&
        ((ofKind 4 l).filter fun x => x.thr = i.thr).map (fun x => x.data.length) = [17408 * bfld i.data 8 1] &&
        (readQueues i.data ((q.head?).getD default).data 0 0 0 none).isSome) &&
    l.all (fun i => if 3 ≤ i.kind && i.kind ≤ 5 then nums.contains i.thr else true) &&
    (ofKind 5 l).all (fun i => bfld i.data 0 1 ≤ 2 && slotHeadOk i.data && i.data.length = slotItemLen (bfld i.data 0 1)) &&
    (ofKind 6 l).all (fun i =>
      let w := BitVec.ofNat 64 (bfld i.data 0 8)
      let n := 64 + (extentOf w).2 + (extentOf w).2 / 64 * 4
      i.thr = wholeCtx && i.data.length = (pad64 (zeros n)).length && zeroAt i.data (8, 56) && (i.data.drop n).all (· = 0#8)) &&
    gangs.all (gangWhole recs)

/-- The grants that a keg needs (R412 check 7). -/
def State.grantsOk (s : State) (cid : Nat) (l : List KegItem) : Bool :=
  let c := s.ctx cid
  (ofKind 2 l).all (fun i =>
    let slot := bfld i.data (1024 + 0x21080 + 48) 8 / 32768 % 1024
    (s.images.get slot).resident && c.granted slot &&
      (countFrom 0 16).all fun w =>
        let t := BitVec.ofNat 64 (bfld i.data (144 + 8 * w) 8)
        wfld t 63 1 = 0 || c.epGranted (BitVec.ofNat 32 (wfld t 16 32))) &&
    (ofKind 6 l).all fun i => c.staging.any fun e => (e.headD 0).toNat = bfld i.data 0 8

/-- The AB slots of a thread beyond the six that threads may claim are lent to it: the last of its handles, slots for its next task after
them (R123; DESIGN CHOICE, assumption log entry 14). -/
def Thread.markLent (t : Thread) : Thread :=
  let n := t.ab.length
  let go := fun (i : Nat) (x : Slot) => { x with lent := decide (6 ≤ i) }
  let later := t.promised.foldl (fun (acc : Nat × List (Nat × Nat × Slot)) p =>
    if p.1 = 1 then (acc.1 + 1, acc.2 ++ [(p.1, p.2.1, go acc.1 p.2.2)]) else (acc.1, acc.2 ++ [p])) (n, [])
  { t with ab := (t.ab.zip (countFrom 0 n)).map (fun e => (e.1.1, go e.2 e.1.2)), promised := later.2 }

/-- The thread of a keg's items (R403, R408). Its saved entries look at the watchpoints that the record carries (R428; DESIGN CHOICE: assumption log
entry 30). -/
def kegThread (cid gangBase ver : Nat) (l : List KegItem) (i : KegItem) : Thread :=
  let rec_ := i.data.take 1024
  let g := bfld rec_ 4 2
  let t := readThread cid ver (if g = 0xFFFF then 0 else gangBase + g) rec_ (i.data.drop 1024)
  let mine := fun k => (ofKind k l).filter fun x => x.thr = i.thr
  let q := ((mine 3).head?).getD default
  let qs := (readQueues rec_ q.data t.live.pc t.live.task.slot ver t.live.gsel).getD t.queues
  let t := { t with
    queues := qs.map fun u => (u.1, { u.2 with entries := u.2.entries.map fun x => { x with wps := t.wp } })
    scratch := (default : Memory).setExtent 0 (16384 * t.scratchG) (((mine 4).head?).getD default).data }
  let t := (mine 5).foldl (fun (t : Thread) x =>
    let m := bfld x.data 0 1
    let h := bfld x.data 1 1
    let sl := readSlot m (bfld x.data 4 4) (x.data.drop 64)
    if bfld x.data 2 1 = 1 then { t with promised := t.promised ++ [(m, h, sl)] }
    else if m = 0 then { t with wb := t.wb.put h sl }
    else if m = 1 then { t with ab := t.ab.put h sl }
    else { t with cb := t.cb.put h sl }) t
  let t := t.markLent
  { t with saved := t.cbImages, savedWb := t.wb.keys, savedAb := t.ab.keys, savedLent := t.lentAb, savedPromised := t.promisedImages }

/-- What the scoreboard records for the saved entries of a thread: its copies, then its drains (R157, R409). -/
def State.rescore (s : State) (key : Nat) : State :=
  [(Eng.cp, scorePush), (Eng.mx, mxScore)].foldl (fun s e =>
    ((s.thr key).queue e.1).entries.foldl (fun s q =>
      let l := e.2 q.word s { (default : Score) with eng := e.1, num := q.num, ser := q.ser, ord := s.scoreNext } key q.ops
      { (s.updThr key fun t => { t with scores := t.scores ++ l }) with scoreNext := s.scoreNext + 1 }) s) s

/-- A thread that has arrived at the barrier of a group waits there again, without arriving twice (R246, R390). -/
def State.rewait (s : State) (key : Nat) : State :=
  let t := s.thr key
  match (s.ctx t.cid).groups.find? fun g => g.2.members.get t.num with
  | some g => s.updThr key fun t => { t with wait := { kind := .bar g.2.gen, since := s.tick } }
  | none => s

/-- The groups of a context take the keg's values; their members are the keg's threads, and the issuer where it was one. -/
def kegGroups (c : Ctx) (issuer : Option Nat) (l : List KegItem) (data : List Byte) : NMap Group :=
  (countFrom 0 256).foldl (fun m g =>
    let mem : NMap Bool := (ofKind 2 l).foldl (fun (mm : NMap Bool) i =>
      if fld (bfld i.data 424 32) g 1 = 1 then mm.put i.thr (fld (bfld i.data 456 32) g 1 = 1) else mm) []
    let mem := match issuer with
      | some k => if (c.groups.get g).members.has (k % 65536) then mem.put (k % 65536) ((c.groups.get g).members.get (k % 65536)) else mem
      | none => mem
    m.set g (readGroup ((data.drop (288 * g)).take 288) mem)) []

/-- The value of a register of the CONTEXT item, without its reserved bits (R6). -/
def kegReg (n : Nat) (v : W64) : W64 :=
  if n = 0x100 || n = 0x120 then v &&& 0x000FFFFFFFFFFFC0#64
  else if n = 0x104 || n = 0x162 then v &&& handlerMask
  else if n = 0x105 then v &&& 0x3FFFFE#64
  else if n = 0x135 then v &&& 0xFFFFFF01#64
  else if n = 0x163 || n = 0x164 then v &&& 0x8000000001FFFFFF#64
  else v

/-- Applies a keg that has passed every check (R412). -/
def State.applyKeg (s : State) (cid : Nat) (issuer : Option Nat) (l : List KegItem) (mig : Bool) : State :=
  let one := fun k => (((ofKind k l).head?).getD default).data
  let ctx := one 1
  let reg := fun i => BitVec.ofNat 64 (bfld ctx (8 * i) 8)
  let s := (ofKind 2 l).foldl (fun s i =>
    let (ver, s) := s.newVerId
    s.setThr (cid * 65536 + i.thr) (kegThread cid (s.gangNext + 1) ver l i)) s
  let s := { s with gangNext := s.gangNext + 65536 }
  let s := s.updCtx cid fun c =>
    let regs := ((kegRegs.zip (countFrom 0 11)) ++ kegDebugRegs.zip (countFrom 13 3)).foldl (fun (m : NMap W64) e => m.put e.1 (kegReg e.1 (reg e.2))) c.regs
    { c with
      regs := regs, groups := kegGroups c issuer l (one 7), awaitEnd := mig
      desc := (c.desc.put 6 (reg 11 &&& 0x000FFFFFFF800000#64)).put 7 ((c.word 56 &&& 0xFFFFFFFF00000000#64) ||| BitVec.ofNat 64 (bfld ctx 96 8)) }
  let s := (ofKind 2 l).foldl (fun s i => (s.rescore (cid * 65536 + i.thr)).rewait (cid * 65536 + i.thr)) s
  let c := s.ctx cid
  let s := { s with hbm := s.hbm.setBytes (wfld (c.word 40) 3 49 * 8) ((one 9).take (wfld (c.word 56) 0 18 * 16)) }
  let s := (ofKind 6 l).foldl (fun s i =>
    let e := extentOf (BitVec.ofNat 64 (bfld i.data 0 8))
    { s with staging := s.staging.setExtent e.1 e.2 (i.data.drop 64) }) s
  let has := fun n => (ofKind 2 l).any fun i => i.thr = n
  let s := (chunks 128 ((one 8).length / 128) (one 8)).foldl (fun s b =>
    { s with tasks := s.tasks.put s.taskNext (readTask cid s.taskNext has b), taskNext := s.taskNext + 1 }) s
  (s.acceptHeld cid).askAll cid

/-- A load (R412): its KEG_STATUS, and the state, which is unchanged unless every check passes. -/
def State.loadKeg (s : State) (cid : Nat) (issuer : Option Nat) (va len : Nat) : Nat × State :=
  let c := s.ctx cid
  let l := s.deviceRead cid va len
  let body := bfld l 48 8
  if (s.threads.any fun p => p.2.alive && decide (p.2.cid = cid) && decide (p.1 < passBase) && decide (some p.1 ≠ issuer)) ||
      s.tasks.any (fun p => p.2.cid = cid) then (8, s)
  else if c.handed then (9, s)
  else if !headerOk l len then (6, s)
  else if !c.keyed || bfld l 28 4 ≠ c.keyGen then (5, s)
  else if bfld l 8 8 < c.saveCount.toNat then (2, s)
  else if c.saveCount.toNat < bfld l 8 8 then (3, s)
  else
    match gcmOpen (c.key.getD 0) ((l.drop 16).take 12) (l.take 256) ((l.drop 256).take body) ((l.drop (256 + body)).take 16) with
    | none => (4, s)
    | some b =>
      match readItems (b.length / 64) b with
      | none => (6, s)
      | some items =>
        if !s.itemsOk cid issuer items (bfld l 36 4) (bfld l 40 4) then (6, s)
        else if !s.grantsOk cid items then (7, s)
        else (0, s.applyKeg cid issuer items ((bfld l 6 2) % 2 = 1))

/-! ## The words (R411) -/

/-- The commands that are serialised with keg words (R411, R415). -/
def kegCommand (op : Nat) : Bool := 0x0D ≤ op && op ≤ 0x13

/-- A keg operation of a context that was accepted before a tick is not complete: a word of another thread, or a command of another function
(R411). -/
def State.kegBusy (s : State) (cid at_ : Nat) (key fn : Option Nat) : Bool :=
  (s.threads.any fun p => decide (p.2.cid = cid) && decide (some p.1 ≠ key) && (match p.2.kegAt with | some n => decide (n < at_) | none => false)) ||
    s.funcs.any fun f => decide (some f.1 ≠ fn) && decide (f.2.pendAt < at_) &&
      match f.2.pend with | some (op, n) => decide (n = cid) && kegCommand op | none => false

/-- A keg word waits until the operations of its context that were accepted before it are complete (R411). -/
def kegTurn (key : Nat) : M Unit := do
  modify fun s => s.updThr key fun t => { t with kegAt := some (t.kegAt.getD s.tick) }
  let s ← get
  let t := s.thr key
  if s.kegBusy t.cid (t.kegAt.getD 0) (some key) none then waitOn .outside

/-- A keg word is complete. -/
def kegEnd (key : Nat) : M Unit := do
  modThr key fun t => { t with kegAt := none }
  advance key

/-- KEGSAVE (R411). -/
def execKegsave (xa xb : BitVec 5) (s : State) : Out :=
  sqWord (fun key => do
    needPriv key 1
    let t ← getThr key
    let a := t.rx xa
    let b := t.rx xb
    settleSQ key [a, b]
    if wfld b.val 40 23 ≠ 0 then illegal key
    let len := wfld b.val 0 40
    kegTurn key
    let s ← get
    let c := s.ctx t.cid
    if c.freezing ≠ some (some key) || c.holding then
      if a.val.toNat % 64 ≠ 0 then raise (mkTrap 3 a.val.toNat 0)
      releaseAll key .other
      let s ← get
      match bufferFail s t.cid a.val.toNat len true with
      | some tr => raise { tr with info := if tr.cause = 4#8 then tr.info ||| 65536#64 else tr.info }
      | none => pure ()
      if c.saveFail ≠ some 9 then
        publish key t.curVer.id
        modify fun s =>
          { s with tasks := s.tasks.map fun p => if p.2.key = some key then (p.1, { p.2 with ver := none }) else p }
    match c.saveFail with
    | some st => modify fun s => s.kegStatus t.cid st
    | none =>
      let s ← get
      let (r, s) := s.saveKeg t.cid (some key) a.val.toNat len (b.val.getLsbD 63) false
      set s
      if r.isNone then waitOn .outside
    kegEnd key) s

/-- KEGLOAD (R411, R412). -/
def execKegload (xa xb : BitVec 5) (s : State) : Out :=
  sqWord (fun key => do
    needPriv key 1
    let t ← getThr key
    let a := t.rx xa
    let b := t.rx xb
    settleSQ key [a, b]
    if wfld b.val 40 24 ≠ 0 then illegal key
    let len := wfld b.val 0 40
    kegTurn key
    if a.val.toNat % 64 ≠ 0 then raise (mkTrap 3 a.val.toNat 0)
    releaseAll key .other
    let s ← get
    match bufferFail s t.cid a.val.toNat len false with
    | some tr => raise tr
    | none => pure ()
    publish key t.curVer.id
    let s ← get
    let (st, s) := s.loadKeg t.cid (some key) a.val.toNat len
    set (s.kegStatus t.cid st)
    kegEnd key) s

end Sys2Proof.Machine
end

