-- ==== Sys2Proof/Machine/Sm3.lean ====
section
/-! DEFINITION. The SM3 hash, which image and weight identities, measurements and boot use (R56, R288, R298, R363). -/

namespace Sys2Proof.Machine

/-- A 32-bit word rotated left. -/
def rotl (x : W32) (n : Nat) : W32 := x.rotateLeft n

/-- The permutation of the compression function. -/
def sm3P0 (x : W32) : W32 := x ^^^ rotl x 9 ^^^ rotl x 17

/-- The permutation of the message expansion. -/
def sm3P1 (x : W32) : W32 := x ^^^ rotl x 15 ^^^ rotl x 23

/-- The expanded words of a block, newest first. -/
def sm3Expand : Nat → List W32 → List W32
  | 0, w => w
  | n + 1, w =>
    let at_ := fun k => (w[k]?).getD 0#32
    sm3Expand n ((sm3P1 (at_ 15 ^^^ at_ 8 ^^^ rotl (at_ 2) 15) ^^^ rotl (at_ 12) 7 ^^^ at_ 5) :: w)

/-- The eight words of the chaining value. -/
structure Sm3V where
  a : W32
  b : W32
  c : W32
  d : W32
  e : W32
  f : W32
  g : W32
  h : W32
  deriving DecidableEq, Repr, Inhabited

/-- One round. -/
def sm3Round (v : Sm3V) (j : Nat) (w w' : W32) : Sm3V :=
  let t := if j < 16 then 0x79cc4519#32 else 0x7a879d8a#32
  let ss1 := rotl (rotl v.a 12 + v.e + rotl t (j % 32)) 7
  let ss2 := ss1 ^^^ rotl v.a 12
  let ff := if j < 16 then v.a ^^^ v.b ^^^ v.c else (v.a &&& v.b) ||| (v.a &&& v.c) ||| (v.b &&& v.c)
  let gg := if j < 16 then v.e ^^^ v.f ^^^ v.g else (v.e &&& v.f) ||| (~~~v.e &&& v.g)
  let tt1 := ff + v.d + ss2 + w'
  let tt2 := gg + v.h + ss1 + w
  { a := tt1, b := v.a, c := rotl v.b 9, d := v.c, e := sm3P0 tt2, f := v.e, g := rotl v.f 19, h := v.g }

/-- The rounds of a block over its expanded words. -/
def sm3Rounds : Nat → Nat → List W32 → Sm3V → Sm3V
  | 0, _, _, v => v
  | n + 1, j, w, v =>
    let w0 := (w[0]?).getD 0#32
    sm3Rounds n (j + 1) (w.drop 1) (sm3Round v j w0 (w0 ^^^ (w[4]?).getD 0#32))

/-- The 16 big-endian words of a block. -/
def sm3Words (l : List Byte) : List W32 :=
  (chunks 4 16 l).map fun b => BitVec.ofNat 32 (leNat b.reverse)

/-- A block is taken into the chaining value. -/
def sm3Block (v : Sm3V) (l : List Byte) : Sm3V :=
  let w := (sm3Expand 52 (sm3Words l).reverse).reverse
  let u := sm3Rounds 64 0 w v
  { a := u.a ^^^ v.a, b := u.b ^^^ v.b, c := u.c ^^^ v.c, d := u.d ^^^ v.d, e := u.e ^^^ v.e, f := u.f ^^^ v.f, g := u.g ^^^ v.g
    h := u.h ^^^ v.h }

/-- The message with its padding. -/
def sm3Pad (l : List Byte) : List Byte :=
  let z := (119 - l.length % 64) % 64
  l ++ [0x80#8] ++ List.replicate z 0#8 ++ (natLE 8 (8 * l.length)).reverse

/-- The initial chaining value. -/
def sm3Init : Sm3V :=
  { a := 0x7380166f#32, b := 0x4914b2b9#32, c := 0x172442d7#32, d := 0xda8a0600#32, e := 0xa96f30bc#32, f := 0x163138aa#32
    g := 0xe38dee4d#32, h := 0xb0fb0e4e#32 }

/-- The 32 bytes of the digest of a message, the first byte first. -/
def sm3 (l : List Byte) : List Byte :=
  let p := sm3Pad l
  let v := (chunks 64 (p.length / 64 + 1) p).foldl sm3Block sm3Init
  [v.a, v.b, v.c, v.d, v.e, v.f, v.g, v.h].flatMap fun x => (natLE 4 x.toNat).reverse

/-- The digest as a number whose little-endian bytes are the digest's. -/
def sm3Num (l : List Byte) : BitVec 256 := BitVec.ofNat 256 (leNat (sm3 l))

end Sys2Proof.Machine
end

