-- ==== Sys2Proof/Machine/Slots.lean ====
section
/-! DEFINITION. Model slots: loading a program image, its checks, sealing tensors, unpinning (R56, R57, R288, R289, R297 to
R299, R322, R323). -/

namespace Sys2Proof.Machine

/-! ## Program images (R56, R57, R288, R289) -/

/-- An SB word that a pass-safe program may hold, but for the targets of transfers (R289). -/
def passSb : Instr → Bool
  | .beq _ _ _ => true
  | .bne _ _ _ => true
  | .blt _ _ _ => true
  | .bge _ _ _ => true
  | .bltu _ _ _ => true
  | .bgeu _ _ _ => true
  | .jal _ _ => true
  | .tend => true
  | .movb _ _ => true
  | .waitf f _ => decide (1 ≤ f.toNat ∧ f.toNat ≤ 191)
  | .setf f _ => decide (1 ≤ f.toNat ∧ f.toNat ≤ 191)
  | .clrf f => decide (1 ≤ f.toNat ∧ f.toNat ≤ 191)
  | .waitfx f _ => decide (1 ≤ f.toNat ∧ f.toNat ≤ 191)
  | .fread f _ => decide (1 ≤ f.toNat ∧ f.toNat ≤ 191)
  | .waitc _ _ _ _ => true
  | .tclr _ => true
  | .tclrv _ => true
  | .tclrc => true
  | .tqry _ _ => true
  | .sysrd _ r => [0x000, 0x004, 0x006, 0x009, 0x00A, 0x00B].contains r.toNat
  | _ => false

/-- A queue word that a pass-safe program may hold (R289). -/
def passQueue : Instr → Bool
  | .vld _ _ _ _ => true
  | .vldb _ _ _ _ => true
  | .vlwait _ _ => true
  | .vlset _ _ => true
  | .vstrw _ _ _ => true
  | .vswait _ _ => true
  | .vsset _ _ => true
  | .mdrainv _ _ _ _ => true
  | .mxwait _ _ => true
  | .mxset _ _ => true
  | _ => false

/-- The distance that a branch or JAL transfers. -/
def transferOff : Instr → Option Int
  | .beq _ _ o => some o.toInt
  | .bne _ _ o => some o.toInt
  | .blt _ _ o => some o.toInt
  | .bge _ _ o => some o.toInt
  | .bltu _ _ o => some o.toInt
  | .bgeu _ _ o => some o.toInt
  | .jal _ o => some o.toInt
  | _ => none

/-- A word at an index of a range of n words is allowed in a pass-safe program (R289). -/
def passWord (n at_ : Nat) (w : W32) : Bool :=
  match decodeWord w.toNat with
  | .error _ => false
  | .ok i =>
    let ok := match fld w.toNat 29 3 with
      | 0 => true
      | 4 => true
      | 1 => passSb i
      | 3 => passQueue i
      | 5 => passQueue i
      | 6 => passQueue i
      | _ => false
    ok && (match transferOff i with
      | some o => decide (0 ≤ (at_ : Int) + o) && decide ((at_ : Int) + o < n)
      | none => true)

/-- The words up to the first TEND, that word among them (R288). -/
def upToTend : List W32 → Option (List W32)
  | [] => none
  | w :: r =>
    match decodeWord w.toNat with
    | .ok .tend => some [w]
    | _ => (upToTend r).map fun l => w :: l

/-- The bytes of text words. -/
def wordBytes (l : List W32) : List Byte := l.flatMap fun w => natLE 4 w.toNat

/-- The first 64 bits of a digest of words, as a little-endian value (R56, R288). -/
def hash64 (l : List W32) : W64 := BitVec.ofNat 64 (leNat ((sm3 (wordBytes l)).take 8))

/-- An image as its bytes give it: text, data with relocations applied, tags, and the fields of the header (R56). -/
structure Parsed where
  text : List W32
  data : List Byte
  tags : List W32
  entry : Nat
  scratchG : Nat
  psafe : List Nat
  hash : W64
  deriving Repr, Inhabited

/-- A part of an image lies within it at a 64-byte aligned offset after the header (R56). -/
def partOk (len off n : Nat) : Bool := off % 64 = 0 && 256 ≤ off && off + n ≤ len

/-- Consecutive little-endian fields of n bytes. -/
def bfields (l : List Byte) (off n count : Nat) : List Nat := (countFrom 0 count).map fun i => bfld l (off + n * i) n

/-- Strictly rising. -/
def rising : List Nat → Bool
  | x :: y :: r => decide (x < y) && rising (y :: r)
  | _ => true

/-- Bytes that are zero from the first zero byte on, as NAME is padded (R56). -/
def padded : List Byte → Bool
  | [] => true
  | b :: r => if b = 0#8 then r.all (· = 0#8) else padded r

/-- Bytes of a list replaced from an offset on. -/
def patch (l : List Byte) (off : Nat) (b : List Byte) : List Byte := l.take off ++ b ++ l.drop (off + b.length)

/-- One relocation (R57). -/
def relocate (slot : Nat) (dataVa : W64) (d : List Byte) (e : Nat) : List Byte :=
  let off := e % 4294967296
  let v := BitVec.ofNat 64 (bfld d off 8)
  let v := if e / 4294967296 = 0 then (v &&& ~~~0x1FF8000#64) ||| BitVec.ofNat 64 (slot % 1024 * 32768) else v + dataVa
  patch d off (natLE 8 v.toNat)

/-- Reads and checks an image (R56, R57): none when a field of its header, a relocation or a pass-safe entry breaks a
rule, or its hash is not its text's. -/
def parseImage (l : List Byte) (slot : Nat) (dataVa : W64) : Option Parsed :=
  let words := bfld l 8 4
  let dataBytes := bfld l 12 4
  let entry := bfld l 16 4
  let scratch := bfld l 20 1
  let relocs := bfld l 48 4
  let psN := bfld l 56 4
  let psOff := bfld l 52 4
  if l.length < 256 || bfld l 0 4 ≠ 0x4D495650 || bfld l 4 2 ≠ 1 || bfld l 6 2 ≠ (if psN = 0 then 0 else 1) || words = 0 ||
      32768 < words || dataBytes % 64 ≠ 0 || dataBytes < 64 || 67108864 < dataBytes || entry % 64 ≠ 0 || dataBytes < entry + 64 ||
      scratch = 0 || 128 < scratch || bfld l 21 3 ≠ 0 || 1024 < psN || (psN = 0 && psOff ≠ 0) || bfld l 60 4 ≠ 0 ||
      !padded ((l.drop 64).take 16) || ((l.drop 80).take 176).any (fun b => b ≠ 0#8) then none
  else if !partOk l.length (bfld l 32 4) (4 * words) || !partOk l.length (bfld l 36 4) dataBytes ||
      !partOk l.length (bfld l 40 4) (dataBytes / 16) || !partOk l.length (bfld l 44 4) (8 * relocs) ||
      (psN ≠ 0 && !partOk l.length psOff (4 * psN)) then none
  else
    let text := (bfields l (bfld l 32 4) 4 words).map (BitVec.ofNat 32)
    let rel := bfields l (bfld l 44 4) 8 relocs
    let ps := bfields l psOff 4 psN
    if rel.any (fun e => 1 < e / 4294967296 || dataBytes < e % 4294967296 + 8) || !rising ps ||
        ps.any (fun p => p % 64 ≠ 0 || dataBytes ≤ p) || hash64 text ≠ BitVec.ofNat 64 (bfld l 24 8) then none
    else
      let data := rel.foldl (relocate slot dataVa) ((l.drop (bfld l 36 4)).take dataBytes)
      some { text := text, data := data, tags := (bfields l (bfld l 40 4) 4 (dataBytes / 64)).map (BitVec.ofNat 32), entry := entry
             scratchG := scratch, psafe := ps, hash := hash64 text }

/-- The pass-safe program of a listed record: its first word, its words (R288); none when it breaks R289. -/
def Parsed.program (p : Parsed) (rec_ : Nat) : Option (Nat × List W32) :=
  let epi := bfld p.data (rec_ + 16) 8 % 32768
  match upToTend (p.text.drop epi) with
  | none => none
  | some ws => if (ws.zip (countFrom 0 ws.length)).all fun e => passWord ws.length e.2 e.1 then some (epi, ws) else none

/-- The words of a pass-safe program of a resident image. -/
def Image.programWords (i : Image) (e : Nat × Nat × Nat × W64) : List W32 := (i.text.drop e.1).take e.2.1

/-- Programs with one hash have the same words (R288). -/
def sameHashSame (l : List (W64 × List W32)) : Bool :=
  l.all fun a => l.all fun b => decide (a.1 ≠ b.1) || decide (a.2 = b.2)

/-- The k-th number that is not in a rising list. -/
def kthFree : List Nat → Nat → Nat
  | [], k => k
  | u :: r, k => if u ≤ k then kthFree r (k + 1) else k

/-- Frames for the device's own use: which of the frames that are neither owned nor sealed it takes is not stated (R323;
DESIGN CHOICE, assumption log entry 22). -/
def State.takeFrames : State → Nat → List Nat → List Nat × State
  | s, 0, got => (got, s)
  | s, n + 1, got =>
    let used := s.frames.filterMap fun f => if fld f.2.toNat 12 1 = 1 || fld f.2.toNat 14 1 = 1 then some f.1 else none
    let free := 16777216 - used.length
    if free = 0 then (got, s)
    else
      let f := kthFree used ((Config.freeWord s.fresh).toNat % free)
      State.takeFrames { s with fresh := s.fresh + 1, frames := s.frames.set f 0x4000#32 } n (got ++ [f])

/-- SLOT_LOAD (R322, R323): the ERR it answers, and the state. -/
def State.slotLoad (s : State) (slot host len : Nat) (dataVa : W64) : Nat × State :=
  if (s.images.get slot).resident then (4, s)
  else if dataVa.toNat % 65536 ≠ 0 || 4503599627370496 ≤ dataVa.toNat then (2, s)
  else
    match parseImage (s.host.bytes host len) slot dataVa with
    | none => (2, s)
    | some p =>
      let progs := p.psafe.map p.program
      let own := progs.filterMap id
      let old := s.images.flatMap fun i => i.2.psafe.map fun e => (e.2.2.2, i.2.programWords e)
      if progs.any (·.isNone) || !sameHashSame (own.map (fun e => (hash64 e.2, e.2)) ++ old) then (2, s)
      else
        let n := (p.data.length + 65535) / 65536
        let (fr, s1) := s.takeFrames n []
        if fr.length < n then (4, s)
        else
          let s1 := { s1 with frames := fr.foldl (fun m f => m.set f (BitVec.ofNat 32 (0x4000 + slot * 65536))) s1.frames }
          let place := fun (o : Nat) => (fr[o / 65536]?).getD 0 * 65536 + o % 65536
          let s1 := ((chunks 65536 n p.data).zip (countFrom 0 n)).foldl (fun s e => s.writeCommitted .hbm (place (65536 * e.2)) e.1) s1
          let s1 := { s1 with hbm := (p.tags.zip (countFrom 0 p.tags.length)).foldl (fun (m : Memory) (e : W32 × Nat) => m.setTag (place (64 * e.2)) e.1) s1.hbm }
          let img : Image :=
            { resident := true, text := p.text, dataBytes := p.data.length, dataVa := dataVa, frames := fr, entry := p.entry
              scratchG := p.scratchG, psafe := own.map fun e => (e.1, e.2.length, 0, hash64 e.2), hash := p.hash }
          (0, { s1 with images := s1.images.put slot img })

/-! ## Sealing (R297, R298) -/

/-- The width class of a tag's format (R268, R298). -/
def tagClass (tag : W32) : Option Nat :=
  match tagTy tag.toNat with
  | some .bf16 => some 0
  | some .f16 => some 0
  | some .e4m3 => some 1
  | some .e5m2 => some 1
  | some .i8 => some 2
  | some .e2m1 => some 3
  | some .sq4 => some 3
  | _ => none

/-- The pieces of a range of a context for the device's own use: readable HBM that the context owns. -/
def ownPieces (s : State) (cid va len : Nat) : Option (List Piece) :=
  if 4503599627370496 < va + len then none
  else
    let res := (cutSpan (len / 16384 + 2) va len).map fun p => flatPiece s cid p.1 p.2
    if res.any fun r => match r with
      | .ok p => !(decide (p.tgt = .hbm) && p.leaf.rd)
      | .error _ => true then none
    else some (oksOf res)

/-- A column of a tile holds code zero from its first element outside the tensor on: N counts columns of a tile, of which there are 128, and K
positions of the whole tensor (R268, R297, R298; DEDUCED, assumption log entry 47). -/
def columnOk (k n width kt : Nat) (c : Nat) (col : List Byte) : Bool :=
  let keep := if n ≤ c then 0 else (k - kt * (2048 / width)) * width
  leNat col / 2 ^ Nat.min keep 2048 = 0

/-- TENSOR_SEAL (R298): the ERR it answers, the identity, and the state. -/
def State.tensorSeal (s : State) (cid slot va desc : Nat) : Nat × BitVec 128 × State :=
  if !(s.images.get slot).resident then (2, 0, s)
  else
    match ownPieces s cid desc 64 with
    | none => (2, 0, s)
    | some dp =>
      let d := dp.flatMap fun p => s.hbm.bytes p.addr p.len
      let kt := bfld d 0 2
      let nt := bfld d 2 2
      let k := bfld d 4 2
      let n := bfld d 6 2
      let wc := bfld d 8 1
      let side := bfld d 12 4
      let size := kt * nt * 32768
      if 3 < wc || bfld d 9 3 ≠ 0 || (d.drop 16).any (· ≠ 0#8) || size = 0 || side % 64 ≠ 0 || 1048576 < side || va % 64 ≠ 0 then (2, 0, s)
      else
        match ownPieces s cid va (size + side) with
        | none => (2, 0, s)
        | some ps =>
          let t : Tensor :=
            { slot := slot, cid := cid, va := va, wid := 0, kt := kt, nt := nt, k := k, n := n, wclass := wc, side := side
              chunks := ps.map fun p => p.addr - p.va % 16384, named := 0, unpinned := false }
          let body := ps.flatMap fun p => s.hbm.bytes p.addr p.len
          let tags := (countFrom 0 (size / 64)).map fun i => s.hbm.tag (t.at_ (64 * i))
          let cols := (countFrom 0 (kt * nt * 128)).all fun i =>
            columnOk k n (widthOf wc) (i / 128 % kt) (i % 128) ((body.drop (256 * i)).take 256)
          if !cols || tags.any fun g => tagClass g ≠ some wc then (2, 0, s)
          else
            let wid := BitVec.ofNat 128 (leNat ((sm3 (d ++ body.take size ++ (tags.flatMap fun g => natLE 4 g.toNat) ++ body.drop size)).take 16))
            let t := { t with wid := wid }
            let mark := fun (e : W32) => (e &&& 0xFC00AFFF#32) ||| BitVec.ofNat 32 (0x4000 + slot % 1024 * 65536)
            (0, wid, ({ s with
              tensors := s.tensors ++ [t]
              tlb := s.tlb.filter fun x => !x.inFrames t.frameList
              frames := t.frameList.foldl (fun m f => m.set f (mark (m.get f))) s.frames } : State).refreshBulletin)

/-! ## Unpinning (R299, R322) -/

/-- A thread of any context, or a pass, runs a program of a model slot (R343). -/
def State.slotRuns (s : State) (slot : Nat) : Bool :=
  (s.threads.any fun t => t.2.alive && decide (t.2.live.task.slot = slot)) ||
    s.passes.any fun p => p.2.core.isSome && decide (p.2.codeSlot = slot)

/-- SLOT_UNPIN (R299, R343): the ERR it answers, and the state. -/
def State.slotUnpin (s : State) (slot : Nat) : Nat × State :=
  if !(s.images.get slot).resident then (0, s)
  else if s.slotRuns slot then (4, s)
  else
    let img := s.images.get slot
    let s : State := { s with
      images := NMap.erase s.images slot
      tlb := s.tlb.filter fun x => !x.inFrames img.frames
      frames := img.frames.foldl (fun m f => m.set f 0#32) s.frames
      cores := s.cores.map fun c => (c.1, { c.2 with overlay := c.2.overlay.filter (· ≠ slot) })
      tensors := s.tensors.map fun t => if t.slot = slot then { t with unpinned := true } else t }
    (0, s.poisonOrphans.releaseTensors)

end Sys2Proof.Machine
end

