-- ==== Sys2Proof/Machine/HostCmd.lean ====
section
/-! DEFINITION. Function commands: contexts, frames, invalidation, dirty bits, endpoints, traps, pages, kegs, migration and model
slots; the end of contexts and functions (R331, R339 to R361, R376, R388, R397, R415 to R418). -/

namespace Sys2Proof.Machine

/-! ## The end of a context (R344, R361) -/

/-- The threads of a context. -/
def State.ctxThreads (s : State) (cid : Nat) : List Nat :=
  (s.threads.filter fun p => decide (p.2.cid = cid) && decide (p.1 < passBase)).map (·.1)

/-- Step 1 of R344: queues stop, staged and released emissions are discarded, rings and queues of the context are disabled, and what is left
in the rings is never processed. -/
def State.stopQueues (s : State) (cid : Nat) : State :=
  let mine := fun (k : Nat) => (s.lqs.get k).cid = cid
  { s with
    lqs := s.lqs.map fun q => if q.2.cid = cid then
      (q.1, { q.2 with enable := false, delivered := [], released := [], copies := [], starting := [] }) else q
    rings := s.rings.map fun r => if r.2.cid = cid then (r.1, { r.2 with enable := false, head := r.2.tail, inl := [] }) else r
    interps := s.interps.map fun i => if i.2.busy && mine (lqKey i.2.fn i.2.lq) then (i.1, default) else i
    gangHolds := s.gangHolds.filter fun h => h.cid ≠ cid
    places := s.places.filter fun p => !p.keys.any fun k => k / 65536 = cid }

/-- Step 3 of R344: tile tasks are withdrawn, and the scatter of launched rows is dropped. -/
def State.withdrawTasks (s : State) (cid : Nat) : State :=
  let gone := (s.tasks.filter fun p => p.2.cid = cid && p.2.st ≠ .launched).map (·.1)
  { s with
    tasks := (s.tasks.filter fun p => !gone.contains p.1).map fun p => if p.2.cid = cid then (p.1, { p.2 with gone := true, pass := none }) else p
    passes := (s.passes.map fun p =>
      if p.2.core.isSome then p else (p.1, { p.2 with tasks := p.2.tasks.filter fun x => !gone.contains x })).filter fun p =>
        p.2.core.isSome || !p.2.tasks.isEmpty }

/-- Contexts become DYING: their threads stop where they are and every uncommitted version of them is discarded, with the versions of other
threads that depend on these (R344 step 2, R387). What ends posts nothing any more. -/
def State.discardCtxs (s : State) (cids : List Nat) : State :=
  let s := cids.foldl (fun s cid => s.updCtx cid fun c => { c.withState 3 with dyingAt := s.tick, freezing := none }) s
  let src := s
  let keys := cids.flatMap s.ctxThreads
  let s := keys.foldl (fun s k =>
    ((s.thr k).versions.map (·.id)).reverse.foldl (fun s id => (s.withdrawVersion k id).discardVersion k id) s) s
  ((src.cascadeOf src.threads.length (keys.map fun k => (k, k))).drop keys.length).foldl (fun s p => s.cascadeTo src p) s

/-- Steps 1 to 4 of R344 for a context whose versions have been discarded. -/
def State.beginEnd (s : State) (cid : Nat) : State :=
  let s := s.stopQueues cid
  let s := (s.ctxThreads cid).foldl (fun s k => if (s.thr k).alive then s.retire k true else s) s
  ({ s with threads := s.threads.filter fun p => !(decide (p.2.cid = cid) && (decide (p.1 < passBase) || decide (7 * passBase ≤ p.1))) } : State).withdrawTasks cid

/-- Fabric packets of a context that have not been answered. -/
def ctxPacket (cid : Nat) (p : Packet) : Bool := p.key / 65536 = cid || p.key = 4 * passBase + cid

/-- A staging extent is cleared (R354). -/
def State.scrubStaging (s : State) (e : Nat × Nat) : State :=
  let inside := fun (a : Nat) => decide (e.1 ≤ a) && decide (a < e.1 + e.2)
  { s with staging :=
      { cells := s.staging.cells.filter fun c => !inside c.1, tags := s.staging.tags.filter fun t => !inside (64 * t.1) } }

/-- A request whose reply another package holds is cancelled there (R361 step 4); the message is no traffic of the context any longer. -/
def State.cancelReply (s : State) (p : Packet) : State :=
  let owed := match p.kind with | .lineRead _ => true | .marked _ _ => true | .bulletin _ => true | _ => false
  if !owed then s
  else { s with
    outbox := s.outbox ++ [{ p with id := s.pktNext, key := 5 * passBase + p.key / 65536, kind := .cancel p.seq, retry := 0 }]
    pktNext := s.pktNext + 1 }

/-- Packets that nobody will perform any more are answered ENDPOINT_GONE, where the sender still waits (R361 step 3). -/
def State.refuseAll (s : State) (l : List InPkt) : State := l.foldl (fun s p => s.answerOnce p .gone) s

/-- A reset of a function is complete once none of its contexts is DYING (R360). -/
def State.flrDone (s : State) (fn : Nat) : State :=
  if (s.func fn).flr && !(s.ctxs.any fun x => x.2.stateOf = 3 && x.2.func = fn) then
    { s with funcs := s.funcs.put fn { s.func fn with flr := false } }
  else s

/-- Steps 5 to 7 of R344, once the traffic of the context has drained or been abandoned: its endpoints are GONE and their
generation rises, its staging extents are cleared, its claims released, its translations dropped, and it is FREE. -/
def State.finishEnd (s : State) (cid : Nat) : State :=
  let c := s.ctx cid
  let mine := fun (ep : W32) => let e := s.endpoints.get ep.toNat; decide (e.pkg = s.pkg.self) && decide (e.cid = cid)
  let s := (s.outbox.filter (ctxPacket cid)).foldl State.cancelReply s
  let s := s.refuseAll (c.store ++ (s.inflows.filter fun f => mine f.ep).flatMap (·.waiting))
  let s : State := { (s.dropTrans cid none) with
    outbox := s.outbox.filter fun p => !ctxPacket cid p
    invals := s.invals.filter fun i => i.cid ≠ cid
    inflows := s.inflows.filter fun f => !mine f.ep
    endpoints := s.endpoints.map fun e => if e.2.pkg = s.pkg.self && e.2.cid = cid then (e.1, { e.2 with st := 2, gen := e.2.gen + 1 }) else e }
  let s := (c.staging.filterMap fun e => e.head?.map extentOf).foldl State.scrubStaging (s.releaseClaims cid)
  s.setCtx cid { (default : Ctx) with transGen := c.transGen + 1 }

/-- The end goes on once nothing of the context is on the fabric (R361 step 2). -/
def State.drainEnd (s : State) (cid : Nat) : State :=
  if (s.ctx cid).stateOf = 3 && !s.outbox.any (ctxPacket cid) then s.finishEnd cid else s

/-- TEARDOWN_DRAIN_TIMEOUT (R361 step 2): traffic that has not been acknowledged after 125,000 ticks is abandoned. -/
def execTeardownDrainTimeout (cid : Nat) (s : State) : Out :=
  .next (if (s.ctx cid).stateOf = 3 && decide ((s.ctx cid).dyingAt + 125000 ≤ s.tick) then s.finishEnd cid else s)

/-- The contexts of a function that exist. -/
def State.ctxsOf (s : State) (fn : Nat) : List Nat := (s.ctxs.filter fun c => (c.2.stateOf = 1 || c.2.stateOf = 2) && c.2.func = fn).map (·.1)

/-- Every context of a function ends (R344): those with nothing on the fabric at once. -/
def State.endAll (s : State) (fn : Nat) : State :=
  let l := s.ctxsOf fn
  l.foldl (fun s c => (s.beginEnd c).drainEnd c) (s.discardCtxs l)

/-- The package registers at PF reset (R306); what stands for power, boot and the package's number stays. -/
def Pkg.atReset (p : Pkg) : Pkg :=
  { p with shapeRefused := 0, shapeW1 := [], weightErr := false, weights := [], errWindow := 60, errThresh := 0x0000006400640064
           flrDropped := 0, dropped := 0 }

/-- The tables of a function at their reset values (R305 to R307, R311, R318, R360). A reset of the PF resets the function
range table and the package registers too. -/
def State.resetTables (s : State) (fn : Nat) : State :=
  let f := s.func fn
  let keep : Func := { (default : Func) with ringFirst := f.ringFirst, ringCount := f.ringCount, lqFirst := f.lqFirst, lqCount := f.lqCount, flr := f.flr }
  let s : State := { s with
    rings := s.rings.filter fun r => r.1 / 131072 ≠ fn
    lqs := s.lqs.filter fun q => q.1 / 8192 ≠ fn
    progs := s.progs.filter fun p => p.1 / 256 ≠ fn
    bells := s.bells.filter fun b => b.1 ≠ fn
    interps := s.interps.map fun i => if i.2.busy && i.2.fn = fn then (i.1, default) else i
    funcs := s.funcs.put fn keep }
  if fn = 0 then
    { s with
      funcs := NMap.put (s.funcs.map fun f => (f.1, { f.2 with ringFirst := 0, ringCount := 0, lqFirst := 0, lqCount := 0 })) 0
        { keep with ringFirst := 0, ringCount := 131072, lqFirst := 0, lqCount := 8192 }
      pkg := s.pkg.atReset }
  else s

/-- FLR (R360): from this point on the function's writes are dropped, until its contexts have ended and the reset is complete. -/
def execFlr (fn : Nat) (s : State) : Out :=
  if 256 ≤ fn then .next s else
  .next ((({ s with funcs := s.funcs.put fn { s.func fn with flr := true } } : State).endAll fn).resetTables fn)

/-- VF_TEARDOWN (R344, R361): the contexts of a virtual function end. -/
def execVfTeardown (fn : Nat) (s : State) : Out := .next (if fn = 0 || 256 ≤ fn then s else s.endAll fn)

/-! ## Operands of commands (R343) -/

/-- The bits of W0 to W4 that a command uses; none for an opcode that is not listed (R343). -/
def cmdWidths : Nat → Option (List Nat)
  | 0x01 => some [12, 8]
  | 0x02 => some [12, 64, 64]
  | 0x03 => some [12]
  | 0x04 => some [0, 24, 25, 32]
  | 0x05 => some [12, 64, 64]
  | 0x06 => some [12, 64, 64, 64]
  | 0x07 => some [0, 8]
  | 0x08 => some [0, 8]
  | 0x09 => some [0, 32, 28, 2]
  | 0x0A => some [12, 16, 2]
  | 0x0B => some [0, 10]
  | 0x0C => some [12, 64, 64, 1]
  | 0x0D => some [12, 64, 64, 2]
  | 0x0E => some [12, 64, 64]
  | 0x0F => some [12]
  | 0x10 => some [12, 16, 12]
  | 0x11 => some [12, 64, 64, 16, 12]
  | 0x12 => some [12, 16, 12]
  | 0x13 => some [12]
  | 0x14 => some [0, 10, 64, 64, 64]
  | 0x15 => some [12, 10, 64, 64]
  | 0x16 => some [0, 10]
  | _ => none

/-- The command names a context. -/
def cmdCtx (op : Nat) : Bool := !([0x04, 0x07, 0x08, 0x09, 0x0B, 0x14, 0x16].contains op)

/-- The commands that a VF may give (R342). -/
def vfCommands : List Nat := [0x05, 0x06, 0x0A, 0x0C, 0x0D, 0x0E, 0x0F]

/-- The words fit what the command uses (R343). -/
def wordsOk (cmd : NMap W64) (widths : List Nat) : Bool :=
  (countFrom 0 8).all fun i => decide ((cmd.get i).toNat < 2 ^ (widths[i]?).getD 0)

/-! ## Contexts (R340, R342) -/

/-- The descriptor of a new context (R340). -/
def newDesc (cid fn : Nat) : NMap W64 :=
  [(0, BitVec.ofNat 64 (cid + fn * 4096 + 2097152)), (2, 65536#64), (3, BitVec.ofNat 64 (30 + 6 * 256 + 14 * 65536 + 128 * 4294967296)),
   (4, BitVec.ofNat 64 (16384 + 256 * 4294967296))]

/-- CTX_CREATE (R342). -/
def State.ctxCreate (s : State) (cid fn : Nat) : Nat × State :=
  let c := s.ctx cid
  if c.stateOf ≠ 0 then (3, s)
  else (0, s.setCtx cid { (default : Ctx) with desc := newDesc cid fn, transGen := c.transGen })

/-- The fields that CTX_SET writes in a descriptor word: lowest bit, bits, least and greatest value (R340). -/
def ctxFields : Nat → List (Nat × Nat × Nat × Nat)
  | 0 => [(20, 1, 0, 1)]
  | 8 => [(14, 38, 0, 2 ^ 38)]
  | 16 => [(0, 17, 1, 65536), (32, 16, 0, 65535)]
  | 24 => [(0, 8, 0, 30), (8, 8, 0, 8), (16, 8, 0, 14), (32, 8, 1, 128)]
  | 32 => [(0, 32, 1024, 1048576), (32, 16, 1, 8192)]
  | 40 => [(3, 49, 0, 2 ^ 49)]
  | 48 => [(23, 29, 0, 2 ^ 29)]
  | 56 => [(0, 18, 0, 131072)]
  | 64 => [(0, 5, 0, 16), (8, 2, 0, 2)]
  | 72 => [(6, 46, 0, 2 ^ 46)]
  | 80 => [(0, 7, 0, 64)]
  | 88 => [(6, 46, 0, 2 ^ 46)]
  | 96 => [(0, 9, 0, 256)]
  | 104 => [(8, 44, 0, 2 ^ 44)]
  | _ => []

/-- The mask of fields. DEDUCED: assumption log entry 48. -/
def fieldMask (l : List (Nat × Nat × Nat × Nat)) : W64 := l.foldl (fun m f => m ||| (BitVec.ofNat 64 (2 ^ f.2.1 - 1) <<< f.1)) 0#64

/-- The device reads the tables to which a descriptor points (R340): the slots granted, with the admin bit; the endpoint grants;
the staging extents. A withdrawn staging extent is cleared (R354). -/
def State.readTables (s : State) (cid : Nat) : State :=
  let c := s.ctx cid
  let map := wfld (c.word 104) 8 44 * 256
  let bit := fun (n : Nat) => (s.hbm.byte (map + n / 8)).getLsbD (n % 8)
  let slots := if map = 0 then [] else (countFrom 0 1024).filterMap fun i => if bit i then some (i, if bit (1024 + i) then 1 else 0) else none
  let list := fun (base n : Nat) => (countFrom 0 n).map fun i => [BitVec.ofNat 64 (s.hbm.readLE (base + 8 * i) 8)]
  let grants := list (wfld (c.word 88) 6 46 * 64) (wfld (c.word 96) 0 9)
  let stage := list (wfld (c.word 72) 6 46 * 64) (wfld (c.word 80) 0 7)
  let gone := c.staging.filter fun e => !stage.contains e
  let s := (gone.filterMap fun e => e.head?.map extentOf).foldl State.scrubStaging s
  let s := if c.grants = grants then s else s.stir fun _ t => decide (t.cid = cid)
  s.updCtx cid fun c => { c with slotmap := slots, grants := grants, staging := stage }

/-- CTX_SET (R340, R342): the fields that the device writes, and reserved bits, keep their value. -/
def State.ctxSet (s : State) (cid off : Nat) (v : W64) : Nat × State :=
  let fs := ctxFields off
  if off % 8 ≠ 0 || 120 < off || fs.any fun f => wfld v f.1 f.2.1 < f.2.2.1 || f.2.2.2 < wfld v f.1 f.2.1 then (2, s)
  else
    let m := fieldMask fs
    let s := s.updCtx cid fun c => { c with desc := c.desc.put (off / 8) ((c.word off &&& ~~~m) ||| (v &&& m)) }
    (0, s.readTables cid)

/-- CTX_DESTROY (R344): it completes when the context is FREE. -/
def State.ctxDestroy (s : State) (cid : Nat) : Option Nat × State :=
  let s := if (s.ctx cid).stateOf = 1 || (s.ctx cid).stateOf = 2 then (s.discardCtxs [cid]).beginEnd cid else s
  let s := s.drainEnd cid
  (if (s.ctx cid).stateOf = 0 then some 0 else none, s)

/-! ## Frames, translation, dirty bits (R348 to R353) -/

/-- A loaded sparge program pins a frame (R319). -/
def State.framePinned (s : State) (f : Nat) : Bool := s.progs.any fun p => p.2.loaded && p.2.tables.any fun t => t.places.any fun a => a / 65536 = f

/-- FRAME_SET (R348). -/
def State.frameSet (s : State) (first count : Nat) (entry : W32) : Nat × State :=
  if count = 0 || 16777216 < first + count then (2, s)
  else if (s.frames.any fun f => first ≤ f.1 && f.1 < first + count && f.2.getLsbD 14) ||
      (countFrom first count).any s.framePinned then (4, s)
  else
    let e := entry &&& 0x3FFF#32
    let old := s.frames.filterMap fun f => if first ≤ f.1 && f.1 < first + count && f.2.getLsbD 12 then some (fld f.2.toNat 0 12) else none
    let owners := (old ++ if e.getLsbD 12 then [fld e.toNat 0 12] else []).eraseDups
    let s := { s with frames := (countFrom first count).foldl (fun m f => m.set f e) s.frames }
    (0, owners.foldl (fun s o => s.invalidate o none) s)

/-- The range of an invalidation may be named (R352). -/
def rangeOk (va len : Nat) : Bool := len = 0 || (va % 65536 = 0 && len % 65536 = 0 && va + len ≤ 4503599627370496)

/-- DIRTY_READ (R350): bit i of the copy is bit first + i of the bitmap (DEDUCED, assumption log entry 36). -/
def State.dirtyRead (s : State) (cid first count host : Nat) : Nat × State :=
  let c := s.ctx cid
  if host % 8 ≠ 0 || wfld (c.word 56) 0 18 * 128 < first + count then (2, s)
  else
    let map := wfld (c.word 40) 3 49 * 8
    let bit := fun (i : Nat) => (s.hbm.byte (map + (first + i) / 8)).getLsbD ((first + i) % 8)
    let byte := fun (j : Nat) => (countFrom 0 8).foldl (fun (b : Byte) k => if 8 * j + k < count && bit (8 * j + k) then b ||| (1#8 <<< k) else b) 0#8
    let out := (countFrom 0 ((count + 7) / 8)).map byte
    let hbm := (countFrom 0 count).foldl (fun (m : Memory) i =>
      let a := map + (first + i) / 8
      m.setByte a (m.byte a &&& ~~~(1#8 <<< ((first + i) % 8)))) s.hbm
    (0, ({ s with hbm := hbm, host := s.host.setBytes host out } : State).invalidate cid none)

/-! ## Counters, endpoints, units (R331, R358, R397) -/

/-- CNT_CLAIM (R358): a context that holds the bank keeps a frozen view of it. -/
def State.hvClaim (s : State) (n : Nat) : Nat × State :=
  if 144 ≤ n then (2, s) else
  let s := s.catchUp n
  let b := s.banks.get n
  if b.holder = 1 then (0, s)
  else
    let s := if 2 ≤ b.holder then { s with revoked := s.revoked.put ((b.holder - 2) * 256 + n) b } else s
    (0, { s with banks := s.banks.put n { (default : Bank) with holder := 1 } })

/-- CNT_REL (R358). -/
def State.hvRelease (s : State) (n : Nat) : Nat × State :=
  if 144 ≤ n then (2, s) else (0, if (s.banks.get n).holder = 1 then { s with banks := s.banks.erase n } else s)

/-- EP_SET (R331): the entry keeps its generation, which teardowns alone raise (R361, R362). Parked packets are performed when an endpoint that
was FROZEN is ACTIVE again. -/
def State.epSet (s : State) (ep pkg cid st : Nat) : Nat × State :=
  if 2 < st then (2, s)
  else
    let s := { s with endpoints := s.endpoints.put ep { pkg := pkg, cid := cid, gen := (s.endpoints.get ep).gen, st := st } }
    let c := s.ctx cid
    if st = 0 && pkg = s.pkg.self && c.stateOf = 1 && c.relay.isNone then
      let mine := c.store.filter fun p => p.h.ep.toNat = ep
      let s := s.updCtx cid fun c => { c with store := c.store.filter fun p => p.h.ep.toNat ≠ ep }
      (0, (mine.foldl (fun s p => s.enterFlow cid p) s).drainFlows)
    else (0, s)

/-- The threads placed on cores that are to be left: they are pre-empted with their gangs, and a gang of which none runs gives up
the slots it keeps (R230, R336, R397). -/
def State.vacate (s : State) (leave : Nat → Bool) : State :=
  let keys := (s.threads.filter fun p => (p.2.placed || p.2.homed) && p.2.alive && leave p.2.core && p.1 < passBase).map (·.1)
  keys.foldl (fun s k =>
    let gang := s.gangKeys k
    if gang.any fun g => decide ((s.thr g).run = .resident) then gang.foldl (fun s g => s.updThr g fun t => t.askStop s.tick) s
    else
      let off := fun (t : Thread) => { t with run := if t.run = .unstarted then .waiting else t.run, core := 0, slot := 0, placed := false, homed := false }
      let s := gang.foldl (fun s g => s.updThr g off) s
      if gang.any fun g => decide ((s.thr g).run = .waiting) then s.askPlace gang else s) s

/-- UNIT_RETIRE (R397): the threads on the core are pre-empted, and nothing is placed there again. -/
def State.unitRetire (s : State) (core : Nat) : Nat × State :=
  if 832 ≤ core then (2, s)
  else (0, ({ s with cores := s.cores.put core { s.cores.get core with retired := true } } : State).vacate fun c => decide (c = core))

/-! ## Traps and pages (R376, R388) -/

/-- TRAP_RESOLVE (R376). -/
def State.trapResolve (s : State) (cid thr act : Nat) : Nat × State :=
  if 2 ≤ act then (2, s)
  else
    let r := s.trapAction cid thr act
    (if r.1 = 0 then 0 else if r.1 = 1 then 3 else 2, r.2)

/-- PAGE_DONE (R388): threads parked on the range go on, or take PAGE; tile tasks and copies take the verdict too. -/
def State.pageDone (s : State) (cid va len : Nat) (fail : Bool) : State :=
  let hit := fun (t : Thread) => match t.run with
    | .parkedPage tr => decide (va ≤ tr.addr.toNat) && decide (tr.addr.toNat < va + Nat.max len 1)
    | _ => false
  let keys := (s.threads.filter fun p => p.2.alive && decide (p.2.cid = cid) && hit p.2).map (·.1)
  let s := keys.foldl (fun s k =>
    match (s.thr k).run with
    | .parkedPage tr =>
      if fail then s.deliver k { tr with info := tr.info &&& ~~~65536#64 } else (s.updThr k fun t => { t with run := .waiting }).askAgain k
    | _ => s) s
  (s.pagesDone cid va len fail).copyVerdict cid va (Nat.max len 1) fail

/-! ## Kegs and migration (R415 to R418) -/

/-- KEG_SAVE (R415). -/
def State.kegSaveCommand (s : State) (cont : Bool) (cid va len : Nat) (hold mig : Bool) : Option Nat × State :=
  let c := s.ctx cid
  if mig && !hold then (some 2, s)
  else if !cont && (va % 64 ≠ 0 || (bufferFail s cid va len true).isSome) then (some 2, s)
  else
    match c.saveFail with
    | some st => (some (16 + st), s.kegStatus cid st)
    | none =>
      let r := s.saveKeg cid none va len hold mig
      (r.1.map fun st => if st = 0 then 0 else 16 + st, r.2)

/-- KEG_LOAD (R415). -/
def State.kegLoadCommand (s : State) (cid va len : Nat) : Option Nat × State :=
  if va % 64 ≠ 0 || (bufferFail s cid va len false).isSome then (some 2, s)
  else
    let r := s.loadKeg cid none va len
    (some (if r.1 = 0 then 0 else 16 + r.1), r.2.kegStatus cid r.1)

/-- The save count that MIG_KEY carries, and whether it reserves the next save (R418). -/
def Ctx.migCount (c : Ctx) : W64 :=
  match c.reserved with
  | some n => n
  | none => if c.handed || c.heldSave then c.saveCount else c.saveCount + 1

/-- MIG_KEY (R418): the two devices verify each other, the key transfer leaves for the destination's device, and the context is HANDED; the command
completes with the answer. A context that holds no key has none to hand over (DEDUCED, assumption log entry 34), and a peer whose identity chain does
not verify gets none (DESIGN CHOICE: assumption log entry 35). -/
def State.migKey (s : State) (cont : Bool) (cid pkg dcid : Nat) : Option Nat × State :=
  let c := s.ctx cid
  if cont then (none, s)
  else
    match c.key with
    | none => (some 21, s)
    | some k =>
      if !Config.peerVerified pkg then (some 3, s)
      else
        let n := c.migCount
        (none, (s.updCtx cid fun c =>
          { c with desc := c.desc.put 14 (c.word 112 ||| 2#64), reserved := if n = c.saveCount then none else some n
                   handing := c.handing || !c.handed }).sendDevice cid pkg dcid (.keyTransfer dcid k (BitVec.ofNat 32 c.keyGen) n))

/-- PAGE_PUSH (R416): the pages of a range leave, granule by granule; the command completes with the last answer. A page in host memory carries no
tags (R61). -/
def State.pagePush (s : State) (cont : Bool) (cid va len pkg dcid : Nat) : Option Nat × State :=
  if cont then (none, s)
  else if va % 65536 ≠ 0 || len % 65536 ≠ 0 || 4503599627370496 < va + len then (some 2, s)
  else
    let pieces := (countFrom 0 (len / 65536)).filterMap fun i =>
      match flatPiece s cid (va + 65536 * i) 65536 with
      | .ok p => if p.tgt = .hbm || p.tgt = .host then some p else none
      | .error _ => none
    let mem := fun (p : Piece) => if p.tgt = .host then s.host else s.hbm
    if pieces.isEmpty then (some 0, s)
    else
      (none, pieces.foldl (fun s p =>
        s.sendDevice cid pkg dcid (.page p.va ((mem p).bytes p.addr 65536) ((countFrom 0 1024).map fun i => (mem p).tag (p.addr + 64 * i)))) s)

/-- A granule of another package's PAGE_PUSH arrives for a context here (R416): bytes and tags are written where its tree maps the granule writable,
and the answer says whether it does. The tags go with a granule in HBM only (R61). -/
def State.pageIn (s : State) (cid va : Nat) (data : List Byte) (tags : List W32) : State :=
  let reply := fun (n : W64) => ({ ep := BitVec.ofNat 32 (serviceBase + s.pkg.self), thread := cid, flow := 0, seq := va, kind := .reply n } : Answer)
  let no := ({ s with answers := s.answers ++ [reply 0] } : State)
  match flatPiece s cid (va / 65536 * 65536) 65536 with
  | .error _ => no
  | .ok p =>
    if !p.leaf.wr || p.leaf.granary || !(p.tgt = .hbm || p.tgt = .host) then no
    else
      let s := s.deviceWrite cid (va / 65536 * 65536) (fitTo 65536 0#8 data)
      let s := if p.tgt = .hbm then
          { s with hbm := (tags.zip (countFrom 0 1024)).foldl (fun (m : Memory) t => m.setTag (p.addr + 64 * t.2) t.1) s.hbm }
        else s
      { s with answers := s.answers ++ [reply 1] }

/-- PARK_FORWARD (R417): the numbers that the context's flows have come to, the packets that wait in reorder buffers, and the parked ones leave in the
order in which they arrived, then an end marker; what arrives later is relayed. -/
def State.parkForward (s : State) (cid pkg dcid : Nat) : Nat × State :=
  let c := s.ctx cid
  if c.stateOf ≠ 2 then (3, s)
  else
    let mine := fun (f : InFlow) => let e := s.endpoints.get f.ep.toNat; decide (e.pkg = s.pkg.self) && decide (e.cid = cid)
    let flows := s.inflows.filter mine
    let s := ({ s with inflows := s.inflows.map fun f => if mine f then { f with waiting := [] } else f } : State).updCtx cid fun c =>
      { c with relay := some (pkg, dcid), store := [] }
    let s := flows.foldl (fun s f => s.sendDevice cid pkg dcid (.flow f.ep f.srcEp f.srcThread f.flow f.next f.done)) s
    let s := (flows.flatMap (·.waiting) ++ c.store).foldl (fun s p => s.parkIn cid p) s
    (0, s.sendDevice cid pkg dcid .endMarker)

/-- RELAY_END (R417): the relay ends, and what the source kept for the endpoints that have moved goes. -/
def State.relayEnd (s : State) (cid : Nat) : Nat × State :=
  match (s.ctx cid).relay with
  | none => (3, s)
  | some (pkg, dcid) =>
    let moved := fun (ep : W32) => let e := s.endpoints.get ep.toNat; decide (e.pkg = pkg) && decide (e.cid = dcid)
    (0, { (s.updCtx cid fun c => { c with relay := none }) with inflows := s.inflows.filter fun f => !moved f.ep })

/-! ## Commands (R342, R343) -/

/-- A result that is there at once. -/
def atOnce (r : Nat × State) : Option Nat × State := (some r.1, r.2)

/-- The effect of a command whose operands are in order: the ERR it ends with, or none while it goes on. -/
def State.doCommand (s : State) (fn op : Nat) (cont : Bool) : Option Nat × State :=
  let w := fun i => ((s.func fn).cmd.get i).toNat
  let cid := w 0
  match op with
  | 0x01 => atOnce (s.ctxCreate cid (w 1))
  | 0x02 => atOnce (s.ctxSet cid (w 1) ((s.func fn).cmd.get 2))
  | 0x03 => s.ctxDestroy cid
  | 0x04 => atOnce (s.frameSet (w 1) (w 2) (BitVec.ofNat 32 (w 3)))
  | 0x05 => if rangeOk (w 1) (w 2) then (some 0, s.invalidate cid (invalRange (w 1) (w 2))) else (some 2, s)
  | 0x06 => atOnce (s.dirtyRead cid (w 1) (w 2) (w 3))
  | 0x07 => atOnce (s.hvClaim (w 1))
  | 0x08 => atOnce (s.hvRelease (w 1))
  | 0x09 => atOnce (s.epSet (w 1) (fld (w 2) 0 16) (fld (w 2) 16 12) (w 3))
  | 0x0A => atOnce (s.trapResolve cid (w 1) (w 2))
  | 0x0B => atOnce (s.unitRetire (w 1))
  | 0x0C => (some 0, s.pageDone cid (w 1) (w 2) (w 3 = 1))
  | 0x0D => s.kegSaveCommand cont cid (w 1) (w 2) (fld (w 3) 0 1 = 1) (fld (w 3) 1 1 = 1)
  | 0x0E => s.kegLoadCommand cid (w 1) (w 2)
  | 0x0F => if (s.ctx cid).holding then (some 0, s.thaw cid) else (some 3, s)
  | 0x10 => s.migKey cont cid (w 1) (w 2)
  | 0x11 => s.pagePush cont cid (w 1) (w 2) (w 3) (w 4)
  | 0x12 => atOnce (s.parkForward cid (w 1) (w 2))
  | 0x13 => atOnce (s.relayEnd cid)
  | 0x14 => atOnce (s.slotLoad (w 1) (w 2) (w 3) ((s.func fn).cmd.get 4))
  | 0x15 =>
    let r := s.tensorSeal cid (w 1) (w 2) (w 3)
    let s := r.2.2
    (some r.1, if r.1 = 0 then
      { s with funcs := s.funcs.put fn { s.func fn with
          cmd := ((s.func fn).cmd.put 4 (r.2.1.setWidth 64)).put 5 ((r.2.1 >>> 64).setWidth 64) } } else s)
  | 0x16 => atOnce (s.slotUnpin (w 1))
  | _ => (some 2, s)

/-- A command with its checks: the function may give it, its operands are in order, its context is the function's own and in
a STATE that allows it (R342, R343). -/
def State.tryCommand (s : State) (fn op : Nat) (cont : Bool) : Option Nat × State :=
  let cmd := (s.func fn).cmd
  let c := s.ctx (cmd.get 0).toNat
  if fn ≠ 0 && !vfCommands.contains op then (some 1, s)
  else
    match cmdWidths op with
    | none => (some 2, s)
    | some l =>
      if !wordsOk cmd l then (some 2, s)
      else if fn ≠ 0 && (c.stateOf = 0 || c.func ≠ fn) then (some 1, s)
      else if cmdCtx op && op ≠ 0x01 && !cont && !(c.stateOf = 1 || c.stateOf = 2) then (some 3, s)
      else if cont && op ≠ 0x03 && cmdCtx op && !(c.stateOf = 1 || c.stateOf = 2) then (some 3, s)
      else s.doCommand fn op cont

/-- A command runs, or goes on (R342): it is BUSY until it completes. Firmware that is being replaced holds it (R421), and so does a keg operation of
its context that was accepted before it (R411). -/
def State.goCommand (s : State) (fn op : Nat) (cont : Bool) : State :=
  let cid := ((s.func fn).cmd.get 0).toNat
  let put := fun (s : State) (g : Func → Func) => ({ s with funcs := s.funcs.put fn (g (s.func fn)) } : State)
  let at_ := if (s.func fn).pend.isSome then (s.func fn).pendAt else s.tick
  if s.fwHeld || (kegCommand op && s.kegBusy cid at_ none (some fn)) then
    put s fun f => { f with pend := some (op, cid), cmdHeld := f.cmdHeld || !cont, cmdStatus := 1, pendAt := at_ }
  else
    let r := s.tryCommand fn op cont
    match r.1 with
    | none => put r.2 fun f => { f with pend := some (op, cid), cmdHeld := false, cmdStatus := 1, pendAt := at_ }
    | some e => put r.2 fun f => { f with pend := none, cmdHeld := false, cmdStatus := BitVec.ofNat 64 (e * 256) }

/-- The command that a function has not completed goes on. -/
def State.pendingCommand (s : State) (fn : Nat) : State :=
  match (s.func fn).pend with
  | none => s
  | some (op, _) => s.goCommand fn op (!(s.func fn).cmdHeld)

/-- A write of the opcode (R342): a command written while BUSY is dropped and counted. -/
def State.writeOpcode (s : State) (fn op : Nat) : State := if (s.func fn).pend.isSome then s.dropWrite else s.goCommand fn op false

/-- The host writes a command: its words, then its opcode. A command that is not complete goes on when it is given again. -/
def State.hostCommand (s : State) (fn op : Nat) (words : List W64) : Out :=
  let cmd : NMap W64 := (words.zip (countFrom 0 words.length)).foldl (fun (m : NMap W64) e => m.put e.2 e.1) []
  .next (s.hostWrite fn fun s =>
    let f := s.func fn
    match f.pend with
    | some (o, _) => if o = op && (countFrom 0 8).all (fun i => cmd.get i = f.cmd.get i) then s.pendingCommand fn else s.dropWrite
    | none => ({ s with funcs := s.funcs.put fn { f with cmd := cmd } } : State).goCommand fn op false)

/-- A number as a command word. -/
def cw (n : Nat) : W64 := BitVec.ofNat 64 n

/-- CTX_CREATE (R342). -/
def execCtxCreate (fn cid func : Nat) (s : State) : Out := s.hostCommand fn 0x01 [cw cid, cw func]

/-- CTX_SET (R340, R342). -/
def execCtxSet (fn cid off : Nat) (val : BitVec 64) (s : State) : Out := s.hostCommand fn 0x02 [cw cid, cw off, val]

/-- CTX_DESTROY (R344). -/
def execCtxDestroy (fn cid : Nat) (s : State) : Out := s.hostCommand fn 0x03 [cw cid]

/-- FRAME_SET (R348). -/
def execFrameSet (fn first count : Nat) (entry : BitVec 32) (s : State) : Out :=
  s.hostCommand fn 0x04 [0, cw first, cw count, entry.setWidth 64]

/-- INVAL (R352). -/
def execInval (fn cid : Nat) (va len : BitVec 64) (s : State) : Out := s.hostCommand fn 0x05 [cw cid, va, len]

/-- DIRTY_READ (R350). -/
def execDirtyRead (fn cid first count : Nat) (host : BitVec 64) (s : State) : Out :=
  s.hostCommand fn 0x06 [cw cid, cw first, cw count, host]

/-- CNT_CLAIM (R358). -/
def execCntClaim (fn bank : Nat) (s : State) : Out := s.hostCommand fn 0x07 [0, cw bank]

/-- CNT_REL (R358). -/
def execCntRel (fn bank : Nat) (s : State) : Out := s.hostCommand fn 0x08 [0, cw bank]

/-- EP_SET (R331). -/
def execEpSet (fn : Nat) (ep : BitVec 32) (pkg cid st : Nat) (s : State) : Out :=
  s.hostCommand fn 0x09 [0, ep.setWidth 64, cw (pkg + cid * 65536), cw st]

/-- TRAP_RESOLVE (R376). -/
def execTrapResolve (fn cid thr act : Nat) (s : State) : Out := s.hostCommand fn 0x0A [cw cid, cw thr, cw act]

/-- UNIT_RETIRE (R397). -/
def execUnitRetire (fn core : Nat) (s : State) : Out := s.hostCommand fn 0x0B [0, cw core]

/-- PAGE_DONE (R388). -/
def execPageDone (fn cid : Nat) (va len : BitVec 64) (fail : Bool) (s : State) : Out :=
  s.hostCommand fn 0x0C [cw cid, va, len, if fail then 1 else 0]

/-- KEG_SAVE (R415). -/
def execKegSaveCmd (fn cid : Nat) (va len : BitVec 64) (hold mig : Bool) (s : State) : Out :=
  s.hostCommand fn 0x0D [cw cid, va, len, cw ((if hold then 1 else 0) + if mig then 2 else 0)]

/-- KEG_LOAD (R415). -/
def execKegLoadCmd (fn cid : Nat) (va len : BitVec 64) (s : State) : Out := s.hostCommand fn 0x0E [cw cid, va, len]

/-- KEG_THAW (R415). -/
def execKegThaw (fn cid : Nat) (s : State) : Out := s.hostCommand fn 0x0F [cw cid]

/-- MIG_KEY (R418). -/
def execMigKey (fn cid pkg dcid : Nat) (s : State) : Out := s.hostCommand fn 0x10 [cw cid, cw pkg, cw dcid]

/-- PAGE_PUSH (R416). -/
def execPagePush (fn cid : Nat) (va len : BitVec 64) (pkg dcid : Nat) (s : State) : Out :=
  s.hostCommand fn 0x11 [cw cid, va, len, cw pkg, cw dcid]

/-- PARK_FORWARD (R417). -/
def execParkForward (fn cid pkg dcid : Nat) (s : State) : Out := s.hostCommand fn 0x12 [cw cid, cw pkg, cw dcid]

/-- RELAY_END (R417). -/
def execRelayEnd (fn cid : Nat) (s : State) : Out := s.hostCommand fn 0x13 [cw cid]

/-- SLOT_LOAD (R322, R323). DEDUCED: assumption log entry 47. -/
def execSlotLoad (fn slot : Nat) (host len dataVa : BitVec 64) (s : State) : Out := s.hostCommand fn 0x14 [0, cw slot, host, len, dataVa]

/-- TENSOR_SEAL (R298). -/
def execTensorSeal (fn cid slot : Nat) (tensor desc : BitVec 64) (s : State) : Out := s.hostCommand fn 0x15 [cw cid, cw slot, tensor, desc]

/-- SLOT_UNPIN (R299). -/
def execSlotUnpin (fn slot : Nat) (s : State) : Out := s.hostCommand fn 0x16 [0, cw slot]

/-! ## Keys (R365, R418) -/

/-- The context with a key installed (R365). -/
def Ctx.install (c : Ctx) (key : BitVec 256) (gen : Nat) : Ctx :=
  { c with key := some key, desc := c.desc.put 14 ((c.word 112 &&& 2#64) ||| BitVec.ofNat 64 (1 + gen % 4294967296 * 4294967296)) }

/-- KEY_TRANSFER (R418): accepted into a context that is ACTIVE, has no thread and has not saved past the count. The answer is 1 for
accepted (DESIGN CHOICE, assumption log entry 35). -/
def execKeyTransfer (cid : Nat) (key : BitVec 256) (keygen : BitVec 32) (count : BitVec 64) (s : State) : Out :=
  let c := s.ctx cid
  let ok := c.stateOf = 1 && s.liveThreads cid = 0 && decide (c.saveCount.toNat ≤ count.toNat)
  let a : Answer := { ep := BitVec.ofNat 32 (serviceBase + s.pkg.self), thread := cid, flow := 0, seq := 0, kind := .reply (if ok then 1 else 0) }
  let s := { s with answers := s.answers ++ [a] }
  .next (if ok then s.updCtx cid fun c => (c.install key keygen.toNat).withSaveCount count else s)

end Sys2Proof.Machine
end

