-- ==== Sys2Proof/Machine/Boot.lean ====
section
/-! DEFINITION. Power-up, boot, live firmware update, the SPDM responder, context keys and link encryption (R363 to R366, R420,
R421). -/

namespace Sys2Proof.Machine

/-! ## Boot (R363) -/

/-- POWER_UP: the package is as after reset. What is not the package's state stays: host memory, the number the pod gives it, the
model's schedule and its counter of free values. -/
def execPowerUp (s : State) : Out :=
  .next { State.reset with host := s.host, turns := s.turns, rr := s.rr, fresh := s.fresh, pkg := { State.reset.pkg with self := s.pkg.self } }

/-- The bytes of a digest. -/
def digestBytes (d : BitVec 256) : List Byte := natLE 32 d.toNat

/-- SM3 of bytes, as a digest. -/
def digestOf (l : List Byte) : BitVec 256 := BitVec.ofNat 256 (leNat (sm3 l))

/-- The first bytes of the boot window. -/
def Boot.image (b : Boot) (n : Nat) : List Byte := (countFrom 0 n).map fun i => b.window.get i

/-- Posts that firmware held go out (R421). -/
def State.releasePosts (s : State) : State :=
  s.boot.posts.foldl (fun s e => e.post s) { s with boot := { s.boot with posts := [] } }

/-- The boot ROM starts the image in the boot window, or refuses it (R363). -/
def State.bootGo (s : State) (len : Nat) : State :=
  let b := s.boot
  let refuse := fun (r : Nat) => ({ s with boot := { b with fail := true, reason := r } } : State)
  if b.running then s
  else if len = 0 || 8388608 < len then refuse 5
  else
    let img := b.image len
    let v := Config.imageVerdict img
    if 1 ≤ v && v ≤ 4 then refuse v
    else
      let part := Config.schedulerDigest img
      let b := { b with
        waiting := false, fail := false, running := true, reason := 0, kiln := digestOf img, slotA := part, slotBActive := false
        sched := digestOf (digestBytes 0#256 ++ digestBytes part), phase := 0, err := 0 }
      ({ s with boot := b } : State).releasePosts

/-- BOOT_CTL_GO (R363): BOOT_CTL is a register of the PF. -/
def execBootCtlGo (fn len : Nat) (s : State) : Out := .next (s.pfWrite fn fun s => s.bootGo len)

/-- KILN_RESET (R363): no firmware runs, and the ROM waits for an image; the SPDM session is gone with the Kiln. -/
def execKilnReset (s : State) : Out :=
  .next { s with
    boot := { (default : Boot) with waiting := true, window := s.boot.window, posts := s.boot.posts }
    spdm := { (default : Spdm) with out := s.spdm.out } }

/-! ## Live update (R420, R421) -/

/-- The digest in the active or the other image slot. -/
def Boot.slot (b : Boot) (active : Bool) : BitVec 256 := if b.slotBActive = active then b.slotB else b.slotA

/-- Measurement 3 extended with a digest (R364). -/
def Boot.extend (b : Boot) (d : BitVec 256) : Boot := { b with sched := digestOf (digestBytes b.sched ++ digestBytes d) }

/-- The handover structure that the running image writes (R421 phase 3). -/
def State.handover (s : State) : Handover :=
  { magic := 0x44484E48#32, format := Config.formatWritten (s.boot.slot true), len := Config.handoverLength s.fresh
    placed := (s.threads.filter fun p => p.2.placed || p.2.homed).map fun p => (p.1, p.2.core, p.2.slot)
    requests := s.places
    commands := s.funcs.filterMap fun f => f.2.pend.map fun c => (f.1, c.1, c.2)
    posts := s.boot.posts
    heads := s.rings.map fun r => (r.1, r.2.head) }

/-- Handover and start, once the interpreters have ended their packets (R421 phases 2 to 4). The structure is written whether or not the new image can
read it. -/
def State.fwAdvance (s : State) : State :=
  let b := s.boot
  if b.phase ≠ 2 || s.interps.any (fun i => i.2.busy) then s
  else
    let r := Config.formatsRead (b.slot false)
    let h := s.handover
    let b := { b with handover := some h }
    let s := { s with boot := b, fresh := s.fresh + 1 }
    if h.format < r.1 || r.2 < h.format then ({ s with boot := { b with phase := 0, err := 3 } } : State).releasePosts
    else { s with boot := { b.extend (b.slot false) with phase := 4, started := s.tick } }

/-- GO of an update (R421 phase 1): the image in the boot window is verified and goes into the inactive slot. -/
def State.fwGo (s : State) : State :=
  let b := s.boot
  if !b.running then s
  else if b.phase = 2 then s.fwAdvance
  else if b.phase = 4 then s
  else
    let n := Nat.min (Config.updateLength (b.window.map (·.2))) 8388608
    let img := b.image n
    let v := Config.imageVerdict img
    if 1 ≤ v && v ≤ 4 then { s with boot := { b with phase := 0, err := if v = 3 then 2 else 1 } }
    else
      let b := if b.slotBActive then { b with slotA := digestOf img } else { b with slotB := digestOf img }
      ({ s with boot := { b with phase := 2, err := 0 } } : State).fwAdvance

/-- FW_CTL_GO (R420, R421). -/
def execFwCtlGo (fn : Nat) (s : State) : Out := .next (s.pfWrite fn State.fwGo)

/-- FW_HEARTBEAT (R421 phase 5): the first heartbeat commits the switch. -/
def execFwHeartbeat (s : State) : Out :=
  .next (if s.boot.phase = 4 then ({ s with boot := { s.boot with phase := 0, slotBActive := !s.boot.slotBActive } } : State).releasePosts else s)

/-- HEARTBEAT_TIMEOUT (R421): without a heartbeat in 62,500,000 ticks the old image restarts. -/
def execHeartbeatTimeout (s : State) : Out :=
  .next (if s.boot.phase = 4 && decide (s.boot.started + 62500000 ≤ s.tick) then
    ({ s with boot := { s.boot.extend (s.boot.slot true) with phase := 5, err := 4 } } : State).releasePosts else s)

/-! ## The SPDM responder (R364) -/

/-- The responder gives an answer. -/
def State.spdmSay (s : State) (a : SpdmAns) : State := { s with spdm := { s.spdm with out := s.spdm.out ++ [a] } }

/-- A request of a function: refused from a VF, and out of the protocol's order (R364; PRESUMED, assumption log entry 38). -/
def State.spdm_ (s : State) (fn : Nat) (ok : Bool) (f : State → State) : Out := .next (if fn = 0 && ok then f s else s.spdmSay .error)

/-- A signature of the responder over a transcript with a nonce. -/
def State.spdmSigned (s : State) (nonce : BitVec 256) (f : BitVec 512 → SpdmAns) : State :=
  ({ s with fresh := s.fresh + 1 } : State).spdmSay (f (Config.spdmSign s.fresh nonce))

/-- The content of a measurement block (R364). -/
def State.measure (s : State) (i : Nat) : BitVec 256 :=
  match i with
  | 2 => s.boot.kiln
  | 3 => s.boot.sched
  | 4 => Config.securityState s.ide.keys
  | 5 =>
    let rows := s.images.filterMap fun p =>
      if p.2.resident then some (p.1, p.2.hash, (s.tensors.filter fun t => t.slot = p.1 && !t.unpinned).map fun t => t.wid) else none
    digestOf (Config.slotTable rows)
  | _ => Config.measurement i

/-- GET_VERSION: a negotiation begins anew. -/
def execGetVersion (fn : Nat) (s : State) : Out :=
  s.spdm_ fn true fun s => ({ s with spdm := { (default : Spdm) with version := true, out := s.spdm.out } } : State).spdmSay .version

/-- GET_CAPABILITIES. -/
def execGetCapabilities (fn : Nat) (s : State) : Out :=
  s.spdm_ fn s.spdm.version fun s => ({ s with spdm := { s.spdm with caps := true } } : State).spdmSay .capabilities

/-- NEGOTIATE_ALGORITHMS: what is offered of SM2, SM3-256, SM2 key exchange and AES-256-GCM. -/
def execNegotiateAlgorithms (fn : Nat) (offered : SpdmAlgs) (s : State) : Out :=
  s.spdm_ fn s.spdm.caps fun s => ({ s with spdm := { s.spdm with algs := some offered } } : State).spdmSay (.algorithms offered)

/-- GET_DIGESTS. -/
def execGetDigests (fn : Nat) (s : State) : Out :=
  s.spdm_ fn s.spdm.algs.isSome fun s => s.spdmSay (.digests (digestOf Config.certChain))

/-- GET_CERTIFICATE: certificate slot 0 holds the chain. -/
def execGetCertificate (fn cslot off len : Nat) (s : State) : Out :=
  s.spdm_ fn (s.spdm.algs.isSome && cslot = 0) fun s => s.spdmSay (.certificate off ((Config.certChain.drop off).take len))

/-- CHALLENGE. -/
def execChallenge (fn cslot : Nat) (nonce : BitVec 256) (s : State) : Out :=
  s.spdm_ fn (s.spdm.algs.isSome && cslot = 0) fun s => s.spdmSigned nonce (.challengeAuth nonce)

/-- GET_MEASUREMENTS: one block, or all of them for index 255, signed on request. -/
def execGetMeasurements (fn index : Nat) (sign : Bool) (nonce : BitVec 256) (s : State) : Out :=
  let all := (countFrom 1 5).map fun i => (i, s.measure i)
  let blocks := if index = 255 then all else all.filter fun b => b.1 = index
  s.spdm_ fn (s.spdm.algs.isSome && (index ≤ 5 || index = 255)) fun s =>
    if sign then s.spdmSigned nonce fun g => .measurements blocks (some g) else s.spdmSay (.measurements blocks none)

/-- KEY_EXCHANGE: the device's share, and the secret of the session that FINISH completes. -/
def execKeyExchange (fn cslot : Nat) (pub : BitVec 512) (s : State) : Out :=
  s.spdm_ fn (s.spdm.algs.isSome && cslot = 0) fun s =>
    let x := { s.spdm with exchanged := true, session := false, secret := Config.sessionSecret s.fresh pub, keys := 0 }
    ({ s with spdm := x, fresh := s.fresh + 1 } : State).spdmSigned 0 (.keyExchangeRsp (Config.keyShare s.fresh))

/-- FINISH. -/
def execFinish (fn : Nat) (mac : BitVec 256) (s : State) : Out :=
  s.spdm_ fn (s.spdm.exchanged && decide (mac = Config.finishMac s.spdm.secret)) fun s =>
    ({ s with spdm := { s.spdm with exchanged := false, session := true } } : State).spdmSay .finishRsp

/-- KEY_UPDATE. -/
def execKeyUpdate (fn : Nat) (s : State) : Out :=
  s.spdm_ fn s.spdm.session fun s =>
    ({ s with spdm := { s.spdm with secret := Config.nextSecret s.spdm.secret, keys := s.spdm.keys + 1 } } : State).spdmSay .keyUpdateAck

/-- HEARTBEAT. -/
def execHeartbeat (fn : Nat) (s : State) : Out := s.spdm_ fn s.spdm.session fun s => s.spdmSay .heartbeatAck

/-- END_SESSION. -/
def execEndSession (fn : Nat) (s : State) : Out :=
  s.spdm_ fn s.spdm.session fun s => ({ s with spdm := { s.spdm with session := false, secret := 0, keys := 0 } } : State).spdmSay .endSessionAck

/-! ## Keys (R365, R366) -/

/-- KEY_INSTALL (R365): inside a session, into a context that exists, with key index 0. -/
def execKeyInstall (fn cid index : Nat) (key : BitVec 256) (s : State) : Out :=
  let c := s.ctx cid
  s.spdm_ fn s.spdm.session fun s =>
    if index = 0 && cid < 4096 && (c.stateOf = 1 || c.stateOf = 2) && s.boot.running then
      (s.setCtx cid (c.install key (c.keyGen + 1))).spdmSay (.vendor true)
    else s.spdmSay (.vendor false)

/-- IDE_KM (R366): one link stream and four selective streams. -/
def execIdeKm (fn stream : Nat) (key : BitVec 256) (s : State) : Out :=
  s.spdm_ fn s.spdm.session fun s =>
    if stream ≤ 4 then ({ s with ide := s.ide.put stream key } : State).spdmSay (.vendor true) else s.spdmSay (.vendor false)

/-- IDE_INTEGRITY_FAIL (R366): the TLP is dropped, and the link's error reporting counts it. -/
def execIdeIntegrityFail (stream : Nat) (s : State) : Out :=
  .next (if s.ide.has stream then { s with ideFails := s.ideFails + 1 } else s)

end Sys2Proof.Machine
end

