-- ==== Sys2Proof/Machine/Branch.lean ====
section
/-! DEFINITION. Branches and jumps (R241 to R243). -/

namespace Sys2Proof.Machine

/-- Adds the taint and saturation of registers to the control taint (R173). -/
def Frame.addCtl (f : Frame) (l : List XReg) : Frame :=
  { f with ctaint := f.ctaint ||| unionTaint l, csat := f.csat || orSat l }

/-- The target of a transfer when it lies within the image (R243). -/
def inText (s : State) (t : Thread) (target : Int) : Option Nat :=
  if 0 ≤ target ∧ target < (s.text t).length then some target.toNat else none

/-- Control passes to a target, with the frame changed first; a target outside the image raises ILLEGAL and nothing is
done (R243). -/
def transfer (key : Nat) (target : Int) (g : Frame → Frame) : M Unit := do
  let s ← get
  match inText s (s.thr key) target with
  | some pc => modThr key fun t => t.updLive fun f => (g f).goto pc
  | none => illegal key

/-- A conditional branch (R241): either way the control taint takes the operands' taint. -/
def branch (xa xb : BitVec 5) (off : BitVec 15) (cond : W64 → W64 → Bool) (s : State) : Out :=
  sqWord (fun key => do
    let t ← getThr key
    let a := t.rx xa
    let b := t.rx xb
    if cond a.val b.val then transfer key (t.live.pc + off.toInt) (·.addCtl [a, b])
    else modThr key fun t => t.updLive fun f => (f.addCtl [a, b]).next) s

/-- BEQ (R241). -/
def execBeq (xa xb : BitVec 5) (off : BitVec 15) (s : State) : Out := branch xa xb off (fun a b => decide (a = b)) s

/-- BNE (R241). -/
def execBne (xa xb : BitVec 5) (off : BitVec 15) (s : State) : Out := branch xa xb off (fun a b => decide (a ≠ b)) s

/-- BLT (R241). -/
def execBlt (xa xb : BitVec 5) (off : BitVec 15) (s : State) : Out :=
  branch xa xb off (fun a b => decide (a.toInt < b.toInt)) s

/-- BGE (R241). -/
def execBge (xa xb : BitVec 5) (off : BitVec 15) (s : State) : Out :=
  branch xa xb off (fun a b => decide (b.toInt ≤ a.toInt)) s

/-- BLTU (R241). -/
def execBltu (xa xb : BitVec 5) (off : BitVec 15) (s : State) : Out :=
  branch xa xb off (fun a b => decide (a.toNat < b.toNat)) s

/-- BGEU (R241). -/
def execBgeu (xa xb : BitVec 5) (off : BitVec 15) (s : State) : Out :=
  branch xa xb off (fun a b => decide (b.toNat ≤ a.toNat)) s

/-- The link of a jump: the next word's index with empty taint (R242). -/
def Frame.link (f : Frame) : XReg := plain (BitVec.ofNat 64 (f.pc + 1))

/-- JAL (R242). -/
def execJal (xd : BitVec 5) (off : BitVec 20) (s : State) : Out :=
  sqWord (fun key => do
    let t ← getThr key
    transfer key (t.live.pc + off.toInt) fun f => f.wx xd f.link) s

/-- JALR (R242): xa is read before xd is written; its taint goes to the control taint. -/
def execJalr (xd xa : BitVec 5) (off : BitVec 15) (s : State) : Out :=
  sqWord (fun key => do
    let t ← getThr key
    let a := t.rx xa
    transfer key (a.val + sx64 off).toNat fun f => (f.addCtl [a]).wx xd f.link) s

end Sys2Proof.Machine
end

