-- ==== Sys2Proof/Machine/HostRegs.lean ====
section
/-! DEFINITION. The control BAR: registers of functions and of the package, the function range table, issue weights, shape classes,
power, telemetry, the trip; host writes and host reads by offset (R303 to R307, R311, R318, R329, R330, R336, R337, R398). -/

namespace Sys2Proof.Machine

/-! ## Registers of a function (R305, R306) -/

/-- Replaces a function's record. -/
def State.putFunc (s : State) (fn : Nat) (f : Func) : State := { s with funcs := s.funcs.put fn f }

/-- Replaces the package registers. -/
def State.setPkg (s : State) (p : Pkg) : State := { s with pkg := p }

/-- A write of EVQ_BASE or EVQ_SIZE starts the queue anew (R305). -/
def State.evqWrite (s : State) (fn : Nat) (isSize : Bool) (v : W64) : State :=
  let f := { s.func fn with evqHead := 0, evqTail := 0 }
  s.putFunc fn (if isSize then { f with evqSize := v } else { f with evqBase := v &&& 0xFFFFFFFFFFFC0#64 })

/-- EVQ_CONFIG_WRITE. -/
def execEvqConfigWrite (fn : Nat) (isSize : Bool) (val : BitVec 64) (s : State) : Out := .next (s.hostWrite fn fun s => s.evqWrite fn isSize val)

/-- Two ranges share a number. -/
def meet (a n b m : Nat) : Bool := a < b + m && b < a + n && 0 < n && 0 < m

/-- A write of the function range table (R306). -/
def State.rangeWrite (s : State) (entry : Nat) (hi : Bool) (v : W64) : State :=
  let f := s.func entry
  let g := if hi then { f with lqFirst := wfld v 0 13, lqCount := wfld v 32 14 } else { f with ringFirst := wfld v 0 17, ringCount := wfld v 32 18 }
  let live := (s.rings.any fun r => decide (r.1 / 131072 = entry) && r.2.enable) || s.lqs.any fun q => decide (q.1 / 8192 = entry) && q.2.enable
  let clash := s.funcs.any fun o => o.1 ≠ entry &&
    (meet o.2.ringFirst o.2.ringCount g.ringFirst g.ringCount || meet o.2.lqFirst o.2.lqCount g.lqFirst g.lqCount)
  if 256 ≤ entry || clash || 131072 < g.ringFirst + g.ringCount || 8192 < g.lqFirst + g.lqCount || (live && decide (g ≠ f)) then s.dropWrite
  else s.putFunc entry g

/-- FUNCTION_RANGE_WRITE. -/
def execFunctionRangeWrite (fn entry : Nat) (hi : Bool) (val : BitVec 64) (s : State) : Out := .next (s.pfWrite fn fun s => s.rangeWrite entry hi val)

/-! ## Weights and shape classes (R268 to R270, R329, R330) -/

/-- A weight is kept by core and tenant, the pass slot as tenant 4096; 0 stands for the default (R258, R329). -/
def weightKey (core tenant : Nat) : Nat := core * 8192 + tenant

/-- A write of WEIGHT_CMD (R329): it is done at once. -/
def State.weightWrite (s : State) (v : W64) : State :=
  let core := wfld v 16 10
  let tenant := if v.getLsbD 12 then 4096 else wfld v 0 12
  if 832 ≤ core && core ≠ 1023 then s.setPkg { s.pkg with weightErr := true }
  else
    let cores := if core = 1023 then countFrom 0 832 else [core]
    s.setPkg { s.pkg with weights := cores.foldl (fun m c => NMap.set m (weightKey c tenant) (wfld v 32 8)) s.pkg.weights }

/-- WEIGHT_CMD. -/
def execWeightCmd (fn : Nat) (val : BitVec 64) (s : State) : Out := .next (s.pfWrite fn fun s => s.weightWrite val)

/-- The weight of a context, or of the pass slot as tenant 4096, on a core (R258). -/
def State.weight (s : State) (core tenant : Nat) : Nat :=
  let w := s.pkg.weights.get (weightKey core tenant)
  if w = 0 then (if tenant = 4096 then 64 else 16) else w

/-- A write of SHAPE_W1 stages its value (R330). DEDUCED: assumption log entry 56. -/
def State.shapeStage (s : State) (c : Nat) (v : W64) : State :=
  if 64 ≤ c then s.dropWrite else s.setPkg { s.pkg with shapeW1 := s.pkg.shapeW1.put c (v &&& 0xFFF#64) }

/-- A write of SHAPE_W0 commits both words, or is refused (R269, R270, R330). -/
def State.shapeCommit (s : State) (c : Nat) (v : W64) : State :=
  let w0 := v &&& 0x83FF03FF03FF3FFF#64
  let w1 := s.pkg.shapeW1.get c
  if 64 ≤ c then s.dropWrite
  else if (shapeFields w0 w1).refused || s.shapeUsed c then s.setPkg { s.pkg with shapeRefused := s.pkg.shapeRefused ||| (1#64 <<< c) }
  else { s with shapes := s.shapes.put c (w0, w1) }

/-- SHAPE_W1. -/
def execShapeW1 (fn c : Nat) (val : BitVec 64) (s : State) : Out := .next (s.pfWrite fn fun s => s.shapeStage c val)

/-- SHAPE_W0. -/
def execShapeW0 (fn c : Nat) (val : BitVec 64) (s : State) : Out := .next (s.pfWrite fn fun s => s.shapeCommit c val)

/-! ## Power (R336) -/

/-- POWER_STATE with a state in force, whether a transition is in progress, and the dies gated; ERR and TRIPPED stay. -/
def powerWord (old : W64) (st : Nat) (moving : Bool) (dies : Nat) : W64 :=
  (old &&& 0x30#64) ||| BitVec.ofNat 64 (st + (if moving then 8 else 0) + dies * 256)

/-- The state in force changes. -/
def State.setPower (s : State) (st : Nat) (moving : Bool) (dies : Nat) : State :=
  s.setPkg { s.pkg with powerState := powerWord s.pkg.powerState st moving dies }

/-- The staging extents of all contexts fit the slices of the dies that stay (R23, R336; DEDUCED, assumption log entry 39). -/
def State.stagingFits (s : State) (dies : Nat) : Bool :=
  let left := ((countFrom 0 8).filter fun d => fld dies d 1 = 0).length
  let used := s.ctxs.foldl (fun n c => c.2.staging.foldl (fun n e => n + wfld (e.headD 0) 30 23) n) 0
  decide (used ≤ left * 12 * 8388608)

/-- The threads on dies that a command gates are asked to leave. -/
def State.leaveDies (s : State) (dies : Nat) : State := s.vacate fun c => decide (fld dies (c / 104) 1 = 1)

/-- The contexts that run. -/
def State.activeCtxs (s : State) : List Nat := (s.ctxs.filter fun c => c.2.stateOf = 1).map (·.1)

/-- Every context is frozen as for a keg (R336, R402). -/
def State.freezeAll (s : State) : State := s.activeCtxs.foldl (fun s c => (s.freezeStep c none).2) s

/-- A save of a context that has not completed. -/
def State.saving (s : State) (cid : Nat) : Bool := s.funcs.any fun f => decide (f.2.pend = some (0x0D, cid))

/-- The package wakes: contexts that it froze resume, and doorbells that it held arrive (R336). -/
def State.wakeUp (s : State) : State :=
  let mine := (s.ctxs.filter fun c => decide (c.2.freezing = some none) && !c.2.holding && !s.saving c.1 && (c.2.stateOf = 1 || c.2.stateOf = 2)).map (·.1)
  let s := mine.foldl State.thaw s
  let held := s.bells
  held.foldl State.bell { s with bells := [] }

/-- A command of POWER_CTL (R336). TRIPPED clears. -/
def State.powerCommand (s : State) (st dies : Nat) : State :=
  let s := s.setPkg { s.pkg with powerState := s.pkg.powerState &&& ~~~0x20#64 }
  if 5 ≤ st || (st = 2 && (dies = 255 || !s.stagingFits dies)) then s.setPkg { s.pkg with powerState := s.pkg.powerState ||| 0x10#64 }
  else
    let s := s.setPkg { s.pkg with powerCtl := BitVec.ofNat 64 (st + dies * 256) }
    if s.powerIn ≤ 1 && st ≤ 1 then (s.setPower st false 0).wakeUp
    else
      let s := s.setPower s.powerIn true (wfld s.pkg.powerState 8 8)
      if st = 2 then s.leaveDies dies else if st = 3 then s.freezeAll else s

/-- A write of POWER_CTL. -/
def State.powerWrite (s : State) (v : W64) : State := s.powerCommand (wfld v 0 3) (wfld v 8 8)

/-- POWER_CTL_ON. -/
def execPowerCtlOn (fn : Nat) (s : State) : Out := .next (s.pfWrite fn fun s => s.powerWrite 0)

/-- POWER_CTL_IDLE. -/
def execPowerCtlIdle (fn : Nat) (s : State) : Out := .next (s.pfWrite fn fun s => s.powerWrite 1)

/-- POWER_CTL_GATED. -/
def execPowerCtlGated (fn : Nat) (dies : BitVec 8) (s : State) : Out :=
  .next (s.pfWrite fn fun s => s.powerWrite (BitVec.ofNat 64 (2 + dies.toNat * 256)))

/-- POWER_CTL_SLEEP. -/
def execPowerCtlSleep (fn : Nat) (s : State) : Out := .next (s.pfWrite fn fun s => s.powerWrite 3)

/-- POWER_CTL_OFF. -/
def execPowerCtlOff (fn : Nat) (s : State) : Out := .next (s.pfWrite fn fun s => s.powerWrite 4)

/-- Every state is lost, and nothing runs until power-up (R336). DESIGN CHOICE: assumption log entry 52. -/
def State.lost (s : State) : State :=
  { State.reset with
    host := s.host, turns := s.turns, rr := s.rr, fresh := s.fresh
    boot := default
    pkg := { State.reset.pkg with self := s.pkg.self, powerCtl := 4, powerState := 4 } }

/-- No thread holds a slot on the dies, and no pass runs there. -/
def State.diesFree (s : State) (dies : Nat) : Bool :=
  !s.threads.any fun p => (p.2.placed || (decide (passBase ≤ p.1) && decide (p.1 < 2 * passBase))) && decide (fld dies (p.2.core / 104) 1 = 1)

/-- POWER_TRANSITION_DONE (R336): the commanded state comes into force once what it needs has happened. -/
def State.powerDone (s : State) : State :=
  let st := wfld s.pkg.powerCtl 0 3
  let dies := wfld s.pkg.powerCtl 8 8
  if !s.pkg.powerState.getLsbD 3 then s
  else
    match st with
    | 2 =>
      let s := s.leaveDies dies
      if s.diesFree dies then (s.setPower 2 false dies).wakeUp else s
    | 3 =>
      let s := s.freezeAll
      if s.activeCtxs.isEmpty then s.setPower 3 false 0 else s
    | 4 => s.lost
    | n => (s.setPower n false 0).wakeUp

/-- POWER_TRANSITION_DONE. -/
def execPowerTransitionDone (s : State) : Out := .next s.powerDone

/-- The telemetry registers are due: 1,250,000 ticks have passed since their last refresh (R336). -/
def State.telemetryDue (s : State) : Bool := decide (s.powerIn ≠ 4) && decide (s.pkg.telemAt + 1250000 ≤ s.tick)

/-- A refresh of the telemetry registers with what has been measured (R336). -/
def State.measured (s : State) (watts die hbm amps : BitVec 16) : State :=
  s.setPkg { s.pkg with powerW := watts.setWidth 64, tempDie := die.setWidth 64, tempHbm := hbm.setWidth 64, currentA := amps.setWidth 64, telemAt := s.tick }

/-- TELEMETRY_REFRESH (R336). -/
def execTelemetryRefresh (watts die hbm amps : BitVec 16) (s : State) : Out :=
  .next (if s.telemetryDue then s.measured watts die hbm amps else s)

/-- The refresh that the device makes when no event names what was measured: free values (R336; DESIGN CHOICE, assumption log entry 53). -/
def State.telemetry (s : State) : State :=
  let v := fun (i : Nat) => (Config.freeWord (s.fresh + i)).setWidth 16
  if s.telemetryDue then { s.measured (v 0) (v 1) (v 2) (v 3) with fresh := s.fresh + 4 } else s

/-! ## The trip (R294, R337, R398) -/

/-- A trip takes a thread back to its last commit point. MEMERR waits for one whose discarded version had published, for that version (R370).
DESIGN CHOICE: assumption log entry 53. -/
def State.tripThread (s : State) (key : Nat) : State :=
  let pub := (s.thr key).versions.find? (·.published)
  let s := s.rollBack key
  s.updThr key fun t =>
    let t := match t.run with
      | .trapped => t
      | .unstarted => t
      | _ => { t.offSlot with run := .waiting, preemptReq := none }
    match pub with
    | some v =>
      t.hold { t := { mkTrap 0x13 0 1073741824 with cls := 2#2, ver := BitVec.ofNat 20 v.id }, watch := none, source := 0, verId := 0
               gone := some (v.task, true) }
    | none => t

/-- The trip (R337, R398). -/
def State.trip (s : State) (thermal current : Bool) (place : BitVec 9) : State :=
  let running := (s.passes.filter fun p => p.2.core.isSome).map (·.1)
  let s := running.foldl (fun s n => s.passFault n 0x13 false) s
  let keys := (s.threads.filter fun p => p.2.alive && p.1 < passBase).map (·.1)
  let s := keys.foldl State.tripThread s
  let s := (keys.filter fun k => decide ((s.thr k).run = .waiting)).foldl (fun s k => s.askAgain k) s
  let s := s.setPkg { s.pkg with powerState := s.pkg.powerState ||| 0x20#64 }
  postEvent 0 6 0 0 4294967295 0 0 ((if thermal then 1 else 0) + if current then 2 else 0) place.toNat s

/-- A die or an HBM stack is hotter than its fused limit (R337). -/
def Pkg.tooHot (p : Pkg) : Bool := decide (Config.fusedLimits.1 < p.tempDie.toNat) || decide (Config.fusedLimits.2.1 < p.tempHbm.toNat)

/-- The current is above the limit in POWER_LIMIT, or above the fused one where that is 0 (R336, R337). -/
def Pkg.tooMuch (p : Pkg) : Bool := decide ((if p.powerLimit = 0 then Config.fusedLimits.2.2 else p.powerLimit.toNat) < p.currentA.toNat)

/-- THERMAL_OR_CURRENT_TRIP (R337): what is measured is what the telemetry holds. DESIGN CHOICE: assumption log entry 53. -/
def execThermalOrCurrentTrip (thermal current : Bool) (place : BitVec 9) (s : State) : Out :=
  let hot := thermal && s.pkg.tooHot
  let much := current && s.pkg.tooMuch
  .next (if (hot || much) && s.powerIn ≠ 4 then s.trip hot much place else s)

/-! ## Host writes (R305 to R307, R311, R318, R342, R363, R420) -/

/-- A write of the ring table (R307). -/
def State.ringWrite (s : State) (fn ring word : Nat) (v : W64) : State :=
  let r := s.ring fn ring
  let put := fun (r : Ring) => ({ s with rings := s.rings.put (ringKey fn ring) r } : State)
  if (s.func fn).ringCount ≤ ring then s.dropWrite
  else if word = 3 then
    let r := { r with overrun := r.overrun && !v.getLsbD 1 }
    put { r with enable := v.getLsbD 0 && (r.enable || s.ringOk fn r) }
  else if r.enable then s
  else
    match word with
    | 0 => put { r with base := v &&& ~~~0x3F#64 }
    | 1 => put { r with log2 := wfld v 0 5, cid := wfld v 8 12, lq := wfld v 32 13 }
    | _ => put { r with shadow := v &&& ~~~7#64 }

/-- A write of the logical queue table (R311). -/
def State.lqWrite (s : State) (fn lq word : Nat) (v : W64) : State :=
  let q := s.lq fn lq
  let put := fun (q : LQueue) => ({ s with lqs := s.lqs.put (lqKey fn lq) q } : State)
  if (s.func fn).lqCount ≤ lq then s.dropWrite
  else
    match word with
    | 0 => if q.enable then s else put { q with cid := wfld v 0 12, program := wfld v 16 8, qval := wfld v 24 4 }
    | 1 => put { q with enable := v.getLsbD 0 && (q.enable || (s.ownsCtx fn q.cid && (s.prog fn q.program).loaded)) }
    | _ => s

/-- The bits that a word of a sparge program entry keeps (R318). -/
def progMask (word : Nat) : W64 :=
  if word = 1 then ~~~3#64
  else if word = 2 then 0x7FF#64
  else if word = 4 then 0xFFF#64
  else if 8 ≤ word && word < 24 then (if word % 2 = 0 then 0x800FFFFFFFFFFFFF#64 else 0x1FFFF#64)
  else 0#64

/-- A write of the sparge program table (R318). -/
def State.progWrite (s : State) (fn prog word : Nat) (v : W64) : State :=
  if word = 0 then
    if v.getLsbD 0 then s.loadProgram fn prog else if v.getLsbD 1 then s.unloadProgram fn prog else s
  else if word = 3 then s
  else
    let p := s.prog fn prog
    { s with progs := s.progs.put (progKey fn prog) { p with words := p.words.put word (v &&& progMask word) } }

/-- A write of the command block (R342, R343). DEDUCED: assumption log entry 54. -/
def State.cmdWrite (s : State) (fn word : Nat) (v : W64) : State :=
  let f := s.func fn
  if word < 8 then (if f.pend.isSome then s.dropWrite else s.putFunc fn { f with cmd := f.cmd.put word v })
  else if word = 8 then s.writeOpcode fn (wfld v 0 8)
  else if word = 9 then s
  else s.dropWrite

/-- A write of the package registers (R306). -/
def State.pkgWrite (s : State) (off : Nat) (v : W64) : State :=
  let p := s.pkg
  match off with
  | 0x10400 => s.setPkg { p with shapeRefused := p.shapeRefused &&& ~~~v }
  | 0x10408 => s.weightWrite v
  | 0x10410 => s.setPkg { p with weightErr := p.weightErr && !v.getLsbD 1 }
  | 0x10420 => s.powerWrite v
  | 0x10428 => s.setPkg { p with powerState := p.powerState &&& ~~~(v &&& 0x10#64) }
  | 0x10430 => s.setPkg { p with powerLimit := v &&& 0xFFFF#64 }
  | 0x10440 => s
  | 0x10448 => s
  | 0x10450 => s
  | 0x10458 => s
  | 0x10480 =>
    let w := wfld v 0 12
    if w = 0 || 3600 < w then s else s.setPkg { p with errWindow := BitVec.ofNat 64 w }
  | 0x10488 =>
    if wfld v 0 16 = 0 || wfld v 16 16 = 0 || wfld v 32 16 = 0 then s else s.setPkg { p with errThresh := v &&& 0xFFFFFFFFFFFF#64 }
  | 0x10490 => s.setPkg { p with flrDropped := 0 }
  | 0x10498 => s.setPkg { p with dropped := 0 }
  | 0x104A0 => s
  | 0x104A8 => if v.getLsbD 0 then s.bootGo (wfld v 32 24) else s
  | _ => s.dropWrite

/-- A write of the function registers (R305). -/
def State.funcWrite (s : State) (fn off : Nat) (v : W64) : State :=
  let f := s.func fn
  match off with
  | 0x00 => s
  | 0x08 => s
  | 0x10 => s
  | 0x40 => s.evqWrite fn false v
  | 0x48 => s.evqWrite fn true v
  | 0x50 => s.putFunc fn { f with evqHead := v }
  | 0x58 => s
  | 0x60 => s.putFunc fn { f with evqLost := 0 }
  | _ => s.dropWrite

/-- The eight bytes of a write into the boot window (R363). -/
def State.windowWrite (s : State) (off : Nat) (v : W64) : State :=
  { s with boot := { s.boot with window := (((natLE 8 v.toNat).zip (countFrom off 8)).foldl (fun (m : NMap Byte) e => NMap.set (α := Byte) m e.2 e.1) s.boot.window) } }

/-- A host write of eight bytes to the control BAR of a function (R305). Offsets that are not multiples of 8 hold no register
(DEDUCED, assumption log entry 40). -/
def State.barWrite (s : State) (fn off : Nat) (v : W64) : State :=
  let pf := fun (x : State) => if fn = 0 then x else s.dropWrite
  if off % 8 ≠ 0 then s.dropWrite
  else if off < 0x1000 then s.funcWrite fn off v
  else if 0x10000 ≤ off && off < 0x10400 then
    pf (if off % 16 = 8 then s.shapeStage ((off - 0x10000) / 16) v else s.shapeCommit ((off - 0x10000) / 16) v)
  else if 0x10400 ≤ off && off < 0x11000 then pf (s.pkgWrite off v)
  else if 0x11000 ≤ off && off < 0x12000 then pf (s.rangeWrite ((off - 0x11000) / 16) (off % 16 = 8) v)
  else if 0x20000 ≤ off && off < 0x20100 then s.cmdWrite fn ((off - 0x20000) / 8) v
  else if off = 0x20100 then pf (if v.getLsbD 0 then s.fwGo else s)
  else if off = 0x20108 then pf s
  else if 0x40000 ≤ off && off < 0x80000 then s.lqWrite fn ((off - 0x40000) / 32) (off / 8 % 4) v
  else if 0x80000 ≤ off && off < 0x90000 then s.progWrite fn ((off - 0x80000) / 256) (off / 8 % 32) v
  else if 0x100000 ≤ off && off < 0x900000 then pf (s.windowWrite (off - 0x100000) v)
  else if 0x1000000 ≤ off && off < 0x1400000 then s.ringWrite fn ((off - 0x1000000) / 32) (off / 8 % 4) v
  else s.dropWrite

/-- REGISTER_WRITE. -/
def execRegisterWrite (fn off : Nat) (val : BitVec 64) (s : State) : Out := .next (s.hostWrite fn fun s => s.barWrite fn off val)

/-! ## Host reads (R300, R305) -/

/-- A truth value at a bit. -/
def atBit (b : Bool) (i : Nat) : Nat := if b then 2 ^ i else 0

/-- A read of the package registers (R306). -/
def State.pkgRead (s : State) (off : Nat) : W64 :=
  let p := s.pkg
  let b := s.boot
  match off with
  | 0x10400 => p.shapeRefused
  | 0x10410 => BitVec.ofNat 64 (atBit p.weightErr 1)
  | 0x10420 => p.powerCtl
  | 0x10428 => p.powerState
  | 0x10430 => p.powerLimit
  | 0x10440 => p.powerW
  | 0x10448 => p.tempDie
  | 0x10450 => p.tempHbm
  | 0x10458 => p.currentA
  | 0x10480 => p.errWindow
  | 0x10488 => p.errThresh
  | 0x10490 => p.flrDropped
  | 0x10498 => p.dropped
  | 0x104A0 => BitVec.ofNat 64 (atBit b.waiting 0 + atBit b.fail 1 + atBit b.running 2 + b.reason * 256)
  | _ => 0

/-- FW_STATUS (R420). -/
def Boot.fwStatus (b : Boot) : W64 := BitVec.ofNat 64 (atBit b.slotBActive 0 + b.phase * 2 + b.err * 256)

/-- A read of the function registers (R305). -/
def State.funcRead (s : State) (fn off : Nat) : W64 :=
  let f := s.func fn
  match off with
  | 0x00 => BitVec.ofNat 64 fn
  | 0x08 => BitVec.ofNat 64 (f.ringFirst + f.ringCount * 4294967296)
  | 0x10 => BitVec.ofNat 64 (f.lqFirst + f.lqCount * 4294967296)
  | 0x40 => f.evqBase
  | 0x48 => f.evqSize
  | 0x50 => f.evqHead
  | 0x58 => f.evqTail
  | 0x60 => f.evqLost
  | _ => 0

/-- A word of a ring's descriptor (R307). -/
def Ring.word (r : Ring) (i : Nat) : W64 :=
  match i with
  | 0 => r.base
  | 1 => BitVec.ofNat 64 (r.log2 + r.cid * 256 + r.lq * 4294967296)
  | 2 => r.shadow
  | _ => BitVec.ofNat 64 (atBit r.enable 0 + atBit r.overrun 1 + r.tail.toNat * 4294967296)

/-- A word of a logical queue's descriptor (R311). -/
def State.lqWord (s : State) (fn lq i : Nat) : W64 :=
  let q := s.lq fn lq
  match i with
  | 0 => BitVec.ofNat 64 (q.cid + q.program * 65536 + q.qval * 16777216)
  | 1 => BitVec.ofNat 64 (atBit q.enable 0)
  | 2 => BitVec.ofNat 64 (s.ringsOf fn lq).length
  | _ => BitVec.ofNat 64 q.ended

/-- A word of a sparge program entry (R318). -/
def SpProg.word (p : SpProg) (i : Nat) : W64 :=
  if i = 0 then 0
  else if i = 3 then BitVec.ofNat 64 (atBit p.loaded 0 + atBit p.failed 1 + p.failCheck * 16 + p.failIndex * 65536)
  else p.words.get i

/-- What a host read of eight bytes of a function's control BAR returns (R305). -/
def State.hostRead (s : State) (fn off : Nat) : W64 :=
  let pf := fun (x : W64) => if fn = 0 then x else 0#64
  if off % 8 ≠ 0 || 256 ≤ fn then 0
  else if off < 0x1000 then s.funcRead fn off
  else if 0x10000 ≤ off && off < 0x10400 then
    let w := s.shapes.get ((off - 0x10000) / 16)
    pf (if off % 16 = 8 then w.2 else w.1)
  else if 0x10400 ≤ off && off < 0x11000 then pf (s.pkgRead off)
  else if 0x11000 ≤ off && off < 0x12000 then pf (s.funcRead ((off - 0x11000) / 16) (if off % 16 = 8 then 0x10 else 0x08))
  else if 0x20000 ≤ off && off < 0x20040 then (s.func fn).cmd.get ((off - 0x20000) / 8)
  else if off = 0x20048 then (s.func fn).cmdStatus
  else if off = 0x20108 then pf s.boot.fwStatus
  else if 0x40000 ≤ off && off < 0x80000 then
    (if (off - 0x40000) / 32 < (s.func fn).lqCount then s.lqWord fn ((off - 0x40000) / 32) (off / 8 % 4) else 0)
  else if 0x80000 ≤ off && off < 0x90000 then (s.prog fn ((off - 0x80000) / 256)).word (off / 8 % 32)
  else if 0x100000 ≤ off && off < 0x900000 then
    pf (BitVec.ofNat 64 (leNat ((countFrom (off - 0x100000) 8).map fun i => NMap.get (α := Byte) s.boot.window i)))
  else if 0x1000000 ≤ off && off < 0x1400000 then
    (if (off - 0x1000000) / 32 < (s.func fn).ringCount then (s.ring fn ((off - 0x1000000) / 32)).word (off / 8 % 4) else 0)
  else 0

/-- What a host read of eight bytes of a function's bulletin BAR returns (R300, R303). -/
def State.bulletinBar (s : State) (off : Nat) : W64 :=
  if off % 8 = 0 && off < 4096 then BitVec.ofNat 64 (leNat (fitTo 8 0#8 (s.bulletin.bytes.drop off))) else 0

end Sys2Proof.Machine
end

