-- ==== Sys2Proof/Machine/Placement.lean ====
section
/-! DEFINITION. Placement of threads on cores, reservations, pre-emption, parking and roll-backs by the Kiln (R17, R18, R127,
R229, R230, R235, R237, R381, R385, R393). -/

namespace Sys2Proof.Machine

/-! ## Room on a core -/

/-- The lowest free thread slot of a core. -/
def State.freeSlot (s : State) (core : Nat) : Option Nat :=
  (countFrom 0 4).find? fun i => !s.threads.any fun p => p.2.placed && p.2.core = core && p.2.slot = i && decide (p.1 < passBase)

/-- The first key of the records that retired ranks of a gang leave behind once their numbers are free again (R18, R225). -/
def ghostBase : Nat := 7 * passBase

/-- The granules of scratch that allotments of threads that a test selects hold on a core: those of threads that hold a slot, of members of a
gang that is off its slots, and of retired ranks of a gang (R17, R18, R26). -/
def State.scratchOf (s : State) (core : Nat) (p : Thread → Bool) : Nat :=
  s.threads.foldl (fun n e =>
    if e.2.core = core && (decide (e.1 < passBase) || decide (ghostBase ≤ e.1)) && (e.2.placed || e.2.homed || !e.2.alive) && p e.2
    then n + e.2.scratchG else n) 0

/-- The granules of scratch that allotments hold on a core. -/
def State.scratchUsed (s : State) (core : Nat) : Nat := s.scratchOf core fun _ => true

/-- The scratch that the threads of a context may hold together on one core (R340). -/
def Ctx.scratchLimit (c : Ctx) : Nat := wfld (c.word 24) 32 8

/-- The allotment of a thread stays where it is: it belongs to a gang that is to go on where it was (R18). A core that is retired, or a die that
is gated, gives its allotments up with the whole gang. -/
def State.stays (s : State) (key : Nat) : Bool :=
  (s.thr key).homed && (s.gangKeys key).all fun k => (s.thr k).homed && !(s.cores.get (s.thr k).core).retired && !s.gated ((s.thr k).core / 104)

/-- The allotment of a thread can be met on a core: it lies there already, or there is room for it, on the core and within what its context may
hold there (R17, R18, R340). -/
def State.scratchFits (s : State) (key core : Nat) : Bool :=
  let t := s.thr key
  if s.stays key then decide (t.core = core)
  else decide (s.scratchUsed core + t.scratchG ≤ 128) &&
    decide (s.scratchOf core (fun u => u.cid = t.cid) + t.scratchG ≤ (s.ctx t.cid).scratchLimit)

/-- The operand-memory slots of a thread can be met on a core, within what its context may hold there (R122, R340); one that holds lent slots needs
a core that can lend them at that moment (R123, R127). -/
def State.slotsFit (s : State) (t : Thread) (core : Nat) : Bool :=
  let need := fun (m : MMem) (lent : Bool) => ((t.slots m).filter fun x => x.2.lent = lent).length +
    (t.promised.filter fun x => x.1 = m.code && x.2.2.lent = lent).length
  let fits := fun (m : MMem) =>
    let all := need m false + need m true
    decide (s.heldSlots core m false + need m false ≤ claimable m) &&
      (decide (all = 0) || decide (s.ctxSlots core t.cid m + all ≤ (s.ctx t.cid).slotLimit m))
  let out := s.heldSlots core .ab true
  fits .wb && fits .ab && fits .cb &&
    (decide (need .ab true = 0) || (decide (out + need .ab true ≤ 2) && !s.passRuns core && (decide (0 < out) || decide (s.lenders (core / 104) < 8))))

/-- A core may take a thread of a request (R229): it runs, nobody else's reservation holds it, and what the thread needs is free. -/
def State.canTake (s : State) (p : PlaceReq) (key core : Nat) : Bool :=
  let t := s.thr key
  decide (core < 832) && !(s.cores.get core).retired && !s.gated (core / 104) && !s.stopped &&
    !(s.places.any fun q => q.reserved && q.keys ≠ p.keys && q.cores.contains core) && (s.freeSlot core).isSome &&
    s.scratchFits key core && s.imageFits core (s.wantedSlot key) && s.slotsFit t core && s.linesFit key core

/-- Distinct cores of a list for threads, in order, with a choice of the first that leaves a choice for the rest.
DESIGN CHOICE: assumption log entry 59. -/
def State.assign (s : State) (p : PlaceReq) : List Nat → List Nat → Option (List (Nat × Nat))
  | [], _ => some []
  | k :: rest, cores => cores.findSome? fun c =>
      if s.canTake p k c then (State.assign s p rest (cores.filter (· ≠ c))).map fun l => (k, c) :: l else none

/-- The cores of the cluster of a core, from that core on. -/
def clusterFrom (core : Nat) : List Nat := (countFrom 0 8).map fun i => core / 8 * 8 + (core + i) % 8

/-- The retired ranks of a thread's gang, whose allotments remain (R18). -/
def State.retiredRanks (s : State) (key : Nat) : List Nat :=
  let g := s.thr key
  if g.gang = 0 then []
  else (s.threads.filter fun p => !p.2.alive && decide (p.2.gang = g.gang) && decide (p.2.cid = g.cid)).map (·.1)

/-- Cores for the allotments of retired ranks beside what else is to be there; none when one does not fit (R14, R18). -/
def State.besides (s : State) (dead : List Nat) (cores : List Nat) : List Nat → List (Nat × Nat) → Option (List (Nat × Nat))
  | [], l => some l
  | d :: rest, l =>
    let own := fun (c : Nat) => dead.foldl (fun n k => if (s.thr k).core = c then n + (s.thr k).scratchG else n) 0
    let new := fun (c : Nat) => l.foldl (fun n e => if e.2 = c then n + (s.thr e.1).scratchG else n) 0
    match cores.find? fun c => decide (s.scratchUsed c - own c + new c + (s.thr d).scratchG ≤ 128) with
    | some c => State.besides s dead cores rest (l ++ [(d, c)])
    | none => none

/-- Where the threads of a request would go, beginning with a core (R229, R230): a single thread to that core, a gang to cores of
its cluster, with the allotments of its retired ranks (R18). A thread that still holds a slot stays there, and so do the allotments of a gang that
goes on where it was. -/
def State.assignAt (s : State) (p : PlaceReq) (core : Nat) : Option (List (Nat × Nat)) :=
  match p.keys.filter fun k => !(s.thr k).placed with
  | [] => some []
  | k :: r =>
    if (s.thr k).gang = 0 then (if s.canTake p k core then some [(k, core)] else none)
    else match s.assign p (k :: r) (clusterFrom core) with
      | none => none
      | some l => if s.stays k then some l else s.besides (s.retiredRanks k) (clusterFrom core) (s.retiredRanks k) l

/-- A request can be met now. -/
def State.canMeet (s : State) (p : PlaceReq) : Bool := (countFrom 0 832).any fun c => (s.assignAt p c).isSome

/-- The heads of a thread's queues are where they are from a tick on: a claim asks anew (R134, R149). -/
def Thread.freshHeads (t : Thread) (tick : Nat) : Thread :=
  { t with queues := t.queues.map fun q => (q.1, { q.2 with entries := match q.2.entries with
      | x :: r => { x with headAt := some tick } :: r
      | [] => [] }) }

/-- A thread comes to a core and a slot of it: lines of its remote line cache stay only with a gang that goes on where it was, and clean lines of the
core give way to what comes (R14, R18). -/
def State.moveTo (s : State) (key core slot : Nat) : State :=
  (s.updThr key fun t =>
    let t := if t.homed && t.core = core then t else t.dropClean
    { (t.freshHeads s.tick) with core := core, slot := slot, placed := true, homed := true }).trimLines core

/-- A thread takes a slot (R229): one that may run is resident, a member of a gang that waits for its tick unstarted (R328). An arrival at a
barrier stands (R237, R246). -/
def State.seat (s : State) (key : Nat) (core : Option Nat) : State :=
  let held := s.gangHolds.any fun h => h.keys.contains key
  let s := match core with
    | none => s
    | some c =>
      (s.loadOverlay c (s.wantedSlot key)).moveTo key c ((s.freeSlot c).getD 0)
  s.updThr key fun t =>
    { t with run := if t.run = .waiting then (if held then .unstarted else .resident) else t.run, preemptReq := none, wait := t.wait.kept, idle := s.tick }

/-- A request is met (R229): requests are served in the order in which they were made, a later one first only while no earlier
one can be met. A gang that has missed its tick is late, or is placed no more (R328). -/
def State.place (s : State) (n core : Nat) : State :=
  let s := s.judgeGangs
  match s.places[n]? with
  | none => s
  | some p =>
    if s.fwHeld || s.stopped || s.gangOver p.keys || !s.mayLeave p || (s.places.take n).any fun q => s.mayLeave q && s.canMeet q then s
    else
      match s.assignAt p core with
      | none => s
      | some l =>
        let s := { s with places := s.places.eraseIdx n }
        let s := (l.filter fun e => !p.keys.contains e.1).foldl (fun s e => s.updThr e.1 fun t => { t with core := e.2 }) s
        p.keys.foldl (fun s k => s.seat k ((l.find? fun e => e.1 = k).map (·.2))) s

/-- PLACEMENT. -/
def execPlacement (n core : Nat) (s : State) : Out := .next (s.place n core)

/-- The state once the threads on some cores, with their gangs, have left: the allotments of gangs stay (R18, R230). -/
def State.cleared (s : State) (cores : List Nat) : State :=
  let keys := ((s.threads.filter fun e => e.2.placed && cores.contains e.2.core && e.1 < passBase).map (·.1)).flatMap s.gangKeys
  { s with threads := s.threads.map fun p => if keys.contains p.1 then (p.1, { p.2.offSlot with slot := 0, placed := false }) else p }

/-- Cores could meet a request once their threads have left (R229). -/
def State.couldMeet (s : State) (p : PlaceReq) (cores : List Nat) : Bool :=
  !(s.places.any fun q => q.reserved && q.cores.any cores.contains) && ((s.cleared cores).assign p p.keys cores).isSome

/-- PLACEMENT_RESERVATION (R229): after 125,000 ticks the Kiln reserves no more cores than the request needs, and asks the
threads on them to leave. -/
def execPlacementReservation (n : Nat) (cores : List Nat) (s : State) : Out :=
  .next (match s.places[n]? with
    | none => s
    | some p =>
      let one := cores.all fun c => decide (c / 8 = cores.headD 0 / 8)
      if s.fwHeld || !s.mayLeave p || p.reserved || s.tick < p.since + 125000 || decide (cores.length ≠ p.keys.length) || cores.eraseDups ≠ cores ||
          !one || !s.couldMeet p cores then s
      else
        let s := { s with places := setAt s.places n { p with reserved := true, cores := cores } }
        let keys := ((s.threads.filter fun e => e.2.placed && cores.contains e.2.core && e.1 < passBase).map (·.1)).flatMap s.gangKeys
        keys.foldl (fun s k => s.updThr k fun t => t.askStop s.tick) s)

/-- OVERLAY_LOAD (R235): an image comes into the overlay of a core where it fits. -/
def execOverlayLoad (core slot : Nat) (s : State) : Out :=
  .next (if core < 832 && (s.images.get slot).resident && s.imageFits core slot then s.loadOverlay core slot else s)

/-! ## Leaving a slot (R237, R385, R391 to R393) -/

/-- PREEMPT (R392): the Kiln asks a resident thread, with its gang, to leave (R230). -/
def execPreempt (key : Nat) (s : State) : Out :=
  .next (if s.fwHeld || passBase ≤ key || !(s.thr key).alive then s
    else (s.gangKeys key).foldl (fun s k => s.updThr k fun t => t.askStop s.tick) s)

/-- The Kiln rolls a thread back and takes it off its slot (R237): no trap; the versions that depend on it go with it (R387). A
gang member keeps its slot unless the whole gang is to leave (R230). -/
def State.rollOff (s : State) (key ev : Nat) : State :=
  let src := s
  let asked := (s.thr key).preemptReq.isSome
  let s := ((s.rollBack key).cascade src key).countEv (s.thr key).cid ev 1
  if asked then s.replace key
  else (s.leaveCore key fun t => { t with run := .waiting, wait := default }).askAgain key

/-- A thread may be rolled back to make it leave: no version of it has published (R385, R393). -/
def Thread.rollable (t : Thread) : Bool := t.alive && !t.versions.any (·.published)

/-- PREEMPT_ROLLBACK (R393): 1,250,000 ticks after the request. -/
def execPreemptRollback (key : Nat) (s : State) : Out :=
  let t := s.thr key
  .next (match t.preemptReq with
    | some a => if key < passBase && decide (t.run = .resident) && t.rollable && decide (a + 1250000 ≤ s.tick) then s.rollOff key 0x107 else s
    | none => s)

/-- The MSC bytes of a thread's largest version (R385). -/
def Thread.mscBytes (t : Thread) : Nat := t.versions.foldl (fun n v => Nat.max n v.mscBytes) 0

/-- MSC_ROOM_ROLLBACK (R385): the thread that holds the largest unpublished version makes room for a write that would pass
7,168 MiB. -/
def execMscRoomRollback (need : Nat) (s : State) : Out :=
  let c := s.threads.filter fun p => p.2.rollable && decide (p.1 < passBase) && 0 < p.2.mscBytes
  let best := c.foldl (fun (o : Option (Nat × Thread)) p => match o with
    | none => some p
    | some b => if b.2.mscBytes < p.2.mscBytes then some p else some b) none
  .next (match best with
    | some (k, t) => if s.mscUse + need ≤ 7516192768 then s else if t.run = .resident then s.rollOff k 0x106
      else ((s.rollBack k).cascade s k).countEv t.cid 0x106 1
    | none => s)

/-- The park threshold of a context (R237, R340). -/
def Ctx.park (c : Ctx) : Nat := wfld (c.word 32) 0 32

/-- PARK_THRESHOLD (R237): a thread whose WAITF, WAITFX or BAR has waited that long leaves its slot. -/
def execParkThreshold (key : Nat) (s : State) : Out :=
  let t := s.thr key
  let waits := match t.wait.kind with | .flag => true | .bar _ => true | _ => false
  .next (if key < passBase && t.alive && decide (t.run = .resident) && waits && decide (t.wait.since + (s.ctx t.cid).park ≤ s.tick) then
    (s.stopThread key).leaveCore key fun t => { t with run := .parkedWait }
  else s)

/-- The wait of a parked thread can end (R237): its flag has reached the count, or the barrier's generation has advanced. -/
def State.canEnd (s : State) (key : Nat) (t : Thread) : Bool :=
  match t.wait.kind with
  | .flag =>
    let mine := s.waiters.filter fun w => decide (w.key = key) && decide (w.unit = 0)
    mine.isEmpty || mine.any fun w => w.granted || decide (w.count ≤ (s.flagVal w.flag).toNat)
  | .bar gen =>
    match ((s.text t)[t.live.pc]?).map fun w => decodeWord w.toNat with
    | some (.ok (.bar g)) => decide (gen.toNat < ((s.ctx t.cid).groups.get g.toNat).gen.toNat)
    | _ => true
  | _ => true

/-- Parked threads whose waits can end ask for slots (R237). -/
def State.unpark (s : State) : State :=
  let ready := (s.threads.filter fun p => p.2.alive && decide (p.2.run = .parkedWait) && s.canEnd p.1 p.2).map (·.1)
  ready.foldl (fun s k => s.resumeThread k) s

/-! ## Offering a slot (R253) -/

/-- A placement request waits for a thread slot that the core of a thread could provide once the thread has left it: a thread of the request
holds none, and could be placed there; a gang of which some hold slots stays in their cluster, on cores of its own (R229, R230, R253). -/
def State.slotWanted (s : State) (key : Nat) : Bool :=
  let core := (s.thr key).core
  let u := s.replace key
  u.places.any fun p => !p.keys.contains key && u.mayLeave p &&
    (p.keys.all fun k => !(u.thr k).placed || (decide ((u.thr k).core / 8 = core / 8) && decide ((u.thr k).core ≠ core))) &&
    p.keys.any fun k => !(u.thr k).placed && u.canTake p k core

/-- YIELD (R253): a thread that belongs to no gang leaves its slot, after the word, when a placement request waits for one that its core could
provide. -/
def execYield (s : State) : Out :=
  sqWord (fun key => do
    advance key
    let s ← get
    if (s.thr key).gang = 0 && key < passBase && !s.fwHeld && s.slotWanted key then set (s.replace key)) s

/-- BOUNDARY_LANDING (R381). -/
def execBoundaryLanding (key : Nat) (s : State) : Out := .next (if (s.thr key).alive then s.landFirst key else s)

/-- A packet that has been accepted for a thread of a context waits to be performed (R225). -/
def State.inboundFor (s : State) (cid thr : Nat) : Bool :=
  let mine := fun (p : InPkt) => decide (p.h.thread.toNat = thr)
  (s.ctx cid).store.any mine || s.inflows.any fun f => decide ((s.endpoints.get f.ep.toNat).cid = cid) && f.waiting.any mine

/-- An emission will signal a thread (R225, R314). -/
def Emission.signals (e : Emission) (thr : Nat) : Bool :=
  match e.kind with
  | .signal t _ _ => decide (t = thr)
  | .copy _ _ _ t f => decide (t = thr) && decide (f ≠ 0)
  | .tile _ t => decide (t = thr)
  | _ => false

/-- A host signal that has been accepted for a thread of a context has still to be made. -/
def State.signalFor (s : State) (cid thr : Nat) : Bool :=
  s.lqs.any fun q => decide (q.2.cid = cid) && (q.2.released.any (·.signals thr) || q.2.copies.any fun x => x.em.signals thr)

/-- The record that a retired rank of a gang leaves for its peers takes another key, and all that names its scratch with it. -/
def State.rekey (s : State) (old new : Nat) : State :=
  let sp := fun (x : Space) => if x = .scratch old then .scratch new else x
  { s with
    threads := NMap.put ((s.threads.filter fun p => p.1 ≠ old).map fun p => (p.1, { p.2 with
      scores := p.2.scores.map fun c => if c.key = old then { c with key := new } else c
      versions := p.2.versions.map fun v => { v with undo := v.undo.map fun u => { u with space := sp u.space } } })) new (s.thr old)
    rels := s.rels.map fun r => { r with space := sp r.space } }

/-- The first key that no record of a retired rank has. -/
def State.freeGhost (s : State) : Nat := (s.threads.keys.filter fun k => ghostBase ≤ k).foldl (fun n k => Nat.max n (k + 1)) ghostBase

/-- QUARANTINE_END (R225): a retired number is free again, once nothing that was accepted for the thread is left. A retired rank of a gang that
still exists keeps its allotment without it (R18). -/
def execQuarantineEnd (cid thr : Nat) (s : State) : Out :=
  let q := (s.ctx cid).quarantine
  let key := cid * 65536 + thr
  .next (if q.has thr && decide (q.get thr + 1250000 ≤ s.tick) && !(s.tasks.any fun t => t.2.origin = some key) &&
      !(s.outbox.any fun p => decide (p.key = key)) && !s.inboundFor cid thr && !s.signalFor cid thr then
    let s := s.updCtx cid fun c => { c with quarantine := c.quarantine.erase thr }
    if s.threads.has key && !(s.thr key).alive then s.rekey key s.freeGhost else s
  else s)

end Sys2Proof.Machine
end

