-- ==== Sys2Proof/Machine/KilnEvents.lean ====
section
/-! DEFINITION. Streams and entries that move by themselves, deadlock, traps and cascades that reach a thread, hardware errors, trace
samples, and eviction of register-cache lines (R134, R142, R145, R171, R207, R210, R261, R373, R387, R395, R396, R426). -/

namespace Sys2Proof.Machine

/-! ## Engines that move by themselves -/

/-- The effect of the head of a queue. -/
def engEffect : Eng → Nat → QEntry → M Unit
  | .vl => vlEffect
  | .va => vaEffect
  | .vs => vsEffect
  | .mx => mxEffect
  | .cp => cpEffect

/-- A thread that runs. -/
def Thread.runs (t : Thread) : Bool := t.alive && decide (t.run = .resident)

/-- One step of an engine of a thread: its streams move, then the head of its queue runs (R12, R207, R210). -/
def State.engineStep (s : State) (key : Nat) (e : Eng) : State :=
  if !(s.thr key).runs || s.stopped then s
  else
    let s := match e with
      | .vl => s.inputStreams key
      | .vs => s.outputStreams key
      | _ => s
    s.runHead (engEffect e) e key

/-- STREAM_FILL (R207): an input stream reads its next entry into its register, while that has room. -/
def execStreamFill (key v : Nat) (s : State) : Out :=
  let t := s.thr key
  let r := t.live.v.get v
  .next (if t.runs && r.strm.ready false && r.fifo.length < 4 then s.streamStep key v streamRead else s)

/-- STREAM_DRAIN (R210): an output stream writes the oldest entry of its register. -/
def execStreamDrain (key v : Nat) (s : State) : Out :=
  let t := s.thr key
  let r := t.live.v.get v
  .next (if t.runs && r.strm.ready true && !r.fifo.isEmpty then s.streamStep key v streamWrite else s)

/-- The word at the head of a thread's MX queue. -/
def Thread.mxHead (t : Thread) : Option Instr := ((t.queue .mx).entries.head?).map (·.word)

/-- MDRAINP_ARRIVAL (R145): the rows of the MDRAINP at the head of a queue arrive, when it is its rank's turn. -/
def execMdrainpArrival (key : Nat) (s : State) : Out :=
  .next (match (s.thr key).mxHead with
    | some (.mdrainp _ _ _ _) => s.runHead mxEffect .mx key
    | _ => s)

/-- TIMED_PASS_START (R142): an admitted MPASSAT starts the array at its tick. -/
def execTimedPassStart (key : Nat) (s : State) : Out :=
  .next (match (s.thr key).mxHead with
    | some (.mpassat _ _ _ _ _) => s.runHead mxEffect .mx key
    | _ => s)

/-! ## Deadlock (R134, R261) -/

/-- What the head of a queue waits for: none when it can go on or is under way; `running` for an empty queue. -/
def State.engineWait (s : State) (key : Nat) (e : Eng) : Option WaitKind :=
  match ((s.thr key).queue e).entries with
  | [] => some .running
  | q :: _ =>
    match (do entryStart key e q; engEffect e key q : M Unit) s with
    | .error (.stall k) => some k
    | .error (.wait .flag _) => some .flag
    | _ => none

/-- A flag that a unit waits on may be set by another agent (R261): a tile task completes into it, it belongs to a group with
another member, or it is a local flag of a thread that others can reach. -/
def State.flagOutside (s : State) (key : Nat) (f : FlagRef) : Bool :=
  let t := s.thr key
  let task := s.tasks.any fun x => x.2.cid = t.cid && x.2.flag = some f
  let reach := t.gang ≠ 0 || !(s.ctx t.cid).grants.isEmpty ||
    s.progs.any fun p => p.2.loaded && decide (wfld (p.2.words.get 4) 0 12 = t.cid) && p.2.ops.any fun w => (match decodeSparge w.toNat with
      | .ok .esignal => true
      | _ => false)
  task || (if f.group then ((s.ctx (f.owner / 256)).groups.get (f.owner % 256)).members.any fun m => m.1 ≠ t.num else reach)

/-- The slots that a claim at the head of a thread's queue awaits: the memory, and how many (R134). -/
def Thread.claim (t : Thread) : Option (MMem × Nat) :=
  match t.mxHead with
  | some (.mclaim m _ n) => some (m, n.toNat)
  | _ => none

/-- The threads of a core that hold slots of a memory. -/
def State.holders (s : State) (core : Nat) (m : MMem) : List Nat :=
  (s.threads.filter fun p => p.2.placed && p.2.core = core && decide (p.1 < passBase) &&
    (!(p.2.slots m).isEmpty || p.2.promised.any fun x => x.1 = m.code)).map (·.1)

/-- The claims that wait on a core, with their memory and the tick each reached the head of its queue (R134). -/
def State.claims (s : State) (core : Nat) : List (Nat × (MMem × Nat) × Nat) :=
  s.threads.filterMap fun p =>
    if p.2.core = core && p.2.runs && decide (p.1 < passBase) then
      match p.2.claim, ((p.2.queue .mx).entries.head?).bind fun x => x.since.map fun a => x.headAt.getD a with
      | some c, some a => some (p.1, c, a)
      | _, _ => none
    else none

/-- The threads whose claims on the memory of a thread's claim are to be granted before it (R134). -/
def State.claimsAhead (s : State) (key : Nat) (m : MMem) : List Nat :=
  let l := s.claims (s.thr key).core
  match l.find? fun x => x.1 = key with
  | none => []
  | some me => (l.filter fun x => decide (x.1 ≠ key) && decide (x.2.1.1 = m) &&
      (decide (x.2.2 < me.2.2) || (decide (x.2.2 = me.2.2) && decide (x.1 < key)))).map (·.1)

/-- The holders of the slots that a claim of a thread awaits: where nothing but the limit of its context is in its way, the threads of that
context; behind an earlier claim, which has to be granted first, that claim's thread and every holder (R134, R340). -/
def State.claimHolders (s : State) (key : Nat) (c : MMem × Nat) : List Nat :=
  let t := s.thr key
  let free := claimable c.1 - s.heldSlots t.core c.1 false
  let room := if c.1 = .ab && 6 < c.2 then (s.lendable t.core free c.2).isSome else decide (c.2 ≤ free)
  let l := s.holders t.core c.1
  let ahead := s.claimsAhead key c.1
  if !ahead.isEmpty then (ahead ++ l).eraseDups else if room then l.filter fun k => (s.thr k).cid = t.cid else l

/-- A claim waits for a pass, or for a core of the die that has lent its reserve (R123). -/
def State.claimPass (s : State) (core : Nat) (c : MMem × Nat) : Bool :=
  c.1 = .ab && 6 < c.2 && (s.passRuns core || decide (8 ≤ s.lenders (core / 104)))

/-- An external wake source of a waiting unit of a thread (R261); a BAR that still waits for its own entries is none (DESIGN CHOICE: assumption log
entry 81). -/
def State.outside (s : State) (key unit : Nat) (k : WaitKind) : Bool :=
  let t := s.thr key
  match k with
  | .flag => s.waiters.any fun w => decide (w.key = key) && decide (w.unit = unit) && s.flagOutside key w.flag
  | .bar _ =>
    (s.ctx t.cid).groups.any fun g => g.2.members.has t.num && g.2.members.any fun m => m.1 ≠ t.num
  | .claim =>
    match t.claim with
    | some c => s.claimPass t.core c || (s.claimHolders key c).any fun h => h ≠ key
    | none => true
  | .board => s.threads.any fun p => decide (p.1 ≠ key) && p.2.scores.any fun c => decide ((s.thr c.key).cluster = t.cluster)
  | .outside => true
  | .commit => t.idleQueues
  | .fence => t.idleQueues
  | .other => t.idleQueues
  | _ => false

/-- The code of a waiting unit in TRAP_INFO (R261); none for a wait that the table does not list (DESIGN CHOICE, assumption log entry 43). -/
def WaitKind.code : WaitKind → Option Nat
  | .running => some 0
  | .flag => some 1
  | .empty => some 2
  | .full => some 3
  | .waitc => some 4
  | .barIn => some 5
  | .bar _ => some 5
  | .claim => some 6
  | .queue => some 7
  | .board => some 7
  | .exhausted => some 8
  | .ticket => some 9
  | _ => none

/-- The waits of the six units of a thread when each is empty or blocked, and none can be ended from outside (R261). -/
def State.selfBlocked (s : State) (key : Nat) : Option (List WaitKind) :=
  let t := s.thr key
  let es := engs.map fun e => (e.code, s.engineWait key e)
  let moves := t.live.v.any fun p =>
    (p.2.strm.ready false && decide (p.2.fifo.length < 4)) || (p.2.strm.ready true && !p.2.fifo.isEmpty)
  if t.wait.kind = .running || es.any (fun e => e.2.isNone) || s.outbox.any (fun p => decide (p.key = key)) || moves then none
  else
    let l := (0, t.wait.kind) :: es.filterMap fun e => e.2.map fun k => (e.1, k)
    if l.any fun u => s.outside key u.1 u.2 then none else some (l.map (·.2))

/-- The codes of units in their fields; a wait without a code gives a free value. -/
def deadlockInfo : List WaitKind → Nat → Nat → Nat
  | [], _, _ => 0
  | k :: r, at_, fr =>
    (match k.code with | some c => c | none => (Config.freeWord fr).toNat % 16) * 16 ^ at_ + deadlockInfo r (at_ + 1) (fr + 1)

/-- DEADLOCK (R261): precise at the word where the sequencer is blocked. -/
def execDeadlock (key : Nat) (s : State) : Out :=
  let t := s.thr key
  .next (if key < passBase && t.runs && decide (t.idle + 4096 ≤ s.tick) then
    match s.selfBlocked key with
    | some l => ({ s with fresh := s.fresh + 6 } : State).takeTrap key (t.sTrap (mkTrap 10 0 (deadlockInfo l 0 s.fresh)))
    | none => s
  else s)

/-- The least set of threads that holds a list and, with a claim, every holder of the slots it awaits; a fuel bounds the rounds. -/
def State.claimClosure (s : State) (l : List (Nat × (MMem × Nat) × Nat)) : Nat → List Nat → List Nat
  | 0, acc => acc
  | fuel + 1, acc =>
    let more := (l.filter fun c => acc.contains c.1).flatMap fun c => s.claimHolders c.1 c.2.1
    let acc' := (acc ++ more).eraseDups
    if acc'.length = acc.length then acc else State.claimClosure s l fuel acc'

/-- The claim cycle that a claim belongs to, when it does (R134): every holder of the awaited slots waits on a claim of the set. -/
def State.claimCycleOf (s : State) (core : Nat) (l : List (Nat × (MMem × Nat) × Nat)) (key : Nat) : Option (List (Nat × (MMem × Nat) × Nat)) :=
  let set := s.claimClosure l 8 [key]
  let mine := l.filter fun c => set.contains c.1
  if mine.length = set.length && !(mine.any fun c => s.claimPass core c.2.1 || (s.claimHolders c.1 c.2.1).isEmpty) then some mine else none

/-- CLAIM_CYCLE (R134): the claim that reached the head of its queue last raises DEADLOCK; of claims that reached it in one tick, the first
listed (DESIGN CHOICE, assumption log entry 71). -/
def execClaimCycle (core : Nat) (s : State) : Out :=
  let l := s.claims core
  let ripe := l.findSome? fun c => (s.claimCycleOf core l c.1).bind fun m =>
    if m.all fun x => x.2.2 + 4096 ≤ s.tick then some m else none
  .next (match ripe with
    | none => s
    | some m =>
      let last := m.foldl (fun (b : Nat × Nat) x => if b.2 < x.2.2 then (x.1, x.2.2) else b) ((m.headD default).1, (m.headD default).2.2)
      let t := s.thr last.1
      let q := ((t.queue .mx).entries.head?).getD default
      s.takeTrap last.1 (t.eTrap .mx q (mkTrap 10 0 393216)))

/-! ## Traps that reach a thread (R373, R387) -/

/-- TRAP_DELIVERY (R373). -/
def execTrapDelivery (key : Nat) (t : Trap) (s : State) : Out := .next (if (s.thr key).runs then s.takeTrap key t else s)

/-- VERSION_CASCADE (R387): a thread one of whose versions depends on a version that has been discarded takes VERSION. -/
def execVersionCascade (key writer : Nat) (s : State) : Out :=
  let live := fun (id : Nat) => s.threads.any fun p => p.2.versions.any fun v => v.id = id
  let t := s.thr key
  .next (if key ≠ writer && t.alive && decide (key < passBase) && t.versions.any (fun v => v.deps.any fun d => !live d) then s.cascadeTo s (key, writer) else s)

/-! ## Errors (R395, R396) -/

/-- A place is reported lasting with its count, once per window (R395). -/
def State.tellLasting (s : State) (kind loc n : Nat) : State :=
  let recent := s.lasting.filter fun e => decide (s.tick < e.2.2 + s.pkg.errWindow.toNat * 1250000000)
  if recent.any fun e => e.1 = kind && e.2.1 = loc then s
  else postEvent 0 7 0 0 4294967295 0 0 n (kind * 2 ^ 60 + loc) { s with lasting := recent ++ [(kind, loc, s.tick)] }

/-- Counts an error of a kind at a place; one that reaches its threshold within the window is reported lasting (R395). -/
def State.countError (s : State) (kind loc : Nat) : State :=
  let window := s.pkg.errWindow.toNat * 1250000000
  let recent := (s.errors.filter fun e => decide (s.tick < e.2.2 + window)) ++ [(kind, loc, s.tick)]
  let n := (recent.filter fun e => e.1 = kind && e.2.1 = loc).length
  let s := { s with errors := recent }
  if wfld s.pkg.errThresh (16 * kind) 16 ≤ n then s.tellLasting kind loc n else s

/-- CORRECTED_ERROR (R395): kind 0 SRAM, 1 HBM, 2 fabric. -/
def execCorrectedError (kind : BitVec 4) (loc : BitVec 60) (s : State) : Out :=
  .next (if kind.toNat < 3 then s.countError kind.toNat loc.toNat else s)

/-- A block of a memory becomes POISON (R73, R396). -/
def Memory.poison (m : Memory) (block : Nat) : Memory := m.setTag (64 * block) poisonTag

/-- What an uncorrectable error does where it is found (R396): a flit that the link recovers is counted alone, and a lane that fails
retransmission is reported lasting at once. -/
def State.errorAt (s : State) (site : ErrSite) : State :=
  let sram := fun (s : State) (key : Nat) => s.countError 0 (Config.errPlace 0 (s.thr key).core % 2 ^ 60)
  match site with
  | .hbm b => ({ s with hbm := s.hbm.poison b } : State).countError 1 (Config.errPlace 1 b % 2 ^ 60)
  | .scratch key b =>
    sram (if (s.thr key).alive && b < (s.thr key).scratchG * 256 then s.updThr key fun t => { t with scratch := t.scratch.poison b } else s) key
  | .staging b => ({ s with staging := s.staging.poison b } : State).countError 0 (Config.errPlace 0 (b / 1048576 * 104) % 2 ^ 60)
  | .wb key h => sram (if (s.thr key).wb.has h then s.updThr key fun t => { t with wb := t.wb.upd h fun x => { x with bad := true } } else s) key
  | .ab key h => sram (if (s.thr key).ab.has h then s.updThr key fun t => { t with ab := t.ab.upd h fun x => { x with bad := true } } else s) key
  | .cbRow key h r =>
    sram (if (s.thr key).cb.has h && r < 256 then
      s.updThr key fun t => { t with cb := t.cb.upd h fun x => { x with status := x.status.set r (x.status.get r ||| 4#8), dirty := true } } else s) key
  | .regLine key =>
    let s := sram s key
    if (s.thr key).alive then
      if passBase ≤ key then s.takeTrap key (mkTrap 19 0 0)
      else s.report key { t := { mkTrap 19 0 0 with cls := 2#2 }, watch := none, source := 0, verId := 0 }
    else s
  | .overlay core _ => s.countError 0 (Config.errPlace 0 core % 2 ^ 60)
  | .flit lane => s.countError 2 (lane % 2 ^ 60)
  | .laneLost lane =>
    let s := s.countError 2 (lane % 2 ^ 60)
    s.tellLasting 2 (lane % 2 ^ 60) (s.errors.filter fun e => e.1 = 2 && e.2.1 = lane % 2 ^ 60).length

/-- UNCORRECTABLE_ERROR. -/
def execUncorrectableError (site : ErrSite) (s : State) : Out := .next (s.errorAt site)

/-! ## Trace samples (R356, R359, R426) -/

/-- The code of a unit in a sample: 10 while it issues; a wait that R261 does not list gives a free value. -/
def sampleCode (k : Option WaitKind) (fr : Nat) : Nat :=
  match k with
  | none => 10
  | some k => match k.code with | some c => c | none => (Config.freeWord fr).toNat % 16

/-- The record of one thread (R426). -/
def State.sample (s : State) (key : Nat) : List Byte :=
  let t := s.thr key
  let sq := if t.wait.kind = .running then none else some t.wait.kind
  let codes := sq :: engs.map fun e => s.engineWait key e
  let units := ((codes.zip (countFrom 0 6)).foldl (fun n c => n + sampleCode c.1 (s.fresh + c.2) * 16 ^ c.2) 0)
  natLE 8 s.tick ++ natLE 2 t.num ++ List.replicate 2 0#8 ++ natLE 4 (t.live.pc % 32768 + t.live.task.slot % 1024 * 32768) ++ natLE 3 units ++
    List.replicate 1 0#8 ++ natLE 8 t.live.iter.toNat ++ List.replicate 4 0#8

/-- Writes a trace record to the ring of a unit: the Kiln's write into the memory of the holder's context (R356, R359). -/
def State.traceWrite (s : State) (unit cid : Nat) (rec_ : List Byte) : State :=
  let b := s.banks.get unit
  let n := b.size.toNat / 32
  if n = 0 then s
  else
    let s := s.kilnWrite cid (b.base.toNat + 32 * (b.head.toNat % n)) rec_
    { s with banks := s.banks.upd unit fun b => { b with head := b.head + 1 } }

/-- A word that has issued is traced by the units in issue mode that the thread's context holds: a record each, whose bytes the spec does not lay
out (R356, R359, R426; DESIGN CHOICE, assumption log entry 61). -/
def State.traceIssue (s : State) (key : Nat) : State :=
  let cid := (s.thr key).cid
  if passBase ≤ key || s.banks.isEmpty || ((s.ctx cid).reg 0x135).getLsbD 0 then s
  else
    (s.banks.filter fun b => 128 ≤ b.1 && b.1 < 144 && b.2.holder = cid + 2 && b.2.ctl.getLsbD 0).foldl (fun s b =>
      ({ s with fresh := s.fresh + 4 } : State).traceWrite b.1 cid
        ((countFrom s.fresh 4).flatMap fun i => natLE 8 (Config.freeWord i).toNat)) s

/-- TRACE_SAMPLE (R426): in sampling mode, a record for every resident thread of the holder, each PERIOD ticks. -/
def execTraceSample (unit : Nat) (s : State) : Out :=
  let b := s.banks.get unit
  let cid := b.holder - 2
  let mode := (s.ctx cid).reg 0x135
  .next (if 128 ≤ unit && unit < 144 && 2 ≤ b.holder && b.ctl.getLsbD 0 && mode.getLsbD 0 && decide (256 ≤ wfld mode 8 24) && decide (b.last + wfld mode 8 24 ≤ s.tick) then
    let keys := (s.threads.filter fun p => decide (p.2.cid = cid) && p.2.runs && decide (p.1 < passBase)).map (·.1)
    let s := { s with banks := s.banks.upd unit fun b => { b with last := s.tick } }
    keys.foldl (fun s k => ({ s with fresh := s.fresh + 6 } : State).traceWrite unit cid (s.sample k)) s
  else s)

/-! ## Register-cache lines (R46, R171, R410) -/

/-- A register collapses: it is saturated if it was tainted. -/
def XReg.collapse (r : XReg) : XReg := { r with taint := 0#16, sat := r.sat || r.taint ≠ 0#16 }

/-- A vector entry collapses. -/
def VEntry.collapse (r : VEntry) : VEntry := { r with taint := 0#16, sat := r.sat || r.taint ≠ 0#16 }

/-- A mask register collapses. -/
def KReg.collapse (r : KReg) : KReg := { r with taint := 0#16, sat := r.sat || r.taint ≠ 0#16 }

/-- The entry in a slot of a vector register collapses. -/
def VReg.collapseSlot (r : VReg) (slot : Nat) : VReg :=
  let i := (slot + 4 - r.head % 4) % 4
  { r with fifo := (r.fifo.zip (countFrom 0 r.fifo.length)).map fun e => if e.2 = i then e.1.collapse else e.1 }

/-- Vector entry e of a frame, four to a register, collapses. -/
def Frame.collapseEntry (f : Frame) (e : Nat) : Frame := f.updV (e / 4) fun r => r.collapseSlot (e % 4)

/-- The frame after the eviction of one 64-byte line of it: what the line holds, and whose taints it holds, collapses (R46, R171, R410;
DEDUCED, assumption log entry 41). -/
def Frame.evict (f : Frame) (line : Nat) : Frame :=
  let a := 64 * line
  if a < 0x20000 then f.collapseEntry (a / 512)
  else if a < 0x20800 then (countFrom ((a - 0x20000) / 8) 8).foldl (fun f e => f.collapseEntry e) f
  else if a < 0x20A00 then
    { f with x := (countFrom ((a - 0x20800) / 16) 4).foldl (fun m i => NMap.set m i (f.x.get i).collapse) f.x }
  else if a < 0x20C00 then { f with k := NMap.set f.k ((a - 0x20A00) / 64) (f.k.get ((a - 0x20A00) / 64)).collapse }
  else if a = 0x21080 then
    { f with k := (countFrom 1 7).foldl (fun m i => NMap.set m i (f.k.get i).collapse) f.k
             ctaint := 0#16, csat := f.csat || f.ctaint ≠ 0#16 }
  else f

/-- REGISTER_CACHE_EVICTION (R171). -/
def execRegisterCacheEviction (key line : Nat) (s : State) : Out :=
  .next (if (s.thr key).runs then s.updThr key fun t => t.updLive fun f => f.evict line else s)

end Sys2Proof.Machine
end

