-- ==== Sys2Proof/Machine/ScalarCompute.lean ====
section
/-! DEFINITION. SC words: scalar compute (R238 to R240). -/

namespace Sys2Proof.Machine

/-- One if a condition holds, else zero. -/
def bit64 (b : Bool) : W64 := if b then 1#64 else 0#64

/-- The high 64 bits of a product of two integers (R238). -/
def mulHigh (a b : Int) : W64 := BitVec.ofInt 64 (a * b / 18446744073709551616)

/-- Signed quotient (R238): truncated towards zero; all ones by zero; the most negative number by -1 gives itself. -/
def divS (a b : W64) : W64 := if b = 0#64 then BitVec.allOnes 64 else BitVec.ofInt 64 (a.toInt.tdiv b.toInt)

/-- Unsigned quotient (R238): all ones by zero. -/
def divU (a b : W64) : W64 := if b = 0#64 then BitVec.allOnes 64 else a / b

/-- Signed remainder (R238): a - b times the quotient; a by zero. -/
def remS (a b : W64) : W64 := if b = 0#64 then a else BitVec.ofInt 64 (a.toInt.tmod b.toInt)

/-- Unsigned remainder (R238): a by zero. -/
def remU (a b : W64) : W64 := if b = 0#64 then a else a % b

/-- Leading zero bits of a value, counted from a bit down (R238). -/
def clzFrom (a : W64) : Nat → Nat
  | 0 => 0
  | n + 1 => if a.getLsbD n then 0 else 1 + clzFrom a n

/-- Trailing zero bits of a value, counted from a bit up (R238). -/
def ctzFrom (a : W64) (i : Nat) : Nat → Nat
  | 0 => 0
  | n + 1 => if a.getLsbD i then 0 else 1 + ctzFrom a (i + 1) n

/-- Set bits of a value below a bit (R238). -/
def popBelow (a : W64) : Nat → Nat
  | 0 => 0
  | n + 1 => (if a.getLsbD n then 1 else 0) + popBelow a n

/-- The number whose bit i is bit n - 1 - i of a value (R238). -/
def revBelow (a : W64) : Nat → Nat
  | 0 => 0
  | n + 1 => (if a.getLsbD n then 2 ^ (63 - n) else 0) + revBelow a n

/-- The shift amount of a register operand (R238). -/
def shAmt (b : W64) : Nat := b.toNat % 64

/-- Sign extension from a size code (R238). -/
def sextTo : ExtSize → W64 → W64
  | .b, a => (a.setWidth 8).signExtend 64
  | .h, a => (a.setWidth 16).signExtend 64
  | .w, a => (a.setWidth 32).signExtend 64

/-- Zero extension from a size code (R238). -/
def zextTo : ExtSize → W64 → W64
  | .b, a => (a.setWidth 8).setWidth 64
  | .h, a => (a.setWidth 16).setWidth 64
  | .w, a => (a.setWidth 32).setWidth 64

/-- ADD (R238). -/
def execAdd (xd xa xb : BitVec 5) (s : State) : Out := scR xd xa xb (fun a b => a + b) s

/-- SUB (R238). -/
def execSub (xd xa xb : BitVec 5) (s : State) : Out := scR xd xa xb (fun a b => a - b) s

/-- AND (R238). -/
def execAnd (xd xa xb : BitVec 5) (s : State) : Out := scR xd xa xb (fun a b => a &&& b) s

/-- OR (R238). -/
def execOr (xd xa xb : BitVec 5) (s : State) : Out := scR xd xa xb (fun a b => a ||| b) s

/-- XOR (R238). -/
def execXor (xd xa xb : BitVec 5) (s : State) : Out := scR xd xa xb (fun a b => a ^^^ b) s

/-- ANDN (R238). -/
def execAndn (xd xa xb : BitVec 5) (s : State) : Out := scR xd xa xb (fun a b => a &&& ~~~b) s

/-- ORN (R238). -/
def execOrn (xd xa xb : BitVec 5) (s : State) : Out := scR xd xa xb (fun a b => a ||| ~~~b) s

/-- XNOR (R238). -/
def execXnor (xd xa xb : BitVec 5) (s : State) : Out := scR xd xa xb (fun a b => ~~~(a ^^^ b)) s

/-- SHL (R238). -/
def execShl (xd xa xb : BitVec 5) (s : State) : Out := scR xd xa xb (fun a b => a <<< shAmt b) s

/-- SHR (R238). -/
def execShr (xd xa xb : BitVec 5) (s : State) : Out := scR xd xa xb (fun a b => a >>> shAmt b) s

/-- SRA (R238). -/
def execSra (xd xa xb : BitVec 5) (s : State) : Out := scR xd xa xb (fun a b => a.sshiftRight (shAmt b)) s

/-- ROL (R238). -/
def execRol (xd xa xb : BitVec 5) (s : State) : Out := scR xd xa xb (fun a b => a.rotateLeft (shAmt b)) s

/-- ROR (R238). -/
def execRor (xd xa xb : BitVec 5) (s : State) : Out := scR xd xa xb (fun a b => a.rotateRight (shAmt b)) s

/-- MUL (R238). -/
def execMul (xd xa xb : BitVec 5) (s : State) : Out := scR xd xa xb (fun a b => a * b) s

/-- MULH (R238). -/
def execMulh (xd xa xb : BitVec 5) (s : State) : Out := scR xd xa xb (fun a b => mulHigh a.toInt b.toInt) s

/-- MULHU (R238). -/
def execMulhu (xd xa xb : BitVec 5) (s : State) : Out := scR xd xa xb (fun a b => mulHigh a.toNat b.toNat) s

/-- MULHSU (R238). -/
def execMulhsu (xd xa xb : BitVec 5) (s : State) : Out := scR xd xa xb (fun a b => mulHigh a.toInt b.toNat) s

/-- DIV (R238). -/
def execDiv (xd xa xb : BitVec 5) (s : State) : Out := scR xd xa xb (fun a b => divS a b) s

/-- DIVU (R238). -/
def execDivu (xd xa xb : BitVec 5) (s : State) : Out := scR xd xa xb (fun a b => divU a b) s

/-- REM (R238). -/
def execRem (xd xa xb : BitVec 5) (s : State) : Out := scR xd xa xb (fun a b => remS a b) s

/-- REMU (R238). -/
def execRemu (xd xa xb : BitVec 5) (s : State) : Out := scR xd xa xb (fun a b => remU a b) s

/-- MIN (R238). -/
def execMin (xd xa xb : BitVec 5) (s : State) : Out := scR xd xa xb (fun a b => if a.toInt ≤ b.toInt then a else b) s

/-- MAX (R238). -/
def execMax (xd xa xb : BitVec 5) (s : State) : Out := scR xd xa xb (fun a b => if a.toInt ≤ b.toInt then b else a) s

/-- MINU (R238). -/
def execMinu (xd xa xb : BitVec 5) (s : State) : Out := scR xd xa xb (fun a b => if a.toNat ≤ b.toNat then a else b) s

/-- MAXU (R238). -/
def execMaxu (xd xa xb : BitVec 5) (s : State) : Out := scR xd xa xb (fun a b => if a.toNat ≤ b.toNat then b else a) s

/-- SEQ (R238). -/
def execSeq (xd xa xb : BitVec 5) (s : State) : Out := scR xd xa xb (fun a b => bit64 (decide (a = b))) s

/-- SLT (R238). -/
def execSlt (xd xa xb : BitVec 5) (s : State) : Out := scR xd xa xb (fun a b => bit64 (decide (a.toInt < b.toInt))) s

/-- SLTU (R238). -/
def execSltu (xd xa xb : BitVec 5) (s : State) : Out := scR xd xa xb (fun a b => bit64 (decide (a.toNat < b.toNat))) s

/-- CLZ (R238). -/
def execClz (xd xa : BitVec 5) (s : State) : Out := scU xd xa (fun a => BitVec.ofNat 64 (clzFrom a 64)) s

/-- CTZ (R238). -/
def execCtz (xd xa : BitVec 5) (s : State) : Out := scU xd xa (fun a => BitVec.ofNat 64 (ctzFrom a 0 64)) s

/-- POPC (R238). -/
def execPopc (xd xa : BitVec 5) (s : State) : Out := scU xd xa (fun a => BitVec.ofNat 64 (popBelow a 64)) s

/-- BREV (R238). -/
def execBrev (xd xa : BitVec 5) (s : State) : Out := scU xd xa (fun a => BitVec.ofNat 64 (revBelow a 64)) s

/-- SEXT (R238). -/
def execSext (xd xa : BitVec 5) (size : ExtSize) (s : State) : Out := scU xd xa (sextTo size) s

/-- ZEXT (R238). -/
def execZext (xd xa : BitVec 5) (size : ExtSize) (s : State) : Out := scU xd xa (zextTo size) s

/-- ADDI (R239). -/
def execAddi (xd xa : BitVec 5) (imm : BitVec 14) (s : State) : Out := scU xd xa (fun a => a + sx64 imm) s

/-- ANDI (R239). -/
def execAndi (xd xa : BitVec 5) (imm : BitVec 14) (s : State) : Out := scU xd xa (fun a => a &&& zx64 imm) s

/-- ORI (R239). -/
def execOri (xd xa : BitVec 5) (imm : BitVec 14) (s : State) : Out := scU xd xa (fun a => a ||| zx64 imm) s

/-- XORI (R239). -/
def execXori (xd xa : BitVec 5) (imm : BitVec 14) (s : State) : Out := scU xd xa (fun a => a ^^^ zx64 imm) s

/-- SHLI (R239). -/
def execShli (xd xa : BitVec 5) (sh : BitVec 6) (s : State) : Out := scU xd xa (fun a => a <<< sh.toNat) s

/-- SHRI (R239). -/
def execShri (xd xa : BitVec 5) (sh : BitVec 6) (s : State) : Out := scU xd xa (fun a => a >>> sh.toNat) s

/-- SRAI (R239). -/
def execSrai (xd xa : BitVec 5) (sh : BitVec 6) (s : State) : Out := scU xd xa (fun a => a.sshiftRight sh.toNat) s

/-- SLTI (R239). -/
def execSlti (xd xa : BitVec 5) (imm : BitVec 14) (s : State) : Out := scU xd xa (fun a => bit64 (decide (a.toInt < (sx64 imm).toInt))) s

/-- SLTIU (R239). -/
def execSltiu (xd xa : BitVec 5) (imm : BitVec 14) (s : State) : Out := scU xd xa (fun a => bit64 (decide (a.toNat < (sx64 imm).toNat))) s

/-- MULI (R239). -/
def execMuli (xd xa : BitVec 5) (imm : BitVec 14) (s : State) : Out := scU xd xa (fun a => a * sx64 imm) s

/-- LIS (R31, R239): the sign-extended immediate, with empty taint. -/
def execLis (xd : BitVec 5) (imm : BitVec 19) (s : State) : Out := scWord xd (fun _ => plain (sx64 imm)) s

/-- LIHS (R31, R239): xd shifted left by 19 with the immediate below; it takes xd's own taint. -/
def execLihs (xd : BitVec 5) (imm : BitVec 19) (s : State) : Out :=
  scWord xd (fun f => derive [f.rx xd] ((f.rx xd).val <<< 19 ||| zx64 imm)) s

end Sys2Proof.Machine
end

