-- ==== Sys2Proof/Machine/Dispatch.lean ====
section
/-! DEFINITION. The dispatch of instructions to their meanings, one arm per constructor of `Instr`. -/

namespace Sys2Proof.Machine

def exec (i : Instr) (s : State) : Host.Outcome State Fault Refusal :=
  match i with
  | .add xd xa xb => Sys2Proof.Machine.execAdd xd xa xb s
  | .sub xd xa xb => Sys2Proof.Machine.execSub xd xa xb s
  | .and xd xa xb => Sys2Proof.Machine.execAnd xd xa xb s
  | .or xd xa xb => Sys2Proof.Machine.execOr xd xa xb s
  | .xor xd xa xb => Sys2Proof.Machine.execXor xd xa xb s
  | .andn xd xa xb => Sys2Proof.Machine.execAndn xd xa xb s
  | .orn xd xa xb => Sys2Proof.Machine.execOrn xd xa xb s
  | .xnor xd xa xb => Sys2Proof.Machine.execXnor xd xa xb s
  | .shl xd xa xb => Sys2Proof.Machine.execShl xd xa xb s
  | .shr xd xa xb => Sys2Proof.Machine.execShr xd xa xb s
  | .sra xd xa xb => Sys2Proof.Machine.execSra xd xa xb s
  | .rol xd xa xb => Sys2Proof.Machine.execRol xd xa xb s
  | .ror xd xa xb => Sys2Proof.Machine.execRor xd xa xb s
  | .mul xd xa xb => Sys2Proof.Machine.execMul xd xa xb s
  | .mulh xd xa xb => Sys2Proof.Machine.execMulh xd xa xb s
  | .mulhu xd xa xb => Sys2Proof.Machine.execMulhu xd xa xb s
  | .mulhsu xd xa xb => Sys2Proof.Machine.execMulhsu xd xa xb s
  | .div xd xa xb => Sys2Proof.Machine.execDiv xd xa xb s
  | .divu xd xa xb => Sys2Proof.Machine.execDivu xd xa xb s
  | .rem xd xa xb => Sys2Proof.Machine.execRem xd xa xb s
  | .remu xd xa xb => Sys2Proof.Machine.execRemu xd xa xb s
  | .min xd xa xb => Sys2Proof.Machine.execMin xd xa xb s
  | .max xd xa xb => Sys2Proof.Machine.execMax xd xa xb s
  | .minu xd xa xb => Sys2Proof.Machine.execMinu xd xa xb s
  | .maxu xd xa xb => Sys2Proof.Machine.execMaxu xd xa xb s
  | .seq xd xa xb => Sys2Proof.Machine.execSeq xd xa xb s
  | .slt xd xa xb => Sys2Proof.Machine.execSlt xd xa xb s
  | .sltu xd xa xb => Sys2Proof.Machine.execSltu xd xa xb s
  | .clz xd xa => Sys2Proof.Machine.execClz xd xa s
  | .ctz xd xa => Sys2Proof.Machine.execCtz xd xa s
  | .popc xd xa => Sys2Proof.Machine.execPopc xd xa s
  | .brev xd xa => Sys2Proof.Machine.execBrev xd xa s
  | .sext xd xa size => Sys2Proof.Machine.execSext xd xa size s
  | .zext xd xa size => Sys2Proof.Machine.execZext xd xa size s
  | .addi xd xa imm => Sys2Proof.Machine.execAddi xd xa imm s
  | .andi xd xa imm => Sys2Proof.Machine.execAndi xd xa imm s
  | .ori xd xa imm => Sys2Proof.Machine.execOri xd xa imm s
  | .xori xd xa imm => Sys2Proof.Machine.execXori xd xa imm s
  | .shli xd xa sh => Sys2Proof.Machine.execShli xd xa sh s
  | .shri xd xa sh => Sys2Proof.Machine.execShri xd xa sh s
  | .srai xd xa sh => Sys2Proof.Machine.execSrai xd xa sh s
  | .slti xd xa imm => Sys2Proof.Machine.execSlti xd xa imm s
  | .sltiu xd xa imm => Sys2Proof.Machine.execSltiu xd xa imm s
  | .muli xd xa imm => Sys2Proof.Machine.execMuli xd xa imm s
  | .lis xd imm => Sys2Proof.Machine.execLis xd imm s
  | .lihs xd imm => Sys2Proof.Machine.execLihs xd imm s
  | .beq xa xb off => Sys2Proof.Machine.execBeq xa xb off s
  | .bne xa xb off => Sys2Proof.Machine.execBne xa xb off s
  | .blt xa xb off => Sys2Proof.Machine.execBlt xa xb off s
  | .bge xa xb off => Sys2Proof.Machine.execBge xa xb off s
  | .bltu xa xb off => Sys2Proof.Machine.execBltu xa xb off s
  | .bgeu xa xb off => Sys2Proof.Machine.execBgeu xa xb off s
  | .jal xd off => Sys2Proof.Machine.execJal xd off s
  | .jalr xd xa off => Sys2Proof.Machine.execJalr xd xa off s
  | .loop xa => Sys2Proof.Machine.execLoop xa s
  | .knext => Sys2Proof.Machine.execKnext s
  | .tend => Sys2Proof.Machine.execTend s
  | .spawn xa xb n => Sys2Proof.Machine.execSpawn xa xb n s
  | .join g => Sys2Proof.Machine.execJoin g s
  | .leave g => Sys2Proof.Machine.execLeave g s
  | .bar g => Sys2Proof.Machine.execBar g s
  | .gqry xd g => Sys2Proof.Machine.execGqry xd g s
  | .yield => Sys2Proof.Machine.execYield s
  | .tsub xa => Sys2Proof.Machine.execTsub xa s
  | .ckpt => Sys2Proof.Machine.execCkpt s
  | .movb xd n => Sys2Proof.Machine.execMovb xd n s
  | .gsel g => Sys2Proof.Machine.execGsel g s
  | .waitf f n => Sys2Proof.Machine.execWaitf f n s
  | .setf f n => Sys2Proof.Machine.execSetf f n s
  | .clrf f => Sys2Proof.Machine.execClrf f s
  | .waitfx f x => Sys2Proof.Machine.execWaitfx f x s
  | .fread f xd => Sys2Proof.Machine.execFread f xd s
  | .waitc l st c t => Sys2Proof.Machine.execWaitc l st c t s
  | .tclr x => Sys2Proof.Machine.execTclr x s
  | .tclrv v => Sys2Proof.Machine.execTclrv v s
  | .tclrc => Sys2Proof.Machine.execTclrc s
  | .tqry xd xa => Sys2Proof.Machine.execTqry xd xa s
  | .sysrd xd reg => Sys2Proof.Machine.execSysrd xd reg s
  | .syswr xs reg => Sys2Proof.Machine.execSyswr xs reg s
  | .trap code => Sys2Proof.Machine.execTrap code s
  | .bkpt code => Sys2Proof.Machine.execBkpt code s
  | .eret => Sys2Proof.Machine.execEret s
  | .tlbinv xa xb => Sys2Proof.Machine.execTlbinv xa xb s
  | .wpset xa xb n => Sys2Proof.Machine.execWpset xa xb n s
  | .wpclr n => Sys2Proof.Machine.execWpclr n s
  | .cntclaim xd n => Sys2Proof.Machine.execCntclaim xd n s
  | .cntrel n => Sys2Proof.Machine.execCntrel n s
  | .kegsave xa xb => Sys2Proof.Machine.execKegsave xa xb s
  | .kegload xa xb => Sys2Proof.Machine.execKegload xa xb s
  | .flowdef xa f => Sys2Proof.Machine.execFlowdef xa f s
  | .winset xa xb w => Sys2Proof.Machine.execWinset xa xb w s
  | .ld size xd xa imm => Sys2Proof.Machine.execLd size xd xa imm s
  | .ldu size xd xa imm => Sys2Proof.Machine.execLdu size xd xa imm s
  | .st size xs xa imm => Sys2Proof.Machine.execSt size xs xa imm s
  | .lds size xd xa scope order => Sys2Proof.Machine.execLds size xd xa scope order s
  | .sts size xs xa scope order => Sys2Proof.Machine.execSts size xs xa scope order s
  | .atomw xd xa xb op scope order => Sys2Proof.Machine.execAtomw xd xa xb op scope order s
  | .atomd xd xa xb op scope order => Sys2Proof.Machine.execAtomd xd xa xb op scope order s
  | .casw xd xa xb scope order => Sys2Proof.Machine.execCasw xd xa xb scope order s
  | .casd xd xa xb scope order => Sys2Proof.Machine.execCasd xd xa xb scope order s
  | .fence ma mb scope => Sys2Proof.Machine.execFence ma mb scope s
  | .pref tgt xa imm => Sys2Proof.Machine.execPref tgt xa imm s
  | .rcm op xb xa => Sys2Proof.Machine.execRcm op xb xa s
  | .vld vd xa k imm => Sys2Proof.Machine.execVld vd xa k imm s
  | .vlds vd xa xb k es => Sys2Proof.Machine.execVlds vd xa xb k es s
  | .vldx vd xa vb iw sgn sc k => Sys2Proof.Machine.execVldx vd xa vb iw sgn sc k s
  | .vbindi vd xa => Sys2Proof.Machine.execVbindi vd xa s
  | .vunbindi vd => Sys2Proof.Machine.execVunbindi vd s
  | .vldt vd xa k imm => Sys2Proof.Machine.execVldt vd xa k imm s
  | .vldb vd xa k imm => Sys2Proof.Machine.execVldb vd xa k imm s
  | .vlwait f n => Sys2Proof.Machine.execVlwait f n s
  | .vlset f n => Sys2Proof.Machine.execVlset f n s
  | .vst vs xa k imm => Sys2Proof.Machine.execVst vs xa k imm s
  | .vsts vs xa xb k es => Sys2Proof.Machine.execVsts vs xa xb k es s
  | .vstx vs xa vb iw sgn sc k => Sys2Proof.Machine.execVstx vs xa vb iw sgn sc k s
  | .vbindo vs xa => Sys2Proof.Machine.execVbindo vs xa s
  | .vunbindo vs => Sys2Proof.Machine.execVunbindo vs s
  | .vstt vs xa k imm => Sys2Proof.Machine.execVstt vs xa k imm s
  | .vatoma vs xa vb ty k scope => Sys2Proof.Machine.execVatoma vs xa vb ty k scope s
  | .vstrw vs xo k => Sys2Proof.Machine.execVstrw vs xo k s
  | .vswait f n => Sys2Proof.Machine.execVswait f n s
  | .vsset f n => Sys2Proof.Machine.execVsset f n s
  | .vadd vd va vb mk pa pb => Sys2Proof.Machine.execVadd vd va vb mk pa pb s
  | .vsub vd va vb mk pa pb => Sys2Proof.Machine.execVsub vd va vb mk pa pb s
  | .vmul vd va vb mk pa pb => Sys2Proof.Machine.execVmul vd va vb mk pa pb s
  | .vfma vd va vb mk pa pb => Sys2Proof.Machine.execVfma vd va vb mk pa pb s
  | .vfnma vd va vb mk pa pb => Sys2Proof.Machine.execVfnma vd va vb mk pa pb s
  | .vmin vd va vb mk pa pb => Sys2Proof.Machine.execVmin vd va vb mk pa pb s
  | .vmax vd va vb mk pa pb => Sys2Proof.Machine.execVmax vd va vb mk pa pb s
  | .vabs vd va mk pa => Sys2Proof.Machine.execVabs vd va mk pa s
  | .vneg vd va mk pa => Sys2Proof.Machine.execVneg vd va mk pa s
  | .vdiv vd va vb mk pa pb => Sys2Proof.Machine.execVdiv vd va vb mk pa pb s
  | .vsqrt vd va mk pa => Sys2Proof.Machine.execVsqrt vd va mk pa s
  | .vrsq vd va mk pa => Sys2Proof.Machine.execVrsq vd va mk pa s
  | .vexp2 vd va mk pa => Sys2Proof.Machine.execVexp2 vd va mk pa s
  | .vlog2 vd va mk pa => Sys2Proof.Machine.execVlog2 vd va mk pa s
  | .vfclass vd va mk pa => Sys2Proof.Machine.execVfclass vd va mk pa s
  | .vcmp kd cond va vb mk pa pb => Sys2Proof.Machine.execVcmp kd cond va vb mk pa pb s
  | .vsel vd va vb k pa pb => Sys2Proof.Machine.execVsel vd va vb k pa pb s
  | .vand vd va vb mk pa pb => Sys2Proof.Machine.execVand vd va vb mk pa pb s
  | .vor vd va vb mk pa pb => Sys2Proof.Machine.execVor vd va vb mk pa pb s
  | .vxor vd va vb mk pa pb => Sys2Proof.Machine.execVxor vd va vb mk pa pb s
  | .vshl vd va vb mk pa pb => Sys2Proof.Machine.execVshl vd va vb mk pa pb s
  | .vshr vd va vb mk pa pb => Sys2Proof.Machine.execVshr vd va vb mk pa pb s
  | .vsra vd va vb mk pa pb => Sys2Proof.Machine.execVsra vd va vb mk pa pb s
  | .vcvt vd va ty rs vr => Sys2Proof.Machine.execVcvt vd va ty rs vr s
  | .vpack vd va ty => Sys2Proof.Machine.execVpack vd va ty s
  | .vunpk vd va ty pa => Sys2Proof.Machine.execVunpk vd va ty pa s
  | .vred vd va op k pa => Sys2Proof.Machine.execVred vd va op k pa s
  | .vargmax vd va k pa => Sys2Proof.Machine.execVargmax vd va k pa s
  | .vperm vd va vb mk pa pb => Sys2Proof.Machine.execVperm vd va vb mk pa pb s
  | .vrot vd va xb mk pa => Sys2Proof.Machine.execVrot vd va xb mk pa s
  | .vbcast vd xb k => Sys2Proof.Machine.execVbcast vd xb k s
  | .vextr vd va xb mk pa => Sys2Proof.Machine.execVextr vd va xb mk pa s
  | .viota vd k => Sys2Proof.Machine.execViota vd k s
  | .vmov vd va mk pa => Sys2Proof.Machine.execVmov vd va mk pa s
  | .vdrop va n => Sys2Proof.Machine.execVdrop va n s
  | .vcnt vd va mk pa => Sys2Proof.Machine.execVcnt vd va mk pa s
  | .vmix vd va vb mk pa pb => Sys2Proof.Machine.execVmix vd va vb mk pa pb s
  | .vunif vd va mk pa => Sys2Proof.Machine.execVunif vd va mk pa s
  | .vaddx vd va vb mk pa pb => Sys2Proof.Machine.execVaddx vd va vb mk pa pb s
  | .vmulx vd va vb mk pa pb => Sys2Proof.Machine.execVmulx vd va vb mk pa pb s
  | .vfmax vd va vb mk pa pb => Sys2Proof.Machine.execVfmax vd va vb mk pa pb s
  | .kop kd ka kb fn => Sys2Proof.Machine.execKop kd ka kb fn s
  | .kpopc vd ka => Sys2Proof.Machine.execKpopc vd ka s
  | .vsett imm => Sys2Proof.Machine.execVsett imm s
  | .vsettXa xa => Sys2Proof.Machine.execVsettXa xa s
  | .vtagr vd va mk pa => Sys2Proof.Machine.execVtagr vd va mk pa s
  | .vrnd vd va rm mk pa => Sys2Proof.Machine.execVrnd vd va rm mk pa s
  | .vscale vd va vb mk pa pb => Sys2Proof.Machine.execVscale vd va vb mk pa pb s
  | .vawait f n => Sys2Proof.Machine.execVawait f n s
  | .vaset f n => Sys2Proof.Machine.execVaset f n s
  | .mclaim mem h n => Sys2Proof.Machine.execMclaim mem h n s
  | .mrel mem h n => Sys2Proof.Machine.execMrel mem h n s
  | .mxfer mem h xa rh => Sys2Proof.Machine.execMxfer mem h xa rh s
  | .mldw wb xa xb => Sys2Proof.Machine.execMldw wb xa xb s
  | .mlda ab xa xb xc => Sys2Proof.Machine.execMlda ab xa xb xc s
  | .mpass wb ab cb acc x => Sys2Proof.Machine.execMpass wb ab cb acc x s
  | .mpassat wb ab cb acc x => Sys2Proof.Machine.execMpassat wb ab cb acc x s
  | .mdrain cb xa xb xc ty => Sys2Proof.Machine.execMdrain cb xa xb xc ty s
  | .mdrainv cb vd xf xn => Sys2Proof.Machine.execMdrainv cb vd xf xn s
  | .mdrainp cb rank pcb x => Sys2Proof.Machine.execMdrainp cb rank pcb x s
  | .mzero h n => Sys2Proof.Machine.execMzero h n s
  | .mldv ab va x => Sys2Proof.Machine.execMldv ab va x s
  | .mxwait f n => Sys2Proof.Machine.execMxwait f n s
  | .mxset f n => Sys2Proof.Machine.execMxset f n s
  | .cpl xa xb xc f => Sys2Proof.Machine.execCpl xa xb xc f s
  | .cpt xa xb xc f => Sys2Proof.Machine.execCpt xa xb xc f s
  | .cpg xa xb xc f => Sys2Proof.Machine.execCpg xa xb xc f s
  | .cps xa xb xc f => Sys2Proof.Machine.execCps xa xb xc f s
  | .cpstg xa xb xc out f => Sys2Proof.Machine.execCpstg xa xb xc out f s
  | .cpred xa xb xc ty f => Sys2Proof.Machine.execCpred xa xb xc ty f s
  | .cpfill xa xb xc w f => Sys2Proof.Machine.execCpfill xa xb xc w f s
  | .cptag xa xb xc strm f => Sys2Proof.Machine.execCptag xa xb xc strm f s
  | .cpsig xa xb f => Sys2Proof.Machine.execCpsig xa xb f s
  | .cpconv xa xb xc f => Sys2Proof.Machine.execCpconv xa xb xc f s
  | .cpwait f n => Sys2Proof.Machine.execCpwait f n s
  | .cpset f n => Sys2Proof.Machine.execCpset f n s
  | .pld z off a d => Sys2Proof.Machine.execPld z off a d s
  | .qld n d => Sys2Proof.Machine.execQld n d s
  | .tld t a d => Sys2Proof.Machine.execTld t a d s
  | .tst t a d => Sys2Proof.Machine.execTst t a d s
  | .est z off a d => Sys2Proof.Machine.execEst z off a d s
  | .li imm d => Sys2Proof.Machine.execLi imm d s
  | .lih imm d => Sys2Proof.Machine.execLih imm d s
  | .mov a d => Sys2Proof.Machine.execMov a d s
  | .spargeAdd a d => Sys2Proof.Machine.execSpargeAdd a d s
  | .spargeSub a d => Sys2Proof.Machine.execSpargeSub a d s
  | .spargeAnd a d => Sys2Proof.Machine.execSpargeAnd a d s
  | .spargeOr a d => Sys2Proof.Machine.execSpargeOr a d s
  | .spargeXor a d => Sys2Proof.Machine.execSpargeXor a d s
  | .spargeAddi imm d => Sys2Proof.Machine.execSpargeAddi imm d s
  | .spargeShli imm d => Sys2Proof.Machine.execSpargeShli imm d s
  | .spargeShri imm d => Sys2Proof.Machine.execSpargeShri imm d s
  | .ceq a d => Sys2Proof.Machine.execCeq a d s
  | .cltu a d => Sys2Proof.Machine.execCltu a d s
  | .clt a d => Sys2Proof.Machine.execClt a d s
  | .bz imm d => Sys2Proof.Machine.execBz imm d s
  | .bnz imm d => Sys2Proof.Machine.execBnz imm d s
  | .jmp imm => Sys2Proof.Machine.execJmp imm s
  | .spargeLoop len n => Sys2Proof.Machine.execSpargeLoop len n s
  | .elaunch => Sys2Proof.Machine.execElaunch s
  | .egang => Sys2Proof.Machine.execEgang s
  | .etile => Sys2Proof.Machine.execEtile s
  | .ecopy => Sys2Proof.Machine.execEcopy s
  | .esignal => Sys2Proof.Machine.execEsignal s
  | .efence => Sys2Proof.Machine.execEfence s
  | .reject code => Sys2Proof.Machine.execReject code s
  | .done => Sys2Proof.Machine.execDone s
  | .budget it => Sys2Proof.Machine.execBudget it s
  | .tailDoorbell fn ring tail => Sys2Proof.Machine.execTailDoorbell fn ring tail s
  | .inlineDoorbell fn ring bytes => Sys2Proof.Machine.execInlineDoorbell fn ring bytes s
  | .ringEnable fn ring val => Sys2Proof.Machine.execRingEnable fn ring val s
  | .lqEnable fn lq val => Sys2Proof.Machine.execLqEnable fn lq val s
  | .merge fn lq => Sys2Proof.Machine.execMerge fn lq s
  | .interpreterHandoff it => Sys2Proof.Machine.execInterpreterHandoff it s
  | .emissionTakesEffect fn lq => Sys2Proof.Machine.execEmissionTakesEffect fn lq s
  | .ecopyCompletion fn lq => Sys2Proof.Machine.execEcopyCompletion fn lq s
  | .spargeProgramLoad fn prog => Sys2Proof.Machine.execSpargeProgramLoad fn prog s
  | .spargeProgramUnload fn prog => Sys2Proof.Machine.execSpargeProgramUnload fn prog s
  | .evqConfigWrite fn isSize val => Sys2Proof.Machine.execEvqConfigWrite fn isSize val s
  | .functionRangeWrite fn entry hi val => Sys2Proof.Machine.execFunctionRangeWrite fn entry hi val s
  | .weightCmd fn val => Sys2Proof.Machine.execWeightCmd fn val s
  | .shapeW1 fn c val => Sys2Proof.Machine.execShapeW1 fn c val s
  | .shapeW0 fn c val => Sys2Proof.Machine.execShapeW0 fn c val s
  | .powerCtlOn fn => Sys2Proof.Machine.execPowerCtlOn fn s
  | .powerCtlIdle fn => Sys2Proof.Machine.execPowerCtlIdle fn s
  | .powerCtlGated fn dies => Sys2Proof.Machine.execPowerCtlGated fn dies s
  | .powerCtlSleep fn => Sys2Proof.Machine.execPowerCtlSleep fn s
  | .powerCtlOff fn => Sys2Proof.Machine.execPowerCtlOff fn s
  | .powerTransitionDone => Sys2Proof.Machine.execPowerTransitionDone s
  | .telemetryRefresh watts die hbm amps => Sys2Proof.Machine.execTelemetryRefresh watts die hbm amps s
  | .thermalOrCurrentTrip thermal current place => Sys2Proof.Machine.execThermalOrCurrentTrip thermal current place s
  | .registerWrite fn off val => Sys2Proof.Machine.execRegisterWrite fn off val s
  | .ctxCreate fn cid func => Sys2Proof.Machine.execCtxCreate fn cid func s
  | .ctxSet fn cid off val => Sys2Proof.Machine.execCtxSet fn cid off val s
  | .ctxDestroy fn cid => Sys2Proof.Machine.execCtxDestroy fn cid s
  | .frameSet fn first count entry => Sys2Proof.Machine.execFrameSet fn first count entry s
  | .inval fn cid va len => Sys2Proof.Machine.execInval fn cid va len s
  | .dirtyRead fn cid first count host => Sys2Proof.Machine.execDirtyRead fn cid first count host s
  | .cntClaim fn bank => Sys2Proof.Machine.execCntClaim fn bank s
  | .cntRel fn bank => Sys2Proof.Machine.execCntRel fn bank s
  | .epSet fn ep pkg cid st => Sys2Proof.Machine.execEpSet fn ep pkg cid st s
  | .trapResolve fn cid thr act => Sys2Proof.Machine.execTrapResolve fn cid thr act s
  | .unitRetire fn core => Sys2Proof.Machine.execUnitRetire fn core s
  | .pageDone fn cid va len fail => Sys2Proof.Machine.execPageDone fn cid va len fail s
  | .kegSaveCmd fn cid va len hold mig => Sys2Proof.Machine.execKegSaveCmd fn cid va len hold mig s
  | .kegLoadCmd fn cid va len => Sys2Proof.Machine.execKegLoadCmd fn cid va len s
  | .kegThaw fn cid => Sys2Proof.Machine.execKegThaw fn cid s
  | .migKey fn cid pkg dcid => Sys2Proof.Machine.execMigKey fn cid pkg dcid s
  | .pagePush fn cid va len pkg dcid => Sys2Proof.Machine.execPagePush fn cid va len pkg dcid s
  | .parkForward fn cid pkg dcid => Sys2Proof.Machine.execParkForward fn cid pkg dcid s
  | .relayEnd fn cid => Sys2Proof.Machine.execRelayEnd fn cid s
  | .slotLoad fn slot host len dataVa => Sys2Proof.Machine.execSlotLoad fn slot host len dataVa s
  | .tensorSeal fn cid slot tensor desc => Sys2Proof.Machine.execTensorSeal fn cid slot tensor desc s
  | .slotUnpin fn slot => Sys2Proof.Machine.execSlotUnpin fn slot s
  | .flr fn => Sys2Proof.Machine.execFlr fn s
  | .vfTeardown fn => Sys2Proof.Machine.execVfTeardown fn s
  | .teardownDrainTimeout cid => Sys2Proof.Machine.execTeardownDrainTimeout cid s
  | .powerUp => Sys2Proof.Machine.execPowerUp s
  | .bootCtlGo fn len => Sys2Proof.Machine.execBootCtlGo fn len s
  | .fwCtlGo fn => Sys2Proof.Machine.execFwCtlGo fn s
  | .fwHeartbeat => Sys2Proof.Machine.execFwHeartbeat s
  | .heartbeatTimeout => Sys2Proof.Machine.execHeartbeatTimeout s
  | .getVersion fn => Sys2Proof.Machine.execGetVersion fn s
  | .getCapabilities fn => Sys2Proof.Machine.execGetCapabilities fn s
  | .negotiateAlgorithms fn offered => Sys2Proof.Machine.execNegotiateAlgorithms fn offered s
  | .getDigests fn => Sys2Proof.Machine.execGetDigests fn s
  | .getCertificate fn cslot off len => Sys2Proof.Machine.execGetCertificate fn cslot off len s
  | .challenge fn cslot nonce => Sys2Proof.Machine.execChallenge fn cslot nonce s
  | .getMeasurements fn index sign nonce => Sys2Proof.Machine.execGetMeasurements fn index sign nonce s
  | .keyExchange fn cslot pub => Sys2Proof.Machine.execKeyExchange fn cslot pub s
  | .finish fn mac => Sys2Proof.Machine.execFinish fn mac s
  | .keyUpdate fn => Sys2Proof.Machine.execKeyUpdate fn s
  | .heartbeat fn => Sys2Proof.Machine.execHeartbeat fn s
  | .endSession fn => Sys2Proof.Machine.execEndSession fn s
  | .keyInstall fn cid index key => Sys2Proof.Machine.execKeyInstall fn cid index key s
  | .keyTransfer cid key keygen count => Sys2Proof.Machine.execKeyTransfer cid key keygen count s
  | .ideKm fn stream key => Sys2Proof.Machine.execIdeKm fn stream key s
  | .ideIntegrityFail stream => Sys2Proof.Machine.execIdeIntegrityFail stream s
  | .qdepthWrite key val => Sys2Proof.Machine.execQdepthWrite key val s
  | .vstatWrite key val => Sys2Proof.Machine.execVstatWrite key val s
  | .waitlogConfigWrite key isSize val => Sys2Proof.Machine.execWaitlogConfigWrite key isSize val s
  | .trapqConfigWrite key isSize val => Sys2Proof.Machine.execTrapqConfigWrite key isSize val s
  | .resume cid thr => Sys2Proof.Machine.execResume cid thr s
  | .kill cid thr => Sys2Proof.Machine.execKill cid thr s
  | .cntEventWrite key n val => Sys2Proof.Machine.execCntEventWrite key n val s
  | .stopreq cid thr => Sys2Proof.Machine.execStopreq cid thr s
  | .postedWrite h off data be red => Sys2Proof.Machine.execPostedWrite h off data be red s
  | .lineRead h off => Sys2Proof.Machine.execLineRead h off s
  | .markedAccess h off op => Sys2Proof.Machine.execMarkedAccess h off op s
  | .signal h flag val => Sys2Proof.Machine.execSignal h flag val s
  | .bulletinRead ep off => Sys2Proof.Machine.execBulletinRead ep off s
  | .acknowledgement key id reply => Sys2Proof.Machine.execAcknowledgement key id reply s
  | .retry key id => Sys2Proof.Machine.execRetry key id s
  | .retryResend key id => Sys2Proof.Machine.execRetryResend key id s
  | .endpointGone key id => Sys2Proof.Machine.execEndpointGone key id s
  | .lineEviction key w line => Sys2Proof.Machine.execLineEviction key w line s
  | .streamFill key v => Sys2Proof.Machine.execStreamFill key v s
  | .streamDrain key v => Sys2Proof.Machine.execStreamDrain key v s
  | .mdrainpArrival key => Sys2Proof.Machine.execMdrainpArrival key s
  | .placement n core => Sys2Proof.Machine.execPlacement n core s
  | .placementReservation n cores => Sys2Proof.Machine.execPlacementReservation n cores s
  | .overlayLoad core slot => Sys2Proof.Machine.execOverlayLoad core slot s
  | .boundaryLanding key => Sys2Proof.Machine.execBoundaryLanding key s
  | .quarantineEnd cid thr => Sys2Proof.Machine.execQuarantineEnd cid thr s
  | .parkThreshold key => Sys2Proof.Machine.execParkThreshold key s
  | .deadlock key => Sys2Proof.Machine.execDeadlock key s
  | .claimCycle core => Sys2Proof.Machine.execClaimCycle core s
  | .timedPassStart key => Sys2Proof.Machine.execTimedPassStart key s
  | .gangStart n => Sys2Proof.Machine.execGangStart n s
  | .gangLate n => Sys2Proof.Machine.execGangLate n s
  | .preempt key => Sys2Proof.Machine.execPreempt key s
  | .preemptRollback key => Sys2Proof.Machine.execPreemptRollback key s
  | .mscRoomRollback need => Sys2Proof.Machine.execMscRoomRollback need s
  | .trapDelivery key t => Sys2Proof.Machine.execTrapDelivery key t s
  | .versionCascade key writer => Sys2Proof.Machine.execVersionCascade key writer s
  | .correctedError kind loc => Sys2Proof.Machine.execCorrectedError kind loc s
  | .uncorrectableError site => Sys2Proof.Machine.execUncorrectableError site s
  | .patienceExpiry p => Sys2Proof.Machine.execPatienceExpiry p s
  | .passBegin p core => Sys2Proof.Machine.execPassBegin p core s
  | .passEnd core => Sys2Proof.Machine.execPassEnd core s
  | .passAbandon core => Sys2Proof.Machine.execPassAbandon core s
  | .bulletinRefresh => Sys2Proof.Machine.execBulletinRefresh s
  | .traceSample unit => Sys2Proof.Machine.execTraceSample unit s
  | .kilnReset => Sys2Proof.Machine.execKilnReset s
  | .endMarker cid => Sys2Proof.Machine.execEndMarker cid s
  | .cancelMessage ep id => Sys2Proof.Machine.execCancelMessage ep id s
  | .registerCacheEviction key line => Sys2Proof.Machine.execRegisterCacheEviction key line s

end Sys2Proof.Machine
end

