-- ==== Sys2Proof/Machine/Turns.lean ====
section
/-! DEFINITION. The turns of the schedule: a sequencer issues its next word, an engine runs the head of its queue, an interpreter runs
its next operation, the device's services go on (R12, R29, R231, R257, R317, R377, R379, R423; DESIGN CHOICE, assumption log entry 2). -/

namespace Sys2Proof.Machine

/-! ## Issue -/

/-- The valid breakpoint that a PC matches (R422, R423). -/
def State.breakAt (s : State) (t : Thread) : Option Nat :=
  let here := t.live.pc % 32768 + t.live.task.slot % 1024 * 32768
  let hit := fun (n : Nat) => let r := (s.ctx t.cid).reg n; r.getLsbD 63 && decide (wfld r 0 25 = here)
  if hit 0x163 then some 0 else if hit 0x164 then some 1 else none

/-- The word that a thread stands at. -/
def State.wordAt (s : State) (t : Thread) : Option W32 := (s.text t)[t.live.pc]?

/-- What stands between a thread and its next word. -/
inductive Due where
  | nothing
  | report
  | step
  | reload
  | bound
  | passEnd
  | epicommit
  | breakpoint (n : Nat)
  | word
  deriving DecidableEq, Repr, Inhabited

/-- What a thread does at its next turn to issue, in this order: nothing while it does not run or the package is stopped; a report held
for it (R377); a step that is still to be reported (R424); its loop record after a keg (R410); the rest of a task boundary (R234); the
commit of EPICOMMIT (R379); a breakpoint (R423); else its word. -/
def State.due (s : State) (key : Nat) : Due :=
  let t := s.thr key
  if !t.runs || s.stopped then .nothing
  else if passBase ≤ key then (if t.live.bnd.isSome then .passEnd else .word)
  else if !t.reports.isEmpty then .report
  else if t.stepAt.isSome then .step
  else if t.live.bnd.isSome then .bound
  else if t.reload then .reload
  else if t.live.task.epicommit && !t.live.epiTaken && decide (t.live.pc = t.live.task.epiPc) then .epicommit
  else if t.resumePast then .word
  else match s.breakAt t with
    | some n => .breakpoint n
    | none => .word

/-- The frame with the commit of EPICOMMIT taken. -/
def Frame.epiDone (f : Frame) : Frame := { f with epiTaken := true }

/-- The commit of EPICOMMIT, before the word at EPI_PC issues (R379). -/
def State.epiCommit (s : State) (key : Nat) : State :=
  match (do commitPoint key Frame.epiDone; modThr key fun t => t.updLive Frame.epiDone : M Unit) s with
  | .ok ((), s') => s'.updThr key fun t => { t with wait := default, idle := s.tick }
  | .error (.stall k) => s.wordWaits key k
  | .error (.wait k s') => s'.wordWaits key k
  | .error (.trap tr) => s.takeTrap key ((s.thr key).sTrap tr)
  | .error (.fault tr s') => s'.takeTrap key ((s.thr key).sTrap tr)

/-- A thread from a keg reads the loop record of its task again; where it stands in it stays (R410; PRESUMED, assumption log entry 31). -/
def State.reloadRec (s : State) (key : Nat) : State :=
  match (do
      let t ← getThr key
      let r ← readRecord key t.live.task.addr
      modThr key fun t => { t with
        reload := false, live := { t.live with task := r }, committed := { t.committed with task := r }
        versions := t.versions.map fun w => { w with task := r.addr, budget := r.budget } } : M Unit) s with
  | .ok ((), s') => s'.loadOverlay (s.thr key).core (s'.wantedSlot key)
  | .error (.stall k) => s.wordWaits key k
  | .error (.wait k s') => s'.wordWaits key k
  | .error (.trap tr) => s.takeTrap key ((s.thr key).sTrap tr)
  | .error (.fault tr s') => s'.takeTrap key ((s.thr key).sTrap tr)

/-- A PC outside the text, or a word that is not of the instruction set, raises ILLEGAL with the PC, as a word index, in TRAP_ADDR
(R29; DEDUCED, assumption log entry 9). -/
def State.badWord (s : State) (key : Nat) : State := s.takeTrap key ((s.thr key).sTrap (mkTrap 1 (s.thr key).live.pc 0))

/-- A word that issued, and does not wait, is a sample of the trace units in issue mode (R356, R426; DESIGN CHOICE, assumption log entry 61). -/
def State.issued (key : Nat) (o : Out) : Out :=
  match o with
  | .next s => .next (if (s.thr key).wait.kind = .running then s.traceIssue key else s)
  | .fault f => .fault f
  | .refused r => .refused r

/-- A thread issues its next word (R12). -/
def State.issueWord (s : State) (key : Nat) : Out :=
  match s.wordAt (s.thr key) with
  | none => .next (s.badWord key)
  | some w =>
    match decodeWord w.toNat with
    | .ok i => State.issued key (exec i { s with cur := key })
    | .error _ => .next (s.badWord key)

/-- A turn of a thread's sequencer. -/
def State.issue (s : State) (key : Nat) : Out :=
  match s.due key with
  | .nothing => .next s
  | .passEnd => .next s
  | .report => .next (s.deliverHeld key)
  | .step => .next (s.takeStep key)
  | .reload => .next (s.reloadRec key)
  | .bound => boundary (fun f => pure f.task.next) { s with cur := key }
  | .epicommit => .next (s.epiCommit key)
  | .breakpoint n =>
    .next ((s.takeTrap key ((s.thr key).sTrap (mkTrap 17 (s.thr key).live.pc (1024 + n * 2048)))).updThr key fun t => { t with resumePast := true })
  | .word => s.issueWord key

/-! ## Interpreters -/

/-- The operation that an interpreter stands at. -/
def State.opAt (s : State) (it : Nat) : Option W32 :=
  let x := s.interps.get it
  ((s.prog x.fn (s.lq x.fn x.lq).program).ops)[x.idx]?

/-- A turn of an interpreter (R317). The verifier has passed the program, so that every operation decodes. -/
def State.interpTurn (s : State) (it : Nat) : Out :=
  if !(s.interps.get it).busy || s.stopped then .next s
  else
    match (s.opAt it).map fun w => decodeSparge w.toNat with
    | some (.ok i) => exec i { s with curI := it }
    | _ => .next (s.rejectPkt it 3 (s.interps.get it).idx 0)

/-! ## Services of the device -/

/-- The state after an outcome that goes on. -/
def State.after (s : State) (o : Out) : State :=
  match o with
  | .next t => t
  | .fault _ => s
  | .refused _ => s

/-- Steps of a list one after the other. -/
def State.runAll (s : State) (l : List (State → Out)) : State := l.foldl (fun s f => s.after (f s)) s

/-- The core where the first request that can be met begins. -/
def State.firstPlace (s : State) : Option (Nat × Nat) :=
  (s.places.zip (countFrom 0 s.places.length)).findSome? fun p =>
    if s.mayLeave p.1 then ((countFrom 0 832).find? fun c => (s.assignAt p.1 c).isSome).map fun c => (p.2, c) else none

/-- The loads that a sequencer has performed bind while a word of the thread waits for tickets (R167; DEDUCED, assumption log entry 10). -/
def State.bindFull (s : State) (key : Nat) : State :=
  if (s.thr key).wait.kind = .ticket then
    s.updThr key fun t => t.bindMany t.sqTickets
  else s

/-- What the firmware and the hardware do by themselves, each once, as far as it can be done now: commands and ends go on, parked
threads are seen to, requests are placed, packets merged and handed on, emissions and copies go on, gangs start, passes begin and end, and
the timers that have run out act. -/
def State.services (s : State) : State :=
  let s := (s.threads.filter fun p => decide (p.1 < passBase)).foldl (fun s p => s.landFirst p.1) s
  let s := ((s.drainFlows.endInvals fun _ => true).judgeGangs.finishDue.unpark).fwAdvance
  let s := (s.funcs.keys.filter fun f => (s.func f).pend.isSome && s.powerIn ≠ 4).foldl State.pendingCommand s
  let s := (s.ctxs.filter fun c => c.2.stateOf = 3).foldl (fun s c => s.drainEnd c.1) s
  let s := (s.funcs.keys.filter fun f => (s.func f).flr).foldl State.flrDone s
  let s := if s.pkg.powerState.getLsbD 3 then s.powerDone else s
  let s := match s.firstPlace with | some (n, c) => s.place n c | none => s
  let lqs := (s.lqs.filter fun q => q.2.enable).map (·.1)
  let s := s.runAll (lqs.map fun q => execMerge (q / 8192) (q % 8192))
  let s := s.runAll ((countFrom 0 16).map fun i => execInterpreterHandoff i)
  let s := s.runAll (lqs.flatMap fun q => [execEmissionTakesEffect (q / 8192) (q % 8192), execEcopyCompletion (q / 8192) (q % 8192)])
  let s := s.runAll ((countFrom 0 s.gangHolds.length).reverse.flatMap fun n => [execGangLate n, execGangStart n])
  let s := s.runAll ((countFrom 0 8).map fun p => execPatienceExpiry p)
  let s := s.runAll ((s.passes.filter fun p => p.2.core.isNone).filterMap fun p => (s.passSlot p.2).map fun c => execPassBegin p.1 c)
  let s := ((s.runAll [execBulletinRefresh]).telemetry)
  let running := s.passes.filterMap fun p => p.2.core
  let s := s.runAll (running.flatMap fun c => [execPassEnd c, execPassAbandon c])
  let keys := (s.threads.filter fun p => p.2.runs && decide (p.1 < passBase)).map (·.1)
  let s := keys.foldl State.bindFull s
  let s := s.runAll (keys.flatMap fun k => [execParkThreshold k, execPreemptRollback k, execDeadlock k])
  s.runAll ((((s.threads.filter fun p => p.2.runs).map fun p => p.2.core).eraseDups).map fun c => execClaimCycle c)

/-! ## Selection by weight (R257, R258) -/

/-- The running threads of a core, its pass slot among them, in slot order. -/
def State.onCore (s : State) (core : Nat) : List (Nat × Thread) :=
  let mine := s.threads.filter fun p => p.2.runs && p.2.core = core
  (countFrom 0 5).flatMap fun i => mine.filter fun p => if i = 4 then passBase ≤ p.1 else p.1 < passBase && p.2.slot = i

/-- The unit that an MX entry uses (R148): the load port is 4, the array 6 and the drain port 7; a token entry and a claim use none. -/
def mxUnit : Instr → Option Nat
  | .mldw _ _ _ => some 4
  | .mlda _ _ _ _ => some 4
  | .mldv _ _ _ => some 4
  | .mzero _ _ => some 4
  | .mpass _ _ _ _ _ => some 6
  | .mpassat _ _ _ _ _ => some 6
  | .mdrain _ _ _ _ _ => some 7
  | .mdrainv _ _ _ _ => some 7
  | .mdrainp _ _ _ _ => some 7
  | _ => none

/-- The engine that a unit belongs to: the sequencer's issue slot is unit 0, VL, VA, VS and CP are units of their own, and MX has three
(R257). -/
def unitEng : Nat → Option Eng
  | 1 => some .vl
  | 2 => some .va
  | 3 => some .vs
  | 5 => some .cp
  | 4 => some .mx
  | 6 => some .mx
  | 7 => some .mx
  | _ => none

/-- The head of a thread's queue, when it is the unit's to run. -/
def State.unitHead (s : State) (unit key : Nat) : Option QEntry :=
  match unitEng unit with
  | some e => ((s.thr key).queue e).entries.head?.filter fun q => decide (e ≠ .mx) || decide (mxUnit q.word = some unit)
  | none => none

/-- What a unit would do for a thread. The sequencer's issue slot only pushes an entry: it runs when the engine's own unit selects it (R257,
R258). -/
def State.unitTurn (s : State) (unit key : Nat) : State :=
  match unitEng unit with
  | some e => s.engineStep key e
  | none =>
    let u := { s with held := engs.map (fun e => (key, e)) ++ s.held }
    { u.after (u.issue key) with held := s.held }

/-- A thread is a candidate on a unit: its next word, or the head of its queue for the unit, can start (R257). -/
def State.candidate (s : State) (unit key : Nat) : Bool :=
  match unitEng unit with
  | some e => (s.unitHead unit key).isSome && (s.engineWait key e).isNone
  | none =>
    (match s.due key with | .word => true | _ => false) &&
      decide (((s.unitTurn unit key).thr key).wait.kind = .running)

/-- A word passes control on to another word than the next (R241, R242). -/
def Thread.taken (t : Thread) : Instr → Bool
  | .beq a b _ => decide ((t.rx a).val = (t.rx b).val)
  | .bne a b _ => decide ((t.rx a).val ≠ (t.rx b).val)
  | .blt a b _ => decide ((t.rx a).val.toInt < (t.rx b).val.toInt)
  | .bge a b _ => decide ((t.rx b).val.toInt ≤ (t.rx a).val.toInt)
  | .bltu a b _ => decide ((t.rx a).val.toNat < (t.rx b).val.toNat)
  | .bgeu a b _ => decide ((t.rx b).val.toNat ≤ (t.rx a).val.toNat)
  | .jal _ _ => true
  | .jalr _ _ _ => true
  | _ => false

/-- The ticks for which a word holds the sequencer's issue slot (R240, R243). -/
def Thread.issueTicks (t : Thread) (w : Instr) : Nat :=
  match w with
  | .mul _ _ _ => 3
  | .mulh _ _ _ => 3
  | .mulhu _ _ _ => 3
  | .mulhsu _ _ _ => 3
  | .muli _ _ _ => 3
  | .div _ _ _ => 18
  | .divu _ _ _ => 18
  | .rem _ _ _ => 18
  | .remu _ _ _ => 18
  | w => if t.taken w then 2 else 1

/-- The ticks for which an entry holds its unit, once its operands are there (R88, R148). -/
def Thread.entryTicks (t : Thread) (q : QEntry) : Nat :=
  match q.word with
  | .vdiv _ _ _ _ _ _ => 4
  | .vsqrt _ _ _ _ => 4
  | .vrsq _ _ _ _ => 4
  | .vexp2 _ _ _ _ => 4
  | .vlog2 _ _ _ _ => 4
  | .vred _ _ _ _ _ => 2
  | .vargmax _ _ _ _ => 2
  | .vunpk _ _ ty _ => ((packRatio ty.width (vtEt t.live.vtype).width).map fun r => Nat.min r 4).getD 1
  | .mldw _ _ _ => 128
  | .mlda _ _ _ _ => (q.op 2).val.toNat
  | .mzero _ n => 256 * n.toNat
  | .mpass _ ab _ _ _ => (if (q.op 0).val = 0#64 then (t.ab.get ab.toNat).fill else (q.op 0).val.toNat) + 256
  | .mpassat _ ab _ _ _ => (t.ab.get ab.toNat).fill + 256
  | .mdrain _ _ _ _ _ => (q.op 2).val.toNat
  | .mdrainv _ _ _ _ => (q.op 1).val.toNat
  | .mdrainp cb _ _ _ => if (q.op 0).val = 0#64 then (t.cb.get cb.toNat).fill else (q.op 0).val.toNat
  | _ => 1

/-- The ticks for which a unit is held by what a thread would run on it (R258). -/
def State.occupancy (s : State) (unit key : Nat) : Nat :=
  let t := s.thr key
  match s.unitHead unit key, s.wordAt t with
  | some q, _ => t.entryTicks q
  | none, some w => (match decodeWord w.toNat with | .ok i => t.issueTicks i | .error _ => 1)
  | none, none => 1

/-- The tenant of a thread: its context, or pass. -/
def tenantOf (p : Nat × Thread) : Nat := if passBase ≤ p.1 then 4096 else p.2.cid

/-- The key of a unit's counter for a tenant. -/
def unitKey (core unit tenant : Nat) : Nat := (core * 8 + unit) * 8192 + tenant

/-- The threads of a core that wait on a unit: what they wait for is noted, and uses none of the unit (R257). -/
def State.noteWaits (s : State) (core unit : Nat) : State :=
  ((s.onCore core).filter fun p => !s.candidate unit p.1 && (decide (unitEng unit ≠ some .mx) || (s.unitHead unit p.1).isSome)).foldl
    (fun s p => s.unitTurn unit p.1) s

/-- Select (R258): the tenant with the largest counter, ties to the lower CID and pass last, and its next candidate in slot order; its
counter pays for the ticks the unit will be held, with those that memory latency and contention add. DESIGN CHOICE: assumption log entry
57. -/
def State.select (s : State) (core unit extra : Nat) : State :=
  let c := (s.onCore core).filter fun p => s.candidate unit p.1
  let s := s.noteWaits core unit
  let ts := (c.map tenantOf).eraseDups
  let old := s.tenants.get (unitKey core unit 0)
  let s := { s with tenants := s.tenants.put (unitKey core unit 0) ts }
  if ts.isEmpty then s
  else
    let w := fun (t : Nat) => (s.weight core t : Int)
    let sum := ts.foldl (fun (n : Int) t => n + w t) 0
    let d := fun (t : Nat) =>
      let v := s.deficits.get (unitKey core unit t)
      (if old.contains t then v else if 0 < v then 0 else v) + w t
    let best := ts.foldl (fun b t => if d b < d t || (d b = d t && t < b) then t else b) (ts.headD 0)
    let mine := c.filter fun p => tenantOf p = best
    let last := if s.lastPick.has (unitKey core unit best) then s.lastPick.get (unitKey core unit best) + 1 else 0
    let pick := ((mine.find? fun p => last ≤ p.2.slot).getD (mine.headD default))
    let occ := s.occupancy unit pick.1 + extra
    let s := { s with
      deficits := ts.foldl (fun m t => NMap.put m (unitKey core unit t) (if t = best then d t - sum * occ else d t)) s.deficits
      lastPick := s.lastPick.put (unitKey core unit best) pick.2.slot }
    s.unitTurn unit pick.1

/-! ## Early reads (R159) -/

/-- Some bytes of a load that could be performed now are read now, the rest when it is: that of the sequencer's next word, or the entry at the head
of an engine's queue (R159). -/
def State.readEarly (s : State) (key : Nat) (e : Option Eng) (l : List (Space × Nat)) : State :=
  let got := l.map fun a => (a.1, a.2, (s.space a.1).byte a.2)
  match e with
  | none =>
    if s.candidate 0 key && decide (((s.unitTurn 0 key).thr key).run = .resident) then s.updThr key fun t => { t with early := t.early ++ got }
    else s
  | some e =>
    let qu := (s.thr key).queue e
    match qu.entries with
    | [] => s
    | q :: r =>
      match (do entryStart key e q; engEffect e key q : M Unit) s with
      | .ok _ => if (s.thr key).runs then s.updThr key fun t => t.setQueue e { qu with entries := { q with early := q.early ++ got } :: r } else s
      | .error _ => s

/-! ## The schedule -/

/-- Runs one turn. -/
def runTurn (t : Turn) (s : State) : Out :=
  match t with
  | .issue key => s.issue key
  | .engine key e => .next (s.engineStep key e)
  | .bind key n => .next (s.updThr key fun t => if (t.tickets.get n).live then t.bindTicket n else t)
  | .select core unit occ => .next (s.select core unit occ)
  | .hostMem a data => .next { s with host := s.host.setBytes a data }
  | .refuse a n => .next { s with refusers := (a, n) :: s.refusers }
  | .hide l => .next { s with hidden := l }
  | .early key e l => .next (s.readEarly key e l)
  | .poison key id => .next (s.answered key id 0 true)
  | .pageIn cid va data tags => .next (s.pageIn cid va data tags)
  | .flowIn ep srcEp thr flow next done => .next (s.flowIn ep srcEp thr flow next done)
  | .evict place cid page => .next { s with tlb := s.tlb.filter fun x => !(x.place = place && x.cid = cid && x.page = page) }
  | .interp it => s.interpTurn it
  | .event i => exec i s
  | .services => .next s.services

/-- The turns of the agents that exist, in order: the services, the units of every core that runs a thread, the MX queues whose heads use no
unit, and every busy interpreter. -/
def State.agents (s : State) : List Turn :=
  let cores := ((s.threads.filter fun p => p.2.runs).map fun p => p.2.core).eraseDups
  let unitless := s.threads.filter fun p => p.2.runs && (match (p.2.queue .mx).entries with | q :: _ => (mxUnit q.word).isNone | [] => false)
  .services :: (cores.flatMap fun c => (countFrom 0 8).map fun u => .select c u 0) ++ unitless.map (fun p => .engine p.1 .mx) ++ (s.interps.filter fun i => i.2.busy).map fun i => .interp i.1

/-- A gang starts on time at this tick: it is started, and each of its members issues its first word (R328). -/
def State.startGang (s : State) (n : Nat) : State :=
  match s.gangHolds[n]? with
  | none => s
  | some h =>
    if h.start ≤ s.tick && s.gangPlaced h && !h.late then
      h.keys.foldl (fun s k => (countFrom 0 2).foldl (fun s _ => s.after (s.issue k)) s) (s.after (execGangStart n s))
    else s

/-- The thread's admitted MPASSAT starts at this tick (R142). -/
def State.passDue (s : State) (key : Nat) : Bool :=
  let t := s.thr key
  t.runs && decide ((timedWindow t false).map (·.1) = some s.tick)

/-- An MPASSAT that has only just been admitted, at its very tick, starts then (R142). -/
def State.startTimed (s : State) (key : Nat) : State := if s.passDue key && (timedWindow (s.thr key) true).isSome then s.runHead mxEffect .mx key else s

/-- What starts at this tick, before any turn: gangs (R328) and timed passes (R142); none when there is nothing. -/
def State.timedNow (s : State) : Option State :=
  let gangs := (countFrom 0 s.gangHolds.length).reverse.filter fun n =>
    match s.gangHolds[n]? with | some h => !s.stopped && decide (h.start ≤ s.tick) && s.gangPlaced h && !h.late | none => false
  let passes := if s.stopped then [] else (s.threads.keys).filter s.passDue
  if gangs.isEmpty && passes.isEmpty then none
  else some (passes.foldl (fun s k => ((s.runHead mxEffect .mx k).startTimed k)) (gangs.foldl State.startGang s))

/-- The turn that follows: the schedule's, or when it names none the next agent's in a round. -/
def State.nextTurn (s : State) : Turn × State :=
  match s.turns with
  | t :: rest => (t, { s with turns := rest })
  | [] =>
    let l := s.agents
    ((l[s.rr % l.length]?).getD .services, { s with rr := s.rr + 1 })

end Sys2Proof.Machine
end

