-- ==== Sys2Proof/Machine/Step.lean ====
section
/-! DEFINITION. One step of the package, and the placement of one word where the next step fetches it. -/

namespace Sys2Proof.Machine

/-- A tick passes: the counter counts in every state but OFF (R27, R336). -/
def State.ticked (s : State) : State := if s.powerIn = 4 then s else { s with tick := s.tick + 1 }

/-- One step: a tick passes, and what is bound to that tick starts, or else one agent takes its turn (R12, R142, R328; DESIGN CHOICE, assumption
log entry 2). DESIGN CHOICE: assumption log entry 55. -/
def step (s : State) : Host.Outcome State Fault Refusal :=
  match s.ticked.timedNow with
  | some t => .next t
  | none =>
    let n := s.ticked.nextTurn
    runTurn n.1 n.2

/-- The loop record of a thread that `withFetchWord` places: its kernel is the first word of model slot 0. -/
def fetchRec : Rec := { (default : Rec) with trip := 1#64, slot := 0 }

/-- The thread that `withFetchWord` places on core 0: number 0 of context 0, at word 0 of model slot 0. -/
def fetchThread : Thread :=
  let f := (default : Frame).startTask fetchRec
  { (default : Thread) with
    alive := true, run := .resident, placed := true, scratchG := 1, live := f, committed := f, versions := [freshVersion 1 fetchRec] }

/-- Context 0 of the PF, ACTIVE (R340). -/
def fetchCtx : Ctx := { (default : Ctx) with desc := newDesc 0 0 }

/-- The state with one word placed where the next step fetches it (DESIGN CHOICE, assumption log entry 8): firmware runs, context 0 is ACTIVE and its
thread 0 resident on core 0 with the word as the text of model slot 0, or, for a sparge operation, interpreter 0 has a packet of
logical queue 0 whose program is the operation. -/
def State.withFetchWord (s : State) (nbits w : Nat) : State :=
  let word := BitVec.ofNat 32 w
  let s := { s with boot := { s.boot with waiting := false, running := true }, ctxs := s.ctxs.put 0 fetchCtx }
  let sparge : Bool := match decodeWord w, decodeSparge w with | .error _, .ok _ => true | _, _ => false
  if !sparge || nbits = 0 then
    { s with
      images := s.images.put 0 { (default : Image) with resident := true, text := [word], dataBytes := 64, scratchG := 1 }
      threads := s.threads.put 0 fetchThread
      cores := s.cores.put 0 { (default : CoreSt) with overlay := [0] }
      verNext := 2, turns := [.issue 0] }
  else
    { s with
      progs := s.progs.put 0 { (default : SpProg) with loaded := true, ops := [word] }
      lqs := s.lqs.put 0 { (default : LQueue) with enable := true }
      interps := s.interps.put 0 { (default : Interp) with busy := true, pkt := { (default : Pkt) with slots := 1, bytes := List.replicate 64 0#8 } }
      turns := [.interp 0] }

end Sys2Proof.Machine
end

