-- ==== Sys2Proof/Safety.lean ====
section
/-! DEFINITION. The terms in which statements speak of the machine: when the current thread runs, the state after a word that changes
only its register frame, memories in canonical form, and runs of steps. -/

namespace Sys2Proof.Machine

/-- The keys of a table rise: each is listed once. -/
abbrev NMap.Rising {α : Type} (m : NMap α) : Prop := m.Pairwise fun a b => a.1 < b.1

/-- The current thread runs: it exists and is resident. -/
abbrev State.Runs (s : State) : Prop := (s.thr s.cur).alive = true ∧ (s.thr s.cur).run = .resident

/-- The current thread runs, is not single-stepped, and has no watchpoint hit to report. -/
abbrev State.Quiet (s : State) : Prop := s.Runs ∧ (s.thr s.cur).stepOn = false ∧ (s.thr s.cur).hits = []

/-- The current thread runs on a slot of its own, no entry of it is queued, none of its loads holds a ticket, no line of a remote window is
cached, no packet of it is unanswered, and its version waits for no other. -/
abbrev State.Settled (s : State) : Prop :=
  s.Quiet ∧ s.cur < passBase ∧ (s.thr s.cur).idleQueues = true ∧ (s.thr s.cur).liveTickets = 0#16 ∧ (s.thr s.cur).lines = [] ∧
    s.allAcked s.cur = true ∧ ((s.thr s.cur).ver (s.thr s.cur).curVer.id).deps = []

/-- Bytes of the current thread's own scratch, within one page of it, that it may read: none lies in a POISON block, none is the destination
of a copy under way, no watchpoint is set, and no byte has been read for the word before its turn (R16, R72, R157, R159). -/
abbrev State.OwnScratch (s : State) (off n : Nat) : Prop :=
  0 < n ∧ off + n ≤ (s.thr s.cur).scratchG * 16384 ∧ off + n ≤ 2097152 ∧ off % 16384 + n ≤ 16384 ∧ (s.thr s.cur).wp = [] ∧
    (∀ p ∈ s.threads, p.2.scores = []) ∧ (∀ a, isPoison ((s.thr s.cur).scratch.tag a) = false) ∧ (s.thr s.cur).scratch.wf = true ∧ (s.thr s.cur).early = []

/-- The current thread's version may write so many bytes more (R384, R385). -/
abbrev State.MayWrite (s : State) (n : Nat) : Prop :=
  ((s.thr s.cur).ver (s.thr s.cur).curVer.id).useKnext + n ≤ s.budgetOf (s.thr s.cur).cid ((s.thr s.cur).ver (s.thr s.cur).curVer.id) ∧
    s.mscUse + n ≤ 7516192768

/-- The flat address of a byte of the own scratch in the S-space (R16). -/
def scratchVa (off : Nat) : W64 := BitVec.ofNat 64 (0xFE00000000000000 + off)

/-- The wait log of the current thread's context is off (R251). -/
abbrev State.LogOff (s : State) : Prop := ((s.ctx (s.thr s.cur).cid).reg 0x120) = 0#64

/-- The local flag of the current thread that a flag field names (R41). -/
abbrev State.ownFlag (s : State) (f : BitVec 8) : FlagRef := ⟨false, s.cur, f.toNat⟩

/-- The word of the current thread has been performed in the state it is applied to: what `State.wordDone` does at its PC. -/
def State.wordEnd (s t : State) : State := t.wordDone s.cur (s.thr s.cur).pcw (s.thr s.cur).serial

/-- The state after a word of the current thread that changes only its register frame. -/
def State.frameWord (s : State) (g : Frame → Frame) : State := s.wordEnd (s.updThr s.cur fun t => t.updLive g)

/-- An SC.R word of two sources completes with a function of them in xd, and control passes to the next word. -/
abbrev Completes2 (i : BitVec 5 → BitVec 5 → BitVec 5 → Instr) (op : W64 → W64 → W64) : Prop :=
  ∀ (s : State) (xd xa xb : BitVec 5), s.Runs → exec (i xd xa xb) s =
    .next (s.frameWord fun f =>
      (f.wx xd { val := op (f.rx xa).val (f.rx xb).val, taint := (f.rx xa).taint ||| (f.rx xb).taint,
                 sat := (f.rx xa).sat || (f.rx xb).sat }).next)

/-- An SC word of one source completes with a function of it in xd, and control passes to the next word. -/
abbrev Completes1 (i : BitVec 5 → BitVec 5 → Instr) (op : W64 → W64) : Prop :=
  ∀ (s : State) (xd xa : BitVec 5), s.Runs → exec (i xd xa) s =
    .next (s.frameWord fun f => (f.wx xd { (f.rx xa) with val := op (f.rx xa).val }).next)

/-- A word completes with a value in xd that has empty taint, and control passes to the next word. -/
abbrev Loads (i : BitVec 5 → Instr) (v : State → W64) : Prop :=
  ∀ (s : State) (xd : BitVec 5), s.Runs → exec (i xd) s =
    .next (s.frameWord fun f => (f.wx xd { val := v s, taint := 0#16, sat := false }).next)

/-- The device takes a write of the host to the BARs of a function: the package is up, and the function is not in reset (R303, R336, R360). -/
abbrev State.Hears (s : State) (fn : Nat) : Prop := fn < 256 ∧ s.powerIn ≠ 4 ∧ (s.func fn).flr = false

/-- The current interpreter runs a packet and has run fewer than 512 operations of it (R317, R320). -/
abbrev State.Interprets (s : State) : Prop := (s.interps.get s.curI).busy = true ∧ (s.interps.get s.curI).count < 512

/-- The state after an operation that leaves the current interpreter as given. -/
def State.withInterp (s : State) (x : Interp) : State := { s with interps := s.interps.put s.curI x }

/-- The device takes a command of a function now: the package is up, its firmware serves, and the function is neither in reset nor busy
(R336, R342, R360, R421). -/
abbrev State.TakesCommand (s : State) (fn : Nat) : Prop :=
  fn < 256 ∧ s.powerIn ≠ 4 ∧ s.fwHeld = false ∧ (s.func fn).flr = false ∧ (s.func fn).pend = none

/-- The state with the words of a command written to the command block of a function (R342). -/
def State.withWords (s : State) (fn : Nat) (l : List W64) : State :=
  { s with funcs := s.funcs.put fn { s.func fn with
      cmd := (l.zip (countFrom 0 l.length)).foldl (fun (m : NMap W64) e => m.put e.2 e.1) [] } }

/-- A command of the PF completes at once with an ERR, and what it leaves is as said (R342). -/
abbrev CommandEnds (s : State) (i : Instr) (err : Nat) (p : State → Prop) : Prop :=
  ∃ u, exec i s = .next u ∧ (u.func 0).cmdStatus = BitVec.ofNat 64 (err * 256) ∧ (u.func 0).pend = none ∧ p u

/-- A command of the PF is under way: it is BUSY until it completes, and what has been done is as said (R342). -/
abbrev CommandWaits (s : State) (i : Instr) (op cid : Nat) (p : State → Prop) : Prop :=
  ∃ u, exec i s = .next u ∧ (u.func 0).cmdStatus = 1 ∧ (u.func 0).pend = some (op, cid) ∧ p u

/-- A context exists and is not ending: it is ACTIVE or FROZEN (R340). -/
abbrev State.Exists (s : State) (cid : Nat) : Prop := cid < 4096 ∧ ((s.ctx cid).stateOf = 1 ∨ (s.ctx cid).stateOf = 2)

/-- The endpoints of this package that named a context are GONE, each with its generation raised, and no other entry has changed (R361). -/
abbrev State.EndpointsGone (s u : State) (cid : Nat) : Prop :=
  ∀ e, s.endpoints.has e = true → let x := s.endpoints.get e
    u.endpoints.get e = if x.pkg = s.pkg.self ∧ x.cid = cid then { x with st := 2, gen := x.gen + 1 } else x

/-- The schedule does not hold an engine of the current thread back, its queue is empty, no FENCE of the thread is pending, one version of it
is live, and no ticket is: a word of the engine is pushed and performed at once. -/
abbrev State.Free (s : State) (e : Eng) : Prop :=
  s.Quiet ∧ s.cur < passBase ∧ ((s.thr s.cur).queue e).entries = [] ∧ s.held.contains (s.cur, e) = false ∧ (s.thr s.cur).fences = [] ∧
    (s.thr s.cur).versions.length ≤ 1 ∧ (s.thr s.cur).stepAt = none ∧ (s.thr s.cur).tickets = []

/-- The current thread has bound no vector register. -/
abbrev State.Unbound (s : State) : Prop := ∀ p ∈ (s.thr s.cur).live.v, p.2.kind = .free ∧ p.2.strm.active = false

/-- No register of a frame carries a taint. -/
def Frame.untainted (f : Frame) : Bool :=
  decide (f.ctaint = 0#16) && (f.x.all fun p => p.2.taint = 0#16) && (f.k.all fun p => p.2.taint = 0#16) &&
    f.v.all fun p => decide (p.2.strm.taint = 0#16) && p.2.fifo.all fun e => e.taint = 0#16

/-- No entry of the current thread is queued, and no register of it carries a taint. -/
abbrev State.Idle (s : State) : Prop := (s.thr s.cur).idleQueues = true ∧ (s.thr s.cur).live.untainted = true

/-- The word of an engine has been performed: its entry has left the queue again and is counted. -/
abbrev State.Ran (s : State) (e : Eng) (u : State) : Prop :=
  ((u.thr s.cur).queue e).entries = [] ∧ ((u.thr s.cur).queue e).pushed = ((s.thr s.cur).queue e).pushed + 1 ∧ (u.thr s.cur).run = .resident

/-- The memories hold the bytes and tags that they held. -/
abbrev State.SameMem (s u : State) : Prop :=
  u.hbm = s.hbm ∧ u.host = s.host ∧ u.staging = s.staging ∧ (u.thr s.cur).scratch = (s.thr s.cur).scratch

/-- What a VA entry of the current thread reads besides its vector entries, when it runs at once (R84). -/
def vaInput (t : Thread) (op : VaOp) (ops : List (BitVec 5)) (ents : List VEntry) : VaIn :=
  let f := t.live
  let ks := op.ks.map f.rk
  { et := vtEt f.vtype, rm := vtRm f.vtype, sat := vtSat f.vtype, ents := ents, mask := (f.rk (mkReg op.mkf)).val, merge := op.mkf.getLsbD 2
    xb := (((ops.map t.rx).head?).getD default).val, ka := ((ks[0]?).getD default).val, kb := ((ks[1]?).getD default).val
    kold := (f.rk (op.kd.getD 0)).val }

/-- The frame that a VA entry leaves: what it read is popped, its results are pushed with the taints of its operands, its mask is written,
and its flags are gathered (R84). What it leaves comes after the loads that its operands have been taken from (R176). An entry that a later TCLRV
has cleared beforehand carries neither (R254). -/
def vaLeaves (t : Thread) (op : VaOp) (ops : List (BitVec 5)) (ents : List VEntry) (n : NMap Nat) : Frame :=
  let r := op.run (vaInput t op ops ents)
  let masks := (mkReg op.mkf :: op.ks).map t.live.rk
  let xb := ((ops.map t.rx).head?).getD default
  let taint := entryTaint ents ||| masks.foldl (fun m k => m ||| k.taint) 0#16 ||| xb.taint
  let sat := ents.any (·.sat) || masks.any (·.sat) || xb.sat
  let cleared := decide (t.serial < t.clearV.get (op.vd.getD 0))
  let after := masks.foldl (fun c k => joinClk k.after c) (joinClk t.base (entryAfter ents))
  let f := t.live.next.popV n
  let f := match op.vd with
    | some vd => f.updV vd fun v => v.pushL (r.outs.map fun d =>
        { data := d, taint := if cleared then 0#16 else taint, sat := sat && !cleared, owner := 0#32, after := if cleared then [] else after })
    | none => f
  let f := match op.kd with
    | some k => f.wk k { val := r.k, taint := taint, sat := sat, owner := 0#32, after := after }
    | none => f
  { f with vstat := vstatOr f.vstat (allFlags r.lanes) }

/-- A VA word whose type is accepted, whose operands are there, whose results fit and whose flags trap nothing completes at once. -/
abbrev VaCompletes (i : Instr) (ops : List (BitVec 5)) : Prop :=
  ∀ (s : State) (op : VaOp) (p : Nat) (ents : List VEntry) (n : NMap Nat), s.Free .va → s.Unbound → vaOp i = some op →
    let t := s.thr s.cur
    let et := vtEt t.live.vtype
    op.acc et = true → op.pushes et = some p → vtTrapen t.live.vtype = 0 →
    (∀ vd, op.vd = some vd → t.outBound t.serial vd = false ∧ (t.live.v.get vd).fifo.length - n.get vd + p ≤ 4) →
    readSources s.cur .va t.serial (op.srcs et) [] [] s = .ok ((ents, n), s) → (∀ e ∈ ents, e.owner = 0) →
    ∃ u, exec i s = .next u ∧ (u.thr s.cur).live = vaLeaves t op ops ents n ∧ s.Ran .va u ∧ s.SameMem u ∧ ∀ k, k ≠ s.cur → u.thr k = s.thr k

/-- A lane of a vector entry (R80). -/
def laneAt (w i : Nat) (d : VData) : Nat := fld d.toNat (w * i) w

/-- A packet names an endpoint of a running context of this package, at its generation, that is not frozen (R331, R362). -/
abbrev State.Reaches (s : State) (h : FabHdr) (cid : Nat) : Prop :=
  s.endpoints.has h.ep.toNat = true ∧ (s.endpoints.get h.ep.toNat).gen = h.gen ∧ (s.endpoints.get h.ep.toNat).pkg = s.pkg.self ∧
    (s.endpoints.get h.ep.toNat).cid = cid ∧ (s.endpoints.get h.ep.toNat).st = 0 ∧ h.ep.toNat < serviceBase ∧
    (s.ctx cid).stateOf = 1 ∧ (s.ctx cid).relay = none ∧ (s.ctx cid).awaitEnd = false

/-- A packet is the next one of its flow, and none of that flow waits (R186). -/
abbrev State.InTurn (s : State) (h : FabHdr) : Prop :=
  (∀ f ∈ s.inflows, InFlow.holds f h = true → f.next = h.seq ∧ f.done = [] ∧ f.waiting = []) ∧
    ((∀ f ∈ s.inflows, InFlow.holds f h = false) → h.seq = 0)

/-- Packets of its flow before a packet are still missing, none waits, and it has not come before (R186). -/
abbrev State.Early (s : State) (h : FabHdr) : Prop :=
  (∀ f ∈ s.inflows, InFlow.holds f h = true → f.next < h.seq ∧ f.done.contains h.seq = false ∧ f.waiting = []) ∧
    ((∀ f ∈ s.inflows, InFlow.holds f h = false) → 0 < h.seq)

/-- The answer to a packet. -/
def answerTo (h : FabHdr) (k : AnsKind) : Answer :=
  { ep := h.srcEp, thread := h.srcThread.toNat, flow := h.flow.toNat, seq := h.seq, kind := k }

/-- The memories of a thread are in canonical form: its scratch, and the images of its slots, held, passed on, saved, and saved for a version
that waits to land. -/
def Thread.memWf (t : Thread) : Bool :=
  t.scratch.wf && (t.wb.all fun p => p.2.mem.wf) && (t.ab.all fun p => p.2.mem.wf) && (t.cb.all fun p => p.2.mem.wf) &&
    (t.saved.all fun c => c.img.mem.wf) && (t.promised.all fun c => c.2.2.mem.wf) && (t.savedPromised.all fun c => c.2.2.mem.wf) &&
    t.versions.all fun v => v.landing.toList.all fun l => l.cb.all fun c => c.img.mem.wf

/-- Every memory of the package is in canonical form. -/
def State.memWf (s : State) : Bool := s.hbm.wf && s.host.wf && s.staging.wf && s.threads.all fun p => p.2.memWf

/-- A thread issues its word at its next turn: it runs, it holds no report, no step, no boundary and no loop record to read again, no
breakpoint matches its PC, and it does not stand before the commit of EPICOMMIT (R377, R379, R423, R424). -/
abbrev State.Issues (s : State) (key : Nat) : Prop :=
  (s.thr key).alive = true ∧ (s.thr key).run = .resident ∧ s.stopped = false ∧ (s.thr key).live.bnd = none ∧
    (key < passBase → (s.thr key).reports = [] ∧ (s.thr key).stepAt = none ∧ (s.thr key).reload = false ∧
      ((s.thr key).live.task.epicommit = false ∨ (s.thr key).live.epiTaken = true ∨ (s.thr key).live.pc ≠ (s.thr key).live.task.epiPc) ∧
      ((s.thr key).resumePast = true ∨ s.breakAt (s.thr key) = none))

/-- A state is reached from another in a number of steps, none of which stops. -/
inductive Steps : State → Nat → State → Prop where
  | zero (s : State) : Steps s 0 s
  | succ {s t u : State} {n : Nat} (h : Steps s n t) (hs : step t = .next u) : Steps s (n + 1) u

end Sys2Proof.Machine
end

