-- ==== Sys2Proof/Certificates/Slice0/Obligations.lean ====
section
/-! DEFINITION. The statements for the provers, from the numbered rules of spec/. -/

open Sys2Proof Sys2Proof.Machine

/-- R238: every SC.R word completes with the result of its row in the table, the union of its sources' taints and the OR of their
saturation bits, and no trap and no flag; control passes to the next word. A result for x0 is discarded by `Frame.wx`. The result of CLZ
and CTZ is the length of the longest run of zero bits from the top or from bit 0 (64 for a zero source), POPC counts the set bits, and BREV
reverses them. -/
def Obligations.ScalarRegisterResults : Prop :=
  Completes2 .add (fun a b => a + b) ∧ Completes2 .sub (fun a b => a - b) ∧
  Completes2 .and (fun a b => a &&& b) ∧ Completes2 .or (fun a b => a ||| b) ∧ Completes2 .xor (fun a b => a ^^^ b) ∧
  Completes2 .andn (fun a b => a &&& ~~~b) ∧ Completes2 .orn (fun a b => a ||| ~~~b) ∧ Completes2 .xnor (fun a b => ~~~(a ^^^ b)) ∧
  Completes2 .shl (fun a b => a <<< (b.toNat % 64)) ∧ Completes2 .shr (fun a b => a >>> (b.toNat % 64)) ∧
  Completes2 .sra (fun a b => a.sshiftRight (b.toNat % 64)) ∧
  Completes2 .rol (fun a b => a.rotateLeft (b.toNat % 64)) ∧ Completes2 .ror (fun a b => a.rotateRight (b.toNat % 64)) ∧
  Completes2 .mul (fun a b => a * b) ∧
  Completes2 .mulh (fun a b => BitVec.ofInt 64 (a.toInt * b.toInt / 2 ^ 64)) ∧
  Completes2 .mulhu (fun a b => BitVec.ofNat 64 (a.toNat * b.toNat / 2 ^ 64)) ∧
  Completes2 .mulhsu (fun a b => BitVec.ofInt 64 (a.toInt * b.toNat / 2 ^ 64)) ∧
  Completes2 .div (fun a b => if b = 0 then BitVec.allOnes 64 else a.sdiv b) ∧
  Completes2 .divu (fun a b => if b = 0 then BitVec.allOnes 64 else BitVec.ofNat 64 (a.toNat / b.toNat)) ∧
  Completes2 .rem (fun a b => if b = 0 then a else a - a.sdiv b * b) ∧
  Completes2 .remu (fun a b => if b = 0 then a else BitVec.ofNat 64 (a.toNat % b.toNat)) ∧
  Completes2 .min (fun a b => if a.toInt ≤ b.toInt then a else b) ∧ Completes2 .max (fun a b => if a.toInt ≤ b.toInt then b else a) ∧
  Completes2 .minu (fun a b => if a.toNat ≤ b.toNat then a else b) ∧ Completes2 .maxu (fun a b => if a.toNat ≤ b.toNat then b else a) ∧
  Completes2 .seq (fun a b => if a = b then 1 else 0) ∧ Completes2 .slt (fun a b => if a.toInt < b.toInt then 1 else 0) ∧
  Completes2 .sltu (fun a b => if a.toNat < b.toNat then 1 else 0) ∧
  (∀ sz : ExtSize, Completes1 (fun xd xa => .sext xd xa sz) (fun a => match sz with
    | .b => (a.setWidth 8).signExtend 64 | .h => (a.setWidth 16).signExtend 64 | .w => (a.setWidth 32).signExtend 64)) ∧
  (∀ sz : ExtSize, Completes1 (fun xd xa => .zext xd xa sz) (fun a => match sz with
    | .b => a &&& 0xFF | .h => a &&& 0xFFFF | .w => a &&& 0xFFFFFFFF)) ∧
  (∀ (s : State) (xd xa : BitVec 5), s.Runs →
    ∃ n z p r : W64,
      exec (.clz xd xa) s = .next (s.frameWord fun f => (f.wx xd { (f.rx xa) with val := n }).next) ∧
      exec (.ctz xd xa) s = .next (s.frameWord fun f => (f.wx xd { (f.rx xa) with val := z }).next) ∧
      exec (.popc xd xa) s = .next (s.frameWord fun f => (f.wx xd { (f.rx xa) with val := p }).next) ∧
      exec (.brev xd xa) s = .next (s.frameWord fun f => (f.wx xd { (f.rx xa) with val := r }).next) ∧
      n.toNat ≤ 64 ∧ (∀ i, i < n.toNat → ((s.thr s.cur).rx xa).val.getLsbD (63 - i) = false) ∧
      (n.toNat < 64 → ((s.thr s.cur).rx xa).val.getLsbD (63 - n.toNat) = true) ∧
      z.toNat ≤ 64 ∧ (∀ i, i < z.toNat → ((s.thr s.cur).rx xa).val.getLsbD i = false) ∧
      (z.toNat < 64 → ((s.thr s.cur).rx xa).val.getLsbD z.toNat = true) ∧
      p.toNat = ((List.range 64).filter fun i => ((s.thr s.cur).rx xa).val.getLsbD i).length ∧
      ∀ i, i < 64 → r.getLsbD i = ((s.thr s.cur).rx xa).val.getLsbD (63 - i))

/-- R239: every SC.I word completes with the result that the rule gives for its immediate, with its source's taint and saturation bit;
LIS loads its immediate sign-extended with empty taint, and LIHS shifts it in below xd, whose taint stays (R31). -/
def Obligations.ScalarImmediateResults : Prop :=
  (∀ i : BitVec 14, Completes1 (fun xd xa => .addi xd xa i) (fun a => a + i.signExtend 64)) ∧
  (∀ i : BitVec 14, Completes1 (fun xd xa => .muli xd xa i) (fun a => a * i.signExtend 64)) ∧
  (∀ i : BitVec 14, Completes1 (fun xd xa => .andi xd xa i) (fun a => a &&& i.setWidth 64)) ∧
  (∀ i : BitVec 14, Completes1 (fun xd xa => .ori xd xa i) (fun a => a ||| i.setWidth 64)) ∧
  (∀ i : BitVec 14, Completes1 (fun xd xa => .xori xd xa i) (fun a => a ^^^ i.setWidth 64)) ∧
  (∀ i : BitVec 6, Completes1 (fun xd xa => .shli xd xa i) (fun a => a <<< i.toNat)) ∧
  (∀ i : BitVec 6, Completes1 (fun xd xa => .shri xd xa i) (fun a => a >>> i.toNat)) ∧
  (∀ i : BitVec 6, Completes1 (fun xd xa => .srai xd xa i) (fun a => a.sshiftRight i.toNat)) ∧
  (∀ i : BitVec 14, Completes1 (fun xd xa => .slti xd xa i) (fun a => if a.toInt < i.toInt then 1 else 0)) ∧
  (∀ i : BitVec 14, Completes1 (fun xd xa => .sltiu xd xa i) (fun a => if a.toNat < (i.signExtend 64).toNat then 1 else 0)) ∧
  (∀ i : BitVec 19, Loads (fun xd => .lis xd i) (fun _ => i.signExtend 64)) ∧
  (∀ (i : BitVec 19) (s : State) (xd : BitVec 5), s.Runs → exec (.lihs xd i) s =
    .next (s.frameWord fun f => (f.wx xd { (f.rx xd) with val := (f.rx xd).val <<< 19 ||| i.setWidth 64 }).next))

/-- The frame of a word that changes only the register frame (R238): memory, every other thread, every context, every device register,
and every piece of the current thread but its frame stay as they are; what follows the word notes the tick and the PC and ends the
thread's wait, and no counter of a bank changes but those set to count completed words. R40: x0 reads zero with empty taint, and a write to it
is discarded; any other register written is read back, and no other register changes (the words of `ScalarRegisterResults`,
`ScalarImmediateResults` and the others write their results so); ADD, as one such word, keeps everything else, and all registers when its
destination is x0. -/
def Obligations.FrameWordsKeepTheRest : Prop :=
  (∀ (s : State) (g : Frame → Frame), s.Quiet →
    (s.frameWord g).hbm = s.hbm ∧ (s.frameWord g).host = s.host ∧ (s.frameWord g).staging = s.staging ∧
    (∀ k, k ≠ s.cur → (s.frameWord g).thr k = s.thr k) ∧
    (∀ c, (s.frameWord g).ctx c = s.ctx c) ∧ (s.frameWord g).funcs = s.funcs ∧ (s.frameWord g).pkg = s.pkg ∧
    (s.frameWord g).images = s.images ∧ (s.frameWord g).tick = s.tick ∧ (s.frameWord g).waiters = s.waiters ∧
    (s.frameWord g).rels = s.rels ∧ (s.frameWord g).tasks = s.tasks ∧ (s.frameWord g).outbox = s.outbox ∧
    (∀ b, ((s.frameWord g).banks.get b).events = (s.banks.get b).events ∧
      ∀ i, (∀ e ∈ (s.banks.get b).events, e.1 = i → e.2 ≠ 1) → ((s.frameWord g).banks.get b).values.get i = (s.banks.get b).values.get i) ∧
    (s.frameWord g).thr s.cur = { (s.thr s.cur) with
      live := g (s.thr s.cur).live, wait := default, idle := s.tick, resumePast := false, stepAt := none, early := [] }) ∧
  (∀ (f : Frame) (xd : BitVec 5) (r : XReg), f.rx 0 = default ∧ f.wx 0 r = f ∧ (∀ j, j ≠ xd → (f.wx xd r).rx j = f.rx j) ∧
    (xd ≠ 0 → (f.wx xd r).rx xd = r) ∧ f.wx xd r = { f with x := (f.wx xd r).x }) ∧
  (∀ (s t : State) (xd xa xb : BitVec 5), s.Quiet → exec (.add xd xa xb) s = .next t →
    (t.thr s.cur).rx 0 = { val := 0, taint := 0, sat := false } ∧
    (xd = 0 → ∀ j, (t.thr s.cur).rx j = (s.thr s.cur).rx j) ∧
    (xd ≠ 0 → ((t.thr s.cur).rx xd).val = ((s.thr s.cur).rx xa).val + ((s.thr s.cur).rx xb).val) ∧
    (∀ j, j ≠ xd → (t.thr s.cur).rx j = (s.thr s.cur).rx j) ∧
    (t.thr s.cur).live.f = (s.thr s.cur).live.f ∧ (t.thr s.cur).live.v = (s.thr s.cur).live.v ∧
    (t.thr s.cur).live.k = (s.thr s.cur).live.k ∧ (t.thr s.cur).live.vtype = (s.thr s.cur).live.vtype ∧
    (t.thr s.cur).live.vstat = (s.thr s.cur).live.vstat ∧ (t.thr s.cur).live.ctaint = (s.thr s.cur).live.ctaint ∧
    (t.thr s.cur).live.b = (s.thr s.cur).live.b ∧ (t.thr s.cur).trap = (s.thr s.cur).trap ∧
    (t.thr s.cur).live.gsel = (s.thr s.cur).live.gsel ∧ t.hbm = s.hbm ∧ t.host = s.host ∧ t.staging = s.staging ∧
    (t.thr s.cur).scratch = (s.thr s.cur).scratch)

/-- R241, R243: a conditional branch whose condition fails passes to the next word whatever its target; one whose condition holds and
whose target lies within the image passes to PC + off15; either way the taints and saturation bits of xa and xb join the control taint
(R173). One whose condition holds and whose target does not lie below TEXT_WORDS raises ILLEGAL with its own PC in TRAP_ADDR. R242, R243: JAL and JALR write the link PC + 1 with empty taint and pass control to their target within the image; JALR reads xa before
xd is written and adds xa's taint to the control taint. A target outside the image raises ILLEGAL at the word. -/
def Obligations.ControlTransfers : Prop :=
  (∀ (s : State) (xa xb : BitVec 5) (off : BitVec 15), s.Runs →
    let a := (s.thr s.cur).rx xa
    let b := (s.thr s.cur).rx xb
    let target : Int := (s.thr s.cur).live.pc + off.toInt
    let words : Int := (s.text (s.thr s.cur)).length
    let tainted := fun (f : Frame) => { f with ctaint := f.ctaint ||| (a.taint ||| b.taint), csat := f.csat || (a.sat || b.sat) }
    ∀ p ∈ [(Instr.beq xa xb off, decide (a.val = b.val)), (.bne xa xb off, decide (a.val ≠ b.val)),
           (.blt xa xb off, decide (a.val.toInt < b.val.toInt)), (.bge xa xb off, decide (b.val.toInt ≤ a.val.toInt)),
           (.bltu xa xb off, decide (a.val.toNat < b.val.toNat)), (.bgeu xa xb off, decide (b.val.toNat ≤ a.val.toNat))],
      (p.2 = false → exec p.1 s = .next (s.frameWord fun f => (tainted f).next)) ∧
      (p.2 = true → 0 ≤ target → target < words → exec p.1 s = .next (s.frameWord fun f => (tainted f).goto target.toNat)) ∧
      (p.2 = true → (target < 0 ∨ words ≤ target) →
        exec p.1 s = .next (s.takeTrap s.cur ((s.thr s.cur).sTrap (mkTrap 1 (s.thr s.cur).live.pc 0))))) ∧
  (∀ (s : State) (xd xa : BitVec 5) (o : BitVec 20) (off : BitVec 15), s.Runs →
    let a := (s.thr s.cur).rx xa
    let link : XReg := { val := BitVec.ofNat 64 ((s.thr s.cur).live.pc + 1), taint := 0, sat := false }
    let direct : Int := (s.thr s.cur).live.pc + o.toInt
    let indirect : Nat := (a.val + off.signExtend 64).toNat
    let words : Nat := (s.text (s.thr s.cur)).length
    let ill := s.takeTrap s.cur ((s.thr s.cur).sTrap (mkTrap 1 (s.thr s.cur).live.pc 0))
    (0 ≤ direct → direct < words → exec (.jal xd o) s = .next (s.frameWord fun f => (f.wx xd link).goto direct.toNat)) ∧
    ((direct < 0 ∨ (words : Int) ≤ direct) → exec (.jal xd o) s = .next ill) ∧
    (indirect < words → exec (.jalr xd xa off) s = .next (s.frameWord fun f =>
      ({ f with ctaint := f.ctaint ||| a.taint, csat := f.csat || a.sat }.wx xd link).goto indirect)) ∧
    (words ≤ indirect → exec (.jalr xd xa off) s = .next ill))

/-- R255, R254, R245, R250: MOVB, TQRY, GQRY and FREAD of a local flag complete with a value of empty taint in xd: the bind register, the
taint mask with the saturation bit at 16, the state of the group, the flag; TCLR clears the taint of a register, TCLRC the control taint,
and TCLRV that of every entry of a vector register. -/
def Obligations.RegisterReadsAndTaintWords : Prop :=
  (∀ n : BitVec 4, Loads (fun xd => .movb xd n) fun s => (s.thr s.cur).live.b.get n.toNat) ∧
  (∀ xa : BitVec 5, Loads (fun xd => .tqry xd xa) fun s =>
    BitVec.ofNat 64 (((s.thr s.cur).rx xa).taint.toNat + if ((s.thr s.cur).rx xa).sat then 65536 else 0)) ∧
  (∀ g : BitVec 8, Loads (fun xd => .gqry xd g) fun s =>
    let x := (s.ctx (s.thr s.cur).cid).groups.get g.toNat
    BitVec.ofNat 64 (x.members.length + (if x.members.has (s.thr s.cur).num then 2 ^ 17 else 0) +
      (if x.members.any fun m => m.2 then 2 ^ 18 else 0) + x.gen.toNat % 2 ^ 32 * 2 ^ 32)) ∧
  (∀ f : BitVec 8, 0 < f.toNat → f.toNat < 192 → Loads (fun xd => .fread f xd) fun s =>
    ((s.thr s.cur).live.f.get f.toNat).setWidth 64) ∧
  Loads (fun xd => .fread 0 xd) (fun _ => 0) ∧
  (∀ (s : State) (x : BitVec 5), s.Runs → exec (.tclr x) s =
    .next (s.frameWord fun f => (f.wx x { val := (f.rx x).val, taint := 0, sat := false }).next)) ∧
  (∀ s : State, s.Runs → exec .tclrc s = .next (s.frameWord fun f => { f with ctaint := 0, csat := false }.next)) ∧
  ∀ (s : State) (v : BitVec 6), s.Quiet → ∃ t, exec (.tclrv v) s = .next t ∧
    ((t.thr s.cur).live.v.get v.toNat).fifo =
      ((s.thr s.cur).live.v.get v.toNat).fifo.map (fun e => { e with taint := 0, sat := false, after := [] }) ∧
    (∀ w, w ≠ v.toNat → (t.thr s.cur).live.v.get w = (s.thr s.cur).live.v.get w) ∧
    (t.thr s.cur).live.x = (s.thr s.cur).live.x ∧ (t.thr s.cur).live.pc = (s.thr s.cur).live.next.pc ∧ t.hbm = s.hbm

/-- R248, R250: SETF adds to a local flag and saturates; CLRF clears it; WAITF and WAITFX pass at once and subtract their count when it is
there, WAITFX taking it from x[31:0]; otherwise they wait, and the flag keeps its value. No other flag, register or byte of HBM changes. R41, R244: f192 to f255 are the flags of the
group selected, and the same words, with FREAD, act on them so. f0 is no flag: SETF and CLRF of it change no flag and pass, WAITF of it passes whatever its count; a word that names f192 to f255
while no group is selected raises ILLEGAL. -/
def Obligations.FlagWords : Prop :=
  (∀ (s : State) (f : BitVec 8) (n : BitVec 9) (x : BitVec 5), s.Settled → s.LogOff → 0 < f.toNat → f.toNat < 192 →
    (∀ w ∈ s.waiters, w.flag ≠ s.ownFlag f ∧ w.key ≠ s.cur) →
    let v := (s.thr s.cur).live.f.get f.toNat
    let c := ((s.thr s.cur).rx x).val.toNat % 2 ^ 32
    let same := fun (t : State) => (t.thr s.cur).live.x = (s.thr s.cur).live.x ∧ t.hbm = s.hbm ∧
      ∀ g, g ≠ f.toNat → (t.thr s.cur).live.f.get g = (s.thr s.cur).live.f.get g
    let passes := fun (t : State) (r : W32) => (t.thr s.cur).live.f.get f.toNat = r ∧
      (t.thr s.cur).live.pc = (s.thr s.cur).live.next.pc ∧ (t.thr s.cur).wait = default ∧ same t
    let waits := fun (t : State) => (t.thr s.cur).live = (s.thr s.cur).live ∧ (t.thr s.cur).wait.kind = .flag ∧ t.hbm = s.hbm
    (∃ t, exec (.setf f n) s = .next t ∧ passes t (BitVec.ofNat 32 (min (v.toNat + n.toNat) 0xFFFFFFFF))) ∧
    (∃ t, exec (.clrf f) s = .next t ∧ passes t 0) ∧
    (n.toNat ≤ v.toNat → ∃ t, exec (.waitf f n) s = .next t ∧ passes t (v - BitVec.ofNat 32 n.toNat)) ∧
    (c ≤ v.toNat → ∃ t, exec (.waitfx f x) s = .next t ∧ passes t (v - BitVec.ofNat 32 c)) ∧
    (v.toNat < n.toNat → ∃ t, exec (.waitf f n) s = .next t ∧ waits t) ∧
    (v.toNat < c → ∃ t, exec (.waitfx f x) s = .next t ∧ waits t)) ∧
  (∀ (s : State) (f : BitVec 8) (n : BitVec 9) (x xd : BitVec 5) (g : BitVec 8), s.Settled → s.LogOff → 192 ≤ f.toNat →
    (s.thr s.cur).live.gsel = some g →
    let cid := (s.thr s.cur).cid
    (∀ w ∈ s.waiters, w.flag ≠ ⟨true, cid * 256 + g.toNat, f.toNat - 192⟩ ∧ w.key ≠ s.cur) →
    let group := fun (t : State) => (t.ctx cid).groups.get g.toNat
    let v := (group s).flags.get (f.toNat - 192)
    let c := ((s.thr s.cur).rx x).val.toNat % 2 ^ 32
    let same := fun (t : State) => (t.thr s.cur).live.f = (s.thr s.cur).live.f ∧ t.hbm = s.hbm ∧ (group t).members = (group s).members ∧
      (group t).gen = (group s).gen ∧ ∀ j, j ≠ f.toNat - 192 → (group t).flags.get j = (group s).flags.get j
    let passes := fun (t : State) (r : W32) => (group t).flags.get (f.toNat - 192) = r ∧ (t.thr s.cur).live.x = (s.thr s.cur).live.x ∧
      (t.thr s.cur).live.pc = (s.thr s.cur).live.next.pc ∧ (t.thr s.cur).wait = default ∧ same t
    let waits := fun (t : State) => (t.thr s.cur).live = (s.thr s.cur).live ∧ (t.thr s.cur).wait.kind = .flag ∧ (group t).flags = (group s).flags
    (∃ t, exec (.setf f n) s = .next t ∧ passes t (BitVec.ofNat 32 (min (v.toNat + n.toNat) 0xFFFFFFFF))) ∧
    (∃ t, exec (.clrf f) s = .next t ∧ passes t 0) ∧
    (n.toNat ≤ v.toNat → ∃ t, exec (.waitf f n) s = .next t ∧ passes t (v - BitVec.ofNat 32 n.toNat)) ∧
    (c ≤ v.toNat → ∃ t, exec (.waitfx f x) s = .next t ∧ passes t (v - BitVec.ofNat 32 c)) ∧
    (v.toNat < n.toNat → ∃ t, exec (.waitf f n) s = .next t ∧ waits t) ∧
    (v.toNat < c → ∃ t, exec (.waitfx f x) s = .next t ∧ waits t) ∧
    exec (.fread f xd) s = .next (s.frameWord fun fr => (fr.wx xd { val := v.setWidth 64, taint := 0, sat := false }).next)) ∧
  (∀ (s : State) (f : BitVec 8) (n : BitVec 9) (x : BitVec 5), s.Settled → s.LogOff →
    (∀ i ∈ [Instr.setf 0 n, .clrf 0, .waitf 0 n, .waitfx 0 x], ∃ t, exec i s = .next t ∧
      (t.thr s.cur).live = (s.thr s.cur).live.next ∧ ∀ g, (t.thr s.cur).live.f.get g = (s.thr s.cur).live.f.get g) ∧
    (192 ≤ f.toNat → (s.thr s.cur).live.gsel = none → ∀ i ∈ [Instr.setf f n, .clrf f, .waitf f n, .fread f x],
      exec i s = .next (s.takeTrap s.cur ((s.thr s.cur).sTrap (mkTrap 1 (s.thr s.cur).live.pc 0)))))

/-- R245: JOIN makes the thread a member that has not arrived, and is ILLEGAL for a member; LEAVE ends the membership, deselects the
group, and completes the generation when every member that is left has arrived; the group of its last member is empty again; GSEL selects a group of the thread, or none, and is ILLEGAL for another; no register and no byte of HBM changes. R246: the last member of a group to arrive completes its generation: BAR passes, the generation is one higher and no member has arrived;
while another member has not arrived BAR waits, and the thread counts as arrived; BAR in a group the thread is no member of is ILLEGAL. -/
def Obligations.GroupsAndBarriers : Prop :=
  (∀ (s : State) (g : BitVec 8), s.Quiet →
    let t := s.thr s.cur
    let gr := (s.ctx t.cid).groups.get g.toNat
    let ill := s.takeTrap s.cur (t.sTrap (mkTrap 1 t.live.pc 0))
    let same := fun (u : State) => (u.thr s.cur).live.x = t.live.x ∧ (u.thr s.cur).live.pc = t.live.next.pc ∧ u.hbm = s.hbm
    (gr.members.has t.num = false → ∃ u, exec (.join g) s = .next u ∧ same u ∧ (u.thr s.cur).live.gsel = t.live.gsel ∧
      ((u.ctx t.cid).groups.get g.toNat).members.get t.num = false ∧ ((u.ctx t.cid).groups.get g.toNat).members.has t.num = true) ∧
    (gr.members.has t.num = true → exec (.join g) s = .next ill) ∧
    (gr.members.has t.num = true → ∃ u, exec (.leave g) s = .next u ∧ same u ∧
      (u.thr s.cur).live.gsel = if t.live.gsel = some g then none else t.live.gsel) ∧
    (gr.members = [(t.num, false)] → ∃ u, exec (.leave g) s = .next u ∧ (u.ctx t.cid).groups.get g.toNat = default) ∧
    (∀ m, gr.members.Rising → gr.members.has t.num = true → m ≠ t.num → gr.members.has m = true → ∃ u, exec (.leave g) s = .next u ∧
      let gu := (u.ctx t.cid).groups.get g.toNat
      gu.members.has t.num = false ∧ (∀ k, k ≠ t.num → gu.members.has k = gr.members.has k) ∧ gu.flags = gr.flags ∧
      ((∀ k, k ≠ t.num → gr.members.has k = true → gr.members.get k = true) → gu.gen = gr.gen + 1 ∧ ∀ k, gu.members.get k = false) ∧
      (gr.members.get m = false → gu.gen = gr.gen ∧ ∀ k, k ≠ t.num → gu.members.get k = gr.members.get k)) ∧
    (gr.members.has t.num = false → exec (.leave g) s = .next ill) ∧
    (gr.members.has t.num = true → ∃ u, exec (.gsel (g.setWidth 10)) s = .next u ∧ same u ∧ (u.thr s.cur).live.gsel = some g) ∧
    (gr.members.has t.num = false → exec (.gsel (g.setWidth 10)) s = .next ill) ∧
    (∃ u, exec (.gsel 0x3FF) s = .next u ∧ same u ∧ (u.thr s.cur).live.gsel = none)) ∧
  (∀ (s : State) (g : BitVec 8), s.Settled → s.LogOff → (s.thr s.cur).wait.kind = .running →
    let t := s.thr s.cur
    let gr := (s.ctx t.cid).groups.get g.toNat
    (gr.members.Rising → gr.members.has t.num = true → (∀ m, m ≠ t.num → gr.members.has m = true → gr.members.get m = true) →
      gr.gen.toNat < 2 ^ 64 - 1 → ∃ u, exec (.bar g) s = .next u ∧
      ((u.ctx t.cid).groups.get g.toNat).gen = gr.gen + 1 ∧
      (∀ m, ((u.ctx t.cid).groups.get g.toNat).members.has m = gr.members.has m ∧ ((u.ctx t.cid).groups.get g.toNat).members.get m = false) ∧
      (u.thr s.cur).live.pc = t.live.next.pc ∧ (u.thr s.cur).live.x = t.live.x) ∧
    (∀ m, m ≠ t.num → gr.members.has t.num = true → (m, false) ∈ gr.members → ∃ u, exec (.bar g) s = .next u ∧
      ((u.ctx t.cid).groups.get g.toNat).gen = gr.gen ∧ ((u.ctx t.cid).groups.get g.toNat).members.get t.num = true ∧
      (u.thr s.cur).live = t.live ∧ (u.thr s.cur).wait.kind = .bar gr.gen) ∧
    (gr.members.has t.num = false → exec (.bar g) s = .next (s.takeTrap s.cur (t.sTrap (mkTrap 1 t.live.pc 0)))))

/-- R232, R231: outside the kernel phase KNEXT is ILLEGAL; in it, where no commit is due, ITER rises by one and control passes to KER_PC
while ITER is below TRIP, else the epilogue begins at EPI_PC. No register and no byte of HBM changes. R236, R380: CKPT, with every entry completed, every ticket bound and no dependency left, saves the frame as the word leaves it, with
taints, saturation bits and control taint clear, commits the version and begins a new one; a later restart begins after the word. -/
def Obligations.KernelIterationsAndCommits : Prop :=
  (∀ s : State, s.Settled →
    let t := s.thr s.cur
    let iter := t.live.iter + 1
    (t.live.phase ≠ .kernel → exec .knext s = .next (s.takeTrap s.cur (t.sTrap (mkTrap 1 t.live.pc 0)))) ∧
    (t.live.phase = .kernel → t.stopReq = false → t.preemptReq = none →
      (t.live.task.commit = 0 ∨ iter.toNat % t.live.task.commit.toNat ≠ 0) → t.curVer.use ≤ s.budgetOf t.cid t.curVer →
      ∃ u, exec .knext s = .next u ∧ u.hbm = s.hbm ∧ (u.thr s.cur).committed = t.committed ∧
        (u.thr s.cur).live = if iter.toNat < t.live.task.trip.toNat then { t.live with iter := iter, pc := t.live.task.kerPc }
          else { t.live with iter := iter, phase := .epilogue, pc := t.live.task.epiPc })) ∧
  (∀ (s : State) (v : Version), s.Settled → (s.thr s.cur).versions = [v] →
    ∃ u, exec .ckpt s = .next u ∧ u.hbm = s.hbm ∧
      (u.thr s.cur).live = (s.thr s.cur).live.next ∧ (u.thr s.cur).committed = (s.thr s.cur).live.next.clean ∧
      (u.thr s.cur).committed.ctaint = 0 ∧ (u.thr s.cur).committed.csat = false ∧ (u.thr s.cur).committed.pc = (s.thr s.cur).live.next.pc ∧
      ∃ w, (u.thr s.cur).versions = [w] ∧ w.id < 1048576 ∧ w.undo = [] ∧ w.published = false)

/-- R233, R234, R226: a TEND whose record has NEXT 0, and a LOOP of a register that holds 0, retire the thread: it exists no more, its
version's writes stay in HBM, and its number is in quarantine from this tick on. R234, R231, R55: a TEND or LOOP with another successor, once the queues have drained and the successor's record has been read and
checked, starts its task: ITER is 0, the record's fields are in force, and the prologue begins at PRO_PC. A record that cannot be read or
fails its checks is a trap at the word, with the outgoing task complete. R227, R225, R54: SPAWN makes one thread without a rank, or a gang of n with
the ranks 0 to n - 1, each of a number that was free, waiting for a slot, with the record's task and B15 as the value of xb; one request for slots is
placed for them, and control passes on. Above the context's limit it raises PROT. -/
def Obligations.TasksAndThreadsBegin : Prop :=
  ((∀ (s : State) (v : Version) (xa : BitVec 5), s.Settled → (s.thr s.cur).versions = [v] → v.deps = [] →
    (s.thr s.cur).live.bnd = none → (s.ctx (s.thr s.cur).cid).groups = [] →
    let retired := fun (u : State) => (u.thr s.cur).alive = false ∧ u.hbm = s.hbm ∧ u.host = s.host ∧
      (u.ctx (s.thr s.cur).cid).quarantine.has (s.thr s.cur).num = true ∧
      (u.ctx (s.thr s.cur).cid).quarantine.get (s.thr s.cur).num = s.tick
    ((s.thr s.cur).live.task.next = 0 → ∃ u, exec .tend s = .next u ∧ retired u) ∧
    (((s.thr s.cur).rx xa).val = 0 → ∃ u, exec (.loop xa) s = .next u ∧ retired u)) ∧
  (∀ (s a b : State) (succ : W64) (r : Rec), s.Settled → (s.thr s.cur).live.bnd = none → succ ≠ 0 →
    boundaryA s.cur succ s = .ok ((), a) → a.cur = s.cur → a.Quiet → (a.thr s.cur).stopReq = false → (a.thr s.cur).preemptReq = none →
    readRecord s.cur succ a = .ok (r, b) → b.successorFits s.cur r.slot = true →
    ∀ (xa : BitVec 5), ∀ i ∈ [(Instr.tend, (s.thr s.cur).live.task.next), (.loop xa, ((s.thr s.cur).rx xa).val)],
      i.2 = succ → ∃ u, exec i.1 s = .next u ∧
        ((b.thr s.cur).hits = [] → (b.thr s.cur).stepOn = false → (u.thr s.cur).live = (b.thr s.cur).live.startTask r ∧
          (u.thr s.cur).live.iter = 0 ∧ (u.thr s.cur).live.task = r ∧ (u.thr s.cur).live.bnd = none ∧ u.hbm = b.hbm)) ∧
  (∀ (s a : State) (succ : W64) (v : Version) (tr : Trap), s.Settled → (s.thr s.cur).live.bnd = none → succ ≠ 0 →
    (s.thr s.cur).versions = [v] → boundaryA s.cur succ s = .ok ((), a) → a.cur = s.cur → a.Quiet → (a.thr s.cur).stopReq = false →
    (a.thr s.cur).preemptReq = none → readRecord s.cur succ a = .error (.trap tr) →
    ∀ (xa : BitVec 5), ∀ i ∈ [(Instr.tend, (s.thr s.cur).live.task.next), (.loop xa, ((s.thr s.cur).rx xa).val)], i.2 = succ →
      exec i.1 s = .next (a.takeTrap s.cur ((a.thr s.cur).sTrap tr)) ∧ (a.thr s.cur).live.bnd = some succ ∧
        (a.thr s.cur).taskNo = (s.thr s.cur).taskNo + 1)) ∧
  (∀ (s a : State) (r : Rec) (xa xb : BitVec 5) (n : BitVec 10), s.Settled →
    readRecord s.cur ((s.thr s.cur).rx xa).val s = .ok (r, a) →
    let t := s.thr s.cur
    let size := if n = 0 then 1 else n.toNat
    let cid := (a.thr s.cur).cid
    ((a.ctx cid).threadLimit < a.liveThreads cid + size → t.cid = cid →
      exec (.spawn xa xb n) s = .next (s.takeTrap s.cur (t.sTrap (mkTrap 5 (t.rx xa).val.toNat 1)))) ∧
    (a.Quiet → a.cur = s.cur → t.cid = cid → a.liveThreads cid + size ≤ (a.ctx cid).threadLimit →
      ((a.thr s.cur).ver t.curVer.id).deps = [] → (∀ l ∈ (a.thr s.cur).lines, l.2.dirty = 0) → a.threads.Rising →
      a.threads.length + (a.ctx cid).quarantine.length + size ≤ 65536 → ∃ u ks, exec (.spawn xa xb n) s = .next u ∧
      ks.length = size ∧ ks.Nodup ∧ (∃ p, u.places = a.places ++ [p] ∧ p.keys = ks) ∧
      (u.thr s.cur).live.pc = (a.thr s.cur).live.next.pc ∧ (u.thr s.cur).live.x = (a.thr s.cur).live.x ∧ u.hbm = a.hbm ∧
      ∀ i, i < size →
        let k := ks.getD i 0
        let w := u.thr k
        k / 65536 = cid ∧ (a.thr k).alive = false ∧ (a.ctx cid).quarantine.has (k % 65536) = false ∧
        w.alive = true ∧ w.run = .waiting ∧ w.cid = cid ∧ w.num = k % 65536 ∧ w.rank = (if n = 0 then none else some i) ∧
        w.gangSize = (if n = 0 then 0 else size) ∧ w.live.task = r ∧ w.live.pc = r.proPc ∧ w.live.b.get 15 = (t.rx xb).val))

/-- R253: YIELD with no placement request only passes to the next word. R22, R198: PREF passes to the next word, waits for nothing and raises
nothing; unless it asks for a line of a remote window for the remote line cache, it does nothing else. R252, R155, R199: with nothing of the thread outstanding WAITC of any counts and FENCE of any masks pass, and so does RCM of an empty
range; a WAITC whose counts are exceeded waits. No register, flag or byte of HBM changes. R199: RCM of bytes of one remote window leaves no line of the
range cached where it invalidates, dirty or not, and every line where it writes back lines none of which is dirty; bytes outside one remote window
raise PROT with the address. -/
def Obligations.WaitsFencesAndHintsPass : Prop :=
  (∀ (s : State) (p : PrefTarget) (xa : BitVec 5) (imm : BitVec 13), s.Runs →
    (s.places = [] → exec .yield s = .next (s.frameWord Frame.next)) ∧
    ((p ≠ .rlc ∨ s.prefLine s.cur (((s.thr s.cur).rx xa).val + imm.signExtend 64).toNat = none) →
      exec (.pref p xa imm) s = .next (s.frameWord Frame.next)) ∧
    (s.Quiet → ∃ u, exec (.pref p xa imm) s = .next u ∧ (u.thr s.cur).live = (s.thr s.cur).live.next ∧ u.hbm = s.hbm)) ∧
  (∀ (s : State) (l st c t : BitVec 5) (ma mb : BitVec 8) (sc : Scope) (op : RcmOp) (xa xb : BitVec 5),
    (s.Settled → ∀ i ∈ [Instr.waitc l st c t, .fence ma mb sc], ∃ u, exec i s = .next u ∧
      (u.thr s.cur).live = (s.thr s.cur).live.next ∧ u.hbm = s.hbm ∧ (u.thr s.cur).fences = (s.thr s.cur).fences) ∧
    (s.Settled → ((s.thr s.cur).rx xb).val = 0 → exec (.rcm op xb xa) s = .next (s.frameWord Frame.next)) ∧
    (s.Runs → l ≠ 31 → l.toNat < ((s.thr s.cur).queue .vl).entries.length →
      ((s.thr s.cur).queue .vl).entries.Pairwise (fun a b => a.ser < b.ser) →
      exec (.waitc l st c t) s = .next (s.wordWaits s.cur .waitc))) ∧
  (∀ (s : State) (op : RcmOp) (xa xb : BitVec 5), s.Quiet → (s.thr s.cur).liveTickets = 0#16 → ((s.thr s.cur).rx xb).val ≠ 0 →
    let t := s.thr s.cur
    let a := (t.rx xa).val.toNat
    let n := (t.rx xb).val.toNat
    let stops := s.takeTrap s.cur (t.sTrap (mkTrap 5 a 0))
    let last := (a + n - 1) % 2 ^ 64
    (((∀ w o, classify s s.cur a ≠ .ok (some (.remote w, o))) ∨ ∀ w o, classify s s.cur last ≠ .ok (some (.remote w, o))) →
      exec (.rcm op xb xa) s = .next stops) ∧
    ∀ w w' o o', classify s s.cur a = .ok (some (.remote w, o)) → classify s s.cur last = .ok (some (.remote w', o')) →
      let inRange := fun (k : Nat) => decide (k / 32768 = w ∧ o / 64 ≤ k % 32768 ∧ k % 32768 ≤ o' / 64)
      let clean := ∀ l ∈ t.lines, inRange l.1 = true → l.2.dirty = 0
      let answered := ∀ p ∈ s.outbox, p.key = s.cur → p.win ≠ w
      let passes := fun (u : State) (l : NMap RLine) => (u.thr s.cur).lines = l ∧ (u.thr s.cur).live = t.live.next ∧ u.outbox = s.outbox ∧
        u.hbm = s.hbm ∧ (u.thr s.cur).scratch = t.scratch
      ((w ≠ w' ∨ o' < o ∨ 2097152 < n) → exec (.rcm op xb xa) s = .next stops) ∧
      (w = w' → o ≤ o' → n ≤ 2097152 →
        (∃ u, exec (.rcm .inv xb xa) s = .next u ∧ passes u (t.lines.filter fun l => !inRange l.1)) ∧
        (clean → answered → (∃ u, exec (.rcm .wbinv xb xa) s = .next u ∧ passes u (t.lines.filter fun l => !inRange l.1)) ∧
          ∃ u, exec (.rcm .wb xb xa) s = .next u ∧ passes u t.lines)))

/-- R192, R168, R167: LD and LDU, where the access of their bytes is performed and answers them, write the sign- or zero-extended value to xd
with the taint of the address and a free ticket, which becomes live (that it stays live after the access has been performed, until a word settles
it, is assumption log entry 10); control passes on. R192: ST, where the access of its bytes is performed, completes: the low bytes of xs are written little-endian, no register changes,
and control passes on. -/
def Obligations.PlainAccessesComplete : Prop :=
  (∀ (s a : State) (l : List Byte) (k : Nat) (sz : Size) (xd xa : BitVec 5) (imm : BitVec 13), s.Settled →
    let x := (s.thr s.cur).rx xa
    let n := sizeBytes sz
    readSpans (smReq s s.cur false 0) [((x.val + imm.signExtend 64).toNat, n)] s = .ok (l, a) → (a.thr s.cur).freeTicket = some k →
    (a.thr s.cur).hits = [] →
    ∀ p ∈ [(Instr.ld sz xd xa imm, sextBytes n (leNat l % 2 ^ (8 * n))), (.ldu sz xd xa imm, BitVec.ofNat 64 (leNat l % 2 ^ (8 * n)))],
      ∃ u, exec p.1 s = .next u ∧
        (u.thr s.cur).live =
          ((a.thr s.cur).live.wx xd { val := p.2, taint := ((a.thr s.cur).rx xa).taint ||| 1#16 <<< k, sat := x.sat }).next ∧
        ((u.thr s.cur).tickets.get k).live = true ∧ ((u.thr s.cur).tickets.get k).sq = true ∧
        (∀ j, j ≠ k → (u.thr s.cur).tickets.get j = (a.thr s.cur).tickets.get j) ∧ a.SameMem u ∧
        ∀ c, c ≠ s.cur → u.thr c = a.thr c) ∧
  (∀ (s a : State) (sz : Size) (xs xa : BitVec 5) (imm : BitVec 13), s.Settled →
    let ea := (((s.thr s.cur).rx xa).val + imm.signExtend 64).toNat
    writeSpans (smReq s s.cur false 0) [(ea, sizeBytes sz)] (natLE (sizeBytes sz) ((s.thr s.cur).rx xs).val.toNat) s = .ok ((), a) →
    (a.thr s.cur).hits = [] → ∃ u, exec (.st sz xs xa imm) s = .next u ∧ (u.thr s.cur).live = (a.thr s.cur).live.next ∧
      (u.thr s.cur).tickets = (a.thr s.cur).tickets ∧ u.hbm = a.hbm ∧ u.host = a.host ∧ u.staging = a.staging ∧
      (u.thr s.cur).scratch = (a.thr s.cur).scratch ∧ ∀ c, c ≠ s.cur → u.thr c = a.thr c)

/-- R16, R188, R192: an LDU from the thread's own scratch, wherever its bytes may be read, loads the bytes that the scratch holds there,
little-endian; the scratch, HBM and host memory keep every byte and tag. R192, R378: an ST to the thread's own scratch writes the low bytes of xs there, little-endian, and every other byte of the scratch, of
HBM, of the staging memory and of host memory keeps its value; no register changes. -/
def Obligations.ScratchAccessesMoveBytes : Prop :=
  (∀ (s : State) (off : Nat) (sz : Size) (xd xa : BitVec 5), s.Settled → s.OwnScratch off (sizeBytes sz) →
    ((s.thr s.cur).rx xa).val = scratchVa off → (s.thr s.cur).tickets = [] → xd ≠ 0 → ∃ t, exec (.ldu sz xd xa 0) s = .next t ∧
      ((t.thr s.cur).rx xd).val = BitVec.ofNat 64 ((s.thr s.cur).scratch.readLE off (sizeBytes sz)) ∧
      (∀ j, j ≠ xd → (t.thr s.cur).rx j = (s.thr s.cur).rx j) ∧ (t.thr s.cur).scratch = (s.thr s.cur).scratch ∧
      (t.thr s.cur).live.f = (s.thr s.cur).live.f ∧ (t.thr s.cur).live.vtype = (s.thr s.cur).live.vtype ∧
      t.hbm = s.hbm ∧ t.host = s.host ∧ t.staging = s.staging ∧ (t.thr s.cur).live.pc = (s.thr s.cur).live.next.pc) ∧
  (∀ (s : State) (off : Nat) (sz : Size) (xs xa : BitVec 5), s.Settled → s.OwnScratch off (sizeBytes sz) → s.MayWrite 128 →
    ((s.thr s.cur).rx xa).val = scratchVa off → ∃ t, exec (.st sz xs xa 0) s = .next t ∧
      (∀ i, i < sizeBytes sz → (t.thr s.cur).scratch.byte (off + i) = BitVec.ofNat 8 (((s.thr s.cur).rx xs).val.toNat / 2 ^ (8 * i))) ∧
      (∀ a, a < off ∨ off + sizeBytes sz ≤ a → (t.thr s.cur).scratch.byte a = (s.thr s.cur).scratch.byte a) ∧
      (∀ j, (t.thr s.cur).rx j = (s.thr s.cur).rx j) ∧ t.hbm = s.hbm ∧ t.host = s.host ∧ t.staging = s.staging ∧
      (t.thr s.cur).scratch.wf = true ∧ (t.thr s.cur).live.pc = (s.thr s.cur).live.next.pc ∧
      (t.thr s.cur).live.f = (s.thr s.cur).live.f ∧ (t.thr s.cur).live.ctaint = (s.thr s.cur).live.ctaint)

/-- R193 to R195: marked accesses of the own scratch at thread, core or cluster scope: LDS loads, STS stores, an atomic or a CAS returns the
old value sign-extended and writes what its operation makes of it; a CAS whose comparison fails writes nothing. R193, R194: a marked access whose address is no multiple of its size raises ALIGN at the word, with the address, and one of the own
scratch at a scope wider than cluster raises SCOPE; nothing is written. -/
def Obligations.MarkedScratchAccesses : Prop :=
  (∀ (s : State) (off : Nat) (sz : Size) (xd xa xb : BitVec 5) (sc : Scope) (o : Order) (op : AOp), s.Settled →
    s.OwnScratch off (sizeBytes sz) → s.MayWrite 128 → sc.code ≤ 3 → off % sizeBytes sz = 0 →
    ((s.thr s.cur).rx xa).val = scratchVa off → (s.thr s.cur).tickets = [] → xd ≠ 0 →
    let t := s.thr s.cur
    let n := sizeBytes sz
    let old := t.scratch.readLE off n
    let m := 2 ^ (8 * n)
    let same := fun (u : State) => u.hbm = s.hbm ∧ u.host = s.host ∧ u.staging = s.staging ∧ (u.thr s.cur).live.pc = t.live.next.pc ∧
      ∀ j, j ≠ xd → (u.thr s.cur).rx j = t.rx j
    let holds := fun (u : State) (v : Nat) => (u.thr s.cur).scratch.readLE off n = v ∧
      ∀ a, a < off ∨ off + n ≤ a → (u.thr s.cur).scratch.byte a = t.scratch.byte a
    (∃ u, exec (.lds sz xd xa sc o) s = .next u ∧ same u ∧ holds u old ∧ ((u.thr s.cur).rx xd).val = BitVec.ofNat 64 old) ∧
    (∃ u, exec (.sts sz xb xa sc o) s = .next u ∧ same u ∧ holds u ((t.rx xb).val.toNat % m)) ∧
    (sz = .w → ∃ u, exec (.atomw xd xa xb op sc o) s = .next u ∧ same u ∧ holds u (atomOp op 4 old ((t.rx xb).val.toNat % m)) ∧
      ((u.thr s.cur).rx xd).val = sextBytes 4 old) ∧
    (sz = .d → ∃ u, exec (.atomd xd xa xb op sc o) s = .next u ∧ same u ∧ holds u (atomOp op 8 old ((t.rx xb).val.toNat % m)) ∧
      ((u.thr s.cur).rx xd).val = sextBytes 8 old) ∧
    (sz = .w → ∃ u, exec (.casw xd xa xb sc o) s = .next u ∧ same u ∧ ((u.thr s.cur).rx xd).val = sextBytes 4 old ∧
      holds u (if old = (t.rx xd).val.toNat % m then (t.rx xb).val.toNat % m else old)) ∧
    (sz = .d → ∃ u, exec (.casd xd xa xb sc o) s = .next u ∧ same u ∧ ((u.thr s.cur).rx xd).val = sextBytes 8 old ∧
      holds u (if old = (t.rx xd).val.toNat % m then (t.rx xb).val.toNat % m else old))) ∧
  (∀ (s : State) (sz : Size) (xd xa xb : BitVec 5) (sc : Scope) (o : Order) (op : AOp), s.Settled →
    let t := s.thr s.cur
    let ea := (t.rx xa).val.toNat
    (ea % sizeBytes sz ≠ 0 → ∀ i ∈ [Instr.lds sz xd xa sc o, .sts sz xb xa sc o],
      exec i s = .next (s.takeTrap s.cur (t.sTrap (mkTrap 3 ea 0)))) ∧
    (ea % 4 ≠ 0 → ∀ i ∈ [Instr.atomw xd xa xb op sc o, .casw xd xa xb sc o], exec i s = .next (s.takeTrap s.cur (t.sTrap (mkTrap 3 ea 0)))) ∧
    (ea % 8 ≠ 0 → ∀ i ∈ [Instr.atomd xd xa xb op sc o, .casd xd xa xb sc o], exec i s = .next (s.takeTrap s.cur (t.sTrap (mkTrap 3 ea 0)))) ∧
    (∀ off, s.OwnScratch off (sizeBytes sz) → (t.rx xa).val = scratchVa off → off % sizeBytes sz = 0 → 3 < sc.code →
      let stops := fun (i : Instr) => exec i s = .next (s.takeTrap s.cur (t.sTrap (mkTrap 7 ea sc.code)))
      stops (.lds sz xd xa sc o) ∧ stops (.sts sz xb xa sc o) ∧
      (sz = .w → stops (.atomw xd xa xb op sc o) ∧ stops (.casw xd xa xb sc o)) ∧
      (sz = .d → stops (.atomd xd xa xb op sc o) ∧ stops (.casd xd xa xb sc o))))

/-- R399, R47: SYSRD of each readable register but PLACE completes with its value in xd, with empty taint; no other register and no byte of HBM
changes, and control passes on. VTYPE and VSTAT are read once the VA queue is empty. R399, R372, R251, R359, R422: SYSWR of each writable register, at the privilege it needs, stores the bits of xs that the register keeps;
a write of a ring's base or size resets its head (and tail), QDEPTH is taken once every queue fits, and VSTAT clears the bits written as
one. No scalar register and no byte of HBM changes, and control passes on. The sizes 0x101, 0x121 and 0x133 are kept as written (assumption log
entry 46). R359, R422: a context that holds the selected counter bank reads and sets its control, ring, event and value registers (what its timed
counters have come to is free: assumption log entry 62), one whose bank has been revoked reads the view that was left it, and one that holds none
reads zeros; DBG_CTL acts on the thread that DBG_SEL names. -/
def Obligations.SystemRegisters : Prop :=
  (∀ (s : State) (xd : BitVec 5), s.Quiet → xd ≠ 0 → s.cur < passBase →
    let t := s.thr s.cur
    let c := s.ctx t.cid
    let gives := fun (n : Nat) (v : W64) => ∃ u, exec (.sysrd xd (BitVec.ofNat 10 n)) s = .next u ∧
      (u.thr s.cur).rx xd = { val := v, taint := 0, sat := false } ∧ (∀ j, j ≠ xd → (u.thr s.cur).rx j = t.rx j) ∧
      (u.thr s.cur).live.pc = t.live.next.pc ∧ u.hbm = s.hbm
    (∀ p ∈ [(0x000, BitVec.ofNat 64 t.num), (0x001, BitVec.ofNat 64 t.cid), (0x003, BitVec.ofNat 64 t.gangSize), (0x004, t.live.iter),
        (0x005, t.live.task.args), (0x006, BitVec.ofNat 64 s.tick), (0x008, t.qdepth.setWidth 64),
        (0x00B, BitVec.ofNat 64 (t.live.ctaint.toNat + if t.live.csat then 65536 else 0)),
        (0x010, t.trap.cause), (0x011, t.trap.addr), (0x012, t.trap.cut), (0x013, t.trap.info), (0x014, t.trap.pc), (0x015, t.trap.task),
        (0x016, t.trap.iter), (0x017, t.trap.state), (0x018, t.trap.ver)], gives p.1 p.2) ∧
    (∀ r, t.rank = some r → gives 0x002 (BitVec.ofNat 64 r)) ∧ (t.rank = none → gives 0x002 (BitVec.allOnes 64)) ∧
    (∀ g, t.live.gsel = some g → gives 0x00C (g.setWidth 64)) ∧ (t.live.gsel = none → gives 0x00C 0x3FF) ∧
    ((t.queue .va).entries = [] → gives 0x009 (t.live.vtype.setWidth 64) ∧ gives 0x00A t.live.vstat) ∧
    (∀ i, i < 4 → gives (0x020 + i) (t.wp.get i).base ∧ gives (0x024 + i) (t.wp.get i).ctl) ∧
    (∀ w, w < 16 → gives (0x040 + w) (t.win.get w).target ∧
      gives (0x050 + w) (BitVec.ofNat 64 ((t.win.get w).limit.toNat + (t.win.get w).inflight * 65536))) ∧
    (1 ≤ t.priv → ∀ n ∈ [0x100, 0x101, 0x102, 0x103, 0x104, 0x105, 0x107, 0x120, 0x121, 0x122, 0x123, 0x130, 0x135, 0x150, 0x151, 0x160,
      0x162, 0x163, 0x164], gives n (c.regs.get n)) ∧
    (1 ≤ t.priv →
      let n := (c.regs.get 0x130).toNat % 256
      let shows := fun (b : Bank) (ctl : W64) => gives 0x131 ctl ∧ gives 0x132 b.base ∧ gives 0x133 b.size ∧ gives 0x134 b.head ∧
        ∀ i, i < 8 → gives (0x138 + i) (b.events.get i) ∧ gives (0x140 + i) (b.values.get i)
      let b := (s.catchUp n).banks.get n
      let old := s.revoked.get (t.cid * 256 + n)
      (b.holder = t.cid + 2 → shows b (b.ctl ||| 2)) ∧
      (b.holder ≠ t.cid + 2 → s.revoked.has (t.cid * 256 + n) = true → shows old (old.ctl ||| 4)) ∧
      (b.holder ≠ t.cid + 2 → s.revoked.has (t.cid * 256 + n) = false → shows default 0) ∧
      let k := t.cid * 65536 + (c.regs.get 0x160).toNat % 65536
      gives 0x161 (BitVec.ofNat 64 ((if (s.thr k).stepOn then 1 else 0) + if (s.thr k).toDbg then 2 else 0)) ∧ gives 0x152 (c.desc.get 15)) ∧
    (2 ≤ t.priv → gives 0x300 t.ksvc)) ∧
  ((∀ (s : State) (xs : BitVec 5), s.Settled →
    let t := s.thr s.cur
    let v := (t.rx xs).val
    let writes := fun (n : Nat) (p : State → Prop) => ∃ u, exec (.syswr xs (BitVec.ofNat 10 n)) s = .next u ∧ p u ∧
      (∀ j, (u.thr s.cur).rx j = t.rx j) ∧ (u.thr s.cur).live.pc = t.live.next.pc ∧ u.hbm = s.hbm
    let reg := fun (u : State) (n : Nat) => (u.ctx t.cid).regs.get n
    writes 0x008 (fun u => (u.thr s.cur).qdepth = v.setWidth 20) ∧
    writes 0x00A (fun u => (u.thr s.cur).live.vstat = t.live.vstat &&& ~~~v) ∧
    (1 ≤ t.priv →
      (∀ p ∈ [(0x103, BitVec.allOnes 64), (0x104, 0x8000000000FFFFFF), (0x105, 0x3FFFFE), (0x123, BitVec.allOnes 64), (0x130, 0xFF),
        (0x135, 0xFFFFFF01), (0x160, 0xFFFF), (0x162, 0x8000000000FFFFFF), (0x163, 0x8000000001FFFFFF), (0x164, 0x8000000001FFFFFF)],
        writes p.1 fun u => reg u p.1 = v &&& p.2 ∧ ∀ m, m ≠ p.1 → reg u m = reg s m) ∧
      writes 0x100 (fun u => reg u 0x100 = v &&& 0x000FFFFFFFFFFFC0 ∧ reg u 0x102 = 0 ∧ reg u 0x103 = 0) ∧
      writes 0x101 (fun u => reg u 0x101 = v ∧ reg u 0x102 = 0 ∧ reg u 0x103 = 0) ∧
      writes 0x120 (fun u => reg u 0x120 = v &&& 0x000FFFFFFFFFFFC0 ∧ reg u 0x122 = 0) ∧
      writes 0x121 (fun u => reg u 0x121 = v ∧ reg u 0x122 = 0)) ∧
    (2 ≤ t.priv → writes 0x300 fun u => (u.thr s.cur).ksvc = v)) ∧
  (∀ (s : State) (xs : BitVec 5) (i : Nat), s.Settled → 1 ≤ (s.thr s.cur).priv → i < 8 →
    let t := s.thr s.cur
    let v := (t.rx xs).val
    let n := ((s.ctx t.cid).regs.get 0x130).toNat % 256
    let b := s.banks.get n
    let sets := fun (r : Nat) (p : Bank → Prop) => ∃ u, exec (.syswr xs (BitVec.ofNat 10 r)) s = .next u ∧ p (u.banks.get n) ∧
      (u.banks.get n).holder = b.holder ∧ (u.thr s.cur).live = t.live.next ∧ u.hbm = s.hbm
    (b.holder = t.cid + 2 → b.ctl.getLsbD 0 = false →
      (v.getLsbD 0 = false → sets 0x131 fun u => u.ctl = b.ctl &&& 0x7F8 &&& ~~~v) ∧
      sets 0x132 (fun u => u.base = v &&& 0x000FFFFFFFFFFFC0) ∧ sets 0x133 (fun u => u.size = v) ∧
      sets (0x138 + i) (fun u => u.events.get i = if (v.toNat % 65536) < 256 then v &&& 0xFFFF else 0) ∧
      sets (0x140 + i) (fun u => u.values.get i = v)) ∧
    (let k := t.cid * 65536 + ((s.ctx t.cid).regs.get 0x160).toNat % 65536
     (s.thr k).alive = true → k ≠ s.cur → ∃ u, exec (.syswr xs 0x161) s = .next u ∧ (u.thr k).stepOn = v.getLsbD 0 ∧
       (u.thr k).toDbg = v.getLsbD 1 ∧ (u.thr k).stopReq = ((s.thr k).stopReq || v.getLsbD 2))))

/-- R47, R399: an unallocated number, a write of a register without write access and a read of TRAP_CMD raise ILLEGAL; a number above the
thread's privilege raises PRIV, as do the SYS words of a higher privilege. Both are judged before anything else. R400, R369: TRAP and BKPT stop the thread: it is TRAPPED, its trap registers hold the cause, the word's PC and the code, class S and
unit SQ, its version goes on, and a RESUME continues at the next word. -/
def Obligations.SystemWordTraps : Prop :=
  (∀ (s : State) (x xb : BitVec 5) (n : BitVec 10), s.Runs →
    let t := s.thr s.cur
    let ill := s.takeTrap s.cur (t.sTrap (mkTrap 1 t.live.pc 0))
    let prv := s.takeTrap s.cur (t.sTrap (mkTrap 2 t.live.pc 0))
    (∀ m ∈ [0x00D, 0x00F, 0x019, 0x01F, 0x028, 0x03F, 0x060, 0x0FF, 0x108, 0x11F, 0x124, 0x136, 0x148, 0x153, 0x165, 0x2FF, 0x301, 0x3FF],
      exec (.sysrd x (BitVec.ofNat 10 m)) s = .next ill ∧ exec (.syswr x (BitVec.ofNat 10 m)) s = .next ill) ∧
    (∀ m ∈ [0x000, 0x006, 0x009, 0x00B, 0x010, 0x018, 0x020, 0x040, 0x05F, 0x102, 0x107, 0x122, 0x134, 0x150],
      exec (.syswr x (BitVec.ofNat 10 m)) s = .next ill) ∧
    exec (.sysrd x 0x106) s = .next ill ∧
    (t.priv = 0 → (∀ m ∈ [0x100, 0x104, 0x120, 0x130, 0x140, 0x160, 0x300],
      exec (.sysrd x (BitVec.ofNat 10 m)) s = .next prv ∧ exec (.syswr x (BitVec.ofNat 10 m)) s = .next prv) ∧
      exec (.tlbinv x xb) s = .next prv ∧
      (n.toNat < 144 → exec (.cntclaim x n) s = .next prv ∧ exec (.cntrel n) s = .next prv)) ∧
    (t.priv < 2 → exec .eret s = .next prv) ∧
    (144 ≤ n.toNat → exec (.cntclaim x n) s = .next ill ∧ exec (.cntrel n) s = .next ill)) ∧
  (∀ (s : State) (v : Version) (code : BitVec 10), s.Settled → (s.thr s.cur).versions = [v] → v.id < 1048576 →
    let t := s.thr s.cur
    ∀ p ∈ [(Instr.trap code, 18), (.bkpt code, 17)], ∃ u, exec p.1 s = .next u ∧
      (u.thr s.cur).run = .trapped ∧ (u.thr s.cur).trap.cause = BitVec.ofNat 64 p.2 ∧ (u.thr s.cur).trap.addr = BitVec.ofNat 64 t.live.pc ∧
      (u.thr s.cur).trap.info = code.setWidth 64 ∧ (u.thr s.cur).trap.pc = t.pcw ∧ (u.thr s.cur).trap.iter = t.live.iter ∧
      (u.thr s.cur).trap.task = v.task ∧ (u.thr s.cur).trap.state = (if t.heldLost then 0xFF80 else 0xFF00) ∧
      (u.thr s.cur).live.pc = t.live.next.pc ∧ (u.thr s.cur).live.x = t.live.x ∧ (u.thr s.cur).committed = t.committed ∧
      (u.thr s.cur).versions.map (·.id) = [v.id])

/-- R373, R370, R382: a trap that discards the version writes the trap registers (with ROLLEDBACK, the cut of the five queues, and ITER at
the restart point), restores the frame of the last commit point and empties the queues; the thread is TRAPPED. Stated where no version waits
for another. -/
def Obligations.TrapsDiscardAndSave : Prop :=
  ∀ (s : State) (key : Nat) (tr : Trap) (v : Version), key < passBase → (s.thr key).versions = [v] → v.published = false →
    v.id < 1048576 → tr.ver = BitVec.ofNat 20 v.id → (∀ p ∈ s.threads, ∀ w ∈ p.2.versions, w.deps = []) →
    tr.cause ∉ [4, 15, 16, 17, 18] →
    let t := s.thr key
    let u := (s.takeTrap key tr).thr key
    u.run = .trapped ∧ u.trap.cause = tr.cause.setWidth 64 ∧ u.trap.addr = tr.addr ∧ u.trap.info = tr.info ∧ u.trap.pc = tr.pc ∧
    u.trap.task = v.task ∧ u.trap.iter = t.committed.iter ∧ u.trap.ver = BitVec.ofNat 64 v.id ∧
    u.trap.state = BitVec.ofNat 64 (tr.cls.toNat + tr.unit.toNat * 4 + 64 + (if t.heldLost then 128 else 0) + tr.srcRank.toNat * 256 +
      tr.endpoint.toNat * 2 ^ 32) ∧
    u.trap.cut = BitVec.ofNat 64 ((t.queue .vl).head % 4096 + (t.queue .va).head % 4096 * 2 ^ 12 + (t.queue .vs).head % 4096 * 2 ^ 24 +
      (t.queue .mx).head % 4096 * 2 ^ 36 + (t.queue .cp).head % 4096 * 2 ^ 48) ∧
    u.live.x = t.committed.x ∧ u.live.v = t.committed.v ∧ u.live.k = t.committed.k ∧ u.live.pc = t.committed.pc ∧
    u.live.iter = t.committed.iter ∧ u.live.phase = t.committed.phase ∧ u.idleQueues = true ∧ u.committed = t.committed ∧
    u.liveTickets = 0 ∧ u.heldLost = false

/-- R373, R374: where the cause has a handler whose ring has room and a writable slot, a trap adds 1 to TRAPQ_HEAD and to the handler's
flag; where none is set up, an event of kind TRAP with the cause and TRAP_ADDR goes to the context's function, or is counted lost. -/
def Obligations.TrapsReachHandlerOrHost : Prop :=
  ∀ (s : State) (key cause num : Nat) (f : BitVec 8),
    let t := s.thr key
    let c := s.ctx t.cid
    (t.toDbg = false → (c.regs.get 0x105).getLsbD cause = false →
      s.notifyTrap key cause = postEvent c.func 5 0 0 0xFFFFFFFF t.cid 0 cause t.trap.addr.toNat s) ∧
    (t.toDbg = false → (c.regs.get 0x105).getLsbD cause = true → c.regs.get 0x104 = BitVec.ofNat 64 (2 ^ 63 + num + f.toNat * 65536) →
      num < 65536 → num ≠ t.num → 0 < f.toNat → f.toNat < 192 → (s.thr (t.cid * 65536 + num)).alive = true →
      c.regs.get 0x100 ≠ 0 → (c.regs.get 0x100) &&& 0xFFF000000000003F = 0 → 64 ≤ (c.regs.get 0x101).toNat →
      (c.regs.get 0x102).toNat - (c.regs.get 0x103).toNat < (c.regs.get 0x101).toNat / 64 →
      s.ringWritable t.cid ((c.regs.get 0x100).toNat + 64 * ((c.regs.get 0x102).toNat % ((c.regs.get 0x101).toNat / 64))) = true →
      s.waiters = [] →
      let u := s.notifyTrap key cause
      (u.ctx t.cid).regs.get 0x102 = c.regs.get 0x102 + 1 ∧ u.host = s.host ∧
      (u.thr (t.cid * 65536 + num)).live.f.get f.toNat =
        BitVec.ofNat 32 (min (((s.thr (t.cid * 65536 + num)).live.f.get f.toNat).toNat + 1) 0xFFFFFFFF))

/-- R375, R376: RESUME of a trapped thread makes it wait for a slot and asks for one; KILL retires it without a commit; the same actions
through TRAP_CMD leave their result there; a thread that is not trapped, or does not exist, is left alone. R401, R234: ERET at Kiln privilege resumes the thread that KSVC_THREAD names and ends the task of the service thread, here its last. -/
def Obligations.TrapService : Prop :=
  (∀ (s : State) (cid num : Nat), num < 65536 →
    let key := cid * 65536 + num
    let t := s.thr key
    (t.alive = true → t.run = .trapped → t.gang = 0 → ∃ u, exec (.resume cid num) s = .next u ∧
      u.thr key = { t with run := .waiting } ∧ (∃ p ∈ u.places, key ∈ p.keys) ∧ u.hbm = s.hbm ∧ ∀ k, k ≠ key → u.thr k = s.thr k) ∧
    (t.alive = true → t.run = .trapped → t.gang = 0 → (∀ w ∈ t.versions, w.undo = []) → t.cid = cid → t.num = num → (s.ctx cid).groups = [] →
      (∀ p ∈ s.threads, ∀ w ∈ p.2.versions, w.deps = []) → ∃ u, exec (.kill cid num) s = .next u ∧
      (u.thr key).alive = false ∧ u.hbm = s.hbm ∧ (u.ctx cid).quarantine.has num = true) ∧
    (t.alive = false ∨ t.run ≠ .trapped → exec (.resume cid num) s = .next s ∧ exec (.kill cid num) s = .next s) ∧
    (∀ xs : BitVec 5, s.Settled → 1 ≤ (s.thr s.cur).priv → (s.thr s.cur).cid = cid → key ≠ s.cur →
      ((s.thr s.cur).rx xs).val = BitVec.ofNat 64 num → ∃ u, exec (.syswr xs 0x106) s = .next u ∧
        (t.alive = true → t.run = .trapped → (u.thr key).run = .waiting) ∧
        (u.ctx cid).regs.get 0x107 = if t.alive then (if t.run = .trapped then 0 else 1) else 2)) ∧
  (∀ (s : State) (v : Version) (cid num : Nat), s.Settled → (s.thr s.cur).priv = 2 → (s.thr s.cur).versions = [v] → v.deps = [] →
    (s.thr s.cur).live.bnd = none → (s.ctx (s.thr s.cur).cid).groups = [] → (s.thr s.cur).live.task.next = 0 →
    (s.thr s.cur).gang = 0 → num < 65536 → cid < 4096 → cid * 65536 + num ≠ s.cur →
    (s.thr s.cur).ksvc = BitVec.ofNat 64 (cid * 65536 + num) → (s.thr (cid * 65536 + num)).alive = true →
    (s.thr (cid * 65536 + num)).run = .trapped → (s.thr (cid * 65536 + num)).gang = 0 →
    ∃ u, exec .eret s = .next u ∧ (u.thr (cid * 65536 + num)).run = .waiting ∧
      (u.thr (cid * 65536 + num)).live = (s.thr (cid * 65536 + num)).live ∧ (u.thr s.cur).alive = false ∧ u.hbm = s.hbm)

/-- R352, R353, R427, R428, R357: TLBINV raises the translation generation of the context; WPSET arms a watchpoint with the base of xa and
the control of xb, WPCLR clears its control; CNTCLAIM answers the result code in xd and, when it succeeds, holds the bank with everything
in it clear; CNTREL gives it up. R335, R201: FLOWDEF, when nothing of the windows or the flow is unacknowledged, maps the windows of its mask to the flow and sets its
mode; WINSET sets the target and limit of a window that has nothing unacknowledged and no cached line. A target that is not valid needs
no grant. -/
def Obligations.ServiceWords : Prop :=
  (∀ (s : State) (xa xb xd : BitVec 5) (n : BitVec 2) (b : BitVec 10), s.Settled →
    let t := s.thr s.cur
    let c := s.ctx t.cid
    let same := fun (u : State) => (u.thr s.cur).live = t.live.next ∧ u.hbm = s.hbm
    (1 ≤ t.priv → t.inval = none → t.streamsDone = true →
      ((t.rx xb).val = 0 ∨ (((t.rx xa).val ||| (t.rx xb).val).toNat % 65536 = 0 ∧ (t.rx xa).val.toNat + (t.rx xb).val.toNat ≤ 2 ^ 52)) →
      ∃ u, exec (.tlbinv xa xb) s = .next u ∧ (u.thr s.cur).live = t.live ∧ u.hbm = s.hbm ∧ (u.ctx t.cid).transGen = c.transGen + 1 ∧
        ∃ id, (u.thr s.cur).inval = some id ∧ ∃ i ∈ u.invals, i.id = id ∧ i.cid = t.cid) ∧
    (∀ id, 1 ≤ t.priv → t.inval = some id →
      ((∀ i ∈ s.invals, i.id ≠ id) → ∃ u, exec (.tlbinv xa xb) s = .next u ∧ same u ∧ (u.thr s.cur).inval = none) ∧
      ((∃ i ∈ s.invals, i.id = id) → ∃ u, exec (.tlbinv xa xb) s = .next u ∧ (u.thr s.cur).live = t.live ∧ u.hbm = s.hbm ∧
        (u.thr s.cur).inval = some id)) ∧
    ((t.rx xb).val &&& 0x7FFF00000000C000 = 0 → (t.rx xb).val &&& 0x3000 ≠ 0 → (t.rx xa).val.toNat < 2 ^ 52 →
      ∃ u, exec (.wpset xa xb n) s = .next u ∧ same u ∧
        (u.thr s.cur).wp.get n.toNat = { base := (t.rx xa).val, ctl := (t.rx xb).val ||| 0x8000000000000000 } ∧
        ∀ m, m ≠ n.toNat → (u.thr s.cur).wp.get m = t.wp.get m) ∧
    (∃ u, exec (.wpclr n) s = .next u ∧ same u ∧ (u.thr s.cur).wp.get n.toNat = { (t.wp.get n.toNat) with ctl := 0 } ∧
      ∀ m, m ≠ n.toNat → (u.thr s.cur).wp.get m = t.wp.get m) ∧
    (1 ≤ t.priv → b.toNat < 144 → ∃ u, exec (.cntrel b) s = .next u ∧ same u ∧
      ∀ k : Bank, k.holder = t.cid + 2 → s.banks = [(b.toNat, k)] → u.banks = []) ∧
    (1 ≤ t.priv → b.toNat < 144 → xd ≠ 0 → s.banks = [] → ∃ u, exec (.cntclaim xd b) s = .next u ∧ u.hbm = s.hbm ∧
      (0 < (if b.toNat < 128 then (c.desc.get 8).toNat % 32 else (c.desc.get 8).toNat / 256 % 4) →
        ((u.thr s.cur).rx xd).val = 0 ∧ (u.banks.get b.toNat).holder = t.cid + 2 ∧ (u.ctx t.cid).regs.get 0x130 = 0) ∧
      ((if b.toNat < 128 then (c.desc.get 8).toNat % 32 else (c.desc.get 8).toNat / 256 % 4) = 0 →
        ((u.thr s.cur).rx xd).val = 2 ∧ u.banks = []))) ∧
  (∀ (s : State) (xa xb : BitVec 5) (f : BitVec 6) (w : BitVec 4), s.Settled → s.outbox = [] →
    let t := s.thr s.cur
    ((t.rx xa).val.toNat < 2 ^ 17 → ∃ u, exec (.flowdef xa f) s = .next u ∧ (u.thr s.cur).live = t.live.next ∧ u.hbm = s.hbm ∧
      ((u.thr s.cur).flows.get f.toNat).unordered = (t.rx xa).val.getLsbD 16 ∧
      ∀ i, i < 16 → (u.thr s.cur).winFlow.get i = if (t.rx xa).val.getLsbD i then f.toNat else t.winFlow.get i) ∧
    ((t.rx xa).val.toNat < 2 ^ 48 → (t.rx xb).val.toNat < 1024 → ∃ u, exec (.winset xa xb w) s = .next u ∧
      (u.thr s.cur).live = t.live.next ∧ u.hbm = s.hbm ∧ ((u.thr s.cur).win.get w.toNat).target = (t.rx xa).val ∧
      ((u.thr s.cur).win.get w.toNat).limit = (t.rx xb).val.setWidth 10 ∧
      ∀ i, i ≠ w.toNat → (u.thr s.cur).win.get i = t.win.get i))

/-- R342, R340, R344: CTX_CREATE makes a FREE context ACTIVE, with its function and the defaults of its descriptor; CTX_SET writes the
fields of one descriptor word and reads the slot map again (that it keeps FUNCTION and the reserved bits, and that a SLOTMAP of 0 grants no slot, is
assumption log entry 48); CTX_DESTROY of a context without threads or traffic leaves it FREE, with its
endpoints GONE and their generations raised. A context that exists cannot be created. No byte of HBM changes. R360, R361, R344: a function-level reset clears the function's rings, queues and programs and its event queue, and is complete once none of its
contexts is DYING; VF_TEARDOWN and the drain timeout end the contexts of the function: without traffic, or after 125,000 ticks with it, the
context is FREE, its endpoints are GONE with their generations raised, and nothing of it waits on the fabric. The PF has no VF_TEARDOWN. -/
def Obligations.ContextCommands : Prop :=
  (∀ (s : State) (cid func off : Nat) (v : W64), s.TakesCommand 0 → cid < 4096 → func < 256 →
    let c := s.ctx cid
    let others := fun (u : State) => (∀ d, d ≠ cid → u.ctx d = s.ctx d) ∧ u.hbm = s.hbm
    (c.stateOf = 0 → CommandEnds s (.ctxCreate 0 cid func) 0 fun u => (u.ctx cid).stateOf = 1 ∧ (u.ctx cid).func = func ∧
      (u.ctx cid).threadLimit = 65536 ∧ (u.ctx cid).key = none ∧ (u.ctx cid).slotmap = [] ∧ (u.ctx cid).groups = [] ∧
      others u) ∧
    (c.stateOf ≠ 0 → CommandEnds s (.ctxCreate 0 cid func) 3 fun u => u.ctxs = s.ctxs) ∧
    (s.Exists cid → off % 8 = 0 → off ≤ 120 →
      (∀ f ∈ ctxFields off, f.2.2.1 ≤ v.toNat / 2 ^ f.1 % 2 ^ f.2.1 ∧ v.toNat / 2 ^ f.1 % 2 ^ f.2.1 ≤ f.2.2.2) →
      CommandEnds s (.ctxSet 0 cid off v) 0 fun u =>
        (u.ctx cid).word off = (c.word off &&& ~~~fieldMask (ctxFields off)) ||| (v &&& fieldMask (ctxFields off)) ∧
        (∀ w, w ≠ off / 8 → (u.ctx cid).desc.get w = c.desc.get w) ∧ others u ∧
        ∀ i, i < 1024 → (u.ctx cid).granted i =
          (decide (wfld ((u.ctx cid).word 104) 8 44 ≠ 0) && (s.hbm.byte (wfld ((u.ctx cid).word 104) 8 44 * 256 + i / 8)).getLsbD (i % 8))) ∧
    (s.Exists cid → (∃ f ∈ ctxFields off, v.toNat / 2 ^ f.1 % 2 ^ f.2.1 < f.2.2.1 ∨ f.2.2.2 < v.toNat / 2 ^ f.1 % 2 ^ f.2.1) →
      off < 2 ^ 64 → CommandEnds s (.ctxSet 0 cid off v) 2 fun u => u.ctxs = s.ctxs) ∧
    (s.Exists cid → (∀ p ∈ s.threads, p.2.cid ≠ cid) → s.outbox = [] → CommandEnds s (.ctxDestroy 0 cid) 0 fun u =>
      (u.ctx cid).stateOf = 0 ∧ s.EndpointsGone u cid ∧ (u.ctx cid).transGen = c.transGen + 1 ∧ (u.ctx cid).key = none ∧
      (u.ctx cid).desc = [] ∧ others u)) ∧
  (∀ (s : State) (fn cid : Nat) (c : Ctx), fn < 256 →
    (s.ctxs = [] → ∃ u, exec (.flr fn) s = .next u ∧ (∀ r ∈ u.rings, r.1 / 131072 ≠ fn) ∧ (∀ q ∈ u.lqs, q.1 / 8192 ≠ fn) ∧
      (∀ p ∈ u.progs, p.1 / 256 ≠ fn) ∧ (u.func fn).evqSize = 0 ∧ (u.func fn).evqTail = 0 ∧
      (u.func fn).flr = true ∧ ((u.flrDone fn).func fn).flr = false ∧
      (fn ≠ 0 → u.pkg = s.pkg) ∧ u.hbm = s.hbm) ∧
    (s.ctxs = [(cid, c)] → c.func = fn → (c.stateOf = 1 ∨ c.stateOf = 2) → s.threads = [] → s.outbox = [] →
      (fn ≠ 0 → ∃ u, exec (.vfTeardown fn) s = .next u ∧ (u.ctx cid).stateOf = 0 ∧ s.EndpointsGone u cid ∧ u.hbm = s.hbm) ∧
      ∃ u, exec (.flr fn) s = .next u ∧ (u.ctx cid).stateOf = 0 ∧ s.EndpointsGone u cid ∧ (u.func fn).flr = true ∧
        ((u.flrDone fn).func fn).flr = false) ∧
    exec (.vfTeardown 0) s = .next s ∧
    ((s.ctx cid).stateOf = 3 → (s.ctx cid).dyingAt + 125000 ≤ s.tick → ∃ u, exec (.teardownDrainTimeout cid) s = .next u ∧
      (u.ctx cid).stateOf = 0 ∧ s.EndpointsGone u cid ∧ ∀ p ∈ u.outbox, ctxPacket cid p = false) ∧
    ((s.ctx cid).stateOf = 3 → s.tick < (s.ctx cid).dyingAt + 125000 → exec (.teardownDrainTimeout cid) s = .next s))

/-- R348, R352, R350: FRAME_SET gives the frames of a range one entry, and fails for a sealed frame; INVAL raises the translation
generation; DIRTY_READ copies the dirty bits of a range to host memory and clears them, and every other byte keeps its value; that bit i of the copy is the bit
of granule first + i is assumption log entry 36. -/
def Obligations.FrameAndTranslationCommands : Prop :=
  ∀ (s : State) (cid first count : Nat) (e : W32) (va len host : W64), s.TakesCommand 0 →
    (s.frames.Rising → 0 < count → first < 2 ^ 24 → count < 2 ^ 25 → first + count ≤ 2 ^ 24 →
      (∀ f ∈ s.frames, first ≤ f.1 → f.1 < first + count → f.2.getLsbD 14 = false) →
      (∀ f, first ≤ f → f < first + count → s.framePinned f = false) →
      CommandEnds s (.frameSet 0 first count e) 0 fun u =>
        (∀ f, first ≤ f → f < first + count → u.frames.get f = e &&& 0x3FFF) ∧
        (∀ f, f < first ∨ first + count ≤ f → u.frames.get f = s.frames.get f) ∧ u.hbm = s.hbm) ∧
    (0 < count → first < 2 ^ 24 → count < 2 ^ 25 → first + count ≤ 2 ^ 24 →
      (∃ f ∈ s.frames, first ≤ f.1 ∧ f.1 < first + count ∧ f.2.getLsbD 14 = true) →
      CommandEnds s (.frameSet 0 first count e) 4 fun u => u.frames = s.frames) ∧
    (s.Exists cid → (len = 0 ∨ (va.toNat % 65536 = 0 ∧ len.toNat % 65536 = 0 ∧ va.toNat + len.toNat ≤ 2 ^ 52)) →
      CommandEnds s (.inval 0 cid va len) 0 fun u => (u.ctx cid).transGen = (s.ctx cid).transGen + 1 ∧ u.hbm = s.hbm) ∧
    (let map := ((s.ctx cid).desc.get 5).toNat / 8 % 2 ^ 49 * 8
     let span := ((s.ctx cid).desc.get 7).toNat % 2 ^ 18
     let bit := fun (m : Memory) (a i : Nat) => (m.byte (a + i / 8)).getLsbD (i % 8)
     s.Exists cid → s.hbm.wf = true → s.host.wf = true → host.toNat % 8 = 0 → first + count ≤ span * 128 →
      CommandEnds s (.dirtyRead 0 cid first count host) 0 fun u =>
        (∀ i, i < count → bit u.host host.toNat i = bit s.hbm map (first + i) ∧ bit u.hbm map (first + i) = false) ∧
        (∀ i, i < first ∨ first + count ≤ i → bit u.hbm map i = bit s.hbm map i) ∧
        (∀ a, a < map → u.hbm.byte a = s.hbm.byte a) ∧
        (∀ a, a < host.toNat ∨ host.toNat + (count + 7) / 8 ≤ a → u.host.byte a = s.host.byte a))

/-- R358, R331, R376, R397, R388: CNT_CLAIM takes a bank or unit for the hypervisor, and a context that held it keeps a frozen view;
CNT_REL gives it up; EP_SET writes an entry of the endpoint table, whose generation stays (assumption log entry 4); TRAP_RESOLVE of action 0 resumes a
trapped thread that is in no gang, and ends with ERR 3 for a thread that is not trapped, and with ERR 2 for a number without a thread; UNIT_RETIRE
retires a core; PAGE_DONE lets a thread parked in the range ask for a slot. -/
def Obligations.DeviceServiceCommands : Prop :=
  ∀ (s : State) (cid num bank pkg st core : Nat) (ep : W32) (va len : W64), s.TakesCommand 0 →
    let key := cid * 65536 + num
    let t := s.thr key
    (bank < 144 → (s.banks.get bank).holder ≠ 1 → CommandEnds s (.cntClaim 0 bank) 0 fun u =>
      u.banks.get bank = { (default : Bank) with holder := 1 } ∧
      (2 ≤ (s.banks.get bank).holder → u.revoked.get (((s.banks.get bank).holder - 2) * 256 + bank) = (s.catchUp bank).banks.get bank)) ∧
    (∀ b : Bank, bank < 144 → s.banks = [(bank, b)] → b.holder = 1 → CommandEnds s (.cntRel 0 bank) 0 fun u => u.banks = []) ∧
    (144 ≤ bank → bank < 256 → CommandEnds s (.cntClaim 0 bank) 2 (fun u => u.banks = s.banks) ∧
      CommandEnds s (.cntRel 0 bank) 2 fun u => u.banks = s.banks) ∧
    (st ≤ 2 → pkg < 65536 → cid < 4096 → (s.ctx cid).store = [] → CommandEnds s (.epSet 0 ep pkg cid st) 0 fun u =>
      u.endpoints.get ep.toNat =
        { pkg := pkg, cid := cid, st := st, gen := (s.endpoints.get ep.toNat).gen } ∧
      ∀ e, e ≠ ep.toNat → u.endpoints.get e = s.endpoints.get e) ∧
    (s.Exists cid → num < 65536 → t.alive = true → t.run = .trapped → t.gang = 0 → CommandEnds s (.trapResolve 0 cid num 0) 0 fun u =>
      u.thr key = { t with run := .waiting } ∧ ∃ p ∈ u.places, key ∈ p.keys) ∧
    (s.Exists cid → num < 65536 → t.alive = true → t.run ≠ .trapped → CommandEnds s (.trapResolve 0 cid num 0) 3 fun u => u.threads = s.threads) ∧
    (s.Exists cid → num < 65536 → t.alive = false → CommandEnds s (.trapResolve 0 cid num 1) 2 fun u => u.threads = s.threads) ∧
    (core < 832 → CommandEnds s (.unitRetire 0 core) 0 fun u => (u.cores.get core).retired = true ∧
      ∀ c, c ≠ core → u.cores.get c = s.cores.get c) ∧
    (∀ tr : Trap, s.Exists cid → s.threads = [(key, t)] → t.alive = true → t.cid = cid → t.gang = 0 → t.run = .parkedPage tr →
      va.toNat ≤ tr.addr.toNat → tr.addr.toNat < va.toNat + max len.toNat 1 → s.tasks = [] → s.lqs = [] →
      CommandEnds s (.pageDone 0 cid va len false) 0 fun u => (u.thr key).run = .waiting ∧ (u.thr key).live = t.live ∧
        ∃ p ∈ u.places, key ∈ p.keys)

/-- R342, R343: a VF that gives a command of the PF, or names a context of another function, gets ERR 1; the PF gets ERR 3 for a command of
a context that does not exist; a command written while one is BUSY is dropped and counted; none has any other effect. No keg operation of the context
is under way (R411). -/
def Obligations.CommandChecks : Prop :=
  ∀ (s : State) (fn cid a b : Nat) (v w : W64), cid < 4096 → s.kegBusy cid s.tick none (some fn) = false →
    let ends := fun (i : Instr) (e : Nat) => ∃ u, exec i s = .next u ∧ (u.func fn).cmdStatus = BitVec.ofNat 64 (e * 256) ∧
      u = { s with funcs := s.funcs.put fn (u.func fn) }
    (s.TakesCommand fn → fn ≠ 0 → ∀ i ∈ [Instr.ctxCreate fn cid a, .ctxSet fn cid a v, .ctxDestroy fn cid, .frameSet fn a b 0, .cntClaim fn a,
      .cntRel fn a, .epSet fn 0 a cid 0, .unitRetire fn a, .migKey fn cid a b, .pagePush fn cid v w a b, .parkForward fn cid a b,
      .relayEnd fn cid, .slotLoad fn a v w 0, .tensorSeal fn cid a v w, .slotUnpin fn a], ends i 1) ∧
    (s.TakesCommand fn → fn ≠ 0 → (s.ctx cid).func ≠ fn → ∀ i ∈ [Instr.inval fn cid v w, .kegSaveCmd fn cid v w true false, .kegLoadCmd fn cid v w,
      .kegThaw fn cid, .pageDone fn cid v w true], ends i 1) ∧
    (s.TakesCommand fn → fn = 0 → ¬ s.Exists cid → ∀ i ∈ [Instr.ctxSet fn cid 8 v, .ctxDestroy fn cid, .inval fn cid v w,
      .kegLoadCmd fn cid v w, .kegThaw fn cid, .relayEnd fn cid], ends i 3) ∧
    (fn < 256 → s.powerIn ≠ 4 → (s.func fn).flr = false → (s.func fn).pend = some (0x10, 5) → ∀ i ∈ [Instr.ctxDestroy fn cid, .inval fn cid v w, .slotUnpin fn a],
      exec i s = .next { s with pkg := { s.pkg with dropped := s.pkg.dropped + 1 } })

/-- R411, R415, R407, R412: KEGSAVE and KEG_SAVE end with the result of the save, KEGLOAD and KEG_LOAD with that of the load, in KEG_STATUS
(and the commands as ERR 0, or 16 plus it); a word passes to the next. That the commands write registers 0x150 and 0x151 too is assumption log entry
49. R407, R411, R402: a save whose freeze is complete and whose buffer is long enough raises SAVECOUNT by one and leaves KEG_STATUS 0 and the
length needed in KEG_NEED; the context is held FROZEN for a HOLD, else it is ACTIVE again. One whose buffer is too short gives KEG_STATUS 1
and leaves SAVECOUNT and host memory as they are. R404, R412 check 4: what the authenticated encryption of a keg seals opens again under the same key, IV and header, and nothing opens
with another tag. -/
def Obligations.KegSavesAndLoads : Prop :=
  (((∀ (s a b d : State) (r : Nat) (xa xb : BitVec 5), s.Settled → 1 ≤ (s.thr s.cur).priv →
    let t := s.thr s.cur
    let va := (t.rx xa).val.toNat
    let len := (t.rx xb).val.toNat % 2 ^ 40
    let s1 := s.updThr s.cur fun t => { t with kegAt := some (t.kegAt.getD s.tick) }
    let ends := fun (e : State) =>
      .next (s.wordEnd ((e.updThr s.cur fun t => { t with kegAt := none }).updThr s.cur fun t => t.updLive Frame.next))
    s1.kegBusy t.cid (t.kegAt.getD s.tick) (some s.cur) none = false → va % 64 = 0 → releaseAll s.cur .other s1 = .ok ((), a) →
    publish s.cur t.curVer.id a = .ok ((), b) →
    ((t.rx xb).val &&& 0x7FFFFF0000000000 = 0 → (s.ctx t.cid).freezing = none → bufferFail a t.cid va len true = none →
      (s.ctx t.cid).saveFail = none →
      State.saveKeg { b with tasks := b.tasks.map fun p => if p.2.key = some s.cur then (p.1, { p.2 with ver := none }) else p }
        t.cid (some s.cur) va len ((t.rx xb).val.getLsbD 63) false = (some r, d) →
      exec (.kegsave xa xb) s = ends d) ∧
    ((t.rx xb).val &&& 0xFFFFFF0000000000 = 0 → bufferFail a t.cid va len false = none → b.loadKeg t.cid (some s.cur) va len = (r, d) →
      exec (.kegload xa xb) s = ends (d.updCtx t.cid fun c => { c with regs := c.regs.put 0x150 (BitVec.ofNat 64 r) }))) ∧
  ∀ (s d : State) (cid r : Nat) (va len : W64) (hold : Bool), s.TakesCommand 0 → s.Exists cid → va.toNat % 64 = 0 →
    (s.kegBusy cid s.tick none (some 0) = false → bufferFail s cid va.toNat len.toNat true = none → (s.ctx cid).saveFail = none →
      (s.withWords 0 [cw cid, va, len, if hold then 1 else 0]).saveKeg cid none va.toNat len.toNat hold false = (some r, d) →
      CommandEnds s (.kegSaveCmd 0 cid va len hold false) (if r = 0 then 0 else 16 + r) fun u => u.ctxs = d.ctxs ∧ u.threads = d.threads ∧ u.hbm = d.hbm) ∧
    (s.kegBusy cid s.tick none (some 0) = false → bufferFail s cid va.toNat len.toNat false = none →
      (s.withWords 0 [cw cid, va, len]).loadKeg cid none va.toNat len.toNat = (r, d) →
      CommandEnds s (.kegLoadCmd 0 cid va len) (if r = 0 then 0 else 16 + r) fun u =>
        (u.ctx cid).regs.get 0x150 = BitVec.ofNat 64 r ∧ u.threads = d.threads ∧ u.hbm = d.hbm)) ∧
  (∀ (s a : State) (cid va len : Nat) (left : Option Nat) (hold mig : Bool), s.freezeStep cid left = (true, a) →
    (a.ctx cid).store = [] → a.tasks = [] → a.inflows = [] →
    let body := (a.kegItems cid (a.freezeSet cid left)).flatMap KegItem.bytes
    let r := s.saveKeg cid left va len hold mig
    (body.length + 272 ≤ len → r.1 = some 0 ∧ (r.2.ctx cid).saveCount = (a.ctx cid).saveCount + 1 ∧ (r.2.ctx cid).regs.get 0x150 = 0 ∧
      (r.2.ctx cid).regs.get 0x151 = BitVec.ofNat 64 (body.length + 272) ∧ (hold = true → (r.2.ctx cid).holding = true ∧ (r.2.ctx cid).heldSave = true) ∧
      (hold = false → (r.2.ctx cid).stateOf = 1 ∧ (r.2.ctx cid).freezing = none)) ∧
    (len < body.length + 272 → r.1 = some 1 ∧ (r.2.ctx cid).saveCount = (a.ctx cid).saveCount ∧ (r.2.ctx cid).regs.get 0x150 = 1 ∧
      (r.2.ctx cid).stateOf = 1 ∧ r.2.host = a.host))) ∧
  (∀ (key : BitVec 256) (iv aad body : List Byte), iv.length = 12 →
    let r := gcmSeal key iv aad body
    gcmOpen key iv aad r.1 r.2 = some body ∧ r.1.length = body.length ∧ r.2.length = 16 ∧
      ∀ tag, tag ≠ r.2 → gcmOpen key iv aad r.1 tag = none)

/-- R415, R418, R416, R417: KEG_THAW makes a held context ACTIVE and lets its threads run; MIG_KEY sends the context's key with the save count
it allows, and PAGE_PUSH the granule of a page, and both wait for the answer; at MIG_KEY the context is HANDED and that save reserved, unless the peer's identity
does not verify, where nothing is sent (ERR 3: assumption log entry 35); PARK_FORWARD sends where each flow of the context has come to, the packets
that wait and those that are parked, each acknowledged before but a marked access or a line read, and an end marker, and relays what comes later; RELAY_END ends the relay; KEY_TRANSFER is accepted by an ACTIVE context without threads; the end marker lets the
threads of a migrated context be placed. -/
def Obligations.MigrationCommands : Prop :=
  ∀ (s : State) (cid pkg dcid : Nat) (va : W64) (k : BitVec 256) (gen : W32) (count : W64), s.TakesCommand 0 → s.Exists cid → pkg < 65536 → dcid < 4096 →
    s.kegBusy cid s.tick none (some 0) = false →
    let c := s.ctx cid
    let sent := fun (n : Nat) (kind : PktKind) => ({ id := n, key := 4 * passBase + cid, win := 0, ep := BitVec.ofNat 32 (0xFFFF0000 + pkg)
                                                     gen := 0, thread := dcid, flow := 0, seq := n, ordered := true, kind := kind, retry := 0
                                                     src := default, clk := [], rel := none, acq := none, got := [] } : Packet)
    (c.holding = true → c.store = [] → s.tasks = [] → s.inflows = [] → CommandEnds s (.kegThaw 0 cid) 0 fun u => (u.ctx cid).stateOf = 1 ∧ (u.ctx cid).holding = false ∧
      (u.ctx cid).freezing = none ∧ u.hbm = s.hbm ∧ ∀ p ∈ u.threads, p.2.cid = cid → p.1 < passBase → p.2.frozen = false) ∧
    (c.holding = false → CommandEnds s (.kegThaw 0 cid) 3 fun u => u.ctxs = s.ctxs) ∧
    (c.key = some k → c.reserved = none → c.handed = false → c.heldSave = false → Config.peerVerified pkg = true →
      CommandWaits s (.migKey 0 cid pkg dcid) 0x10 cid fun u =>
        u.outbox = s.outbox ++ [sent s.pktNext (.keyTransfer dcid k (BitVec.ofNat 32 c.keyGen) (c.saveCount + 1))] ∧
        (u.ctx cid).handed = true ∧ (u.ctx cid).reserved = some (c.saveCount + 1)) ∧
    (c.key = some k → Config.peerVerified pkg = false → CommandEnds s (.migKey 0 cid pkg dcid) 3 fun u => u.outbox = s.outbox ∧ u.ctxs = s.ctxs) ∧
    (∀ p : Piece, flatPiece s cid va.toNat 65536 = .ok p → p.tgt = .hbm ∨ p.tgt = .host → va.toNat % 65536 = 0 → va.toNat + 65536 ≤ 2 ^ 52 →
      let m := if p.tgt = .host then s.host else s.hbm
      CommandWaits s (.pagePush 0 cid va 65536 pkg dcid) 0x11 cid fun u =>
        u.outbox = s.outbox ++ [sent s.pktNext (.page p.va (m.bytes p.addr 65536) ((countFrom 0 1024).map fun i => m.tag (p.addr + 64 * i)))]) ∧
    (c.stateOf = 2 → CommandEnds s (.parkForward 0 cid pkg dcid) 0 fun u => (u.ctx cid).relay = some (pkg, dcid) ∧ (u.ctx cid).store = [] ∧
      let mine := s.inflows.filter fun f =>
        decide ((s.endpoints.get f.ep.toNat).pkg = s.pkg.self) && decide ((s.endpoints.get f.ep.toNat).cid = cid)
      let waits := fun (p : InPkt) => match p.op with | .marked _ _ => true | .line _ => true | _ => false
      (u.outbox.drop s.outbox.length).map (·.kind) =
        mine.map (fun f => .flow f.ep f.srcEp f.srcThread f.flow f.next f.done) ++
          (mine.flatMap (·.waiting) ++ c.store).map (fun p => .parked { p with acked := p.acked || !waits p }) ++ [.endMarker] ∧
      u.outbox.take s.outbox.length = s.outbox ∧ ∀ p ∈ u.outbox.drop s.outbox.length, p.ep = BitVec.ofNat 32 (0xFFFF0000 + pkg) ∧ p.thread = dcid) ∧
    (c.stateOf ≠ 2 → CommandEnds s (.parkForward 0 cid pkg dcid) 3 fun u => u.outbox = s.outbox ∧ u.ctxs = s.ctxs) ∧
    (c.relay.isSome = true → CommandEnds s (.relayEnd 0 cid) 0 fun u => (u.ctx cid).relay = none) ∧
    (c.stateOf = 1 → s.liveThreads cid = 0 → c.saveCount.toNat ≤ count.toNat → ∃ u, exec (.keyTransfer cid k gen count) s = .next u ∧
      (u.ctx cid).key = some k ∧ (u.ctx cid).keyed = true ∧ (u.ctx cid).keyGen = gen.toNat ∧ (u.ctx cid).saveCount = count ∧
      u.answers.length = s.answers.length + 1) ∧
    (count.toNat < c.saveCount.toNat → ∃ u, exec (.keyTransfer cid k gen count) s = .next u ∧ u.ctxs = s.ctxs) ∧
    (c.awaitEnd = true → ∃ u, exec (.endMarker cid) s = .next u ∧ u.ctx cid = { c with awaitEnd := false } ∧ ∀ d, d ≠ cid → u.ctx d = s.ctx d)

/-- R322, R56, R298, R299: SLOT_LOAD of a well-formed image makes the slot resident with its text, entry, scratch and hash; TENSOR_SEAL ends
with what `State.tensorSeal` answers, which makes the checks of R298: a failure changes no tensor and no frame, a success adds one tensor, and
answers its identity in W4 and W5; SLOT_UNPIN of a slot that nothing runs makes it not resident, and one of a slot that a pass runs ends with BUSYRES
too (assumption log entry 47). -/
def Obligations.ModelSlotCommands : Prop :=
  ∀ (s : State) (slot cid : Nat) (host len dataVa va desc : W64), s.TakesCommand 0 → slot < 1024 →
    (∀ p : Parsed, (s.images.get slot).resident = false → dataVa.toNat % 65536 = 0 → dataVa.toNat < 2 ^ 52 →
      parseImage (s.host.bytes host.toNat len.toNat) slot dataVa = some p → p.psafe = [] → sameHashSame (s.images.flatMap fun i => i.2.psafe.map fun e => (e.2.2.2, i.2.programWords e)) = true →
      p.data.length ≤ 2 ^ 26 → s.frames.length + 1024 < 2 ^ 24 → CommandEnds s (.slotLoad 0 slot host len dataVa) 0 fun u =>
        (u.images.get slot).resident = true ∧ (u.images.get slot).text = p.text ∧ (u.images.get slot).entry = p.entry ∧
        (u.images.get slot).scratchG = p.scratchG ∧ (u.images.get slot).hash = p.hash ∧ (u.images.get slot).dataVa = dataVa ∧
        ∀ i, i ≠ slot → u.images.get i = s.images.get i) ∧
    ((s.images.get slot).resident = true → CommandEnds s (.slotLoad 0 slot host len dataVa) 4 fun u => u.images = s.images) ∧
    (∀ (e : Nat) (wid : BitVec 128) (d : State), s.Exists cid →
      (s.withWords 0 [cw cid, cw slot, va, desc]).tensorSeal cid slot va.toNat desc.toNat = (e, wid, d) →
      CommandEnds s (.tensorSeal 0 cid slot va desc) e fun u => u.tensors = d.tensors ∧ u.frames = d.frames ∧
        (e = 0 → u.tensors.length = s.tensors.length + 1 ∧ (u.func 0).cmd.get 4 = wid.setWidth 64 ∧ (u.func 0).cmd.get 5 = (wid >>> 64).setWidth 64) ∧
        (e ≠ 0 → u.tensors = s.tensors ∧ u.frames = s.frames)) ∧
    (s.images.Rising → (s.images.get slot).resident = true → s.slotRuns slot = false → CommandEnds s (.slotUnpin 0 slot) 0 fun u =>
      (u.images.get slot).resident = false ∧ ∀ i, i ≠ slot → u.images.get i = s.images.get i) ∧
    ((s.images.get slot).resident = true → s.slotRuns slot = true → CommandEnds s (.slotUnpin 0 slot) 4 fun u => u.images = s.images)

/-- R309, R307, R311, R336: a tail doorbell of an enabled ring sets TAIL, an inline doorbell stores its packet at TAIL and advances it, and
one that passes what the ring holds disables the ring and posts OVERRUN (kind 2); a package in IDLE returns to ON (at once: assumption log entry 29),
SLEEP holds the doorbell, and a ring
outside the function's range is dropped and counted. RING_ENABLE and LQ_ENABLE enable what may be enabled, and disable at a zero. -/
def Obligations.DoorbellsAndEnables : Prop :=
  ∀ (s : State) (fn ring lq : Nat) (tail : W32) (bytes : List Byte) (v : W64), s.Hears fn →
    let r := s.ring fn ring
    let q := s.lq fn lq
    let rings := fun (u : State) (x : Ring) => u.ring fn ring = x ∧ u.host = s.host ∧ u.hbm = s.hbm ∧ u.lqs = s.lqs
    let declared := ((bytes[1]?).getD 0).toNat
    (ring < (s.func fn).ringCount → s.powerIn ≠ 3 → r.enable = true →
      ((tail - r.head).toNat ≤ 2 ^ r.log2 → ∃ u, exec (.tailDoorbell fn ring tail) s = .next u ∧ rings u { r with tail := tail } ∧
        u.powerIn = if s.powerIn = 1 then 0 else s.powerIn) ∧
      (2 ^ r.log2 < (tail - r.head).toNat → exec (.tailDoorbell fn ring tail) s = .next (postEvent fn 2 0 0 ring r.cid 0 0 0
        { s.wake with rings := s.rings.put (ringKey fn ring) { r with enable := false, overrun := true } })) ∧
      (1 ≤ declared → declared ≤ 4 → bytes.length = 64 * declared → (r.tail + BitVec.ofNat 32 declared - r.head).toNat ≤ 2 ^ r.log2 →
        ∃ u, exec (.inlineDoorbell fn ring bytes) s = .next u ∧
          rings u { r with tail := r.tail + BitVec.ofNat 32 declared, inl := r.inl ++ [(r.tail.toNat, bytes)] } ∧
          u.powerIn = if s.powerIn = 1 then 0 else s.powerIn)) ∧
    (s.powerIn = 3 → exec (.tailDoorbell fn ring tail) s = .next { s with bells := s.bells ++ [(fn, ring, tail, [])] } ∧
      (bytes ≠ [] → exec (.inlineDoorbell fn ring bytes) s = .next { s with bells := s.bells ++ [(fn, ring, 0, bytes)] })) ∧
    ((s.func fn).ringCount ≤ ring → s.powerIn ≠ 3 → ∀ i ∈ [Instr.tailDoorbell fn ring tail, .inlineDoorbell fn ring bytes, .ringEnable fn ring v],
      exec i s = .next { s with pkg := { s.pkg with dropped := s.pkg.dropped + 1 } }) ∧
    (ring < (s.func fn).ringCount →
      (v.getLsbD 0 = true → s.ownsCtx fn r.cid = true → r.lq < (s.func fn).lqCount → (s.lq fn r.lq).cid = r.cid → 6 ≤ r.log2 → r.log2 ≤ 16 →
        (s.ringsOf fn r.lq).length < 64 → ∃ u, exec (.ringEnable fn ring v) s = .next u ∧
          rings u { r with enable := true, overrun := r.overrun && !v.getLsbD 1 }) ∧
      (v.getLsbD 0 = false → ∃ u, exec (.ringEnable fn ring v) s = .next u ∧ rings u { r with enable := false, overrun := r.overrun && !v.getLsbD 1 })) ∧
    (lq < (s.func fn).lqCount →
      (v.getLsbD 0 = true → s.ownsCtx fn q.cid = true → (s.prog fn q.program).loaded = true → ∃ u, exec (.lqEnable fn lq v) s = .next u ∧
        u.lq fn lq = { q with enable := true } ∧ u.rings = s.rings) ∧
      (v.getLsbD 0 = false → ∃ u, exec (.lqEnable fn lq v) s = .next u ∧ u.lq fn lq = { q with enable := false } ∧ u.rings = s.rings))

/-- R311, R312, R321, R315, R314, R325: Merge takes the packets of a queue's rings; a free interpreter takes the next delivered
packet; the first released emission takes effect when no copy runs before it (a signal adds to its flag, a fence is passed, a copy begins, a
launch creates its thread, which reads its loop record when it is placed (assumption log entry 44), a tile is submitted); a host copy of one chunk
moves its bytes, and every other byte of HBM keeps its value; at its end a copy adds 1 to its flag. -/
def Obligations.HostQueuesAdvance : Prop :=
  ∀ (s : State) (fn lq ring it : Nat) (r : Ring) (q : LQueue) (p : Pkt) (e : Emission) (rest : List Emission), fn < 256 → lq < 8192 →
    s.fwHeld = false → s.powerIn ≠ 3 → s.powerIn ≠ 4 → s.stopped = false → s.lqs = [(lqKey fn lq, q)] → q.enable = true →
    let at_ := r.base.toNat + 64 * (r.head.toNat % 2 ^ r.log2)
    let takes := fun (k : EmitKind) (P : State → Prop) => e.kind = k → q.released = e :: rest → (s.ctx q.cid).stateOf = 1 →
      ∃ u, exec (.emissionTakesEffect fn lq) s = .next u ∧ P u
    (ring < 131072 → lq < (s.func fn).lqCount → q.delivered = [] → q.qval = 0 → s.interps = [] → s.rings = [(ringKey fn ring, r)] → r.enable = true →
      r.lq = lq → r.inl = [] → r.tail = r.head + 1 → s.host.byte (at_ + 1) = 1 → ∃ u, exec (.merge fn lq) s = .next u ∧
        (u.lq fn lq).delivered =
          [{ ring := ring, bytes := s.host.bytes at_ 64, slots := 1, tag := leNat ((s.host.bytes at_ 64).drop 2 |>.take 2) }] ∧ u.rings = s.rings) ∧
    (it < 16 → s.interps = [] → q.delivered = [p] → (s.ctx q.cid).stateOf = 1 → (s.ctx q.cid).freezing = none →
      1 ≤ ((p.bytes[1]?).getD 0).toNat → ((p.bytes[1]?).getD 0).toNat ≤ 4 → ∃ u, exec (.interpreterHandoff it) s = .next u ∧
        u.interps = [(it, { (default : Interp) with busy := true, fn := fn, lq := lq, pkt := p })] ∧ (u.lq fn lq).delivered = []) ∧
    takes .fence (fun u => q.copies = [] → q.starting = [] → u.lq fn lq = { q with released := rest } ∧ u.threads = s.threads) ∧
    (∀ dst src len thr flag, takes (.copy dst src len thr flag) fun u => (u.lq fn lq).released = rest ∧
      (u.lq fn lq).copies = q.copies ++ [{ em := e, done := 0, page := none, cov := [] }] ∧ u.hbm = s.hbm) ∧
    (∀ thr flag v, takes (.signal thr flag v) fun u => q.copies = [] → 0 < flag → (s.thr (q.cid * 65536 + thr)).alive = true → s.waiters = [] →
      (u.lq fn lq).released = rest ∧ (u.thr (q.cid * 65536 + thr)).live.f.get flag =
        BitVec.ofNat 32 (min (((s.thr (q.cid * 65536 + thr)).live.f.get flag).toNat + v.toNat) 0xFFFFFFFF)) ∧
    (∀ slot binds num, takes (.launch slot 0 none binds) fun u => q.copies = [] → launchFail s q.cid slot 0 false = none →
      s.freeNum q.cid 0 = some num → s.places = [] →
      let t := u.thr (q.cid * 65536 + num)
      t.alive = true ∧ t.run = .waiting ∧ t.num = num ∧ t.cid = q.cid ∧ t.rank = none ∧ t.live.b = binds ∧
        t.live.bnd = some ((s.images.get slot).dataVa + BitVec.ofNat 64 (s.images.get slot).entry) ∧ (u.lq fn lq).released = rest ∧
        (u.lq fn lq).starting = q.starting ++ [q.cid * 65536 + num] ∧ ∃ x ∈ u.places, x.keys = [q.cid * 65536 + num]) ∧
    (∀ desc thr, takes (.tile desc thr) fun u => q.copies = [] → s.descFail q.cid false true desc = none →
      s.partFull (s.partitionOf (taskOf s q.cid desc)) = false → (u.lq fn lq).released = rest ∧ u.taskNext = s.taskNext + 1) ∧
    (∀ (x : HostCopy) dst src thr flag, x.em.kind = .copy dst src 0 thr flag → x.page = none → q.copies = [x] → (s.ctx q.cid).stateOf = 1 →
      0 < flag → (s.thr (q.cid * 65536 + thr)).alive = true → s.waiters = [] → ∃ u, exec (.ecopyCompletion fn lq) s = .next u ∧
        (u.lq fn lq).copies = [] ∧ (u.thr (q.cid * 65536 + thr)).live.f.get flag =
          BitVec.ofNat 32 (min (((s.thr (q.cid * 65536 + thr)).live.f.get flag).toNat + 1) 0xFFFFFFFF)) ∧
    (∀ (x : HostCopy) (a b : Piece) dst src len thr flag, x.em.kind = .copy dst src len thr flag → x.page = none → x.done = 0 →
      q.copies = [x] → (s.ctx q.cid).stateOf = 1 → 0 < len → len ≤ 4096 →
      dst % 16384 + len ≤ 16384 → src % 16384 + len ≤ 16384 → dst + len ≤ 2 ^ 52 → src + len ≤ 2 ^ 52 →
      flatPiece s q.cid src len = .ok a → flatPiece s q.cid dst len = .ok b → a.tgt = .hbm → b.tgt = .hbm → a.leaf.rd = true →
      b.leaf.wr = true → b.leaf.granary = false → b.leaf.dt = false → s.hbm.wf = true → (∀ t ∈ s.threads, t.2.scores = []) →
      s.mscUse + 4224 ≤ 7516192768 → 0 < ((s.ctx q.cid).desc.get 4).toNat / 2 ^ 32 % 2 ^ 16 →
      0 < flag → (s.thr (q.cid * 65536 + thr)).alive = true → q.cid * 65536 + thr < 3 * passBase → s.waiters = [] →
      ∃ u, exec (.ecopyCompletion fn lq) s = .next u ∧
        (u.lq fn lq).copies = [] ∧ (∀ i, i < len → u.hbm.byte (b.addr + i) = s.hbm.byte (a.addr + i)) ∧
        (∀ i, i < b.addr ∨ b.addr + len ≤ i → u.hbm.byte i = s.hbm.byte i) ∧ u.host = s.host ∧ u.staging = s.staging ∧
        (u.thr (q.cid * 65536 + thr)).live.f.get flag =
          BitVec.ofNat 32 (min (((s.thr (q.cid * 65536 + thr)).live.f.get flag).toNat + 1) 0xFFFFFFFF))

/-- R318, R319: LOAD of a program entry whose tables can be pinned, whose words can be read and whose operations pass the verifier leaves it loaded
with them; one that fails a check is FAILED with the check and the index, and one whose words cannot be read is FAILED too; UNLOAD leaves the entry without a program; either is dropped while an enabled queue
names the program. R313, R316, R320: an emit operation whose buffer is well formed stages its emission with the index of the operation and goes on; REJECT
and a malformed buffer end the packet with nothing of it in effect; DONE accepts it: its emissions are released in order. Either way HEAD
passes the packet and the interpreter is free; a packet's 513th operation is not executed. -/
def Obligations.SpargePacketsRun : Prop :=
  (∀ (s : State) (fn prog : Nat) (tables : List SpTable), s.Hears fn → prog < 256 →
    let p := s.prog fn prog
    let n := (p.words.get 2).toNat % 2048
    let ops := (countFrom 0 n).map fun i => BitVec.ofNat 32 (s.host.readLE ((p.words.get 1).toNat / 4 * 4 + 4 * i) 4)
    (s.progUsed fn prog = false → s.ownsCtx fn ((p.words.get 4).toNat % 4096) = true → 0 < n → n ≤ 1024 →
      s.hostHidden fn ((p.words.get 1).toNat / 4 * 4) (4 * n) = false → p.unloaded.tablesOf s ((p.words.get 4).toNat % 4096) = some tables →
      (verify ops tables = none → ∃ u, exec (.spargeProgramLoad fn prog) s = .next u ∧ (u.prog fn prog).loaded = true ∧
        (u.prog fn prog).ops = ops ∧ (u.prog fn prog).tables = tables ∧ (u.prog fn prog).words = p.words) ∧
      (∀ c i, verify ops tables = some (c, i) → ∃ u, exec (.spargeProgramLoad fn prog) s = .next u ∧ (u.prog fn prog).loaded = false ∧
        (u.prog fn prog).failed = true ∧ (u.prog fn prog).failCheck = c ∧ (u.prog fn prog).failIndex = i)) ∧
    (s.progUsed fn prog = false → s.hostHidden fn ((p.words.get 1).toNat / 4 * 4) (4 * n) = true →
      ∃ u, exec (.spargeProgramLoad fn prog) s = .next u ∧ (u.prog fn prog).loaded = false ∧ (u.prog fn prog).failed = true ∧
        (u.prog fn prog).failCheck = 0 ∧ (u.prog fn prog).ops = []) ∧
    (s.progUsed fn prog = false → ∃ u, exec (.spargeProgramUnload fn prog) s = .next u ∧
      u.prog fn prog = { (default : SpProg) with words := p.words }) ∧
    (s.progUsed fn prog = true → ∀ i ∈ [Instr.spargeProgramLoad fn prog, .spargeProgramUnload fn prog],
      exec i s = .next { s with pkg := { s.pkg with dropped := s.pkg.dropped + 1 } })) ∧
  (∀ (s : State) (code : BitVec 16), s.Interprets →
    let x := s.interps.get s.curI
    let l := x.bufBytes
    let q := s.lq x.fn x.lq
    let r := s.ring x.fn x.pkt.ring
    let stages := fun (i : Instr) (k : EmitKind) => exec i s = .next (s.withInterp
      ({ x with count := x.count + 1, emits := x.emits ++ [(⟨k, x.idx, x.pkt.ring, x.pkt.tag⟩ : Emission)] }.goTo (x.idx + 1)))
    let bad := fun (i : Instr) => exec i s = .next (s.rejectPkt s.curI 3 x.idx 0)
    let ends := fun (u : State) => u.interps.get s.curI = default ∧ (u.ring x.fn x.pkt.ring).head = r.head + BitVec.ofNat 32 x.pkt.slots ∧
      (u.lq x.fn x.lq).ended = q.ended + 1 ∧ u.threads = s.threads
    stages .efence .fence ∧
    (nonZero l 3 4 = false → nonZero l 8 256 = false → 1 ≤ bfld l 2 1 → bfld l 2 1 ≤ 191 →
      stages .esignal (.signal (bfld l 0 2) (bfld l 2 1) (BitVec.ofNat 32 (bfld l 4 4)))) ∧
    (nonZero l 27 256 = false → bfld l 16 8 ≤ 2 ^ 36 → bfld l 26 1 ≤ 191 →
      stages .ecopy (.copy (bfld l 0 8) (bfld l 8 8) (bfld l 16 8) (bfld l 24 2) (bfld l 26 1))) ∧
    (nonZero l 3 64 = false → nonZero l 192 256 = false → launchFail s q.cid (bfld l 0 2) (bfld l 2 1) true = none →
      stages .elaunch (.launch (bfld l 0 2) (bfld l 2 1) none (bindsOf l))) ∧
    (bfld l 3 1 ≤ 1 → nonZero l 4 8 = false → nonZero l 16 64 = false → nonZero l 192 256 = false →
      launchFail s q.cid (bfld l 0 2) (bfld l 2 1) true = none →
      stages .egang (.launch (bfld l 0 2) (bfld l 2 1) (some (bfld l 8 8, decide (bfld l 3 1 = 1))) (bindsOf l))) ∧
    (nonZero l 66 256 = false → s.descFail q.cid false true l = none → stages .etile (.tile (l.take 64) (bfld l 64 2))) ∧
    (nonZero l 192 256 = true → bad .elaunch ∧ bad .egang ∧ bad .etile ∧ bad .ecopy ∧ bad .esignal) ∧
    (∃ u, exec (.reject code) s = .next u ∧ ends u ∧ (u.lq x.fn x.lq).released = q.released ∧ u.hbm = s.hbm) ∧
    (x.writes = [] → ∃ u, exec .done s = .next u ∧ ends u ∧ (u.lq x.fn x.lq).released = q.released ++ x.emits ∧ u.hbm = s.hbm ∧
      u.host = s.host.writeLE r.shadow.toNat 8 (r.head + BitVec.ofNat 32 x.pkt.slots).toNat) ∧
    (∀ (t : State) (it : Nat), (t.interps.get it).busy = true → 512 ≤ (t.interps.get it).count →
      exec (.budget it) t = .next (t.rejectPkt it 2 (t.interps.get it).idx 22) ∧
      (t.curI = it → exec .done t = .next (t.rejectPkt it 2 (t.interps.get it).idx 22))))

/-- R317, R441: the operations of sparge programs that write a register, branch or repeat: each has its row's result, s0 reads zero, and control
passes on. PLD and EST move bytes of the packet and the emit buffer, TLD and TST read and stage entries of tables; one out of bounds ends the
packet with its reason. -/
def Obligations.SpargeOperations : Prop :=
  ∀ (s : State) (a d : BitVec 4) (imm : BitVec 16) (off : BitVec 14) (len : BitVec 9) (n : BitVec 7) (z : Size), s.Interprets →
    let x := s.interps.get s.curI
    let y := { x with count := x.count + 1 }
    let rd := x.rs d
    let ra := x.rs a
    let ad := (ra + off.setWidth 64).toNat
    let q := s.lq x.fn x.lq
    let tb := s.spTable x imm.toNat
    (∀ p ∈ [(Instr.li imm d, imm.signExtend 64), (.lih imm d, rd <<< 16 ||| imm.setWidth 64), (.mov a d, ra), (.spargeAdd a d, rd + ra),
        (.spargeSub a d, rd - ra), (.spargeAnd a d, rd &&& ra), (.spargeOr a d, rd ||| ra), (.spargeXor a d, rd ^^^ ra),
        (.spargeAddi imm d, rd + imm.signExtend 64), (.spargeShli imm d, rd <<< imm.toNat), (.spargeShri imm d, rd >>> imm.toNat),
        (.ceq a d, if rd = ra then 1 else 0), (.cltu a d, if rd.toNat < ra.toNat then 1 else 0), (.clt a d, if rd.toInt < ra.toInt then 1 else 0),
        (.qld 0 d, BitVec.ofNat 64 s.tick), (.qld 1 d, BitVec.ofNat 64 x.pkt.ring), (.qld 2 d, BitVec.ofNat 64 q.cid),
        (.qld 3 d, BitVec.ofNat 64 x.fn), (.qld 4 d, BitVec.ofNat 64 x.pkt.slots), (.qld 5 d, BitVec.ofNat 64 q.ended)],
      exec p.1 s = .next (s.withInterp ((y.ws d p.2).goTo (x.idx + 1)))) ∧
    exec (.bz imm d) s = .next (s.withInterp (y.goTo (if rd = 0 then x.idx + imm.toNat else x.idx + 1))) ∧
    exec (.bnz imm d) s = .next (s.withInterp (y.goTo (if rd = 0 then x.idx + 1 else x.idx + imm.toNat))) ∧
    exec (.jmp imm) s = .next (s.withInterp (y.goTo (x.idx + imm.toNat))) ∧
    exec (.spargeLoop len n) s = .next (s.withInterp
      ({ y with loops := { first := x.idx + 1, last := x.idx + len.toNat, left := n.toNat } :: x.loops }.goTo (x.idx + 1))) ∧
    (ad % sizeBytes z = 0 → ad + sizeBytes z ≤ 256 →
      exec (.pld z off a d) s = .next (s.withInterp
        ((y.ws d (BitVec.ofNat 64 (leNat ((x.pkt.bytes.drop ad).take (sizeBytes z))))).goTo (x.idx + 1))) ∧
      ∃ b, exec (.est z off a d) s = .next (s.withInterp ({ y with buf := b }.goTo (x.idx + 1))) ∧
        (∀ i, i < sizeBytes z → b.get (ad + i) = BitVec.ofNat 8 (rd.toNat / 2 ^ (8 * i))) ∧
        ∀ i, i < ad ∨ ad + sizeBytes z ≤ i → b.get i = x.buf.get i) ∧
    (ad % sizeBytes z ≠ 0 ∨ 256 < ad + sizeBytes z → ∀ i ∈ [Instr.pld z off a d, .est z off a d],
      exec i s = .next (s.rejectPkt s.curI 3 x.idx 0)) ∧
    (ra.toNat < tb.count → exec (.tst imm a d) s =
        .next (s.withInterp ({ y with writes := x.writes ++ [(imm.toNat, ra.toNat, rd)] }.goTo (x.idx + 1))) ∧
      ((∀ w ∈ x.writes, w.1 ≠ imm.toNat ∨ w.2.1 ≠ ra.toNat) →
        exec (.tld imm a d) s = .next (s.withInterp ((y.ws d (tb.read s ra.toNat)).goTo (x.idx + 1)))) ∧
      (∀ w l, x.writes = l ++ [(imm.toNat, ra.toNat, w)] → exec (.tld imm a d) s = .next (s.withInterp ((y.ws d w).goTo (x.idx + 1))))) ∧
    (tb.count ≤ ra.toNat → ∀ i ∈ [Instr.tld imm a d, .tst imm a d], exec i s = .next (s.rejectPkt s.curI 9 x.idx 0))

/-- R305, R306, R303, R329, R330, R269, R343: writes of the control BAR. EVQ_BASE and EVQ_SIZE start the event queue anew; the function range
table takes ranges that clash with no other; WEIGHT_CMD sets an issue weight; SHAPE_W1 stages and SHAPE_W0 commits a shape class, or the class
is refused; read-only registers keep their value, and such a write is not counted (assumption log entry 40), the package registers clear or take the
bits written, and what names no register, or none of a VF, is dropped and counted. That reserved bits of the shape words are dropped is assumption
log entry 56. -/
def Obligations.HostRegisterWrites : Prop :=
  ∀ (s : State) (fn n : Nat) (v : W64), s.Hears fn →
    let f := s.func fn
    let p := s.pkg
    let drops := fun (i : Instr) => exec i s = .next { s with pkg := { p with dropped := p.dropped + 1 } }
    let func := fun (i : Instr) (g : Func) => exec i s = .next { s with funcs := s.funcs.put fn g }
    let pkg := fun (i : Instr) (q : Pkg) => exec i s = .next { s with pkg := q }
    func (.evqConfigWrite fn false v) { f with evqBase := v &&& 0xFFFFFFFFFFFC0, evqHead := 0, evqTail := 0 } ∧
    func (.evqConfigWrite fn true v) { f with evqSize := v, evqHead := 0, evqTail := 0 } ∧
    func (.registerWrite fn 0x40 v) { f with evqBase := v &&& 0xFFFFFFFFFFFC0, evqHead := 0, evqTail := 0 } ∧
    func (.registerWrite fn 0x50 v) { f with evqHead := v } ∧ func (.registerWrite fn 0x60 v) { f with evqLost := 0 } ∧
    (f.pend = none → n < 8 → func (.registerWrite fn (0x20000 + 8 * n) v) { f with cmd := f.cmd.put n v }) ∧
    (∀ off ∈ [0x00, 0x08, 0x10, 0x58], exec (.registerWrite fn off v) s = .next s) ∧
    (∀ off ∈ [0x18, 0x44, 0x68, 0xFF8, 0x1000, 0xFFF8, 0x30000, 0x90000, 0x900000, 0x1400000], drops (.registerWrite fn off v)) ∧
    (fn ≠ 0 → (∀ off ∈ [0x10000, 0x10008, 0x10420, 0x104A8, 0x11000, 0x20100, 0x100000], drops (.registerWrite fn off v)) ∧
      ∀ i ∈ [Instr.weightCmd fn v, .shapeW1 fn n v, .shapeW0 fn n v, .functionRangeWrite fn n true v, .powerCtlOn fn, .powerCtlIdle fn,
        .powerCtlGated fn 1, .powerCtlSleep fn, .powerCtlOff fn, .bootCtlGo fn n, .fwCtlGo fn], drops i) ∧
    (fn = 0 →
      pkg (.registerWrite 0 0x10400 v) { p with shapeRefused := p.shapeRefused &&& ~~~v } ∧
      pkg (.registerWrite 0 0x10430 v) { p with powerLimit := v &&& 0xFFFF } ∧
      (1 ≤ v.toNat % 4096 → v.toNat % 4096 ≤ 3600 → pkg (.registerWrite 0 0x10480 v) { p with errWindow := v &&& 0xFFF }) ∧
      pkg (.registerWrite 0 0x10490 v) { p with flrDropped := 0 } ∧ pkg (.registerWrite 0 0x10498 v) { p with dropped := 0 } ∧
      (n < 64 → pkg (.shapeW1 0 n v) { p with shapeW1 := p.shapeW1.put n (v &&& 0xFFF) }) ∧
      (let w0 := v &&& 0x83FF03FF03FF3FFF
       let w1 := p.shapeW1.get n
       (n < 64 → (shapeFields w0 w1).refused = false → s.shapeUsed n = false →
         exec (.shapeW0 0 n v) s = .next { s with shapes := s.shapes.put n (w0, w1) }) ∧
       (n < 64 → (shapeFields w0 w1).refused = true ∨ s.shapeUsed n = true →
         pkg (.shapeW0 0 n v) { p with shapeRefused := p.shapeRefused ||| (1#64 <<< n) })) ∧
      (p.weights.Rising → v.toNat / 65536 % 1024 < 832 → v.getLsbD 12 = false → ∃ u, exec (.weightCmd 0 v) s = .next u ∧
        u.weight (v.toNat / 65536 % 1024) (v.toNat % 4096) = (if v.toNat / 2 ^ 32 % 256 = 0 then 16 else v.toNat / 2 ^ 32 % 256) ∧
        ∀ c t, c ≠ v.toNat / 65536 % 1024 → c < 832 → t ≤ 4096 → u.weight c t = s.weight c t) ∧
      (832 ≤ v.toNat / 65536 % 1024 → v.toNat / 65536 % 1024 ≠ 1023 → pkg (.weightCmd 0 v) { p with weightErr := true }) ∧
      (n < 256 → s.rings = [] → s.lqs = [] → v.toNat % 2 ^ 17 + v.toNat / 2 ^ 32 % 2 ^ 18 ≤ 131072 → (s.func n).lqFirst + (s.func n).lqCount ≤ 8192 →
        (∀ o ∈ s.funcs, o.1 ≠ n → meet o.2.ringFirst o.2.ringCount (v.toNat % 2 ^ 17) (v.toNat / 2 ^ 32 % 2 ^ 18) = false ∧
          meet o.2.lqFirst o.2.lqCount (s.func n).lqFirst (s.func n).lqCount = false) →
        exec (.functionRangeWrite 0 n false v) s = .next { s with funcs := s.funcs.put n { (s.func n) with
          ringFirst := v.toNat % 2 ^ 17, ringCount := v.toNat / 2 ^ 32 % 2 ^ 18 } }))

/-- R336, R337, R294, R398: ON and IDLE are in force at once while the package is in either; GATED, SLEEP and OFF begin a transition, which
POWER_TRANSITION_DONE completes; OFF loses every state but host memory, and its tick is 0 (assumption log entries 52 and 3); gating every die is an
error; telemetry is what was last measured, every 1,250,000 ticks; a trip, judged on that telemetry (assumption log entry 53), of a die or stack hotter than its fused limit or of a current above the limit in force, stops the package, takes its threads back to their last commit points, and posts the event. -/
def Obligations.PowerStatesAndTrips : Prop :=
  ∀ (s : State) (dies : BitVec 8) (w d h a : BitVec 16) (place : BitVec 9), s.Hears 0 →
    let ps := s.pkg.powerState
    let moving := fun (u : State) (st : Nat) => (u.pkg.powerState).getLsbD 3 = true ∧ u.powerIn = s.powerIn ∧ u.pkg.powerCtl.toNat % 8 = st ∧
      (u.pkg.powerState).getLsbD 5 = false ∧ u.hbm = s.hbm
    (s.powerIn ≤ 1 → s.bells = [] → (∀ c ∈ s.ctxs, c.2.freezing = none) → ∀ i ∈ [(Instr.powerCtlOn 0, 0), (.powerCtlIdle 0, 1)], ∃ u, exec i.1 s = .next u ∧
      u.pkg.powerState = (ps &&& 0x10) ||| BitVec.ofNat 64 i.2 ∧ u.pkg.powerCtl = BitVec.ofNat 64 i.2 ∧ u.hbm = s.hbm ∧ u.threads = s.threads) ∧
    (2 ≤ s.powerIn → ∀ i ∈ [(Instr.powerCtlOn 0, 0), (.powerCtlIdle 0, 1)], ∃ u, exec i.1 s = .next u ∧ moving u i.2) ∧
    (dies ≠ 255 → s.stagingFits dies.toNat = true → s.threads = [] → ∃ u, exec (.powerCtlGated 0 dies) s = .next u ∧ moving u 2 ∧
      (u.pkg.powerCtl.toNat / 256 % 256 = dies.toNat)) ∧
    (∃ u, exec (.powerCtlGated 0 255) s = .next u ∧ u.pkg.powerState = (ps &&& ~~~0x20) ||| 0x10 ∧ u.pkg.powerCtl = s.pkg.powerCtl) ∧
    (s.ctxs = [] → ∃ u, exec (.powerCtlSleep 0) s = .next u ∧ moving u 3) ∧
    (∃ u, exec (.powerCtlOff 0) s = .next u ∧ moving u 4) ∧
    (ps.getLsbD 3 = true → s.ctxs = [] → s.bells = [] → s.threads = [] →
      (∀ st ∈ [0, 1], s.pkg.powerCtl = BitVec.ofNat 64 st → ∃ u, exec .powerTransitionDone s = .next u ∧ u.powerIn = st ∧ u.pkg.powerState.getLsbD 3 = false) ∧
      (s.pkg.powerCtl = BitVec.ofNat 64 (2 + dies.toNat * 256) → ∃ u, exec .powerTransitionDone s = .next u ∧ u.powerIn = 2 ∧
        u.pkg.powerState.toNat / 256 % 256 = dies.toNat) ∧
      (s.pkg.powerCtl = 3 → ∃ u, exec .powerTransitionDone s = .next u ∧ u.powerIn = 3) ∧
      (s.pkg.powerCtl = 4 → ∃ u, exec .powerTransitionDone s = .next u ∧ u.powerIn = 4 ∧ u.host = s.host ∧ u.hbm = default ∧ u.ctxs = [] ∧
        u.images = [] ∧ u.frames = [] ∧ u.tick = 0)) ∧
    (s.powerIn ≠ 4 → s.pkg.telemAt + 1250000 ≤ s.tick → ∃ u, exec (.telemetryRefresh w d h a) s = .next u ∧ u.pkg = { s.pkg with
      powerW := w.setWidth 64, tempDie := d.setWidth 64, tempHbm := h.setWidth 64, currentA := a.setWidth 64, telemAt := s.tick }) ∧
    ((s.powerIn = 4 ∨ s.tick < s.pkg.telemAt + 1250000) → exec (.telemetryRefresh w d h a) s = .next s) ∧
    (∀ (key : Nat) (t : Thread) (v : Version), s.threads = [(key, t)] → key < passBase → t.alive = true → t.run = .resident → t.gang = 0 →
      t.versions = [v] → v.published = false → s.passes = [] → ∀ hot much, (hot && s.pkg.tooHot || much && s.pkg.tooMuch) = true →
        ∃ u, exec (.thermalOrCurrentTrip hot much place) s = .next u ∧
        u.stopped = true ∧ (u.thr key).run = .waiting ∧ (u.thr key).live.x = t.committed.x ∧ (u.thr key).live.pc = t.committed.pc ∧
        (u.thr key).idleQueues = true ∧ (∃ p ∈ u.places, key ∈ p.keys) ∧
        ((u.func 0).evqTail = (s.func 0).evqTail + 1 ∨ (u.func 0).evqLost = (s.func 0).evqLost + 1)) ∧
    ∀ hot much, (hot && s.pkg.tooHot || much && s.pkg.tooMuch) = false → exec (.thermalOrCurrentTrip hot much place) s = .next s

/-- R363, R420, R421: POWER_UP gives the state after reset, with host memory as it was and tick 0 (assumption log entries 52 and 3); the ROM starts
an image that verifies and refuses one that does not; a Kiln reset leaves no firmware running, and memory, threads and the boot window as they were
(assumption log entry 37). A live update verifies the new image, which goes into the inactive slot, quiesces, hands over by a structure with MAGIC and
the format that the running image writes, and starts the new image: its first heartbeat makes its slot the active one, and without one in 62,500,000
ticks the old image restarts. Which verdict gives which ERR is assumption log entry 37 too. -/
def Obligations.BootAndLiveUpdate : Prop :=
  ∀ (s : State) (len : Nat),
    let b := s.boot
    let img := (countFrom 0 len).map fun i => (b.window.get i : Byte)
    let v := Config.imageVerdict img
    (∃ u, exec .powerUp s = .next u ∧ u.host = s.host ∧ u.hbm = default ∧ u.threads = [] ∧ u.ctxs = [] ∧ u.boot.running = false ∧
      u.boot.waiting = true ∧ u.tick = 0 ∧ u.powerIn = 0) ∧
    (s.Hears 0 → b.running = false → 0 < len → len ≤ 8388608 → b.posts = [] →
      ((v < 1 ∨ 4 < v) → ∃ u, exec (.bootCtlGo 0 len) s = .next u ∧ u.boot.running = true ∧ u.boot.waiting = false ∧ u.boot.fail = false ∧
        u.boot.kiln = digestOf img ∧ u.boot.slotBActive = false ∧ u.threads = s.threads) ∧
      (1 ≤ v → v ≤ 4 → ∃ u, exec (.bootCtlGo 0 len) s = .next u ∧ u.boot.running = false ∧ u.boot.fail = true ∧ u.boot.reason = v)) ∧
    (s.Hears 0 → b.running = false → (len = 0 ∨ 8388608 < len) → ∃ u, exec (.bootCtlGo 0 len) s = .next u ∧ u.boot.fail = true ∧ u.boot.reason = 5) ∧
    (s.Hears 0 → b.running = true → exec (.bootCtlGo 0 len) s = .next s) ∧
    (∃ u, exec .kilnReset s = .next u ∧ u.boot.running = false ∧ u.boot.waiting = true ∧ u.boot.window = b.window ∧ u.spdm.session = false ∧
      u.threads = s.threads ∧ u.hbm = s.hbm) ∧
    (let n := min (Config.updateLength (b.window.map (·.2))) 8388608
     let new := (countFrom 0 n).map fun i => (b.window.get i : Byte)
     let w := Config.imageVerdict new
     s.Hears 0 → b.running = true → b.phase = 0 → b.posts = [] →
      (1 ≤ w → w ≤ 4 → ∃ u, exec (.fwCtlGo 0) s = .next u ∧ u.boot.phase = 0 ∧ u.boot.err = (if w = 3 then 2 else 1) ∧ u.boot.slotBActive = b.slotBActive) ∧
      ((w < 1 ∨ 4 < w) → ∃ u, exec (.fwCtlGo 0) s = .next u ∧ (u.boot.phase = 2 ∨ u.boot.phase = 4 ∨ (u.boot.phase = 0 ∧ u.boot.err = 3)) ∧
        u.boot.slotBActive = b.slotBActive ∧ (if b.slotBActive then u.boot.slotA else u.boot.slotB) = digestOf new ∧
        (u.boot.phase ≠ 2 → ∃ m, u.boot.handover = some m ∧ m.magic = 0x44484E48 ∧ m.format = Config.formatWritten (b.slot true)))) ∧
    (b.phase = 4 → b.posts = [] → ∃ u, exec .fwHeartbeat s = .next u ∧ u.boot.phase = 0 ∧ u.boot.slotBActive = !b.slotBActive) ∧
    (b.phase ≠ 4 → exec .fwHeartbeat s = .next s ∧ exec .heartbeatTimeout s = .next s) ∧
    (b.phase = 4 → b.started + 62500000 ≤ s.tick → b.posts = [] → ∃ u, exec .heartbeatTimeout s = .next u ∧ u.boot.phase = 5 ∧ u.boot.err = 4 ∧
      u.boot.slotBActive = b.slotBActive)

/-- R364, R365, R366: the SPDM requests of the PF in the protocol's order are answered, each with its response, and a session begins with
FINISH and ends with END_SESSION; inside one KEY_INSTALL keys a context and IDE_KM a stream. A request of a VF, out of order or for another
certificate slot is answered with an error, and changes nothing. A broken IDE stream's TLP is counted. The signatures, the key share and
the order of requests are the model's free values and its choice (log entry 38). -/
def Obligations.AttestationAndKeys : Prop :=
  ∀ (s : State) (o : SpdmAlgs) (nonce mac key : BitVec 256) (pub : BitVec 512) (a b c n : Nat),
    let x := s.spdm
    let replies := fun (u : State) (m : SpdmAns) => u.spdm.out = x.out ++ [m] ∧ u.ctxs = s.ctxs ∧ u.threads = s.threads ∧ u.hbm = s.hbm
    let answers := fun (i : Instr) (m : SpdmAns) => ∃ u, exec i s = .next u ∧ replies u m
    let refuses := fun (i : Instr) => exec i s = .next { s with spdm := { x with out := x.out ++ [.error] } }
    (∃ u, exec (.getVersion 0) s = .next u ∧ replies u .version ∧ u.spdm.version = true ∧ u.spdm.session = false) ∧
    (x.version = true → ∃ u, exec (.getCapabilities 0) s = .next u ∧ replies u .capabilities ∧ u.spdm.caps = true) ∧
    (x.caps = true → ∃ u, exec (.negotiateAlgorithms 0 o) s = .next u ∧ replies u (.algorithms o) ∧ u.spdm.algs = some o) ∧
    (x.algs.isSome = true → answers (.getDigests 0) (.digests (digestOf Config.certChain)) ∧
      answers (.getCertificate 0 0 a b) (.certificate a ((Config.certChain.drop a).take b)) ∧
      answers (.challenge 0 0 nonce) (.challengeAuth nonce (Config.spdmSign s.fresh nonce)) ∧
      answers (.getMeasurements 0 2 false nonce) (.measurements [(2, s.boot.kiln)] none) ∧
      answers (.getMeasurements 0 3 true nonce) (.measurements [(3, s.boot.sched)] (some (Config.spdmSign s.fresh nonce))) ∧
      (∃ l, answers (.getMeasurements 0 255 false nonce) (.measurements l none) ∧ l.map (·.1) = [1, 2, 3, 4, 5]) ∧
      ∃ u, exec (.keyExchange 0 0 pub) s = .next u ∧ u.spdm.exchanged = true ∧ u.spdm.session = false ∧
        u.spdm.secret = Config.sessionSecret s.fresh pub ∧ u.spdm.out.length = x.out.length + 1) ∧
    (x.exchanged = true → mac = Config.finishMac x.secret → ∃ u, exec (.finish 0 mac) s = .next u ∧ replies u .finishRsp ∧ u.spdm.session = true) ∧
    (x.exchanged = true → mac ≠ Config.finishMac x.secret → refuses (.finish 0 mac)) ∧
    (x.session = true →
      (∃ u, exec (.keyUpdate 0) s = .next u ∧ replies u .keyUpdateAck ∧ u.spdm.secret = Config.nextSecret x.secret ∧ u.spdm.session = true) ∧
      answers (.heartbeat 0) .heartbeatAck ∧
      (∃ u, exec (.endSession 0) s = .next u ∧ replies u .endSessionAck ∧ u.spdm.session = false ∧ u.spdm.secret = 0) ∧
      (s.Exists c → s.boot.running = true → ∃ u, exec (.keyInstall 0 c 0 key) s = .next u ∧ (u.ctx c).key = some key ∧ (u.ctx c).keyed = true ∧
        (u.ctx c).keyGen = ((s.ctx c).keyGen + 1) % 2 ^ 32 ∧ (∀ d, d ≠ c → u.ctx d = s.ctx d)) ∧
      (n ≤ 4 → ∃ u, exec (.ideKm 0 n key) s = .next u ∧ u.ide.get n = key ∧ ∀ m, m ≠ n → u.ide.get m = s.ide.get m) ∧
      (4 < n → ∃ u, exec (.ideKm 0 n key) s = .next u ∧ u.ide = s.ide)) ∧
    (x.version = false → refuses (.getCapabilities 0)) ∧ (x.caps = false → refuses (.negotiateAlgorithms 0 o)) ∧
    (x.algs = none → refuses (.getDigests 0) ∧ refuses (.challenge 0 0 nonce) ∧ refuses (.keyExchange 0 0 pub)) ∧
    (x.session = false → refuses (.keyUpdate 0) ∧ refuses (.heartbeat 0) ∧ refuses (.endSession 0) ∧ refuses (.keyInstall 0 c 0 key) ∧ refuses (.ideKm 0 n key)) ∧
    (a ≠ 0 → refuses (.getCertificate 0 a b c) ∧ refuses (.challenge 0 a nonce) ∧ ∀ i ∈ [Instr.getVersion a, .getCapabilities a, .negotiateAlgorithms a o,
      .getDigests a, .getMeasurements a 2 false nonce, .finish a mac, .keyUpdate a, .heartbeat a, .endSession a, .keyInstall a c 0 key, .ideKm a n key], refuses i) ∧
    (∃ u, exec (.ideIntegrityFail n) s = .next u ∧ u.ideFails = s.ideFails + (if s.ide.has n then 1 else 0) ∧ u.threads = s.threads)

/-- R84, R12, R42, R118: a VA word whose engine is idle is pushed and performed: it pops what it reads without keeping it, pushes its results
with the union of the taints of its operands, writes its mask, ORs its flags into VSTAT, and changes no other register, no memory and no
other thread. VSETT sets VTYPE, from its immediate or from xa, and raises ILLEGAL for a reserved value, with the PC of the word in TRAP_ADDR
(assumption log entry 12). -/
def Obligations.VectorWordsComplete : Prop :=
  (∀ (d a b : BitVec 6) (m : BitVec 3) (p q : Bool),
    VaCompletes (.vadd d a b m p q) [] ∧ VaCompletes (.vsub d a b m p q) [] ∧ VaCompletes (.vmul d a b m p q) [] ∧
    VaCompletes (.vfma d a b m p q) [] ∧ VaCompletes (.vfnma d a b m p q) [] ∧ VaCompletes (.vmin d a b m p q) [] ∧
    VaCompletes (.vmax d a b m p q) [] ∧ VaCompletes (.vdiv d a b m p q) [] ∧ VaCompletes (.vscale d a b m p q) [] ∧
    VaCompletes (.vaddx d a b m p q) [] ∧ VaCompletes (.vmulx d a b m p q) [] ∧ VaCompletes (.vfmax d a b m p q) [] ∧
    VaCompletes (.vand d a b m p q) [] ∧ VaCompletes (.vor d a b m p q) [] ∧ VaCompletes (.vxor d a b m p q) [] ∧
    VaCompletes (.vshl d a b m p q) [] ∧ VaCompletes (.vshr d a b m p q) [] ∧ VaCompletes (.vsra d a b m p q) [] ∧
    VaCompletes (.vperm d a b m p q) [] ∧ VaCompletes (.vmix d a b m p q) [] ∧
    VaCompletes (.vabs d a m p) [] ∧ VaCompletes (.vneg d a m p) [] ∧ VaCompletes (.vsqrt d a m p) [] ∧ VaCompletes (.vrsq d a m p) [] ∧
    VaCompletes (.vexp2 d a m p) [] ∧ VaCompletes (.vlog2 d a m p) [] ∧ VaCompletes (.vfclass d a m p) [] ∧ VaCompletes (.vcnt d a m p) [] ∧
    VaCompletes (.vmov d a m p) [] ∧ VaCompletes (.vtagr d a m p) [] ∧ VaCompletes (.vunif d a m p) [] ∧
    (∀ r : RMode, VaCompletes (.vrnd d a r m p) []) ∧
    (∀ x : BitVec 5, VaCompletes (.vextr d a x m p) [x] ∧ VaCompletes (.vrot d a x m p) [x]) ∧
    (∀ k : BitVec 2, VaCompletes (.vsel d a b k p q) [] ∧ VaCompletes (.vargmax d a k p) [] ∧ VaCompletes (.viota d k) [] ∧
      VaCompletes (.vdrop a k) [] ∧ (∀ x : BitVec 5, VaCompletes (.vbcast d x k) [x]) ∧ ∀ op : RedOp, VaCompletes (.vred d a op k p) []) ∧
    (∀ t : Ty, VaCompletes (.vpack d a t) [] ∧ VaCompletes (.vunpk d a t p) [] ∧ ∀ (r : RSel) (v : BitVec 5), VaCompletes (.vcvt d a t r v) []) ∧
    (∀ (k : BitVec 3) (c : Cond), VaCompletes (.vcmp k c a b m p q) []) ∧
    (∀ (k i j : BitVec 3) (f : BitVec 4), VaCompletes (.kop k i j f) []) ∧ ∀ k : BitVec 3, VaCompletes (.kpopc d k) []) ∧
  ∀ (s : State) (imm : BitVec 13) (x : BitVec 5), s.Free .va →
    let sets := fun (i : Instr) (v : Nat) =>
      (vtypeOk v = true → ∃ u, exec i s = .next u ∧ (u.thr s.cur).live = { (s.thr s.cur).live.next with vtype := BitVec.ofNat 32 v } ∧ s.Ran .va u ∧ s.SameMem u) ∧
      (vtypeOk v = false → ∃ u, exec i s = .next u ∧ (u.thr s.cur).run = .trapped ∧ (u.thr s.cur).trap.cause = 1 ∧ (u.thr s.cur).trap.addr = BitVec.ofNat 64 (s.thr s.cur).live.pc)
    sets (.vsett imm) imm.toNat ∧ sets (.vsettXa x) (((s.thr s.cur).rx x).val.toNat % 8192)

/-- R80, R82, R91 to R96, R100 to R107, R114, R116: what each lane of a VA result holds. An active lane holds the function of the source
lanes: integers exact and reduced once to the type, or clamped when VTYPE saturates, floats the exact result rounded once; a masked-off lane
the lane of va, or zero without merge. Comparisons write one mask bit per lane, and no bit beyond the lanes. -/
def Obligations.VectorLaneResults : Prop :=
  ∀ (x : VaIn) (d va vb : BitVec 6) (m : BitVec 3) (p q : Bool) (k : BitVec 2) (xr : BitVec 5) (i : Nat),
    let w := x.et.lane
    let n := 4096 / w
    let a := laneAt w i (x.ent 0)
    let b := laneAt w i (x.ent 1)
    let c := laneAt w i (x.ent 2)
    let A := laneInt x.et a
    let B := laneInt x.et b
    let C := laneInt x.et c
    let act := x.mask.getLsbD i
    let dead := if x.merge then a else 0
    let lo : Int := if x.et.signed then -(2 ^ (w - 1)) else 0
    let hi : Int := if x.et.signed then 2 ^ (w - 1) - 1 else 2 ^ w - 1
    let red := fun (v : Int) => lowBits w (if x.sat then max lo (min hi v) else v)
    let rnd := fun (v : Sys2Proof.Num) => (x.et.encode x.rm x.sat v).1
    let gives := fun (I : Instr) (v : Nat) => ∀ op, vaOp I = some op → (op.run x).outs.map (laneAt w i) = [if act then v else dead]
    i < n →
    (x.et.isInt = true →
      gives (.vadd d va vb m p q) (red (A + B)) ∧ gives (.vsub d va vb m p q) (red (A - B)) ∧ gives (.vmul d va vb m p q) (red (A * B)) ∧
      gives (.vfma d va vb m p q) (red (A * B + C)) ∧ gives (.vfnma d va vb m p q) (red (C - A * B)) ∧
      gives (.vmin d va vb m p q) (if A < B then a else b) ∧ gives (.vmax d va vb m p q) (if A < B then b else a) ∧
      gives (.vabs d va m p) (red |A|) ∧ gives (.vneg d va m p) (red (-A)) ∧
      gives (.vshl d va vb m p q) (if w ≤ b then 0 else a * 2 ^ b % 2 ^ w) ∧ gives (.vshr d va vb m p q) (if w ≤ b then 0 else a / 2 ^ b) ∧
      gives (.vsra d va vb m p q) (lowBits w (signedW w a / 2 ^ min b w)) ∧
      gives (.vcnt d va m p) ((List.range w).countP fun j => a.testBit j) ∧ gives (.viota d k) (i % 2 ^ w) ∧
      (∀ (kd : BitVec 3) (cd : Cond) (op : VaOp), vaOp (.vcmp kd cd va vb m p q) = some op →
        (op.run x).k.getLsbD i = (if act then (match cd with
          | .eq => decide (A = B) | .ne => decide (A ≠ B) | .lt => decide (A < B) | .le => decide (A ≤ B) | .gt => decide (B < A)
          | .ge => decide (B ≤ A) | .unord => false | .ord => true) else x.merge && x.kold.getLsbD i) ∧
        ∀ j, n ≤ j → (op.run x).k.getLsbD j = false) ∧
      (∀ op, vaOp (.vred d va .add k p) = some op → (op.run x).outs.map (laneAt w i) =
        [if i = 0 then red (((List.range n).map fun j => if x.mask.getLsbD j then laneInt x.et (laneAt w j (x.ent 0)) else 0).sum) else 0])) ∧
    (x.et.isF = true →
      gives (.vadd d va vb m p q) (rnd ((x.et.value a).add x.rm (x.et.value b)).1) ∧
      gives (.vsub d va vb m p q) (rnd ((x.et.value a).add x.rm (x.et.value b).neg).1) ∧
      gives (.vmul d va vb m p q) (rnd ((x.et.value a).mul (x.et.value b)).1) ∧
      gives (.vfma d va vb m p q) (rnd (Sys2Proof.Num.fma x.rm (x.et.value a) (x.et.value b) (x.et.value c)).1) ∧
      gives (.vdiv d va vb m p q) (rnd ((x.et.value a).div (x.et.value b)).1) ∧ gives (.vsqrt d va m p) (rnd (x.et.value a).sqrt.1) ∧
      gives (.vfclass d va m p) (fclass x.et a)) ∧
    gives (.vand d va vb m p q) (a &&& b) ∧ gives (.vor d va vb m p q) (a ||| b) ∧ gives (.vxor d va vb m p q) (a ^^^ b) ∧
    gives (.vmov d va m p) a ∧ gives (.vbcast d xr k) (x.xb.toNat % 2 ^ w) ∧
    gives (.vextr d va xr m p) (laneAt w (x.xb.toNat % n) (x.ent 0)) ∧ gives (.vrot d va xr m p) (laneAt w ((i + x.xb.toNat) % n) (x.ent 0)) ∧
    (8 < w → gives (.vperm d va vb m p q) (if b < n then laneAt w b (x.ent 0) else 0)) ∧
    (w = 8 → gives (.vperm d va vb m p q) (laneAt 8 (256 * (i / 256) + b) (x.ent 0))) ∧
    (∀ op, vaOp (.vsel d va vb k p q) = some op → (op.run x).outs.map (laneAt w i) = [if act then a else b]) ∧
    (∀ (kd ka kb : BitVec 3) (fn : BitVec 4) (op : VaOp) (j : Nat), vaOp (.kop kd ka kb fn) = some op → j < 512 →
      (op.run x).k.getLsbD j = fn.getLsbD (2 * (x.ka.getLsbD j).toNat + (x.kb.getLsbD j).toNat)) ∧
    (∀ (ka : BitVec 3) (op : VaOp), vaOp (.kpopc d ka) = some op →
      (op.run x).outs = [BitVec.ofNat 4096 ((List.range n).countP fun j => x.ka.getLsbD j)])

/-- R39, R41, R213, R224, R146: a wait entry of an engine takes its count from the flag when it is there, and otherwise stays at the head of
its queue while the sequencer goes on; a set entry adds its count, saturating. f0 is no flag; a group flag without a selected group is
ILLEGAL at the word. R185, R186, R223, R386: CPSIG to a peer adds its count to a local flag of the peer at once; through a window it sends a signal packet and
waits at the head of its queue for the answer. Either is a publishing act; a destination that does not exist is PROT. -/
def Obligations.TokensAndSignals : Prop :=
  (∀ (s : State) (f : BitVec 8) (n : BitVec 9), s.LogOff →
    let t := s.thr s.cur
    let words := fun (f : BitVec 8) => [(Eng.vl, Instr.vlwait f n, Instr.vlset f n), (.va, .vawait f n, .vaset f n), (.vs, .vswait f n, .vsset f n),
      (.mx, .mxwait f n, .mxset f n), (.cp, .cpwait f n, .cpset f n)]
    let passes := fun (u : State) => (u.thr s.cur).live.pc = t.live.next.pc ∧ (u.thr s.cur).live.x = t.live.x ∧ s.SameMem u
    (∀ r, 0 < f.toNat → flagRef s.cur t.cid t.live.gsel f = some r → s.waiters = [] → (t.ver t.curVer.id).deps = [] → s.Unbound →
      t.lines = [] → (r.group = true → s.allAcked s.cur = true) →
      ∀ w ∈ words f, s.Free w.1 → s.Idle →
        (n.toNat ≤ (s.flagVal r).toNat → ∃ u, exec w.2.1 s = .next u ∧ u.flagVal r = s.flagVal r - BitVec.ofNat 32 n.toNat ∧ s.Ran w.1 u ∧ passes u) ∧
        ((s.flagVal r).toNat < n.toNat → ∃ u, exec w.2.1 s = .next u ∧ u.flagVal r = s.flagVal r ∧ passes u ∧
          ((u.thr s.cur).queue w.1).entries.map (·.word) = [w.2.1]) ∧
        ∃ u, exec w.2.2 s = .next u ∧ u.flagVal r = BitVec.ofNat 32 (min ((s.flagVal r).toNat + n.toNat) 0xFFFFFFFF) ∧ s.Ran w.1 u ∧ passes u) ∧
    (s.Unbound → ∀ w ∈ words 0, s.Free w.1 → s.Idle → ∀ i ∈ [w.2.1, w.2.2], ∃ u, exec i s = .next u ∧ (u.thr s.cur).live.f = t.live.f ∧ s.Ran w.1 u ∧ passes u) ∧
    (192 ≤ f.toNat → t.live.gsel = none → s.Runs → ∀ w ∈ words f, ∀ i ∈ [w.2.1, w.2.2], exec i s = .next (s.takeTrap s.cur (t.sTrap (mkTrap 1 t.live.pc 0))))) ∧
  (∀ (s : State) (xa xb : BitVec 5) (d fl k : Nat), s.Free .cp → s.Idle → s.waiters = [] →
    let t := s.thr s.cur
    let v := (t.rx xb).val.toNat % 2 ^ 32
    (t.ver t.curVer.id).deps = [] → (∀ p ∈ s.threads, p.2.scores = []) → t.lines = [] → s.allAcked s.cur = true →
    (t.rx xa).val = BitVec.ofNat 64 (d + 32 * fl) → 0 < fl → fl < 192 → d < 24 →
    (16 ≤ d → s.peerKey t (d - 16) = some k → k ≠ s.cur → (s.thr k).alive = true → ∃ u, exec (.cpsig xa xb 0) s = .next u ∧ s.Ran .cp u ∧ s.SameMem u ∧
      (u.thr s.cur).live = t.live.next ∧ ((u.thr k).live.f.get fl).toNat = min (((s.thr k).live.f.get fl).toNat + v) 0xFFFFFFFF ∧
      ∀ g, g ≠ fl → (u.thr k).live.f.get g = (s.thr k).live.f.get g) ∧
    (d < 16 → (s.outbox.filter fun p => p.key = s.cur).length < 1024 → 2 ^ 63 ≤ (t.win.get d).target.toNat → (s.ctx t.cid).epGranted (t.win.get d).endpoint = true → ∃ u p, exec (.cpsig xa xb 0) s = .next u ∧
      u.outbox = s.outbox ++ [p] ∧ p.kind = .signal fl (BitVec.ofNat 32 v) ∧ p.key = s.cur ∧ p.win = d ∧ p.ep = (t.win.get d).endpoint ∧
      p.thread = (t.win.get d).target.toNat % 65536 ∧ ((u.thr s.cur).queue .cp).entries.map (fun y => (y.word, y.pkts)) = [(.cpsig xa xb 0, [p.id])] ∧
      (u.thr s.cur).live = t.live.next ∧ s.SameMem u) ∧
    ((if d < 16 then (t.win.get d).target.toNat < 2 ^ 63 else s.peerKey t (d - 16) = none) → ∃ u, exec (.cpsig xa xb 0) s = .next u ∧
      (u.thr s.cur).run = .trapped ∧ (u.thr s.cur).trap.cause = 5 ∧ (u.thr s.cur).trap.addr = (t.rx xa).val))

/-- R189, R190, R203 to R205: a vector load of the own scratch pushes one entry with empty taint: VLD the 512 bytes at its address, VLDB one
word in every active lane, VLDS and VLDX the elements at a stride or at indices, VLDT the tags of 128 blocks; a masked-off part is zero. A
load waits in its queue while its register is full; a VLDX whose index register is its own destination pops first. -/
def Obligations.VectorLoadsFromScratch : Prop :=
  ∀ (s : State) (vd vb : BitVec 6) (xa xb : BitVec 5) (k : BitVec 3) (imm : BitVec 11) (es : ESize) (iw sc : BitVec 2) (sg : Bool) (off : Nat) (at_ : Nat → Nat),
    s.Free .vl → s.Unbound → s.Idle →
    let t := s.thr s.cur
    let m := (t.live.rk k.toNat).val
    let a := (t.rx xa).val
    let room := (t.live.v.get vd.toNat).fifo.length < 4
    let loads := fun (i : Instr) (pop : Frame → Frame) (w : Nat) (lane : Nat → Nat) => ∃ u e, exec i s = .next u ∧ s.Ran .vl u ∧ s.SameMem u ∧
      (u.thr s.cur).live = pop (t.live.next.updV vd.toNat fun r => r.pushL [e]) ∧ e.taint = 0 ∧ e.owner = 0 ∧
      (∀ i, i < 4096 / w → laneAt w i e.data = lane i) ∧ (u.thr s.cur).tickets = []
    let ea := fun (n : Nat) => a + imm.signExtend 64 * BitVec.ofNat 64 n
    let own := fun (n : Nat) (va : Nat → W64) (cnt : Nat) => ∀ j, j < cnt → m.getLsbD j = true → va j = scratchVa (at_ j) ∧ s.OwnScratch (at_ j) n ∧ at_ j % n = 0
    let elem := fun (n cnt j : Nat) => if j < cnt ∧ m.getLsbD j = true then t.scratch.readLE (at_ j) n else 0
    (room → ea 64 = scratchVa off → off % 64 = 0 → s.OwnScratch off 512 →
      loads (.vld vd xa k imm) id 8 fun i => if m.getLsbD i then (t.scratch.byte (off + i)).toNat else 0) ∧
    (room → ea 4 = scratchVa off → off % 4 = 0 → s.OwnScratch off 4 →
      loads (.vldb vd xa k imm) id 32 fun i => if m.getLsbD i then t.scratch.readLE off 4 else 0) ∧
    (room → own (esBytes es) (fun j => a + (t.rx xb).val * BitVec.ofNat 64 j) (512 / esBytes es) →
      loads (.vlds vd xa xb k es) id (8 * esBytes es) (elem (esBytes es) (512 / esBytes es))) ∧
    (∀ e rest, room ∨ (vb = vd ∧ (t.live.v.get vd.toNat).fifo.length ≤ 4) → (t.live.v.get vb.toNat).fifo = e :: rest →
      let n := 2 ^ sc.toNat
      let w := 8 * 2 ^ iw.toNat
      let cnt := min (512 / n) (4096 / w)
      let idx := fun (j : Nat) => if sg then signedW w (laneAt w j e.data) else (laneAt w j e.data : Int)
      own n (fun j => a + BitVec.ofInt 64 (idx j * n)) cnt →
      loads (.vldx vd xa vb iw sg sc k) (fun f => f.updV vb.toNat fun r => r.popN 1) (8 * n) (elem n cnt)) ∧
    (room → ea 64 = scratchVa off → off % 64 = 0 → (∀ j, j < 128 → m.getLsbD j = true → s.OwnScratch (off + 64 * j) 64) →
      loads (.vldt vd xa k imm) id 32 fun i => if m.getLsbD i then (t.scratch.tag (off + 64 * i)).toNat else 0) ∧
    (¬ room →
      let waits := fun (i : Instr) => ∃ u, exec i s = .next u ∧ ((u.thr s.cur).queue .vl).entries.map (·.word) = [i] ∧
        (u.thr s.cur).live = t.live.next ∧ s.SameMem u
      ((ea 64).toNat % 64 = 0 → ∀ i ∈ [Instr.vld vd xa k imm, .vldb vd xa k imm, .vlds vd xa xb k es, .vldt vd xa k imm], waits i) ∧
      (vb ≠ vd → (t.live.v.get vb.toNat).fifo ≠ [] → waits (.vldx vd xa vb iw sg sc k)))

/-- R190, R209, R211, R212: a vector store of the own scratch pops its operands and writes what its mask selects, later elements over earlier
ones; VSTT writes tags and no byte; VATOMA adds lane by lane at its indices; every other byte keeps its value. VSTRW outside a pass slot is
PROT; in one it stores a row of its owner's task at its destination. -/
def Obligations.VectorStoresToMemory : Prop :=
  ∀ (s : State) (vs vb : BitVec 6) (xa xb : BitVec 5) (k : BitVec 3) (k2 : BitVec 2) (imm : BitVec 11) (es : ESize) (iw sc : BitVec 2) (sg : Bool)
    (ty : AtomTy) (scope : Scope) (off : Nat) (at_ : Nat → Nat) (e ix : VEntry) (n : NMap Nat),
    s.Quiet → s.Unbound → s.Idle →
    let t := s.thr s.cur
    let m := (t.live.rk k.toNat).val
    let a := (t.rx xa).val
    let one := readSources s.cur .vs t.serial [(vs.toNat, false)] [] [] s = .ok (([e], n), s)
    let two := readSources s.cur .vs t.serial [(vs.toNat, false), (vb.toNat, false)] [] [] s = .ok (([e, ix], n), s)
    let ends := fun (u : State) => s.Ran .vs u ∧ (u.thr s.cur).live = t.live.next.popV n ∧ u.hbm = s.hbm ∧ u.host = s.host ∧ u.staging = s.staging
    let stores := fun (i : Instr) (new : Nat → Byte) => ∃ u, exec i s = .next u ∧ ends u ∧ (u.thr s.cur).scratch.wf = true ∧
      ∀ c, (u.thr s.cur).scratch.byte c = new c
    let ea := a + imm.signExtend 64 * 64
    let own := fun (n : Nat) (va : Nat → W64) (cnt : Nat) => ∀ j, j < cnt → m.getLsbD j = true → va j = scratchVa (at_ j) ∧ s.OwnScratch (at_ j) n ∧ at_ j % n = 0
    let elems := fun (n cnt c : Nat) => match (List.range cnt).reverse.find? fun j => m.getLsbD j && decide (at_ j ≤ c) && decide (c < at_ j + n) with
      | some j => BitVec.ofNat 8 (laneAt (8 * n) j e.data / 2 ^ (8 * (c - at_ j)))
      | none => t.scratch.byte c
    (s.Free .vs → s.MayWrite 32768 → e.owner = 0 → ix.owner = 0 →
      (one → ea = scratchVa off → off % 64 = 0 → s.OwnScratch off 512 → stores (.vst vs xa k imm) fun c =>
        if off ≤ c ∧ c < off + 512 ∧ m.getLsbD (c - off) = true then BitVec.ofNat 8 (laneAt 8 (c - off) e.data) else t.scratch.byte c) ∧
      (one → t.scratch.wf = true → own (esBytes es) (fun j => a + (t.rx xb).val * BitVec.ofNat 64 j) (512 / esBytes es) →
        stores (.vsts vs xa xb k es) (elems (esBytes es) (512 / esBytes es))) ∧
      (two → t.scratch.wf = true →
        let nb := 2 ^ sc.toNat
        let w := 8 * 2 ^ iw.toNat
        let cnt := min (512 / nb) (4096 / w)
        own nb (fun j => a + BitVec.ofInt 64 ((if sg then signedW w (laneAt w j ix.data) else (laneAt w j ix.data : Int)) * nb)) cnt →
        stores (.vstx vs xa vb iw sg sc k) (elems nb cnt)) ∧
      (one → ea = scratchVa off → off % 64 = 0 → (∀ j, j < 128 → m.getLsbD j = true → s.OwnScratch (off + 64 * j) 64) →
        ∃ u, exec (.vstt vs xa k imm) s = .next u ∧ ends u ∧ (∀ c, (u.thr s.cur).scratch.byte c = t.scratch.byte c) ∧
          ∀ j, j < 128 → (u.thr s.cur).scratch.tag (off + 64 * j) =
            if m.getLsbD j then BitVec.ofNat 32 (laneAt 32 j e.data) else t.scratch.tag (off + 64 * j)) ∧
      (two → scope.code ≤ 3 → a = scratchVa off → off % 4 = 0 →
        let act := fun (i : Nat) => (t.live.rk k2.toNat).val.getLsbD i
        (∀ i, i < 128 → act i = true → s.OwnScratch (off + 4 * laneAt 32 i ix.data) 4) →
        ∃ u, exec (.vatoma vs xa vb ty k2 scope) s = .next u ∧ ends u ∧ ∀ c, (u.thr s.cur).scratch.readLE (off + 4 * c) 4 =
          (List.range 128).foldl (fun v i => if act i = true ∧ laneAt 32 i ix.data = c then addLane (atomRed ty) v (laneAt 32 i e.data) else v)
            (t.scratch.readLE (off + 4 * c) 4)) ∧
      (one → ∃ u, exec (.vstrw vs xa k) s = .next u ∧ (u.thr s.cur).run = .trapped ∧ (u.thr s.cur).trap.cause = 5)) ∧
    (passBase ≤ s.cur → (t.queue .vs).entries = [] → s.held.contains (s.cur, Eng.vs) = false → t.fences = [] → t.versions.length ≤ 1 → t.stepAt = none →
      t.tickets = [] → one → e.owner ≠ 0 → a = 0 →
      ∀ (tid : Nat) (pc : Piece), s.ownerId s.cur e.owner = some tid →
        let x := s.tasks.get tid
        let base := (x.dst + ownerRow e.owner * x.dstride) % 2 ^ 64
        x.cause = 0 → x.key = none → s.tlb = [] → s.hbm.wf = true → base < 4503599627370496 → base % 16384 + 512 ≤ 16384 → flatPiece s x.cid base 512 = .ok pc → pc.tgt = .hbm →
        pc.leaf.wr = true → pc.leaf.granary = false → pc.leaf.dt = false → (∀ p ∈ s.threads, ∀ v ∈ p.2.versions, v.acc = []) →
        ∃ u, exec (.vstrw vs xa 0) s = .next u ∧ s.Ran .vs u ∧ (u.thr s.cur).live = t.live.next.popV n ∧ u.host = s.host ∧
          ∀ c, u.hbm.byte c = if pc.addr ≤ c ∧ c < pc.addr + 512 then BitVec.ofNat 8 (laneAt 8 (c - pc.addr) e.data) else s.hbm.byte c)

/-- R206 to R208, R210, R43: VBINDI and VBINDO read a stream's descriptor and bind their register; an input stream reads its next 512 bytes
into its register while that has room, an output stream writes the oldest entry of its own; VUNBINDI and VUNBINDO end the stream, VUNBINDI once the
read that is in flight has been pushed. -/
def Obligations.VectorStreams : Prop :=
  ∀ (s : State) (v : BitVec 6) (xa : BitVec 5) (off : Nat) (e : VEntry) (rest : List VEntry), s.Quiet → s.cur < passBase → s.Idle → (s.thr s.cur).tickets = [] →
    let t := s.thr s.cur
    let r := t.live.v.get v.toNat
    let d := fun (j : Nat) => t.scratch.readLE (off + 8 * j) 8
    let new := fun (u : State) => (u.thr s.cur).live.v.get v.toNat
    let others := fun (u : State) => (∀ w, w ≠ v.toNat → (u.thr s.cur).live.v.get w = t.live.v.get w) ∧ (u.thr s.cur).live.x = t.live.x ∧
      u.hbm = s.hbm ∧ u.host = s.host
    (s.Unbound → (t.rx xa).val = scratchVa off → off % 64 = 0 → s.OwnScratch off 64 → (∀ j ∈ [1, 3, 5], 0 < d j ∧ d j < 2 ^ 32) → d 7 = 0 →
      ∀ p ∈ [(Eng.vl, Instr.vbindi v xa, BindKind.input), (.vs, .vbindo v xa, .output)], s.Free p.1 → ∃ u, exec p.2.1 s = .next u ∧ s.Ran p.1 u ∧
        (new u).kind = p.2.2 ∧ (new u).strm.active = true ∧ (new u).strm.out = decide (p.2.2 = .output) ∧ (new u).strm.pos = 0 ∧
        (new u).strm.held = none ∧ (new u).strm.count = d 1 * d 3 * d 5 ∧ (new u).strm.addr = d 0 ∧ (new u).fifo = r.fifo ∧ others u ∧ s.SameMem u) ∧
    (r.kind = .input → s.Free .vl → t.rdPkts.has (64 + v.toNat) = false → ∃ u, exec (.vunbindi v) s = .next u ∧ s.Ran .vl u ∧
      (new u).kind = .free ∧ (new u).strm = default ∧ (new u).fifo = r.fifo ∧ others u) ∧
    (r.kind = .input → s.Free .vl → t.rdPkts.has (64 + v.toNat) = true → 4 ≤ r.fifo.length → ∃ u, exec (.vunbindi v) s = .next u ∧
      ((u.thr s.cur).queue .vl).entries.map (·.word) = [.vunbindi v] ∧ (new u).strm = r.strm ∧ (new u).fifo = r.fifo ∧ others u) ∧
    (r.kind = .output → s.Free .vs → r.fifo = [] → (∀ p ∈ t.live.v, p.2.strm.held = none) → ∃ u, exec (.vunbindo v) s = .next u ∧ s.Ran .vs u ∧
      (new u).kind = .free ∧ (new u).strm = default ∧ others u) ∧
    (∀ p ∈ [Instr.vunbindi v, .vunbindo v, .vbindi v xa, .vbindo v xa], (match p with
        | .vunbindi _ => r.kind ≠ .input | .vunbindo _ => r.kind ≠ .output | _ => r.kind ≠ .free) →
      exec p s = .next (s.takeTrap s.cur (t.sTrap (mkTrap 1 t.live.pc 0)))) ∧
    (r.strm.active = true → r.strm.held = none → r.strm.desc ≠ [] → r.strm.pos < r.strm.count → r.strm.addr = (scratchVa off).toNat → off % 64 = 0 →
      s.OwnScratch off 512 → r.strm.wps = [] →
      (r.strm.out = false → r.fifo.length < 4 → ∃ u x, exec (.streamFill s.cur v.toNat) s = .next u ∧ (new u).fifo = r.fifo ++ [x] ∧
        (∀ i, i < 512 → laneAt 8 i x.data = (t.scratch.byte (off + i)).toNat) ∧ x.taint = 0 ∧ (new u).strm.pos = r.strm.pos + 1 ∧ others u ∧ s.SameMem u) ∧
      (r.strm.out = true → r.fifo = e :: rest → e.owner = 0 → s.MayWrite 512 → ∃ u, exec (.streamDrain s.cur v.toNat) s = .next u ∧
        (new u).fifo = rest ∧ (new u).strm.pos = r.strm.pos + 1 ∧ others u ∧
        ∀ c, (u.thr s.cur).scratch.byte c = if off ≤ c ∧ c < off + 512 then BitVec.ofNat 8 (laneAt 8 (c - off) e.data) else t.scratch.byte c))

/-- R122 to R126, R134 to R140: MCLAIM binds free handles to empty slots, and a bound handle is CLAIM; MREL frees handles; MZERO empties CB
slots; MXFER passes a slot to the next task or to another thread of the core; MLDW, MLDA and MLDV fill a weight tile, rows, and one row, with
their tags, and FILL. -/
def Obligations.MatrixHandlesAndLoads : Prop :=
  ∀ (s : State) (m : MMem) (h rh : BitVec 6) (n : BitVec 4) (va : BitVec 6) (xa xb xc : BitVec 5) (at_ : Nat → Nat) (e : VEntry) (q : NMap Nat),
    s.Free .mx → s.Idle → (s.thr s.cur).taskNo ≤ (s.thr s.cur).handleTask → (s.thr s.cur).rounds = [] → (∀ p ∈ s.threads, p.2.scores = []) →
    let t := s.thr s.cur
    let c := n.toNat
    let old := fun (m : MMem) (i : Nat) => (t.slots m).get i
    let ends := fun (u : State) => s.Ran .mx u ∧ (u.thr s.cur).live = t.live.next ∧ s.SameMem u
    let done := fun (i : Instr) (p : State → Prop) => ∃ u, exec i s = .next u ∧ ends u ∧ p u
    let new := fun (u : State) (m : MMem) => (u.thr s.cur).slots m
    let bound := fun (m : MMem) (a k : Nat) => a + k ≤ handleMax m ∧ ∀ i, i < k → (t.slots m).has (a + i) = true ∧ (old m (a + i)).bad = false ∧
      (old m (a + i)).mem.wf = true ∧ (old m (a + i)).owner.Rising
    let rest := fun (u : State) (m : MMem) (a k : Nat) => ∀ j, (j < a ∨ a + k ≤ j) → (new u m).has j = (t.slots m).has j ∧ (new u m).get j = old m j
    let row := fun (x : Slot) (r o : Nat) => (∀ i, i < 256 → x.mem.byte (256 * r + i) = t.scratch.byte (o + i)) ∧
      ∀ j, j < 4 → x.mem.tag (256 * r + 64 * j) = t.scratch.tag (o + 64 * j)
    let st := strideOf (t.rx xb)
    let rows := fun (k : Nat) => (t.rx xa).val.toNat % 64 = 0 ∧ st.toNat % 64 = 0 ∧
      ∀ i, i < k → (t.rx xa).val + st * BitVec.ofNat 64 i = scratchVa (at_ i) ∧ s.OwnScratch (at_ i) 256
    ((∀ i, i < c → (t.slots m).has (h.toNat + i) = false) → c ≤ claimable m - s.heldSlots t.core m false →
      s.ctxSlots t.core t.cid m + c ≤ (s.ctx t.cid).slotLimit m → (∀ p ∈ s.threads, p.1 ≠ s.cur → p.2.core ≠ t.core) →
      done (.mclaim m h n) fun u => (∀ i, i < c → (new u m).has (h.toNat + i) = true ∧ (new u m).get (h.toNat + i) = default) ∧ rest u m h.toNat c) ∧
    (0 < c → (t.slots m).has h.toNat = true → ∃ u, exec (.mclaim m h n) s = .next u ∧ (u.thr s.cur).run = .trapped ∧ (u.thr s.cur).trap.cause = 21 ∧
      (u.thr s.cur).trap.info = BitVec.ofNat 64 (h.toNat + m.code * 256)) ∧
    (bound m h.toNat c → (t.slots m).Rising →
      done (.mrel m h n) fun u => (∀ i, i < c → (new u m).has (h.toNat + i) = false) ∧ rest u m h.toNat c) ∧
    (bound .cb h.toNat c → (t.ver t.curVer.id).useKnext + 131072 * c ≤ s.budgetOf t.cid (t.ver t.curVer.id) →
      done (.mzero h n) fun u => (∀ i, i < c → ((new u .cb).get (h.toNat + i)).mem = default ∧ ((new u .cb).get (h.toNat + i)).status = [] ∧
        ((new u .cb).get (h.toNat + i)).owner = [] ∧ ((new u .cb).get (h.toNat + i)).fill = 0) ∧ rest u .cb h.toNat c) ∧
    (bound m h.toNat 1 → (t.slots m).Rising →
      ((t.rx xa).val = 0 → t.promised = [] → done (.mxfer m h xa rh) fun u =>
        (new u m).has h.toNat = false ∧ (u.thr s.cur).promised = [(m.code, rh.toNat, old m h.toNat)] ∧ rest u m h.toNat 1) ∧
      (∀ k, (t.rx xa).val = BitVec.ofNat 64 (k + 1) → k < 65536 → t.cid * 65536 + k ≠ s.cur → (t.ver t.curVer.id).deps = [] →
        let r := s.thr (t.cid * 65536 + k)
        r.alive = true → r.run = .resident → r.core = t.core → (r.slots m).has rh.toNat = false → r.taskNo ≤ r.handleTask →
        done (.mxfer m h xa rh) fun u => (new u m).has h.toNat = false ∧ rest u m h.toNat 1 ∧
          ((u.thr (t.cid * 65536 + k)).slots m).has rh.toNat = true ∧
          ((u.thr (t.cid * 65536 + k)).slots m).get rh.toNat = { old m h.toNat with dirty := false })) ∧
    (bound .wb h.toNat 1 → rows 128 → done (.mldw h xa xb) fun u => (∀ i, i < 128 → row ((new u .wb).get h.toNat) i (at_ i)) ∧ rest u .wb h.toNat 1) ∧
    (let k := (t.rx xc).val.toNat
     k ≤ 2048 → bound .ab h.toNat (if k = 0 then 1 else (k + 255) / 256) → rows k → done (.mlda h xa xb xc) fun u =>
      (∀ i, i < k → row ((new u .ab).get (h.toNat + i / 256)) (i % 256) (at_ i) ∧ ((new u .ab).get (h.toNat + i / 256)).owner.get (i % 256) = 0) ∧
      ∀ j, 256 * j < max k 1 → ((new u .ab).get (h.toNat + j)).fill = k - 256 * j) ∧
    (let r := (t.rx xa).val.toNat
     r ≤ 2047 → bound .ab h.toNat (r / 256 + 1) → readSources s.cur .mx t.serial [(va.toNat, false)] [] [] s = .ok (([e], q), s) →
      ∃ u, exec (.mldv h va xa) s = .next u ∧ s.Ran .mx u ∧ (u.thr s.cur).live = t.live.next.popV q ∧ s.SameMem u ∧
        let x := (new u .ab).get (h.toNat + r / 256)
        (∀ i, i < 256 → x.mem.byte (256 * (r % 256) + i) = BitVec.ofNat 8 (laneAt 8 i e.data)) ∧
        (∀ j, j < 4 → x.mem.tag (256 * (r % 256) + 64 * j) = BitVec.ofNat 32 (laneAt 32 (64 + j) e.data)) ∧ x.owner.get (r % 256) = e.owner ∧
        ∀ j, j ≤ r / 256 → ((new u .ab).get (h.toNat + j)).fill = max (old .ab (h.toNat + j)).fill (r + 1 - 256 * j))

/-- R129 to R131, R141 to R145: a pass gives every CB row, where no row is poisoned, the sums of its block steps, the owner of its AB row and
FILL; MPASSAT waits admitted for its tick, and the timed start runs it; MDRAIN stores rows, MDRAINV pushes them, MDRAINP gives them to a
peer's rows in turn. A block step of I8 tiles adds the exact sum of products. -/
def Obligations.MatrixPassesAndDrains : Prop :=
  (∀ (s : State) (wb ab : BitVec 6) (cb : BitVec 4) (acc : Bool) (x xa xb xc : BitVec 5) (vd : BitVec 6) (ty : OutTy) (at_ : Nat → Nat) (q : QEntry),
    s.Quiet → s.cur < passBase → (s.thr s.cur).fences = [] → (s.thr s.cur).versions.length ≤ 1 → (s.thr s.cur).stepAt = none → (s.thr s.cur).tickets = [] →
    (s.thr s.cur).taskNo ≤ (s.thr s.cur).handleTask → (s.thr s.cur).rounds = [] → (∀ p ∈ s.threads, p.2.scores = []) →
    let t := s.thr s.cur
    let v := (t.rx x).val.toNat
    let fill := (t.ab.get ab.toNat).fill
    let ws := (t.wb.get wb.toNat).columns
    let A := fun (r : Nat) => t.ab.get (ab.toNat + r / 256)
    let C := fun (r : Nat) => t.cb.get (cb.toNat + r / 256)
    let charge := fun (k : Nat) => (t.ver t.curVer.id).useKnext + 131072 * ((k + 255) / 256) ≤ s.budgetOf t.cid (t.ver t.curVer.id)
    let cbs := fun (h k : Nat) => h + (k + 255) / 256 ≤ 16 ∧ ∀ i, i < max 1 ((k + 255) / 256) → t.cb.has (h + i) = true
    let sound := fun (n : Nat) => n ≤ 2048 ∧ 0 < n ∧ t.wb.has wb.toNat = true ∧ (t.wb.get wb.toNat).bad = false ∧ ab.toNat + (n + 255) / 256 ≤ 64 ∧
      (∀ i, i < (n + 255) / 256 → t.ab.has (ab.toNat + i) = true ∧ (t.ab.get (ab.toNat + i)).bad = false) ∧ cbs cb.toNat n ∧
      (∀ i, i < 16 → (t.cb.get i).mem.wf = true ∧ (t.cb.get i).owner.Rising ∧ (t.cb.get i).status.Rising) ∧ charge n ∧
      ∀ r, r < n → (passRow ws (A r) (C r) (r % 256) (r % 256) acc).2 = 0
    let ran := fun (u : State) (n : Nat) => (∀ r, r < n →
        let y := (passRow ws (A r) (C r) (r % 256) (r % 256) acc).1
        let z := (u.thr s.cur).cb.get (cb.toNat + r / 256)
        z.elems (r % 256) = y.elems (r % 256) ∧ z.owner.get (r % 256) = (A r).owner.get (r % 256) ∧ z.status.get (r % 256) = y.status.get (r % 256)) ∧
      (∀ i, i < (n + 255) / 256 → ((u.thr s.cur).cb.get (cb.toNat + i)).fill =
        if acc then max (t.cb.get (cb.toNat + i)).fill (n - 256 * i) else n - 256 * i) ∧
      (u.thr s.cur).wb = t.wb ∧ (u.thr s.cur).ab = t.ab ∧ s.SameMem u ∧ ((u.thr s.cur).queue .mx).entries = []
    (s.Free .mx → sound (if v = 0 then fill else v) → s.arrayHeld s.cur (if v = 0 then fill else v) = false → ∃ u, exec (.mpass wb ab cb acc x) s = .next u ∧ ran u (if v = 0 then fill else v) ∧
      (u.thr s.cur).live = t.live.next) ∧
    (s.Free .mx → sound fill → s.tick + 16 ≤ v → (∀ p ∈ s.threads, p.1 ≠ s.cur → p.2.core ≠ t.core) →
      (∀ p ∈ t.slotDone, p.2 ≤ s.tick) → (∀ w, (s.cores.get t.core).timed = some w → w.2.2 ≤ v ∨ v + fill + 256 ≤ w.2.1) → ∃ u, exec (.mpassat wb ab cb acc x) s = .next u ∧
      ((u.thr s.cur).queue .mx).entries.map (fun y => (y.word, y.started)) = [(.mpassat wb ab cb acc x, true)] ∧ (u.thr s.cur).cb = t.cb ∧
      (u.thr s.cur).live = t.live.next) ∧
    ((t.queue .mx).entries = [q] → q.word = .mpassat wb ab cb acc x → q.started = true → (q.op 0).val.toNat = s.tick → q.ver = t.curVer.id → sound fill →
      ∃ u, exec (.timedPassStart s.cur) s = .next u ∧ ran u fill ∧ (u.thr s.cur).live = t.live) ∧
    (let n := (t.rx xc).val.toNat
     let len := if ty = .f32 then 512 else 256
     s.Free .mx → s.Idle → 0 < n → n ≤ 2048 → cbs cb.toNat n → (t.rx xa).val.toNat % 64 = 0 → (t.rx xb).val.toNat % 64 = 0 → s.MayWrite (512 * n) →
      (∀ i, i < n → (t.rx xa).val + (t.rx xb).val * BitVec.ofNat 64 i = scratchVa (at_ i) ∧ s.OwnScratch (at_ i) len ∧
        ∀ j, j < n → i ≠ j → at_ i + len ≤ at_ j ∨ at_ j + len ≤ at_ i) → ∃ u, exec (.mdrain cb xa xb xc ty) s = .next u ∧ s.Ran .mx u ∧
        (∀ i, i < n → let d := drainRow (C i) (i % 256) ty
          d.1.length = len ∧ (∀ j, j < len → (u.thr s.cur).scratch.byte (at_ i + j) = d.1.getD j 0) ∧
          ∀ j, 64 * j < len → (u.thr s.cur).scratch.tag (at_ i + 64 * j) = d.2.1) ∧
        (∀ a, (∀ i, i < n → a < at_ i ∨ at_ i + len ≤ a) → (u.thr s.cur).scratch.byte a = t.scratch.byte a) ∧
        (u.thr s.cur).cb = t.cb ∧ (u.thr s.cur).live.x = t.live.x ∧ u.hbm = s.hbm ∧ (u.thr s.cur).live.pc = t.live.next.pc) ∧
    (let f := (t.rx xa).val.toNat
     let n := (t.rx xb).val.toNat
     s.Free .mx → s.Unbound → f ≤ 16384 → 0 < n → (t.live.v.get vd.toNat).fifo.length + n ≤ 4 → cbs cb.toNat (f + n) →
      ∃ u l, exec (.mdrainv cb vd xa xb) s = .next u ∧ s.Ran .mx u ∧ s.SameMem u ∧ (u.thr s.cur).cb = t.cb ∧
        ((u.thr s.cur).live.v.get vd.toNat).fifo = (t.live.v.get vd.toNat).fifo ++ l ∧ l.length = n ∧
        ∀ (i : Nat) (e : VEntry), l[i]? = some e → lanesOf 32 e.data = (C (f + i)).elems ((f + i) % 256) ∧ e.taint = 0 ∧
          e.owner = (C (f + i)).owner.get ((f + i) % 256)) ∧
    (∀ (p : BitVec 3) (pcb : BitVec 4) (me rk : Nat),
      let n := if v = 0 then (t.cb.get cb.toNat).fill else v
      let r := s.thr rk
      t.rank = some me → p.toNat ≠ me → p.toNat < t.gangSize → s.peerKey t p.toNat = some rk → rk ≠ s.cur → 0 < n → n ≤ 2048 → cbs cb.toNat n →
      (∀ i, i < (n + 255) / 256 → pcb.toNat + i < 16 ∧ r.cb.has (pcb.toNat + i) = true ∧ (r.cb.get (pcb.toNat + i)).mem.wf = true ∧
        (r.cb.get (pcb.toNat + i)).owner.Rising ∧ (r.cb.get (pcb.toNat + i)).status.Rising) →
      (∀ i, i < n → ((r.cb.get (pcb.toNat + i / 256)).status.get (i % 256)).toNat % 2 = 0) → (t.ver t.curVer.id).deps = [] → r.inEntry = false →
      (r.ver r.curVer.id).useKnext + 131072 * ((n + 255) / 256) ≤ s.budgetOf r.cid (r.ver r.curVer.id) →
      (r.rounds = [] ∧ me = (if p = 0 then 1 else 0)) ∨ (∃ y, r.rounds = [y] ∧ y.cb = pcb.toNat ∧ y.turn = me) →
      let gives := fun (u : State) => ((u.thr s.cur).queue .mx).entries = [] ∧ (u.thr s.cur).cb = t.cb ∧ u.hbm = s.hbm ∧
        (∀ i, i < n → let z := (u.thr rk).cb.get (pcb.toNat + i / 256)
          z.elems (i % 256) = (C i).elems (i % 256) ∧ z.owner.get (i % 256) = (C i).owner.get (i % 256) ∧ z.status.get (i % 256) = (C i).status.get (i % 256)) ∧
        (u.thr rk).rounds.map (fun y => (y.cb, y.turn)) = (nextTurn p.toNat t.gangSize me).toList.map fun y => (pcb.toNat, y)
      (s.Free .mx → ∃ u, exec (.mdrainp cb p pcb x) s = .next u ∧ gives u ∧ (u.thr s.cur).live = t.live.next) ∧
      ((t.queue .mx).entries = [q] → q.word = .mdrainp cb p pcb x → (q.op 0).val = (t.rx x).val → q.ver = t.curVer.id → q.progress = 0 → ∃ u,
        exec (.mdrainpArrival s.cur) s = .next u ∧ gives u ∧ (u.thr s.cur).live = t.live))) ∧
  ∀ (W A C : Slot) (row j : Nat) (acc : Bool), row < 256 → j < 128 → (∀ b, b < 4 → A.mem.tag (256 * row + 64 * b) = 0x7F12 ∧
      ∀ i, i < 128 → W.mem.tag (256 * i + 64 * b) = 0x7F12) → (acc = true → (C.status.get row).toNat % 4 = 3 ∧ C.owner.get row = A.owner.get row) →
    C.mem.wf = true →
    let r := passRow W.columns A C row row acc
    let sum := ((List.range 256).map fun k => (W.mem.byte (256 * j + k)).toInt * (A.mem.byte (256 * row + k)).toInt).sum
    r.2 = 0 ∧ r.1.elems row = (List.range 128).map (fun c => (r.1.elems row).getD c 0) ∧
      (r.1.elems row).getD j 0 = lowBits 32 (if acc then ((C.elems row).getD j 0 : Int) + sum else sum)

/-- R72, R214, R215, R218 to R223: in the own scratch, and between it and the staging slices, CPL moves bytes with the tags of whole blocks,
whichever way the ranges overlap; CPFILL repeats a pattern; CPTAG copies blocks under a given tag, or under the tags of a list; CPRED adds
elements; CPSTG goes into a slice or out of it; CPCONV converts elements of whole bytes, integers to integers by reduction and every other pair by
rounding once what the source codes say under tags of 0. Each then adds 1 to its
completion flag, and no register and no other byte changes. -/
def Obligations.CopiesAndFills : Prop :=
  ∀ (s : State) (xa xb xc : BitVec 5) (f : BitVec 8) (r : FlagRef) (z : Size) (ty : RedTy) (a b o : Nat), s.Free .cp → s.Idle → s.waiters = [] →
    let t := s.thr s.cur
    flagRef s.cur t.cid t.live.gsel f = some r → (r.group = true → t.lines = [] ∧ s.allAcked s.cur = true) → (t.ver t.curVer.id).deps = [] → (∀ p ∈ s.threads, p.2.scores = []) → t.scratch.wf = true →
    let n := (t.rx xc).val.toNat
    let signals := fun (u : State) => u.flagVal r = (if f = 0 then 0 else BitVec.ofNat 32 (min ((s.flagVal r).toNat + 1) 0xFFFFFFFF))
    let ends := fun (u : State) => s.Ran .cp u ∧ (u.thr s.cur).live.x = t.live.x ∧ (u.thr s.cur).live.pc = t.live.next.pc ∧ u.hbm = s.hbm ∧ u.host = s.host
    let new := fun (u : State) (d k : Nat) (g : Nat → Byte) => ∀ c, (u.thr s.cur).scratch.byte c = if d ≤ c ∧ c < d + k then g (c - d) else t.scratch.byte c
    let done := fun (i : Instr) (p : State → Prop) => ∃ u, exec i s = .next u ∧ ends u ∧ signals u ∧ p u
    let range := fun (x : Nat) (k : Nat) => k = 0 ∨ s.OwnScratch x k
    let apart := fun (x k y l : Nat) => x + k ≤ y ∨ y + l ≤ x
    (t.rx xa).val = scratchVa a →
    ((t.rx xb).val = scratchVa b → range a n → range b n → s.MayWrite (n + 128) → done (.cpl xa xb xc f) fun u =>
      u.staging = s.staging ∧ new u a n (fun i => t.scratch.byte (b + i)) ∧
      (a % 64 = 0 → b % 64 = 0 → n % 64 = 0 → ∀ j, 64 * j < n → (u.thr s.cur).scratch.tag (a + 64 * j) = t.scratch.tag (b + 64 * j))) ∧
    (range a n → s.MayWrite (n + 128) → a % sizeBytes z = 0 → n % sizeBytes z = 0 → done (.cpfill xa xb xc z f) fun u =>
      u.staging = s.staging ∧ new u a n (fun i => BitVec.ofNat 8 ((t.rx xb).val.toNat / 2 ^ (8 * (i % sizeBytes z)))) ∧
      (a % 64 = 0 → n % 64 = 0 → ∀ j, 64 * j < n → (u.thr s.cur).scratch.tag (a + 64 * j) = 0)) ∧
    (let k := (t.rx xc).val.toNat / 2 ^ 32
     (t.rx xb).val = scratchVa b → a % 64 = 0 → range a (64 * k) → range b (64 * k) → apart a (64 * k) b (64 * k) → s.MayWrite (64 * k + 128) →
      done (.cptag xa xb xc false f) fun u => u.staging = s.staging ∧ new u a (64 * k) (fun i => t.scratch.byte (b + i)) ∧
        ∀ j, j < k → (u.thr s.cur).scratch.tag (a + 64 * j) = (t.rx xc).val.setWidth 32) ∧
    (let k := t.scratch.readLE o 4
     (t.rx xb).val = scratchVa b → (t.rx xc).val = scratchVa o → o % 4 = 0 → s.OwnScratch o (4 + 4 * k) → a % 64 = 0 → range a (64 * k) → range b (64 * k) →
      apart a (64 * k) b (64 * k) → apart a (64 * k) o (4 + 4 * k) → s.MayWrite (64 * k + 128) →
      done (.cptag xa xb xc true f) fun u => u.staging = s.staging ∧ new u a (64 * k) (fun i => t.scratch.byte (b + i)) ∧
        ∀ j, j < k → (u.thr s.cur).scratch.tag (a + 64 * j) = BitVec.ofNat 32 (t.scratch.readLE (o + 4 + 4 * j) 4)) ∧
    (let w := redBytes ty
     (t.rx xb).val = scratchVa b → n % w = 0 → a % w = 0 → b % w = 0 → range a n → range b n → apart a n b n → s.MayWrite (n + 128) →
      done (.cpred xa xb xc ty f) fun u => u.staging = s.staging ∧ (∀ c, (c < a ∨ a + n ≤ c) → (u.thr s.cur).scratch.byte c = t.scratch.byte c) ∧
        ∀ i, w * i < n → (u.thr s.cur).scratch.readLE (a + w * i) w = redSum ty (t.scratch.readLE (a + w * i) w) (t.scratch.readLE (b + w * i) w)) ∧
    (∀ (e : List W64) (w : W64), (s.ctx t.cid).staging = [e] → e.head? = some w →
      let nm := (t.rx xb).val.toNat
      let g := (nm / 2 ^ 27 % 8 * 12 + nm / 2 ^ 23 % 16) * 8388608 + nm % 8388608
      nm / 2 ^ 23 % 16 < 12 → nm < 2 ^ 30 → nm % 8388608 + n ≤ 8388608 → (extentOf w).1 ≤ g → g + n ≤ (extentOf w).1 + (extentOf w).2 → range a n →
      s.staging.wf = true → (t.ver t.curVer.id).useKnext + (n + 128) ≤ s.budgetOf t.cid (t.ver t.curVer.id) → s.mscUse + (n + 128) ≤ 7516192768 →
      done (.cpstg xa xb xc true f) (fun u => u.staging = s.staging ∧ new u a n (fun i => s.staging.byte (g + i))) ∧
      done (.cpstg xa xb xc false f) fun u => (u.thr s.cur).scratch = t.scratch ∧
        ∀ c, u.staging.byte c = if g ≤ c ∧ c < g + n then t.scratch.byte (a + (c - g)) else s.staging.byte c) ∧
    (∀ st dt : Ty, st ≠ .sq4 → st.width % 8 = 0 → dt.width % 8 = 0 →
      let x := (t.rx xc).val.toNat
      let k := x % 2 ^ 32
      Ty.ofCode? (x / 2 ^ 32 % 16) = some st → Ty.ofCode? (x / 2 ^ 36 % 16) = some dt → x / 2 ^ 40 % 8 < 5 → x < 2 ^ 44 →
      (st.fmtCode? = none ∨ ∀ j, 64 * j < k * st.width / 8 → t.scratch.tag (b + 64 * j) = 0) → a % 64 = 0 → b % 64 = 0 →
      (t.rx xb).val = scratchVa b → range a (k * dt.width / 8) → range b (k * st.width / 8) → apart a (k * dt.width / 8) b (k * st.width / 8) →
      s.MayWrite (k * dt.width / 8 + 128) → done (.cpconv xa xb xc f) fun u => u.staging = s.staging ∧
        (∀ c, (c < a ∨ a + k * dt.width / 8 ≤ c) → (u.thr s.cur).scratch.byte c = t.scratch.byte c) ∧
        ∀ i, i < k → (u.thr s.cur).scratch.readLE (a + i * (dt.width / 8)) (dt.width / 8) =
          let v := t.scratch.readLE (b + i * (st.width / 8)) (st.width / 8)
          let sat := decide (x / 2 ^ 43 % 2 = 1)
          if st.isInt && dt.isInt then (dt.reduce sat (laneInt st v)).1 else (dt.encode (RM.ofCode (x / 2 ^ 40 % 8)) sat (st.value v)).1)

/-- R216, R217: CPT copies the rows of the planes its descriptor names from their source to their destination addresses, or into a weight
tile or activation rows; CPG gathers rows from indexed addresses and CPS scatters them to such. That CPG of kind 2 with ROWS 0 sets the FILL of
its first handle to 0 is the model's choice (log entry 74). -/
def Obligations.CopiesByDescriptor : Prop :=
  ∀ (s : State) (xa xb xc : BitVec 5) (d ix : Nat) (src dst : Nat → Nat), s.Free .cp → s.Idle → s.waiters = [] →
    let t := s.thr s.cur
    let a := (t.rx xa).val
    let b := (t.rx xb).val
    let w := fun (j : Nat) => BitVec.ofNat 64 (t.scratch.readLE (d + 8 * j) 8)
    let rb := (w 0).toNat % 2 ^ 32
    let rows := (w 0).toNat / 2 ^ 32
    (∀ p ∈ s.threads, p.2.scores = []) → t.scratch.wf = true → (t.rx xc).val = scratchVa d → d % 64 = 0 → s.OwnScratch d 64 → 0 < rb → rb ≤ 2 ^ 20 →
    let ends := fun (u : State) => s.Ran .cp u ∧ (u.thr s.cur).live = t.live.next ∧ u.hbm = s.hbm ∧ u.host = s.host ∧ u.staging = s.staging
    let clear := fun (n : Nat) => s.MayWrite (n * (rb + 128)) ∧ ∀ i, i < n → s.OwnScratch (src i) rb ∧ s.OwnScratch (dst i) rb ∧
      ∀ j, j < n → (i ≠ j → dst i + rb ≤ dst j ∨ dst j + rb ≤ dst i) ∧ (dst i + rb ≤ src j ∨ src j + rb ≤ dst i)
    let moved := fun (u : State) (n : Nat) => (∀ i, i < n → ∀ j, j < rb → (u.thr s.cur).scratch.byte (dst i + j) = t.scratch.byte (src i + j)) ∧
      ∀ c, (∀ i, i < n → c < dst i ∨ dst i + rb ≤ c) → (u.thr s.cur).scratch.byte c = t.scratch.byte c
    let tile := fun (m : Slot) (r o : Nat) => (∀ i, i < 256 → m.mem.byte (256 * r + i) = t.scratch.byte (o + i)) ∧
      (o % 64 = 0 → ∀ j, j < 4 → m.mem.tag (256 * r + 64 * j) = t.scratch.tag (o + 64 * j)) ∧ m.owner.get r = 0
    let slots := fun (l : NMap Slot) (h k : Nat) => h + k ≤ 64 ∧ ∀ i, i < k → l.has (h + i) = true ∧ (l.get (h + i)).mem.wf = true ∧ (l.get (h + i)).owner.Rising
    let runs := fun (i : Instr) (p : State → Prop) => ∃ u, exec i s = .next u ∧ ends u ∧ p u
    (let planes := (w 3).toNat % 2 ^ 16
     let kind := (w 3).toNat / 2 ^ 16
     rows ≤ 65535 → w 6 = 0 → w 7 = 0 →
      (kind = 0 → (∀ i, i < planes * rows →
          b + w 4 * BitVec.ofNat 64 (i / rows) + w 1 * BitVec.ofNat 64 (i % rows) = scratchVa (src i) ∧
          a + w 5 * BitVec.ofNat 64 (i / rows) + w 2 * BitVec.ofNat 64 (i % rows) = scratchVa (dst i)) → clear (planes * rows) →
        planes * rows * rb ≤ 2 ^ 36 → runs (.cpt xa xb xc 0) fun u => moved u (planes * rows)) ∧
      ((kind = 1 ∧ rows = 128 ∨ kind = 2 ∧ 0 < rows ∧ rows ≤ 2048) → rb = 256 → planes = 1 → w 2 = 0 → w 5 = 0 → a.toNat < 64 →
        (∀ i, i < rows → b + w 1 * BitVec.ofNat 64 i = scratchVa (src i) ∧ s.OwnScratch (src i) 256) →
        slots (if kind = 1 then t.wb else t.ab) a.toNat (if kind = 1 then 1 else (rows + 255) / 256) → runs (.cpt xa xb xc 0) fun u =>
          (u.thr s.cur).scratch = t.scratch ∧ (∀ i, i < rows →
            if kind = 1 then tile ((u.thr s.cur).wb.get a.toNat) i (src i) else tile ((u.thr s.cur).ab.get (a.toNat + i / 256)) (i % 256) (src i)) ∧
          (kind = 2 → ∀ j, 256 * j < rows → ((u.thr s.cur).ab.get (a.toNat + j)).fill = rows - 256 * j))) ∧
    (let iw := if (w 4).toNat % 4 = 0 then 4 else 8
     let sg := (w 4).getLsbD 2
     let kind := (w 4).toNat / 16
     let at_ := fun (i : Nat) => let v := t.scratch.readLE (ix + iw * i) iw; if sg then sextBytes iw v else BitVec.ofNat 64 v
     rows ≤ 65536 → (w 4).toNat % 4 < 2 → (w 4).getLsbD 3 = false → w 5 = 0 → w 6 = 0 → w 7 = 0 → w 1 = scratchVa ix → ix % iw = 0 →
      (0 < rows → s.OwnScratch ix (rows * iw)) → rows * rb ≤ 2 ^ 36 →
      (kind = 0 → (∀ i, i < rows → b + at_ i * w 2 = scratchVa (src i) ∧ a + w 3 * BitVec.ofNat 64 i = scratchVa (dst i) ∧
          (dst i + rb ≤ ix ∨ ix + rows * iw ≤ dst i)) → clear rows → runs (.cpg xa xb xc 0) fun u => moved u rows) ∧
      (kind = 0 → (∀ i, i < rows → a + at_ i * w 2 = scratchVa (dst i) ∧ b + w 3 * BitVec.ofNat 64 i = scratchVa (src i) ∧
          (dst i + rb ≤ ix ∨ ix + rows * iw ≤ dst i)) → clear rows → runs (.cps xa xb xc 0) fun u => moved u rows) ∧
      (kind = 2 → rb = 256 → rows ≤ 2048 → a.toNat < 64 → slots t.ab a.toNat (if rows = 0 then 1 else (rows + 255) / 256) →
        (∀ i, i < rows → b + at_ i * w 2 = scratchVa (src i) ∧ s.OwnScratch (src i) 256) → runs (.cpg xa xb xc 0) fun u =>
          (u.thr s.cur).scratch = t.scratch ∧ (∀ i, i < rows → tile ((u.thr s.cur).ab.get (a.toNat + i / 256)) (i % 256) (src i)) ∧
          ∀ j, 256 * j < max rows 1 → ((u.thr s.cur).ab.get (a.toNat + j)).fill = rows - 256 * j))

/-- R47, R90, R251, R372, R359, R423: a register write of a thread that exists takes effect as a turn of its own, and nothing else changes.
QDEPTH takes its fields once every queue holds no more entries than its new depth; VSTAT loses the bits written as 1 once no VA entry is
queued; a base or a size of the wait log or of the trap ring takes its value, and its head and tail start at 0 again; an event register of
the bank that CNT_BANK selects takes a code that a context may count and 0 for one it may not, and nothing while another holds the bank;
STOPREQ asks the thread to stop. That a size is kept as written, whatever it is, is the model's choice (log entry 46). R171, R40, R46, R410: when a line of a register frame is evicted every value stays, and every taint mask is as it was or has collapsed: the
saturation bit takes in whether the taint was not empty, and the taint is empty. In the line of four x registers each of them collapses, in
that of a mask register that register, in that of the state block the control taint. That a line of the frame has 64 bytes is the model's
reading (log entry 41). -/
def Obligations.ThreadRegistersAndEviction : Prop :=
  (∀ (s : State) (key : Nat) (v : W64), (s.thr key).alive = true →
    let t := s.thr key
    let c := s.ctx t.cid
    let fits := ∀ e ∈ engs, (t.queue e).entries.length ≤ 16 * (v.toNat / 16 ^ (e.code - 1) % 16 + 1)
    let only := fun (u : State) (x : Thread) => u.thr key = x ∧ (∀ k, k ≠ key → u.thr k = s.thr k) ∧ u.hbm = s.hbm ∧ u.host = s.host ∧ u.ctxs = s.ctxs
    let regs := fun (u : State) (l : List (Nat × W64)) => u.threads = s.threads ∧ u.hbm = s.hbm ∧ u.host = s.host ∧
      (∀ e ∈ l, (u.ctx t.cid).reg e.1 = e.2) ∧ (∀ n, (∀ e ∈ l, e.1 ≠ n) → (u.ctx t.cid).reg n = c.reg n) ∧ ∀ d, d ≠ t.cid → u.ctx d = s.ctx d
    let base := v &&& 0x000FFFFFFFFFFFC0
    (fits → ∃ u, exec (.qdepthWrite key v) s = .next u ∧ only u { t with qdepth := v.setWidth 20 }) ∧
    (¬ fits → exec (.qdepthWrite key v) s = .next s) ∧
    ((t.queue .va).entries = [] → ∃ u, exec (.vstatWrite key v) s = .next u ∧
      only u { t with live := { t.live with vstat := t.live.vstat &&& ~~~v } }) ∧
    ((t.queue .va).entries ≠ [] → exec (.vstatWrite key v) s = .next s) ∧
    (∃ u, exec (.waitlogConfigWrite key false v) s = .next u ∧ regs u [(0x120, base), (0x122, 0)]) ∧
    (∃ u, exec (.waitlogConfigWrite key true v) s = .next u ∧ regs u [(0x121, v), (0x122, 0)]) ∧
    (∃ u, exec (.trapqConfigWrite key false v) s = .next u ∧ regs u [(0x100, base), (0x102, 0), (0x103, 0)]) ∧
    (∃ u, exec (.trapqConfigWrite key true v) s = .next u ∧ regs u [(0x101, v), (0x102, 0), (0x103, 0)]) ∧
    (∀ n, n < 8 → let b := (c.reg 0x130).toNat % 256
      ((s.banks.get b).holder = t.cid + 2 → ∃ u, exec (.cntEventWrite key n v) s = .next u ∧ regs u [] ∧
        (v.toNat % 65536 < 10 → (u.banks.get b).events.get n = BitVec.ofNat 64 (v.toNat % 65536)) ∧
        (256 ≤ v.toNat % 65536 → (u.banks.get b).events.get n = 0) ∧
        (∀ m, m ≠ n → (u.banks.get b).events.get m = (s.banks.get b).events.get m) ∧ ∀ d, d ≠ b → u.banks.get d = s.banks.get d) ∧
      ((s.banks.get b).holder ≠ t.cid + 2 → exec (.cntEventWrite key n v) s = .next s)) ∧
    ∀ cid n, key = cid * 65536 + n → ∃ u, exec (.stopreq cid n) s = .next u ∧ only u { t with stopReq := true }) ∧
  (∀ (s : State) (key line : Nat), (s.thr key).alive = true → (s.thr key).run = .resident →
    (s.thr key).live.x.Rising → (s.thr key).live.k.Rising →
    let f := (s.thr key).live
    let gone := fun (t t' : BitVec 16) (b b' : Bool) => t' = 0 ∧ b' = (b || decide (t ≠ 0))
    ∃ u, exec (.registerCacheEviction key line) s = .next u ∧ (∀ k, k ≠ key → u.thr k = s.thr k) ∧ u.hbm = s.hbm ∧
      let g := (u.thr key).live
      u.thr key = { s.thr key with live := g } ∧
      g = { f with x := g.x, v := g.v, k := g.k, ctaint := g.ctaint, csat := g.csat } ∧
      (∀ i, (g.x.get i).val = (f.x.get i).val ∧
        (g.x.get i = f.x.get i ∨ gone (f.x.get i).taint (g.x.get i).taint (f.x.get i).sat (g.x.get i).sat)) ∧
      (∀ i, (g.k.get i).val = (f.k.get i).val ∧
        (g.k.get i = f.k.get i ∨ gone (f.k.get i).taint (g.k.get i).taint (f.k.get i).sat (g.k.get i).sat)) ∧
      (∀ i, (g.v.get i).fifo.map (fun e => e.data) = (f.v.get i).fifo.map (fun e => e.data) ∧
        ∀ (n : Nat) (a b : VEntry), (f.v.get i).fifo[n]? = some a → (g.v.get i).fifo[n]? = some b → b = a ∨ gone a.taint b.taint a.sat b.sat) ∧
      ((g.ctaint = f.ctaint ∧ g.csat = f.csat) ∨ gone f.ctaint g.ctaint f.csat g.csat) ∧
      (∀ j i, line = 0x820 + j → j < 8 → i / 4 = j → gone (f.x.get i).taint (g.x.get i).taint (f.x.get i).sat (g.x.get i).sat) ∧
      (∀ j, line = 0x828 + j → j < 8 → gone (f.k.get j).taint (g.k.get j).taint (f.k.get j).sat (g.k.get j).sat) ∧
      (line = 0x842 → gone f.ctaint g.ctaint f.csat g.csat))

/-- R185, R184, R186, R223, R332: a packet that comes in its turn for a thread of a running context is performed in the thread's scratch and
answered. A posted write stores the enabled bytes of its granule, or adds its elements; a line read answers with its 64 bytes; a marked
access answers with the old value and leaves the new one; a signal adds to a local flag and saturates. A write beyond the allotment stores
nothing. Outside the bytes written nothing of a memory changes. An ordered packet, or a signal in any mode, that comes before its turn waits
and is not answered; another packet of an unordered flow is performed at once. R72: a line read, and a marked access that reads, of a POISON
block is answered with POISON and changes nothing. R331, R344, R361, R362: a packet for an endpoint that is not in the table, a service endpoint or GONE, of another generation, or of a context of this package
that is ending is answered ENDPOINT_GONE, and performs nothing. R417: for a context that is FROZEN writes, signals and marked accesses go
into the parking store, the first two acknowledged, the third unanswered; a full store answers RETRY. That a line read is then answered
RETRY and that 64 KiB hold 1,024 packets is the model's reading (log entry 24). R300, R331: the service endpoint answers reads of the
bulletin with 64 bytes of it, and any other endpoint a read of the bulletin with ENDPOINT_GONE. -/
def Obligations.FabricPacketsPerform : Prop :=
  (∀ (s : State) (h : FabHdr) (cid : Nat) (off : BitVec 32), s.Reaches h cid → s.waiters = [] →
    let key := cid * 65536 + h.thread.toNat
    let t := s.thr key
    let room := t.scratchG * 16384
    let base := off.toNat / 64 * 64
    let sound := fun (a : Nat) => isPoison (t.scratch.tag a) = false
    t.alive = true → t.scratch.wf = true → t.wp = [] → t.wrote = [] → (∀ p ∈ s.threads, p.2.scores = []) →
    let keeps := fun (u : State) => u.hbm = s.hbm ∧ u.host = s.host ∧ ∀ k, k ≠ key → (u.thr k).scratch = (s.thr k).scratch ∧ (u.thr k).live = (s.thr k).live
    let runs := fun (i : Instr) (a : AnsKind) (p : State → Prop) => ∃ u, exec i s = .next u ∧ u.answers = s.answers ++ [answerTo h a] ∧ keeps u ∧ p u
    let scr := fun (u : State) => (u.thr key).live = t.live ∧ (u.thr key).scratch.tags = t.scratch.tags
    let bytes := fun (u : State) (lo n : Nat) (b : Nat → Byte) => scr u ∧
      ∀ c, (u.thr key).scratch.byte c = if lo ≤ c ∧ c < lo + n then b (c - lo) else t.scratch.byte c
    let writes := fun (data : BitVec 512) (be : BitVec 64) => base < room → runs (.postedWrite h off data be none) .ack fun u =>
      bytes u base 64 fun i => if be.getLsbD i then BitVec.ofNat 8 (data.toNat / 2 ^ (8 * i)) else t.scratch.byte (base + i)
    (s.InTurn h → (∀ data be, writes data be) ∧
      (∀ (data : BitVec 512) (ty : RedTy), base < room → runs (.postedWrite h off data (BitVec.allOnes 64) (some ty)) .ack fun u => scr u ∧
        (∀ c, (c < base ∨ base + 64 ≤ c) → (u.thr key).scratch.byte c = t.scratch.byte c) ∧
        ∀ j, j < 64 / redBytes ty → (u.thr key).scratch.readLE (base + redBytes ty * j) (redBytes ty) =
          redSum ty (t.scratch.readLE (base + redBytes ty * j) (redBytes ty)) (fld data.toNat (8 * redBytes ty * j) (8 * redBytes ty))) ∧
      (∀ (data : BitVec 512) (be : BitVec 64) (r : Option RedTy), room ≤ base → runs (.postedWrite h off data be r) .ack fun u =>
        (u.thr key).scratch = t.scratch ∧ (u.thr key).live = t.live) ∧
      (base < room → sound base → runs (.lineRead h off) (.data (t.scratch.block (off.toNat / 64))) fun u => u.threads = s.threads) ∧
      (base < room → ¬ sound base → runs (.lineRead h off) .poison fun u => u.threads = s.threads) ∧
      (∀ op : MarkedOp, markedReads op = true → off.toNat + markedBytes op ≤ room → ¬ sound base →
        runs (.markedAccess h off op) .poison fun u => u.threads = s.threads) ∧
      (∀ (z : Size) (v c : W64) (o : AOp),
        let n := sizeBytes z
        let old := t.scratch.readLE off.toNat n
        let w := v.toNat % 2 ^ (8 * n)
        let does := fun (op : MarkedOp) (x : Nat) => off.toNat + n ≤ room → sound base → runs (.markedAccess h off op) (.reply (BitVec.ofNat 64 old)) fun u =>
          bytes u off.toNat n fun i => BitVec.ofNat 8 (x / 2 ^ (8 * i))
        does (.load z) old ∧ does (.store z v) w ∧ does (.atom z o v) (atomOp o n old w) ∧
          does (.cas z c v) (if old = c.toNat % 2 ^ (8 * n) then w else old)) ∧
      (∀ (ty : RedTy) (v : W32), off.toNat + 4 ≤ room → sound base → runs (.markedAccess h off (.fadd ty v)) (.reply (BitVec.ofNat 64 (t.scratch.readLE off.toNat 4))) fun u =>
        bytes u off.toNat 4 fun i => BitVec.ofNat 8 (addLane ty (t.scratch.readLE off.toNat 4) v.toNat / 2 ^ (8 * i))) ∧
      (∀ (f : BitVec 8) (v : W32), 0 < f.toNat → f.toNat < 192 → runs (.signal h f v) .ack fun u => (u.thr key).scratch = t.scratch ∧
        ((u.thr key).live.f.get f.toNat).toNat = min ((t.live.f.get f.toNat).toNat + v.toNat) 0xFFFFFFFF ∧
        (∀ g, g ≠ f.toNat → (u.thr key).live.f.get g = t.live.f.get g) ∧ (u.thr key).live.x = t.live.x ∧ (u.thr key).live.pc = t.live.pc)) ∧
    (s.Early h → (∀ (data : BitVec 512) (be : BitVec 64) (f : BitVec 8) (v : W32) (op : MarkedOp),
        (h.ordered = true → ∀ i ∈ [Instr.postedWrite h off data be none, .lineRead h off, .markedAccess h off op, .signal h f v],
          ∃ u, exec i s = .next u ∧ u.threads = s.threads ∧ u.answers = s.answers ∧ u.hbm = s.hbm) ∧
        (h.ordered = false → ∃ u, exec (.signal h f v) s = .next u ∧ u.threads = s.threads ∧ u.answers = s.answers) ∧
        (h.ordered = false → writes data be)))) ∧
  (∀ (s : State) (h : FabHdr) (off : BitVec 32) (data : BitVec 512) (be : BitVec 64) (r : Option RedTy) (op : MarkedOp) (f : BitVec 8) (v : W32),
    let e := s.endpoints.get h.ep.toNat
    let c := s.ctx e.cid
    let own := h.ep.toNat = serviceBase + s.pkg.self
    let only := fun (i : Instr) (a : AnsKind) => exec i s = .next { s with answers := s.answers ++ [answerTo h a] }
    let parks := fun (i : Instr) (p : InOp) (l : List Answer) => ∃ u q, exec i s = .next u ∧ u.threads = s.threads ∧ u.hbm = s.hbm ∧
      u.answers = s.answers ++ l ∧ (u.ctx e.cid).store = c.store ++ [q] ∧ q.h = h ∧ q.op = p
    ((s.endpoints.has h.ep.toNat = false ∨ serviceBase ≤ h.ep.toNat ∨ e.st = 2 ∨ e.gen ≠ h.gen ∨ (e.pkg = s.pkg.self ∧ c.stateOf ≠ 1 ∧ c.stateOf ≠ 2)) →
      only (.postedWrite h off data be r) .gone ∧ only (.markedAccess h off op) .gone ∧ only (.signal h f v) .gone ∧ (¬ own → only (.lineRead h off) .gone)) ∧
    (s.endpoints.has h.ep.toNat = true → e.st ≠ 2 → e.gen = h.gen → e.pkg = s.pkg.self → c.stateOf = 2 → c.relay = none → h.ep.toNat < serviceBase →
      c.parked h = false → (1024 ≤ c.store.length → only (.postedWrite h off data be r) .retry ∧ only (.markedAccess h off op) .retry ∧ only (.signal h f v) .retry) ∧
      only (.lineRead h off) .retry ∧
      (c.store.length < 1024 → c.awaitEnd = false → s.InTurn h → (∀ g ∈ s.inflows, g.waiting = []) →
        parks (.postedWrite h off data be r) (.write off.toNat data be r) [answerTo h .ack] ∧
        parks (.signal h f v) (.signal f.toNat v) [answerTo h .ack] ∧ parks (.markedAccess h off op) (.marked off.toNat op) [])) ∧
    (own → off.toNat < 4096 → only (.lineRead h off) (.data (s.bulletinLine off.toNat))) ∧
    ∀ (ep : W32) (o : Nat),
      let ans := fun (a : AnsKind) => exec (.bulletinRead ep o) s =
        .next { s with answers := s.answers ++ [{ ep := ep, thread := 0, flow := 0, seq := o, kind := a }] }
      (ep.toNat = serviceBase + s.pkg.self → o < 4096 → ans (.data (s.bulletinLine o))) ∧ (ep.toNat ≠ serviceBase + s.pkg.self → ans .gone))

/-- R202, R184, R333, R361: an answered packet leaves the fabric. A posted write returns its unit of allowance; the reply of any other goes to
what awaits it. R198, R72: the line that a prefetch asked for is filled where there is room for it and it is not POISON, which the reply then
says. A line that is filled keeps
the bytes that the thread has written in it. RETRY keeps the packet and its
unit, and it may be sent again 256 ticks later, not before. ENDPOINT_GONE of a write returns the unit and raises FABRIC with the window in
TRAP_INFO. An evicted line is gone, a dirty one once a posted write of its dirty bytes has taken a unit; while there is none it stays. A
cancel message releases the reply that is owed. -/
def Obligations.FabricAnswersAndLines : Prop :=
  (∀ (s : State) (key id : Nat) (p : Packet) (d : BitVec 512), s.packet key id = some p → (s.thr key).alive = true →
    let t := s.thr key
    let leaves := fun (u : State) => (∀ q ∈ u.outbox, q.id ≠ id) ∧ ∀ q ∈ s.outbox, q.id ≠ id → q ∈ u.outbox
    let fewer := { t.win.get p.win with inflight := (t.win.get p.win).inflight - 1 }
    let isWrite := ∃ o x b r, p.kind = .write o x b r
    (isWrite → t.awaits id = false → t.prefs.contains id = false → ∃ u, exec (.acknowledgement key id d) s = .next u ∧ leaves u ∧ u.thr key = { t with win := t.win.put p.win fewer, idle := s.tick } ∧
      (∀ k, k ≠ key → u.thr k = s.thr k) ∧ u.hbm = s.hbm) ∧
    (∀ o, p.kind = .lineRead o → key < passBase → t.prefs = [id] → s.lineCount t.core < 4096 →
      (∃ u, exec (.acknowledgement key id d) s = .next u ∧ leaves u ∧ u.hbm = s.hbm ∧
        u.thr key = { t with prefs := [], idle := s.tick }.fillLine (lineKey p.win (o / 64)) d) ∧
      ∃ u, runTurn (.poison key id) s = .next u ∧ leaves u ∧ u.hbm = s.hbm ∧ u.thr key = { t with prefs := [], idle := s.tick }) ∧
    (∀ k, let l := t.lines.get k
      let m := (t.fillLine k d).lines.get k
      m.valid = true ∧ m.dirty = l.dirty ∧ (∀ j, j ≠ k → (t.fillLine k d).lines.get j = t.lines.get j) ∧
        ∀ i, i < 64 → m.data.extractLsb' (8 * i) 8 = if l.dirty.getLsbD i then l.data.extractLsb' (8 * i) 8 else d.extractLsb' (8 * i) 8) ∧
    ((∃ o, p.kind = .lineRead o) ∨ (∃ o x, p.kind = .marked o x) ∨ (∃ f v, p.kind = .signal f v) → t.awaits id = true → t.prefs.contains id = false →
      (∃ u, exec (.acknowledgement key id d) s = .next u ∧ leaves u ∧ u.hbm = s.hbm ∧
        u.thr key = { t with replies := t.replies.put id { data := d, poison := false, acq := p.got }, idle := s.tick }) ∧
      ∃ u, runTurn (.poison key id) s = .next u ∧ leaves u ∧ u.hbm = s.hbm ∧
        u.thr key = { t with replies := t.replies.put id { data := 0, poison := true, acq := p.got }, idle := s.tick }) ∧
    (∃ u, exec (.retry key id) s = .next u ∧ u.threads = s.threads ∧ u.outbox.length = s.outbox.length ∧
      (p.retry = 0 → { p with retry := s.tick + 256 } ∈ u.outbox)) ∧
    (p.retry ≠ 0 → p.retry ≤ s.tick → ∃ u, exec (.retryResend key id) s = .next u ∧ u.threads = s.threads ∧ { p with retry := 0 } ∈ u.outbox) ∧
    ((∀ q ∈ s.outbox, s.tick < q.retry) → exec (.retryResend key id) s = .next s) ∧
    (isWrite → key < passBase → t.run = .resident → ∃ u, exec (.endpointGone key id) s = .next u ∧ (∀ q ∈ u.outbox, q.id ≠ id) ∧ (u.thr key).run = .trapped ∧
      (u.thr key).trap.cause = 0x14 ∧ (u.thr key).trap.info = BitVec.ofNat 64 (p.win % 16) ∧ (u.thr key).win.get p.win = fewer) ∧
    (isWrite → t.run ≠ .resident → t.reports = [] → ∃ u x, exec (.endpointGone key id) s = .next u ∧ leaves u ∧ (u.thr key).run = t.run ∧
      (u.thr key).reports = [x] ∧ x.t.cause = 0x14 ∧ (u.thr key).win.get p.win = fewer)) ∧
  (∀ (s : State) (key w line : Nat), (s.thr key).alive = true → line < 32768 → (s.thr key).lines.has (lineKey w line) = true →
      let t := s.thr key
      let l := t.lines.get (lineKey w line)
      let clean := fun (u : State) => (u.thr key).lines.has (lineKey w line) = false ∧ ∀ e ∈ t.lines, e.1 ≠ lineKey w line → e ∈ (u.thr key).lines
      (l.dirty = 0 → ∃ u, exec (.lineEviction key w line) s = .next u ∧ clean u ∧ u.outbox = s.outbox ∧ u.hbm = s.hbm) ∧
      (l.dirty ≠ 0 → (t.ver t.curVer.id).deps = [] → s.outbox.length < 1024 →
        ((t.win.get w).inflight < (t.win.get w).limit.toNat → ∃ u q, exec (.lineEviction key w line) s = .next u ∧ clean u ∧ u.outbox = s.outbox ++ [q] ∧
          q.kind = .write (line * 64) l.data l.dirty none ∧ q.key = key ∧ q.win = w ∧ (u.thr key).win.get w = { t.win.get w with inflight := (t.win.get w).inflight + 1 } ∧
          u.hbm = s.hbm) ∧
        ((t.win.get w).limit.toNat ≤ (t.win.get w).inflight → ∃ u, exec (.lineEviction key w line) s = .next u ∧ (u.thr key).lines = t.lines ∧ u.outbox = s.outbox))) ∧
  ∀ (s : State) (ep : W32) (n cid : Nat), ∃ u, exec (.cancelMessage ep n) s = .next u ∧ u.threads = s.threads ∧ u.hbm = s.hbm ∧
      (u.ctx cid).store.map (fun q => (q.h, q.op)) = (s.ctx cid).store.map (fun q => (q.h, q.op)) ∧
      ∀ q ∈ (u.ctx cid).store, q.h.srcEp = ep → q.h.seq = n → q.acked = true

/-- R229, R230, R235, R237: a request for slots that comes first and can be met leaves the queue, and each of its threads without a slot takes a
free one: a single thread on the core named, a gang on distinct cores of its cluster, each a core with room for the thread; one that waited
for its slot is resident. Stated where no gang has missed its start tick. A request that cannot be met stays. After 125,000 ticks, not before, cores
are reserved for a request that they could meet, as many as it needs, and the resident threads on them are asked to leave. Which cores the Kiln takes
is what the event names (assumption log entry 59). An image that fits comes into the overlay of a core, and no other does. -/
def Obligations.PlacementGivesSlots : Prop :=
  ∀ (s : State) (n core : Nat) (q : PlaceReq), s.places[n]? = some q → q.keys.Nodup → s.fwHeld = false → s.stopped = false → s.mayLeave q = true →
    s.judgeGangs = s → s.gangOver q.keys = false → (∀ k ∈ q.keys, (s.thr k).gang = 0 → q.keys = [k]) →
    let new := fun (k : Nat) => k ∈ q.keys ∧ (s.thr k).placed = false
    (((s.places.take n).all fun p => !(s.mayLeave p && s.canMeet p)) = true → (s.assignAt q core).isSome = true →
      ∃ u, exec (.placement n core) s = .next u ∧ u.places = s.places.eraseIdx n ∧ u.hbm = s.hbm ∧
        (∀ k, new k → (u.thr k).placed = true ∧ (u.thr k).slot < 4 ∧ s.canTake q k (u.thr k).core = true ∧ (u.thr k).live = (s.thr k).live ∧
          ((s.thr k).run = .waiting → (∀ g ∈ s.gangHolds, k ∉ g.keys) → (u.thr k).run = .resident) ∧
          ((s.thr k).run = .waiting → (∃ g ∈ s.gangHolds, k ∈ g.keys) → (u.thr k).run = .unstarted)) ∧
        (∀ k j, new k → new j → k ≠ j → (u.thr k).core ≠ (u.thr j).core ∧ (u.thr k).core / 8 = (u.thr j).core / 8) ∧
        (∀ k, q.keys = [k] → new k → (s.thr k).gang = 0 → (u.thr k).core = core)) ∧
    (s.assignAt q core = none → exec (.placement n core) s = .next s) ∧
    (∀ cores : List Nat, q.reserved = false → cores.Nodup → cores.length = q.keys.length → s.couldMeet q cores = true → (∀ c ∈ cores, c / 8 = cores.headD 0 / 8) →
      (q.since + 125000 ≤ s.tick → ∃ u, exec (.placementReservation n cores) s = .next u ∧ u.places[n]? = some { q with reserved := true, cores := cores } ∧
        u.hbm = s.hbm ∧ (∀ m, m ≠ n → u.places[m]? = s.places[m]?) ∧
        (∀ e ∈ s.threads, e.1 < passBase → s.thr e.1 = e.2 → e.2.gang = 0 → e.2.alive = true → e.2.run = .resident → e.2.placed = true → e.2.core ∈ cores →
          e.2.preemptReq = none → u.thr e.1 = { e.2 with preemptReq := some s.tick })) ∧
      (s.tick < q.since + 125000 → exec (.placementReservation n cores) s = .next s)) ∧
    ∀ c slot : Nat, c < 832 → (s.images.get slot).resident = true →
      (s.imageFits c slot = true → ∃ u, exec (.overlayLoad c slot) s = .next u ∧ slot ∈ (u.cores.get c).overlay ∧ u.threads = s.threads ∧ u.hbm = s.hbm) ∧
      (s.imageFits c slot = false → exec (.overlayLoad c slot) s = .next s)

/-- R237, R392, R393, R385: a thread that has waited in a WAITF or BAR for its context's park threshold leaves its slot, and one that has waited
less does not. A request to leave is noted once, for every resident member of the gang. 1,250,000 ticks after it, a thread none of whose
versions has published is rolled back to its restart point and waits for a slot, and no trap is taken; so is, when a write has no room in the
MSC, the thread with the largest unpublished version. A published version, or room enough, leaves everything as it is. R381, R225: when the last entry of an outgoing version has completed, and none of its dependencies is left, the version commits: its
boundary is the restart point, and no byte of HBM changes; while an entry of it is queued nothing happens. A retired number is free again
1,250,000 ticks after its thread retired, once no tile task that it submitted and no packet of it is left, and no packet and no host signal accepted for it, and not before. -/
def Obligations.ThreadsLeaveAndLand : Prop :=
  (∀ (s : State) (key : Nat), key < passBase → (s.thr key).alive = true → (s.thr key).run = .resident →
    let t := s.thr key
    let park := (s.ctx t.cid).park
    let unpublished := t.versions.all (fun v => !v.published) = true
    let off := fun (u : State) => (u.thr key).run = .waiting ∧ (u.thr key).placed = false ∧ (u.thr key).trap = t.trap ∧
      (u.thr key).live = { t.committed with f := (u.thr key).live.f } ∧ ((u.thr key).queue .vl).entries = [] ∧ ((u.thr key).queue .cp).entries = [] ∧
      ∃ q ∈ u.places, key ∈ q.keys
    ((t.wait.kind = .flag ∨ ∃ g, t.wait.kind = .bar g) → (∀ w ∈ s.waiters, w.key = key → w.unit = 0) →
      (t.wait.since + park ≤ s.tick → ∃ u, exec (.parkThreshold key) s = .next u ∧ (u.thr key).run = .parkedWait ∧ (u.thr key).wait = t.wait ∧
        (u.thr key).live.pc = t.live.pc ∧ ((u.thr key).placed = if t.gang = 0 then false else t.placed) ∧ u.hbm = s.hbm ∧
        ∀ k, k ≠ key → u.thr k = s.thr k ∨ ((s.thr k).claimHead = true ∧ u.thr k = { s.thr k with idle := s.tick })) ∧
      (s.tick < t.wait.since + park → exec (.parkThreshold key) s = .next s)) ∧
    (s.fwHeld = false → t.preemptReq = none → (∀ p ∈ s.threads, s.thr p.1 = p.2) → ∃ u, exec (.preempt key) s = .next u ∧ u.hbm = s.hbm ∧
      u.thr key = { t with preemptReq := some s.tick } ∧
      ∀ p ∈ s.threads, p.1 ≠ key → u.thr p.1 = (if t.gang ≠ 0 ∧ p.2.gang = t.gang ∧ p.2.cid = t.cid ∧ p.2.alive = true ∧ p.2.run = .resident ∧ p.2.preemptReq = none
        then { p.2 with preemptReq := some s.tick } else p.2)) ∧
    (∀ a, t.preemptReq = some a →
      (a + 1250000 ≤ s.tick → unpublished → t.gang = 0 → ∃ u, exec (.preemptRollback key) s = .next u ∧ off u ∧ (u.thr key).preemptReq = none) ∧
      ((s.tick < a + 1250000 ∨ ¬ unpublished) → exec (.preemptRollback key) s = .next s)) ∧
    (∀ need : Nat,
      (s.mscUse + need ≤ 7516192768 → exec (.mscRoomRollback need) s = .next s) ∧
      (7516192768 < s.mscUse + need → unpublished → t.gang = 0 → t.preemptReq = none → 0 < t.mscBytes → (∀ p ∈ s.threads, s.thr p.1 = p.2) →
        (∀ p ∈ s.threads, p.1 ≠ key → p.2.mscBytes < t.mscBytes) → ∃ u, exec (.mscRoomRollback need) s = .next u ∧ off u))) ∧
  ((∀ (s : State) (key : Nat) (v w : Version) (l : Landing), (s.thr key).alive = true → (s.thr key).versions = [v, w] → v.id ≠ w.id → v.landing = some l →
    let t := s.thr key
    ((∀ e ∈ engs, ∀ x ∈ (t.queue e).entries, x.ver ≠ v.id) → v.deps = [] → ∃ u, exec (.boundaryLanding key) s = .next u ∧
      (u.thr key).committed = l.frame ∧ (u.thr key).saved = l.cb ∧ (u.thr key).live = t.live ∧ (u.thr key).versions.map (·.id) = [w.id] ∧ u.hbm = s.hbm ∧ u.staging = s.staging) ∧
    ((∃ e ∈ engs, ∃ x ∈ (t.queue e).entries, x.ver = v.id) → exec (.boundaryLanding key) s = .next s)) ∧
  ∀ (s : State) (cid n : Nat), n < 65536 → (s.ctx cid).quarantine.has n = true → (s.ctx cid).quarantine.Rising →
    let key := cid * 65536 + n
    let until_ := (s.ctx cid).quarantine.get n + 1250000
    (until_ ≤ s.tick → (∀ x ∈ s.tasks, x.2.origin ≠ some key) → (∀ p ∈ s.outbox, p.key ≠ key) → s.inboundFor cid n = false →
      s.signalFor cid n = false → ∃ u, exec (.quarantineEnd cid n) s = .next u ∧ u.hbm = s.hbm ∧ (s.threads.has key = false → u.threads = s.threads) ∧
      (u.ctx cid).quarantine.has n = false ∧ ∀ m, m ≠ n → (u.ctx cid).quarantine.has m = (s.ctx cid).quarantine.has m) ∧
    ((s.tick < until_ ∨ (∃ x ∈ s.tasks, x.2.origin = some key) ∨ (∃ p ∈ s.outbox, p.key = key) ∨ s.inboundFor cid n = true ∨
      s.signalFor cid n = true) → exec (.quarantineEnd cid n) s = .next s))

/-- R261, R134, R373, R387: a thread that has been blocked on itself for 4,096 ticks takes DEADLOCK at its word, with the code of its wait in
TRAP_INFO; one blocked for less, or waiting for another agent, does not. Of two threads that wait for the WB slots the other holds, once both
have waited 4,096 ticks, the one whose claim came to the head of its queue last takes DEADLOCK with 6 in TRAP_INFO[19:16], and the other does
not; TRAP_ADDR is then 0 (the model's choice: assumption log entry 12). Claims that have waited less do nothing. A trap is taken by a resident thread, PAGE by parking it with its version kept. A thread whose
version depends on one that has been discarded takes VERSION, with the writer's number in TRAP_INFO when both are of one context. -/
def Obligations.DeadlocksAndTrapsReachThreads : Prop :=
  (∀ (s : State) (key : Nat), key < passBase → (s.thr key).alive = true → (s.thr key).run = .resident →
    let t := s.thr key
    let traps := fun (u : State) (c : Nat) => (u.thr key).run = .trapped ∧ (u.thr key).trap.cause = BitVec.ofNat 64 c
    (∀ p ∈ [(WaitKind.waitc, 4), (.ticket, 9), (.flag, 1)], t.wait.kind = p.1 → t.idleQueues = true → (∀ e ∈ t.live.v, e.2.strm.active = false) →
      (∀ w ∈ s.waiters, w.key = key → s.flagOutside key w.flag = false) → (∀ q ∈ s.outbox, q.key ≠ key) →
      t.idle + 4096 ≤ s.tick → ∃ u, exec (.deadlock key) s = .next u ∧ traps u 10 ∧ (u.thr key).trap.info = BitVec.ofNat 64 p.2 ∧
        (u.thr key).trap.pc = t.pcw ∧ (u.thr key).live.pc = t.committed.pc) ∧
    ((s.tick < t.idle + 4096 ∨ t.wait.kind = .running ∨ t.wait.kind = .outside ∨ ∃ q ∈ s.outbox, q.key = key) → exec (.deadlock key) s = .next s) ∧
    (∀ tr : Trap, (tr.cause ≠ 4 → ∃ u, exec (.trapDelivery key tr) s = .next u ∧ traps u tr.cause.toNat ∧ (u.thr key).trap.addr = tr.addr ∧
        (u.thr key).trap.info = tr.info ∧ (u.thr key).trap.pc = tr.pc) ∧
      (tr.cause = 4 → ∃ u, exec (.trapDelivery key tr) s = .next u ∧ (u.thr key).run = .parkedPage tr ∧ (u.thr key).live.pc = t.live.pc ∧
        (u.thr key).versions.map (·.id) = t.versions.map (·.id) ∧ u.hbm = s.hbm)) ∧
    ∀ w : Nat, w ≠ key → let live := fun (id : Nat) => ∃ p ∈ s.threads, ∃ v ∈ p.2.versions, v.id = id
      ((∃ v ∈ t.versions, ∃ d ∈ v.deps, ¬ live d) → ∃ u, exec (.versionCascade key w) s = .next u ∧ traps u 14 ∧
        (u.thr key).trap.info = BitVec.ofNat 64 (1 + (if (s.thr w).cid = t.cid then (s.thr w).num else 65535) * 65536) ∧ (u.thr key).live.pc = t.committed.pc) ∧
      ((∀ v ∈ t.versions, ∀ d ∈ v.deps, live d) → exec (.versionCascade key w) s = .next s)) ∧
  ∀ (s : State) (core a b ta tb : Nat), a ≠ b → ta < tb → (s.thr a).run = .resident → (s.thr b).alive = true →
    ∀ na nb : Nat, s.claims core ∈ [[(a, (MMem.wb, na), ta), (b, (MMem.wb, nb), tb)], [(b, (MMem.wb, nb), tb), (a, (MMem.wb, na), ta)]] →
    s.claimHolders a (.wb, na) ∈ [[a, b], [b, a]] → s.claimHolders b (.wb, nb) ∈ [[a, b], [b, a]] → (∀ p ∈ s.threads, ∀ v ∈ p.2.versions, v.deps = []) →
    (tb + 4096 ≤ s.tick → ∃ u, exec (.claimCycle core) s = .next u ∧ (u.thr b).run = .trapped ∧ (u.thr b).trap.cause = 10 ∧
      (u.thr b).trap.info = 6 * 2 ^ 16 ∧ (u.thr b).trap.addr = 0 ∧ (u.thr a).run = .resident) ∧
    (s.tick < tb + 4096 → exec (.claimCycle core) s = .next s)

/-- R328: a gang whose members are all placed starts at its tick, not before: every member is resident. One that is not wholly placed 16 ticks
before is late: with LATEOK it waits on, and starts once it is placed and its tick has come (assumption log entry 28), without LATEOK its threads are gone, no request names them, and SCHEDMISS is posted; earlier it is not
late. A late gang that starts posts SCHEDMISS with the ticks late. -/
def Obligations.GangsStartTogether : Prop :=
  ∀ (s : State) (n : Nat) (h : GangHold), s.gangHolds[n]? = some h →
    let miss := (postEvent h.fn 4 0 h.tag h.ring h.cid 0 (s.tick - h.start) 0 s)
    let placed := ∀ k ∈ h.keys, (s.thr k).run = .unstarted
    ((∀ k ∈ h.keys, (s.thr k).alive = true) →
      (h.start ≤ s.tick → placed → ∃ u, exec (.gangStart n) s = .next u ∧ u.gangHolds = s.gangHolds.eraseIdx n ∧ u.hbm = s.hbm ∧
        (∀ k ∈ h.keys, u.thr k = { s.thr k with run := .resident, idle := s.tick }) ∧ (∀ k, k ∉ h.keys → u.thr k = s.thr k) ∧
        u.funcs = (if h.late then miss else s).funcs ∧ u.host = (if h.late then miss else s).host) ∧
      ((s.tick < h.start ∨ ¬ placed) → exec (.gangStart n) s = .next s) ∧
      (h.late = false → h.start ≤ s.tick + 16 → ¬ placed →
        (h.lateOk = true → ∃ u, exec (.gangLate n) s = .next u ∧ u.gangHolds[n]? = some { h with late := true } ∧ u.threads = s.threads ∧ u.funcs = s.funcs) ∧
        (h.lateOk = false → (∀ p ∈ s.threads, ∀ v ∈ p.2.versions, v.deps = []) → ∃ u, exec (.gangLate n) s = .next u ∧ u.gangHolds = s.gangHolds.eraseIdx n ∧
          (∀ k ∈ h.keys, (u.thr k).alive = false) ∧ (∀ p ∈ u.places, ∀ k ∈ h.keys, k ∉ p.keys) ∧ u.funcs = miss.funcs ∧ u.host = miss.host)) ∧
      ((h.late = true ∨ s.tick + 16 < h.start ∨ placed) → exec (.gangLate n) s = .next s))

/-- R395, R396, R72, R73: a corrected error is counted; the one that brings the count of its place within the window to the threshold is
reported lasting, once per window. An uncorrectable error makes a block of HBM, scratch or staging POISON with its bytes unchanged, a WB or AB
slot unusable, a CB row's status POISON; an error of a register-cache line raises MEMERR against its thread, whose frame is that of the last
commit; an overlay or a flit loses nothing, and a lane that fails its retransmission is reported lasting at once. The place that an uncorrectable error is counted at is the model's choice (log entry 42). R426: a
unit in sampling mode writes a record of 32 bytes for the resident thread of its holder every PERIOD ticks, not before. -/
def Obligations.HardwareErrorsAndSamples : Prop :=
  (∀ (s : State) (kind : BitVec 4) (loc : BitVec 60), kind.toNat < 3 →
    let window := s.pkg.errWindow.toNat * 1250000000
    let n := (s.errors.filter fun e => decide (e.1 = kind.toNat ∧ e.2.1 = loc.toNat ∧ s.tick < e.2.2 + window)).length + 1
    let told := ∃ e ∈ s.lasting, e.1 = kind.toNat ∧ e.2.1 = loc.toNat ∧ s.tick < e.2.2 + window
    let thresh := s.pkg.errThresh.toNat / 2 ^ (16 * kind.toNat) % 65536
    let post := postEvent 0 7 0 0 0xFFFFFFFF 0 0 n (kind.toNat * 2 ^ 60 + loc.toNat) s
    ∃ u, exec (.correctedError kind loc) s = .next u ∧ (kind.toNat, loc.toNat, s.tick) ∈ u.errors ∧ u.threads = s.threads ∧ u.hbm = s.hbm ∧
      (thresh ≤ n → ¬ told → u.funcs = post.funcs ∧ u.host = post.host ∧ (kind.toNat, loc.toNat, s.tick) ∈ u.lasting) ∧
      ((n < thresh ∨ told) → u.funcs = s.funcs ∧ u.host = s.host ∧ u.lasting = s.lasting)) ∧
  (∀ (s : State) (key b h r : Nat), (s.thr key).alive = true →
    let t := s.thr key
    let does := fun (site : ErrSite) (p : State → Prop) => ∃ u, exec (.uncorrectableError site) s = .next u ∧ p u
    let spoilt := fun (m m' : Memory) => m'.cells = m.cells ∧ isPoison (m'.tag (64 * b)) = true ∧ ∀ c, c / 64 ≠ b → m'.tag c = m.tag c
    let rest := fun (u : State) => ∀ k, k ≠ key → u.thr k = s.thr k
    does (.hbm b) (fun u => spoilt s.hbm u.hbm ∧ u.threads = s.threads) ∧
    (b < t.scratchG * 256 → does (.scratch key b) fun u => u.hbm = s.hbm ∧ rest u ∧ u.thr key = { t with scratch := (u.thr key).scratch } ∧ spoilt t.scratch (u.thr key).scratch) ∧
    does (.staging b) (fun u => spoilt s.staging u.staging ∧ u.hbm = s.hbm ∧ u.threads = s.threads) ∧
    (t.wb.has h = true → does (.wb key h) fun u => u.hbm = s.hbm ∧ rest u ∧ u.thr key = { t with wb := t.wb.put h { t.wb.get h with bad := true } }) ∧
    (t.ab.has h = true → does (.ab key h) fun u => u.hbm = s.hbm ∧ rest u ∧ u.thr key = { t with ab := t.ab.put h { t.ab.get h with bad := true } }) ∧
    (t.cb.has h = true → r < 256 → does (.cbRow key h r) fun u => u.hbm = s.hbm ∧ rest u ∧
      ((u.thr key).cb.get h).mem = (t.cb.get h).mem ∧ ((u.thr key).cb.get h).status.get r = (t.cb.get h).status.get r ||| 4) ∧
    (key < passBase → t.run = .resident → does (.regLine key) fun u => (u.thr key).run = .trapped ∧ (u.thr key).trap.cause = 0x13 ∧
      (u.thr key).trap.state.toNat % 4 = 2 ∧ (u.thr key).live = { t.committed with f := (u.thr key).live.f }) ∧
    does (.overlay b h) (fun u => u.threads = s.threads ∧ u.hbm = s.hbm ∧ u.cores = s.cores ∧ u.images = s.images) ∧
    does (.flit b) (fun u => u.threads = s.threads ∧ u.hbm = s.hbm ∧ u.inflows = s.inflows ∧ u.outbox = s.outbox) ∧
    does (.laneLost b) (fun u => u.threads = s.threads ∧ u.hbm = s.hbm ∧
      ∃ e ∈ u.lasting, e.1 = 2 ∧ e.2.1 = b % 2 ^ 60 ∧ (e.2.2 = s.tick ∨ s.tick < e.2.2 + s.pkg.errWindow.toNat * 1250000000))) ∧
  ∀ (s : State) (unit cid key : Nat), 128 ≤ unit → unit < 144 →
    let b := s.banks.get unit
    let mode := ((s.ctx cid).reg 0x135).toNat
    let t := s.thr key
    b.holder = cid + 2 → b.ctl.getLsbD 0 = true → mode % 2 = 1 → 256 ≤ mode / 256 % 2 ^ 24 →
    (s.tick < b.last + mode / 256 % 2 ^ 24 → exec (.traceSample unit) s = .next s) ∧
    (b.last + mode / 256 % 2 ^ 24 ≤ s.tick → 32 ≤ b.size.toNat → (s.threads.filter fun p => p.2.cid = cid && p.2.runs && decide (p.1 < passBase)).map (·.1) = [key] →
      ∃ u codes, exec (.traceSample unit) s = .next u ∧ (u.banks.get unit).head = b.head + 1 ∧ (u.banks.get unit).last = s.tick ∧
        u.hbm = (s.kilnWrite cid (b.base.toNat + 32 * (b.head.toNat % (b.size.toNat / 32)))
          (natLE 8 s.tick ++ natLE 2 t.num ++ natLE 2 0 ++ natLE 4 (t.live.pc % 2 ^ 15 + t.live.task.slot % 2 ^ 10 * 2 ^ 15) ++ natLE 4 codes ++
            natLE 8 t.live.iter.toNat ++ natLE 4 0)).hbm ∧
        codes < 2 ^ 24 ∧ (t.wait.kind = .running → codes % 16 = 10) ∧ (t.idleQueues = true → codes < 16))

/-- R256, R264, R266, R273: TSUB of an aligned descriptor that passes the checks makes a tile task of its fields: submitted at this tick, with
expiry PATIENCE ticks later, owned by the submitter, PENDING or already MATCHED; control passes on and no byte changes. A descriptor that fails
a check raises its cause with the descriptor's address and the offset of the field; while the partition is full the word waits. R274: when a
task of a group has expired, or the group's rows reach the class's FILL, the group is matched, here as one pass in stacking order; else it
stays. R300 to R302: every 1,250,000 ticks, not before, the bulletin is refreshed: SEQ counts by 2, and it holds the identities of the sealed
tensors and the number of PENDING tasks of each class. -/
def Obligations.TileTasksWaitAndMatch : Prop :=
  (∀ (s a : State) (xa : BitVec 5) (l : List Byte), s.Settled → s.cur < passBase →
    let t := s.thr s.cur
    let d := (t.rx xa).val
    let traps := fun (c o : Nat) => exec (.tsub xa) s = .next (s.takeTrap s.cur (t.sTrap (mkTrap c d.toNat o)))
    (d.toNat % 64 ≠ 0 → traps 3 0) ∧
    (d.toNat % 64 = 0 → readSpans (sqReq s s.cur) [(d.toNat, 64)] s = .ok (l, a) →
      (∀ c o, s.descFail t.cid t.live.gsel.isSome false l = some (c, o) → traps c o) ∧
      (s.descFail t.cid t.live.gsel.isSome false l = none →
        (s.partFull (s.partitionOf (taskOf s t.cid l)) = true → exec (.tsub xa) s = .next (s.wordWaits s.cur .outside)) ∧
        (s.partFull (s.partitionOf (taskOf s t.cid l)) = false → a.Quiet → a.cur = s.cur → ((a.thr s.cur).ver t.curVer.id).deps = [] →
          (∀ p ∈ a.tasks, p.1 < a.taskNext) → ∃ u, exec (.tsub xa) s = .next u ∧ u.taskNext = a.taskNext + 1 ∧ u.hbm = a.hbm ∧
            (u.thr s.cur).live = (a.thr s.cur).live.next ∧
            let x := u.tasks.get a.taskNext
            x.cid = t.cid ∧ x.key = some s.cur ∧ x.ver = some t.curVer.id ∧ x.desc = d ∧ x.codehash.toNat = bfld l 0 8 ∧ x.wid.toNat = bfld l 8 16 ∧
            x.ktile = bfld l 24 2 ∧ x.ntile = bfld l 26 2 ∧ x.shape = bfld l 28 2 ∧ x.rows = bfld l 30 2 ∧ x.src = bfld l 40 8 ∧ x.dst = bfld l 48 8 ∧
            x.dstride = bfld l 56 4 ∧ x.sub = s.tick ∧ x.exp = s.tick + bfld l 32 4 ∧ (x.st = .pending ∨ x.st = .matched) ∧
            x.flag = if bfld l 36 4 = 0 then none else flagRef s.cur t.cid t.live.gsel (BitVec.ofNat 8 (bfld l 36 4)))))) ∧
  (∀ (s : State) (p : Nat) (g : List (Nat × TileTask)), s.pendingIn p = g → g ≠ [] → (g.map (·.1)).Nodup → (∀ a ∈ g, ∀ b ∈ g, s.matchKey a.2 = s.matchKey b.2) →
    let h := s.shape ((g.map (·.2.shape)).headD 0)
    let rows := (g.map (·.2.rows)).sum
    rows ≤ h.maxRows →
    (((∃ e ∈ g, e.2.exp ≤ s.tick) ∨ h.fill ≤ rows) → ∃ u, exec (.patienceExpiry p) s = .next u ∧ u.passNext = s.passNext + 1 ∧
      (u.passes.get s.passNext).tasks = g.map (·.1) ∧ (u.passes.get s.passNext).core = none ∧ (u.passes.get s.passNext).matched = s.tick ∧
      (∀ e ∈ g, u.tasks.get e.1 = { e.2 with st := .matched }) ∧ (∀ k, k ∉ g.map (·.1) → u.tasks.get k = s.tasks.get k) ∧ u.threads = s.threads ∧ u.hbm = s.hbm) ∧
    ((∀ e ∈ g, s.tick < e.2.exp) → rows < h.fill → exec (.patienceExpiry p) s = .next s)) ∧
  ∀ s : State,
    (s.bulletin.at_ + 1250000 ≤ s.tick → ∃ u, exec .bulletinRefresh s = .next u ∧ u.bulletin.seq = s.bulletin.seq + 2 ∧ u.bulletin.at_ = s.tick ∧
      (∀ c, u.bulletin.pending.get c = (s.tasks.filter fun e => e.2.st = .pending && e.2.shape = c).length) ∧
      (∀ w, w ∈ u.bulletin.held.map (·.1) ↔ ∃ x ∈ s.tensors, x.wid = w) ∧ u.threads = s.threads ∧ u.hbm = s.hbm) ∧
    (s.tick < s.bulletin.at_ + 1250000 → exec .bulletinRefresh s = .next s)

/-- R275, R279, R282: a matched pass that may begin takes its pass slot: its tasks, none of which is withdrawn or fails its translation, are
LAUNCHED, its image is in the core's overlay, and the slot runs the epilogue program with the bind registers of the pass and zero registers. A
pass that may not begin stays. Before that, Launch is applied as of the tick before (R274): tasks that expired by then are matched (`State.launchBefore`). R286: a pass ends once its TEND has completed and its queues are empty: its task ends, its status bits go to the
submitter's VSTAT and 1 is added to its flag; a poisoned one first raises its cause against the submitter. R287, R292: 65,536 ticks after it
began, not before, a pass is abandoned with DEADLOCK, its task reported poisoned in every row (assumption log entry 26);
for a pass with no task in it PASSFAULT is posted to the PF. -/
def Obligations.PassesBeginAndEnd : Prop :=
  (∀ (s : State) (n core : Nat) (e : Nat × Nat × Nat × W64), s.launchBefore.tasks.Rising →
    let b := s.launchBefore
    let p := b.passes.get n
    let t0 := b.tasks.get (p.tasks.headD 0)
    let h := b.shape t0.shape
    let rows := (p.tasks.map fun x => (b.tasks.get x).rows).sum
    ((b.images.get p.codeSlot).psafe.find? fun e => e.2.2.2 = p.code) = some e → 0 < rows → p.tasks.Nodup → (∀ x ∈ b.tasks, x.2.gone = false) →
    (∀ x ∈ p.tasks, b.taskFails (core / 104) (b.tasks.get x) = []) →
    (b.mayBegin n core = true → ∃ u, exec (.passBegin n core) s = .next u ∧ (u.passes.get n).core = some core ∧ (u.passes.get n).began = s.tick ∧
      (u.passes.get n).tasks = p.tasks ∧ p.codeSlot ∈ (u.cores.get core).overlay ∧
      (∀ x ∈ p.tasks, (u.tasks.get x).st = .launched ∧ (u.tasks.get x).pass = some n) ∧
      let t := u.thr (passBase + core)
      t.alive = true ∧ t.run = .resident ∧ t.core = core ∧ t.live.pc = e.1 ∧ t.live.phase = .epilogue ∧ t.live.x = [] ∧ t.live.k = [] ∧ t.live.vtype = 0 ∧
      t.live.b.get 2 = BitVec.ofNat 64 t0.ktile ∧ t.live.b.get 3 = BitVec.ofNat 64 t0.ntile ∧ t.live.b.get 4 = BitVec.ofNat 64 h.k ∧
      t.live.b.get 5 = BitVec.ofNat 64 h.n ∧ t.live.b.get 6 = BitVec.ofNat 64 rows ∧ t.live.b.get 7 = BitVec.ofNat 64 t0.shape ∧
      ∀ i, 8 ≤ i → i < 16 → t.live.b.get i = 0) ∧
    (b.mayBegin n core = false → exec (.passBegin n core) s = .next b)) ∧
  ∀ (s : State) (n core tid : Nat) (p : PassRec), s.passOf (passBase + core) = some (n, p) → s.passes.get n = p → p.core = some core →
    s.threads.Rising → s.passes.Rising → s.tasks.Rising → s.waiters = [] →
    let key := passBase + core
    let t := s.tasks.get tid
    let one := p.tasks = [tid] ∧ t.pass = some n ∧ t.gone = false
    let ended := fun (u : State) => u.passes.has n = false ∧ (u.thr key).alive = false ∧ (p.tasks = [tid] → u.tasks.has tid = false)
    let owner := fun (k : Nat) => t.key = some k ∧ k < passBase ∧ (s.thr k).alive = true ∧ (s.thr k).run = .resident
    ((s.thr key).live.bnd.isSome = true → (s.thr key).idleQueues = true →
      (∀ k f, one → owner k → t.cause = 0 → t.flag = some ⟨false, k, f⟩ → 0 < f → f < 192 → ∃ u, exec (.passEnd core) s = .next u ∧ ended u ∧
        (u.thr k).live.f.get f = BitVec.ofNat 32 (min (((s.thr k).live.f.get f).toNat + 1) 0xFFFFFFFF) ∧
        (u.thr k).live.vstat = (s.thr k).live.vstat ||| BitVec.ofNat 64 t.vflags ∧ (u.thr k).live.x = (s.thr k).live.x ∧ u.hbm = s.hbm) ∧
      (∀ k, one → owner k → t.cause ≠ 0 → t.cause < 256 → t.flag = none → ∃ u, exec (.passEnd core) s = .next u ∧ ended u ∧ (u.thr k).run = .trapped ∧
        (u.thr k).trap.cause = BitVec.ofNat 64 t.cause ∧ (u.thr k).trap.addr = t.desc ∧ (u.thr k).trap.state.toNat % 4 = 2)) ∧
    (((s.thr key).live.bnd = none ∨ (s.thr key).idleQueues = false) → exec (.passEnd core) s = .next s) ∧
    (p.began + 65536 ≤ s.tick →
      (∀ k, one → owner k → t.cause = 0 → 0 < t.rows → t.rows ≤ 256 → t.flag = none → ∃ u, exec (.passAbandon core) s = .next u ∧ ended u ∧ (u.thr k).run = .trapped ∧
        (u.thr k).trap.cause = 10 ∧ (u.thr k).trap.addr = t.desc ∧ (u.thr k).trap.info = BitVec.ofNat 64 ((t.rows - 1) * 2 ^ 8 + 2 ^ 24 + 2 ^ 25)) ∧
      (p.tasks = [] → ∃ u, exec (.passAbandon core) s = .next u ∧ ended u ∧ u.funcs = (postEvent 0 9 0 0 0xFFFFFFFF 0 0 10 p.code.toNat s).funcs)) ∧
    (s.tick < p.began + 65536 → exec (.passAbandon core) s = .next s)

/-- R12, R29, R317: when a thread whose turn it is to issue stands at a word of the instruction set, the step performs that instruction for it, a
tick later; a PC outside the text, or a word that is not of the instruction set, raises ILLEGAL with the PC in TRAP_ADDR. When an interpreter
that runs a packet stands at an operation, its turn performs it. An event of the schedule is performed as such, and a turn of it as `runTurn` says;
that a schedule held in the state names the turns and the events is the model's choice (assumption log entry 2). After a word that issued, trace
units in issue mode write their records (`State.issued`, R356, log entry 61). R142, R328: what is bound to a tick starts at it, before any turn. A word that `withFetchWord`
places is the one that the next step performs: that placement is the model's own (log entry 8). -/
def Obligations.StepRunsDecoded : Prop :=
  (∀ (s : State) (key : Nat) (rest : List Turn), s.turns = .issue key :: rest → s.ticked.timedNow = none →
    let n := { s.ticked with turns := rest }
    n.Issues key →
    (∀ w i, (n.text (n.thr key))[(n.thr key).live.pc]? = some w → decodeWord w.toNat = .ok i →
      step s = State.issued key (exec i { n with cur := key })) ∧
    (∀ w e, (n.text (n.thr key))[(n.thr key).live.pc]? = some w → decodeWord w.toNat = .error e →
      step s = .next (n.takeTrap key ((n.thr key).sTrap (mkTrap 1 (n.thr key).live.pc 0)))) ∧
    ((n.text (n.thr key)).length ≤ (n.thr key).live.pc → step s = .next (n.takeTrap key ((n.thr key).sTrap (mkTrap 1 (n.thr key).live.pc 0))))) ∧
  (∀ (s : State) (it : Nat) (rest : List Turn) (w : W32) (i : Instr), s.turns = .interp it :: rest → s.ticked.timedNow = none →
    let n := { s.ticked with turns := rest }
    let x := n.interps.get it
    x.busy = true → n.stopped = false → (n.prog x.fn (n.lq x.fn x.lq).program).ops[x.idx]? = some w → decodeSparge w.toNat = .ok i →
      step s = exec i { n with curI := it }) ∧
  (∀ (s : State) (i : Instr) (rest : List Turn), s.turns = .event i :: rest → s.ticked.timedNow = none → step s = exec i { s.ticked with turns := rest }) ∧
  (∀ (s : State) (t : Turn) (rest : List Turn), s.turns = t :: rest → s.ticked.timedNow = none → step s = runTurn t { s.ticked with turns := rest }) ∧
  (∀ s t : State, s.ticked.timedNow = some t → step s = .next t) ∧
  ∀ (s : State) (w : Nat) (i : Instr), s.stopped = false → w < 2 ^ 32 → decodeWord w = .ok i → (s.withFetchWord 32 w).ticked.timedNow = none →
    step (s.withFetchWord 32 w) = State.issued 0 (exec i { (s.withFetchWord 32 w).ticked with turns := [], cur := 0 })

/-- R12, R368: whatever the state of the package, a step answers a next state: no word, entry, operation or event stops the machine. What a word
cannot do is a trap or a wait, and those are next states. -/
def Obligations.EveryStepAnswers : Prop := ∀ s : State, ∃ t, step s = .next t

/-- R3, R67: every memory of the package keeps its canonical form over every step: the cells of HBM, host memory, the staging slices, the
scratches and the operand slots, those saved for a roll-back and those passed on included, stay strictly rising by address, and no cell and no
tag holds the value of an unlisted one. The canonical form is the model's own representation (log entry 1). -/
def Obligations.StepKeepsMemoriesCanonical : Prop := ∀ s t : State, s.memWf = true → step s = .next t → t.memWf = true

/-- R28, R31 to R39, R317: decoding the word of a well-formed instruction gives it back, whatever its operands, for the words of program images
and for the operations of sparge programs; and a 32-bit word that decodes is the word of the instruction it decodes to, so that no bit of a
word is ignored. -/
def Obligations.DecodeAndEncodeAgree : Prop :=
  (∀ i : Instr, i.wellFormed = true → i.isWord = true → ∃ w, encode i = some w ∧ w < 2 ^ 32 ∧ decodeWord w = .ok i) ∧
  (∀ i : Instr, i.wellFormed = true → i.isSparge = true → ∃ w, encode i = some w ∧ w < 2 ^ 32 ∧ decodeSparge w = .ok i) ∧
  (∀ (w : Nat) (i : Instr), w < 2 ^ 32 → decodeWord w = .ok i → encode i = some w) ∧
  ∀ (w : Nat) (i : Instr), w < 2 ^ 32 → decodeSparge w = .ok i → encode i = some w

/-- R31 to R39, R317: words written out from the encodings of their formats, one of each family of the table, decode to the instructions they
stand for, and the words of all zeros and of all ones are refused. -/
def Obligations.WordsDecodeAsSpecified : Prop :=
  (∀ p ∈ [((0x01190A00 : Nat), Instr.add 3 4 5), (0x02000000, .addi 0 0 0), (0x22507FFD, .bne 5 0 (-3)), (0x2C100005, .jal 1 5),
      (0x30362804, .spawn 12 10 4), (0x32300004, .waitf 192 4), (0x35FF83E0, .waitc 31 31 0 31), (0x38101808, .syswr 6 8), (0x38400000, .eret),
      (0x41194000, .ld .w 6 10 0), (0x4714C680, .lds .w 5 6 .cluster .acq), (0x4A742416, .atomw 7 8 9 .add .pkg .rel), (0x600A8000, .vld 1 10 0 0),
      (0x80841882, .vadd 2 3 4 0 true false), (0x82020840, .vfma 1 1 2 0 false false), (0xA0150008, .vst 2 20 0 8), (0xC6028000, .mldw 0 10 0),
      (0xCA182507, .mpass 3 1 2 true 7), (0xE4C55003, .cpg 12 10 20 3), (0xFF050080, .cpset 5 1)], decodeWord p.1 = .ok p.2) ∧
  (∀ p ∈ [((0x00000101 : Nat), Instr.pld .b 0 0 1), (0x03900017, .spargeLoop 7 16), (0x00000018, .elaunch), (0x0000001F, .done)],
    decodeSparge p.1 = .ok p.2) ∧
  ∀ w ∈ [(0x00000000 : Nat), 0xFFFFFFFF], ∀ i, decodeWord w ≠ .ok i

/-- R363, R336, R306, R395: after power-up the boot ROM waits for an image and no firmware runs, the package is ON with nothing gated, ERR_WINDOW
is 60 and each error threshold 100, the PF holds every ring and every queue and no other function any, and nothing is dropped. That no context,
thread, image or task exists is what the absence of firmware leaves; that memories list nothing, and so read as zero, and that the tick counter
begins at 0, are the model's choices (log entries 1 and 3). -/
def Obligations.ResetLeaves : Prop :=
  let s := State.reset
  s.boot.waiting = true ∧ s.boot.running = false ∧ s.fwHeld = true ∧ s.stopped = false ∧ s.powerIn = 0 ∧ s.pkg.powerState = 0 ∧ s.pkg.errWindow = 60 ∧
  s.pkg.errThresh = 0x0000006400640064 ∧ s.pkg.shapeRefused = 0 ∧ s.pkg.dropped = 0 ∧ (s.func 0).ringFirst = 0 ∧ (s.func 0).ringCount = 131072 ∧
  (s.func 0).lqFirst = 0 ∧ (s.func 0).lqCount = 8192 ∧ (∀ f, f ≠ 0 → (s.func f).ringCount = 0 ∧ (s.func f).lqCount = 0) ∧ (s.func 0).evqSize = 0 ∧
  s.threads = [] ∧ s.ctxs = [] ∧ s.images = [] ∧ s.tasks = [] ∧ s.rings = [] ∧ s.tick = 0 ∧ s.memWf = true ∧
  (∀ a, s.hbm.byte a = 0 ∧ s.host.byte a = 0 ∧ s.hbm.tag a = 0)
end

