-- ==== Sys2Proof/Laws/Dispatch.lean ====
section
/-! SUPPORT. The meaning that `exec` gives each constructor, by its name. -/

namespace Sys2Proof.Machine

theorem exec_add (xd xa xb) (s : State) : exec (.add xd xa xb) s = execAdd xd xa xb s := rfl
theorem exec_sub (xd xa xb) (s : State) : exec (.sub xd xa xb) s = execSub xd xa xb s := rfl
theorem exec_and (xd xa xb) (s : State) : exec (.and xd xa xb) s = execAnd xd xa xb s := rfl
theorem exec_or (xd xa xb) (s : State) : exec (.or xd xa xb) s = execOr xd xa xb s := rfl
theorem exec_xor (xd xa xb) (s : State) : exec (.xor xd xa xb) s = execXor xd xa xb s := rfl
theorem exec_andn (xd xa xb) (s : State) : exec (.andn xd xa xb) s = execAndn xd xa xb s := rfl
theorem exec_orn (xd xa xb) (s : State) : exec (.orn xd xa xb) s = execOrn xd xa xb s := rfl
theorem exec_xnor (xd xa xb) (s : State) : exec (.xnor xd xa xb) s = execXnor xd xa xb s := rfl
theorem exec_shl (xd xa xb) (s : State) : exec (.shl xd xa xb) s = execShl xd xa xb s := rfl
theorem exec_shr (xd xa xb) (s : State) : exec (.shr xd xa xb) s = execShr xd xa xb s := rfl
theorem exec_sra (xd xa xb) (s : State) : exec (.sra xd xa xb) s = execSra xd xa xb s := rfl
theorem exec_rol (xd xa xb) (s : State) : exec (.rol xd xa xb) s = execRol xd xa xb s := rfl
theorem exec_ror (xd xa xb) (s : State) : exec (.ror xd xa xb) s = execRor xd xa xb s := rfl
theorem exec_mul (xd xa xb) (s : State) : exec (.mul xd xa xb) s = execMul xd xa xb s := rfl
theorem exec_mulh (xd xa xb) (s : State) : exec (.mulh xd xa xb) s = execMulh xd xa xb s := rfl
theorem exec_mulhu (xd xa xb) (s : State) : exec (.mulhu xd xa xb) s = execMulhu xd xa xb s := rfl
theorem exec_mulhsu (xd xa xb) (s : State) : exec (.mulhsu xd xa xb) s = execMulhsu xd xa xb s := rfl
theorem exec_div (xd xa xb) (s : State) : exec (.div xd xa xb) s = execDiv xd xa xb s := rfl
theorem exec_divu (xd xa xb) (s : State) : exec (.divu xd xa xb) s = execDivu xd xa xb s := rfl
theorem exec_rem (xd xa xb) (s : State) : exec (.rem xd xa xb) s = execRem xd xa xb s := rfl
theorem exec_remu (xd xa xb) (s : State) : exec (.remu xd xa xb) s = execRemu xd xa xb s := rfl
theorem exec_min (xd xa xb) (s : State) : exec (.min xd xa xb) s = execMin xd xa xb s := rfl
theorem exec_max (xd xa xb) (s : State) : exec (.max xd xa xb) s = execMax xd xa xb s := rfl
theorem exec_minu (xd xa xb) (s : State) : exec (.minu xd xa xb) s = execMinu xd xa xb s := rfl
theorem exec_maxu (xd xa xb) (s : State) : exec (.maxu xd xa xb) s = execMaxu xd xa xb s := rfl
theorem exec_seq (xd xa xb) (s : State) : exec (.seq xd xa xb) s = execSeq xd xa xb s := rfl
theorem exec_slt (xd xa xb) (s : State) : exec (.slt xd xa xb) s = execSlt xd xa xb s := rfl
theorem exec_sltu (xd xa xb) (s : State) : exec (.sltu xd xa xb) s = execSltu xd xa xb s := rfl
theorem exec_clz (xd xa) (s : State) : exec (.clz xd xa) s = execClz xd xa s := rfl
theorem exec_ctz (xd xa) (s : State) : exec (.ctz xd xa) s = execCtz xd xa s := rfl
theorem exec_popc (xd xa) (s : State) : exec (.popc xd xa) s = execPopc xd xa s := rfl
theorem exec_brev (xd xa) (s : State) : exec (.brev xd xa) s = execBrev xd xa s := rfl
theorem exec_sext (xd xa size) (s : State) : exec (.sext xd xa size) s = execSext xd xa size s := rfl
theorem exec_zext (xd xa size) (s : State) : exec (.zext xd xa size) s = execZext xd xa size s := rfl
theorem exec_addi (xd xa imm) (s : State) : exec (.addi xd xa imm) s = execAddi xd xa imm s := rfl
theorem exec_andi (xd xa imm) (s : State) : exec (.andi xd xa imm) s = execAndi xd xa imm s := rfl
theorem exec_ori (xd xa imm) (s : State) : exec (.ori xd xa imm) s = execOri xd xa imm s := rfl
theorem exec_xori (xd xa imm) (s : State) : exec (.xori xd xa imm) s = execXori xd xa imm s := rfl
theorem exec_shli (xd xa sh) (s : State) : exec (.shli xd xa sh) s = execShli xd xa sh s := rfl
theorem exec_shri (xd xa sh) (s : State) : exec (.shri xd xa sh) s = execShri xd xa sh s := rfl
theorem exec_srai (xd xa sh) (s : State) : exec (.srai xd xa sh) s = execSrai xd xa sh s := rfl
theorem exec_slti (xd xa imm) (s : State) : exec (.slti xd xa imm) s = execSlti xd xa imm s := rfl
theorem exec_sltiu (xd xa imm) (s : State) : exec (.sltiu xd xa imm) s = execSltiu xd xa imm s := rfl
theorem exec_muli (xd xa imm) (s : State) : exec (.muli xd xa imm) s = execMuli xd xa imm s := rfl
theorem exec_lis (xd imm) (s : State) : exec (.lis xd imm) s = execLis xd imm s := rfl
theorem exec_lihs (xd imm) (s : State) : exec (.lihs xd imm) s = execLihs xd imm s := rfl
theorem exec_beq (xa xb off) (s : State) : exec (.beq xa xb off) s = execBeq xa xb off s := rfl
theorem exec_bne (xa xb off) (s : State) : exec (.bne xa xb off) s = execBne xa xb off s := rfl
theorem exec_blt (xa xb off) (s : State) : exec (.blt xa xb off) s = execBlt xa xb off s := rfl
theorem exec_bge (xa xb off) (s : State) : exec (.bge xa xb off) s = execBge xa xb off s := rfl
theorem exec_bltu (xa xb off) (s : State) : exec (.bltu xa xb off) s = execBltu xa xb off s := rfl
theorem exec_bgeu (xa xb off) (s : State) : exec (.bgeu xa xb off) s = execBgeu xa xb off s := rfl
theorem exec_jal (xd off) (s : State) : exec (.jal xd off) s = execJal xd off s := rfl
theorem exec_jalr (xd xa off) (s : State) : exec (.jalr xd xa off) s = execJalr xd xa off s := rfl
theorem exec_loop (xa) (s : State) : exec (.loop xa) s = execLoop xa s := rfl
theorem exec_knext (s : State) : exec (.knext) s = execKnext s := rfl
theorem exec_tend (s : State) : exec (.tend) s = execTend s := rfl
theorem exec_spawn (xa xb n) (s : State) : exec (.spawn xa xb n) s = execSpawn xa xb n s := rfl
theorem exec_join (g) (s : State) : exec (.join g) s = execJoin g s := rfl
theorem exec_leave (g) (s : State) : exec (.leave g) s = execLeave g s := rfl
theorem exec_bar (g) (s : State) : exec (.bar g) s = execBar g s := rfl
theorem exec_gqry (xd g) (s : State) : exec (.gqry xd g) s = execGqry xd g s := rfl
theorem exec_yield (s : State) : exec (.yield) s = execYield s := rfl
theorem exec_tsub (xa) (s : State) : exec (.tsub xa) s = execTsub xa s := rfl
theorem exec_ckpt (s : State) : exec (.ckpt) s = execCkpt s := rfl
theorem exec_movb (xd n) (s : State) : exec (.movb xd n) s = execMovb xd n s := rfl
theorem exec_gsel (g) (s : State) : exec (.gsel g) s = execGsel g s := rfl
theorem exec_waitf (f n) (s : State) : exec (.waitf f n) s = execWaitf f n s := rfl
theorem exec_setf (f n) (s : State) : exec (.setf f n) s = execSetf f n s := rfl
theorem exec_clrf (f) (s : State) : exec (.clrf f) s = execClrf f s := rfl
theorem exec_waitfx (f x) (s : State) : exec (.waitfx f x) s = execWaitfx f x s := rfl
theorem exec_fread (f xd) (s : State) : exec (.fread f xd) s = execFread f xd s := rfl
theorem exec_waitc (l st c t) (s : State) : exec (.waitc l st c t) s = execWaitc l st c t s := rfl
theorem exec_tclr (x) (s : State) : exec (.tclr x) s = execTclr x s := rfl
theorem exec_tclrv (v) (s : State) : exec (.tclrv v) s = execTclrv v s := rfl
theorem exec_tclrc (s : State) : exec (.tclrc) s = execTclrc s := rfl
theorem exec_tqry (xd xa) (s : State) : exec (.tqry xd xa) s = execTqry xd xa s := rfl
theorem exec_sysrd (xd reg) (s : State) : exec (.sysrd xd reg) s = execSysrd xd reg s := rfl
theorem exec_syswr (xs reg) (s : State) : exec (.syswr xs reg) s = execSyswr xs reg s := rfl
theorem exec_trap (code) (s : State) : exec (.trap code) s = execTrap code s := rfl
theorem exec_bkpt (code) (s : State) : exec (.bkpt code) s = execBkpt code s := rfl
theorem exec_eret (s : State) : exec (.eret) s = execEret s := rfl
theorem exec_tlbinv (xa xb) (s : State) : exec (.tlbinv xa xb) s = execTlbinv xa xb s := rfl
theorem exec_wpset (xa xb n) (s : State) : exec (.wpset xa xb n) s = execWpset xa xb n s := rfl
theorem exec_wpclr (n) (s : State) : exec (.wpclr n) s = execWpclr n s := rfl
theorem exec_cntclaim (xd n) (s : State) : exec (.cntclaim xd n) s = execCntclaim xd n s := rfl
theorem exec_cntrel (n) (s : State) : exec (.cntrel n) s = execCntrel n s := rfl
theorem exec_kegsave (xa xb) (s : State) : exec (.kegsave xa xb) s = execKegsave xa xb s := rfl
theorem exec_kegload (xa xb) (s : State) : exec (.kegload xa xb) s = execKegload xa xb s := rfl
theorem exec_flowdef (xa f) (s : State) : exec (.flowdef xa f) s = execFlowdef xa f s := rfl
theorem exec_winset (xa xb w) (s : State) : exec (.winset xa xb w) s = execWinset xa xb w s := rfl
theorem exec_ld (size xd xa imm) (s : State) : exec (.ld size xd xa imm) s = execLd size xd xa imm s := rfl
theorem exec_ldu (size xd xa imm) (s : State) : exec (.ldu size xd xa imm) s = execLdu size xd xa imm s := rfl
theorem exec_st (size xs xa imm) (s : State) : exec (.st size xs xa imm) s = execSt size xs xa imm s := rfl
theorem exec_lds (size xd xa scope order) (s : State) : exec (.lds size xd xa scope order) s = execLds size xd xa scope order s := rfl
theorem exec_sts (size xs xa scope order) (s : State) : exec (.sts size xs xa scope order) s = execSts size xs xa scope order s := rfl
theorem exec_atomw (xd xa xb op scope order) (s : State) : exec (.atomw xd xa xb op scope order) s = execAtomw xd xa xb op scope order s := rfl
theorem exec_atomd (xd xa xb op scope order) (s : State) : exec (.atomd xd xa xb op scope order) s = execAtomd xd xa xb op scope order s := rfl
theorem exec_casw (xd xa xb scope order) (s : State) : exec (.casw xd xa xb scope order) s = execCasw xd xa xb scope order s := rfl
theorem exec_casd (xd xa xb scope order) (s : State) : exec (.casd xd xa xb scope order) s = execCasd xd xa xb scope order s := rfl
theorem exec_fence (ma mb scope) (s : State) : exec (.fence ma mb scope) s = execFence ma mb scope s := rfl
theorem exec_pref (tgt xa imm) (s : State) : exec (.pref tgt xa imm) s = execPref tgt xa imm s := rfl
theorem exec_rcm (op xb xa) (s : State) : exec (.rcm op xb xa) s = execRcm op xb xa s := rfl
theorem exec_vld (vd xa k imm) (s : State) : exec (.vld vd xa k imm) s = execVld vd xa k imm s := rfl
theorem exec_vlds (vd xa xb k es) (s : State) : exec (.vlds vd xa xb k es) s = execVlds vd xa xb k es s := rfl
theorem exec_vldx (vd xa vb iw sgn sc k) (s : State) : exec (.vldx vd xa vb iw sgn sc k) s = execVldx vd xa vb iw sgn sc k s := rfl
theorem exec_vbindi (vd xa) (s : State) : exec (.vbindi vd xa) s = execVbindi vd xa s := rfl
theorem exec_vunbindi (vd) (s : State) : exec (.vunbindi vd) s = execVunbindi vd s := rfl
theorem exec_vldt (vd xa k imm) (s : State) : exec (.vldt vd xa k imm) s = execVldt vd xa k imm s := rfl
theorem exec_vldb (vd xa k imm) (s : State) : exec (.vldb vd xa k imm) s = execVldb vd xa k imm s := rfl
theorem exec_vlwait (f n) (s : State) : exec (.vlwait f n) s = execVlwait f n s := rfl
theorem exec_vlset (f n) (s : State) : exec (.vlset f n) s = execVlset f n s := rfl
theorem exec_vst (vs xa k imm) (s : State) : exec (.vst vs xa k imm) s = execVst vs xa k imm s := rfl
theorem exec_vsts (vs xa xb k es) (s : State) : exec (.vsts vs xa xb k es) s = execVsts vs xa xb k es s := rfl
theorem exec_vstx (vs xa vb iw sgn sc k) (s : State) : exec (.vstx vs xa vb iw sgn sc k) s = execVstx vs xa vb iw sgn sc k s := rfl
theorem exec_vbindo (vs xa) (s : State) : exec (.vbindo vs xa) s = execVbindo vs xa s := rfl
theorem exec_vunbindo (vs) (s : State) : exec (.vunbindo vs) s = execVunbindo vs s := rfl
theorem exec_vstt (vs xa k imm) (s : State) : exec (.vstt vs xa k imm) s = execVstt vs xa k imm s := rfl
theorem exec_vatoma (vs xa vb ty k scope) (s : State) : exec (.vatoma vs xa vb ty k scope) s = execVatoma vs xa vb ty k scope s := rfl
theorem exec_vstrw (vs xo k) (s : State) : exec (.vstrw vs xo k) s = execVstrw vs xo k s := rfl
theorem exec_vswait (f n) (s : State) : exec (.vswait f n) s = execVswait f n s := rfl
theorem exec_vsset (f n) (s : State) : exec (.vsset f n) s = execVsset f n s := rfl
theorem exec_vadd (vd va vb mk pa pb) (s : State) : exec (.vadd vd va vb mk pa pb) s = execVadd vd va vb mk pa pb s := rfl
theorem exec_vsub (vd va vb mk pa pb) (s : State) : exec (.vsub vd va vb mk pa pb) s = execVsub vd va vb mk pa pb s := rfl
theorem exec_vmul (vd va vb mk pa pb) (s : State) : exec (.vmul vd va vb mk pa pb) s = execVmul vd va vb mk pa pb s := rfl
theorem exec_vfma (vd va vb mk pa pb) (s : State) : exec (.vfma vd va vb mk pa pb) s = execVfma vd va vb mk pa pb s := rfl
theorem exec_vfnma (vd va vb mk pa pb) (s : State) : exec (.vfnma vd va vb mk pa pb) s = execVfnma vd va vb mk pa pb s := rfl
theorem exec_vmin (vd va vb mk pa pb) (s : State) : exec (.vmin vd va vb mk pa pb) s = execVmin vd va vb mk pa pb s := rfl
theorem exec_vmax (vd va vb mk pa pb) (s : State) : exec (.vmax vd va vb mk pa pb) s = execVmax vd va vb mk pa pb s := rfl
theorem exec_vabs (vd va mk pa) (s : State) : exec (.vabs vd va mk pa) s = execVabs vd va mk pa s := rfl
theorem exec_vneg (vd va mk pa) (s : State) : exec (.vneg vd va mk pa) s = execVneg vd va mk pa s := rfl
theorem exec_vdiv (vd va vb mk pa pb) (s : State) : exec (.vdiv vd va vb mk pa pb) s = execVdiv vd va vb mk pa pb s := rfl
theorem exec_vsqrt (vd va mk pa) (s : State) : exec (.vsqrt vd va mk pa) s = execVsqrt vd va mk pa s := rfl
theorem exec_vrsq (vd va mk pa) (s : State) : exec (.vrsq vd va mk pa) s = execVrsq vd va mk pa s := rfl
theorem exec_vexp2 (vd va mk pa) (s : State) : exec (.vexp2 vd va mk pa) s = execVexp2 vd va mk pa s := rfl
theorem exec_vlog2 (vd va mk pa) (s : State) : exec (.vlog2 vd va mk pa) s = execVlog2 vd va mk pa s := rfl
theorem exec_vfclass (vd va mk pa) (s : State) : exec (.vfclass vd va mk pa) s = execVfclass vd va mk pa s := rfl
theorem exec_vcmp (kd cond va vb mk pa pb) (s : State) : exec (.vcmp kd cond va vb mk pa pb) s = execVcmp kd cond va vb mk pa pb s := rfl
theorem exec_vsel (vd va vb k pa pb) (s : State) : exec (.vsel vd va vb k pa pb) s = execVsel vd va vb k pa pb s := rfl
theorem exec_vand (vd va vb mk pa pb) (s : State) : exec (.vand vd va vb mk pa pb) s = execVand vd va vb mk pa pb s := rfl
theorem exec_vor (vd va vb mk pa pb) (s : State) : exec (.vor vd va vb mk pa pb) s = execVor vd va vb mk pa pb s := rfl
theorem exec_vxor (vd va vb mk pa pb) (s : State) : exec (.vxor vd va vb mk pa pb) s = execVxor vd va vb mk pa pb s := rfl
theorem exec_vshl (vd va vb mk pa pb) (s : State) : exec (.vshl vd va vb mk pa pb) s = execVshl vd va vb mk pa pb s := rfl
theorem exec_vshr (vd va vb mk pa pb) (s : State) : exec (.vshr vd va vb mk pa pb) s = execVshr vd va vb mk pa pb s := rfl
theorem exec_vsra (vd va vb mk pa pb) (s : State) : exec (.vsra vd va vb mk pa pb) s = execVsra vd va vb mk pa pb s := rfl
theorem exec_vcvt (vd va ty rs vr) (s : State) : exec (.vcvt vd va ty rs vr) s = execVcvt vd va ty rs vr s := rfl
theorem exec_vpack (vd va ty) (s : State) : exec (.vpack vd va ty) s = execVpack vd va ty s := rfl
theorem exec_vunpk (vd va ty pa) (s : State) : exec (.vunpk vd va ty pa) s = execVunpk vd va ty pa s := rfl
theorem exec_vred (vd va op k pa) (s : State) : exec (.vred vd va op k pa) s = execVred vd va op k pa s := rfl
theorem exec_vargmax (vd va k pa) (s : State) : exec (.vargmax vd va k pa) s = execVargmax vd va k pa s := rfl
theorem exec_vperm (vd va vb mk pa pb) (s : State) : exec (.vperm vd va vb mk pa pb) s = execVperm vd va vb mk pa pb s := rfl
theorem exec_vrot (vd va xb mk pa) (s : State) : exec (.vrot vd va xb mk pa) s = execVrot vd va xb mk pa s := rfl
theorem exec_vbcast (vd xb k) (s : State) : exec (.vbcast vd xb k) s = execVbcast vd xb k s := rfl
theorem exec_vextr (vd va xb mk pa) (s : State) : exec (.vextr vd va xb mk pa) s = execVextr vd va xb mk pa s := rfl
theorem exec_viota (vd k) (s : State) : exec (.viota vd k) s = execViota vd k s := rfl
theorem exec_vmov (vd va mk pa) (s : State) : exec (.vmov vd va mk pa) s = execVmov vd va mk pa s := rfl
theorem exec_vdrop (va n) (s : State) : exec (.vdrop va n) s = execVdrop va n s := rfl
theorem exec_vcnt (vd va mk pa) (s : State) : exec (.vcnt vd va mk pa) s = execVcnt vd va mk pa s := rfl
theorem exec_vmix (vd va vb mk pa pb) (s : State) : exec (.vmix vd va vb mk pa pb) s = execVmix vd va vb mk pa pb s := rfl
theorem exec_vunif (vd va mk pa) (s : State) : exec (.vunif vd va mk pa) s = execVunif vd va mk pa s := rfl
theorem exec_vaddx (vd va vb mk pa pb) (s : State) : exec (.vaddx vd va vb mk pa pb) s = execVaddx vd va vb mk pa pb s := rfl
theorem exec_vmulx (vd va vb mk pa pb) (s : State) : exec (.vmulx vd va vb mk pa pb) s = execVmulx vd va vb mk pa pb s := rfl
theorem exec_vfmax (vd va vb mk pa pb) (s : State) : exec (.vfmax vd va vb mk pa pb) s = execVfmax vd va vb mk pa pb s := rfl
theorem exec_kop (kd ka kb fn) (s : State) : exec (.kop kd ka kb fn) s = execKop kd ka kb fn s := rfl
theorem exec_kpopc (vd ka) (s : State) : exec (.kpopc vd ka) s = execKpopc vd ka s := rfl
theorem exec_vsett (imm) (s : State) : exec (.vsett imm) s = execVsett imm s := rfl
theorem exec_vsettXa (xa) (s : State) : exec (.vsettXa xa) s = execVsettXa xa s := rfl
theorem exec_vtagr (vd va mk pa) (s : State) : exec (.vtagr vd va mk pa) s = execVtagr vd va mk pa s := rfl
theorem exec_vrnd (vd va rm mk pa) (s : State) : exec (.vrnd vd va rm mk pa) s = execVrnd vd va rm mk pa s := rfl
theorem exec_vscale (vd va vb mk pa pb) (s : State) : exec (.vscale vd va vb mk pa pb) s = execVscale vd va vb mk pa pb s := rfl
theorem exec_vawait (f n) (s : State) : exec (.vawait f n) s = execVawait f n s := rfl
theorem exec_vaset (f n) (s : State) : exec (.vaset f n) s = execVaset f n s := rfl
theorem exec_mclaim (mem h n) (s : State) : exec (.mclaim mem h n) s = execMclaim mem h n s := rfl
theorem exec_mrel (mem h n) (s : State) : exec (.mrel mem h n) s = execMrel mem h n s := rfl
theorem exec_mxfer (mem h xa rh) (s : State) : exec (.mxfer mem h xa rh) s = execMxfer mem h xa rh s := rfl
theorem exec_mldw (wb xa xb) (s : State) : exec (.mldw wb xa xb) s = execMldw wb xa xb s := rfl
theorem exec_mlda (ab xa xb xc) (s : State) : exec (.mlda ab xa xb xc) s = execMlda ab xa xb xc s := rfl
theorem exec_mpass (wb ab cb acc x) (s : State) : exec (.mpass wb ab cb acc x) s = execMpass wb ab cb acc x s := rfl
theorem exec_mpassat (wb ab cb acc x) (s : State) : exec (.mpassat wb ab cb acc x) s = execMpassat wb ab cb acc x s := rfl
theorem exec_mdrain (cb xa xb xc ty) (s : State) : exec (.mdrain cb xa xb xc ty) s = execMdrain cb xa xb xc ty s := rfl
theorem exec_mdrainv (cb vd xf xn) (s : State) : exec (.mdrainv cb vd xf xn) s = execMdrainv cb vd xf xn s := rfl
theorem exec_mdrainp (cb rank pcb x) (s : State) : exec (.mdrainp cb rank pcb x) s = execMdrainp cb rank pcb x s := rfl
theorem exec_mzero (h n) (s : State) : exec (.mzero h n) s = execMzero h n s := rfl
theorem exec_mldv (ab va x) (s : State) : exec (.mldv ab va x) s = execMldv ab va x s := rfl
theorem exec_mxwait (f n) (s : State) : exec (.mxwait f n) s = execMxwait f n s := rfl
theorem exec_mxset (f n) (s : State) : exec (.mxset f n) s = execMxset f n s := rfl
theorem exec_cpl (xa xb xc f) (s : State) : exec (.cpl xa xb xc f) s = execCpl xa xb xc f s := rfl
theorem exec_cpt (xa xb xc f) (s : State) : exec (.cpt xa xb xc f) s = execCpt xa xb xc f s := rfl
theorem exec_cpg (xa xb xc f) (s : State) : exec (.cpg xa xb xc f) s = execCpg xa xb xc f s := rfl
theorem exec_cps (xa xb xc f) (s : State) : exec (.cps xa xb xc f) s = execCps xa xb xc f s := rfl
theorem exec_cpstg (xa xb xc out f) (s : State) : exec (.cpstg xa xb xc out f) s = execCpstg xa xb xc out f s := rfl
theorem exec_cpred (xa xb xc ty f) (s : State) : exec (.cpred xa xb xc ty f) s = execCpred xa xb xc ty f s := rfl
theorem exec_cpfill (xa xb xc w f) (s : State) : exec (.cpfill xa xb xc w f) s = execCpfill xa xb xc w f s := rfl
theorem exec_cptag (xa xb xc strm f) (s : State) : exec (.cptag xa xb xc strm f) s = execCptag xa xb xc strm f s := rfl
theorem exec_cpsig (xa xb f) (s : State) : exec (.cpsig xa xb f) s = execCpsig xa xb f s := rfl
theorem exec_cpconv (xa xb xc f) (s : State) : exec (.cpconv xa xb xc f) s = execCpconv xa xb xc f s := rfl
theorem exec_cpwait (f n) (s : State) : exec (.cpwait f n) s = execCpwait f n s := rfl
theorem exec_cpset (f n) (s : State) : exec (.cpset f n) s = execCpset f n s := rfl
theorem exec_pld (z off a d) (s : State) : exec (.pld z off a d) s = execPld z off a d s := rfl
theorem exec_qld (n d) (s : State) : exec (.qld n d) s = execQld n d s := rfl
theorem exec_tld (t a d) (s : State) : exec (.tld t a d) s = execTld t a d s := rfl
theorem exec_tst (t a d) (s : State) : exec (.tst t a d) s = execTst t a d s := rfl
theorem exec_est (z off a d) (s : State) : exec (.est z off a d) s = execEst z off a d s := rfl
theorem exec_li (imm d) (s : State) : exec (.li imm d) s = execLi imm d s := rfl
theorem exec_lih (imm d) (s : State) : exec (.lih imm d) s = execLih imm d s := rfl
theorem exec_mov (a d) (s : State) : exec (.mov a d) s = execMov a d s := rfl
theorem exec_spargeAdd (a d) (s : State) : exec (.spargeAdd a d) s = execSpargeAdd a d s := rfl
theorem exec_spargeSub (a d) (s : State) : exec (.spargeSub a d) s = execSpargeSub a d s := rfl
theorem exec_spargeAnd (a d) (s : State) : exec (.spargeAnd a d) s = execSpargeAnd a d s := rfl
theorem exec_spargeOr (a d) (s : State) : exec (.spargeOr a d) s = execSpargeOr a d s := rfl
theorem exec_spargeXor (a d) (s : State) : exec (.spargeXor a d) s = execSpargeXor a d s := rfl
theorem exec_spargeAddi (imm d) (s : State) : exec (.spargeAddi imm d) s = execSpargeAddi imm d s := rfl
theorem exec_spargeShli (imm d) (s : State) : exec (.spargeShli imm d) s = execSpargeShli imm d s := rfl
theorem exec_spargeShri (imm d) (s : State) : exec (.spargeShri imm d) s = execSpargeShri imm d s := rfl
theorem exec_ceq (a d) (s : State) : exec (.ceq a d) s = execCeq a d s := rfl
theorem exec_cltu (a d) (s : State) : exec (.cltu a d) s = execCltu a d s := rfl
theorem exec_clt (a d) (s : State) : exec (.clt a d) s = execClt a d s := rfl
theorem exec_bz (imm d) (s : State) : exec (.bz imm d) s = execBz imm d s := rfl
theorem exec_bnz (imm d) (s : State) : exec (.bnz imm d) s = execBnz imm d s := rfl
theorem exec_jmp (imm) (s : State) : exec (.jmp imm) s = execJmp imm s := rfl
theorem exec_spargeLoop (len n) (s : State) : exec (.spargeLoop len n) s = execSpargeLoop len n s := rfl
theorem exec_elaunch (s : State) : exec (.elaunch) s = execElaunch s := rfl
theorem exec_egang (s : State) : exec (.egang) s = execEgang s := rfl
theorem exec_etile (s : State) : exec (.etile) s = execEtile s := rfl
theorem exec_ecopy (s : State) : exec (.ecopy) s = execEcopy s := rfl
theorem exec_esignal (s : State) : exec (.esignal) s = execEsignal s := rfl
theorem exec_efence (s : State) : exec (.efence) s = execEfence s := rfl
theorem exec_reject (code) (s : State) : exec (.reject code) s = execReject code s := rfl
theorem exec_done (s : State) : exec (.done) s = execDone s := rfl
theorem exec_budget (it) (s : State) : exec (.budget it) s = execBudget it s := rfl
theorem exec_tailDoorbell (fn ring tail) (s : State) : exec (.tailDoorbell fn ring tail) s = execTailDoorbell fn ring tail s := rfl
theorem exec_inlineDoorbell (fn ring bytes) (s : State) : exec (.inlineDoorbell fn ring bytes) s = execInlineDoorbell fn ring bytes s := rfl
theorem exec_ringEnable (fn ring val) (s : State) : exec (.ringEnable fn ring val) s = execRingEnable fn ring val s := rfl
theorem exec_lqEnable (fn lq val) (s : State) : exec (.lqEnable fn lq val) s = execLqEnable fn lq val s := rfl
theorem exec_merge (fn lq) (s : State) : exec (.merge fn lq) s = execMerge fn lq s := rfl
theorem exec_interpreterHandoff (it) (s : State) : exec (.interpreterHandoff it) s = execInterpreterHandoff it s := rfl
theorem exec_emissionTakesEffect (fn lq) (s : State) : exec (.emissionTakesEffect fn lq) s = execEmissionTakesEffect fn lq s := rfl
theorem exec_ecopyCompletion (fn lq) (s : State) : exec (.ecopyCompletion fn lq) s = execEcopyCompletion fn lq s := rfl
theorem exec_spargeProgramLoad (fn prog) (s : State) : exec (.spargeProgramLoad fn prog) s = execSpargeProgramLoad fn prog s := rfl
theorem exec_spargeProgramUnload (fn prog) (s : State) : exec (.spargeProgramUnload fn prog) s = execSpargeProgramUnload fn prog s := rfl
theorem exec_evqConfigWrite (fn isSize val) (s : State) : exec (.evqConfigWrite fn isSize val) s = execEvqConfigWrite fn isSize val s := rfl
theorem exec_functionRangeWrite (fn entry hi val) (s : State) : exec (.functionRangeWrite fn entry hi val) s = execFunctionRangeWrite fn entry hi val s := rfl
theorem exec_weightCmd (fn val) (s : State) : exec (.weightCmd fn val) s = execWeightCmd fn val s := rfl
theorem exec_shapeW1 (fn c val) (s : State) : exec (.shapeW1 fn c val) s = execShapeW1 fn c val s := rfl
theorem exec_shapeW0 (fn c val) (s : State) : exec (.shapeW0 fn c val) s = execShapeW0 fn c val s := rfl
theorem exec_powerCtlOn (fn) (s : State) : exec (.powerCtlOn fn) s = execPowerCtlOn fn s := rfl
theorem exec_powerCtlIdle (fn) (s : State) : exec (.powerCtlIdle fn) s = execPowerCtlIdle fn s := rfl
theorem exec_powerCtlGated (fn dies) (s : State) : exec (.powerCtlGated fn dies) s = execPowerCtlGated fn dies s := rfl
theorem exec_powerCtlSleep (fn) (s : State) : exec (.powerCtlSleep fn) s = execPowerCtlSleep fn s := rfl
theorem exec_powerCtlOff (fn) (s : State) : exec (.powerCtlOff fn) s = execPowerCtlOff fn s := rfl
theorem exec_powerTransitionDone (s : State) : exec (.powerTransitionDone) s = execPowerTransitionDone s := rfl
theorem exec_telemetryRefresh (watts die hbm amps) (s : State) : exec (.telemetryRefresh watts die hbm amps) s = execTelemetryRefresh watts die hbm amps s := rfl
theorem exec_thermalOrCurrentTrip (thermal current place) (s : State) : exec (.thermalOrCurrentTrip thermal current place) s = execThermalOrCurrentTrip thermal current place s := rfl
theorem exec_registerWrite (fn off val) (s : State) : exec (.registerWrite fn off val) s = execRegisterWrite fn off val s := rfl
theorem exec_ctxCreate (fn cid func) (s : State) : exec (.ctxCreate fn cid func) s = execCtxCreate fn cid func s := rfl
theorem exec_ctxSet (fn cid off val) (s : State) : exec (.ctxSet fn cid off val) s = execCtxSet fn cid off val s := rfl
theorem exec_ctxDestroy (fn cid) (s : State) : exec (.ctxDestroy fn cid) s = execCtxDestroy fn cid s := rfl
theorem exec_frameSet (fn first count entry) (s : State) : exec (.frameSet fn first count entry) s = execFrameSet fn first count entry s := rfl
theorem exec_inval (fn cid va len) (s : State) : exec (.inval fn cid va len) s = execInval fn cid va len s := rfl
theorem exec_dirtyRead (fn cid first count host) (s : State) : exec (.dirtyRead fn cid first count host) s = execDirtyRead fn cid first count host s := rfl
theorem exec_cntClaim (fn bank) (s : State) : exec (.cntClaim fn bank) s = execCntClaim fn bank s := rfl
theorem exec_cntRel (fn bank) (s : State) : exec (.cntRel fn bank) s = execCntRel fn bank s := rfl
theorem exec_epSet (fn ep pkg cid st) (s : State) : exec (.epSet fn ep pkg cid st) s = execEpSet fn ep pkg cid st s := rfl
theorem exec_trapResolve (fn cid thr act) (s : State) : exec (.trapResolve fn cid thr act) s = execTrapResolve fn cid thr act s := rfl
theorem exec_unitRetire (fn core) (s : State) : exec (.unitRetire fn core) s = execUnitRetire fn core s := rfl
theorem exec_pageDone (fn cid va len fail) (s : State) : exec (.pageDone fn cid va len fail) s = execPageDone fn cid va len fail s := rfl
theorem exec_kegSaveCmd (fn cid va len hold mig) (s : State) : exec (.kegSaveCmd fn cid va len hold mig) s = execKegSaveCmd fn cid va len hold mig s := rfl
theorem exec_kegLoadCmd (fn cid va len) (s : State) : exec (.kegLoadCmd fn cid va len) s = execKegLoadCmd fn cid va len s := rfl
theorem exec_kegThaw (fn cid) (s : State) : exec (.kegThaw fn cid) s = execKegThaw fn cid s := rfl
theorem exec_migKey (fn cid pkg dcid) (s : State) : exec (.migKey fn cid pkg dcid) s = execMigKey fn cid pkg dcid s := rfl
theorem exec_pagePush (fn cid va len pkg dcid) (s : State) : exec (.pagePush fn cid va len pkg dcid) s = execPagePush fn cid va len pkg dcid s := rfl
theorem exec_parkForward (fn cid pkg dcid) (s : State) : exec (.parkForward fn cid pkg dcid) s = execParkForward fn cid pkg dcid s := rfl
theorem exec_relayEnd (fn cid) (s : State) : exec (.relayEnd fn cid) s = execRelayEnd fn cid s := rfl
theorem exec_slotLoad (fn slot host len dataVa) (s : State) : exec (.slotLoad fn slot host len dataVa) s = execSlotLoad fn slot host len dataVa s := rfl
theorem exec_tensorSeal (fn cid slot tensor desc) (s : State) : exec (.tensorSeal fn cid slot tensor desc) s = execTensorSeal fn cid slot tensor desc s := rfl
theorem exec_slotUnpin (fn slot) (s : State) : exec (.slotUnpin fn slot) s = execSlotUnpin fn slot s := rfl
theorem exec_flr (fn) (s : State) : exec (.flr fn) s = execFlr fn s := rfl
theorem exec_vfTeardown (fn) (s : State) : exec (.vfTeardown fn) s = execVfTeardown fn s := rfl
theorem exec_teardownDrainTimeout (cid) (s : State) : exec (.teardownDrainTimeout cid) s = execTeardownDrainTimeout cid s := rfl
theorem exec_powerUp (s : State) : exec (.powerUp) s = execPowerUp s := rfl
theorem exec_bootCtlGo (fn len) (s : State) : exec (.bootCtlGo fn len) s = execBootCtlGo fn len s := rfl
theorem exec_fwCtlGo (fn) (s : State) : exec (.fwCtlGo fn) s = execFwCtlGo fn s := rfl
theorem exec_fwHeartbeat (s : State) : exec (.fwHeartbeat) s = execFwHeartbeat s := rfl
theorem exec_heartbeatTimeout (s : State) : exec (.heartbeatTimeout) s = execHeartbeatTimeout s := rfl
theorem exec_getVersion (fn) (s : State) : exec (.getVersion fn) s = execGetVersion fn s := rfl
theorem exec_getCapabilities (fn) (s : State) : exec (.getCapabilities fn) s = execGetCapabilities fn s := rfl
theorem exec_negotiateAlgorithms (fn offered) (s : State) : exec (.negotiateAlgorithms fn offered) s = execNegotiateAlgorithms fn offered s := rfl
theorem exec_getDigests (fn) (s : State) : exec (.getDigests fn) s = execGetDigests fn s := rfl
theorem exec_getCertificate (fn cslot off len) (s : State) : exec (.getCertificate fn cslot off len) s = execGetCertificate fn cslot off len s := rfl
theorem exec_challenge (fn cslot nonce) (s : State) : exec (.challenge fn cslot nonce) s = execChallenge fn cslot nonce s := rfl
theorem exec_getMeasurements (fn index sign nonce) (s : State) : exec (.getMeasurements fn index sign nonce) s = execGetMeasurements fn index sign nonce s := rfl
theorem exec_keyExchange (fn cslot pub) (s : State) : exec (.keyExchange fn cslot pub) s = execKeyExchange fn cslot pub s := rfl
theorem exec_finish (fn mac) (s : State) : exec (.finish fn mac) s = execFinish fn mac s := rfl
theorem exec_keyUpdate (fn) (s : State) : exec (.keyUpdate fn) s = execKeyUpdate fn s := rfl
theorem exec_heartbeat (fn) (s : State) : exec (.heartbeat fn) s = execHeartbeat fn s := rfl
theorem exec_endSession (fn) (s : State) : exec (.endSession fn) s = execEndSession fn s := rfl
theorem exec_keyInstall (fn cid index key) (s : State) : exec (.keyInstall fn cid index key) s = execKeyInstall fn cid index key s := rfl
theorem exec_keyTransfer (cid key keygen count) (s : State) : exec (.keyTransfer cid key keygen count) s = execKeyTransfer cid key keygen count s := rfl
theorem exec_ideKm (fn stream key) (s : State) : exec (.ideKm fn stream key) s = execIdeKm fn stream key s := rfl
theorem exec_ideIntegrityFail (stream) (s : State) : exec (.ideIntegrityFail stream) s = execIdeIntegrityFail stream s := rfl
theorem exec_qdepthWrite (key val) (s : State) : exec (.qdepthWrite key val) s = execQdepthWrite key val s := rfl
theorem exec_vstatWrite (key val) (s : State) : exec (.vstatWrite key val) s = execVstatWrite key val s := rfl
theorem exec_waitlogConfigWrite (key isSize val) (s : State) : exec (.waitlogConfigWrite key isSize val) s = execWaitlogConfigWrite key isSize val s := rfl
theorem exec_trapqConfigWrite (key isSize val) (s : State) : exec (.trapqConfigWrite key isSize val) s = execTrapqConfigWrite key isSize val s := rfl
theorem exec_resume (cid thr) (s : State) : exec (.resume cid thr) s = execResume cid thr s := rfl
theorem exec_kill (cid thr) (s : State) : exec (.kill cid thr) s = execKill cid thr s := rfl
theorem exec_cntEventWrite (key n val) (s : State) : exec (.cntEventWrite key n val) s = execCntEventWrite key n val s := rfl
theorem exec_stopreq (cid thr) (s : State) : exec (.stopreq cid thr) s = execStopreq cid thr s := rfl
theorem exec_postedWrite (h off data be red) (s : State) : exec (.postedWrite h off data be red) s = execPostedWrite h off data be red s := rfl
theorem exec_lineRead (h off) (s : State) : exec (.lineRead h off) s = execLineRead h off s := rfl
theorem exec_markedAccess (h off op) (s : State) : exec (.markedAccess h off op) s = execMarkedAccess h off op s := rfl
theorem exec_signal (h flag val) (s : State) : exec (.signal h flag val) s = execSignal h flag val s := rfl
theorem exec_bulletinRead (ep off) (s : State) : exec (.bulletinRead ep off) s = execBulletinRead ep off s := rfl
theorem exec_acknowledgement (key id reply) (s : State) : exec (.acknowledgement key id reply) s = execAcknowledgement key id reply s := rfl
theorem exec_retry (key id) (s : State) : exec (.retry key id) s = execRetry key id s := rfl
theorem exec_retryResend (key id) (s : State) : exec (.retryResend key id) s = execRetryResend key id s := rfl
theorem exec_endpointGone (key id) (s : State) : exec (.endpointGone key id) s = execEndpointGone key id s := rfl
theorem exec_lineEviction (key w line) (s : State) : exec (.lineEviction key w line) s = execLineEviction key w line s := rfl
theorem exec_streamFill (key v) (s : State) : exec (.streamFill key v) s = execStreamFill key v s := rfl
theorem exec_streamDrain (key v) (s : State) : exec (.streamDrain key v) s = execStreamDrain key v s := rfl
theorem exec_mdrainpArrival (key) (s : State) : exec (.mdrainpArrival key) s = execMdrainpArrival key s := rfl
theorem exec_placement (n core) (s : State) : exec (.placement n core) s = execPlacement n core s := rfl
theorem exec_placementReservation (n cores) (s : State) : exec (.placementReservation n cores) s = execPlacementReservation n cores s := rfl
theorem exec_overlayLoad (core slot) (s : State) : exec (.overlayLoad core slot) s = execOverlayLoad core slot s := rfl
theorem exec_boundaryLanding (key) (s : State) : exec (.boundaryLanding key) s = execBoundaryLanding key s := rfl
theorem exec_quarantineEnd (cid thr) (s : State) : exec (.quarantineEnd cid thr) s = execQuarantineEnd cid thr s := rfl
theorem exec_parkThreshold (key) (s : State) : exec (.parkThreshold key) s = execParkThreshold key s := rfl
theorem exec_deadlock (key) (s : State) : exec (.deadlock key) s = execDeadlock key s := rfl
theorem exec_claimCycle (core) (s : State) : exec (.claimCycle core) s = execClaimCycle core s := rfl
theorem exec_timedPassStart (key) (s : State) : exec (.timedPassStart key) s = execTimedPassStart key s := rfl
theorem exec_gangStart (n) (s : State) : exec (.gangStart n) s = execGangStart n s := rfl
theorem exec_gangLate (n) (s : State) : exec (.gangLate n) s = execGangLate n s := rfl
theorem exec_preempt (key) (s : State) : exec (.preempt key) s = execPreempt key s := rfl
theorem exec_preemptRollback (key) (s : State) : exec (.preemptRollback key) s = execPreemptRollback key s := rfl
theorem exec_mscRoomRollback (need) (s : State) : exec (.mscRoomRollback need) s = execMscRoomRollback need s := rfl
theorem exec_trapDelivery (key t) (s : State) : exec (.trapDelivery key t) s = execTrapDelivery key t s := rfl
theorem exec_versionCascade (key writer) (s : State) : exec (.versionCascade key writer) s = execVersionCascade key writer s := rfl
theorem exec_correctedError (kind loc) (s : State) : exec (.correctedError kind loc) s = execCorrectedError kind loc s := rfl
theorem exec_uncorrectableError (site) (s : State) : exec (.uncorrectableError site) s = execUncorrectableError site s := rfl
theorem exec_patienceExpiry (p) (s : State) : exec (.patienceExpiry p) s = execPatienceExpiry p s := rfl
theorem exec_passBegin (p core) (s : State) : exec (.passBegin p core) s = execPassBegin p core s := rfl
theorem exec_passEnd (core) (s : State) : exec (.passEnd core) s = execPassEnd core s := rfl
theorem exec_passAbandon (core) (s : State) : exec (.passAbandon core) s = execPassAbandon core s := rfl
theorem exec_bulletinRefresh (s : State) : exec (.bulletinRefresh) s = execBulletinRefresh s := rfl
theorem exec_traceSample (unit) (s : State) : exec (.traceSample unit) s = execTraceSample unit s := rfl
theorem exec_kilnReset (s : State) : exec (.kilnReset) s = execKilnReset s := rfl
theorem exec_endMarker (cid) (s : State) : exec (.endMarker cid) s = execEndMarker cid s := rfl
theorem exec_cancelMessage (ep id) (s : State) : exec (.cancelMessage ep id) s = execCancelMessage ep id s := rfl
theorem exec_registerCacheEviction (key line) (s : State) : exec (.registerCacheEviction key line) s = execRegisterCacheEviction key line s := rfl

end Sys2Proof.Machine
end

