-- ==== Sys2Proof/Laws/Maps.lean ====
section
/-! SUPPORT. Laws of sparse tables and of memory: what a read sees after a write, and that every operation keeps the canonical form. -/

namespace Sys2Proof.Machine

variable {α : Type} [Inhabited α]

/-! ## Sparse tables -/

/-- A read of the key just written. -/
@[simp] theorem NMap.get_put_same (m : NMap α) (k : Nat) (v : α) : (m.put k v).get k = v := by
  induction m with
  | nil => simp [NMap.put, NMap.get]
  | cons p t ih =>
    obtain ⟨j, w⟩ := p
    simp only [NMap.put]
    split
    · simp [NMap.get]
    · split
      · simp [NMap.get]
      · simp [NMap.get, *]

/-- A read of another key. -/
theorem NMap.get_put_other (m : NMap α) {k k' : Nat} (v : α) (h : k' ≠ k) : (m.put k v).get k' = m.get k' := by
  induction m with
  | nil => simp only [NMap.put, NMap.get]; split_ifs <;> first | rfl | omega
  | cons p t ih =>
    obtain ⟨j, w⟩ := p
    simp only [NMap.put]
    split
    · simp only [NMap.get]; split_ifs <;> first | rfl | omega
    · split
      · simp only [NMap.get]; split_ifs <;> first | rfl | omega
      · simp only [NMap.get, ih]

/-- A read after a write, at any key. -/
theorem NMap.get_put (m : NMap α) (k k' : Nat) (v : α) : (m.put k v).get k' = if k' = k then v else m.get k' := by
  by_cases h : k' = k
  · subst h; simp
  · simp [h, NMap.get_put_other]

omit [Inhabited α] in
/-- A second write to a key replaces the first. -/
@[simp] theorem NMap.put_put (m : NMap α) (k : Nat) (v w : α) : (m.put k v).put k w = m.put k w := by
  induction m with
  | nil => simp [NMap.put]
  | cons p t ih =>
    obtain ⟨j, x⟩ := p
    simp only [NMap.put]
    split
    · simp [NMap.put]
    · split
      · simp [NMap.put]
      · simp [NMap.put, *]

variable [DecidableEq α]

/-- Below the bound of a table nothing is listed. -/
theorem NMap.get_below {lo : Nat} {m : NMap α} (hw : NMap.wfFrom lo m = true) {k : Nat} (h : k < lo) : m.get k = default := by
  cases m with
  | nil => rfl
  | cons p t =>
    obtain ⟨j, w⟩ := p
    simp only [NMap.wfFrom, Bool.and_eq_true, decide_eq_true_eq] at hw
    simp only [NMap.get]
    split
    · omega
    · split
      · rfl
      · omega

/-- A bound may be lowered. -/
theorem NMap.wfFrom_mono {a b : Nat} {m : NMap α} (hw : NMap.wfFrom b m = true) (h : a ≤ b) : NMap.wfFrom a m = true := by
  cases m with
  | nil => rfl
  | cons p t =>
    obtain ⟨j, w⟩ := p
    simp only [NMap.wfFrom, Bool.and_eq_true, decide_eq_true_eq] at hw ⊢
    exact ⟨⟨by omega, hw.1.2⟩, hw.2⟩

/-- Listing a value that is not the default keeps the canonical form. -/
theorem NMap.wfFrom_put {lo : Nat} {m : NMap α} (hw : NMap.wfFrom lo m = true) {k : Nat} (hk : lo ≤ k) {v : α} (hv : v ≠ default) :
    NMap.wfFrom lo (m.put k v) = true := by
  induction m generalizing lo with
  | nil => simp [NMap.put, NMap.wfFrom, hk, hv]
  | cons p t ih =>
    obtain ⟨j, w⟩ := p
    simp only [NMap.wfFrom, Bool.and_eq_true, decide_eq_true_eq] at hw
    simp only [NMap.put]
    split
    · simp only [NMap.wfFrom, Bool.and_eq_true, decide_eq_true_eq]
      exact ⟨⟨hk, hv⟩, ⟨by omega, hw.1.2⟩, hw.2⟩
    · split
      · simp only [NMap.wfFrom, Bool.and_eq_true, decide_eq_true_eq]
        subst_vars
        exact ⟨⟨hk, hv⟩, hw.2⟩
      · simp only [NMap.wfFrom, Bool.and_eq_true, decide_eq_true_eq]
        exact ⟨hw.1, ih hw.2 (by omega)⟩

/-- Unlisting a key keeps the canonical form. -/
theorem NMap.wfFrom_erase {lo : Nat} {m : NMap α} (hw : NMap.wfFrom lo m = true) (k : Nat) : NMap.wfFrom lo (m.erase k) = true := by
  induction m generalizing lo with
  | nil => rfl
  | cons p t ih =>
    obtain ⟨j, w⟩ := p
    have hw' := hw
    simp only [NMap.wfFrom, Bool.and_eq_true, decide_eq_true_eq] at hw
    simp only [NMap.erase]
    split
    · exact hw'
    · split
      · exact NMap.wfFrom_mono hw.2 (by omega)
      · simp only [NMap.wfFrom, Bool.and_eq_true, decide_eq_true_eq]
        exact ⟨hw.1, ih hw.2⟩

/-- A write keeps the canonical form. -/
theorem NMap.wf_set {m : NMap α} (hw : m.wf = true) (k : Nat) (v : α) : (m.set k v).wf = true := by
  unfold NMap.wf at *
  unfold NMap.set
  split
  · exact NMap.wfFrom_erase hw k
  · exact NMap.wfFrom_put hw (Nat.zero_le k) (by assumption)

/-- A read after a key is unlisted. -/
theorem NMap.get_erase {lo : Nat} {m : NMap α} (hw : NMap.wfFrom lo m = true) (k k' : Nat) :
    (m.erase k).get k' = if k' = k then default else m.get k' := by
  induction m generalizing lo with
  | nil => simp [NMap.erase, NMap.get]
  | cons p t ih =>
    obtain ⟨j, w⟩ := p
    have hw' := hw
    simp only [NMap.wfFrom, Bool.and_eq_true, decide_eq_true_eq] at hw
    simp only [NMap.erase]
    split
    · by_cases h : k' = k
      · subst h
        simp only [if_true, NMap.get]
        split_ifs <;> first | rfl | omega
      · simp [h]
    · split
      · by_cases h : k' = k
        · simp only [h, if_true]
          exact NMap.get_below hw.2 (by omega)
        · simp only [h, if_false, NMap.get]
          split
          · omega
          · split
            · exact NMap.get_below hw.2 (by omega)
            · rfl
      · simp only [NMap.get, ih hw.2]
        by_cases h : k' = k
        · simp only [h, if_true]
          split_ifs
          rfl
        · simp [h]

/-- A read after a write in canonical form, at any key. -/
theorem NMap.get_set {m : NMap α} (hw : m.wf = true) (k k' : Nat) (v : α) : (m.set k v).get k' = if k' = k then v else m.get k' := by
  unfold NMap.set
  split
  · rename_i hv
    rw [NMap.get_erase hw, hv]
  · exact NMap.get_put m k k' v

/-! ## Memory -/

omit [Inhabited α] [DecidableEq α] in
/-- The two tables of a memory in canonical form. -/
theorem Memory.wf_iff (m : Memory) : m.wf = true ↔ NMap.wf (α := Byte) m.cells = true ∧ NMap.wf m.tags = true := by
  simp [Memory.wf]

omit [Inhabited α] [DecidableEq α] in
/-- Writing a byte keeps the canonical form. -/
theorem Memory.wf_setByte {m : Memory} (h : m.wf = true) (a : Nat) (b : Byte) : (m.setByte a b).wf = true := by
  rw [Memory.wf_iff] at *
  exact ⟨NMap.wf_set h.1 a b, h.2⟩

omit [Inhabited α] [DecidableEq α] in
/-- Writing a block's tag keeps the canonical form. -/
theorem Memory.wf_setTag {m : Memory} (h : m.wf = true) (a : Nat) (t : W32) : (m.setTag a t).wf = true := by
  rw [Memory.wf_iff] at *
  exact ⟨h.1, NMap.wf_set h.2 (a / 64) t⟩

omit [Inhabited α] [DecidableEq α] in
/-- Writing a run of bytes keeps the canonical form. -/
theorem Memory.wf_setBytes {m : Memory} (h : m.wf = true) (a : Nat) (l : List Byte) : (m.setBytes a l).wf = true := by
  induction l generalizing m a with
  | nil => exact h
  | cons b t ih => exact ih (Memory.wf_setByte h a b) (a + 1)

omit [Inhabited α] [DecidableEq α] in
/-- Writing a little-endian value keeps the canonical form. -/
theorem Memory.wf_writeLE {m : Memory} (h : m.wf = true) (a n v : Nat) : (m.writeLE a n v).wf = true := Memory.wf_setBytes h a (natLE n v)

omit [Inhabited α] [DecidableEq α] in
/-- A byte read after a byte written. -/
theorem Memory.byte_setByte {m : Memory} (h : m.wf = true) (a a' : Nat) (b : Byte) :
    (m.setByte a b).byte a' = if a' = a then b else m.byte a' := NMap.get_set ((Memory.wf_iff m).1 h).1 a a' b

omit [Inhabited α] [DecidableEq α] in
/-- A byte outside a run that is written. -/
theorem Memory.byte_setBytes_outside {m : Memory} (h : m.wf = true) {a a' : Nat} {l : List Byte} (ho : a' < a ∨ a + l.length ≤ a') :
    (m.setBytes a l).byte a' = m.byte a' := by
  induction l generalizing m a with
  | nil => rfl
  | cons b t ih =>
    simp only [List.length_cons] at ho
    simp only [Memory.setBytes]
    rw [ih (Memory.wf_setByte h a b) (by omega), Memory.byte_setByte h]
    split
    · omega
    · rfl

omit [Inhabited α] [DecidableEq α] in
/-- A byte within a run that is written. -/
theorem Memory.byte_setBytes_inside {m : Memory} (h : m.wf = true) {a i : Nat} {l : List Byte} (hi : i < l.length) :
    (m.setBytes a l).byte (a + i) = l[i] := by
  induction l generalizing m a i with
  | nil => simp at hi
  | cons b t ih =>
    simp only [Memory.setBytes]
    cases i with
    | zero =>
      rw [Memory.byte_setBytes_outside (Memory.wf_setByte h a b) (by omega), Memory.byte_setByte h]
      simp
    | succ n =>
      have e : a + (n + 1) = a + 1 + n := by omega
      rw [e, ih (Memory.wf_setByte h a b) (by simpa using hi)]
      simp

omit [Inhabited α] [DecidableEq α] in
/-- Tags do not change with bytes. -/
@[simp] theorem Memory.tag_setBytes (m : Memory) (a a' : Nat) (l : List Byte) : (m.setBytes a l).tag a' = m.tag a' := by
  induction l generalizing m a with
  | nil => rfl
  | cons b t ih => exact (ih (m.setByte a b) (a + 1)).trans rfl

omit [Inhabited α] [DecidableEq α] in
/-- Bytes do not change with tags. -/
@[simp] theorem Memory.byte_setTag (m : Memory) (a a' : Nat) (t : W32) : (m.setTag a t).byte a' = m.byte a' := rfl

omit [Inhabited α] [DecidableEq α] in
/-- A tag read after a tag written. -/
theorem Memory.tag_setTag {m : Memory} (h : m.wf = true) (a a' : Nat) (t : W32) :
    (m.setTag a t).tag a' = if a' / 64 = a / 64 then t else m.tag a' := NMap.get_set ((Memory.wf_iff m).1 h).2 (a / 64) (a' / 64) t

end Sys2Proof.Machine
end

