-- ==== Sys2Proof/Laws/Run.lean ====
section
/-! SUPPORT. How an operation of the monad `M` runs from a state: one equation for each way an operation is built. -/

namespace Sys2Proof.Machine

/-- One operation after another. -/
@[simp] theorem M.run_bind {α β : Type} (x : M α) (f : α → M β) (s : State) :
    (x >>= f) s = match x s with | .ok p => f p.1 p.2 | .error e => .error e := by
  show StateT.bind x f s = _
  unfold StateT.bind
  cases x s <;> rfl

@[simp] theorem M.run_pure {α : Type} (a : α) (s : State) : (pure a : M α) s = .ok (a, s) := rfl
@[simp] theorem M.run_get (s : State) : (get : M State) s = .ok (s, s) := rfl
@[simp] theorem M.run_set (t s : State) : (set t : M Unit) s = .ok ((), t) := rfl
@[simp] theorem M.run_modify (f : State → State) (s : State) : (modify f : M Unit) s = .ok ((), f s) := rfl
@[simp] theorem M.run_getThr (key : Nat) (s : State) : getThr key s = .ok (s.thr key, s) := rfl
@[simp] theorem M.run_modThr (key : Nat) (f : Thread → Thread) (s : State) : modThr key f s = .ok ((), s.updThr key f) := rfl
@[simp] theorem M.run_raise {α : Type} (t : Trap) (s : State) : (raise t : M α) s = .error (.trap t) := rfl
@[simp] theorem M.run_stall {α : Type} (k : WaitKind) (s : State) : (stall k : M α) s = .error (.stall k) := rfl
@[simp] theorem M.run_waitOn {α : Type} (k : WaitKind) (s : State) : (waitOn k : M α) s = .error (.wait k s) := rfl
@[simp] theorem M.run_advance (key : Nat) (s : State) : advance key s = .ok ((), s.updThr key fun t => t.updLive Frame.next) := rfl
@[simp] theorem M.run_check_ok {α : Type} (a : α) (s : State) : (check (.ok a) : M α) s = .ok (a, s) := rfl
@[simp] theorem M.run_check_error {α : Type} (t : Trap) (s : State) : (check (.error t) : M α) s = .error (.trap t) := rfl
@[simp] theorem M.run_illegal {α : Type} (key : Nat) (s : State) :
    (illegal key : M α) s = .error (.trap (mkTrap 1 (s.thr key).live.pc 0)) := by simp [illegal]
@[simp] theorem M.run_privFault {α : Type} (key : Nat) (s : State) :
    (privFault key : M α) s = .error (.trap (mkTrap 2 (s.thr key).live.pc 0)) := by simp [privFault]
@[simp] theorem M.run_ite {α : Type} (c : Prop) [Decidable c] (x y : M α) (s : State) : (if c then x else y) s = if c then x s else y s := by
  split <;> rfl

end Sys2Proof.Machine
end

