-- ==== Sys2Proof/Laws/State.lean ====
section
/-! SUPPORT. What each update of the state leaves alone, field by field, and what a read of a table sees after an update of it. -/

namespace Sys2Proof.Machine


/-! ## Threads and contexts of the state -/

/-- A thread read after an update of a thread. -/
theorem State.thr_updThr (s : State) (k k' : Nat) (f : Thread → Thread) :
    (s.updThr k f).thr k' = if k' = k then f (s.thr k) else s.thr k' := by
  simp [State.updThr, State.setThr, State.thr, NMap.get_put]

/-- The thread that was updated. -/
@[simp] theorem State.thr_updThr_same (s : State) (k : Nat) (f : Thread → Thread) : (s.updThr k f).thr k = f (s.thr k) := by
  simp [State.thr_updThr]

/-- Another thread. -/
theorem State.thr_updThr_other (s : State) {k k' : Nat} (f : Thread → Thread) (h : k' ≠ k) : (s.updThr k f).thr k' = s.thr k' := by
  simp [State.thr_updThr, h]

/-- Two updates of one thread are one. -/
@[simp] theorem State.updThr_updThr (s : State) (k : Nat) (f g : Thread → Thread) :
    (s.updThr k f).updThr k g = s.updThr k fun t => g (f t) := by
  simp [State.updThr, State.setThr, State.thr]

/-- A context read after an update of a context. -/
theorem State.ctx_updCtx (s : State) (k k' : Nat) (f : Ctx → Ctx) :
    (s.updCtx k f).ctx k' = if k' = k then f (s.ctx k) else s.ctx k' := by
  simp [State.updCtx, State.setCtx, State.ctx, NMap.get_put]

/-- The context that was updated. -/
@[simp] theorem State.ctx_updCtx_same (s : State) (k : Nat) (f : Ctx → Ctx) : (s.updCtx k f).ctx k = f (s.ctx k) := by
  simp [State.ctx_updCtx]

/-- Two updates of one context are one. -/
@[simp] theorem State.updCtx_updCtx (s : State) (k : Nat) (f g : Ctx → Ctx) :
    (s.updCtx k f).updCtx k g = s.updCtx k fun t => g (f t) := by
  simp [State.updCtx, State.setCtx, State.ctx]

/-- Threads do not change with contexts. -/
@[simp] theorem State.thr_updCtx (s : State) (k j : Nat) (f : Ctx → Ctx) : (s.updCtx k f).thr j = s.thr j := rfl

/-- Contexts do not change with threads. -/
@[simp] theorem State.ctx_updThr (s : State) (k j : Nat) (f : Thread → Thread) : (s.updThr k f).ctx j = s.ctx j := rfl

/-- A function read after a function is replaced. -/
theorem State.func_putFunc (s : State) (k k' : Nat) (f : Func) : (s.putFunc k f).func k' = if k' = k then f else s.func k' := by
  simp [State.putFunc, State.func, NMap.get_put]

/-- The function that was replaced. -/
@[simp] theorem State.func_putFunc_same (s : State) (k : Nat) (f : Func) : (s.putFunc k f).func k = f := by simp [State.func_putFunc]


/-! ## Updates of a thread -/

@[simp] theorem State.updThr_tick (s : State) (k : Nat) (f : Thread → Thread) : (s.updThr k f).tick = s.tick := rfl
@[simp] theorem State.updThr_hbm (s : State) (k : Nat) (f : Thread → Thread) : (s.updThr k f).hbm = s.hbm := rfl
@[simp] theorem State.updThr_host (s : State) (k : Nat) (f : Thread → Thread) : (s.updThr k f).host = s.host := rfl
@[simp] theorem State.updThr_refusers (s : State) (k : Nat) (f : Thread → Thread) : (s.updThr k f).refusers = s.refusers := rfl
@[simp] theorem State.updThr_hidden (s : State) (k : Nat) (f : Thread → Thread) : (s.updThr k f).hidden = s.hidden := rfl
@[simp] theorem State.updThr_staging (s : State) (k : Nat) (f : Thread → Thread) : (s.updThr k f).staging = s.staging := rfl
@[simp] theorem State.updThr_frames (s : State) (k : Nat) (f : Thread → Thread) : (s.updThr k f).frames = s.frames := rfl
@[simp] theorem State.updThr_funcs (s : State) (k : Nat) (f : Thread → Thread) : (s.updThr k f).funcs = s.funcs := rfl
@[simp] theorem State.updThr_msix (s : State) (k : Nat) (f : Thread → Thread) : (s.updThr k f).msix = s.msix := rfl
@[simp] theorem State.updThr_ctxs (s : State) (k : Nat) (f : Thread → Thread) : (s.updThr k f).ctxs = s.ctxs := rfl
@[simp] theorem State.updThr_images (s : State) (k : Nat) (f : Thread → Thread) : (s.updThr k f).images = s.images := rfl
@[simp] theorem State.updThr_cores (s : State) (k : Nat) (f : Thread → Thread) : (s.updThr k f).cores = s.cores := rfl
@[simp] theorem State.updThr_tlb (s : State) (k : Nat) (f : Thread → Thread) : (s.updThr k f).tlb = s.tlb := rfl
@[simp] theorem State.updThr_invals (s : State) (k : Nat) (f : Thread → Thread) : (s.updThr k f).invals = s.invals := rfl
@[simp] theorem State.updThr_invalNext (s : State) (k : Nat) (f : Thread → Thread) : (s.updThr k f).invalNext = s.invalNext := rfl
@[simp] theorem State.updThr_places (s : State) (k : Nat) (f : Thread → Thread) : (s.updThr k f).places = s.places := rfl
@[simp] theorem State.updThr_gangHolds (s : State) (k : Nat) (f : Thread → Thread) : (s.updThr k f).gangHolds = s.gangHolds := rfl
@[simp] theorem State.updThr_gangNext (s : State) (k : Nat) (f : Thread → Thread) : (s.updThr k f).gangNext = s.gangNext := rfl
@[simp] theorem State.updThr_rels (s : State) (k : Nat) (f : Thread → Thread) : (s.updThr k f).rels = s.rels := rfl
@[simp] theorem State.updThr_waiters (s : State) (k : Nat) (f : Thread → Thread) : (s.updThr k f).waiters = s.waiters := rfl
@[simp] theorem State.updThr_tasks (s : State) (k : Nat) (f : Thread → Thread) : (s.updThr k f).tasks = s.tasks := rfl
@[simp] theorem State.updThr_taskNext (s : State) (k : Nat) (f : Thread → Thread) : (s.updThr k f).taskNext = s.taskNext := rfl
@[simp] theorem State.updThr_passes (s : State) (k : Nat) (f : Thread → Thread) : (s.updThr k f).passes = s.passes := rfl
@[simp] theorem State.updThr_passNext (s : State) (k : Nat) (f : Thread → Thread) : (s.updThr k f).passNext = s.passNext := rfl
@[simp] theorem State.updThr_tensors (s : State) (k : Nat) (f : Thread → Thread) : (s.updThr k f).tensors = s.tensors := rfl
@[simp] theorem State.updThr_bulletin (s : State) (k : Nat) (f : Thread → Thread) : (s.updThr k f).bulletin = s.bulletin := rfl
@[simp] theorem State.updThr_shapes (s : State) (k : Nat) (f : Thread → Thread) : (s.updThr k f).shapes = s.shapes := rfl
@[simp] theorem State.updThr_banks (s : State) (k : Nat) (f : Thread → Thread) : (s.updThr k f).banks = s.banks := rfl
@[simp] theorem State.updThr_revoked (s : State) (k : Nat) (f : Thread → Thread) : (s.updThr k f).revoked = s.revoked := rfl
@[simp] theorem State.updThr_rings (s : State) (k : Nat) (f : Thread → Thread) : (s.updThr k f).rings = s.rings := rfl
@[simp] theorem State.updThr_lqs (s : State) (k : Nat) (f : Thread → Thread) : (s.updThr k f).lqs = s.lqs := rfl
@[simp] theorem State.updThr_progs (s : State) (k : Nat) (f : Thread → Thread) : (s.updThr k f).progs = s.progs := rfl
@[simp] theorem State.updThr_interps (s : State) (k : Nat) (f : Thread → Thread) : (s.updThr k f).interps = s.interps := rfl
@[simp] theorem State.updThr_lastLq (s : State) (k : Nat) (f : Thread → Thread) : (s.updThr k f).lastLq = s.lastLq := rfl
@[simp] theorem State.updThr_endpoints (s : State) (k : Nat) (f : Thread → Thread) : (s.updThr k f).endpoints = s.endpoints := rfl
@[simp] theorem State.updThr_pkg (s : State) (k : Nat) (f : Thread → Thread) : (s.updThr k f).pkg = s.pkg := rfl
@[simp] theorem State.updThr_boot (s : State) (k : Nat) (f : Thread → Thread) : (s.updThr k f).boot = s.boot := rfl
@[simp] theorem State.updThr_spdm (s : State) (k : Nat) (f : Thread → Thread) : (s.updThr k f).spdm = s.spdm := rfl
@[simp] theorem State.updThr_ide (s : State) (k : Nat) (f : Thread → Thread) : (s.updThr k f).ide = s.ide := rfl
@[simp] theorem State.updThr_ideFails (s : State) (k : Nat) (f : Thread → Thread) : (s.updThr k f).ideFails = s.ideFails := rfl
@[simp] theorem State.updThr_errors (s : State) (k : Nat) (f : Thread → Thread) : (s.updThr k f).errors = s.errors := rfl
@[simp] theorem State.updThr_lasting (s : State) (k : Nat) (f : Thread → Thread) : (s.updThr k f).lasting = s.lasting := rfl
@[simp] theorem State.updThr_outbox (s : State) (k : Nat) (f : Thread → Thread) : (s.updThr k f).outbox = s.outbox := rfl
@[simp] theorem State.updThr_pktNext (s : State) (k : Nat) (f : Thread → Thread) : (s.updThr k f).pktNext = s.pktNext := rfl
@[simp] theorem State.updThr_answers (s : State) (k : Nat) (f : Thread → Thread) : (s.updThr k f).answers = s.answers := rfl
@[simp] theorem State.updThr_inflows (s : State) (k : Nat) (f : Thread → Thread) : (s.updThr k f).inflows = s.inflows := rfl
@[simp] theorem State.updThr_verNext (s : State) (k : Nat) (f : Thread → Thread) : (s.updThr k f).verNext = s.verNext := rfl
@[simp] theorem State.updThr_stamp (s : State) (k : Nat) (f : Thread → Thread) : (s.updThr k f).stamp = s.stamp := rfl
@[simp] theorem State.updThr_scoreNext (s : State) (k : Nat) (f : Thread → Thread) : (s.updThr k f).scoreNext = s.scoreNext := rfl
@[simp] theorem State.updThr_fresh (s : State) (k : Nat) (f : Thread → Thread) : (s.updThr k f).fresh = s.fresh := rfl
@[simp] theorem State.updThr_cur (s : State) (k : Nat) (f : Thread → Thread) : (s.updThr k f).cur = s.cur := rfl
@[simp] theorem State.updThr_curI (s : State) (k : Nat) (f : Thread → Thread) : (s.updThr k f).curI = s.curI := rfl
@[simp] theorem State.updThr_turns (s : State) (k : Nat) (f : Thread → Thread) : (s.updThr k f).turns = s.turns := rfl
@[simp] theorem State.updThr_rr (s : State) (k : Nat) (f : Thread → Thread) : (s.updThr k f).rr = s.rr := rfl
@[simp] theorem State.updThr_held (s : State) (k : Nat) (f : Thread → Thread) : (s.updThr k f).held = s.held := rfl
@[simp] theorem State.updThr_bells (s : State) (k : Nat) (f : Thread → Thread) : (s.updThr k f).bells = s.bells := rfl
@[simp] theorem State.updThr_deficits (s : State) (k : Nat) (f : Thread → Thread) : (s.updThr k f).deficits = s.deficits := rfl
@[simp] theorem State.updThr_tenants (s : State) (k : Nat) (f : Thread → Thread) : (s.updThr k f).tenants = s.tenants := rfl
@[simp] theorem State.updThr_lastPick (s : State) (k : Nat) (f : Thread → Thread) : (s.updThr k f).lastPick = s.lastPick := rfl

/-! ## Updates of a context -/

@[simp] theorem State.updCtx_tick (s : State) (k : Nat) (f : Ctx → Ctx) : (s.updCtx k f).tick = s.tick := rfl
@[simp] theorem State.updCtx_hbm (s : State) (k : Nat) (f : Ctx → Ctx) : (s.updCtx k f).hbm = s.hbm := rfl
@[simp] theorem State.updCtx_host (s : State) (k : Nat) (f : Ctx → Ctx) : (s.updCtx k f).host = s.host := rfl
@[simp] theorem State.updCtx_refusers (s : State) (k : Nat) (f : Ctx → Ctx) : (s.updCtx k f).refusers = s.refusers := rfl
@[simp] theorem State.updCtx_hidden (s : State) (k : Nat) (f : Ctx → Ctx) : (s.updCtx k f).hidden = s.hidden := rfl
@[simp] theorem State.updCtx_staging (s : State) (k : Nat) (f : Ctx → Ctx) : (s.updCtx k f).staging = s.staging := rfl
@[simp] theorem State.updCtx_frames (s : State) (k : Nat) (f : Ctx → Ctx) : (s.updCtx k f).frames = s.frames := rfl
@[simp] theorem State.updCtx_funcs (s : State) (k : Nat) (f : Ctx → Ctx) : (s.updCtx k f).funcs = s.funcs := rfl
@[simp] theorem State.updCtx_msix (s : State) (k : Nat) (f : Ctx → Ctx) : (s.updCtx k f).msix = s.msix := rfl
@[simp] theorem State.updCtx_images (s : State) (k : Nat) (f : Ctx → Ctx) : (s.updCtx k f).images = s.images := rfl
@[simp] theorem State.updCtx_threads (s : State) (k : Nat) (f : Ctx → Ctx) : (s.updCtx k f).threads = s.threads := rfl
@[simp] theorem State.updCtx_cores (s : State) (k : Nat) (f : Ctx → Ctx) : (s.updCtx k f).cores = s.cores := rfl
@[simp] theorem State.updCtx_tlb (s : State) (k : Nat) (f : Ctx → Ctx) : (s.updCtx k f).tlb = s.tlb := rfl
@[simp] theorem State.updCtx_invals (s : State) (k : Nat) (f : Ctx → Ctx) : (s.updCtx k f).invals = s.invals := rfl
@[simp] theorem State.updCtx_invalNext (s : State) (k : Nat) (f : Ctx → Ctx) : (s.updCtx k f).invalNext = s.invalNext := rfl
@[simp] theorem State.updCtx_places (s : State) (k : Nat) (f : Ctx → Ctx) : (s.updCtx k f).places = s.places := rfl
@[simp] theorem State.updCtx_gangHolds (s : State) (k : Nat) (f : Ctx → Ctx) : (s.updCtx k f).gangHolds = s.gangHolds := rfl
@[simp] theorem State.updCtx_gangNext (s : State) (k : Nat) (f : Ctx → Ctx) : (s.updCtx k f).gangNext = s.gangNext := rfl
@[simp] theorem State.updCtx_rels (s : State) (k : Nat) (f : Ctx → Ctx) : (s.updCtx k f).rels = s.rels := rfl
@[simp] theorem State.updCtx_waiters (s : State) (k : Nat) (f : Ctx → Ctx) : (s.updCtx k f).waiters = s.waiters := rfl
@[simp] theorem State.updCtx_tasks (s : State) (k : Nat) (f : Ctx → Ctx) : (s.updCtx k f).tasks = s.tasks := rfl
@[simp] theorem State.updCtx_taskNext (s : State) (k : Nat) (f : Ctx → Ctx) : (s.updCtx k f).taskNext = s.taskNext := rfl
@[simp] theorem State.updCtx_passes (s : State) (k : Nat) (f : Ctx → Ctx) : (s.updCtx k f).passes = s.passes := rfl
@[simp] theorem State.updCtx_passNext (s : State) (k : Nat) (f : Ctx → Ctx) : (s.updCtx k f).passNext = s.passNext := rfl
@[simp] theorem State.updCtx_tensors (s : State) (k : Nat) (f : Ctx → Ctx) : (s.updCtx k f).tensors = s.tensors := rfl
@[simp] theorem State.updCtx_bulletin (s : State) (k : Nat) (f : Ctx → Ctx) : (s.updCtx k f).bulletin = s.bulletin := rfl
@[simp] theorem State.updCtx_shapes (s : State) (k : Nat) (f : Ctx → Ctx) : (s.updCtx k f).shapes = s.shapes := rfl
@[simp] theorem State.updCtx_banks (s : State) (k : Nat) (f : Ctx → Ctx) : (s.updCtx k f).banks = s.banks := rfl
@[simp] theorem State.updCtx_revoked (s : State) (k : Nat) (f : Ctx → Ctx) : (s.updCtx k f).revoked = s.revoked := rfl
@[simp] theorem State.updCtx_rings (s : State) (k : Nat) (f : Ctx → Ctx) : (s.updCtx k f).rings = s.rings := rfl
@[simp] theorem State.updCtx_lqs (s : State) (k : Nat) (f : Ctx → Ctx) : (s.updCtx k f).lqs = s.lqs := rfl
@[simp] theorem State.updCtx_progs (s : State) (k : Nat) (f : Ctx → Ctx) : (s.updCtx k f).progs = s.progs := rfl
@[simp] theorem State.updCtx_interps (s : State) (k : Nat) (f : Ctx → Ctx) : (s.updCtx k f).interps = s.interps := rfl
@[simp] theorem State.updCtx_lastLq (s : State) (k : Nat) (f : Ctx → Ctx) : (s.updCtx k f).lastLq = s.lastLq := rfl
@[simp] theorem State.updCtx_endpoints (s : State) (k : Nat) (f : Ctx → Ctx) : (s.updCtx k f).endpoints = s.endpoints := rfl
@[simp] theorem State.updCtx_pkg (s : State) (k : Nat) (f : Ctx → Ctx) : (s.updCtx k f).pkg = s.pkg := rfl
@[simp] theorem State.updCtx_boot (s : State) (k : Nat) (f : Ctx → Ctx) : (s.updCtx k f).boot = s.boot := rfl
@[simp] theorem State.updCtx_spdm (s : State) (k : Nat) (f : Ctx → Ctx) : (s.updCtx k f).spdm = s.spdm := rfl
@[simp] theorem State.updCtx_ide (s : State) (k : Nat) (f : Ctx → Ctx) : (s.updCtx k f).ide = s.ide := rfl
@[simp] theorem State.updCtx_ideFails (s : State) (k : Nat) (f : Ctx → Ctx) : (s.updCtx k f).ideFails = s.ideFails := rfl
@[simp] theorem State.updCtx_errors (s : State) (k : Nat) (f : Ctx → Ctx) : (s.updCtx k f).errors = s.errors := rfl
@[simp] theorem State.updCtx_lasting (s : State) (k : Nat) (f : Ctx → Ctx) : (s.updCtx k f).lasting = s.lasting := rfl
@[simp] theorem State.updCtx_outbox (s : State) (k : Nat) (f : Ctx → Ctx) : (s.updCtx k f).outbox = s.outbox := rfl
@[simp] theorem State.updCtx_pktNext (s : State) (k : Nat) (f : Ctx → Ctx) : (s.updCtx k f).pktNext = s.pktNext := rfl
@[simp] theorem State.updCtx_answers (s : State) (k : Nat) (f : Ctx → Ctx) : (s.updCtx k f).answers = s.answers := rfl
@[simp] theorem State.updCtx_inflows (s : State) (k : Nat) (f : Ctx → Ctx) : (s.updCtx k f).inflows = s.inflows := rfl
@[simp] theorem State.updCtx_verNext (s : State) (k : Nat) (f : Ctx → Ctx) : (s.updCtx k f).verNext = s.verNext := rfl
@[simp] theorem State.updCtx_stamp (s : State) (k : Nat) (f : Ctx → Ctx) : (s.updCtx k f).stamp = s.stamp := rfl
@[simp] theorem State.updCtx_scoreNext (s : State) (k : Nat) (f : Ctx → Ctx) : (s.updCtx k f).scoreNext = s.scoreNext := rfl
@[simp] theorem State.updCtx_fresh (s : State) (k : Nat) (f : Ctx → Ctx) : (s.updCtx k f).fresh = s.fresh := rfl
@[simp] theorem State.updCtx_cur (s : State) (k : Nat) (f : Ctx → Ctx) : (s.updCtx k f).cur = s.cur := rfl
@[simp] theorem State.updCtx_curI (s : State) (k : Nat) (f : Ctx → Ctx) : (s.updCtx k f).curI = s.curI := rfl
@[simp] theorem State.updCtx_turns (s : State) (k : Nat) (f : Ctx → Ctx) : (s.updCtx k f).turns = s.turns := rfl
@[simp] theorem State.updCtx_rr (s : State) (k : Nat) (f : Ctx → Ctx) : (s.updCtx k f).rr = s.rr := rfl
@[simp] theorem State.updCtx_held (s : State) (k : Nat) (f : Ctx → Ctx) : (s.updCtx k f).held = s.held := rfl
@[simp] theorem State.updCtx_bells (s : State) (k : Nat) (f : Ctx → Ctx) : (s.updCtx k f).bells = s.bells := rfl
@[simp] theorem State.updCtx_deficits (s : State) (k : Nat) (f : Ctx → Ctx) : (s.updCtx k f).deficits = s.deficits := rfl
@[simp] theorem State.updCtx_tenants (s : State) (k : Nat) (f : Ctx → Ctx) : (s.updCtx k f).tenants = s.tenants := rfl
@[simp] theorem State.updCtx_lastPick (s : State) (k : Nat) (f : Ctx → Ctx) : (s.updCtx k f).lastPick = s.lastPick := rfl

/-! ## Replacement of a function -/

@[simp] theorem State.putFunc_tick (s : State) (k : Nat) (f : Func) : (s.putFunc k f).tick = s.tick := rfl
@[simp] theorem State.putFunc_hbm (s : State) (k : Nat) (f : Func) : (s.putFunc k f).hbm = s.hbm := rfl
@[simp] theorem State.putFunc_host (s : State) (k : Nat) (f : Func) : (s.putFunc k f).host = s.host := rfl
@[simp] theorem State.putFunc_refusers (s : State) (k : Nat) (f : Func) : (s.putFunc k f).refusers = s.refusers := rfl
@[simp] theorem State.putFunc_hidden (s : State) (k : Nat) (f : Func) : (s.putFunc k f).hidden = s.hidden := rfl
@[simp] theorem State.putFunc_staging (s : State) (k : Nat) (f : Func) : (s.putFunc k f).staging = s.staging := rfl
@[simp] theorem State.putFunc_frames (s : State) (k : Nat) (f : Func) : (s.putFunc k f).frames = s.frames := rfl
@[simp] theorem State.putFunc_msix (s : State) (k : Nat) (f : Func) : (s.putFunc k f).msix = s.msix := rfl
@[simp] theorem State.putFunc_ctxs (s : State) (k : Nat) (f : Func) : (s.putFunc k f).ctxs = s.ctxs := rfl
@[simp] theorem State.putFunc_images (s : State) (k : Nat) (f : Func) : (s.putFunc k f).images = s.images := rfl
@[simp] theorem State.putFunc_threads (s : State) (k : Nat) (f : Func) : (s.putFunc k f).threads = s.threads := rfl
@[simp] theorem State.putFunc_cores (s : State) (k : Nat) (f : Func) : (s.putFunc k f).cores = s.cores := rfl
@[simp] theorem State.putFunc_tlb (s : State) (k : Nat) (f : Func) : (s.putFunc k f).tlb = s.tlb := rfl
@[simp] theorem State.putFunc_invals (s : State) (k : Nat) (f : Func) : (s.putFunc k f).invals = s.invals := rfl
@[simp] theorem State.putFunc_invalNext (s : State) (k : Nat) (f : Func) : (s.putFunc k f).invalNext = s.invalNext := rfl
@[simp] theorem State.putFunc_places (s : State) (k : Nat) (f : Func) : (s.putFunc k f).places = s.places := rfl
@[simp] theorem State.putFunc_gangHolds (s : State) (k : Nat) (f : Func) : (s.putFunc k f).gangHolds = s.gangHolds := rfl
@[simp] theorem State.putFunc_gangNext (s : State) (k : Nat) (f : Func) : (s.putFunc k f).gangNext = s.gangNext := rfl
@[simp] theorem State.putFunc_rels (s : State) (k : Nat) (f : Func) : (s.putFunc k f).rels = s.rels := rfl
@[simp] theorem State.putFunc_waiters (s : State) (k : Nat) (f : Func) : (s.putFunc k f).waiters = s.waiters := rfl
@[simp] theorem State.putFunc_tasks (s : State) (k : Nat) (f : Func) : (s.putFunc k f).tasks = s.tasks := rfl
@[simp] theorem State.putFunc_taskNext (s : State) (k : Nat) (f : Func) : (s.putFunc k f).taskNext = s.taskNext := rfl
@[simp] theorem State.putFunc_passes (s : State) (k : Nat) (f : Func) : (s.putFunc k f).passes = s.passes := rfl
@[simp] theorem State.putFunc_passNext (s : State) (k : Nat) (f : Func) : (s.putFunc k f).passNext = s.passNext := rfl
@[simp] theorem State.putFunc_tensors (s : State) (k : Nat) (f : Func) : (s.putFunc k f).tensors = s.tensors := rfl
@[simp] theorem State.putFunc_bulletin (s : State) (k : Nat) (f : Func) : (s.putFunc k f).bulletin = s.bulletin := rfl
@[simp] theorem State.putFunc_shapes (s : State) (k : Nat) (f : Func) : (s.putFunc k f).shapes = s.shapes := rfl
@[simp] theorem State.putFunc_banks (s : State) (k : Nat) (f : Func) : (s.putFunc k f).banks = s.banks := rfl
@[simp] theorem State.putFunc_revoked (s : State) (k : Nat) (f : Func) : (s.putFunc k f).revoked = s.revoked := rfl
@[simp] theorem State.putFunc_rings (s : State) (k : Nat) (f : Func) : (s.putFunc k f).rings = s.rings := rfl
@[simp] theorem State.putFunc_lqs (s : State) (k : Nat) (f : Func) : (s.putFunc k f).lqs = s.lqs := rfl
@[simp] theorem State.putFunc_progs (s : State) (k : Nat) (f : Func) : (s.putFunc k f).progs = s.progs := rfl
@[simp] theorem State.putFunc_interps (s : State) (k : Nat) (f : Func) : (s.putFunc k f).interps = s.interps := rfl
@[simp] theorem State.putFunc_lastLq (s : State) (k : Nat) (f : Func) : (s.putFunc k f).lastLq = s.lastLq := rfl
@[simp] theorem State.putFunc_endpoints (s : State) (k : Nat) (f : Func) : (s.putFunc k f).endpoints = s.endpoints := rfl
@[simp] theorem State.putFunc_pkg (s : State) (k : Nat) (f : Func) : (s.putFunc k f).pkg = s.pkg := rfl
@[simp] theorem State.putFunc_boot (s : State) (k : Nat) (f : Func) : (s.putFunc k f).boot = s.boot := rfl
@[simp] theorem State.putFunc_spdm (s : State) (k : Nat) (f : Func) : (s.putFunc k f).spdm = s.spdm := rfl
@[simp] theorem State.putFunc_ide (s : State) (k : Nat) (f : Func) : (s.putFunc k f).ide = s.ide := rfl
@[simp] theorem State.putFunc_ideFails (s : State) (k : Nat) (f : Func) : (s.putFunc k f).ideFails = s.ideFails := rfl
@[simp] theorem State.putFunc_errors (s : State) (k : Nat) (f : Func) : (s.putFunc k f).errors = s.errors := rfl
@[simp] theorem State.putFunc_lasting (s : State) (k : Nat) (f : Func) : (s.putFunc k f).lasting = s.lasting := rfl
@[simp] theorem State.putFunc_outbox (s : State) (k : Nat) (f : Func) : (s.putFunc k f).outbox = s.outbox := rfl
@[simp] theorem State.putFunc_pktNext (s : State) (k : Nat) (f : Func) : (s.putFunc k f).pktNext = s.pktNext := rfl
@[simp] theorem State.putFunc_answers (s : State) (k : Nat) (f : Func) : (s.putFunc k f).answers = s.answers := rfl
@[simp] theorem State.putFunc_inflows (s : State) (k : Nat) (f : Func) : (s.putFunc k f).inflows = s.inflows := rfl
@[simp] theorem State.putFunc_verNext (s : State) (k : Nat) (f : Func) : (s.putFunc k f).verNext = s.verNext := rfl
@[simp] theorem State.putFunc_stamp (s : State) (k : Nat) (f : Func) : (s.putFunc k f).stamp = s.stamp := rfl
@[simp] theorem State.putFunc_scoreNext (s : State) (k : Nat) (f : Func) : (s.putFunc k f).scoreNext = s.scoreNext := rfl
@[simp] theorem State.putFunc_fresh (s : State) (k : Nat) (f : Func) : (s.putFunc k f).fresh = s.fresh := rfl
@[simp] theorem State.putFunc_cur (s : State) (k : Nat) (f : Func) : (s.putFunc k f).cur = s.cur := rfl
@[simp] theorem State.putFunc_curI (s : State) (k : Nat) (f : Func) : (s.putFunc k f).curI = s.curI := rfl
@[simp] theorem State.putFunc_turns (s : State) (k : Nat) (f : Func) : (s.putFunc k f).turns = s.turns := rfl
@[simp] theorem State.putFunc_rr (s : State) (k : Nat) (f : Func) : (s.putFunc k f).rr = s.rr := rfl
@[simp] theorem State.putFunc_held (s : State) (k : Nat) (f : Func) : (s.putFunc k f).held = s.held := rfl
@[simp] theorem State.putFunc_bells (s : State) (k : Nat) (f : Func) : (s.putFunc k f).bells = s.bells := rfl
@[simp] theorem State.putFunc_deficits (s : State) (k : Nat) (f : Func) : (s.putFunc k f).deficits = s.deficits := rfl
@[simp] theorem State.putFunc_tenants (s : State) (k : Nat) (f : Func) : (s.putFunc k f).tenants = s.tenants := rfl
@[simp] theorem State.putFunc_lastPick (s : State) (k : Nat) (f : Func) : (s.putFunc k f).lastPick = s.lastPick := rfl

/-! ## Replacement of the package registers -/

@[simp] theorem State.setPkg_tick (s : State) (p : Pkg) : (s.setPkg p).tick = s.tick := rfl
@[simp] theorem State.setPkg_hbm (s : State) (p : Pkg) : (s.setPkg p).hbm = s.hbm := rfl
@[simp] theorem State.setPkg_host (s : State) (p : Pkg) : (s.setPkg p).host = s.host := rfl
@[simp] theorem State.setPkg_refusers (s : State) (p : Pkg) : (s.setPkg p).refusers = s.refusers := rfl
@[simp] theorem State.setPkg_hidden (s : State) (p : Pkg) : (s.setPkg p).hidden = s.hidden := rfl
@[simp] theorem State.setPkg_staging (s : State) (p : Pkg) : (s.setPkg p).staging = s.staging := rfl
@[simp] theorem State.setPkg_frames (s : State) (p : Pkg) : (s.setPkg p).frames = s.frames := rfl
@[simp] theorem State.setPkg_funcs (s : State) (p : Pkg) : (s.setPkg p).funcs = s.funcs := rfl
@[simp] theorem State.setPkg_msix (s : State) (p : Pkg) : (s.setPkg p).msix = s.msix := rfl
@[simp] theorem State.setPkg_ctxs (s : State) (p : Pkg) : (s.setPkg p).ctxs = s.ctxs := rfl
@[simp] theorem State.setPkg_images (s : State) (p : Pkg) : (s.setPkg p).images = s.images := rfl
@[simp] theorem State.setPkg_threads (s : State) (p : Pkg) : (s.setPkg p).threads = s.threads := rfl
@[simp] theorem State.setPkg_cores (s : State) (p : Pkg) : (s.setPkg p).cores = s.cores := rfl
@[simp] theorem State.setPkg_tlb (s : State) (p : Pkg) : (s.setPkg p).tlb = s.tlb := rfl
@[simp] theorem State.setPkg_invals (s : State) (p : Pkg) : (s.setPkg p).invals = s.invals := rfl
@[simp] theorem State.setPkg_invalNext (s : State) (p : Pkg) : (s.setPkg p).invalNext = s.invalNext := rfl
@[simp] theorem State.setPkg_places (s : State) (p : Pkg) : (s.setPkg p).places = s.places := rfl
@[simp] theorem State.setPkg_gangHolds (s : State) (p : Pkg) : (s.setPkg p).gangHolds = s.gangHolds := rfl
@[simp] theorem State.setPkg_gangNext (s : State) (p : Pkg) : (s.setPkg p).gangNext = s.gangNext := rfl
@[simp] theorem State.setPkg_rels (s : State) (p : Pkg) : (s.setPkg p).rels = s.rels := rfl
@[simp] theorem State.setPkg_waiters (s : State) (p : Pkg) : (s.setPkg p).waiters = s.waiters := rfl
@[simp] theorem State.setPkg_tasks (s : State) (p : Pkg) : (s.setPkg p).tasks = s.tasks := rfl
@[simp] theorem State.setPkg_taskNext (s : State) (p : Pkg) : (s.setPkg p).taskNext = s.taskNext := rfl
@[simp] theorem State.setPkg_passes (s : State) (p : Pkg) : (s.setPkg p).passes = s.passes := rfl
@[simp] theorem State.setPkg_passNext (s : State) (p : Pkg) : (s.setPkg p).passNext = s.passNext := rfl
@[simp] theorem State.setPkg_tensors (s : State) (p : Pkg) : (s.setPkg p).tensors = s.tensors := rfl
@[simp] theorem State.setPkg_bulletin (s : State) (p : Pkg) : (s.setPkg p).bulletin = s.bulletin := rfl
@[simp] theorem State.setPkg_shapes (s : State) (p : Pkg) : (s.setPkg p).shapes = s.shapes := rfl
@[simp] theorem State.setPkg_banks (s : State) (p : Pkg) : (s.setPkg p).banks = s.banks := rfl
@[simp] theorem State.setPkg_revoked (s : State) (p : Pkg) : (s.setPkg p).revoked = s.revoked := rfl
@[simp] theorem State.setPkg_rings (s : State) (p : Pkg) : (s.setPkg p).rings = s.rings := rfl
@[simp] theorem State.setPkg_lqs (s : State) (p : Pkg) : (s.setPkg p).lqs = s.lqs := rfl
@[simp] theorem State.setPkg_progs (s : State) (p : Pkg) : (s.setPkg p).progs = s.progs := rfl
@[simp] theorem State.setPkg_interps (s : State) (p : Pkg) : (s.setPkg p).interps = s.interps := rfl
@[simp] theorem State.setPkg_lastLq (s : State) (p : Pkg) : (s.setPkg p).lastLq = s.lastLq := rfl
@[simp] theorem State.setPkg_endpoints (s : State) (p : Pkg) : (s.setPkg p).endpoints = s.endpoints := rfl
@[simp] theorem State.setPkg_boot (s : State) (p : Pkg) : (s.setPkg p).boot = s.boot := rfl
@[simp] theorem State.setPkg_spdm (s : State) (p : Pkg) : (s.setPkg p).spdm = s.spdm := rfl
@[simp] theorem State.setPkg_ide (s : State) (p : Pkg) : (s.setPkg p).ide = s.ide := rfl
@[simp] theorem State.setPkg_ideFails (s : State) (p : Pkg) : (s.setPkg p).ideFails = s.ideFails := rfl
@[simp] theorem State.setPkg_errors (s : State) (p : Pkg) : (s.setPkg p).errors = s.errors := rfl
@[simp] theorem State.setPkg_lasting (s : State) (p : Pkg) : (s.setPkg p).lasting = s.lasting := rfl
@[simp] theorem State.setPkg_outbox (s : State) (p : Pkg) : (s.setPkg p).outbox = s.outbox := rfl
@[simp] theorem State.setPkg_pktNext (s : State) (p : Pkg) : (s.setPkg p).pktNext = s.pktNext := rfl
@[simp] theorem State.setPkg_answers (s : State) (p : Pkg) : (s.setPkg p).answers = s.answers := rfl
@[simp] theorem State.setPkg_inflows (s : State) (p : Pkg) : (s.setPkg p).inflows = s.inflows := rfl
@[simp] theorem State.setPkg_verNext (s : State) (p : Pkg) : (s.setPkg p).verNext = s.verNext := rfl
@[simp] theorem State.setPkg_stamp (s : State) (p : Pkg) : (s.setPkg p).stamp = s.stamp := rfl
@[simp] theorem State.setPkg_scoreNext (s : State) (p : Pkg) : (s.setPkg p).scoreNext = s.scoreNext := rfl
@[simp] theorem State.setPkg_fresh (s : State) (p : Pkg) : (s.setPkg p).fresh = s.fresh := rfl
@[simp] theorem State.setPkg_cur (s : State) (p : Pkg) : (s.setPkg p).cur = s.cur := rfl
@[simp] theorem State.setPkg_curI (s : State) (p : Pkg) : (s.setPkg p).curI = s.curI := rfl
@[simp] theorem State.setPkg_turns (s : State) (p : Pkg) : (s.setPkg p).turns = s.turns := rfl
@[simp] theorem State.setPkg_rr (s : State) (p : Pkg) : (s.setPkg p).rr = s.rr := rfl
@[simp] theorem State.setPkg_held (s : State) (p : Pkg) : (s.setPkg p).held = s.held := rfl
@[simp] theorem State.setPkg_bells (s : State) (p : Pkg) : (s.setPkg p).bells = s.bells := rfl
@[simp] theorem State.setPkg_deficits (s : State) (p : Pkg) : (s.setPkg p).deficits = s.deficits := rfl
@[simp] theorem State.setPkg_tenants (s : State) (p : Pkg) : (s.setPkg p).tenants = s.tenants := rfl
@[simp] theorem State.setPkg_lastPick (s : State) (p : Pkg) : (s.setPkg p).lastPick = s.lastPick := rfl
@[simp] theorem State.setPkg_pkg (s : State) (p : Pkg) : (s.setPkg p).pkg = p := rfl

/-! ## A dropped write -/

@[simp] theorem State.dropWrite_tick (s : State) : (s.dropWrite).tick = s.tick := rfl
@[simp] theorem State.dropWrite_hbm (s : State) : (s.dropWrite).hbm = s.hbm := rfl
@[simp] theorem State.dropWrite_host (s : State) : (s.dropWrite).host = s.host := rfl
@[simp] theorem State.dropWrite_refusers (s : State) : (s.dropWrite).refusers = s.refusers := rfl
@[simp] theorem State.dropWrite_hidden (s : State) : (s.dropWrite).hidden = s.hidden := rfl
@[simp] theorem State.dropWrite_staging (s : State) : (s.dropWrite).staging = s.staging := rfl
@[simp] theorem State.dropWrite_frames (s : State) : (s.dropWrite).frames = s.frames := rfl
@[simp] theorem State.dropWrite_funcs (s : State) : (s.dropWrite).funcs = s.funcs := rfl
@[simp] theorem State.dropWrite_msix (s : State) : (s.dropWrite).msix = s.msix := rfl
@[simp] theorem State.dropWrite_ctxs (s : State) : (s.dropWrite).ctxs = s.ctxs := rfl
@[simp] theorem State.dropWrite_images (s : State) : (s.dropWrite).images = s.images := rfl
@[simp] theorem State.dropWrite_threads (s : State) : (s.dropWrite).threads = s.threads := rfl
@[simp] theorem State.dropWrite_cores (s : State) : (s.dropWrite).cores = s.cores := rfl
@[simp] theorem State.dropWrite_tlb (s : State) : (s.dropWrite).tlb = s.tlb := rfl
@[simp] theorem State.dropWrite_invals (s : State) : (s.dropWrite).invals = s.invals := rfl
@[simp] theorem State.dropWrite_invalNext (s : State) : (s.dropWrite).invalNext = s.invalNext := rfl
@[simp] theorem State.dropWrite_places (s : State) : (s.dropWrite).places = s.places := rfl
@[simp] theorem State.dropWrite_gangHolds (s : State) : (s.dropWrite).gangHolds = s.gangHolds := rfl
@[simp] theorem State.dropWrite_gangNext (s : State) : (s.dropWrite).gangNext = s.gangNext := rfl
@[simp] theorem State.dropWrite_rels (s : State) : (s.dropWrite).rels = s.rels := rfl
@[simp] theorem State.dropWrite_waiters (s : State) : (s.dropWrite).waiters = s.waiters := rfl
@[simp] theorem State.dropWrite_tasks (s : State) : (s.dropWrite).tasks = s.tasks := rfl
@[simp] theorem State.dropWrite_taskNext (s : State) : (s.dropWrite).taskNext = s.taskNext := rfl
@[simp] theorem State.dropWrite_passes (s : State) : (s.dropWrite).passes = s.passes := rfl
@[simp] theorem State.dropWrite_passNext (s : State) : (s.dropWrite).passNext = s.passNext := rfl
@[simp] theorem State.dropWrite_tensors (s : State) : (s.dropWrite).tensors = s.tensors := rfl
@[simp] theorem State.dropWrite_bulletin (s : State) : (s.dropWrite).bulletin = s.bulletin := rfl
@[simp] theorem State.dropWrite_shapes (s : State) : (s.dropWrite).shapes = s.shapes := rfl
@[simp] theorem State.dropWrite_banks (s : State) : (s.dropWrite).banks = s.banks := rfl
@[simp] theorem State.dropWrite_revoked (s : State) : (s.dropWrite).revoked = s.revoked := rfl
@[simp] theorem State.dropWrite_rings (s : State) : (s.dropWrite).rings = s.rings := rfl
@[simp] theorem State.dropWrite_lqs (s : State) : (s.dropWrite).lqs = s.lqs := rfl
@[simp] theorem State.dropWrite_progs (s : State) : (s.dropWrite).progs = s.progs := rfl
@[simp] theorem State.dropWrite_interps (s : State) : (s.dropWrite).interps = s.interps := rfl
@[simp] theorem State.dropWrite_lastLq (s : State) : (s.dropWrite).lastLq = s.lastLq := rfl
@[simp] theorem State.dropWrite_endpoints (s : State) : (s.dropWrite).endpoints = s.endpoints := rfl
@[simp] theorem State.dropWrite_boot (s : State) : (s.dropWrite).boot = s.boot := rfl
@[simp] theorem State.dropWrite_spdm (s : State) : (s.dropWrite).spdm = s.spdm := rfl
@[simp] theorem State.dropWrite_ide (s : State) : (s.dropWrite).ide = s.ide := rfl
@[simp] theorem State.dropWrite_ideFails (s : State) : (s.dropWrite).ideFails = s.ideFails := rfl
@[simp] theorem State.dropWrite_errors (s : State) : (s.dropWrite).errors = s.errors := rfl
@[simp] theorem State.dropWrite_lasting (s : State) : (s.dropWrite).lasting = s.lasting := rfl
@[simp] theorem State.dropWrite_outbox (s : State) : (s.dropWrite).outbox = s.outbox := rfl
@[simp] theorem State.dropWrite_pktNext (s : State) : (s.dropWrite).pktNext = s.pktNext := rfl
@[simp] theorem State.dropWrite_answers (s : State) : (s.dropWrite).answers = s.answers := rfl
@[simp] theorem State.dropWrite_inflows (s : State) : (s.dropWrite).inflows = s.inflows := rfl
@[simp] theorem State.dropWrite_verNext (s : State) : (s.dropWrite).verNext = s.verNext := rfl
@[simp] theorem State.dropWrite_stamp (s : State) : (s.dropWrite).stamp = s.stamp := rfl
@[simp] theorem State.dropWrite_scoreNext (s : State) : (s.dropWrite).scoreNext = s.scoreNext := rfl
@[simp] theorem State.dropWrite_fresh (s : State) : (s.dropWrite).fresh = s.fresh := rfl
@[simp] theorem State.dropWrite_cur (s : State) : (s.dropWrite).cur = s.cur := rfl
@[simp] theorem State.dropWrite_curI (s : State) : (s.dropWrite).curI = s.curI := rfl
@[simp] theorem State.dropWrite_turns (s : State) : (s.dropWrite).turns = s.turns := rfl
@[simp] theorem State.dropWrite_rr (s : State) : (s.dropWrite).rr = s.rr := rfl
@[simp] theorem State.dropWrite_held (s : State) : (s.dropWrite).held = s.held := rfl
@[simp] theorem State.dropWrite_bells (s : State) : (s.dropWrite).bells = s.bells := rfl
@[simp] theorem State.dropWrite_deficits (s : State) : (s.dropWrite).deficits = s.deficits := rfl
@[simp] theorem State.dropWrite_tenants (s : State) : (s.dropWrite).tenants = s.tenants := rfl
@[simp] theorem State.dropWrite_lastPick (s : State) : (s.dropWrite).lastPick = s.lastPick := rfl

/-! ## Counted events -/

@[simp] theorem State.countEv_tick (s : State) (c e n : Nat) : (s.countEv c e n).tick = s.tick := by unfold State.countEv; split <;> rfl
@[simp] theorem State.countEv_hbm (s : State) (c e n : Nat) : (s.countEv c e n).hbm = s.hbm := by unfold State.countEv; split <;> rfl
@[simp] theorem State.countEv_host (s : State) (c e n : Nat) : (s.countEv c e n).host = s.host := by unfold State.countEv; split <;> rfl
@[simp] theorem State.countEv_refusers (s : State) (c e n : Nat) : (s.countEv c e n).refusers = s.refusers := by unfold State.countEv; split <;> rfl
@[simp] theorem State.countEv_hidden (s : State) (c e n : Nat) : (s.countEv c e n).hidden = s.hidden := by unfold State.countEv; split <;> rfl
@[simp] theorem State.countEv_staging (s : State) (c e n : Nat) : (s.countEv c e n).staging = s.staging := by unfold State.countEv; split <;> rfl
@[simp] theorem State.countEv_frames (s : State) (c e n : Nat) : (s.countEv c e n).frames = s.frames := by unfold State.countEv; split <;> rfl
@[simp] theorem State.countEv_funcs (s : State) (c e n : Nat) : (s.countEv c e n).funcs = s.funcs := by unfold State.countEv; split <;> rfl
@[simp] theorem State.countEv_msix (s : State) (c e n : Nat) : (s.countEv c e n).msix = s.msix := by unfold State.countEv; split <;> rfl
@[simp] theorem State.countEv_ctxs (s : State) (c e n : Nat) : (s.countEv c e n).ctxs = s.ctxs := by unfold State.countEv; split <;> rfl
@[simp] theorem State.countEv_images (s : State) (c e n : Nat) : (s.countEv c e n).images = s.images := by unfold State.countEv; split <;> rfl
@[simp] theorem State.countEv_threads (s : State) (c e n : Nat) : (s.countEv c e n).threads = s.threads := by unfold State.countEv; split <;> rfl
@[simp] theorem State.countEv_cores (s : State) (c e n : Nat) : (s.countEv c e n).cores = s.cores := by unfold State.countEv; split <;> rfl
@[simp] theorem State.countEv_tlb (s : State) (c e n : Nat) : (s.countEv c e n).tlb = s.tlb := by unfold State.countEv; split <;> rfl
@[simp] theorem State.countEv_invals (s : State) (c e n : Nat) : (s.countEv c e n).invals = s.invals := by unfold State.countEv; split <;> rfl
@[simp] theorem State.countEv_invalNext (s : State) (c e n : Nat) : (s.countEv c e n).invalNext = s.invalNext := by unfold State.countEv; split <;> rfl
@[simp] theorem State.countEv_places (s : State) (c e n : Nat) : (s.countEv c e n).places = s.places := by unfold State.countEv; split <;> rfl
@[simp] theorem State.countEv_gangHolds (s : State) (c e n : Nat) : (s.countEv c e n).gangHolds = s.gangHolds := by unfold State.countEv; split <;> rfl
@[simp] theorem State.countEv_gangNext (s : State) (c e n : Nat) : (s.countEv c e n).gangNext = s.gangNext := by unfold State.countEv; split <;> rfl
@[simp] theorem State.countEv_rels (s : State) (c e n : Nat) : (s.countEv c e n).rels = s.rels := by unfold State.countEv; split <;> rfl
@[simp] theorem State.countEv_waiters (s : State) (c e n : Nat) : (s.countEv c e n).waiters = s.waiters := by unfold State.countEv; split <;> rfl
@[simp] theorem State.countEv_tasks (s : State) (c e n : Nat) : (s.countEv c e n).tasks = s.tasks := by unfold State.countEv; split <;> rfl
@[simp] theorem State.countEv_taskNext (s : State) (c e n : Nat) : (s.countEv c e n).taskNext = s.taskNext := by unfold State.countEv; split <;> rfl
@[simp] theorem State.countEv_passes (s : State) (c e n : Nat) : (s.countEv c e n).passes = s.passes := by unfold State.countEv; split <;> rfl
@[simp] theorem State.countEv_passNext (s : State) (c e n : Nat) : (s.countEv c e n).passNext = s.passNext := by unfold State.countEv; split <;> rfl
@[simp] theorem State.countEv_tensors (s : State) (c e n : Nat) : (s.countEv c e n).tensors = s.tensors := by unfold State.countEv; split <;> rfl
@[simp] theorem State.countEv_bulletin (s : State) (c e n : Nat) : (s.countEv c e n).bulletin = s.bulletin := by unfold State.countEv; split <;> rfl
@[simp] theorem State.countEv_shapes (s : State) (c e n : Nat) : (s.countEv c e n).shapes = s.shapes := by unfold State.countEv; split <;> rfl
@[simp] theorem State.countEv_revoked (s : State) (c e n : Nat) : (s.countEv c e n).revoked = s.revoked := by unfold State.countEv; split <;> rfl
@[simp] theorem State.countEv_rings (s : State) (c e n : Nat) : (s.countEv c e n).rings = s.rings := by unfold State.countEv; split <;> rfl
@[simp] theorem State.countEv_lqs (s : State) (c e n : Nat) : (s.countEv c e n).lqs = s.lqs := by unfold State.countEv; split <;> rfl
@[simp] theorem State.countEv_progs (s : State) (c e n : Nat) : (s.countEv c e n).progs = s.progs := by unfold State.countEv; split <;> rfl
@[simp] theorem State.countEv_interps (s : State) (c e n : Nat) : (s.countEv c e n).interps = s.interps := by unfold State.countEv; split <;> rfl
@[simp] theorem State.countEv_lastLq (s : State) (c e n : Nat) : (s.countEv c e n).lastLq = s.lastLq := by unfold State.countEv; split <;> rfl
@[simp] theorem State.countEv_endpoints (s : State) (c e n : Nat) : (s.countEv c e n).endpoints = s.endpoints := by unfold State.countEv; split <;> rfl
@[simp] theorem State.countEv_pkg (s : State) (c e n : Nat) : (s.countEv c e n).pkg = s.pkg := by unfold State.countEv; split <;> rfl
@[simp] theorem State.countEv_boot (s : State) (c e n : Nat) : (s.countEv c e n).boot = s.boot := by unfold State.countEv; split <;> rfl
@[simp] theorem State.countEv_spdm (s : State) (c e n : Nat) : (s.countEv c e n).spdm = s.spdm := by unfold State.countEv; split <;> rfl
@[simp] theorem State.countEv_ide (s : State) (c e n : Nat) : (s.countEv c e n).ide = s.ide := by unfold State.countEv; split <;> rfl
@[simp] theorem State.countEv_ideFails (s : State) (c e n : Nat) : (s.countEv c e n).ideFails = s.ideFails := by unfold State.countEv; split <;> rfl
@[simp] theorem State.countEv_errors (s : State) (c e n : Nat) : (s.countEv c e n).errors = s.errors := by unfold State.countEv; split <;> rfl
@[simp] theorem State.countEv_lasting (s : State) (c e n : Nat) : (s.countEv c e n).lasting = s.lasting := by unfold State.countEv; split <;> rfl
@[simp] theorem State.countEv_outbox (s : State) (c e n : Nat) : (s.countEv c e n).outbox = s.outbox := by unfold State.countEv; split <;> rfl
@[simp] theorem State.countEv_pktNext (s : State) (c e n : Nat) : (s.countEv c e n).pktNext = s.pktNext := by unfold State.countEv; split <;> rfl
@[simp] theorem State.countEv_answers (s : State) (c e n : Nat) : (s.countEv c e n).answers = s.answers := by unfold State.countEv; split <;> rfl
@[simp] theorem State.countEv_inflows (s : State) (c e n : Nat) : (s.countEv c e n).inflows = s.inflows := by unfold State.countEv; split <;> rfl
@[simp] theorem State.countEv_verNext (s : State) (c e n : Nat) : (s.countEv c e n).verNext = s.verNext := by unfold State.countEv; split <;> rfl
@[simp] theorem State.countEv_stamp (s : State) (c e n : Nat) : (s.countEv c e n).stamp = s.stamp := by unfold State.countEv; split <;> rfl
@[simp] theorem State.countEv_scoreNext (s : State) (c e n : Nat) : (s.countEv c e n).scoreNext = s.scoreNext := by unfold State.countEv; split <;> rfl
@[simp] theorem State.countEv_fresh (s : State) (c e n : Nat) : (s.countEv c e n).fresh = s.fresh := by unfold State.countEv; split <;> rfl
@[simp] theorem State.countEv_cur (s : State) (c e n : Nat) : (s.countEv c e n).cur = s.cur := by unfold State.countEv; split <;> rfl
@[simp] theorem State.countEv_curI (s : State) (c e n : Nat) : (s.countEv c e n).curI = s.curI := by unfold State.countEv; split <;> rfl
@[simp] theorem State.countEv_turns (s : State) (c e n : Nat) : (s.countEv c e n).turns = s.turns := by unfold State.countEv; split <;> rfl
@[simp] theorem State.countEv_rr (s : State) (c e n : Nat) : (s.countEv c e n).rr = s.rr := by unfold State.countEv; split <;> rfl
@[simp] theorem State.countEv_held (s : State) (c e n : Nat) : (s.countEv c e n).held = s.held := by unfold State.countEv; split <;> rfl
@[simp] theorem State.countEv_bells (s : State) (c e n : Nat) : (s.countEv c e n).bells = s.bells := by unfold State.countEv; split <;> rfl
@[simp] theorem State.countEv_deficits (s : State) (c e n : Nat) : (s.countEv c e n).deficits = s.deficits := by unfold State.countEv; split <;> rfl
@[simp] theorem State.countEv_tenants (s : State) (c e n : Nat) : (s.countEv c e n).tenants = s.tenants := by unfold State.countEv; split <;> rfl
@[simp] theorem State.countEv_lastPick (s : State) (c e n : Nat) : (s.countEv c e n).lastPick = s.lastPick := by unfold State.countEv; split <;> rfl
@[simp] theorem State.countEv_thr (s : State) (c e n k : Nat) : (s.countEv c e n).thr k = s.thr k := by unfold State.countEv; split <;> rfl
@[simp] theorem State.countEv_ctx (s : State) (c e n k : Nat) : (s.countEv c e n).ctx k = s.ctx k := by unfold State.countEv; split <;> rfl

/-! ## Counts of a thread, or of the pass that runs in its slot -/

@[simp] theorem State.countFor_tick (s : State) (k e n : Nat) : (s.countFor k e n).tick = s.tick := by unfold State.countFor; split; split <;> rfl; simp
@[simp] theorem State.countFor_hbm (s : State) (k e n : Nat) : (s.countFor k e n).hbm = s.hbm := by unfold State.countFor; split; split <;> rfl; simp
@[simp] theorem State.countFor_host (s : State) (k e n : Nat) : (s.countFor k e n).host = s.host := by unfold State.countFor; split; split <;> rfl; simp
@[simp] theorem State.countFor_refusers (s : State) (k e n : Nat) : (s.countFor k e n).refusers = s.refusers := by unfold State.countFor; split; split <;> rfl; simp
@[simp] theorem State.countFor_hidden (s : State) (k e n : Nat) : (s.countFor k e n).hidden = s.hidden := by unfold State.countFor; split; split <;> rfl; simp
@[simp] theorem State.countFor_staging (s : State) (k e n : Nat) : (s.countFor k e n).staging = s.staging := by unfold State.countFor; split; split <;> rfl; simp
@[simp] theorem State.countFor_frames (s : State) (k e n : Nat) : (s.countFor k e n).frames = s.frames := by unfold State.countFor; split; split <;> rfl; simp
@[simp] theorem State.countFor_funcs (s : State) (k e n : Nat) : (s.countFor k e n).funcs = s.funcs := by unfold State.countFor; split; split <;> rfl; simp
@[simp] theorem State.countFor_msix (s : State) (k e n : Nat) : (s.countFor k e n).msix = s.msix := by unfold State.countFor; split; split <;> rfl; simp
@[simp] theorem State.countFor_ctxs (s : State) (k e n : Nat) : (s.countFor k e n).ctxs = s.ctxs := by unfold State.countFor; split; split <;> rfl; simp
@[simp] theorem State.countFor_images (s : State) (k e n : Nat) : (s.countFor k e n).images = s.images := by unfold State.countFor; split; split <;> rfl; simp
@[simp] theorem State.countFor_threads (s : State) (k e n : Nat) : (s.countFor k e n).threads = s.threads := by unfold State.countFor; split; split <;> rfl; simp
@[simp] theorem State.countFor_cores (s : State) (k e n : Nat) : (s.countFor k e n).cores = s.cores := by unfold State.countFor; split; split <;> rfl; simp
@[simp] theorem State.countFor_tlb (s : State) (k e n : Nat) : (s.countFor k e n).tlb = s.tlb := by unfold State.countFor; split; split <;> rfl; simp
@[simp] theorem State.countFor_invals (s : State) (k e n : Nat) : (s.countFor k e n).invals = s.invals := by unfold State.countFor; split; split <;> rfl; simp
@[simp] theorem State.countFor_invalNext (s : State) (k e n : Nat) : (s.countFor k e n).invalNext = s.invalNext := by unfold State.countFor; split; split <;> rfl; simp
@[simp] theorem State.countFor_places (s : State) (k e n : Nat) : (s.countFor k e n).places = s.places := by unfold State.countFor; split; split <;> rfl; simp
@[simp] theorem State.countFor_gangHolds (s : State) (k e n : Nat) : (s.countFor k e n).gangHolds = s.gangHolds := by unfold State.countFor; split; split <;> rfl; simp
@[simp] theorem State.countFor_gangNext (s : State) (k e n : Nat) : (s.countFor k e n).gangNext = s.gangNext := by unfold State.countFor; split; split <;> rfl; simp
@[simp] theorem State.countFor_rels (s : State) (k e n : Nat) : (s.countFor k e n).rels = s.rels := by unfold State.countFor; split; split <;> rfl; simp
@[simp] theorem State.countFor_waiters (s : State) (k e n : Nat) : (s.countFor k e n).waiters = s.waiters := by unfold State.countFor; split; split <;> rfl; simp
@[simp] theorem State.countFor_tasks (s : State) (k e n : Nat) : (s.countFor k e n).tasks = s.tasks := by unfold State.countFor; split; split <;> rfl; simp
@[simp] theorem State.countFor_taskNext (s : State) (k e n : Nat) : (s.countFor k e n).taskNext = s.taskNext := by unfold State.countFor; split; split <;> rfl; simp
@[simp] theorem State.countFor_passNext (s : State) (k e n : Nat) : (s.countFor k e n).passNext = s.passNext := by unfold State.countFor; split; split <;> rfl; simp
@[simp] theorem State.countFor_tensors (s : State) (k e n : Nat) : (s.countFor k e n).tensors = s.tensors := by unfold State.countFor; split; split <;> rfl; simp
@[simp] theorem State.countFor_bulletin (s : State) (k e n : Nat) : (s.countFor k e n).bulletin = s.bulletin := by unfold State.countFor; split; split <;> rfl; simp
@[simp] theorem State.countFor_shapes (s : State) (k e n : Nat) : (s.countFor k e n).shapes = s.shapes := by unfold State.countFor; split; split <;> rfl; simp
@[simp] theorem State.countFor_revoked (s : State) (k e n : Nat) : (s.countFor k e n).revoked = s.revoked := by unfold State.countFor; split; split <;> rfl; simp
@[simp] theorem State.countFor_rings (s : State) (k e n : Nat) : (s.countFor k e n).rings = s.rings := by unfold State.countFor; split; split <;> rfl; simp
@[simp] theorem State.countFor_lqs (s : State) (k e n : Nat) : (s.countFor k e n).lqs = s.lqs := by unfold State.countFor; split; split <;> rfl; simp
@[simp] theorem State.countFor_progs (s : State) (k e n : Nat) : (s.countFor k e n).progs = s.progs := by unfold State.countFor; split; split <;> rfl; simp
@[simp] theorem State.countFor_interps (s : State) (k e n : Nat) : (s.countFor k e n).interps = s.interps := by unfold State.countFor; split; split <;> rfl; simp
@[simp] theorem State.countFor_lastLq (s : State) (k e n : Nat) : (s.countFor k e n).lastLq = s.lastLq := by unfold State.countFor; split; split <;> rfl; simp
@[simp] theorem State.countFor_endpoints (s : State) (k e n : Nat) : (s.countFor k e n).endpoints = s.endpoints := by unfold State.countFor; split; split <;> rfl; simp
@[simp] theorem State.countFor_pkg (s : State) (k e n : Nat) : (s.countFor k e n).pkg = s.pkg := by unfold State.countFor; split; split <;> rfl; simp
@[simp] theorem State.countFor_boot (s : State) (k e n : Nat) : (s.countFor k e n).boot = s.boot := by unfold State.countFor; split; split <;> rfl; simp
@[simp] theorem State.countFor_spdm (s : State) (k e n : Nat) : (s.countFor k e n).spdm = s.spdm := by unfold State.countFor; split; split <;> rfl; simp
@[simp] theorem State.countFor_ide (s : State) (k e n : Nat) : (s.countFor k e n).ide = s.ide := by unfold State.countFor; split; split <;> rfl; simp
@[simp] theorem State.countFor_ideFails (s : State) (k e n : Nat) : (s.countFor k e n).ideFails = s.ideFails := by unfold State.countFor; split; split <;> rfl; simp
@[simp] theorem State.countFor_errors (s : State) (k e n : Nat) : (s.countFor k e n).errors = s.errors := by unfold State.countFor; split; split <;> rfl; simp
@[simp] theorem State.countFor_lasting (s : State) (k e n : Nat) : (s.countFor k e n).lasting = s.lasting := by unfold State.countFor; split; split <;> rfl; simp
@[simp] theorem State.countFor_outbox (s : State) (k e n : Nat) : (s.countFor k e n).outbox = s.outbox := by unfold State.countFor; split; split <;> rfl; simp
@[simp] theorem State.countFor_pktNext (s : State) (k e n : Nat) : (s.countFor k e n).pktNext = s.pktNext := by unfold State.countFor; split; split <;> rfl; simp
@[simp] theorem State.countFor_answers (s : State) (k e n : Nat) : (s.countFor k e n).answers = s.answers := by unfold State.countFor; split; split <;> rfl; simp
@[simp] theorem State.countFor_inflows (s : State) (k e n : Nat) : (s.countFor k e n).inflows = s.inflows := by unfold State.countFor; split; split <;> rfl; simp
@[simp] theorem State.countFor_verNext (s : State) (k e n : Nat) : (s.countFor k e n).verNext = s.verNext := by unfold State.countFor; split; split <;> rfl; simp
@[simp] theorem State.countFor_stamp (s : State) (k e n : Nat) : (s.countFor k e n).stamp = s.stamp := by unfold State.countFor; split; split <;> rfl; simp
@[simp] theorem State.countFor_scoreNext (s : State) (k e n : Nat) : (s.countFor k e n).scoreNext = s.scoreNext := by unfold State.countFor; split; split <;> rfl; simp
@[simp] theorem State.countFor_fresh (s : State) (k e n : Nat) : (s.countFor k e n).fresh = s.fresh := by unfold State.countFor; split; split <;> rfl; simp
@[simp] theorem State.countFor_cur (s : State) (k e n : Nat) : (s.countFor k e n).cur = s.cur := by unfold State.countFor; split; split <;> rfl; simp
@[simp] theorem State.countFor_curI (s : State) (k e n : Nat) : (s.countFor k e n).curI = s.curI := by unfold State.countFor; split; split <;> rfl; simp
@[simp] theorem State.countFor_turns (s : State) (k e n : Nat) : (s.countFor k e n).turns = s.turns := by unfold State.countFor; split; split <;> rfl; simp
@[simp] theorem State.countFor_rr (s : State) (k e n : Nat) : (s.countFor k e n).rr = s.rr := by unfold State.countFor; split; split <;> rfl; simp
@[simp] theorem State.countFor_held (s : State) (k e n : Nat) : (s.countFor k e n).held = s.held := by unfold State.countFor; split; split <;> rfl; simp
@[simp] theorem State.countFor_bells (s : State) (k e n : Nat) : (s.countFor k e n).bells = s.bells := by unfold State.countFor; split; split <;> rfl; simp
@[simp] theorem State.countFor_deficits (s : State) (k e n : Nat) : (s.countFor k e n).deficits = s.deficits := by unfold State.countFor; split; split <;> rfl; simp
@[simp] theorem State.countFor_tenants (s : State) (k e n : Nat) : (s.countFor k e n).tenants = s.tenants := by unfold State.countFor; split; split <;> rfl; simp
@[simp] theorem State.countFor_lastPick (s : State) (k e n : Nat) : (s.countFor k e n).lastPick = s.lastPick := by unfold State.countFor; split; split <;> rfl; simp
@[simp] theorem State.countFor_thr (s : State) (k e n j : Nat) : (s.countFor k e n).thr j = s.thr j := by simp [State.thr]
@[simp] theorem State.countFor_ctx (s : State) (k e n j : Nat) : (s.countFor k e n).ctx j = s.ctx j := by simp [State.ctx]

/-! ## Updates of the live frame -/

@[simp] theorem Thread.updLive_alive (t : Thread) (g : Frame → Frame) : (t.updLive g).alive = t.alive := rfl
@[simp] theorem Thread.updLive_cid (t : Thread) (g : Frame → Frame) : (t.updLive g).cid = t.cid := rfl
@[simp] theorem Thread.updLive_num (t : Thread) (g : Frame → Frame) : (t.updLive g).num = t.num := rfl
@[simp] theorem Thread.updLive_rank (t : Thread) (g : Frame → Frame) : (t.updLive g).rank = t.rank := rfl
@[simp] theorem Thread.updLive_gangSize (t : Thread) (g : Frame → Frame) : (t.updLive g).gangSize = t.gangSize := rfl
@[simp] theorem Thread.updLive_gang (t : Thread) (g : Frame → Frame) : (t.updLive g).gang = t.gang := rfl
@[simp] theorem Thread.updLive_priv (t : Thread) (g : Frame → Frame) : (t.updLive g).priv = t.priv := rfl
@[simp] theorem Thread.updLive_run (t : Thread) (g : Frame → Frame) : (t.updLive g).run = t.run := rfl
@[simp] theorem Thread.updLive_core (t : Thread) (g : Frame → Frame) : (t.updLive g).core = t.core := rfl
@[simp] theorem Thread.updLive_slot (t : Thread) (g : Frame → Frame) : (t.updLive g).slot = t.slot := rfl
@[simp] theorem Thread.updLive_placed (t : Thread) (g : Frame → Frame) : (t.updLive g).placed = t.placed := rfl
@[simp] theorem Thread.updLive_frozen (t : Thread) (g : Frame → Frame) : (t.updLive g).frozen = t.frozen := rfl
@[simp] theorem Thread.updLive_homed (t : Thread) (g : Frame → Frame) : (t.updLive g).homed = t.homed := rfl
@[simp] theorem Thread.updLive_want (t : Thread) (g : Frame → Frame) : (t.updLive g).want = t.want := rfl
@[simp] theorem Thread.updLive_reload (t : Thread) (g : Frame → Frame) : (t.updLive g).reload = t.reload := rfl
@[simp] theorem Thread.updLive_scratchG (t : Thread) (g : Frame → Frame) : (t.updLive g).scratchG = t.scratchG := rfl
@[simp] theorem Thread.updLive_live (t : Thread) (g : Frame → Frame) : (t.updLive g).live = g t.live := rfl
@[simp] theorem Thread.updLive_committed (t : Thread) (g : Frame → Frame) : (t.updLive g).committed = t.committed := rfl
@[simp] theorem Thread.updLive_saved (t : Thread) (g : Frame → Frame) : (t.updLive g).saved = t.saved := rfl
@[simp] theorem Thread.updLive_savedWb (t : Thread) (g : Frame → Frame) : (t.updLive g).savedWb = t.savedWb := rfl
@[simp] theorem Thread.updLive_savedAb (t : Thread) (g : Frame → Frame) : (t.updLive g).savedAb = t.savedAb := rfl
@[simp] theorem Thread.updLive_savedLent (t : Thread) (g : Frame → Frame) : (t.updLive g).savedLent = t.savedLent := rfl
@[simp] theorem Thread.updLive_savedTask (t : Thread) (g : Frame → Frame) : (t.updLive g).savedTask = t.savedTask := rfl
@[simp] theorem Thread.updLive_savedPromised (t : Thread) (g : Frame → Frame) : (t.updLive g).savedPromised = t.savedPromised := rfl
@[simp] theorem Thread.updLive_savedLines (t : Thread) (g : Frame → Frame) : (t.updLive g).savedLines = t.savedLines := rfl
@[simp] theorem Thread.updLive_taskNo (t : Thread) (g : Frame → Frame) : (t.updLive g).taskNo = t.taskNo := rfl
@[simp] theorem Thread.updLive_handleTask (t : Thread) (g : Frame → Frame) : (t.updLive g).handleTask = t.handleTask := rfl
@[simp] theorem Thread.updLive_outside (t : Thread) (g : Frame → Frame) : (t.updLive g).outside = t.outside := rfl
@[simp] theorem Thread.updLive_queues (t : Thread) (g : Frame → Frame) : (t.updLive g).queues = t.queues := rfl
@[simp] theorem Thread.updLive_qdepth (t : Thread) (g : Frame → Frame) : (t.updLive g).qdepth = t.qdepth := rfl
@[simp] theorem Thread.updLive_tickets (t : Thread) (g : Frame → Frame) : (t.updLive g).tickets = t.tickets := rfl
@[simp] theorem Thread.updLive_fences (t : Thread) (g : Frame → Frame) : (t.updLive g).fences = t.fences := rfl
@[simp] theorem Thread.updLive_scores (t : Thread) (g : Frame → Frame) : (t.updLive g).scores = t.scores := rfl
@[simp] theorem Thread.updLive_scratch (t : Thread) (g : Frame → Frame) : (t.updLive g).scratch = t.scratch := rfl
@[simp] theorem Thread.updLive_wb (t : Thread) (g : Frame → Frame) : (t.updLive g).wb = t.wb := rfl
@[simp] theorem Thread.updLive_ab (t : Thread) (g : Frame → Frame) : (t.updLive g).ab = t.ab := rfl
@[simp] theorem Thread.updLive_cb (t : Thread) (g : Frame → Frame) : (t.updLive g).cb = t.cb := rfl
@[simp] theorem Thread.updLive_promised (t : Thread) (g : Frame → Frame) : (t.updLive g).promised = t.promised := rfl
@[simp] theorem Thread.updLive_rounds (t : Thread) (g : Frame → Frame) : (t.updLive g).rounds = t.rounds := rfl
@[simp] theorem Thread.updLive_trap (t : Thread) (g : Frame → Frame) : (t.updLive g).trap = t.trap := rfl
@[simp] theorem Thread.updLive_heldLost (t : Thread) (g : Frame → Frame) : (t.updLive g).heldLost = t.heldLost := rfl
@[simp] theorem Thread.updLive_reports (t : Thread) (g : Frame → Frame) : (t.updLive g).reports = t.reports := rfl
@[simp] theorem Thread.updLive_wp (t : Thread) (g : Frame → Frame) : (t.updLive g).wp = t.wp := rfl
@[simp] theorem Thread.updLive_win (t : Thread) (g : Frame → Frame) : (t.updLive g).win = t.win := rfl
@[simp] theorem Thread.updLive_winFlow (t : Thread) (g : Frame → Frame) : (t.updLive g).winFlow = t.winFlow := rfl
@[simp] theorem Thread.updLive_flows (t : Thread) (g : Frame → Frame) : (t.updLive g).flows = t.flows := rfl
@[simp] theorem Thread.updLive_lines (t : Thread) (g : Frame → Frame) : (t.updLive g).lines = t.lines := rfl
@[simp] theorem Thread.updLive_versions (t : Thread) (g : Frame → Frame) : (t.updLive g).versions = t.versions := rfl
@[simp] theorem Thread.updLive_know (t : Thread) (g : Frame → Frame) : (t.updLive g).know = t.know := rfl
@[simp] theorem Thread.updLive_base (t : Thread) (g : Frame → Frame) : (t.updLive g).base = t.base := rfl
@[simp] theorem Thread.updLive_epoch (t : Thread) (g : Frame → Frame) : (t.updLive g).epoch = t.epoch := rfl
@[simp] theorem Thread.updLive_flagClk (t : Thread) (g : Frame → Frame) : (t.updLive g).flagClk = t.flagClk := rfl
@[simp] theorem Thread.updLive_setters (t : Thread) (g : Frame → Frame) : (t.updLive g).setters = t.setters := rfl
@[simp] theorem Thread.updLive_wait (t : Thread) (g : Frame → Frame) : (t.updLive g).wait = t.wait := rfl
@[simp] theorem Thread.updLive_idle (t : Thread) (g : Frame → Frame) : (t.updLive g).idle = t.idle := rfl
@[simp] theorem Thread.updLive_stepOn (t : Thread) (g : Frame → Frame) : (t.updLive g).stepOn = t.stepOn := rfl
@[simp] theorem Thread.updLive_toDbg (t : Thread) (g : Frame → Frame) : (t.updLive g).toDbg = t.toDbg := rfl
@[simp] theorem Thread.updLive_stopReq (t : Thread) (g : Frame → Frame) : (t.updLive g).stopReq = t.stopReq := rfl
@[simp] theorem Thread.updLive_preemptReq (t : Thread) (g : Frame → Frame) : (t.updLive g).preemptReq = t.preemptReq := rfl
@[simp] theorem Thread.updLive_resumePast (t : Thread) (g : Frame → Frame) : (t.updLive g).resumePast = t.resumePast := rfl
@[simp] theorem Thread.updLive_hits (t : Thread) (g : Frame → Frame) : (t.updLive g).hits = t.hits := rfl
@[simp] theorem Thread.updLive_sqPkt (t : Thread) (g : Frame → Frame) : (t.updLive g).sqPkt = t.sqPkt := rfl
@[simp] theorem Thread.updLive_sentG (t : Thread) (g : Frame → Frame) : (t.updLive g).sentG = t.sentG := rfl
@[simp] theorem Thread.updLive_clearV (t : Thread) (g : Frame → Frame) : (t.updLive g).clearV = t.clearV := rfl
@[simp] theorem Thread.updLive_serial (t : Thread) (g : Frame → Frame) : (t.updLive g).serial = t.serial := rfl
@[simp] theorem Thread.updLive_stepAt (t : Thread) (g : Frame → Frame) : (t.updLive g).stepAt = t.stepAt := rfl
@[simp] theorem Thread.updLive_replies (t : Thread) (g : Frame → Frame) : (t.updLive g).replies = t.replies := rfl
@[simp] theorem Thread.updLive_rdPkts (t : Thread) (g : Frame → Frame) : (t.updLive g).rdPkts = t.rdPkts := rfl
@[simp] theorem Thread.updLive_prefs (t : Thread) (g : Frame → Frame) : (t.updLive g).prefs = t.prefs := rfl
@[simp] theorem Thread.updLive_wrote (t : Thread) (g : Frame → Frame) : (t.updLive g).wrote = t.wrote := rfl
@[simp] theorem Thread.updLive_inval (t : Thread) (g : Frame → Frame) : (t.updLive g).inval = t.inval := rfl
@[simp] theorem Thread.updLive_ksvc (t : Thread) (g : Frame → Frame) : (t.updLive g).ksvc = t.ksvc := rfl
@[simp] theorem Thread.updLive_hist (t : Thread) (g : Frame → Frame) : (t.updLive g).hist = t.hist := rfl
@[simp] theorem Thread.updLive_wide (t : Thread) (g : Frame → Frame) : (t.updLive g).wide = t.wide := rfl
@[simp] theorem Thread.updLive_slotDone (t : Thread) (g : Frame → Frame) : (t.updLive g).slotDone = t.slotDone := rfl
@[simp] theorem Thread.updLive_kegAt (t : Thread) (g : Frame → Frame) : (t.updLive g).kegAt = t.kegAt := rfl
@[simp] theorem Thread.updLive_early (t : Thread) (g : Frame → Frame) : (t.updLive g).early = t.early := rfl

/-- Two updates of the live frame are one. -/
@[simp] theorem Thread.updLive_updLive (t : Thread) (f g : Frame → Frame) : (t.updLive f).updLive g = t.updLive fun x => g (f x) := rfl

/-! ## Scalar registers of a frame -/

/-- A write of a scalar register is read back, but for x0. -/
theorem Frame.rx_wx (f : Frame) (i j : BitVec 5) (v : XReg) :
    (f.wx i v).rx j = if j = 0#5 then default else if j = i then v else f.rx j := by
  unfold Frame.wx Frame.rx
  by_cases hj : j = 0#5
  · simp [hj]
  · by_cases hi : i = 0#5
    · subst hi; simp [hj]
    · by_cases h : j = i
      · subst h; simp [hj]
      · have : j.toNat ≠ i.toNat := fun e => h (BitVec.eq_of_toNat_eq e)
        simp [hj, hi, h, NMap.get_put_other _ _ this]

/-- x0 reads zero. -/
@[simp] theorem Frame.rx_zero (f : Frame) : f.rx 0#5 = default := rfl

/-- A write of x0 is discarded. -/
@[simp] theorem Frame.wx_zero (f : Frame) (v : XReg) : f.wx 0#5 v = f := rfl

@[simp] theorem Frame.wx_v (f : Frame) (i : BitVec 5) (v : XReg) : (f.wx i v).v = f.v := by unfold Frame.wx; split <;> rfl
@[simp] theorem Frame.wx_k (f : Frame) (i : BitVec 5) (v : XReg) : (f.wx i v).k = f.k := by unfold Frame.wx; split <;> rfl
@[simp] theorem Frame.wx_f (f : Frame) (i : BitVec 5) (v : XReg) : (f.wx i v).f = f.f := by unfold Frame.wx; split <;> rfl
@[simp] theorem Frame.wx_b (f : Frame) (i : BitVec 5) (v : XReg) : (f.wx i v).b = f.b := by unfold Frame.wx; split <;> rfl
@[simp] theorem Frame.wx_vtype (f : Frame) (i : BitVec 5) (v : XReg) : (f.wx i v).vtype = f.vtype := by unfold Frame.wx; split <;> rfl
@[simp] theorem Frame.wx_vstat (f : Frame) (i : BitVec 5) (v : XReg) : (f.wx i v).vstat = f.vstat := by unfold Frame.wx; split <;> rfl
@[simp] theorem Frame.wx_ctaint (f : Frame) (i : BitVec 5) (v : XReg) : (f.wx i v).ctaint = f.ctaint := by unfold Frame.wx; split <;> rfl
@[simp] theorem Frame.wx_csat (f : Frame) (i : BitVec 5) (v : XReg) : (f.wx i v).csat = f.csat := by unfold Frame.wx; split <;> rfl
@[simp] theorem Frame.wx_gsel (f : Frame) (i : BitVec 5) (v : XReg) : (f.wx i v).gsel = f.gsel := by unfold Frame.wx; split <;> rfl
@[simp] theorem Frame.wx_pc (f : Frame) (i : BitVec 5) (v : XReg) : (f.wx i v).pc = f.pc := by unfold Frame.wx; split <;> rfl
@[simp] theorem Frame.wx_phase (f : Frame) (i : BitVec 5) (v : XReg) : (f.wx i v).phase = f.phase := by unfold Frame.wx; split <;> rfl
@[simp] theorem Frame.wx_iter (f : Frame) (i : BitVec 5) (v : XReg) : (f.wx i v).iter = f.iter := by unfold Frame.wx; split <;> rfl
@[simp] theorem Frame.wx_task (f : Frame) (i : BitVec 5) (v : XReg) : (f.wx i v).task = f.task := by unfold Frame.wx; split <;> rfl
@[simp] theorem Frame.wx_epiTaken (f : Frame) (i : BitVec 5) (v : XReg) : (f.wx i v).epiTaken = f.epiTaken := by unfold Frame.wx; split <;> rfl
@[simp] theorem Frame.wx_bnd (f : Frame) (i : BitVec 5) (v : XReg) : (f.wx i v).bnd = f.bnd := by unfold Frame.wx; split <;> rfl

/-! ## Transfer of control in a frame -/

@[simp] theorem Frame.goto_x (f : Frame) (n : Nat) : (f.goto n).x = f.x := by unfold Frame.goto; split <;> (try split) <;> rfl
@[simp] theorem Frame.next_x (f : Frame) : f.next.x = f.x := Frame.goto_x f (f.pc + 1)
@[simp] theorem Frame.goto_v (f : Frame) (n : Nat) : (f.goto n).v = f.v := by unfold Frame.goto; split <;> (try split) <;> rfl
@[simp] theorem Frame.next_v (f : Frame) : f.next.v = f.v := Frame.goto_v f (f.pc + 1)
@[simp] theorem Frame.goto_k (f : Frame) (n : Nat) : (f.goto n).k = f.k := by unfold Frame.goto; split <;> (try split) <;> rfl
@[simp] theorem Frame.next_k (f : Frame) : f.next.k = f.k := Frame.goto_k f (f.pc + 1)
@[simp] theorem Frame.goto_f (f : Frame) (n : Nat) : (f.goto n).f = f.f := by unfold Frame.goto; split <;> (try split) <;> rfl
@[simp] theorem Frame.next_f (f : Frame) : f.next.f = f.f := Frame.goto_f f (f.pc + 1)
@[simp] theorem Frame.goto_b (f : Frame) (n : Nat) : (f.goto n).b = f.b := by unfold Frame.goto; split <;> (try split) <;> rfl
@[simp] theorem Frame.next_b (f : Frame) : f.next.b = f.b := Frame.goto_b f (f.pc + 1)
@[simp] theorem Frame.goto_vtype (f : Frame) (n : Nat) : (f.goto n).vtype = f.vtype := by unfold Frame.goto; split <;> (try split) <;> rfl
@[simp] theorem Frame.next_vtype (f : Frame) : f.next.vtype = f.vtype := Frame.goto_vtype f (f.pc + 1)
@[simp] theorem Frame.goto_vstat (f : Frame) (n : Nat) : (f.goto n).vstat = f.vstat := by unfold Frame.goto; split <;> (try split) <;> rfl
@[simp] theorem Frame.next_vstat (f : Frame) : f.next.vstat = f.vstat := Frame.goto_vstat f (f.pc + 1)
@[simp] theorem Frame.goto_ctaint (f : Frame) (n : Nat) : (f.goto n).ctaint = f.ctaint := by unfold Frame.goto; split <;> (try split) <;> rfl
@[simp] theorem Frame.next_ctaint (f : Frame) : f.next.ctaint = f.ctaint := Frame.goto_ctaint f (f.pc + 1)
@[simp] theorem Frame.goto_csat (f : Frame) (n : Nat) : (f.goto n).csat = f.csat := by unfold Frame.goto; split <;> (try split) <;> rfl
@[simp] theorem Frame.next_csat (f : Frame) : f.next.csat = f.csat := Frame.goto_csat f (f.pc + 1)
@[simp] theorem Frame.goto_gsel (f : Frame) (n : Nat) : (f.goto n).gsel = f.gsel := by unfold Frame.goto; split <;> (try split) <;> rfl
@[simp] theorem Frame.next_gsel (f : Frame) : f.next.gsel = f.gsel := Frame.goto_gsel f (f.pc + 1)
@[simp] theorem Frame.goto_iter (f : Frame) (n : Nat) : (f.goto n).iter = f.iter := by unfold Frame.goto; split <;> (try split) <;> rfl
@[simp] theorem Frame.next_iter (f : Frame) : f.next.iter = f.iter := Frame.goto_iter f (f.pc + 1)
@[simp] theorem Frame.goto_task (f : Frame) (n : Nat) : (f.goto n).task = f.task := by unfold Frame.goto; split <;> (try split) <;> rfl
@[simp] theorem Frame.next_task (f : Frame) : f.next.task = f.task := Frame.goto_task f (f.pc + 1)
@[simp] theorem Frame.goto_epiTaken (f : Frame) (n : Nat) : (f.goto n).epiTaken = f.epiTaken := by unfold Frame.goto; split <;> (try split) <;> rfl
@[simp] theorem Frame.next_epiTaken (f : Frame) : f.next.epiTaken = f.epiTaken := Frame.goto_epiTaken f (f.pc + 1)
@[simp] theorem Frame.goto_bnd (f : Frame) (n : Nat) : (f.goto n).bnd = f.bnd := by unfold Frame.goto; split <;> (try split) <;> rfl
@[simp] theorem Frame.next_bnd (f : Frame) : f.next.bnd = f.bnd := Frame.goto_bnd f (f.pc + 1)
@[simp] theorem Frame.rx_goto (f : Frame) (n : Nat) (i : BitVec 5) : (f.goto n).rx i = f.rx i := by simp [Frame.rx]
@[simp] theorem Frame.rx_next (f : Frame) (i : BitVec 5) : f.next.rx i = f.rx i := by simp [Frame.rx]

end Sys2Proof.Machine
end

