-- ==== Sys2Proof/Laws/Steps.lean ====
section
/-! SUPPORT. What the shared operations of the instructions do: a word of the sequencer, a word of an engine, an operation of an
interpreter, a host write, and what follows a word. -/

namespace Sys2Proof.Machine

/-! ## Words of the sequencer -/

/-- A word whose effect completes. -/
theorem sqWord_ok {body : Nat → M Unit} {s t : State} (h : s.Runs) (hb : body s.cur s = .ok ((), t)) :
    sqWord body s = .next (s.wordEnd t) := by
  simp [sqWord, h.1, h.2, hb, State.wordEnd]

/-- A word that traps with no effect. -/
theorem sqWord_trap {body : Nat → M Unit} {s : State} {tr : Trap} (h : s.Runs) (hb : body s.cur s = .error (.trap tr)) :
    sqWord body s = .next (s.takeTrap s.cur ((s.thr s.cur).sTrap tr)) := by
  simp [sqWord, h.1, h.2, hb]

/-- A word that waits with no effect. -/
theorem sqWord_stall {body : Nat → M Unit} {s : State} {k : WaitKind} (h : s.Runs) (hb : body s.cur s = .error (.stall k)) :
    sqWord body s = .next (s.wordWaits s.cur k) := by
  simp [sqWord, h.1, h.2, hb]

/-- A word of the sequencer never stops the machine. -/
theorem sqWord_next (body : Nat → M Unit) (s : State) : ∃ t, sqWord body s = .next t := by
  simp only [sqWord]
  split
  · exact ⟨_, rfl⟩
  · split <;> exact ⟨_, rfl⟩

/-- A word that changes only the register frame. -/
theorem sqWord_frame {s : State} (h : s.Runs) (g : Frame → Frame) :
    sqWord (fun key => modThr key fun t => t.updLive g) s = .next (s.frameWord g) := sqWord_ok h rfl

/-- An SC word writes its result and passes to the next word. -/
theorem scWord_runs {s : State} (h : s.Runs) (xd : BitVec 5) (res : Frame → XReg) :
    scWord xd res s = .next (s.frameWord fun f => (f.wx xd (res f)).next) := sqWord_frame h _

/-- A word of an engine never stops the machine. -/
theorem engineWord_next (e : Eng) (eff : Nat → QEntry → M Unit) (push : Nat → M Unit) (s : State) :
    ∃ t, engineWord e eff push s = .next t := by
  simp only [engineWord]
  split
  · exact ⟨_, rfl⟩
  · split <;> exact ⟨_, rfl⟩

/-- What ends a task boundary never stops the machine. -/
theorem finish_next (s : State) (a : W64) (p q : Bool) (u v w : State) :
    ∃ t, (if a = 0#64 then .next u else if p then .next v else if q then .next w else sqWord (fun key => boundaryB key a) s : Out) = .next t := by
  split_ifs
  · exact ⟨_, rfl⟩
  · exact ⟨_, rfl⟩
  · exact ⟨_, rfl⟩
  · exact sqWord_next _ _

/-- A task boundary never stops the machine. -/
theorem boundary_next (succ : Frame → M W64) (s : State) : ∃ t, boundary succ s = .next t := by
  simp only [boundary]
  split
  · exact ⟨_, rfl⟩
  · split
    · split
      · exact ⟨_, rfl⟩
      · split <;> exact ⟨_, rfl⟩
    · split
      · exact finish_next _ _ _ _ _ _ _
      · split
        · exact finish_next _ _ _ _ _ _ _
        all_goals exact ⟨_, rfl⟩

/-- An operation of an interpreter never stops the machine. -/
theorem spOp_next (f : State → Interp → Except SpEnd Interp) (s : State) : ∃ t, spOp f s = .next t := by
  simp only [spOp]
  split
  · exact ⟨_, rfl⟩
  · split
    · exact ⟨_, rfl⟩
    · split <;> exact ⟨_, rfl⟩

/-! ## Waits that are over -/

/-- An access waits for no ticket while none is live. -/
theorem settleOn_none {key : Nat} {s : State} (h : (s.thr key).liveTickets = 0#16) (paths : List Nat) (taint : BitVec 16) (sat : Bool) (live : BitVec 16) :
    settleOn key paths taint sat live s = .ok ((), s) := by
  simp [settleOn, h]

/-- No ticket is bound while none is live. -/
theorem bindTickets_none {key : Nat} {s : State} (h : (s.thr key).liveTickets = 0#16) (m : BitVec 16) : bindTickets key m s = .ok ((), s) := by
  simp [bindTickets, h]

theorem settleWrite_none {key : Nat} {s : State} (h : (s.thr key).liveTickets = 0#16) (l : List XReg) : settleWrite key l s = .ok ((), s) := by
  simp [settleWrite, settleOn_none h]

theorem settleSQ_none {key : Nat} {s : State} (h : (s.thr key).liveTickets = 0#16) (l : List XReg) : settleSQ key l s = .ok ((), s) := by
  simp [settleSQ, settleOn_none h]

/-- A thread without cached lines writes none back. -/
theorem writeBackLines_none {key : Nat} {s : State} (h : (s.thr key).lines = []) (p : Nat → Bool) : writeBackLines key p s = .ok ((), s) := by
  simp [writeBackLines, h, NMap.keys, forEach]

/-- A version without dependencies publishes at once. -/
theorem publish_ready {key ver : Nat} {s : State} (h : ((s.thr key).ver ver).deps = []) :
    publish key ver s = .ok ((), (s.commitWrites key ver).updThr key fun t => t.updVer ver fun w => { w with published := true, waiting := false, pend := none }) := by
  simp [publish, publishAs, State.depsReady, State.publishNow, State.commitCycle, h]

/-- The wait of a unit is not logged while the log is off. -/
theorem State.logWait_off {s : State} {key : Nat} (h : (s.ctx (s.thr key).cid).reg 0x120 = 0#64) (unit flag count kind group since : Nat) (who : Setter) :
    s.logWait key unit flag count kind group since who = s := by
  unfold Ctx.reg at h
  simp [State.logWait, h, wfld, fld]

/-! ## After a word -/

/-- What follows a word of a thread that is not single-stepped and has no watchpoint hit: its wait is over, the tick and PC are noted, and
a completed word is counted. -/
theorem State.wordDone_quiet {s : State} {key : Nat} (hs : (s.thr key).stepOn = false) (hh : (s.thr key).hits = []) (pc : W64) (ser : Nat) :
    s.wordDone key pc ser =
      (s.updThr key fun t => { t with wait := default, idle := s.tick, resumePast := false, early := [], stepAt := none }).countFor key 1 1 := by
  have e : (s.updThr key fun t => { t with
      wait := default, idle := s.tick, resumePast := false, early := [], stepAt := if t.stepOn then some (pc, ser) else none }) =
      s.updThr key fun t => { t with wait := default, idle := s.tick, resumePast := false, early := [], stepAt := none } := by
    simp [State.updThr, hs]
  simp only [State.wordDone, e]
  simp [State.takeHits, State.takeStep, State.countFor_thr, hh]

end Sys2Proof.Machine
end

