-- ==== Sys2Proof/Tests/Slice0.lean ====
section
/-! SUPPORT. Tests: words that decode as the spec encodes them, ill-formed instructions, single steps with values that spec/ works out,
and a state for the hypotheses of each statement. -/

section

set_option Elab.async false

open Sys2Proof Sys2Proof.Machine

/-! ## Small states -/

/-- A package with one context and one resident thread on core 0, at word 0 of an image of eight words, with a page of scratch. -/
def Sys2Proof.Tests.base : State :=
  { State.reset with
    boot := { (default : Boot) with running := true }, ctxs := [(0, fetchCtx)], threads := [(0, fetchThread)], cores := [(0, { (default : CoreSt) with overlay := [0] })],
    images := [(0, { (default : Image) with resident := true, text := List.replicate 8 0x02000000#32, dataBytes := 64, scratchG := 1 })], verNext := 2 }

/-- The base state with the thread changed. -/
def Sys2Proof.Tests.on (f : Thread → Thread) : State := Sys2Proof.Tests.base.updThr 0 f

/-- The base state with the frame changed. -/
def Sys2Proof.Tests.frm (f : Frame → Frame) : State := Sys2Proof.Tests.on fun t => { t with live := f t.live }

/-- The base state with values in x registers. -/
def Sys2Proof.Tests.xs (l : List (Nat × W64)) : State :=
  Sys2Proof.Tests.frm fun f => { f with x := l.foldl (fun m e => m.put e.1 { val := e.2, taint := 0, sat := false }) f.x }

/-- The state after an outcome that goes on. -/
def Sys2Proof.Tests.got (o : Out) : State :=
  match o with
  | .next t => t
  | _ => default

open Sys2Proof.Tests

/-- Words of the SC class, each composed from the fields of its row in spec/opcode_table.json. -/
theorem test_decode_sc : ∀ p ∈ ([
    (0x01E9E000, .add 29 7 16), (0x01A74C01, .sub 20 29 6), (0x0154F802, .and 10 19 28), (0x010A6403, .or 1 9 18), (0x01B7D004, .xor 22 31 8),
    (0x01657E05, .andn 12 21 31), (0x0112EA06, .orn 2 11 21), (0x01C09607, .xnor 24 2 11), (0x01760208, .shl 14 24 1),
    (0x012BAE09, .shr 5 14 23), (0x01D91A0A, .sra 27 4 13), (0x018E860B, .rol 17 26 3), (0x013C320C, .ror 7 16 25), (0x01E9A010, .mul 29 6 16),
    (0x019F0C11, .mulh 19 28 6), (0x014CF812, .mulhu 9 19 28), (0x01FA6413, .mulhsu 31 9 18), (0x01B7D014, .div 22 31 8),
    (0x01657C15, .divu 12 21 30), (0x0112E816, .rem 2 11 20), (0x01C05417, .remu 24 1 10), (0x0175C218, .min 14 23 1),
    (0x01236E19, .max 4 13 23), (0x01D11A1A, .minu 26 4 13), (0x0186861B, .maxu 16 26 3), (0x013C321C, .seq 7 16 25), (0x01E99E1D, .slt 29 6 15),
    (0x019F0A1E, .sltu 19 28 5), (0x014C8020, .clz 9 18), (0x01FA0021, .ctz 31 8), (0x01AF8022, .popc 21 30), (0x015D4023, .brev 11 21),
    (0x010AC224, .sext 1 11 .h), (0x01C04425, .zext 24 1 .w), (0x0275F620, .addi 14 23 13856), (0x03236556, .andi 4 13 9558),
    (0x04D0D48C, .ori 26 3 5260), (0x058643C3, .xori 16 25 963), (0x0633C039, .shli 6 15 57), (0x07E1802F, .shri 28 6 47),
    (0x08970025, .srai 18 28 37), (0x094C809B, .slti 9 18 155), (0x0AFA2FD1, .sltiu 31 8 12241), (0x0BAF9F07, .muli 21 30 7943),
    (0x1E58A4D4, .lis 11 42196), (0x1F0F940A, .lihs 1 496650)] : List (Nat × Instr)), decodeWord p.1 = .ok p.2 := by
  decide +kernel

/-- Words of the SB class, each composed from the fields of its row in spec/opcode_table.json. -/
theorem test_decode_sb : ∀ p ∈ ([
    (0x2170ECAA, .beq 23 1 27818), (0x22DBDBE0, .bne 13 23 23520), (0x2436CB16, .blt 3 13 19222), (0x27A1BA4C, .bge 26 3 14924),
    (0x290CA982, .bltu 16 25 10626), (0x2A6798B8, .bgeu 6 15 6328), (0x2DC01E85, .jal 28 7813), (0x2F2DF725, .jalr 18 27 30501),
    (0x30040000, .loop 8), (0x30100000, .knext), (0x30200000, .tend), (0x3035D004, .spawn 11 20 4), (0x30400061, .join 97),
    (0x30500097, .leave 151), (0x306000CD, .bar 205), (0x3071806C, .gqry 3 108), (0x30800000, .yield), (0x30978000, .tsub 15),
    (0x30A00000, .ckpt), (0x30BE0005, .movb 28 5), (0x30C00001, .gsel 1), (0x321200B1, .waitf 72 177), (0x325F81E7, .setf 126 487),
    (0x32AD0000, .clrf 180), (0x32FAA600, .waitfx 234 19), (0x33081400, .fread 32 10), (0x3560A640, .waitc 22 1 9 18), (0x361A0000, .tclr 13),
    (0x36401800, .tclrv 3), (0x36800000, .tclrc), (0x36DE0600, .tqry 15 24), (0x380282CE, .sysrd 5 718), (0x38106E04, .syswr 27 516),
    (0x382003D1, .trap 977), (0x38300307, .bkpt 775), (0x38400000, .eret), (0x385A7400, .tlbinv 20 29), (0x38654C01, .wpset 10 19 1),
    (0x38700001, .wpclr 1), (0x388B008F, .cntclaim 22 143), (0x38900064, .cntrel 100), (0x38A13000, .kegsave 2 12), (0x38BC0800, .kegload 24 2),
    (0x38C78018, .flowdef 15 24), (0x38D2B807, .winset 5 14 7)] : List (Nat × Instr)), decodeWord p.1 = .ok p.2 := by
  decide +kernel

/-- Words of the SM class, each composed from the fields of its row in spec/opcode_table.json. -/
theorem test_decode_sm : ∀ p ∈ ([
    (0x4191A297, .ld .d 4 13 663), (0x42E871CD, .ldu .h 26 3 4557), (0x44C34103, .st .h 16 26 259), (0x471A0E80, .lds .w 6 16 .panel .acq),
    (0x49F4D100, .sts .d 29 6 .pod .rel), (0x4A99F001, .atomw 9 19 28 .add .path .acq), (0x4C14C846, .atomd 1 9 18 .and .thread .rel),
    (0x4F6FA006, .casw 22 31 8 .thread .rel), (0x50CAF80B, .casd 12 21 30 .core .ar), (0x52855640, .fence 66 171 .core),
    (0x5500314B, .pref .rlc 1 4427), (0x56DC2000, .rcm .wb 23 1)] : List (Nat × Instr)), decodeWord p.1 = .ok p.2 := by
  decide +kernel

/-- Words of the VL class, each composed from the fields of its row in spec/opcode_table.json. -/
theorem test_decode_vl : ∀ p ∈ ([
    (0x6123B920, .vld 36 14 7 288), (0x62D11B80, .vlds 26 4 13 6 .e8), (0x648EA359, .vldx 17 26 35 1 false 3 1), (0x663C0000, .vbindi 7 16),
    (0x69E80000, .vunbindi 61), (0x6B9F2D2F, .vldt 51 28 5 1327), (0x6D4CA465, .vldb 41 18 4 1125), (0x7E5F6400, .vlwait 95 200),
    (0x7F95FF80, .vlset 149 511)] : List (Nat × Instr)), decodeWord p.1 = .ok p.2 := by
  decide +kernel

/-- Words of the VS class, each composed from the fields of its row in spec/opcode_table.json. -/
theorem test_decode_vs : ∀ p ∈ ([
    (0xA05D7207, .vst 11 21 6 519), (0xA212E940, .vsts 2 11 20 5 .e8), (0xA5C04AF7, .vstx 56 1 10 3 true 2 7), (0xA775C000, .vbindo 46 23),
    (0xA9200000, .vunbindo 36), (0xAAD0EE16, .vstt 26 3 5 1558), (0xAC866353, .vatoma 16 25 35 .f32 1 .cluster), (0xAE340800, .vstrw 6 16 1),
    (0xBE7C7300, .vswait 124 230), (0xBFB30E00, .vsset 179 28)] : List (Nat × Instr)), decodeWord p.1 = .ok p.2 := by
  decide +kernel

/-- Words of the VA class, each composed from the fields of its row in spec/opcode_table.json. -/
theorem test_decode_va : ∀ p ∈ ([
    (0x80D2976E, .vadd 41 18 59 3 true false), (0x813E462D, .vsub 31 8 49 3 false true), (0x81ABF4E6, .vmul 21 62 39 1 true false),
    (0x8217A3DD, .vfma 11 52 30 7 false true), (0x82835296, .vfnma 1 42 20 5 true false), (0x836F094D, .vmin 55 33 10 3 false true),
    (0x83DAB826, .vmax 45 23 1 1 true false), (0x8448681A, .vabs 36 13 6 true), (0x84B4180C, .vneg 26 3 3 false),
    (0x8521CC4D, .vdiv 16 57 34 3 false true), (0x858D7804, .vsqrt 6 47 1 false), (0x8679281E, .vrsq 60 37 7 true),
    (0x86E4D814, .vexp2 50 27 5 false), (0x8750900E, .vlog2 40 18 3 true), (0x87BC4004, .vfclass 30 8 1 false),
    (0x88553A0A, .vcmp 5 .lt 39 16 2 true false), (0x8897A3AA, .vsel 11 52 29 2 true false), (0x89035275, .vand 1 42 19 5 false true),
    (0x89EF012E, .vor 55 32 9 3 true false), (0x8A5AB025, .vxor 45 22 1 1 false true), (0x8AC666DE, .vshl 35 12 54 7 true false),
    (0x8B321D95, .vshr 25 3 44 5 false true), (0x8B9FCC4E, .vsra 15 57 34 3 true false), (0x8C0D7EF5, .vcvt 6 47 .n16 .sr 21),
    (0x8CF929C0, .vpack 60 37 .n32), (0x8D64D9E2, .vunpk 50 27 .n64 true), (0x8DD08806, .vred 40 17 .add 1 true),
    (0x8E3C3806, .vargmax 30 7 1 true), (0x8EA9ECE6, .vperm 20 61 39 1 true false), (0x8F15A758, .vrot 10 52 29 6 false),
    (0x8F82028C, .vbcast 1 10 3), (0x906F0248, .vextr 55 32 9 2 false), (0x90DA0008, .viota 45 2), (0x91466016, .vmov 35 12 5 true),
    (0x9180C840, .vdrop 25 2), (0x921FC00A, .vcnt 15 56 2 true), (0x928B7306, .vmix 5 46 24 1 true false), (0x9377281A, .vunif 59 37 6 true),
    (0x93E2D896, .vaddx 49 27 4 5 true false), (0x94508F4D, .vmulx 40 17 58 3 false true), (0x94BC3E06, .vfmax 30 7 48 1 true false),
    (0x954B8400, .kop 4 5 6 1), (0x9594C000, .kpopc 10 3), (0x96000080, .vsett 128), (0x966C0000, .vsettXa 22),
    (0x96D8B01E, .vtagr 44 22 7 true), (0x9744601A, .vrnd 34 12 .rne 6 true), (0x97B2156D, .vscale 25 2 43 3 false true),
    (0x9F83EF00, .vawait 15 376), (0x9FD155C0, .vaset 69 174)] : List (Nat × Instr)), decodeWord p.1 = .ok p.2 := by
  decide +kernel

/-- Words of the MX class, each composed from the fields of its row in spec/opcode_table.json. -/
theorem test_decode_mx : ∀ p ∈ ([
    (0xC0842000, .mclaim .ab 2 1), (0xC31B2000, .mrel .cb 13 9), (0xC417A380, .mxfer .wb 11 26 14), (0xC6E9E000, .mldw 29 7 16),
    (0xC89F4CF0, .mlda 19 29 6 15), (0xCA56790F, .mpass 10 51 12 true 15), (0xCC0D2405, .mpassat 1 41 2 false 5),
    (0xCEDF4480, .mdrain 6 31 8 18 .f32), (0xD18AF900, .mdrainv 12 21 30 8), (0xD24D7C00, .mdrainp 2 3 5 30), (0xD50EA000, .mzero 7 5),
    (0xD6770100, .mldv 14 56 1), (0xDE043700, .mxwait 4 110), (0xDF3BD200, .mxset 59 420)] : List (Nat × Instr)), decodeWord p.1 = .ok p.2 := by
  decide +kernel

/-- Words of the CP class, each composed from the fields of its row in spec/opcode_table.json. -/
theorem test_decode_cp : ∀ p ∈ ([
    (0xE11D0CAC, .cpl 17 26 3 172), (0xE27864E3, .cpt 7 16 25 227), (0xE5D33C19, .cpg 29 6 15 25), (0xE73E184F, .cps 19 28 6 79),
    (0xE89970EE, .cpstg 9 18 28 false 238), (0xEBF4CA24, .cpred 31 9 18 .i32 36), (0xED5FA35A, .cpfill 21 31 8 .d 90),
    (0xEECAF991, .cptag 12 21 30 true 145), (0xF02580F4, .cpsig 2 11 244), (0xF380A894, .cpconv 24 1 10 148), (0xFE8E7B80, .cpwait 142 247),
    (0xFFC41680, .cpset 196 45)] : List (Nat × Instr)), decodeWord p.1 = .ok p.2 := by
  decide +kernel

/-- Operations of sparge programs, each composed from the fields of its row in spec/opcode_table.json (R317). -/
theorem test_decode_sparge : ∀ p ∈ ([
    (0x8B63D601, .pld .w 2915 13 6), (0x11300A02, .qld 4400 10), (0x00661903, .tld 102 1 9), (0xEF9D6F04, .tst 61341 6 15),
    (0x883C5E05, .est .w 2108 5 14), (0xCE090206, .li 52745 2), (0xBD3F0807, .lih 48447 8), (0x00005E08, .mov 5 14),
    (0x0000B409, .spargeAdd 11 4), (0x00001B0A, .spargeSub 1 11), (0x0000710B, .spargeAnd 7 1), (0x0000E70C, .spargeOr 14 7),
    (0x00004D0D, .spargeXor 4 13), (0x47BA030E, .spargeAddi 18362 3), (0x36F0090F, .spargeShli 14064 9), (0x26260F10, .spargeShri 9766 15),
    (0x0000C511, .ceq 12 5), (0x00002C12, .cltu 2 12), (0x00008213, .clt 8 2), (0xE2FF0814, .bz 58111 8), (0xD2350E15, .bnz 53813 14),
    (0xC16B0016, .jmp 49515), (0x508A0017, .spargeLoop 161 10), (0x00000018, .elaunch), (0x00000019, .egang), (0x0000001A, .etile),
    (0x0000001B, .ecopy), (0x0000001C, .esignal), (0x0000001D, .efence), (0x3B1C001E, .reject 15132), (0x0000001F, .done)] : List (Nat × Instr)), decodeSparge p.1 = .ok p.2 := by
  decide +kernel


/-- The encodings that the rules of spec/ work out, beside those of the obligation `WordsDecodeAsSpecified`. -/
theorem test_decode_worked : ∀ p ∈ ([
    (0x50742417, .casd 7 8 9 .pkg .ar), (0x52082020, .fence 4 0x10 .thread), (0x64228790, .vldx 4 10 7 2 false 2 0),
    (0xAC1A8755, .vatoma 3 10 7 .f32 1 .pkg), (0x38D29803, .winset 5 6 3), (0x38C28001, .flowdef 5 1), (0x38828003, .cntclaim 5 3),
    (0x38900003, .cntrel 3), (0x38A52C00, .kegsave 10 11), (0x38B63400, .kegload 12 13), (0x8E124000, .vargmax 9 8 0 false),
    (0x8C0A21E6, .vcvt 5 4 .e4m3 .sr 6), (0x8F8601C0, .vbcast 3 7 0), (0x9514E000, .kop 1 2 3 8), (0x96000080, .vsett 0x80),
    (0x9F824040, .vawait 9 2), (0x32700001, .setf 192 1), (0x360E0000, .tclr 7), (0x36800000, .tclrc), (0x36D20140, .tqry 9 5),
    (0x38028006, .sysrd 5 6), (0x3820002A, .trap 0x2A), (0x38300000, .bkpt 0), (0x38552C00, .tlbinv 10 11), (0x38652C02, .wpset 10 11 2),
    (0x38700002, .wpclr 2), (0xC1042000, .mclaim .cb 2 1), (0xD00494C0, .mdrainv 0 9 5 6), (0xD24D0000, .mdrainp 2 3 4 0),
    (0xEEB51404, .cptag 11 10 5 false 4), (0x30100000, .knext), (0x30200000, .tend), (0x30800000, .yield), (0x30400001, .join 1),
    (0x30600001, .bar 1), (0x30C00001, .gsel 1), (0x30B5000F, .movb 10 15)] : List (Nat × Instr)), decodeWord p.1 = .ok p.2 := by
  decide +kernel

/-- A word whose fields are all zero has no meaning for these seven words, for each breaks a constraint (R29, R30). -/
theorem test_decode_refuses_zero_fields : ∀ w ∈ ([0x52000000, 0x56000000, 0x88000000, 0x95000000, 0xC0000000, 0xC2000000, 0xD4000000] : List Nat),
    (match decodeWord w with | .ok _ => false | .error _ => true) = true := by
  decide +kernel

/-! ## Ill-formed terms, one for each constraint -/

theorem test_wf_spawn_group_of_one : (Instr.spawn 12 10 1).wellFormed = false := by decide
theorem test_wf_spawn_group_of_nine : (Instr.spawn 12 10 9).wellFormed = false := by decide
theorem test_wf_gsel_past_tables : (Instr.gsel 0x200).wellFormed = false := by decide
theorem test_wf_counter_bank_past_143 : (Instr.cntclaim 1 144).wellFormed = false ∧ (Instr.cntrel 144).wellFormed = false := by decide
theorem test_wf_ldu_of_eight_bytes : (Instr.ldu .d 1 2 0).wellFormed = false := by decide
theorem test_wf_lds_release : (Instr.lds .w 1 2 .pkg .rel).wellFormed = false ∧ (Instr.lds .w 1 2 .pkg .ar).wellFormed = false := by decide
theorem test_wf_sts_acquire : (Instr.sts .w 1 2 .pkg .acq).wellFormed = false ∧ (Instr.sts .w 1 2 .pkg .ar).wellFormed = false := by decide
theorem test_wf_fence_empty_masks : (Instr.fence 0 1 .pkg).wellFormed = false ∧ (Instr.fence 1 0 .pkg).wellFormed = false := by decide
theorem test_wf_masks_of_two_operand_words : ∀ i ∈ [Instr.vadd 1 2 3 4 false false, .vsub 1 2 3 4 false false, .vmul 1 2 3 4 false false,
    .vfma 1 2 3 4 false false, .vfnma 1 2 3 4 false false, .vmin 1 2 3 4 false false, .vmax 1 2 3 4 false false, .vdiv 1 2 3 4 false false,
    .vcmp 1 .eq 2 3 4 false false, .vand 1 2 3 4 false false, .vor 1 2 3 4 false false, .vxor 1 2 3 4 false false, .vshl 1 2 3 4 false false,
    .vshr 1 2 3 4 false false, .vsra 1 2 3 4 false false, .vperm 1 2 3 4 false false, .vmix 1 2 3 4 false false, .vaddx 1 2 3 4 false false,
    .vmulx 1 2 3 4 false false, .vfmax 1 2 3 4 false false, .vscale 1 2 3 4 false false], i.wellFormed = false := by decide
theorem test_wf_masks_of_one_operand_words : ∀ i ∈ [Instr.vabs 1 2 4 false, .vneg 1 2 4 false, .vsqrt 1 2 4 false, .vrsq 1 2 4 false,
    .vexp2 1 2 4 false, .vlog2 1 2 4 false, .vfclass 1 2 4 false, .vrot 1 2 3 4 false, .vextr 1 2 3 4 false, .vmov 1 2 4 false,
    .vcnt 1 2 4 false, .vunif 1 2 4 false, .vtagr 1 2 4 false, .vrnd 1 2 .rne 4 false], i.wellFormed = false := by decide
theorem test_wf_vcmp_into_k0 : (Instr.vcmp 0 .eq 2 3 0 false false).wellFormed = false := by decide
theorem test_wf_kop_into_k0 : (Instr.kop 0 1 2 8).wellFormed = false := by decide
theorem test_wf_vcvt_random_register_without_sr : (Instr.vcvt 5 4 .e4m3 .rne 6).wellFormed = false := by decide
theorem test_wf_vsett_reserved_type : (Instr.vsett 7).wellFormed = false := by decide
theorem test_wf_vsett_reserved_rounding : (Instr.vsett 0x50).wellFormed = false := by decide
theorem test_wf_mclaim_of_none : (Instr.mclaim .wb 1 0).wellFormed = false := by decide
theorem test_wf_mclaim_past_the_handles : (Instr.mclaim .cb 15 2).wellFormed = false ∧ (Instr.mclaim .wb 63 2).wellFormed = false := by decide
theorem test_wf_mrel_of_none_or_past : (Instr.mrel .wb 1 0).wellFormed = false ∧ (Instr.mrel .cb 16 1).wellFormed = false := by decide
theorem test_wf_mxfer_past_the_handles : (Instr.mxfer .cb 16 1 0).wellFormed = false ∧ (Instr.mxfer .cb 0 1 16).wellFormed = false := by decide
theorem test_wf_mzero_of_none_or_past : (Instr.mzero 1 0).wellFormed = false ∧ (Instr.mzero 16 1).wellFormed = false := by decide


/-- The base state with a translation: tables in frame 1, and flat addresses 0 to 2 GiB at the same places of HBM; the context owns frames
1 to 4, so that 0x20000 to 0x4FFFF may be read and written. -/
def Sys2Proof.Tests.mapd : State :=
  { base with
    ctxs := [(0, { fetchCtx with desc := fetchCtx.desc.put 1 0x10000, slotmap := [(0, 1)] })]
    frames := [(1, 0x3000), (2, 0x1000), (3, 0x1000), (4, 0x1000)]
    hbm := { cells := [(0x10000, 0x01), (0x10001, 0x40), (0x10002, 0x01), (0x14000, 0x1D)], tags := [] } }

/-- The mapped state with the thread changed. -/
def Sys2Proof.Tests.onM (f : Thread → Thread) : State := mapd.updThr 0 f

/-- The mapped state with values in x registers. -/
def Sys2Proof.Tests.xsM (l : List (Nat × W64)) : State :=
  onM fun t => { t with live := { t.live with x := l.foldl (fun m e => m.put e.1 { val := e.2, taint := 0, sat := false }) t.live.x } }

/-- Whether an outcome goes on. -/
def Sys2Proof.Tests.goes (o : Out) : Bool :=
  match o with
  | .next _ => true
  | _ => false

/-- A part of an outcome of a computation that answers. -/
def Sys2Proof.Tests.ends {α β : Type} (r : Except Stop (α × State)) (d : β) (f : α → State → β) : β :=
  match r with
  | .ok p => f p.1 p.2
  | .error _ => d

/-! ## States that meet the hypotheses of the statements, clause by clause -/

theorem witness_ScalarImmediateResults : base.Runs := by decide

theorem witness_ScalarRegisterResults : base.Runs ∧
    ((base.thr 0).rx 1).val.toNat = 0 ∧ (((xs [(1, 0xF0)]).thr 0).rx 1).val.toNat ≠ 0 := by decide

theorem witness_FrameWordsKeepTheRest : base.Quiet ∧ goes (exec (.add 0 1 2) base) = true ∧ goes (exec (.add 31 1 2) base) = true := by
  decide +kernel

/-- Conditions that hold and fail, and targets at the ends of the image and past them. -/
theorem witness_ControlTransfers : base.Runs ∧ (base.text (base.thr 0)).length = 8 ∧ (base.thr 0).live.pc = 0 ∧
    ((xs [(1, 5)]).thr 0).rx 1 ≠ ((xs [(1, 5)]).thr 0).rx 2 ∧ (7 : BitVec 15).toInt = 7 ∧ (8 : BitVec 15).toInt = 8 ∧
    (-1 : BitVec 15).toInt = -1 ∧ (7 : BitVec 20).toInt = 7 ∧ (-1 : BitVec 20).toInt = -1 ∧
    ((((xs [(1, 8)]).thr 0).rx 1).val + (-1 : BitVec 15).signExtend 64).toNat = 7 ∧
    ((((xs [(1, 8)]).thr 0).rx 1).val + (0 : BitVec 15).signExtend 64).toNat = 8 := by decide

theorem witness_RegisterReadsAndTaintWords : base.Runs ∧ base.Quiet ∧ 0 < (1 : BitVec 8).toNat ∧ (191 : BitVec 8).toNat < 192 := by decide

/-- The flag f1 of the thread at a value. -/
def Sys2Proof.Tests.flagAt (v : W32) : State := frm fun f => { f with f := f.f.put 1 v, x := f.x.put 1 { val := 3, taint := 0, sat := false } }

/-- Values of the flag below the count and at it, and a flag of the group range with no group selected. -/
theorem witness_FlagWords : (flagAt 2).Settled ∧ (flagAt 3).Settled ∧ (flagAt 2).LogOff ∧ (flagAt 3).LogOff ∧
    (flagAt 2).waiters = [] ∧ (flagAt 3).waiters = [] ∧
    (3 : BitVec 9).toNat ≤ (((flagAt 3).thr 0).live.f.get 1).toNat ∧ (((flagAt 2).thr 0).live.f.get 1).toNat < (3 : BitVec 9).toNat ∧
    (((flagAt 3).thr 0).rx 1).val.toNat % 2 ^ 32 ≤ (((flagAt 3).thr 0).live.f.get 1).toNat ∧
    (((flagAt 2).thr 0).live.f.get 1).toNat < (((flagAt 3).thr 0).rx 1).val.toNat % 2 ^ 32 ∧
    192 ≤ (192 : BitVec 8).toNat ∧ (base.thr 0).live.gsel = none := by
  and_intros <;> decide +kernel

/-- The base thread in group 1, which it has selected, with flag f255 at 2. -/
def Sys2Proof.Tests.selS : State :=
  let s := frm fun f => { f with gsel := some 1, x := [(1, { val := 3, taint := 0, sat := false })] }
  { s with ctxs := s.ctxs.put 0 { (s.ctx 0) with groups := [(1, { (default : Group) with members := [(0, false)], flags := [(63, 2)] })] } }

/-- Counts of 2 and 3 against a group flag at 2. -/
theorem witness_FlagWords_group : selS.Settled ∧ selS.LogOff ∧ 192 ≤ (255 : BitVec 8).toNat ∧ (selS.thr 0).live.gsel = some 1 ∧ selS.waiters = [] ∧
    (((selS.ctx 0).groups.get 1).flags.get (255 - 192)).toNat = 2 ∧ (2 : BitVec 9).toNat ≤ 2 ∧ 2 < (3 : BitVec 9).toNat ∧
    ((selS.thr 0).rx 2).val.toNat % 2 ^ 32 ≤ 2 ∧ 2 < ((selS.thr 0).rx 1).val.toNat % 2 ^ 32 := by
  and_intros <;> decide +kernel

/-- The base state with a group 1 of given members. -/
def Sys2Proof.Tests.grp (m : NMap Bool) : State :=
  { base with ctxs := base.ctxs.put 0 { (base.ctx 0) with groups := [(1, { (default : Group) with members := m })] } }

theorem witness_GroupsAndBarriers : (∀ m ∈ ([[], [(0, false)], [(0, false), (7, false)]] : List (NMap Bool)),
      (grp m).Quiet ∧ (grp m).Settled ∧ (grp m).LogOff ∧ ((grp m).thr 0).wait.kind = .running) ∧
    (((grp []).ctx 0).groups.get 1).members.has 0 = false ∧ (((grp [(0, false)]).ctx 0).groups.get 1).members = [(0, false)] ∧
    (((grp [(0, false)]).ctx 0).groups.get 1).gen.toNat < 2 ^ 64 - 1 ∧
    (((grp [(0, false), (7, false)]).ctx 0).groups.get 1).members.has 0 = true ∧
    (7, false) ∈ (((grp [(0, false), (7, false)]).ctx 0).groups.get 1).members := by
  and_intros <;> decide +kernel

/-- A group of three whose other members have arrived, or one of them not. -/
theorem witness_GroupsAndBarriers_many : ∀ m ∈ ([[(0, false), (7, true), (9, true)], [(0, false), (7, false), (9, true)]] : List (NMap Bool)),
    (grp m).Quiet ∧ (grp m).Settled ∧ (grp m).LogOff ∧ ((grp m).thr 0).wait.kind = .running ∧ m.Rising ∧ m.has 0 = true ∧ m.has 7 = true ∧
    (((grp m).ctx 0).groups.get 1).members = m ∧ (((grp m).ctx 0).groups.get 1).gen.toNat < 2 ^ 64 - 1 ∧ ((m.get 7 = true ∧ m.get 9 = true) ∨ m.get 7 = false) := by
  decide +kernel

/-- The base state in the kernel phase of a task. -/
def Sys2Proof.Tests.kern (trip : W64) (commit : W32) : State :=
  frm fun f => { f with phase := .kernel, task := { f.task with trip := trip, commit := commit, epiPc := 3 } }

theorem witness_KernelIterationsAndCommits : (frm fun f => { f with phase := .epilogue }).Settled ∧
    ((frm fun f => { f with phase := .epilogue }).thr 0).live.phase ≠ .kernel ∧ base.Settled ∧ (base.thr 0).versions = [freshVersion 1 fetchRec] ∧
    (∀ s ∈ [kern 1 0, kern 2 0, kern 9 4], s.Settled ∧ (s.thr 0).live.phase = .kernel ∧ (s.thr 0).stopReq = false ∧ (s.thr 0).preemptReq = none ∧
      ((s.thr 0).live.task.commit = 0 ∨ ((s.thr 0).live.iter + 1).toNat % (s.thr 0).live.task.commit.toNat ≠ 0)) ∧
    ((kern 1 0).thr 0).curVer.use ≤ (kern 1 0).budgetOf 0 ((kern 1 0).thr 0).curVer ∧
    ((kern 2 0).thr 0).curVer.use ≤ (kern 2 0).budgetOf 0 ((kern 2 0).thr 0).curVer ∧
    ((kern 9 4).thr 0).curVer.use ≤ (kern 9 4).budgetOf 0 ((kern 9 4).thr 0).curVer := by
  and_intros <;> decide +kernel

/-- The base state with a loop record at the start of the scratch, of an image that the context is granted, and registers. -/
def Sys2Proof.Tests.recd (limit : Nat) : State :=
  let s := on fun t => { t with
    scratch := { cells := [(0, 1), (8, 2), (16, 3), (24, 2)], tags := [] }
    live := { t.live with x := [(1, { val := 0xFE00000000000000, taint := 0, sat := false }), (31, { val := 0xFE00000000000000, taint := 0, sat := false })],
                          task := { t.live.task with next := 0xFE00000000000000 } } }
  { s with ctxs := [(0, { fetchCtx with slotmap := [(0, 0)], desc := fetchCtx.desc.put 2 (BitVec.ofNat 64 limit) })] }

/-- The last task of the base state; a successor in the record; a record to spawn, with room in the context and none. -/
theorem witness_TasksAndThreadsBegin :
    (base.Settled ∧ (base.thr 0).versions = [freshVersion 1 fetchRec] ∧ (freshVersion 1 fetchRec).deps = [] ∧ (base.thr 0).live.bnd = none ∧
      (base.ctx 0).groups = [] ∧ (base.thr 0).live.task.next = 0 ∧ ((base.thr 0).rx 7).val = 0) ∧
    ((recd 65536).Settled ∧ ((recd 65536).thr 0).live.bnd = none ∧ ((recd 65536).thr 0).live.task.next = 0xFE00000000000000 ∧
      (((recd 65536).thr 0).rx 1).val = 0xFE00000000000000 ∧ (((recd 65536).thr 0).rx 31).val = 0xFE00000000000000) ∧
    ends (boundaryA 0 0xFE00000000000000 (recd 65536)) false (fun _ a => a.cur == 0 && decide a.Quiet && !(a.thr 0).stopReq &&
      (a.thr 0).preemptReq.isNone && ends (readRecord 0 0xFE00000000000000 a) false fun r b => b.successorFits 0 r.slot &&
        (b.thr 0).hits.isEmpty && !(b.thr 0).stepOn) = true ∧
    ends (readRecord 0 0xFE00000000000000 (recd 65536)) false (fun _ a => decide a.Quiet && a.cur == 0 && (a.thr 0).cid == 0 &&
      decide (a.liveThreads 0 + 1 ≤ (a.ctx 0).threadLimit) && ((a.thr 0).ver ((recd 65536).thr 0).curVer.id).deps.isEmpty &&
      ends (publish 0 ((recd 65536).thr 0).curVer.id a) false fun _ x => x.freeNum 0 0 == some 1) = true ∧
    ends (readRecord 0 0xFE00000000000000 (recd 1)) false (fun _ a => decide ((a.ctx 0).threadLimit < a.liveThreads 0 + 1)) = true := by
  and_intros <;> decide +kernel

/-- The same record with a PC of 257, outside the text. -/
def Sys2Proof.Tests.recBad : State := (recd 65536).updThr 0 fun t => { t with scratch := { t.scratch with cells := [(0, 1), (1, 1), (8, 1), (9, 1), (16, 3), (17, 1), (24, 2), (25, 1)] } }

/-- A computation ends in a trap. -/
def Sys2Proof.Tests.trapsIn {α : Type} (r : Except Stop (α × State)) : Bool :=
  match r with
  | .error (.trap _) => true
  | _ => false

/-- A record that fails its checks and one that cannot be read, and a gang of three to spawn. -/
theorem witness_TasksAndThreadsBegin_more :
    recBad.Settled ∧ (recBad.thr 0).versions = [freshVersion 1 fetchRec] ∧ (recBad.thr 0).live.bnd = none ∧
    ends (boundaryA 0 0xFE00000000000000 recBad) false (fun _ a => a.cur == 0 && decide a.Quiet && !(a.thr 0).stopReq && (a.thr 0).preemptReq.isNone &&
      trapsIn (readRecord 0 0xFE00000000000000 a)) = true ∧
    ends (boundaryA 0 0xFE00000000004000 (recd 65536)) false (fun _ a => a.cur == 0 && decide a.Quiet && !(a.thr 0).stopReq && (a.thr 0).preemptReq.isNone &&
      trapsIn (readRecord 0 0xFE00000000004000 a)) = true ∧
    ends (readRecord 0 0xFE00000000000000 (recd 65536)) false (fun _ a => decide a.Quiet && a.cur == 0 && (a.thr 0).cid == 0 &&
      decide (a.liveThreads 0 + 3 ≤ (a.ctx 0).threadLimit) && ((a.thr 0).ver ((recd 65536).thr 0).curVer.id).deps.isEmpty && (a.thr 0).lines.isEmpty &&
      decide a.threads.Rising && decide (a.threads.length + (a.ctx 0).quarantine.length + 3 ≤ 65536)) = true := by
  and_intros <;> decide +kernel

/-- The base state with an entry in the queue of VL. -/
def Sys2Proof.Tests.queued : State := on fun t => { t with queues := [(1, { entries := [default], pushed := 1 })] }

theorem witness_WaitsFencesAndHintsPass : base.Runs ∧ base.places = [] ∧ PrefTarget.l1 ≠ .rlc ∧
    base.prefLine base.cur (((base.thr 0).rx 1).val + (0 : BitVec 13).signExtend 64).toNat = none ∧ base.Settled ∧ ((base.thr 0).rx 1).val = 0 ∧ queued.Runs ∧
    (0 : BitVec 5) ≠ 31 ∧ (0 : BitVec 5).toNat < ((queued.thr 0).queue .vl).entries.length ∧
    ((queued.thr 0).queue .vl).entries.Pairwise (fun a b => a.ser < b.ser) := by
  and_intros <;> decide +kernel

/-- The base thread with lines 2 and 3 of window 0 cached, the first dirty or not, and a range of the window in x1 and x2. -/
def Sys2Proof.Tests.linedS (d : BitVec 64) (n : W64) : State :=
  on fun t => { t with
    win := [(0, { target := 0x8000000500000000, limit := 1, inflight := 0 })]
    lines := [(lineKey 0 2, { data := 0, valid := true, dirty := d }), (lineKey 0 3, { data := 0, valid := true, dirty := 0 })]
    live := { t.live with x := [(1, { val := 0xFE00000002000080, taint := 0, sat := false }), (2, { val := n, taint := 0, sat := false })] } }

/-- A range of one line, clean or dirty; one that begins at a place that is no window's; and one of more than 2 MiB. -/
theorem witness_WaitsFencesAndHints_rcm : (linedS 0 64).Quiet ∧ ((linedS 0 64).thr 0).liveTickets = 0#16 ∧ (linedS 1 64).Quiet ∧ ((linedS 1 64).thr 0).liveTickets = 0#16 ∧
    (((linedS 0 64).thr 0).rx 2).val ≠ 0 ∧
    (match classify (linedS 0 64) 0 0xFE00000002000080 with | .ok (some (.remote 0, o)) => o == 128 | _ => false) = true ∧
    (match classify (linedS 0 64) 0 (0xFE00000002000080 + 64 - 1) with | .ok (some (.remote 0, o)) => o == 191 | _ => false) = true ∧
    (∀ l ∈ ((linedS 0 64).thr 0).lines, l.2.dirty = 0) ∧ (linedS 0 64).outbox = [] ∧
    (match classify base 0 0 with | .ok none => true | _ => false) = true ∧ 2097152 < (0x200001 : W64).toNat := by
  and_intros <;> decide +kernel

/-- The base state with addresses of its scratch in x1, and values in x2 and x3. -/
def Sys2Proof.Tests.scr (off : Nat) : State := xs [(1, scratchVa off), (2, 0x1122334455667788), (3, 0)]

/-- A memory without tags holds no POISON block. -/
theorem sound_of_untagged (m : Memory) (h : m.tags = []) (a : Nat) : isPoison (m.tag a) = false := by
  simp [Memory.tag, h, NMap.get]
  decide

theorem ownScratch_of_untagged (s : State) (off n : Nat) (h : (s.thr s.cur).scratch.tags = [])
    (hr : 0 < n ∧ off + n ≤ (s.thr s.cur).scratchG * 16384 ∧ off + n ≤ 2097152 ∧ off % 16384 + n ≤ 16384 ∧ (s.thr s.cur).wp = [] ∧
      (∀ p ∈ s.threads, p.2.scores = []) ∧ (s.thr s.cur).scratch.wf = true ∧ (s.thr s.cur).early = []) : s.OwnScratch off n :=
  ⟨hr.1, hr.2.1, hr.2.2.1, hr.2.2.2.1, hr.2.2.2.2.1, hr.2.2.2.2.2.1, sound_of_untagged _ h, hr.2.2.2.2.2.2⟩

theorem witness_PlainAccessesComplete : (scr 16).Settled ∧
    ((((scr 16).thr 0).rx 1).val + (0 : BitVec 13).signExtend 64).toNat = 0xFE00000000000010 ∧
    ends (readSpans (smReq (scr 16) 0 false 0) [(0xFE00000000000010, 8)] (scr 16)) false
      (fun l a => l.length == 8 && (a.thr 0).freeTicket == some 0 && (a.thr 0).hits.isEmpty) = true ∧
    (((scr 16).thr 0).rx 2).val.toNat = 0x1122334455667788 ∧
    ends (writeSpans (smReq (scr 16) 0 false 0) [(0xFE00000000000010, 8)] (natLE 8 0x1122334455667788) (scr 16)) false (fun _ a => (a.thr 0).hits.isEmpty) = true := by
  and_intros <;> decide +kernel

/-- The first and the last bytes of the granule. -/
theorem witness_ScratchAccessesMoveBytes : (scr 0).Settled ∧ (scr 0).OwnScratch 0 8 ∧ (scr 16376).Settled ∧ (scr 16376).OwnScratch 16376 8 ∧
    (scr 0).MayWrite 128 ∧ (((scr 0).thr 0).rx 1).val = scratchVa 0 ∧ ((scr 0).thr 0).tickets = [] ∧ (2 : BitVec 5) ≠ 0 := by
  and_intros <;> first | decide +kernel | exact sound_of_untagged _ (by decide +kernel)

theorem witness_MarkedScratchAccesses : (scr 8).Settled ∧ (∀ z : Size, (scr 8).OwnScratch 8 (sizeBytes z)) ∧ (scr 8).MayWrite 128 ∧
    Scope.cluster.code ≤ 3 ∧ (∀ z : Size, 8 % sizeBytes z = 0) ∧ (((scr 8).thr 0).rx 1).val = scratchVa 8 ∧ ((scr 8).thr 0).tickets = [] ∧
    (scr 7).Settled ∧ (((scr 7).thr 0).rx 1).val.toNat % sizeBytes .h ≠ 0 ∧ (((scr 7).thr 0).rx 1).val.toNat % 4 ≠ 0 ∧
    (((scr 7).thr 0).rx 1).val.toNat % 8 ≠ 0 ∧ 3 < Scope.die.code := by
  and_intros <;> first
    | decide +kernel
    | (intro z; cases z <;> decide)
    | exact fun z => ownScratch_of_untagged _ _ _ (by decide +kernel) (by cases z <;> and_intros <;> decide +kernel)

/-- The base state with a privilege, a holder and control of counter bank 0, and another thread that x1 and DBG_TARGET name. -/
def Sys2Proof.Tests.privd (p : Nat) : State :=
  let s := on fun t => { t with
    priv := p
    rank := if p = 2 then some 1 else none
    live := { t.live with x := [(1, { val := 1, taint := 0, sat := false })], gsel := if p = 2 then some 3 else none } }
  { s with banks := [(0, { (default : Bank) with holder := 2, ctl := 6 })]
           threads := s.threads.put 1 { fetchThread with num := 1, run := .trapped }
           ctxs := [(0, { fetchCtx with regs := [(0x160, 1)] })] }

theorem witness_SystemRegisters : (privd 0).Quiet ∧ (privd 2).Quiet ∧ (1 : BitVec 5) ≠ 0 ∧ (privd 0).cur < passBase ∧ ((privd 0).thr 0).rank = none ∧
    ((privd 2).thr 0).rank = some 1 ∧ ((privd 0).thr 0).live.gsel = none ∧ ((privd 2).thr 0).live.gsel = some 3 ∧
    (((privd 2).thr 0).queue .va).entries = [] ∧ 1 ≤ ((privd 1).thr 0).priv ∧ 2 ≤ ((privd 2).thr 0).priv ∧ (privd 1).Settled ∧ (privd 2).Settled ∧
    ((privd 1).banks.get 0).holder = ((privd 1).thr 0).cid + 2 ∧ ((privd 1).banks.get 0).ctl.getLsbD 0 = false ∧
    (((privd 1).thr 0).rx 2).val.getLsbD 0 = false ∧
    ((privd 1).thr (0 * 65536 + (((privd 1).ctx 0).regs.get 0x160).toNat % 65536)).alive = true ∧
    0 * 65536 + (((privd 1).ctx 0).regs.get 0x160).toNat % 65536 ≠ (privd 1).cur ∧
    ((({ privd 1 with banks := [], revoked := [(0, { (default : Bank) with ctl := 1 })] } : State).catchUp 0).banks.get 0).holder ≠ 0 + 2 ∧
    ({ privd 1 with banks := [], revoked := [(0, { (default : Bank) with ctl := 1 })] } : State).revoked.has (0 * 256 + 0) = true ∧
    base.revoked.has (0 * 256 + 0) = false ∧ ((base.catchUp 0).banks.get 0).holder ≠ 0 + 2 ∧
    (((privd 1).catchUp 0).banks.get 0).holder = 0 + 2 := by
  and_intros <;> decide +kernel

theorem witness_SystemWordTraps : (privd 0).Runs ∧ ((privd 0).thr 0).priv = 0 ∧ ((privd 1).thr 0).priv < 2 ∧ (143 : BitVec 10).toNat < 144 ∧
    144 ≤ (144 : BitVec 10).toNat ∧ base.Settled ∧ (base.thr 0).versions = [freshVersion 1 fetchRec] ∧ (freshVersion 1 fetchRec).id < 1048576 := by
  and_intros <;> decide +kernel

theorem witness_TrapsDiscardAndSave : 0 < passBase ∧ (base.thr 0).versions = [freshVersion 1 fetchRec] ∧ (freshVersion 1 fetchRec).published = false ∧
    (freshVersion 1 fetchRec).id < 1048576 ∧ ({ mkTrap 1 0 0 with ver := 1 } : Trap).ver = BitVec.ofNat 20 (freshVersion 1 fetchRec).id ∧
    (∀ p ∈ base.threads, ∀ w ∈ p.2.versions, w.deps = []) ∧ ({ mkTrap 1 0 0 with ver := 1 } : Trap).cause ∉ [4, 15, 16, 17, 18] := by
  and_intros <;> decide +kernel

/-- The base state with a trap queue of two slots in HBM, in a page that the context may write, and flag f5 of thread 1 as handler of cause 1. -/
def Sys2Proof.Tests.handled : State :=
  { privd 0 with
    hbm := mapd.hbm
    frames := mapd.frames
    ctxs := [(0, { (mapd.ctx 0) with regs := [(0x100, 0x20000), (0x101, 128), (0x104, 0x8000000000050001), (0x105, 2)] })] }

theorem witness_TrapsReachHandlerOrHost : (base.thr 0).toDbg = false ∧ ((base.ctx 0).regs.get 0x105).getLsbD 1 = false ∧
    (handled.thr 0).toDbg = false ∧ ((handled.ctx 0).regs.get 0x105).getLsbD 1 = true ∧
    (handled.ctx 0).regs.get 0x104 = BitVec.ofNat 64 (2 ^ 63 + 1 + (5 : BitVec 8).toNat * 65536) ∧ 1 ≠ (handled.thr 0).num ∧
    (handled.thr (0 * 65536 + 1)).alive = true ∧ (handled.ctx 0).regs.get 0x100 ≠ 0 ∧
    (handled.ctx 0).regs.get 0x100 &&& 0xFFF000000000003F = 0 ∧ 64 ≤ ((handled.ctx 0).regs.get 0x101).toNat ∧
    ((handled.ctx 0).regs.get 0x102).toNat - ((handled.ctx 0).regs.get 0x103).toNat < ((handled.ctx 0).regs.get 0x101).toNat / 64 ∧
    handled.ringWritable 0 (((handled.ctx 0).regs.get 0x100).toNat + 64 * (((handled.ctx 0).regs.get 0x102).toNat % (((handled.ctx 0).regs.get 0x101).toNat / 64))) = true ∧
    handled.waiters = [] := by
  and_intros <;> decide +kernel

theorem witness_TrapService : ((privd 1).thr (0 * 65536 + 1)).alive = true ∧ ((privd 1).thr (0 * 65536 + 1)).run = .trapped ∧
    ((privd 1).thr (0 * 65536 + 1)).gang = 0 ∧ (∀ w ∈ ((privd 1).thr (0 * 65536 + 1)).versions, w.undo = []) ∧
    ((privd 1).thr (0 * 65536 + 1)).cid = 0 ∧ ((privd 1).thr (0 * 65536 + 1)).num = 1 ∧ ((privd 1).ctx 0).groups = [] ∧
    (∀ p ∈ (privd 1).threads, ∀ w ∈ p.2.versions, w.deps = []) ∧ ((privd 1).thr 2).alive = false ∧ ((privd 1).thr 0).run ≠ .trapped ∧
    (privd 1).Settled ∧ 1 ≤ ((privd 1).thr 0).priv ∧ ((privd 1).thr 0).cid = 0 ∧ (((privd 1).thr 0).rx 1).val = BitVec.ofNat 64 1 ∧
    (privd 2).Settled ∧ ((privd 2).thr 0).priv = 2 ∧ ((privd 2).thr 0).versions = [freshVersion 1 fetchRec] ∧ ((privd 2).thr 0).live.bnd = none ∧
    ((privd 2).ctx 0).groups = [] ∧ ((privd 2).thr 0).live.task.next = 0 ∧ ((privd 2).thr 0).gang = 0 ∧
    (({ privd 2 with threads := (privd 2).threads.put 0 { (privd 2).thr 0 with ksvc := 1 } } : State).thr 0).ksvc = BitVec.ofNat 64 (0 * 65536 + 1) := by
  and_intros <;> decide +kernel

/-- A TLBINV of the base thread is under way, and the package holds these invalidations. -/
def Sys2Proof.Tests.invalS (l : List Inval) : State := { on fun t => { t with priv := 1, inval := some 3 } with invals := l }

/-- The clauses of the words of admin privilege, with their ranges at both ends, and those of windows. -/
theorem witness_ServiceWords : (privd 1).Settled ∧ 1 ≤ ((privd 1).thr 0).priv ∧ (((privd 1).thr 0).rx 2).val = 0 ∧
    (((xs [(1, 0x10000), (2, 0x20000)]).thr 0).rx 2).val ≠ 0 ∧
    ((((xs [(1, 0x10000), (2, 0x20000)]).thr 0).rx 1).val ||| (((xs [(1, 0x10000), (2, 0x20000)]).thr 0).rx 2).val).toNat % 65536 = 0 ∧
    (((xs [(1, 0x40), (2, 0x3040)]).thr 0).rx 2).val &&& 0x7FFF00000000C000 = 0 ∧ (((xs [(1, 0x40), (2, 0x3040)]).thr 0).rx 2).val &&& 0x3000 ≠ 0 ∧
    ((privd 1).thr 0).inval = none ∧ ((privd 1).thr 0).streamsDone = true ∧ (∀ l ∈ [[], [{ (default : Inval) with id := 3 }]], (invalS l).Settled ∧
      1 ≤ ((invalS l).thr 0).priv ∧ ((invalS l).thr 0).inval = some 3) ∧ (∀ i ∈ (invalS []).invals, i.id ≠ 3) ∧
    (∃ i ∈ (invalS [{ (default : Inval) with id := 3 }]).invals, i.id = 3) ∧
    (143 : BitVec 10).toNat < 144 ∧ ((privd 1).banks.get 0).holder = ((privd 1).thr 0).cid + 2 ∧
    (privd 1).banks = [(0, (privd 1).banks.get 0)] ∧ (on fun t => { t with priv := 1 }).Settled ∧ (on fun t => { t with priv := 1 }).banks = [] ∧
    ((base.ctx 0).desc.get 8).toNat % 32 = 0 ∧ base.outbox = [] ∧
    (((xs [(1, 0x1FFFF)]).thr 0).rx 1).val.toNat < 2 ^ 17 ∧ (((xs [(1, 0xFFFF), (2, 1023)]).thr 0).rx 2).val.toNat < 1024 ∧
    (xs [(1, 0xFFFF), (2, 1023)]).Settled := by
  and_intros <;> decide +kernel

theorem test_sm3_abc : sm3 [0x61, 0x62, 0x63] = [0x66, 0xc7, 0xf0, 0xf4, 0x62, 0xee, 0xed, 0xd9, 0xd1, 0xf2, 0xd4, 0x6b, 0xdc, 0x10, 0xe4, 0xe2,
    0x41, 0x67, 0xc4, 0x87, 0x5c, 0xf2, 0xf7, 0xa2, 0x29, 0x7d, 0xa0, 0x2b, 0x8f, 0x4b, 0xa8, 0xe0] := by decide +kernel

/-- The base state with a second context, of function 1, in a given STATE. -/
def Sys2Proof.Tests.two (st : Nat) : State :=
  { base with ctxs := [(0, fetchCtx), (1, { fetchCtx with desc := (newDesc 1 1).put 0 (BitVec.ofNat 64 (1 + 4096 + st * 2097152)) })], tick := 125000 }

/-- A package whose only context, 1 of function 1, has no threads. -/
def Sys2Proof.Tests.alone (st : Nat) : State :=
  { State.reset with boot := { (default : Boot) with running := true }, ctxs := (two st).ctxs.drop 1, tick := 125000 }

theorem witness_ContextCommands : base.TakesCommand 0 ∧ (base.ctx 1).stateOf = 0 ∧ (base.ctx 0).stateOf ≠ 0 ∧ base.Exists 0 ∧
    (∀ f ∈ ctxFields 16, f.2.2.1 ≤ (65536 : W64).toNat / 2 ^ f.1 % 2 ^ f.2.1 ∧ (65536 : W64).toNat / 2 ^ f.1 % 2 ^ f.2.1 ≤ f.2.2.2) ∧
    (∃ f ∈ ctxFields 16, (0 : W64).toNat / 2 ^ f.1 % 2 ^ f.2.1 < f.2.2.1 ∨ f.2.2.2 < (0 : W64).toNat / 2 ^ f.1 % 2 ^ f.2.1) ∧
    (two 1).TakesCommand 0 ∧ (two 1).Exists 1 ∧ (∀ p ∈ (two 1).threads, p.2.cid ≠ 1) ∧ (two 1).outbox = [] ∧ State.reset.ctxs = [] ∧
    (alone 1).ctxs = [(1, (alone 1).ctx 1)] ∧ ((alone 1).ctx 1).func = 1 ∧ ((alone 1).ctx 1).stateOf = 1 ∧ (alone 1).threads = [] ∧
    (alone 1).outbox = [] ∧ ((two 3).ctx 1).stateOf = 3 ∧ ((two 3).ctx 1).dyingAt + 125000 ≤ (two 3).tick ∧
    ({ two 3 with tick := 124999 } : State).tick < ((two 3).ctx 1).dyingAt + 125000 := by
  and_intros <;> decide +kernel

/-- The mapped state with a sealed frame, and a dirty bitmap of one granule. -/
def Sys2Proof.Tests.dirt : State :=
  { mapd with
    frames := [(1, 0x3000), (2, 0x1000), (3, 0x5000)]
    ctxs := [(0, { (mapd.ctx 0) with desc := ((mapd.ctx 0).desc.put 5 0x20000).put 7 1 })] }

theorem witness_FrameAndTranslationCommands : dirt.TakesCommand 0 ∧ dirt.frames.Rising ∧ 2 + 1 ≤ 2 ^ 24 ∧
    (∀ f ∈ dirt.frames, 2 ≤ f.1 → f.1 < 2 + 1 → f.2.getLsbD 14 = false) ∧ (∀ f, 2 ≤ f → f < 2 + 1 → dirt.framePinned f = false) ∧
    (∃ f ∈ dirt.frames, 3 ≤ f.1 ∧ f.1 < 3 + 1 ∧ f.2.getLsbD 14 = true) ∧ dirt.Exists 0 ∧
    ((0xFFFFFFFF0000 : W64).toNat % 65536 = 0 ∧ (0x10000 : W64).toNat % 65536 = 0 ∧ (0xFFFFFFFF0000 : W64).toNat + (0x10000 : W64).toNat ≤ 2 ^ 52) ∧
    dirt.hbm.wf = true ∧ dirt.host.wf = true ∧ (64 : W64).toNat % 8 = 0 ∧ 28 + 100 ≤ ((dirt.ctx 0).desc.get 7).toNat % 2 ^ 18 * 128 := by
  and_intros <;> decide +kernel

/-- Another thread of the base state: trapped, or waiting for a page. -/
def Sys2Proof.Tests.other (r : Run) : State := { base with threads := base.threads.put 1 { fetchThread with num := 1, run := r, placed := false } }

/-- A package whose only thread waits for the page of an address. -/
def Sys2Proof.Tests.parked : State := on fun t => { t with run := .parkedPage (mkTrap 4 0x12345 0), placed := false }

theorem witness_DeviceServiceCommands : (privd 0).TakesCommand 0 ∧ ((privd 0).banks.get 0).holder ≠ 1 ∧ 2 ≤ ((privd 0).banks.get 0).holder ∧
    ({ base with banks := [(143, { (default : Bank) with holder := 1 })] } : State).banks = [(143, { (default : Bank) with holder := 1 })] ∧
    144 ≤ 144 ∧ 255 < 256 ∧ (base.ctx 0).store = [] ∧ (other .trapped).TakesCommand 0 ∧ (other .trapped).Exists 0 ∧
    ((other .trapped).thr (0 * 65536 + 1)).alive = true ∧ ((other .trapped).thr (0 * 65536 + 1)).run = .trapped ∧
    ((other .trapped).thr (0 * 65536 + 1)).gang = 0 ∧ ((other .waiting).thr (0 * 65536 + 1)).run ≠ .trapped ∧
    ((other .trapped).thr (0 * 65536 + 2)).alive = false ∧ parked.TakesCommand 0 ∧ parked.Exists 0 ∧ parked.threads = [(0, parked.thr 0)] ∧
    (parked.thr 0).alive = true ∧ (parked.thr 0).run = .parkedPage (mkTrap 4 0x12345 0) ∧
    (0x10000 : W64).toNat ≤ (mkTrap 4 0x12345 0).addr.toNat ∧ (mkTrap 4 0x12345 0).addr.toNat < (0x10000 : W64).toNat + max (0x10000 : W64).toNat 1 ∧
    parked.tasks = [] ∧ parked.lqs = [] := by
  and_intros <;> decide +kernel

theorem witness_CommandChecks : base.TakesCommand 1 ∧ (base.ctx 0).func ≠ 1 ∧ base.TakesCommand 0 ∧ ¬ base.Exists 5 ∧
    (({ base with funcs := [(0, { Func.pfReset with pend := some (0x10, 5) })] } : State).func 0).pend = some (0x10, 5) ∧
    base.kegBusy 0 base.tick none (some 1) = false := by
  and_intros <;> decide +kernel

/-- The mapped state with a key for the context and its admin thread, a buffer in x1 and its length in x2. -/
def Sys2Proof.Tests.keyd (va len : W64) : State :=
  let s := onM fun t => { t with
    priv := 1
    live := { t.live with x := [(1, { val := va, taint := 0, sat := false }), (2, { val := len, taint := 0, sat := false })] } }
  { s with ctxs := [(0, { (mapd.ctx 0) with key := some 1, desc := (mapd.ctx 0).desc.put 14 1 })] }

/-- The state in which its only thread is trapped, so that a freeze of the context ends at once. -/
def Sys2Proof.Tests.still : State := (keyd 0x20000 0x1000).updThr 0 fun t => { t with run := .trapped, placed := false }

/-- A save whose freeze is complete has a result, whether the buffer is long enough or not. -/
theorem saveKeg_answers (s : State) (cid va len : Nat) (left : Option Nat) (hold mig : Bool) (h : (s.freezeStep cid left).1 = true) :
    (s.saveKeg cid left va len hold mig).1.isSome = true := by
  unfold State.saveKeg
  simp only [h]
  split
  · simp_all
  · split <;> rfl

/-- The keyed state once its thread has taken its turn for a keg word. -/
def Sys2Proof.Tests.keyd1 : State := (keyd 0x20000 0x1000).updThr 0 fun t => { t with kegAt := some 0 }

theorem witness_KegSavesAndLoads : (keyd 0x20000 0x1000).Settled ∧ 1 ≤ ((keyd 0x20000 0x1000).thr 0).priv ∧
    keyd1.kegBusy 0 ((((keyd 0x20000 0x1000).thr 0).kegAt).getD (keyd 0x20000 0x1000).tick) (some 0) none = false ∧ 0x20000 % 64 = 0 ∧
    ends (releaseAll 0 .other keyd1) false (fun _ a => (bufferFail a 0 0x20000 0x1000 true).isNone && (bufferFail a 0 0x20000 0x1000 false).isNone &&
      ends (publish 0 ((keyd 0x20000 0x1000).thr 0).curVer.id a) false fun _ b => (b.freezeStep 0 (some 0)).1) = true ∧
    (((keyd 0x20000 0x1000).thr 0).rx 2).val &&& 0x7FFFFF0000000000 = 0 ∧ ((keyd 0x20000 0x1000).ctx 0).freezing = none ∧
    ((keyd 0x20000 0x1000).ctx 0).saveFail = none ∧ still.TakesCommand 0 ∧ still.Exists 0 ∧ still.kegBusy 0 still.tick none (some 0) = false ∧
    bufferFail still 0 0x20000 0x1000 true = none ∧ ((still.withWords 0 [cw 0, 0x20000, 0x1000, 0]).freezeStep 0 none).1 = true ∧
    (still.freezeStep 0 none).1 = true ∧ ((still.freezeStep 0 none).2.ctx 0).store = [] ∧ (still.freezeStep 0 none).2.tasks = [] ∧
    (still.freezeStep 0 none).2.inflows = [] := by
  and_intros <;> decide +kernel

/-- The keyed context held FROZEN, and with a relay. -/
def Sys2Proof.Tests.heldC : State :=
  { still with ctxs := [(0, { ((still.ctx 0).withState 2) with holding := true, relay := some (1, 1), awaitEnd := true })] }

theorem witness_MigrationCommands : heldC.TakesCommand 0 ∧ heldC.Exists 0 ∧ (heldC.ctx 0).holding = true ∧ (heldC.ctx 0).store = [] ∧ heldC.tasks = [] ∧
    (still.ctx 0).holding = false ∧ (still.ctx 0).key = some 1 ∧ (still.ctx 0).reserved = none ∧ (still.ctx 0).handed = false ∧
    (still.ctx 0).heldSave = false ∧ (match flatPiece still 0 0x20000 65536 with | .ok p => decide (p.tgt = .hbm) | .error _ => false) = true ∧
    (heldC.ctx 0).stateOf = 2 ∧ (still.ctx 0).stateOf ≠ 2 ∧ (heldC.ctx 0).relay.isSome = true ∧ (two 1).TakesCommand 0 ∧ (two 1).Exists 1 ∧
    ((two 1).ctx 1).stateOf = 1 ∧ (two 1).liveThreads 1 = 0 ∧ ((two 1).ctx 1).saveCount.toNat ≤ (0 : W64).toNat ∧
    (0 : W64).toNat < (({ two 1 with ctxs := [(1, ((two 1).ctx 1).withSaveCount 1)] } : State).ctx 1).saveCount.toNat ∧
    (heldC.ctx 0).awaitEnd = true ∧ heldC.inflows = [] ∧ heldC.kegBusy 0 heldC.tick none (some 0) = false ∧
    still.kegBusy 0 still.tick none (some 0) = false := by
  and_intros <;> decide +kernel

/-- Whether the identity of a peer verifies is a value of Config that nothing states: one of the two cases holds. -/
theorem witness_MigrationCommands_peer : Config.peerVerified 1 = true ∨ Config.peerVerified 1 = false := by
  cases Config.peerVerified 1 <;> decide

/-- The keyed context frozen, with a flow to it on which packet 1 waits for packet 0. -/
def Sys2Proof.Tests.flowing : State :=
  { still with
    endpoints := [(5, { pkg := 0, cid := 0, gen := 0, st := 0 })]
    ctxs := [(0, (still.ctx 0).withState 2)]
    inflows := [{ (default : InFlow) with ep := 5, srcEp := 9, flow := 1, next := 0, waiting := [{ (default : InPkt) with h := { (default : FabHdr) with ep := 5, srcEp := 9, flow := 1, seq := 1, ordered := true } }] }] }

theorem witness_MigrationCommands_flows : flowing.TakesCommand 0 ∧ flowing.Exists 0 ∧ (flowing.ctx 0).stateOf = 2 ∧
    flowing.kegBusy 0 flowing.tick none (some 0) = false ∧ (flowing.inflows.filter fun f =>
      decide ((flowing.endpoints.get f.ep.toNat).pkg = flowing.pkg.self) && decide ((flowing.endpoints.get f.ep.toNat).cid = 0)) = flowing.inflows := by
  and_intros <;> decide +kernel

/-- The base state with an image of one word at the start of host memory, and another that nothing runs in slot 1. -/
def Sys2Proof.Tests.slots : State :=
  { mapd with
    images := mapd.images.put 1 (mapd.images.get 0)
    host := { cells := [(0, 0x50), (1, 0x56), (2, 0x49), (3, 0x4D), (4, 1), (8, 1), (12, 64), (20, 1), (24, 0xDA), (25, 0x62), (26, 0x0B), (27, 0x56), (28, 0xED), (29, 0x24), (30, 0x3F), (31, 0xE2),
                        (33, 1), (36, 0x40), (37, 1), (40, 0x80), (41, 1), (44, 0x80), (45, 1), (259, 2)], tags := [] } }

theorem witness_ModelSlotCommands : slots.TakesCommand 0 ∧ (slots.images.get 2).resident = false ∧ (0x30000 : W64).toNat % 65536 = 0 ∧
    (0x30000 : W64).toNat < 2 ^ 52 ∧
    (match parseImage (slots.host.bytes 0 448) 2 0x30000 with
      | some p => p.psafe.isEmpty && decide (p.data.length ≤ 2 ^ 26) && decide (p.text = [0x02000000#32])
      | none => false) = true ∧
    sameHashSame (slots.images.flatMap fun i => i.2.psafe.map fun e => (e.2.2.2, i.2.programWords e)) = true ∧
    slots.frames.length + 1024 < 2 ^ 24 ∧ slots.Exists 0 ∧ slots.images.Rising ∧ (slots.images.get 1).resident = true ∧ slots.slotRuns 1 = false ∧
    (slots.images.get 0).resident = true ∧ slots.slotRuns 0 = true := by
  and_intros <;> decide +kernel

/-- The base state in a power state, with ring 0 of the PF as given. -/
def Sys2Proof.Tests.bell (p : Nat) (r : Ring) : State :=
  { base with
    pkg := { base.pkg with powerState := BitVec.ofNat 64 p }, rings := [(0, r)], progs := [(0, { (default : SpProg) with loaded := true })] }

/-- An enabled ring of 64 slots. -/
def Sys2Proof.Tests.ring64 : Ring := { (default : Ring) with log2 := 6, enable := true }

theorem witness_DoorbellsAndEnables : (bell 0 ring64).Hears 0 ∧ 0 < ((bell 0 ring64).func 0).ringCount ∧ 131071 < ((bell 0 ring64).func 0).ringCount ∧
    (bell 0 ring64).powerIn ≠ 3 ∧ (bell 1 ring64).powerIn = 1 ∧ (bell 3 ring64).powerIn = 3 ∧ (bell 3 ring64).Hears 0 ∧
    ((bell 0 ring64).ring 0 0).enable = true ∧ ((64 : W32) - ((bell 0 ring64).ring 0 0).head).toNat ≤ 2 ^ ((bell 0 ring64).ring 0 0).log2 ∧
    2 ^ ((bell 0 ring64).ring 0 0).log2 < ((65 : W32) - ((bell 0 ring64).ring 0 0).head).toNat ∧
    1 ≤ ((([0x10, 1, 0, 0] ++ List.replicate 60 0 : List Byte)[1]?).getD 0).toNat ∧ ([0x10, 1, 0, 0] ++ List.replicate 60 0 : List Byte).length = 64 * 1 ∧
    ([0x10, 4] ++ List.replicate 254 0 : List Byte).length = 64 * 4 ∧
    (((bell 0 ring64).ring 0 0).tail + BitVec.ofNat 32 4 - ((bell 0 ring64).ring 0 0).head).toNat ≤ 2 ^ ((bell 0 ring64).ring 0 0).log2 ∧
    ((bell 0 ring64).func 0).ringCount ≤ 131072 ∧ (1 : W64).getLsbD 0 = true ∧ (2 : W64).getLsbD 0 = false ∧
    (bell 0 ring64).ownsCtx 0 ((bell 0 ring64).ring 0 0).cid = true ∧ ((bell 0 ring64).ring 0 0).lq < ((bell 0 ring64).func 0).lqCount ∧
    ((bell 0 ring64).lq 0 0).cid = ((bell 0 ring64).ring 0 0).cid ∧ 6 ≤ ((bell 0 ring64).ring 0 0).log2 ∧
    ((bell 0 ring64).ringsOf 0 0).length < 64 ∧ 8191 < ((bell 0 ring64).func 0).lqCount ∧
    (bell 0 ring64).ownsCtx 0 ((bell 0 ring64).lq 0 0).cid = true ∧ ((bell 0 ring64).prog 0 ((bell 0 ring64).lq 0 0).program).loaded = true := by
  and_intros <;> decide +kernel

/-- A state with a sealed tensor of one tile, a shape class for it, and a pass-safe program at word 3 of image 0. -/
def Sys2Proof.Tests.msh : State :=
  { mapd with
    images := [(0, { (mapd.images.get 0) with psafe := [(3, 2, 0, 0xABCD)] })]
    tensors := [{ (default : Tensor) with va := 0x40000, wid := 7, kt := 1, nt := 1, k := 16, n := 16, chunks := [0x40000, 0x44000] }]
    shapes := [(0, (0x8001000100100010, 1))] }

/-- The descriptor of a tile task of one row, with source 0x30000, destination 0x38000 and f5 as its flag. -/
def Sys2Proof.Tests.tileD : List Byte :=
  (⟨[(0, 0xCD), (1, 0xAB), (8, 7), (30, 1), (36, 5), (42, 3), (49, 0x80), (50, 3), (56, 64)], []⟩ : Memory).bytes 0 64

/-- Logical queue 0 of the PF as given, over the state with the tensor. -/
def Sys2Proof.Tests.lqS (q : LQueue) : State :=
  { msh with lqs := [(0, q)], rings := [(0, { ring64 with base := 0x1000, tail := 1 })], host := { cells := [(0x1001, 1)], tags := [] } }

/-- An enabled queue with one emission released. -/
def Sys2Proof.Tests.emit (k : EmitKind) : LQueue := { (default : LQueue) with enable := true, released := [⟨k, 0, 0, 0⟩] }

/-- A packet of one slot. -/
def Sys2Proof.Tests.pkt1 : Pkt := { (default : Pkt) with slots := 1, bytes := [0x10, 1] ++ List.replicate 62 0 }

theorem witness_HostQueuesAdvance : (lqS (emit .fence)).fwHeld = false ∧ (lqS (emit .fence)).stopped = false ∧ (lqS (emit .fence)).powerIn = 0 ∧
    (lqS { (default : LQueue) with enable := true }).lqs = [(lqKey 0 0, { (default : LQueue) with enable := true })] ∧ ((lqS (emit .fence)).ctx 0).stateOf = 1 ∧
    0 < ((lqS (emit .fence)).func 0).lqCount ∧ (lqS (emit .fence)).interps = [] ∧
    (lqS (emit .fence)).rings = [(ringKey 0 0, { ring64 with base := 0x1000, tail := 1 })] ∧
    (lqS (emit .fence)).host.byte (0x1000 + 1) = 1 ∧ ((lqS (emit .fence)).ctx 0).freezing = none ∧ 1 ≤ ((pkt1.bytes[1]?).getD 0).toNat ∧
    (emit .fence).copies = [] ∧ (emit .fence).starting = [] ∧ (lqS (emit (.signal 0 1 5))).waiters = [] ∧
    ((lqS (emit (.signal 0 1 5))).thr (0 * 65536 + 0)).alive = true ∧ launchFail (lqS (emit (.launch 0 0 none []))) 0 0 0 false = none ∧
    (lqS (emit (.launch 0 0 none []))).freeNum 0 0 = some 1 ∧ (lqS (emit (.launch 0 0 none []))).places = [] ∧
    (lqS (emit (.tile tileD 0))).descFail 0 false true tileD = none ∧ (lqS (emit (.tile tileD 0))).tasks = [] ∧
    ({ em := ⟨.copy 0 0 0 0 1, 0, 0, 0⟩, done := 0, page := none, cov := [] } : HostCopy).em.kind = .copy 0 0 0 0 1 := by
  and_intros <;> decide +kernel

/-- The state with the tensor, and a copy of 512 bytes under way on queue 0. -/
def Sys2Proof.Tests.copying : State :=
  let s := lqS { (default : LQueue) with enable := true, copies := [{ em := ⟨.copy 0x30000 0x20000 512 0 5, 0, 0, 0⟩, done := 0, page := none, cov := [] }] }
  s.updCtx 0 fun c => { c with desc := c.desc.put 4 0x100000000 }

/-- A copy of one chunk from one page that may be read to another that may be written. -/
theorem witness_HostQueuesAdvance_chunk : copying.fwHeld = false ∧ copying.powerIn = 0 ∧ copying.stopped = false ∧ (copying.ctx 0).stateOf = 1 ∧
    copying.lqs = [(lqKey 0 0, copying.lq 0 0)] ∧ (copying.lq 0 0).enable = true ∧ (copying.lq 0 0).copies.length = 1 ∧
    (match flatPiece copying 0 0x20000 512, flatPiece copying 0 0x30000 512 with
      | .ok a, .ok b => decide (a.tgt = .hbm) && decide (b.tgt = .hbm) && a.leaf.rd && b.leaf.wr && !b.leaf.granary && !b.leaf.dt
      | _, _ => false) = true ∧ copying.hbm.wf = true ∧ (∀ t ∈ copying.threads, t.2.scores = []) ∧ copying.mscUse + 4224 ≤ 7516192768 ∧
    0 < ((copying.ctx 0).desc.get 4).toNat / 2 ^ 32 % 2 ^ 16 ∧ (copying.thr 0).alive = true ∧ copying.waiters = [] := by
  and_intros <;> decide +kernel

/-- The base state with program 0 of one operation in host memory and no table. -/
def Sys2Proof.Tests.prg (op : Byte) : State :=
  { base with
    host := { cells := [(0x100, op)], tags := [] }
    progs := [(0, { (default : SpProg) with words := [(1, 0x100), (2, 1)] })] }

/-- Interpreter 0 running a packet, with an emit buffer, over the state with the tensor. -/
def Sys2Proof.Tests.itp (buf : NMap Byte) (n : Nat) : State :=
  { msh with
    interps := [(0, { (default : Interp) with busy := true, pkt := pkt1, buf := buf, count := n })]
    lqs := [(0, { (default : LQueue) with enable := true })], rings := [(0, ring64)] }

theorem witness_SpargePacketsRun : (prg 0x1F).Hears 0 ∧ (prg 0x1F).progUsed 0 0 = false ∧ (prg 0x1F).ownsCtx 0 0 = true ∧
    ((prg 0x1F).prog 0 0).words.get 2 = 1 ∧ (((prg 0x1F).prog 0 0).unloaded.tablesOf (prg 0x1F) 0).isSome = true ∧
    verify [0x1F] ((((prg 0x1F).prog 0 0).unloaded.tablesOf (prg 0x1F) 0).getD []) = none ∧
    (verify [0xFF] ((((prg 0xFF).prog 0 0).unloaded.tablesOf (prg 0xFF) 0).getD [])).isSome = true ∧ (lqS (emit .fence)).progUsed 0 0 = true ∧
    (itp [] 0).Interprets ∧ (itp [] 511).Interprets ∧
    nonZero ((itp [(2, 1)] 0).interps.get 0).bufBytes 3 4 = false ∧ nonZero ((itp [(2, 1)] 0).interps.get 0).bufBytes 8 256 = false ∧
    bfld ((itp [(2, 1)] 0).interps.get 0).bufBytes 2 1 = 1 ∧ nonZero ((itp [] 0).interps.get 0).bufBytes 27 256 = false ∧
    bfld ((itp [] 0).interps.get 0).bufBytes 16 8 ≤ 2 ^ 36 ∧ launchFail (itp [] 0) 0 0 0 true = none ∧
    nonZero ((itp ((countFrom 0 57).filterMap fun i => if tileD[i]? = some 0 then none else some (i, (tileD[i]?).getD 0)) 0).interps.get 0).bufBytes 66 256 = false ∧
    (itp [] 0).descFail 0 false true
      ((itp ((countFrom 0 57).filterMap fun i => if tileD[i]? = some 0 then none else some (i, (tileD[i]?).getD 0)) 0).interps.get 0).bufBytes = none ∧
    nonZero ((itp [(255, 1)] 0).interps.get 0).bufBytes 192 256 = true ∧ ((itp [] 0).interps.get 0).writes = [] ∧
    ((itp [] 512).interps.get 0).busy = true ∧ 512 ≤ ((itp [] 512).interps.get 0).count ∧ (itp [] 512).curI = 0 ∧
    (prg 0x1F).hostHidden 0 0x100 (4 * 1) = false ∧ ({ prg 0x1F with hidden := [(0, 0x103, 1)] } : State).hostHidden 0 0x100 (4 * 1) = true := by
  and_intros <;> decide +kernel

/-- The interpreter with registers and staged writes, and a program with a table of 4 entries. -/
def Sys2Proof.Tests.itpT (r : W64) (w : List (Nat × Nat × W64)) : State :=
  let s := itp [] 0
  { s with
    interps := [(0, { (s.interps.get 0) with regs := [(1, r)], writes := w })]
    progs := [(0, { (default : SpProg) with loaded := true, tables := [{ places := [0x20000], count := 4, writable := true, off := 0 }] })] }

theorem witness_SpargeOperations : (itpT 0 []).Interprets ∧ (((itpT 248 []).interps.get 0).rs 1 + (0 : BitVec 14).setWidth 64).toNat % sizeBytes .d = 0 ∧
    (((itpT 248 []).interps.get 0).rs 1 + (0 : BitVec 14).setWidth 64).toNat + sizeBytes .d ≤ 256 ∧
    256 < (((itpT 256 []).interps.get 0).rs 1 + (0 : BitVec 14).setWidth 64).toNat + sizeBytes .b ∧
    (((itpT 3 []).interps.get 0).rs 1).toNat < ((itpT 3 []).spTable ((itpT 3 []).interps.get 0) 0).count ∧
    ((itpT 4 []).spTable ((itpT 4 []).interps.get 0) 0).count ≤ (((itpT 4 []).interps.get 0).rs 1).toNat ∧
    (∀ w ∈ ((itpT 3 []).interps.get 0).writes, w.1 ≠ 0 ∨ w.2.1 ≠ 3) ∧ ((itpT 3 [(0, 3, 9)]).interps.get 0).writes = [] ++ [(0, 3, 9)] := by
  and_intros <;> decide +kernel

/-- The base state with staged SHAPE_W1 and a power state word. -/
def Sys2Proof.Tests.pkgS (ps ctl : W64) : State :=
  { base with pkg := { base.pkg with powerState := ps, powerCtl := ctl, shapeW1 := [(0, 1)] }, threads := [], ctxs := [], tick := 62500000 }

theorem witness_HostRegisterWrites : base.Hears 0 ∧ base.Hears 255 ∧ (base.func 0).pend = none ∧ 1 ≤ (1 : W64).toNat % 4096 ∧
    (3600 : W64).toNat % 4096 ≤ 3600 ∧ (shapeFields ((0x8001000100100010 : W64) &&& 0x83FF03FF03FF3FFF) ((pkgS 0 0).pkg.shapeW1.get 0)).refused = false ∧
    (pkgS 0 0).Hears 0 ∧ (pkgS 0 0).shapeUsed 0 = false ∧
    (shapeFields ((0x8001000100100010 : W64) &&& 0x83FF03FF03FF3FFF) (base.pkg.shapeW1.get 0)).refused = true ∧ base.pkg.weights.Rising ∧
    (0x33F0000 : W64).toNat / 65536 % 1024 = 831 ∧ (0x33F0000 : W64).getLsbD 12 = false ∧ 832 ≤ (0x3400000 : W64).toNat / 65536 % 1024 ∧
    (0x3400000 : W64).toNat / 65536 % 1024 ≠ 1023 ∧ base.rings = [] ∧ base.lqs = [] ∧
    (0x100000001FFFF : W64).toNat % 2 ^ 17 = 131071 ∧ ({ base with funcs := [] } : State).Hears 0 ∧
    (0x10001FFFF : W64).toNat % 2 ^ 17 + (0x10001FFFF : W64).toNat / 2 ^ 32 % 2 ^ 18 ≤ 131072 ∧
    (({ base with funcs := [] } : State).func 1).lqFirst + (({ base with funcs := [] } : State).func 1).lqCount ≤ 8192 ∧
    (∀ o ∈ ({ base with funcs := [] } : State).funcs, o.1 ≠ 1 → meet o.2.ringFirst o.2.ringCount ((0x10001FFFF : W64).toNat % 2 ^ 17)
      ((0x10001FFFF : W64).toNat / 2 ^ 32 % 2 ^ 18) = false) := by
  and_intros <;> decide +kernel

/-- The base state with a power limit that the current measured exceeds. -/
def Sys2Proof.Tests.surge : State := { base with pkg := { base.pkg with powerLimit := 1, currentA := 2 } }

theorem witness_PowerStatesAndTrips : base.Hears 0 ∧ base.powerIn ≤ 1 ∧ base.bells = [] ∧ (∀ c ∈ base.ctxs, c.2.freezing = none) ∧
    surge.threads = base.threads ∧ surge.passes = [] ∧ surge.Hears 0 ∧ (false && surge.pkg.tooHot || true && surge.pkg.tooMuch) = true ∧
    (false && surge.pkg.tooHot || false && surge.pkg.tooMuch) = false ∧ (pkgS 2 0).Hears 0 ∧ 2 ≤ (pkgS 2 0).powerIn ∧ (1 : BitVec 8) ≠ 255 ∧
    (pkgS 0 0).stagingFits 1 = true ∧ (pkgS 0 0).threads = [] ∧ (pkgS 0 0).ctxs = [] ∧ (pkgS 8 0).pkg.powerState.getLsbD 3 = true ∧
    (pkgS 8 0).bells = [] ∧ (pkgS 8 1).pkg.powerCtl = BitVec.ofNat 64 1 ∧ (pkgS 8 0x102).pkg.powerCtl = BitVec.ofNat 64 (2 + (1 : BitVec 8).toNat * 256) ∧
    (pkgS 8 3).pkg.powerCtl = 3 ∧ (pkgS 8 4).pkg.powerCtl = 4 ∧ (pkgS 8 4).Hears 0 ∧ base.threads = [(0, fetchThread)] ∧ fetchThread.alive = true ∧
    fetchThread.run = .resident ∧ fetchThread.gang = 0 ∧ fetchThread.versions = [freshVersion 1 fetchRec] ∧
    (freshVersion 1 fetchRec).published = false ∧ base.passes = [] ∧ (pkgS 0 0).powerIn ≠ 4 ∧
    (pkgS 0 0).pkg.telemAt + 1250000 ≤ (pkgS 0 0).tick ∧ base.tick < base.pkg.telemAt + 1250000 := by
  and_intros <;> decide +kernel

/-- Whether an image verifies is a value of Config that nothing states: for the image of the window one of the two cases holds. -/
theorem witness_BootAndLiveUpdate : State.reset.Hears 0 ∧ State.reset.boot.running = false ∧ State.reset.boot.posts = [] ∧
    (let v := Config.imageVerdict [State.reset.boot.window.get 0]
     (v < 1 ∨ 4 < v) ∨ (1 ≤ v ∧ v ≤ 4)) ∧ base.Hears 0 ∧ base.boot.running = true ∧ base.boot.phase = 0 ∧ base.boot.posts = [] ∧
    (let s : State := { base with boot := { base.boot with phase := 4 }, tick := 62500000 }
     s.boot.phase = 4 ∧ s.boot.posts = [] ∧ s.boot.started + 62500000 ≤ s.tick) := by
  and_intros <;> first | decide +kernel | omega

/-- The base state with the responder inside a session, or before it. -/
def Sys2Proof.Tests.spdm (on : Bool) : State :=
  { base with spdm := { (default : Spdm) with version := on, caps := on, algs := if on then some ⟨true, true, true, true⟩ else none, exchanged := on, session := on } }

/-- A word of 256 bits differs from its complement. -/
theorem differs (m : BitVec 256) : ∃ mac, mac ≠ m :=
  ⟨~~~m, fun h => by
    have h := congrArg (fun x : BitVec 256 => x.getLsbD 0) h
    simp at h⟩

theorem witness_AttestationAndKeys : (spdm true).spdm.version = true ∧ (spdm true).spdm.caps = true ∧ (spdm true).spdm.algs.isSome = true ∧
    (spdm true).spdm.exchanged = true ∧ (∃ mac, mac = Config.finishMac (spdm true).spdm.secret) ∧
    (∃ mac, mac ≠ Config.finishMac (spdm true).spdm.secret) ∧ (spdm true).spdm.session = true ∧ (spdm true).Exists 0 ∧
    (spdm true).boot.running = true ∧ (spdm false).spdm.version = false ∧ (spdm false).spdm.caps = false ∧ (spdm false).spdm.algs = none ∧
    (spdm false).spdm.session = false := by
  and_intros <;> first | exact ⟨_, rfl⟩ | exact differs _ | decide +kernel

/-- A state with an entry in v1, v2 and v3 each, two in v6 and none in v4, and a type in force. -/
def Sys2Proof.Tests.vec (ty : W32) : State :=
  let e : VReg := { (default : VReg) with fifo := [default] }
  frm fun f => { f with v := [(1, e), (2, e), (3, e), (6, { e with fifo := [default, default] })], vtype := ty }

/-- A VA word meets the hypotheses of its completion at a type. -/
def Sys2Proof.Tests.vaMeets (p : Nat × Instr) : Bool :=
  let s := vec (BitVec.ofNat 32 p.1)
  let t := s.thr 0
  match vaOp p.2 with
  | none => false
  | some op =>
    let et := vtEt t.live.vtype
    op.acc et && decide (vtTrapen t.live.vtype = 0) &&
      match op.pushes et with
      | none => false
      | some k => ends (readSources 0 .va t.serial (op.srcs et) [] [] s) false fun r _ => r.1.all (fun e => e.owner = 0) &&
          match op.vd with
          | none => true
          | some vd => !t.outBound t.serial vd && decide ((t.live.v.get vd).fifo.length - r.2.get vd + k ≤ 4)

theorem witness_VectorWordsComplete_two : (vec 0).Free .va ∧ (vec 0).Unbound ∧
    (∀ p ∈ ([(0, .vadd 4 1 2 0 false false), (9, .vsub 4 1 2 0 true false), (8, .vmul 1 2 3 0 false true), (0, .vfma 3 1 2 0 false false),
      (9, .vfnma 3 1 2 0 false false), (1, .vmin 4 1 1 0 true false), (2, .vmax 4 1 2 7 false false), (0, .vdiv 4 1 2 0 false false),
      (1, .vscale 4 1 2 0 false false), (1, .vaddx 4 1 2 0 false false), (8, .vmulx 4 1 2 0 false false), (2, .vfmax 3 1 2 0 false false),
      (0, .vand 4 1 2 0 false false), (9, .vor 4 1 2 0 false false), (9, .vxor 4 1 2 0 false false), (9, .vshl 4 1 2 0 false false),
      (9, .vshr 4 1 2 0 false false), (9, .vsra 4 1 2 0 false false), (9, .vperm 4 1 2 0 false false), (9, .vmix 4 1 2 0 false false)] :
      List (Nat × Instr)), vaMeets p = true) := by
  and_intros <;> decide +kernel

theorem witness_VectorWordsComplete_one : ∀ p ∈ ([(0, .vabs 4 1 0 false), (0, .vneg 4 1 0 false), (0, .vsqrt 4 1 0 false), (0, .vrsq 4 1 0 false),
    (0, .vexp2 4 1 0 false), (0, .vlog2 4 1 0 false), (0, .vfclass 4 1 0 false), (9, .vcnt 4 1 0 false), (9, .vmov 4 1 0 true),
    (0, .vtagr 4 1 0 false), (9, .vunif 4 1 0 false), (0, .vrnd 4 1 .rtz 0 false), (9, .vextr 4 1 5 0 false), (9, .vrot 4 1 5 0 false),
    (9, .vsel 4 1 2 1 false false), (9, .vargmax 4 1 0 false), (9, .viota 4 0), (9, .vdrop 6 1), (9, .vbcast 4 7 0), (9, .vred 4 1 .add 0 false),
    (0, .vpack 4 6 .bf16), (2, .vunpk 4 1 .f32 false), (0, .vcvt 4 1 .e4m3 .sr 2), (0, .vcmp 1 .lt 1 2 0 false false), (9, .kop 1 2 3 8),
    (9, .kpopc 4 1)] : List (Nat × Instr)), vaMeets p = true := by
  decide +kernel

theorem witness_VectorWordsComplete_vsett : (vec 0).Free .va ∧ vtypeOk (0x1049 : BitVec 13).toNat = true ∧ vtypeOk (7 : BitVec 13).toNat = false := by
  and_intros <;> decide +kernel

/-- The first and the last lane of each width, of an integer type and of a float type; every word has an operation. -/
theorem witness_VectorLaneResults : Ty.i8.lane = 8 ∧ Ty.i32.lane = 32 ∧ Ty.i64.lane = 64 ∧ Ty.i32.isInt = true ∧ Ty.f32.isF = true ∧ 511 < 4096 / Ty.i8.lane ∧
    127 < 4096 / Ty.f32.lane ∧
    (∀ i ∈ [Instr.vadd 4 1 2 0 false false, .vcmp 1 .lt 1 2 0 false false, .vred 4 1 .add 0 false, .vsel 4 1 2 1 false false, .kop 1 2 3 8,
      .kpopc 4 1, .vperm 4 1 2 0 false false, .vbcast 4 7 0], (vaOp i).isSome = true) ∧ 511 < 512 := by
  and_intros <;> decide +kernel

/-- A gang of two with window 0 open to an endpoint that the context may name, and a signal's address and value in x1 and x2. -/
def Sys2Proof.Tests.duo (d : Nat) : State :=
  let two := fun (t : Thread) (r : Nat) => { t with gang := 1, gangSize := 2, rank := some r, win := [(0, { (default : Win) with target := 0x8000000500000000 })] }
  let s := xs [(1, BitVec.ofNat 64 (d + 32 * 191)), (2, 5)]
  { s with threads := [(0, two (s.thr 0) 0), (1, two { (s.thr 0) with num := 1 } 1)], ctxs := [(0, { (s.ctx 0) with grants := [[((s.thr 0 |> fun _ => two (s.thr 0) 0).win.get 0).endpoint.setWidth 64]] })] }

theorem witness_TokensAndSignals : base.LogOff ∧ 0 < (1 : BitVec 8).toNat ∧ flagRef 0 0 none 1 = some ⟨false, 0, 1⟩ ∧ base.waiters = [] ∧
    ((base.thr 0).ver (base.thr 0).curVer.id).deps = [] ∧ base.Unbound ∧ base.Free .vl ∧ base.Free .va ∧ base.Free .vs ∧ base.Free .mx ∧
    base.Free .cp ∧ base.Idle ∧ (0 : BitVec 9).toNat ≤ (base.flagVal ⟨false, 0, 1⟩).toNat ∧ (base.flagVal ⟨false, 0, 1⟩).toNat < (1 : BitVec 9).toNat ∧
    192 ≤ (192 : BitVec 8).toNat ∧ (base.thr 0).live.gsel = none ∧ (⟨false, 0, 1⟩ : FlagRef).group = false ∧ (flagRef 0 0 (some 1) 192).map (·.group) = some true ∧ (base.thr 0).lines = [] ∧ base.allAcked base.cur = true ∧
    ((duo 0).outbox.filter fun p => p.key = (duo 0).cur).length < 1024 ∧ (duo 17).Free .cp ∧ (duo 17).Idle ∧ (duo 17).waiters = [] ∧
    (((duo 17).thr 0).ver ((duo 17).thr 0).curVer.id).deps = [] ∧ (∀ p ∈ (duo 17).threads, p.2.scores = []) ∧ ((duo 17).thr 0).lines = [] ∧
    (duo 17).allAcked 0 = true ∧ (((duo 17).thr 0).rx 1).val = BitVec.ofNat 64 (17 + 32 * 191) ∧
    (duo 17).peerKey ((duo 17).thr 0) (17 - 16) = some 1 ∧ ((duo 17).thr 1).alive = true ∧
    2 ^ 63 ≤ (((duo 0).thr 0).win.get 0).target.toNat ∧ ((duo 0).ctx 0).epGranted (((duo 0).thr 0).win.get 0).endpoint = true ∧
    (duo 0).Free .cp ∧ (duo 0).Idle ∧ (((duo 15).thr 0).win.get 15).target.toNat < 2 ^ 63 ∧ (duo 23).peerKey ((duo 23).thr 0) (23 - 16) = none := by
  and_intros <;> decide +kernel

/-- Every byte of the granule of these states is the thread's to read. -/
theorem ownScratch_granule (s : State) (h : (s.thr s.cur).scratch.tags = []) (hg : (s.thr s.cur).scratchG = 1) (hw : (s.thr s.cur).wp = [])
    (hs : ∀ p ∈ s.threads, p.2.scores = []) (hm : (s.thr s.cur).scratch.wf = true ∧ (s.thr s.cur).early = []) (off n : Nat) (h0 : 0 < n) (hn : off + n ≤ 16384) :
    s.OwnScratch off n :=
  ownScratch_of_untagged s off n h ⟨h0, by omega, by omega, by omega, hw, hs, hm⟩

/-- A state with the address of its scratch in x1, the stride 4 in x2, an entry of zero indices in v7 and a full v5. -/
def Sys2Proof.Tests.vld : State :=
  frm fun f => { f with
    x := [(1, { val := scratchVa 0, taint := 0, sat := false }), (2, { val := 4, taint := 0, sat := false })]
    v := [(5, { (default : VReg) with fifo := [default, default, default, default] }), (7, { (default : VReg) with fifo := [default] })] }

theorem ownScratch_vld (off n : Nat) (h0 : 0 < n) (hn : off + n ≤ 16384) : vld.OwnScratch off n :=
  ownScratch_granule vld (by decide +kernel) (by decide +kernel) (by decide +kernel) (by decide +kernel) (by decide +kernel) off n h0 hn

/-- The strides 4 of x2 reach the words of the granule in turn. -/
theorem stride_vld (j : Nat) : scratchVa 0 + 4 * BitVec.ofNat 64 j = scratchVa (4 * j) := by
  apply BitVec.eq_of_toNat_eq
  simp [scratchVa]

theorem laneAt_zero (w i : Nat) : laneAt w i (default : VEntry).data = 0 := by
  have h : (default : VEntry).data.toNat = 0 := by decide +kernel
  simp only [laneAt, fld, h, Nat.zero_div, Nat.zero_mod]

theorem witness_VectorLoadsFromScratch : vld.Free .vl ∧ vld.Unbound ∧ vld.Idle ∧ ((vld.thr 0).live.v.get 4).fifo.length < 4 ∧
    ((vld.thr 0).rx 1).val + (0 : BitVec 11).signExtend 64 * BitVec.ofNat 64 64 = scratchVa 0 ∧ vld.OwnScratch 0 512 ∧
    (((vld.thr 0).rx 1).val = scratchVa 0 ∧ ((vld.thr 0).rx 2).val = 4 ∧
      ∀ j, j < 512 / esBytes .e32 → scratchVa 0 + 4 * BitVec.ofNat 64 j = scratchVa (4 * j) ∧ vld.OwnScratch (4 * j) (esBytes .e32) ∧ 4 * j % esBytes .e32 = 0) ∧
    ((vld.thr 0).live.v.get 7).fifo = [default] ∧ ((vld.thr 0).live.v.get 5).fifo.length = 4 ∧
    ((vld.thr 0).live.v.get 5).fifo = default :: [default, default, default] ∧
    (∀ j, j < 128 → scratchVa 0 + BitVec.ofInt 64 ((laneAt 32 j (default : VEntry).data : Int) * 4) = scratchVa 0) ∧ vld.OwnScratch 0 4 ∧
    (∀ j, j < 128 → vld.OwnScratch (0 + 64 * j) 64) ∧ ¬ ((vld.thr 0).live.v.get 5).fifo.length < 4 ∧
    (((vld.thr 0).rx 1).val + (0 : BitVec 11).signExtend 64 * BitVec.ofNat 64 64).toNat % 64 = 0 := by
  and_intros <;> first
    | decide +kernel
    | exact sound_of_untagged _ (by decide +kernel)
    | exact fun j hj => ownScratch_vld _ _ (by omega) (by omega)
    | (intro j hj
       have hj : j < 128 := by simpa [esBytes] using hj
       exact ⟨stride_vld j, ownScratch_vld _ _ (by decide) (by simp [esBytes]; omega), by simp [esBytes]⟩)

/-- A state to store from: addresses and strides of the scratch in x1 to x3, an entry in v1, zero indices in v7. -/
def Sys2Proof.Tests.vstS : State :=
  frm fun f => { f with
    x := [(1, { val := scratchVa 0, taint := 0, sat := false }), (2, { val := 4, taint := 0, sat := false })]
    v := [(1, { (default : VReg) with fifo := [default] }), (7, { (default : VReg) with fifo := [default] })] }

theorem ownScratch_vstS (off n : Nat) (h0 : 0 < n) (hn : off + n ≤ 16384) : vstS.OwnScratch off n :=
  ownScratch_granule vstS (by decide +kernel) (by decide +kernel) (by decide +kernel) (by decide +kernel) (by decide +kernel) off n h0 hn

/-- A pass slot of core 0 whose v1 holds a row of task 0, whose destination is at 0x30000. -/
def Sys2Proof.Tests.passSt : State :=
  { msh with
    cur := passBase
    threads := msh.threads ++ [(passBase, { fetchThread with live := { fetchThread.live with v := [(1, { (default : VReg) with fifo := [{ (default : VEntry) with owner := ownerTag 0 0 }] })] } })]
    tasks := [(0, { (default : TileTask) with dst := 0x30000, dstride := 64, rows := 1, st := .launched, pass := some 0 })]
    passes := [(0, { (default : PassRec) with tasks := [0], core := some 0 })] }

theorem witness_VectorStoresToMemory : vstS.Quiet ∧ vstS.Unbound ∧ vstS.Idle ∧ vstS.Free .vs ∧ vstS.MayWrite 32768 ∧
    (∃ n, readSources 0 .vs (vstS.thr 0).serial [((1 : BitVec 6).toNat, false)] [] [] vstS = .ok (([default], n), vstS)) ∧
    (∃ n, readSources 0 .vs (vstS.thr 0).serial [((1 : BitVec 6).toNat, false), ((7 : BitVec 6).toNat, false)] [] [] vstS =
      .ok (([default, default], n), vstS)) ∧
    ((vstS.thr 0).rx 1).val + (0 : BitVec 11).signExtend 64 * 64 = scratchVa 0 ∧ vstS.OwnScratch 0 512 ∧ (vstS.thr 0).scratch.wf = true ∧
    ((vstS.thr 0).rx 2).val = 4 ∧ (∀ j, j < 128 → scratchVa 0 + 4 * BitVec.ofNat 64 j = scratchVa (4 * j) ∧ vstS.OwnScratch (4 * j) 4 ∧ 4 * j % 4 = 0) ∧
    (∀ j, j < 128 → scratchVa 0 + BitVec.ofInt 64 ((laneAt 32 j (default : VEntry).data : Int) * 4) = scratchVa 0) ∧
    (∀ j, j < 128 → vstS.OwnScratch (0 + 64 * j) 64) ∧ Scope.cluster.code ≤ 3 ∧
    (∀ i, i < 128 → vstS.OwnScratch (0 + 4 * laneAt 32 i (default : VEntry).data) 4) ∧ (default : VEntry).owner = 0 ∧
    passSt.Quiet ∧ passSt.Unbound ∧ passSt.Idle ∧ passBase ≤ passSt.cur ∧ ((passSt.thr passBase).queue .vs).entries = [] ∧
    passSt.held.contains (passBase, Eng.vs) = false ∧ ownerTag 0 0 ≠ 0 ∧
    (∃ n, readSources passBase .vs (passSt.thr passBase).serial [((1 : BitVec 6).toNat, false)] [] [] passSt =
      .ok (([{ (default : VEntry) with owner := ownerTag 0 0 }], n), passSt)) ∧
    passSt.ownerId passBase (ownerTag 0 0) = some 0 ∧ (passSt.tasks.get 0).cause = 0 ∧ (passSt.tasks.get 0).key = none ∧ passSt.hbm.wf = true ∧
    (match flatPiece passSt 0 0x30000 512 with
      | .ok p => decide (p.tgt = .hbm) && p.leaf.wr && !p.leaf.granary && !p.leaf.dt
      | .error _ => false) = true ∧ (∀ p ∈ passSt.threads, ∀ v ∈ p.2.versions, v.acc = []) := by
  and_intros <;> first
    | exact ⟨_, rfl⟩
    | decide +kernel
    | exact sound_of_untagged _ (by decide +kernel)
    | exact fun j hj => ⟨stride_vld j, ownScratch_vstS _ _ (by omega) (by omega), by omega⟩
    | exact fun j hj => ownScratch_vstS _ _ (by omega) (by omega)
    | (intro i hi
       rw [laneAt_zero]
       exact ownScratch_vstS _ _ (by omega) (by omega))

/-- A stream of two chunks from byte 512 of the scratch, whose descriptor stands at byte 0, with v2 bound as given. -/
def Sys2Proof.Tests.strS (k : BindKind) (act : Bool) (n : Nat) : State :=
  on fun t => { t with
    scratch := { cells := [(1, 2), (7, 0xFE), (8, 2), (17, 2), (24, 1), (40, 1)], tags := [] }
    live := { t.live with
      x := [(1, { val := scratchVa 0, taint := 0, sat := false })]
      v := [(2, { fifo := List.replicate n default, head := 0, kind := k,
                  strm := { (default : Stream) with active := act, out := decide (k = .output), desc := if act then [scratchVa 512, 2, 512, 1, 0, 1, 0, 0] else [] } })] } }

theorem ownScratch_strS (off n : Nat) (h0 : 0 < n) (hn : off + n ≤ 16384) : (strS .input true 3).OwnScratch off n :=
  ownScratch_granule (strS .input true 3) (by decide +kernel) (by decide +kernel) (by decide +kernel) (by decide +kernel) (by decide +kernel) off n h0 hn

theorem witness_VectorStreams : (strS .free false 0).Quiet ∧ 0 < passBase ∧ (strS .free false 0).Idle ∧ ((strS .free false 0).thr 0).tickets = [] ∧
    (strS .free false 0).Unbound ∧ (((strS .free false 0).thr 0).rx 1).val = scratchVa 0 ∧
    (∀ j ∈ [1, 3, 5], 0 < ((strS .free false 0).thr 0).scratch.readLE (0 + 8 * j) 8 ∧ ((strS .free false 0).thr 0).scratch.readLE (0 + 8 * j) 8 < 2 ^ 32) ∧
    ((strS .free false 0).thr 0).scratch.readLE (0 + 8 * 7) 8 = 0 ∧ (strS .free false 0).Free .vl ∧ (strS .free false 0).Free .vs ∧
    (((strS .input true 3).thr 0).live.v.get 2).kind = .input ∧ (strS .input true 3).Free .vl ∧ (((strS .output true 0).thr 0).live.v.get 2).kind = .output ∧
    (strS .output true 0).Free .vs ∧ (((strS .output true 0).thr 0).live.v.get 2).fifo = [] ∧
    (∀ p ∈ ((strS .output true 0).thr 0).live.v, p.2.strm.held = none) ∧ (((strS .input true 3).thr 0).live.v.get 2).strm.active = true ∧
    (((strS .input true 3).thr 0).live.v.get 2).strm.held = none ∧ (((strS .input true 3).thr 0).live.v.get 2).strm.desc ≠ [] ∧
    (((strS .input true 3).thr 0).live.v.get 2).strm.pos < (((strS .input true 3).thr 0).live.v.get 2).strm.count ∧
    (((strS .input true 3).thr 0).live.v.get 2).strm.addr = (scratchVa 512).toNat ∧ (((strS .input true 3).thr 0).live.v.get 2).strm.out = false ∧
    (((strS .input true 3).thr 0).live.v.get 2).fifo.length < 4 ∧ (((strS .output true 1).thr 0).live.v.get 2).strm.out = true ∧
    (((strS .output true 1).thr 0).live.v.get 2).fifo = default :: [] ∧ (default : VEntry).owner = 0 ∧ (strS .output true 1).MayWrite 512 ∧
    (((strS .input true 3).thr 0).live.v.get 2).strm.wps = [] ∧ ((strS .input true 3).thr 0).rdPkts.has (64 + 2) = false := by
  and_intros <;> decide +kernel

/-- The stream's register is full and its read through a window is under way. -/
def Sys2Proof.Tests.reading : State := (strS .input true 4).updThr 0 fun t => { t with rdPkts := [(66, 7, 0)] }

theorem witness_VectorStreams_flight : reading.Quiet ∧ reading.Idle ∧ reading.Free .vl ∧ ((reading.thr 0).live.v.get 2).kind = .input ∧
    (reading.thr 0).rdPkts.has (64 + 2) = true ∧ 4 ≤ ((reading.thr 0).live.v.get 2).fifo.length := by
  and_intros <;> decide +kernel

theorem witness_VectorStreams_bytes : (strS .input true 3).OwnScratch 512 512 ∧ (strS .input true 3).OwnScratch 0 64 :=
  ⟨ownScratch_strS _ _ (by omega) (by omega), ownScratch_strS _ _ (by omega) (by omega)⟩

/-- A slot whose 256 rows and 128 columns all have the tag of I8 blocks, and bytes of zero. -/
def Sys2Proof.Tests.zeroTile : Slot := { (default : Slot) with fill := 1, mem := { cells := [], tags := (countFrom 0 512).map fun i => (i, 0x7F12) } }

/-- A state with handle 1 of WB, AB and CB bound, the registers 0 to 5 as given, and v1 holding an entry. -/
def Sys2Proof.Tests.mxS (l : List (Nat × W64)) : State :=
  on fun t => { t with
    wb := [(1, zeroTile)], ab := [(1, zeroTile)], cb := [(1, default)], rank := some 1, gang := 1, gangSize := 2
    live := { t.live with
      x := l.foldl (fun m e => m.put e.1 { val := e.2, taint := 0, sat := false }) []
      v := [(1, { (default : VReg) with fifo := [default] })] } }

/-- The same with another member of the gang on the core, that has handle 1 bound. -/
def Sys2Proof.Tests.mxTwo (l : List (Nat × W64)) : State :=
  { mxS l with threads := [(0, (mxS l).thr 0), (1, { fetchThread with num := 1, rank := some 0, gang := 1, gangSize := 2, cb := [(1, default)] })] }

theorem ownScratch_mxS (off n : Nat) (h0 : 0 < n) (hn : off + n ≤ 16384) : (mxS [(1, scratchVa 0), (2, 64), (3, 1)]).OwnScratch off n :=
  ownScratch_granule _ (by decide +kernel) (by decide +kernel) (by decide +kernel) (by decide +kernel) (by decide +kernel) off n h0 hn

theorem rows_mxS (i : Nat) : scratchVa 0 + 64 * BitVec.ofNat 64 i = scratchVa (64 * i) := by
  apply BitVec.eq_of_toNat_eq
  simp [scratchVa]

theorem witness_MatrixHandlesAndLoads :
    let s := mxS [(1, scratchVa 0), (2, 64), (3, 1)]
    let t := s.thr 0
    s.Free .mx ∧ s.Idle ∧ t.taskNo ≤ t.handleTask ∧ t.rounds = [] ∧ (∀ p ∈ s.threads, p.2.scores = []) ∧
    (∀ i, i < 14 → (t.slots .cb).has (2 + i) = false) ∧ 1 ≤ claimable .cb - s.heldSlots t.core .cb false ∧
    s.ctxSlots t.core t.cid .cb + 1 ≤ (s.ctx t.cid).slotLimit .cb ∧ (∀ p ∈ s.threads, p.1 ≠ 0 → p.2.core ≠ t.core) ∧ (t.slots .cb).has 1 = true ∧
    (∀ m ∈ [MMem.wb, .ab, .cb], 1 + 1 ≤ handleMax m ∧ (∀ i, i < 1 → (t.slots m).has (1 + i) = true ∧ ((t.slots m).get (1 + i)).bad = false ∧
      ((t.slots m).get (1 + i)).mem.wf = true ∧ ((t.slots m).get (1 + i)).owner.Rising) ∧ (t.slots m).Rising) ∧
    (t.ver t.curVer.id).useKnext + 131072 * 1 ≤ s.budgetOf t.cid (t.ver t.curVer.id) ∧ (t.rx 0).val = 0 ∧ t.promised = [] ∧
    ((mxTwo [(1, 2)]).Free .mx ∧ (((mxTwo [(1, 2)]).thr 0).rx 1).val = BitVec.ofNat 64 (1 + 1) ∧
      (((mxTwo [(1, 2)]).thr 0).ver ((mxTwo [(1, 2)]).thr 0).curVer.id).deps = [] ∧ ((mxTwo [(1, 2)]).thr (0 * 65536 + 1)).alive = true ∧
      ((mxTwo [(1, 2)]).thr (0 * 65536 + 1)).run = .resident ∧ ((mxTwo [(1, 2)]).thr (0 * 65536 + 1)).core = ((mxTwo [(1, 2)]).thr 0).core ∧
      (((mxTwo [(1, 2)]).thr (0 * 65536 + 1)).slots .cb).has 5 = false) ∧
    ((t.rx 1).val.toNat % 64 = 0 ∧ (strideOf (t.rx 2)).toNat % 64 = 0 ∧ (t.rx 1).val = scratchVa 0 ∧ strideOf (t.rx 2) = 64) ∧
    (∀ i, i < 128 → scratchVa 0 + 64 * BitVec.ofNat 64 i = scratchVa (64 * i) ∧ s.OwnScratch (64 * i) 256) ∧
    (t.rx 3).val.toNat = 1 ∧ (t.rx 3).val.toNat ≤ 2047 ∧
    (∃ q, readSources 0 .mx t.serial [((1 : BitVec 6).toNat, false)] [] [] s = .ok (([default], q), s)) := by
    intro s t
    and_intros <;> first
      | exact ⟨_, rfl⟩
      | decide +kernel
      | exact fun i hi => ⟨rows_mxS i, ownScratch_mxS _ _ (by omega) (by omega)⟩

/-- The state in which the timed pass of handle 1 waits, admitted, and that in which a drain to a peer waits. -/
def Sys2Proof.Tests.mxQ (i : Instr) (n : W64) : State :=
  let s := mxTwo []
  s.updThr 0 fun t => { t with queues := [(4, { entries := [{ (default : QEntry) with word := i, started := true, ops := [{ val := n, taint := 0, sat := false }], ver := 1 }], pushed := 1 })] }

/-- The same state with a timed pass that holds the array of its core until tick 10. -/
def Sys2Proof.Tests.windowS : State := { mxS [] with cores := [(0, { (default : CoreSt) with timed := some (0, 0, 10) })] }

theorem witness_MatrixPassesAndDrains :
    let s := mxS [(1, scratchVa 0), (2, 64), (3, 1), (4, 16)]
    let t := s.thr 0
    s.Quiet ∧ 0 < passBase ∧ t.fences = [] ∧ t.versions.length ≤ 1 ∧ t.stepAt = none ∧ t.tickets = [] ∧ t.taskNo ≤ t.handleTask ∧ t.rounds = [] ∧
    s.Free .mx ∧ t.wb.has 1 = true ∧ (t.wb.get 1).bad = false ∧ (t.ab.get 1).fill = 1 ∧ (∀ i, i < 1 → t.ab.has (1 + i) = true ∧ (t.ab.get (1 + i)).bad = false) ∧
    (∀ i, i < 1 → t.cb.has (1 + i) = true) ∧ (∀ i, i < 16 → (t.cb.get i).mem.wf = true ∧ (t.cb.get i).owner.Rising ∧ (t.cb.get i).status.Rising) ∧
    (t.ver t.curVer.id).useKnext + 131072 * ((1 + 255) / 256) ≤ s.budgetOf t.cid (t.ver t.curVer.id) ∧
    (∀ r, r < 1 → (passRow (t.wb.get 1).columns (t.ab.get 1) (t.cb.get 1) r r false).2 = 0) ∧
    s.arrayHeld s.cur 1 = false ∧
    s.tick + 16 ≤ (t.rx 4).val.toNat ∧ (∀ p ∈ s.threads, p.1 ≠ 0 → p.2.core ≠ t.core) ∧
    ((s.cores.get t.core).timed = none ∧ (∃ w, (windowS.cores.get t.core).timed = some w ∧ w.2.2 ≤ (t.rx 4).val.toNat)) ∧
    (let u := mxQ (.mpassat 1 1 1 false 4) 0
     ((u.thr 0).queue .mx).entries.map (fun q => (q.word, q.started, q.ver, (q.op 0).val.toNat)) = [(.mpassat 1 1 1 false 4, true, 1, u.tick)]) ∧
    s.Idle ∧ s.MayWrite (512 * 1) ∧ (t.rx 1).val + (t.rx 2).val * BitVec.ofNat 64 0 = scratchVa 0 ∧ s.Unbound ∧ (t.rx 0).val.toNat ≤ 16384 ∧
    (t.live.v.get 2).fifo.length + 1 ≤ 4 := by
    intro s t
    and_intros <;> decide +kernel

theorem witness_MatrixPassesAndDrains_peers :
    let s := mxTwo [(3, 1)]
    let t := s.thr 0
    s.Free .mx ∧ t.rank = some 1 ∧ (0 : BitVec 3).toNat ≠ 1 ∧ (0 : BitVec 3).toNat < t.gangSize ∧ s.peerKey t 0 = some 1 ∧ (t.rx 3).val.toNat = 1 ∧
    (∀ i, i < 1 → t.cb.has (1 + i) = true) ∧ (∀ i, i < 1 → 1 + i < 16 ∧ (s.thr 1).cb.has (1 + i) = true ∧ ((s.thr 1).cb.get (1 + i)).mem.wf = true ∧
      ((s.thr 1).cb.get (1 + i)).owner.Rising ∧ ((s.thr 1).cb.get (1 + i)).status.Rising) ∧
    (∀ i, i < 1 → (((s.thr 1).cb.get (1 + i / 256)).status.get (i % 256)).toNat % 2 = 0) ∧ (t.ver t.curVer.id).deps = [] ∧
    ((s.thr 1).ver (s.thr 1).curVer.id).useKnext + 131072 * ((1 + 255) / 256) ≤ s.budgetOf (s.thr 1).cid ((s.thr 1).ver (s.thr 1).curVer.id) ∧
    (s.thr 1).rounds = [] ∧ (1 = if (0 : BitVec 3) = 0 then 1 else 0) ∧ (s.thr 1).inEntry = false ∧
    (((mxQ (.mdrainp 1 0 1 3) 1).thr 0).queue .mx).entries.map (fun q => (q.word, (q.op 0).val, q.ver, q.progress)) = [(.mdrainp 1 0 1 3, 1, 1, 0)] := by
  and_intros <;> decide +kernel

theorem witness_MatrixPassesAndDrains_rows :
    (∀ b, b < 4 → zeroTile.mem.tag (256 * 0 + 64 * b) = 0x7F12 ∧ ∀ i, i < 128 → zeroTile.mem.tag (256 * i + 64 * b) = 0x7F12) ∧ (default : Slot).mem.wf = true ∧
    ((({ (default : Slot) with status := [(0, 3)] } : Slot).status.get 0).toNat % 4 = 3) ∧ (default : Slot).owner.get 0 = zeroTile.owner.get 0 := by
  and_intros <;> decide +kernel

/-- A state for copies: x1 at the start of the scratch, x2 and x3 as given, a count of 1 for a tag list at byte 8192, a staging extent. -/
def Sys2Proof.Tests.cpS (b c : W64) : State :=
  let s := on fun t => { t with
    scratch := { cells := [(8192, 1)], tags := [] }
    live := { t.live with x := [(1, { val := scratchVa 0, taint := 0, sat := false }), (2, { val := b, taint := 0, sat := false }), (3, { val := c, taint := 0, sat := false })] } }
  { s with ctxs := [(0, { (s.ctx 0) with staging := [[0x40000000000]] })] }

theorem ownScratch_cpS (b c : W64) (off n : Nat) (h0 : 0 < n) (hn : off + n ≤ 16384) : (cpS b c).OwnScratch off n :=
  ownScratch_granule (cpS b c) rfl rfl rfl (by intro p hp; simp [cpS, on, base, State.updThr, State.setThr, NMap.put] at hp; subst hp; rfl) ⟨rfl, rfl⟩ off n h0 hn

theorem witness_CopiesAndFills :
    let s := cpS (scratchVa 4096) 512
    let t := s.thr 0
    s.Free .cp ∧ s.Idle ∧ s.waiters = [] ∧ (⟨false, 0, 191⟩ : FlagRef).group = false ∧ t.lines = [] ∧ s.allAcked s.cur = true ∧ flagRef 0 0 none 0 = some ⟨false, 0, 0⟩ ∧ flagRef 0 0 none 191 = some ⟨false, 0, 191⟩ ∧
    (t.ver t.curVer.id).deps = [] ∧ (∀ p ∈ s.threads, p.2.scores = []) ∧ t.scratch.wf = true ∧ (t.rx 1).val = scratchVa 0 ∧
    (t.rx 2).val = scratchVa 4096 ∧ s.OwnScratch 0 512 ∧ s.OwnScratch 4096 512 ∧ s.MayWrite (512 + 128) ∧ 512 % sizeBytes .d = 0 ∧
    ((cpS (scratchVa 4096) 0x100007F12).OwnScratch 0 (64 * 1) ∧ (cpS (scratchVa 4096) 0x100007F12).OwnScratch 4096 (64 * 1) ∧
      (((cpS (scratchVa 4096) 0x100007F12).thr 0).rx 3).val.toNat / 2 ^ 32 = 1) ∧
    ((((cpS (scratchVa 4096) (scratchVa 8192)).thr 0).rx 3).val = scratchVa 8192 ∧
      ((cpS (scratchVa 4096) (scratchVa 8192)).thr 0).scratch.readLE 8192 4 = 1 ∧ (cpS (scratchVa 4096) (scratchVa 8192)).OwnScratch 8192 (4 + 4 * 1)) ∧
    512 % redBytes .f32 = 0 ∧
    ((s.ctx 0).staging = [[0x40000000000]] ∧ ([0x40000000000] : List W64).head? = some 0x40000000000 ∧ (extentOf 0x40000000000).1 = 0 ∧
      0 + 4096 ≤ (extentOf 0x40000000000).1 + (extentOf 0x40000000000).2 ∧ (cpS 0 4096).OwnScratch 0 4096 ∧ (cpS 0 4096).staging.wf = true) ∧
    ((((cpS (scratchVa 4096) 0x8900000004).thr 0).rx 3).val.toNat % 2 ^ 32 = 4 ∧ Ty.ofCode? (0x8900000004 / 2 ^ 32 % 16) = some .i16 ∧
      Ty.ofCode? (0x8900000004 / 2 ^ 36 % 16) = some .i8 ∧ 0x8900000004 < 2 ^ 44 ∧ Ty.i16.isInt = true ∧ Ty.i8.isInt = true ∧
      (cpS (scratchVa 4096) 0x8900000004).OwnScratch 0 (4 * Ty.i8.width / 8) ∧ (cpS (scratchVa 4096) 0x8900000004).OwnScratch 4096 (4 * Ty.i16.width / 8)) ∧
    ((((cpS (scratchVa 4096) 0x2300000004).thr 0).rx 3).val.toNat % 2 ^ 32 = 4 ∧ Ty.ofCode? (0x2300000004 / 2 ^ 32 % 16) = some .e4m3 ∧
      Ty.ofCode? (0x2300000004 / 2 ^ 36 % 16) = some .bf16 ∧ Ty.e4m3.fmtCode?.isSome = true ∧ 0x2300000004 / 2 ^ 40 % 8 < 5 ∧
      ((cpS (scratchVa 4096) 0x2300000004).thr 0).scratch.tag (4096 + 64 * 0) = 0 ∧
      (cpS (scratchVa 4096) 0x2300000004).OwnScratch 0 (4 * Ty.bf16.width / 8) ∧ (cpS (scratchVa 4096) 0x2300000004).OwnScratch 4096 (4 * Ty.e4m3.width / 8)) := by
    intro s t
    and_intros <;> first | decide +kernel | exact sound_of_untagged _ (by decide +kernel)

/-- A state for copies by descriptor: the descriptor at the start of the scratch, handle 1 of WB and AB bound. -/
def Sys2Proof.Tests.cdS (cells : List (Nat × Byte)) (a b : W64) : State :=
  on fun t => { t with
    scratch := { cells := cells, tags := [] }, wb := [(1, default)], ab := [(1, default)]
    live := { t.live with x := [(1, { val := a, taint := 0, sat := false }), (2, { val := b, taint := 0, sat := false }), (3, { val := scratchVa 0, taint := 0, sat := false })] } }

/-- Descriptors of one row, or of the 128 rows of a weight tile: planes, a weight tile, activation rows, and gathered rows. -/
def Sys2Proof.Tests.cdP : List (Nat × Byte) := [(0, 64), (4, 1), (24, 1)]
def Sys2Proof.Tests.cdW : List (Nat × Byte) := [(1, 1), (4, 128), (8, 64), (24, 1), (26, 1)]
def Sys2Proof.Tests.cdA : List (Nat × Byte) := [(1, 1), (4, 1), (24, 1), (26, 2)]
def Sys2Proof.Tests.cdG : List (Nat × Byte) := [(0, 64), (4, 1), (9, 0x30), (15, 0xFE), (16, 64)]
def Sys2Proof.Tests.cdGA : List (Nat × Byte) := [(1, 1), (4, 1), (9, 0x30), (15, 0xFE), (16, 64), (32, 0x20)]

/-- The words of a descriptor. -/
def Sys2Proof.Tests.dw (s : State) (j : Nat) : W64 := BitVec.ofNat 64 ((s.thr 0).scratch.readLE (8 * j) 8)

theorem ownScratch_cdS (c : List (Nat × Byte)) (h : (⟨c, []⟩ : Memory).wf = true) (a b : W64) (off n : Nat) (h0 : 0 < n) (hn : off + n ≤ 16384) :
    (cdS c a b).OwnScratch off n :=
  ownScratch_granule (cdS c a b) rfl rfl rfl (by intro p hp; simp [cdS, on, base, State.updThr, State.setThr, NMap.put] at hp; subst hp; rfl) ⟨h, rfl⟩ off n h0 hn

theorem witness_CopiesByDescriptor_planes :
    let s := cdS cdP (scratchVa 8192) (scratchVa 4096)
    s.Free .cp ∧ s.Idle ∧ s.waiters = [] ∧ (∀ p ∈ s.threads, p.2.scores = []) ∧ (s.thr 0).scratch.wf = true ∧ ((s.thr 0).rx 3).val = scratchVa 0 ∧
    s.OwnScratch 0 64 ∧ (dw s 0).toNat % 2 ^ 32 = 64 ∧ (dw s 0).toNat / 2 ^ 32 = 1 ∧ (dw s 3).toNat % 2 ^ 16 = 1 ∧ (dw s 3).toNat / 2 ^ 16 = 0 ∧
    dw s 6 = 0 ∧ dw s 7 = 0 ∧
    (∀ i, i < 1 * 1 → scratchVa 4096 + dw s 4 * BitVec.ofNat 64 (i / 1) + dw s 1 * BitVec.ofNat 64 (i % 1) = scratchVa 4096 ∧
      scratchVa 8192 + dw s 5 * BitVec.ofNat 64 (i / 1) + dw s 2 * BitVec.ofNat 64 (i % 1) = scratchVa 8192) ∧
    s.MayWrite (1 * (64 + 128)) ∧ s.OwnScratch 4096 64 ∧ s.OwnScratch 8192 64 := by
    intro s
    and_intros <;> first | decide +kernel | exact sound_of_untagged _ (by decide +kernel)

theorem witness_CopiesByDescriptor_tiles :
    (let s := cdS cdW 1 (scratchVa 4096)
     (dw s 0).toNat % 2 ^ 32 = 256 ∧ (dw s 0).toNat / 2 ^ 32 = 128 ∧ (dw s 3).toNat % 2 ^ 16 = 1 ∧ (dw s 3).toNat / 2 ^ 16 = 1 ∧ dw s 1 = 64 ∧
     dw s 2 = 0 ∧ dw s 5 = 0 ∧ dw s 6 = 0 ∧ dw s 7 = 0 ∧ (∀ i, i < 1 → (s.thr 0).wb.has (1 + i) = true ∧ ((s.thr 0).wb.get (1 + i)).mem.wf = true ∧
       ((s.thr 0).wb.get (1 + i)).owner.Rising)) ∧
    (∀ i, i < 128 → scratchVa 4096 + 64 * BitVec.ofNat 64 i = scratchVa (4096 + 64 * i) ∧ (cdS cdW 1 (scratchVa 4096)).OwnScratch (4096 + 64 * i) 256) ∧
    (let s := cdS cdA 1 (scratchVa 4096)
     (dw s 0).toNat % 2 ^ 32 = 256 ∧ (dw s 0).toNat / 2 ^ 32 = 1 ∧ (dw s 3).toNat % 2 ^ 16 = 1 ∧ (dw s 3).toNat / 2 ^ 16 = 2 ∧ dw s 1 = 0 ∧
     dw s 2 = 0 ∧ dw s 5 = 0 ∧ (∀ i, i < 1 → (s.thr 0).ab.has (1 + i) = true ∧ ((s.thr 0).ab.get (1 + i)).mem.wf = true ∧
       ((s.thr 0).ab.get (1 + i)).owner.Rising)) ∧ (cdS cdA 1 (scratchVa 4096)).OwnScratch 4096 256 :=
  ⟨by and_intros <;> decide +kernel,
    fun i hi => ⟨by
      apply BitVec.eq_of_toNat_eq
      simp [scratchVa]
      try omega, ownScratch_cdS _ (by decide) _ _ _ _ (by omega) (by omega)⟩,
    by and_intros <;> decide +kernel, ownScratch_cdS _ (by decide) _ _ _ _ (by omega) (by omega)⟩

theorem witness_CopiesByDescriptor_indices :
    (let s := cdS cdG (scratchVa 8192) (scratchVa 4096)
     (dw s 0).toNat / 2 ^ 32 = 1 ∧ (dw s 4).toNat % 4 = 0 ∧ (dw s 4).getLsbD 3 = false ∧ dw s 5 = 0 ∧ dw s 6 = 0 ∧ dw s 7 = 0 ∧ dw s 1 = scratchVa 12288 ∧
     (dw s 4).toNat / 16 = 0 ∧ (s.thr 0).scratch.readLE (12288 + 4 * 0) 4 = 0 ∧ scratchVa 4096 + 0 * dw s 2 = scratchVa 4096 ∧
     scratchVa 8192 + dw s 3 * BitVec.ofNat 64 0 = scratchVa 8192 ∧ 8192 + 64 ≤ 12288) ∧
    (cdS cdG (scratchVa 8192) (scratchVa 4096)).OwnScratch 12288 (1 * 4) ∧
    (let s := cdS cdGA 1 (scratchVa 4096)
     (dw s 0).toNat % 2 ^ 32 = 256 ∧ (dw s 0).toNat / 2 ^ 32 = 1 ∧ (dw s 4).toNat / 16 = 2 ∧ (dw s 4).toNat % 4 = 0 ∧ (1 : W64).toNat < 64 ∧
     (s.thr 0).ab.has 1 = true) ∧ (cdS cdGA 1 (scratchVa 4096)).OwnScratch 4096 256 :=
  ⟨by and_intros <;> decide +kernel, ownScratch_cdS _ (by decide) _ _ _ _ (by omega) (by omega), by and_intros <;> decide +kernel,
    ownScratch_cdS _ (by decide) _ _ _ _ (by omega) (by omega)⟩

/-- A thread with so many entries in the queue of VA. -/
def Sys2Proof.Tests.vaQ (n : Nat) : State := on fun t => { t with queues := [(2, { entries := List.replicate n default, pushed := n })] }

theorem witness_ThreadRegistersAndEviction : (base.thr 0).alive = true ∧
    (∀ e ∈ engs, (((vaQ 16).thr 0).queue e).entries.length ≤ 16 * ((0 : W64).toNat / 16 ^ (e.code - 1) % 16 + 1)) ∧
    ¬ (∀ e ∈ engs, (((vaQ 17).thr 0).queue e).entries.length ≤ 16 * ((0 : W64).toNat / 16 ^ (e.code - 1) % 16 + 1)) ∧
    ((base.thr 0).queue .va).entries = [] ∧ (((vaQ 1).thr 0).queue .va).entries ≠ [] ∧
    ((privd 1).banks.get ((((privd 1).ctx 0).reg 0x130).toNat % 256)).holder = ((privd 1).thr 0).cid + 2 ∧
    (base.banks.get (((base.ctx 0).reg 0x130).toNat % 256)).holder ≠ (base.thr 0).cid + 2 ∧ (9 : W64).toNat % 65536 < 10 ∧
    256 ≤ (256 : W64).toNat % 65536 ∧ 0 = 0 * 65536 + 0 ∧ (base.thr 0).run = .resident ∧ (base.thr 0).live.x.Rising ∧ (base.thr 0).live.k.Rising ∧
    0x827 = 0x820 + 7 ∧ 31 / 4 = 7 ∧ 0x82F = 0x828 + 7 := by
  and_intros <;> decide +kernel

/-- A packet for thread 0 of the context, at endpoint 5, with a place on its flow. -/
def Sys2Proof.Tests.hdr (n : Nat) (o : Bool) : FabHdr := { (default : FabHdr) with ep := 5, srcEp := 9, flow := 1, seq := n, ordered := o }

/-- The base state with endpoint 5, the context in a STATE, and so many parked packets. -/
def Sys2Proof.Tests.fab (st n : Nat) : State :=
  { base with
    endpoints := [(5, { pkg := 0, cid := 0, gen := 0, st := 0 })]
    ctxs := [(0, { ((base.ctx 0).withState st) with store := List.replicate n default })] }

theorem inTurn_fab (st n : Nat) (o : Bool) : (fab st n).InTurn (hdr 0 o) :=
  ⟨fun _ hf => (List.not_mem_nil hf).elim, fun _ => rfl⟩

theorem early_fab (st n : Nat) (o : Bool) : (fab st n).Early (hdr 1 o) :=
  ⟨fun _ hf => (List.not_mem_nil hf).elim, fun _ => by show 0 < 1; decide⟩

theorem store_fab (st n : Nat) : ((fab st n).ctx 0).store.length = n := List.length_replicate

/-- The state in which block 0 of the scratch is POISON. -/
def Sys2Proof.Tests.spoiltS : State := (fab 1 0).updThr 0 fun t => { t with scratch := { t.scratch with tags := [(0, 0x30)] } }

theorem witness_FabricPacketsPerform : (fab 1 0).Reaches (hdr 0 true) 0 ∧ (∀ p ∈ (fab 1 0).threads, p.2.scores = []) ∧
    isPoison (((fab 1 0).thr 0).scratch.tag 0) = false ∧ ((fab 1 0).thr 0).wrote = [] ∧ (spoiltS.thr 0).wrote = [] ∧
    ((fab 2 1023).ctx 0).parked (hdr 0 true) = false ∧ spoiltS.Reaches (hdr 0 true) 0 ∧ spoiltS.InTurn (hdr 0 true) ∧ spoiltS.waiters = [] ∧
    (spoiltS.thr 0).alive = true ∧ (spoiltS.thr 0).scratch.wf = true ∧ (spoiltS.thr 0).wp = [] ∧ (∀ p ∈ spoiltS.threads, p.2.scores = []) ∧
    isPoison ((spoiltS.thr 0).scratch.tag 0) = true ∧ markedReads (.load .d) = true ∧ 0 + markedBytes (.load .d) ≤ (spoiltS.thr 0).scratchG * 16384 ∧
    serviceBase ≤ ({ hdr 0 true with ep := 0xFFFF0001 } : FabHdr).ep.toNat ∧ (fab 1 0).waiters = [] ∧ ((fab 1 0).thr (0 * 65536 + 0)).alive = true ∧
    ((fab 1 0).thr (0 * 65536 + 0)).scratch.wf = true ∧ ((fab 1 0).thr (0 * 65536 + 0)).wp = [] ∧ (fab 1 0).InTurn (hdr 0 true) ∧
    (16383 : BitVec 32).toNat / 64 * 64 < ((fab 1 0).thr 0).scratchG * 16384 ∧ ((fab 1 0).thr 0).scratchG * 16384 ≤ (16384 : BitVec 32).toNat / 64 * 64 ∧
    (16376 : BitVec 32).toNat + sizeBytes .d ≤ ((fab 1 0).thr 0).scratchG * 16384 ∧ (fab 1 0).Early (hdr 1 true) ∧ (hdr 1 true).ordered = true ∧
    (fab 1 0).Early (hdr 1 false) ∧ (hdr 1 false).ordered = false ∧ base.endpoints.has (hdr 0 true).ep.toNat = false ∧
    ((fab 3 0).ctx 0).stateOf = 3 ∧ ((fab 2 0).ctx 0).stateOf = 2 ∧ ((fab 2 0).ctx 0).relay = none ∧ (hdr 0 true).ep.toNat ≠ serviceBase + base.pkg.self ∧
    ((fab 2 1024).ctx 0).store.length = 1024 ∧ ((fab 2 1023).ctx 0).store.length < 1024 ∧ ((fab 2 1023).ctx 0).awaitEnd = false ∧
    (fab 2 1023).InTurn (hdr 0 true) ∧ (fab 2 1023).inflows = [] ∧ (0xFFFF0000 : W32).toNat = serviceBase + base.pkg.self := by
  and_intros <;> decide +kernel

/-- The base state with one packet that awaits its answer, sent through window 0 under an allowance of 1, and a dirty line of it. -/
def Sys2Proof.Tests.sentS (k : PktKind) (retry limit : Nat) (d : BitVec 64) : State :=
  let s := on fun t => { t with
    win := [(0, { target := 0x8000000500000000, limit := BitVec.ofNat 10 limit, inflight := 1 })], sqPkt := some (3, none)
    lines := [(lineKey 0 2, { data := 0, valid := true, dirty := d })] }
  { s with outbox := [{ (default : Packet) with id := 3, kind := k, retry := retry }], tick := 256 }

/-- The same state where nothing but the listed prefetches asked for the packet. -/
def Sys2Proof.Tests.idleS (k : PktKind) (l : List Nat) : State := (sentS k 0 1 1).updThr 0 fun t => { t with sqPkt := none, prefs := l }

theorem witness_FabricAnswersAndLines :
    ((sentS (.write 0 0 1 none) 0 1 1).packet 0 3).isSome = true ∧ ((sentS (.write 0 0 1 none) 0 1 1).thr 0).alive = true ∧
    ((sentS (.write 0 0 1 none) 0 1 1).packet 0 3) = ((idleS (.write 0 0 1 none) []).packet 0 3) ∧ ((idleS (.write 0 0 1 none) []).thr 0).awaits 3 = false ∧
    ((idleS (.write 0 0 1 none) []).thr 0).prefs.contains 3 = false ∧ (idleS (.lineRead 128) [3]).packet 0 3 ≠ none ∧ ((idleS (.lineRead 128) [3]).thr 0).prefs = [3] ∧
    (idleS (.lineRead 128) [3]).lineCount 0 < 4096 ∧ ((sentS (.lineRead 128) 0 1 1).thr 0).awaits 3 = true ∧
    ((sentS (.lineRead 128) 0 1 1).thr 0).prefs.contains 3 = false ∧
    ((sentS (.lineRead 128) 0 1 1).packet 0 3).isSome = true ∧ ((sentS (.lineRead 128) 0 1 1).thr 0).sqPkt = some (3, none) ∧
    ((sentS (.marked 0 (.load .d)) 0 1 1).packet 0 3).isSome = true ∧ ((sentS (.marked 0 (.load .d)) 0 1 1).thr 0).awaits 3 = true ∧ ((sentS (.marked 0 (.load .d)) 0 1 1).thr 0).prefs.contains 3 = false ∧
    ((sentS (.signal 1 1) 256 1 1).packet 0 3).isSome = true ∧ ((sentS (.signal 1 1) 256 1 1).packet 0 3).all (fun p => decide (p.retry = 256)) = true ∧ 256 ≤ (sentS (.signal 1 1) 256 1 1).tick ∧
    (∀ q ∈ (sentS (.signal 1 1) 257 1 1).outbox, (sentS (.signal 1 1) 257 1 1).tick < q.retry) ∧
    ((sentS (.write 0 0 1 none) 0 1 1).thr 0).run = .resident ∧
    (((sentS (.write 0 0 1 none) 0 1 1).updThr 0 fun t => { t with run := .trapped }).thr 0).run ≠ .resident ∧
    ((sentS (.write 0 0 1 none) 0 1 1).thr 0).reports = [] ∧ 2 < 32768 ∧ ((sentS (.write 0 0 1 none) 0 1 1).thr 0).lines.has (lineKey 0 2) = true ∧
    (((sentS (.write 0 0 1 none) 0 1 0).thr 0).lines.get (lineKey 0 2)).dirty = 0 ∧ (((sentS (.write 0 0 1 none) 0 1 1).thr 0).lines.get (lineKey 0 2)).dirty ≠ 0 ∧
    (((sentS (.write 0 0 1 none) 0 1 1).thr 0).ver ((sentS (.write 0 0 1 none) 0 1 1).thr 0).curVer.id).deps = [] ∧
    (sentS (.write 0 0 1 none) 0 1 1).outbox.length < 1024 ∧
    (((sentS (.write 0 0 1 none) 0 2 1).thr 0).win.get 0).inflight < (((sentS (.write 0 0 1 none) 0 2 1).thr 0).win.get 0).limit.toNat ∧
    (((sentS (.write 0 0 1 none) 0 1 1).thr 0).win.get 0).limit.toNat ≤ (((sentS (.write 0 0 1 none) 0 1 1).thr 0).win.get 0).inflight := by
  and_intros <;> decide +kernel

/-- The base state with a thread, number 1, that waits for a slot since tick 0, alone or in a gang that starts at a tick. -/
def Sys2Proof.Tests.place (held : Bool) : State :=
  { other .waiting with
    places := [{ (default : PlaceReq) with keys := [1] }], tick := 125000
    gangHolds := if held then [{ (default : GangHold) with keys := [1], start := 200000 }] else [] }

/-- The state in which an image of so many words is resident in model slot 1. -/
def Sys2Proof.Tests.bigImage (n : Nat) : State :=
  { base with images := base.images.put 1 { (default : Image) with resident := true, text := List.replicate n 0x02000000#32 } }

theorem imageRoom_big (n : Nat) : (bigImage n).imageRoom 1 = (n + 511) / 512 * 512 := by
  show ((List.replicate n 0x02000000#32).length + 511) / 512 * 512 = _
  rw [List.length_replicate]

theorem inUse_big (n : Nat) : (bigImage n).imagesInUse 0 = [0] := rfl

theorem room0_big (n : Nat) : (bigImage n).imageRoom 0 = 512 := by
  have h : ((bigImage n).images.get 0).text.length = 8 := rfl
  simp [State.imageRoom, h]

theorem imageFits_big (n : Nat) (h : 32256 < n) : (bigImage n).imageFits 0 1 = false := by
  simp only [State.imageFits, inUse_big, State.fitsBeside, State.roomOf, List.foldl, imageRoom_big, room0_big]
  simp
  omega

theorem witness_PlacementGivesSlots : (place false).places[0]? = some { (default : PlaceReq) with keys := [1] } ∧ ([1] : List Nat).Nodup ∧
    (place false).fwHeld = false ∧ (place false).stopped = false ∧ (place false).mayLeave { (default : PlaceReq) with keys := [1] } = true ∧
    (place false).judgeGangs = place false ∧ (place false).gangOver [1] = false ∧ (∀ k ∈ [1], ((place false).thr k).gang = 0 → [1] = [k]) ∧
    (place true).judgeGangs = place true ∧ (place true).gangOver [1] = false ∧
    (((place false).places.take 0).all fun p => !((place false).mayLeave p && (place false).canMeet p)) = true ∧
    ((place false).assignAt { (default : PlaceReq) with keys := [1] } 831).isSome = true ∧ ((place false).thr 1).placed = false ∧
    ((place false).thr 1).run = .waiting ∧ (∀ g ∈ (place false).gangHolds, 1 ∉ g.keys) ∧ (∃ g ∈ (place true).gangHolds, 1 ∈ g.keys) ∧
    ((place false).thr 1).gang = 0 ∧ (place false).assignAt { (default : PlaceReq) with keys := [1] } 832 = none ∧
    ([0] : List Nat).Nodup ∧ ([0] : List Nat).length = ([1] : List Nat).length ∧ (place false).couldMeet { (default : PlaceReq) with keys := [1] } [0] = true ∧ (∀ c ∈ [0], c / 8 = [0].headD 0 / 8) ∧
    0 + 125000 ≤ (place false).tick ∧ ({ place false with tick := 124999 } : State).tick < 0 + 125000 ∧
    (∀ e ∈ (place false).threads, (place false).thr e.1 = e.2) ∧ (slots.images.get 1).resident = true ∧ slots.imageFits 831 1 = true ∧ 831 < 832 := by
  and_intros <;> decide +kernel

theorem witness_PlacementGivesSlots_big : ((bigImage 32768).images.get 1).resident = true ∧ (bigImage 32768).imageFits 0 1 = false :=
  ⟨rfl, imageFits_big _ (by decide)⟩

/-- A thread that waits in a WAITF since tick 0, was asked to leave at tick 0, and has a version that wrote a block of HBM, published or not. -/
def Sys2Proof.Tests.leave (tick : Nat) (pub : Bool) (asked : Option Nat) : State :=
  let s := on fun t => { t with
    wait := { kind := .flag, since := 0 }, preemptReq := asked
    versions := [{ freshVersion 1 fetchRec with published := pub, undo := [{ (default : Undo) with line := 1 }] }] }
  { s with tick := tick, ctxs := [(0, { (s.ctx 0) with quarantine := [(7, 0)], desc := (s.ctx 0).desc.put 4 1000 })] }

/-- A thread with an outgoing version, and an entry of it queued or not. -/
def Sys2Proof.Tests.lands (queued : Bool) : State :=
  on fun t => { t with
    versions := [{ freshVersion 1 fetchRec with landing := some { (default : Landing) with frame := t.live } }, freshVersion 2 fetchRec]
    queues := if queued then [(4, { entries := [{ (default : QEntry) with ver := 1 }], pushed := 1 })] else [] }

/-- A packet for thread 7 that waits its turn, and a host signal for it that has been released. -/
def Sys2Proof.Tests.owed : State :=
  { leave 1250000 false none with
    endpoints := [(5, { pkg := 0, cid := 0, gen := 0, st := 0 })]
    inflows := [{ (default : InFlow) with ep := 5, waiting := [{ (default : InPkt) with h := { (default : FabHdr) with thread := 7 } }] }]
    lqs := [(0, { (default : LQueue) with released := [⟨.signal 7 1 1, 0, 0, 0⟩] })] }

theorem witness_ThreadsLeaveAndLand : 0 < passBase ∧ (∀ w ∈ (leave 1000 false none).waiters, w.key = 0 → w.unit = 0) ∧
    (leave 1250000 false none).inboundFor 0 7 = false ∧ (leave 1250000 false none).signalFor 0 7 = false ∧ owed.inboundFor 0 7 = true ∧
    owed.signalFor 0 7 = true ∧ ((leave 1250000 false (some 0)).thr 0).alive = true ∧ ((leave 1250000 false (some 0)).thr 0).run = .resident ∧
    ((leave 1000 false none).thr 0).wait.kind = .flag ∧ ((leave 1000 false none).thr 0).wait.since + ((leave 1000 false none).ctx 0).park ≤ (leave 1000 false none).tick ∧
    (leave 999 false none).tick < ((leave 999 false none).thr 0).wait.since + ((leave 999 false none).ctx 0).park ∧ (leave 0 false none).fwHeld = false ∧
    ((leave 0 false none).thr 0).preemptReq = none ∧ (∀ p ∈ (leave 0 false none).threads, (leave 0 false none).thr p.1 = p.2) ∧
    ((leave 1250000 false (some 0)).thr 0).preemptReq = some 0 ∧ 0 + 1250000 ≤ (leave 1250000 false (some 0)).tick ∧
    ((leave 1250000 false (some 0)).thr 0).versions.all (fun v => !v.published) = true ∧ ((leave 1250000 false (some 0)).thr 0).gang = 0 ∧
    (leave 1249999 false (some 0)).tick < 0 + 1250000 ∧ ¬ ((leave 1250000 true (some 0)).thr 0).versions.all (fun v => !v.published) = true ∧
    (leave 0 false none).mscUse + 7516192704 ≤ 7516192768 ∧ 7516192768 < (leave 0 false none).mscUse + 7516192705 ∧
    0 < ((leave 0 false none).thr 0).mscBytes ∧ (∀ p ∈ (leave 0 false none).threads, p.1 ≠ 0 → p.2.mscBytes < ((leave 0 false none).thr 0).mscBytes) ∧
    ((lands false).thr 0).alive = true ∧ ((lands false).thr 0).versions.map (·.id) = [1, 2] ∧
    (((lands false).thr 0).versions.map fun v => v.landing.isSome) = [true, false] ∧
    (∀ e ∈ engs, ∀ x ∈ (((lands false).thr 0).queue e).entries, x.ver ≠ 1) ∧ (∃ e ∈ engs, ∃ x ∈ (((lands true).thr 0).queue e).entries, x.ver = 1) ∧
    7 < 65536 ∧ ((leave 1250000 false none).ctx 0).quarantine.has 7 = true ∧ ((leave 1250000 false none).ctx 0).quarantine.Rising ∧
    ((leave 1250000 false none).ctx 0).quarantine.get 7 + 1250000 ≤ (leave 1250000 false none).tick ∧ (leave 0 false none).tasks = [] ∧
    (leave 0 false none).outbox = [] ∧ (leave 1249999 false none).tick < ((leave 1249999 false none).ctx 0).quarantine.get 7 + 1250000 := by
  and_intros <;> decide +kernel


/-! ### Deadlock, gangs, errors -/

/-- The base thread blocked on a wait since tick 0, at a tick; one of its versions may depend on a discarded one. -/
def Sys2Proof.Tests.stuck (k : WaitKind) (tick : Nat) (deps : List Nat) : State :=
  let s := on fun t => { t with wait := { kind := k, since := 0 }, versions := [{ freshVersion 1 fetchRec with deps := deps }] }
  { s with tick := tick }

/-- An MX queue whose head claims a WB slot, at the head since a tick. -/
def Sys2Proof.Tests.claimQ (at_ : Nat) : NMap Queue :=
  [(4, { entries := [{ (default : QEntry) with word := .mclaim .wb 5 1, since := some at_ }], pushed := 1 })]

/-- Two threads of core 0 that hold WB slots and claim another, since ticks 0 and 1. -/
def Sys2Proof.Tests.cycle (tick : Nat) : State :=
  { base with
    threads := [(0, { fetchThread with wb := [(1, default)], queues := claimQ 0 }), (1, { fetchThread with num := 1, wb := [(1, default)], queues := claimQ 1 })]
    tick := tick }

theorem witness_DeadlocksAndTrapsReachThreads : 0 < passBase ∧
    (∀ p ∈ [(WaitKind.waitc, 4), (.ticket, 9), (.flag, 1)], let s := stuck p.1 4096 []
      (s.thr 0).alive = true ∧ (s.thr 0).run = .resident ∧ (s.thr 0).wait.kind = p.1 ∧ (s.thr 0).idleQueues = true ∧
      (∀ e ∈ (s.thr 0).live.v, e.2.strm.active = false) ∧ s.waiters = [] ∧ s.outbox = [] ∧ (s.thr 0).idle + 4096 ≤ s.tick) ∧
    (stuck .flag 4095 []).tick < ((stuck .flag 4095 []).thr 0).idle + 4096 ∧ (mkTrap 19 0 0).cause ≠ 4 ∧ (mkTrap 4 0 0).cause = 4 ∧ 1 ≠ 0 ∧
    (∃ v ∈ ((stuck .flag 0 [9]).thr 0).versions, ∃ d ∈ v.deps, ¬ ∃ p ∈ (stuck .flag 0 [9]).threads, ∃ v ∈ p.2.versions, v.id = d) ∧
    (∀ v ∈ ((stuck .flag 0 []).thr 0).versions, ∀ d ∈ v.deps, ∃ p ∈ (stuck .flag 0 []).threads, ∃ v ∈ p.2.versions, v.id = d) ∧
    ((cycle 4097).claims 0 = [(0, (.wb, 1), 0), (1, (.wb, 1), 1)] ∧ (cycle 4097).claimHolders 0 (.wb, 1) = [0, 1] ∧
      (cycle 4097).claimHolders 1 (.wb, 1) = [0, 1] ∧ ((cycle 4097).thr 0).run = .resident ∧
      ((cycle 4097).thr 1).alive = true ∧ (∀ p ∈ (cycle 4097).threads, ∀ v ∈ p.2.versions, v.deps = []) ∧ 1 + 4096 ≤ (cycle 4097).tick ∧
      (cycle 4096).tick < 1 + 4096) := by
  and_intros <;> decide +kernel

/-- Thread 1 in a gang that starts at tick 1,000, placed or waiting for a slot. -/
def Sys2Proof.Tests.gang (r : Run) (late ok : Bool) (tick : Nat) : State :=
  { other r with tick := tick, gangHolds := [{ (default : GangHold) with keys := [1], start := 1000, late := late, lateOk := ok }] }

theorem witness_GangsStartTogether :
    (∀ ok : Bool, (gang .unstarted false ok 1000).gangHolds[0]? = some { (default : GangHold) with keys := [1], start := 1000, late := false, lateOk := ok }) ∧
    ((gang .unstarted false true 1000).thr 1).alive = true ∧ 1000 ≤ (gang .unstarted false true 1000).tick ∧
    ((gang .unstarted false true 1000).thr 1).run = .unstarted ∧ (gang .unstarted true true 1001).gangHolds.length = 1 ∧
    (gang .unstarted false true 999).tick < 1000 ∧ ((gang .waiting false true 984).thr 1).run ≠ .unstarted ∧ 1000 ≤ (gang .waiting false true 984).tick + 16 ∧
    (∀ p ∈ (gang .waiting false false 984).threads, ∀ v ∈ p.2.versions, v.deps = []) ∧ (gang .waiting false false 983).tick + 16 < 1000 := by
  and_intros <;> decide +kernel

/-- The base state with slots of WB, AB and CB. -/
def Sys2Proof.Tests.slotted : State := on fun t => { t with wb := [(1, default)], ab := [(1, default)], cb := [(1, default)] }

/-- The base state with thresholds of corrected errors, so many of them counted at place 5 of the SRAM, and one reported lasting or none. -/
def Sys2Proof.Tests.errs (n : Nat) (told : Bool) : State :=
  { base with
    pkg := { base.pkg with errThresh := 0x0000000200020002, errWindow := 60 }
    errors := List.replicate n (0, 5, 0), lasting := if told then [(0, 5, 0)] else [] }

/-- The base state with unit 128 sampling every 256 ticks, at a tick. -/
def Sys2Proof.Tests.sampled (tick : Nat) : State :=
  { base with
    banks := [(128, { (default : Bank) with holder := 2, ctl := 1, size := 64 })], ctxs := [(0, { fetchCtx with regs := [(0x135, 0x10001)] })]
    tick := tick }

theorem witness_HardwareErrorsAndSamples : (0 : BitVec 4).toNat < 3 ∧ (2 : BitVec 4).toNat < 3 ∧
    ((errs 1 false).errors.filter fun e => decide (e.1 = 0 ∧ e.2.1 = 5 ∧ (errs 1 false).tick < e.2.2 + (errs 1 false).pkg.errWindow.toNat * 1250000000)).length + 1 = 2 ∧
    (errs 1 false).pkg.errThresh.toNat / 2 ^ (16 * 0) % 65536 = 2 ∧ (errs 1 false).lasting = [] ∧
    ((errs 0 false).errors.filter fun e => decide (e.1 = 0 ∧ e.2.1 = 5 ∧ (errs 0 false).tick < e.2.2 + (errs 0 false).pkg.errWindow.toNat * 1250000000)).length + 1 < 2 ∧
    (∃ e ∈ (errs 1 true).lasting, e.1 = 0 ∧ e.2.1 = 5 ∧ (errs 1 true).tick < e.2.2 + (errs 1 true).pkg.errWindow.toNat * 1250000000) ∧
    (slotted.thr 0).alive = true ∧ 255 < (slotted.thr 0).scratchG * 256 ∧ (slotted.thr 0).wb.has 1 = true ∧ (slotted.thr 0).ab.has 1 = true ∧
    (slotted.thr 0).cb.has 1 = true ∧ 255 < 256 ∧ 0 < passBase ∧ (slotted.thr 0).run = .resident ∧
    ((sampled 256).banks.get 128).holder = 0 + 2 ∧ ((sampled 256).banks.get 128).ctl.getLsbD 0 = true ∧ (((sampled 256).ctx 0).reg 0x135).toNat = 65537 ∧
    65537 % 2 = 1 ∧ 256 ≤ 65537 / 256 % 2 ^ 24 ∧ (sampled 255).tick < ((sampled 255).banks.get 128).last + 65537 / 256 % 2 ^ 24 ∧
    ((sampled 256).banks.get 128).last + 65537 / 256 % 2 ^ 24 ≤ (sampled 256).tick ∧ 32 ≤ ((sampled 256).banks.get 128).size.toNat ∧
    ((sampled 256).threads.filter fun p => p.2.cid = 0 && p.2.runs && decide (p.1 < passBase)).map (·.1) = [0] := by
  and_intros <;> decide +kernel

/-! ### Tile tasks and passes -/

/-- The state with the tensor, and a tile-task descriptor at the start of the scratch, or one with 4 in a reserved field; x1 as given. -/
def Sys2Proof.Tests.tsubS (bad : Bool) (a : W64) : State :=
  msh.updThr 0 fun t => { t with
    scratch := { cells := [(0, 0xCD), (1, 0xAB), (8, 7), (30, 1), (36, 5), (42, 3), (49, 0x80), (50, 3), (56, 64)] ++ (if bad then [(60, 4)] else []), tags := [] }
    live := { t.live with x := [(1, { val := a, taint := 0, sat := false })] } }

/-- A pending task of the state with the tensor: one row, until a tick. -/
def Sys2Proof.Tests.tileT (exp : Nat) : TileTask :=
  { taskOf msh 0 tileD with exp := exp, st := .pending, key := some 0 }

/-- Two pending tasks of one match key, of a class whose FILL is 1 or 3, at tick 10; a full partition where the queue is filled up. -/
def Sys2Proof.Tests.pend2 (fill : Bool) (e1 e2 : Nat) : State :=
  { msh with
    tasks := [(1, tileT e1), (2, tileT e2)], taskNext := 3, tick := 10
    shapes := [(0, (if fill then 0x8001001000100010 else 0x8003001000100010, 1))] }

theorem pendingIn_pend2 (fill : Bool) (e1 e2 : Nat) : (pend2 fill e1 e2).pendingIn 0 = [(1, tileT e1), (2, tileT e2)] := by
  cases fill <;> rfl

theorem witness_TileTasksWaitAndMatch :
    let s := tsubS false (scratchVa 0)
    s.Settled ∧ 0 < passBase ∧ ((s.thr 0).rx 1).val.toNat % 64 = 0 ∧ (((tsubS false (scratchVa 8)).thr 0).rx 1).val.toNat % 64 ≠ 0 ∧
    ends (readSpans (sqReq s 0) [(((s.thr 0).rx 1).val.toNat, 64)] s) false (fun l a => (s.descFail 0 false false l).isNone &&
      !s.partFull (s.partitionOf (taskOf s 0 l)) && decide a.Quiet && a.cur == 0 && ((a.thr 0).ver ((s.thr 0).curVer.id)).deps.isEmpty && a.tasks.isEmpty) = true ∧
    ends (readSpans (sqReq s 0) [(((s.thr 0).rx 1).val.toNat, 64)] (tsubS true (scratchVa 0))) false
      (fun l _ => s.descFail 0 false false l == some (1, 60)) = true ∧
    (([(1, tileT 10), (2, tileT 20)] : List (Nat × TileTask)).map (·.1)).Nodup ∧
    (∀ a ∈ [(1, tileT 10), (2, tileT 20)], ∀ b ∈ [(1, tileT 10), (2, tileT 20)], (pend2 true 10 20).matchKey a.2 = (pend2 true 10 20).matchKey b.2) ∧
    (([(1, tileT 10), (2, tileT 20)] : List (Nat × TileTask)).map (·.2.rows)).sum ≤ ((pend2 true 10 20).shape 0).maxRows ∧
    (∃ e ∈ [(1, tileT 10), (2, tileT 20)], e.2.exp ≤ (pend2 false 10 20).tick) ∧
    ((pend2 true 10 20).shape 0).fill ≤ (([(1, tileT 10), (2, tileT 20)] : List (Nat × TileTask)).map (·.2.rows)).sum ∧
    (∀ e ∈ [(1, tileT 11), (2, tileT 20)], (pend2 false 11 20).tick < e.2.exp) ∧
    (([(1, tileT 11), (2, tileT 20)] : List (Nat × TileTask)).map (·.2.rows)).sum < ((pend2 false 11 20).shape 0).fill ∧
    ({ base with tick := 1250000 } : State).bulletin.at_ + 1250000 ≤ ({ base with tick := 1250000 } : State).tick ∧ base.tick < base.bulletin.at_ + 1250000 := by
  and_intros <;> decide +kernel

/-- The state with the tensor, a pass of one task matched, begun on core 0 or not, and what its task has come to. -/
def Sys2Proof.Tests.passS (core : Option Nat) (cause : Nat) (flag : Bool) (tick : Nat) (one : Bool) : State :=
  { msh with
    tasks := [(1, { tileT 0 with st := .launched, pass := some 5, cause := cause, flag := if flag then some ⟨false, 0, 5⟩ else none })]
    passes := [(5, { events := [], tasks := if one then [1] else [], part := 0, matched := 0, core := core, began := 0, wid := 7, code := 0xABCD, codeSlot := 0 })]
    threads := msh.threads ++ (if core.isSome then [(passBase, { fetchThread with live := { fetchThread.live with bnd := some 0, phase := .epilogue } })] else [])
    tick := tick }

/-- The pass slot of core 0 stands before its TEND. -/
def Sys2Proof.Tests.passOn (tick : Nat) : State := (passS (some 0) 0 true tick true).updThr passBase fun t => { t with live := { t.live with bnd := none } }

theorem witness_PassesBeginAndEnd :
    let s := passS none 0 true 0 true
    s.tasks.Rising ∧ ((s.images.get 0).psafe.find? fun e => e.2.2.2 = 0xABCD) = some (3, 2, 0, 0xABCD) ∧
    0 < ((s.passes.get 5).tasks.map fun x => (s.tasks.get x).rows).sum ∧ (s.passes.get 5).tasks.Nodup ∧ (∀ x ∈ s.tasks, x.2.gone = false) ∧
    (∀ t ∈ [0, 5], let s := passS none 0 true t true
      s.launchBefore.passes.get 5 = s.passes.get 5 ∧ s.launchBefore.tasks = s.tasks ∧ s.launchBefore.mayBegin 5 0 = true ∧ s.launchBefore.mayBegin 5 104 = false ∧
      s.launchBefore.images = s.images ∧ s.launchBefore.shapes = s.shapes) ∧
    (s.passes.get 5).tasks = [1] ∧ s.taskFails (0 / 104) (s.tasks.get 1) = [] ∧ s.mayBegin 5 0 = true ∧ s.mayBegin 5 104 = false ∧
    (∀ f : Bool, ∀ o : Bool, let u := passS (some 0) 0 f 65536 o
      (u.passOf (passBase + 0)).isSome = true ∧ u.tasks.Rising ∧ u.threads.Rising ∧ u.passes.Rising ∧ u.waiters = [] ∧ ((u.passOf (passBase + 0)).map (·.1)) = some 5 ∧ (u.passes.get 5).core = some 0 ∧
      (u.passes.get 5).began + 65536 ≤ u.tick ∧ (u.thr (passBase + 0)).live.bnd.isSome = true ∧ (u.thr (passBase + 0)).idleQueues = true) ∧
    ((passS (some 0) 0 true 0 true).tasks.get 1).pass = some 5 ∧ ((passS (some 0) 0 true 0 true).tasks.get 1).gone = false ∧
    ((passS (some 0) 0 true 0 true).tasks.get 1).key = some 0 ∧ 0 < passBase ∧ ((passS (some 0) 0 true 0 true).thr 0).alive = true ∧
    ((passS (some 0) 0 true 0 true).thr 0).run = .resident ∧ ((passS (some 0) 0 true 0 true).tasks.get 1).cause = 0 ∧
    ((passS (some 0) 0 true 0 true).tasks.get 1).flag = some ⟨false, 0, 5⟩ ∧ ((passS (some 0) 14 false 0 true).tasks.get 1).cause ≠ 0 ∧
    ((passS (some 0) 14 false 0 true).tasks.get 1).cause < 256 ∧ ((passS (some 0) 14 false 0 true).tasks.get 1).flag = none ∧
    ((passOn 0).thr (passBase + 0)).live.bnd = none ∧ 0 < ((passS (some 0) 0 false 65536 true).tasks.get 1).rows ∧
    ((passS (some 0) 0 false 65536 true).tasks.get 1).rows ≤ 256 ∧ ((passS (some 0) 0 false 65536 false).passes.get 5).tasks = [] ∧
    (passOn 65535).tick < 0 + 65536 := by
  and_intros <;> decide +kernel

/-! ### The step -/

/-- The base state at the start of a turn: the issue of thread 0 over a text, an operation of interpreter 0, or an event. -/
def Sys2Proof.Tests.turnS (t : Turn) (text : List W32) : State :=
  { base with
    turns := [t], images := [(0, { (base.images.get 0) with text := text })], interps := [(0, { (default : Interp) with busy := true })]
    progs := [(0, { (default : SpProg) with loaded := true, ops := [0x1F] })] }

theorem witness_StepRunsDecoded :
    (turnS (.issue 0) [0x02000000]).turns = .issue 0 :: [] ∧
    ({ (turnS (.issue 0) [0x02000000]).ticked with turns := [] } : State).Issues 0 ∧
    ((turnS (.issue 0) [0x02000000]).text ((turnS (.issue 0) [0x02000000]).thr 0))[0]? = some 0x02000000 ∧ decodeWord 0x02000000 = .ok (.addi 0 0 0) ∧
    ({ (turnS (.issue 0) [0]).ticked with turns := [] } : State).Issues 0 ∧ ((turnS (.issue 0) [0]).text ((turnS (.issue 0) [0]).thr 0))[0]? = some 0 ∧
    (∃ e, decodeWord 0 = .error e) ∧ ({ (turnS (.issue 0) []).ticked with turns := [] } : State).Issues 0 ∧
    ((turnS (.issue 0) []).text ((turnS (.issue 0) []).thr 0)).length ≤ ((turnS (.issue 0) []).thr 0).live.pc ∧
    (turnS (.interp 0) []).turns = .interp 0 :: [] ∧ ((turnS (.interp 0) []).interps.get 0).busy = true ∧ (turnS (.interp 0) []).ticked.stopped = false ∧ (∀ t ∈ [Turn.issue 0, .interp 0, .event .bulletinRefresh], ∀ l ∈ [[(0x02000000 : W32)], [0], []], (turnS t l).ticked.timedNow = none) ∧
    (∃ t, (gang .unstarted false true 999).ticked.timedNow = some t) ∧ (State.reset.withFetchWord 32 0x02000000).ticked.timedNow = none ∧
    ((turnS (.interp 0) []).prog 0 ((turnS (.interp 0) []).lq 0 0).program).ops[0]? = some 0x1F ∧ decodeSparge 0x1F = .ok .done ∧
    (turnS (.event .bulletinRefresh) []).turns = .event .bulletinRefresh :: [] ∧ State.reset.stopped = false ∧ 0x02000000 < 2 ^ 32 := by
  and_intros <;> first | exact ⟨_, rfl⟩ | decide +kernel

theorem witness_EveryStepAnswers : ∃ s : State, s.turns = [] := ⟨State.reset, by decide +kernel⟩

theorem witness_StepKeepsMemoriesCanonical : base.memWf = true ∧ ∃ t, step base = .next t := ⟨by decide +kernel, ⟨_, rfl⟩⟩

theorem witness_DecodeAndEncodeAgree : (Instr.addi 31 31 0xFFF).wellFormed = true ∧ (Instr.addi 31 31 0xFFF).isWord = true ∧
    (Instr.spargeLoop 127 4095).wellFormed = true ∧ (Instr.spargeLoop 127 4095).isSparge = true ∧ decodeWord 0x02000000 = .ok (.addi 0 0 0) ∧
    decodeSparge 0x1F = .ok .done := by
  and_intros <;> decide +kernel

/-! ## Single steps with values that spec/ works out -/

/-- R238: the quotients and remainders that the rule works out. -/
theorem test_div_negative : ((got (exec (.div 3 1 2) (xs [(1, -7), (2, 2)]))).thr 0).live.x.get 3 = { val := -3, taint := 0, sat := false } := by
  decide +kernel

theorem test_rem_negative : ((got (exec (.rem 3 1 2) (xs [(1, -7), (2, 2)]))).thr 0).live.x.get 3 = { val := -1, taint := 0, sat := false } := by
  decide +kernel

theorem test_divu_zero : (((got (exec (.divu 3 1 2) (xs [(1, 7)]))).thr 0).live.x.get 3).val = 0xFFFFFFFFFFFFFFFF := by decide +kernel

theorem test_remu_zero : (((got (exec (.remu 3 1 2) (xs [(1, 7)]))).thr 0).live.x.get 3).val = 7 := by decide +kernel

/-- R238: the quotient of −2⁶³ by −1, and its remainder. -/
theorem test_div_overflow : (((got (exec (.div 3 1 2) (xs [(1, 0x8000000000000000), (2, -1)]))).thr 0).live.x.get 3).val = 0x8000000000000000 := by
  decide +kernel

theorem test_rem_overflow : (((got (exec (.rem 3 1 2) (xs [(1, 0x8000000000000000), (2, -1)]))).thr 0).live.x.get 3).val = 0 := by decide +kernel

/-- R51: the last chunk of `li x1, 0x1234_5678_9ABC`. -/
theorem test_lihs_chunk : (((got (exec (.lihs 1 0x09ABC) (xs [(1, 0x2468ACF)]))).thr 0).live.x.get 1).val = 0x123456789ABC := by decide +kernel

/-- R239: SLTIU compares with the sign-extended immediate. -/
theorem test_sltiu_extends : (((got (exec (.sltiu 3 1 0x3FFF) (xs [(1, 7)]))).thr 0).live.x.get 3).val = 1 ∧
    (((got (exec (.sltiu 3 1 0x3FFF) (xs [(1, -1)]))).thr 0).live.x.get 3).val = 0 := by decide +kernel

/-- R242: `jalr x1, x1, 0` swaps the return address and the target. -/
theorem test_jalr_swaps : ((got (exec (.jalr 1 1 0) (xs [(1, 5)]))).thr 0).live.pc = 5 ∧
    (((got (exec (.jalr 1 1 0) (xs [(1, 5)]))).thr 0).live.x.get 1).val = 1 := by decide +kernel

/-- The first lane of what a VA instruction makes of entries under a type (R84). -/
def Sys2Proof.Tests.lane0 (i : Instr) (et : Ty) (w : Nat) (es : List VData) : Option (Nat × Nat) :=
  (vaOp i).map fun op =>
    let r := op.run { et := et, rm := .rne, sat := true, ents := (es.map fun d => { (default : VEntry) with data := d }), mask := BitVec.allOnes 512, merge := false, xb := 0, ka := 0, kb := 0, kold := 0 }
    ((r.outs.headD 0).toNat % 2 ^ w, allFlags r.lanes)

/-- R115: the three lanes that the rule works out. -/
theorem test_vunif_words : lane0 (.vunif 1 2 0 false) .f32 32 [0] = some (0x33800000, 0) ∧
    lane0 (.vunif 1 2 0 false) .f32 32 [0x80000000] = some (0x3F000001, 0) ∧
    lane0 (.vunif 1 2 0 false) .f32 32 [0xFFFFFFFF] = some (0x3F7FFFFF, 0) := by decide +kernel

/-- R114: Mix(0, 0) = 0. -/
theorem test_vmix_zero : lane0 (.vmix 1 2 3 0 false false) .f32 32 [0, 0] = some (0, 0) := by decide +kernel

/-- R109: 300 and 470 as e4m3 with saturation, with the flags OF and NX. -/
theorem test_vcvt_tofp8 : lane0 (.vcvt 1 2 .e4m3 .rne 0) .f32 16 [0x43EB000043960000] = some (0x7E79, 20) := by decide +kernel

/-- R107: the pairwise tree of four f32 lanes in the two orders that the rule shows. -/
theorem test_vred_order : lane0 (.vred 1 2 .add 0 false) .f32 32 [0x33800000338000003F800000] = some (0x3F800000, 16) ∧
    lane0 (.vred 1 2 .add 0 false) .f32 32 [0x3F8000003380000033800000] = some (0x3F800001, 0) := by decide +kernel

/-- R108: VARGMAX of the eight lanes of the table, lane 7 masked off: the value 3.0 at lane 2. -/
theorem test_vargmax_tie : ((vaOp (.vargmax 1 2 1 false)).map fun op =>
    (op.run { et := .f32, rm := .rne, sat := false, ents := [{ (default : VEntry) with
      data := 0x41100000800000000000000040400000C0000000404000007FC000003FC00000 }], mask := 0x7F, merge := false, xb := 0, ka := 0, kb := 0, kold := 0 }).outs) =
    some [0x000000020000000040400000] := by decide +kernel

/-- R66, R70: the first six elements of the SQ4 block that the chapter decodes, and its tag. -/
theorem test_sq4_block : tagSubs 0x00247E21 ≠ 0 ∧ ((decodeBlock .sq4 0x00247E21 0x8DF258).1.take 6).map (fun v => (Ty.f32.encode .rne false v).1) =
    [0x40C00000, 0, 0x3F800000, 0xBF000000, 0, 0xC0A00000] ∧ (decodeBlock .sq4 0x00247E21 0x8DF258).2 = false := by decide +kernel

/-- R130: the two placings of three products that the chapter works out, weights 256, 2⁻⁴ and 2⁻⁴ in E4M3. -/
theorem test_mpass_order :
    (element false true ([0x181878, 0x18, 0x18, 0].map (blkOf 0x7F10)) ([0x181878, 0, 0, 0].map (blkOf 0x7F10)) 0).c = 0x47800001 ∧
    (element false true ([0x181878, 0x18, 0x18, 0].map (blkOf 0x7F10)) ([0x78, 0x18, 0x18, 0].map (blkOf 0x7F10)) 0).c = 0x47800000 := by
  decide +kernel

end
end

section
/-! Every step keeps every memory in its canonical form (R3, R67; assumption log entry 1).

`State.Canon` says as a proposition what `State.memWf` computes. The rules of the first part say, once for each way in which an operation is
built, that it keeps this property. Then each operation of the model has one lemma, in the order of the model's files, named after it:
`State.Canon.f` for a function of the state, `f_keeps` for an operation that may stop, `f_canon` for an instruction, an event or a turn. -/

namespace Sys2Proof.Machine

/-! ## The canonical form, as propositions -/

/-- A memory is in canonical form. -/
abbrev Memory.Canon (m : Memory) : Prop := m.wf = true

/-- The image of an operand slot is in canonical form. -/
abbrev Slot.Canon (x : Slot) : Prop := x.mem.Canon

/-- The images that a version keeps for its landing are in canonical form. -/
abbrev Landing.Canon (l : Landing) : Prop := ∀ c ∈ l.cb, c.img.Canon

/-- The images of a landing that may be pending are in canonical form. -/
abbrev LandingCanon (l : Option Landing) : Prop := ∀ x, l = some x → x.Canon

/-- The images of a version that waits to land are in canonical form. -/
abbrev Version.Canon (v : Version) : Prop := LandingCanon v.landing

/-- The memories of a thread, as data: they are in canonical form. A change of another field of a thread does not concern them. -/
structure Images (scratch : Memory) (wb ab cb : NMap Slot) (saved : List CbSave) (promised savedPromised : List (Nat × Nat × Slot))
    (versions : List Version) : Prop where
  scratch : scratch.Canon
  wb : ∀ p ∈ wb, p.2.Canon
  ab : ∀ p ∈ ab, p.2.Canon
  cb : ∀ p ∈ cb, p.2.Canon
  saved : ∀ c ∈ saved, c.img.Canon
  promised : ∀ c ∈ promised, c.2.2.Canon
  savedPromised : ∀ c ∈ savedPromised, c.2.2.Canon
  versions : ∀ v ∈ versions, v.Canon

/-- The memories of a thread are in canonical form. -/
abbrev Thread.Canon (t : Thread) : Prop := Images t.scratch t.wb t.ab t.cb t.saved t.promised t.savedPromised t.versions

/-- The memories of a state, as data: they are in canonical form. A change of another field of the state does not concern them. -/
structure Memories (hbm host staging : Memory) (threads : NMap Thread) : Prop where
  hbm : hbm.Canon
  host : host.Canon
  staging : staging.Canon
  threads : ∀ p ∈ threads, p.2.Canon

/-- Every memory of the package is in canonical form. -/
abbrev State.Canon (s : State) : Prop := Memories s.hbm s.host s.staging s.threads

/-- `Thread.memWf` computes `Thread.Canon`. -/
theorem Thread.memWf_iff (t : Thread) : t.memWf = true ↔ t.Canon := by
  constructor
  · intro h
    simp only [Thread.memWf, Bool.and_eq_true, List.all_eq_true] at h
    obtain ⟨⟨⟨⟨⟨⟨⟨hscratch, hwb⟩, hab⟩, hcb⟩, hsaved⟩, hpromised⟩, hsavedPromised⟩, hversions⟩ := h
    exact ⟨hscratch, hwb, hab, hcb, hsaved, hpromised, hsavedPromised, fun v hv l hl => hversions v hv l (by simp [hl])⟩
  · intro h
    simp only [Thread.memWf, Bool.and_eq_true, List.all_eq_true]
    exact ⟨⟨⟨⟨⟨⟨⟨h.scratch, h.wb⟩, h.ab⟩, h.cb⟩, h.saved⟩, h.promised⟩, h.savedPromised⟩,
      fun v hv l hl => h.versions v hv l (Option.mem_toList.1 hl)⟩

/-- `State.memWf` computes `State.Canon`. -/
theorem State.memWf_iff (s : State) : s.memWf = true ↔ s.Canon := by
  simp only [State.memWf, Bool.and_eq_true, List.all_eq_true, Thread.memWf_iff]
  exact ⟨fun ⟨⟨⟨hhbm, hhost⟩, hstaging⟩, hthreads⟩ => ⟨hhbm, hhost, hstaging, hthreads⟩,
    fun h => ⟨⟨⟨h.hbm, h.host⟩, h.staging⟩, h.threads⟩⟩

/-! ## Outcomes and operations -/

/-- The state after an outcome, if it has one, is canonical. -/
def Out.Canon : Out → Prop
  | .next s => s.Canon
  | .fault _ => True
  | .refused _ => True

/-- The state that a stop keeps, if it keeps one, is canonical. -/
def Stop.Canon : Stop → Prop
  | .trap _ => True
  | .stall _ => True
  | .wait _ s => s.Canon
  | .fault _ s => s.Canon

/-- How an operation ends: with a value that meets `Q` and a canonical state, or with a canonical stop. -/
def EndsWith {α : Type} (Q : α → Prop) : Except Stop (α × State) → Prop
  | .ok r => Q r.1 ∧ r.2.Canon
  | .error e => e.Canon

/-- From a canonical state an operation ends with a canonical one, and its value meets `Q`. -/
def M.Yields {α : Type} (x : M α) (Q : α → Prop) : Prop := ∀ s : State, s.Canon → EndsWith Q (x s)

/-- An operation keeps every memory in canonical form. -/
abbrev M.Keeps {α : Type} (x : M α) : Prop := M.Yields x fun _ => True

/-! ## Tables and lists of images -/

section
variable {α : Type} {P : α → Prop} {m : NMap α}

/-- What holds of the listed values holds of a value that is read, if it holds of the default. -/
theorem NMap.forall_get [Inhabited α] (h : ∀ p ∈ m, P p.2) (hd : P default) (k : Nat) : P (m.get k) := by
  induction m with
  | nil => exact hd
  | cons p t ih =>
    obtain ⟨hp, ht⟩ := List.forall_mem_cons.1 h
    obtain ⟨j, v⟩ := p
    simp only [NMap.get]
    split
    · exact hp
    · split
      · exact hd
      · exact ih ht

/-- What holds of the listed values and of a new one holds of the values listed after the new one is put. -/
theorem NMap.forall_put (h : ∀ p ∈ m, P p.2) {v : α} (hv : P v) {k : Nat} : ∀ p ∈ m.put k v, P p.2 := by
  induction m with
  | nil => simpa [NMap.put] using hv
  | cons p t ih =>
    obtain ⟨hp, ht⟩ := List.forall_mem_cons.1 h
    obtain ⟨j, w⟩ := p
    simp only [NMap.put]
    split
    · exact List.forall_mem_cons.2 ⟨hv, h⟩
    · split
      · exact List.forall_mem_cons.2 ⟨hv, ht⟩
      · exact List.forall_mem_cons.2 ⟨hp, ih ht⟩

/-- Unlisting a key lists no new value. -/
theorem NMap.forall_erase (h : ∀ p ∈ m, P p.2) {k : Nat} : ∀ p ∈ m.erase k, P p.2 := by
  induction m with
  | nil => exact h
  | cons p t ih =>
    obtain ⟨hp, ht⟩ := List.forall_mem_cons.1 h
    obtain ⟨j, w⟩ := p
    simp only [NMap.erase]
    split
    · exact h
    · split
      · exact ht
      · exact List.forall_mem_cons.2 ⟨hp, ih ht⟩

/-- What holds of the listed values holds of them after further values are put one after the other. -/
theorem NMap.forall_foldl {β : Type} {f : NMap α → β → NMap α} {l : List β} (h : ∀ p ∈ m, P p.2)
    (hf : ∀ m b, (∀ p ∈ m, P p.2) → ∀ p ∈ f m b, P p.2) : ∀ p ∈ l.foldl f m, P p.2 :=
  List.foldlRecOn (motive := fun m => ∀ p ∈ m, P p.2) l f h fun m hm b _ => hf m b hm

end

/-- What holds of the members of a list holds of those that a test selects. -/
theorem forall_filter {α : Type} {P : α → Prop} {l : List α} (h : ∀ a ∈ l, P a) {p : α → Bool} : ∀ a ∈ l.filter p, P a :=
  List.forall_mem_filter.2 fun a ha _ => h a ha

/-! ## Default values -/

theorem Memory.Canon.empty : (default : Memory).Canon := rfl

theorem Slot.Canon.empty : (default : Slot).Canon := rfl

theorem Version.Canon.empty : (default : Version).Canon := nofun

/-- No image at all. -/
theorem Images.none : Images default [] [] [] [] [] [] [] :=
  ⟨rfl, List.forall_mem_nil _, List.forall_mem_nil _, List.forall_mem_nil _, List.forall_mem_nil _, List.forall_mem_nil _,
    List.forall_mem_nil _, List.forall_mem_nil _⟩

theorem Thread.Canon.empty : (default : Thread).Canon := Images.none

/-! ## Memories -/

section
variable {m : Memory}

theorem Memory.Canon.setByte {a : Nat} {b : Byte} (h : m.Canon) : (m.setByte a b).Canon := Memory.wf_setByte h a b

theorem Memory.Canon.setTag {a : Nat} {t : W32} (h : m.Canon) : (m.setTag a t).Canon := Memory.wf_setTag h a t

theorem Memory.Canon.setBytes {a : Nat} {l : List Byte} (h : m.Canon) : (m.setBytes a l).Canon := Memory.wf_setBytes h a l

theorem Memory.Canon.writeLE {a n v : Nat} (h : m.Canon) : (m.writeLE a n v).Canon := Memory.wf_writeLE h a n v

end

/-- A landing that is there. -/
theorem LandingCanon.some {l : Landing} (h : l.Canon) : LandingCanon (some l) := fun _ hl => Option.some.inj hl ▸ h

/-- A change of a landing that may be there. -/
theorem LandingCanon.map {o : Option Landing} {f : Landing → Landing} (h : LandingCanon o) (hf : ∀ l, l.Canon → (f l).Canon) :
    LandingCanon (o.map f) := by
  intro x hx
  obtain ⟨l, hl, rfl⟩ := Option.map_eq_some_iff.1 hx
  exact hf l (h l hl)

/-- The images of a landing that is there, or of the default. -/
theorem LandingCanon.getD {o : Option Landing} (h : LandingCanon o) : (o.getD default).Canon := by
  cases o with
  | none => exact nofun
  | some l => exact h l rfl

/-- A version picked from a list of canonical ones, or the default. -/
theorem Version.Canon.getD {o : Option Version} (h : ∀ v, o = some v → v.Canon) : (o.getD default).Canon := by
  cases o with
  | none => exact .empty
  | some v => exact h v rfl

/-! ## Threads of the state -/

/-- A thread of a canonical state. -/
theorem State.Canon.thr {s : State} (h : s.Canon) (key : Nat) : (s.thr key).Canon := NMap.forall_get h.threads .empty key

theorem State.Canon.setThr {s : State} {key : Nat} {t : Thread} (h : s.Canon) (ht : t.Canon) : (s.setThr key t).Canon :=
  { h with threads := NMap.forall_put h.threads ht }

theorem State.Canon.updThr {s : State} {key : Nat} {f : Thread → Thread} (h : s.Canon) (hf : ∀ t, t.Canon → (f t).Canon) :
    (s.updThr key f).Canon := h.setThr (hf _ (h.thr key))

/-! ## One rule for each way an operation is built -/

section
variable {α β : Type} {x : M α} {f : α → M β} {Q : α → Prop} {R : β → Prop}

/-- One operation after another, which relies on the value of the first. -/
theorem M.Yields.bind (hx : x.Yields Q) (hf : ∀ a, Q a → (f a).Yields R) : (x >>= f).Yields R := by
  intro s hs
  have hr := hx s hs
  rw [M.run_bind]
  cases e : x s with
  | ok r => rw [e] at hr; exact hf r.1 hr.1 r.2 hr.2
  | error e' => rw [e] at hr; exact hr

/-- One operation after another. -/
theorem M.Yields.seq (hx : x.Keeps) (hf : ∀ a, (f a).Yields R) : (x >>= f).Yields R := hx.bind fun a _ => hf a

/-- An operation that is performed in one case only, and what follows in both. -/
theorem M.Yields.also {c : Prop} [Decidable c] {x : M Unit} {f : Unit → M β} (hx : x.Keeps) (hf : ∀ a, (f a).Yields R) :
    (if c then x >>= f else f ()).Yields R := by
  split
  · exact hx.seq hf
  · exact hf ()

theorem M.Yields.ite {c : Prop} [Decidable c] {y : M α} (hx : x.Yields Q) (hy : y.Yields Q) : (if c then x else y).Yields Q := by
  split
  · exact hx
  · exact hy

theorem M.Yields.pure {a : α} (h : Q a) : (Pure.pure a : M α).Yields Q := fun _ hs => ⟨h, hs⟩

theorem M.Yields.done {a : α} : (Pure.pure a : M α).Keeps := .pure trivial

theorem M.Yields.raise {t : Trap} : (Machine.raise t : M α).Yields Q := fun _ _ => trivial

theorem M.Yields.stall {k : WaitKind} : (Machine.stall k : M α).Yields Q := fun _ _ => trivial

theorem M.Yields.waitOn {k : WaitKind} : (Machine.waitOn k : M α).Yields Q := fun _ hs => hs

/-- The end of an operation that traps after it has performed a part. -/
theorem M.Yields.faultNow {tr : Trap} : M.Yields (fun s => .error (.fault tr s) : M α) Q := fun _ hs => hs

theorem M.Yields.get : (MonadState.get : M State).Yields State.Canon := fun _ hs => ⟨hs, hs⟩

theorem M.Yields.set {s : State} (h : s.Canon) : (MonadStateOf.set s : M PUnit).Keeps := fun _ _ => ⟨trivial, h⟩

theorem M.Yields.modify {f : State → State} (hf : ∀ s, s.Canon → (f s).Canon) : (modify f : M PUnit).Keeps :=
  fun s hs => ⟨trivial, hf s hs⟩

/-- The state is read. -/
theorem M.Yields.state {f : State → M β} (hf : ∀ s, s.Canon → (f s).Yields R) : (MonadState.get >>= f).Yields R := M.Yields.get.bind hf

/-- A thread is read. -/
theorem M.Yields.thread {key : Nat} {f : Thread → M β} (hf : ∀ t, t.Canon → (f t).Yields R) : (getThr key >>= f).Yields R :=
  .bind (Q := Thread.Canon) (fun _ hs => ⟨hs.thr key, hs⟩) hf

/-- A thread is changed. -/
theorem M.Yields.modThr {key : Nat} {g : Thread → Thread} (hg : ∀ t, t.Canon → (g t).Canon) : (Machine.modThr key g).Keeps :=
  .modify fun _ hs => hs.updThr hg

/-- An operation for each element of a list. -/
theorem M.Yields.forEach {γ : Type} {l : List γ} {g : γ → M Unit} (hg : ∀ a, (g a).Keeps) : (Machine.forEach l g).Keeps := by
  induction l with
  | nil => exact .done
  | cons a l ih => exact .seq (hg a) fun _ => ih

/-- A loop over a list that passes a value on. -/
theorem M.Yields.foldlM {γ δ : Type} {P : δ → Prop} {l : List γ} {g : δ → γ → M δ} {d : δ} (hd : P d) (hg : ∀ d a, P d → (g d a).Yields P) :
    (l.foldlM g d).Yields P := by
  induction l generalizing d with
  | nil => exact .pure hd
  | cons a l ih => exact .bind (hg d a hd) fun d' hd' => ih hd'

/-- A loop whose value is not looked at. -/
theorem M.Yields.loop {γ δ : Type} {l : List γ} {g : δ → γ → M δ} {d : δ} (hg : ∀ d a, (g d a).Keeps) : (l.foldlM g d).Keeps :=
  .foldlM trivial fun d a _ => hg d a

/-- A loop over a list. -/
theorem M.Yields.forIn {γ δ : Type} {l : List γ} {g : γ → δ → M (ForInStep δ)} {d : δ} (hg : ∀ a d, (g a d).Keeps) :
    (ForIn.forIn l d g).Keeps := by
  induction l generalizing d with
  | nil => exact .done
  | cons a l ih =>
    rw [List.forIn_cons]
    refine .seq (hg a d) fun r => ?_
    cases r with
    | done b => exact .done
    | yield b => exact ih

end

/-! ## What an operation leaves when it is run -/

section
variable {α : Type} {x : M α} {Q : α → Prop} {s s' : State} {a : α} {k : WaitKind} {tr : Trap}

/-- The state after an operation that completes. -/
theorem M.Yields.ok (hx : x.Yields Q) (hs : s.Canon) (e : x s = .ok (a, s')) : s'.Canon := by
  have hend := hx s hs
  rw [e] at hend
  exact hend.2

/-- The state that an operation leaves when it waits. -/
theorem M.Yields.wait (hx : x.Yields Q) (hs : s.Canon) (e : x s = .error (.wait k s')) : s'.Canon := by
  have hend := hx s hs
  rw [e] at hend
  exact hend

/-- The state that an operation leaves when it traps after it has performed a part. -/
theorem M.Yields.fault (hx : x.Yields Q) (hs : s.Canon) (e : x s = .error (.fault tr s')) : s'.Canon := by
  have hend := hx s hs
  rw [e] at hend
  exact hend

/-- An operation is canonical if it ends so from every canonical state. -/
theorem M.Yields.of_run {y : M α} (h : ∀ s, s.Canon → EndsWith Q (y s)) : y.Yields Q := h

end

/-! ## Cases -/

theorem State.Canon.ite {c : Prop} [Decidable c] {s t : State} (hs : s.Canon) (ht : t.Canon) : (if c then s else t).Canon := by
  split
  · exact hs
  · exact ht

theorem Thread.Canon.ite {c : Prop} [Decidable c] {t u : Thread} (ht : t.Canon) (hu : u.Canon) : (if c then t else u).Canon := by
  split
  · exact ht
  · exact hu

theorem Version.Canon.ite {c : Prop} [Decidable c] {v w : Version} (hv : v.Canon) (hw : w.Canon) : (if c then v else w).Canon := by
  split
  · exact hv
  · exact hw

theorem Out.Canon.ite {c : Prop} [Decidable c] {o p : Out} (ho : o.Canon) (hp : p.Canon) : Out.Canon (if c then o else p) := by
  split
  · exact ho
  · exact hp

/-- The state that an operation gives, or the state before it. -/
theorem State.Canon.getD {o : Option State} {s : State} (h : s.Canon) (ho : ∀ t, o = some t → t.Canon) : (o.getD s).Canon := by
  cases o with
  | none => exact h
  | some t => exact ho t rfl

/-! ## Repetition -/

/-- Steps of a list one after the other. -/
theorem State.Canon.foldl {α : Type} {f : State → α → State} {l : List α} {s : State} (h : s.Canon)
    (hf : ∀ s a, s.Canon → (f s a).Canon) : (l.foldl f s).Canon :=
  List.foldlRecOn (motive := State.Canon) l f h fun s h a _ => hf s a h

/-- Steps on a state that also answer something, one after the other. -/
theorem State.Canon.foldl_fst {α β : Type} {f : State × β → α → State × β} {l : List α} {x : State × β} (h : x.1.Canon)
    (hf : ∀ x a, x.1.Canon → (f x a).1.Canon) : (l.foldl f x).1.Canon :=
  List.foldlRecOn (motive := fun x : State × β => x.1.Canon) l f h fun x hx a _ => hf x a hx

theorem State.Canon.foldl_snd {α β : Type} {f : β × State → α → β × State} {l : List α} {x : β × State} (h : x.2.Canon)
    (hf : ∀ x a, x.2.Canon → (f x a).2.Canon) : (l.foldl f x).2.Canon :=
  List.foldlRecOn (motive := fun x : β × State => x.2.Canon) l f h fun x hx a _ => hf x a hx

theorem Thread.Canon.foldl {α : Type} {f : Thread → α → Thread} {l : List α} {t : Thread} (h : t.Canon)
    (hf : ∀ t a, t.Canon → (f t a).Canon) : (l.foldl f t).Canon :=
  List.foldlRecOn (motive := Thread.Canon) l f h fun t h a _ => hf t a h

theorem Memory.Canon.foldl {α : Type} {f : Memory → α → Memory} {l : List α} {m : Memory} (h : m.Canon)
    (hf : ∀ m a, m.Canon → (f m a).Canon) : (l.foldl f m).Canon :=
  List.foldlRecOn (motive := Memory.Canon) l f h fun m h a _ => hf m a h

/-- Steps on the image of a slot one after the other. -/
theorem Slot.Canon.foldl {α : Type} {f : Slot → α → Slot} {l : List α} {x : Slot} (hx : x.Canon) (hf : ∀ x a, x.Canon → (f x a).Canon) :
    (l.foldl f x).Canon :=
  List.foldlRecOn (motive := Slot.Canon) l f hx fun x hx a _ => hf x a hx

/-! ## Machine/Translate -/

theorem State.Canon.setCtx {s : State} {cid : Nat} {c : Ctx} (h : s.Canon) : (s.setCtx cid c).Canon := h

theorem State.Canon.updCtx {s : State} {cid : Nat} {f : Ctx → Ctx} (h : s.Canon) : (s.updCtx cid f).Canon := h

theorem State.Canon.holdTrans {s : State} {place : Option Nat} {cid : Nat} {pieces : List Piece} (h : s.Canon) :
    (s.holdTrans place cid pieces).Canon := by
  unfold State.holdTrans
  split
  · exact h
  · exact h

theorem State.Canon.beginInval {s : State} {cid : Nat} {range : Option (Nat × Nat)} (h : s.Canon) :
    (s.beginInval cid range).2.2.Canon := by
  unfold State.beginInval
  extract_lets s _
  have hs : s.Canon := h
  split
  · exact hs
  · exact hs

theorem State.Canon.endInvals {s : State} {p : Inval → Bool} (h : s.Canon) : (s.endInvals p).Canon := .foldl h fun _ _ hs => hs

/-! ## Machine/Ops -/

theorem Thread.Canon.learn {t : Thread} {paths : List Nat} {c : Clock} (ht : t.Canon) : (t.learn paths c).Canon := ht

theorem Thread.Canon.acquire {t : Thread} {c : Clock} (ht : t.Canon) : (t.acquire c).Canon := ht

theorem Thread.Canon.updLive {t : Thread} {g : Frame → Frame} (ht : t.Canon) : (t.updLive g).Canon := ht

theorem Thread.Canon.updVer {t : Thread} {id : Nat} {f : Version → Version} (ht : t.Canon) (hf : ∀ v, v.Canon → (f v).Canon) :
    (t.updVer id f).Canon := { ht with versions := List.forall_mem_map.2 fun v hv => .ite (hf v (ht.versions v hv)) (ht.versions v hv) }

theorem Version.Canon.ver {t : Thread} {id : Nat} (ht : t.Canon) : (t.ver id).Canon :=
  .getD fun v hv => ht.versions v (List.mem_of_find?_eq_some hv)

theorem Thread.Canon.streamDeps {t : Thread} {k : Nat} {acq : Clock} (ht : t.Canon) : (t.streamDeps k acq).Canon := .ite ht ht

theorem Thread.Canon.bindTicket {t : Thread} {k : Nat} (ht : t.Canon) : (t.bindTicket k).Canon := .ite (.streamDeps ht) ht

theorem Thread.Canon.bindMany {t : Thread} {m : BitVec 16} (ht : t.Canon) : (t.bindMany m).Canon :=
  .foldl ht fun _ _ ht1 => .ite (.bindTicket ht1) ht1

theorem Thread.Canon.settle {t : Thread} {paths : List Nat} {taint : BitVec 16} {sat : Bool} {live : BitVec 16} (ht : t.Canon) :
    (t.settle paths taint sat live).Canon := by
  unfold Thread.settle
  split
  · exact .ite ht (.bindMany ht)
  · exact .ite ht (.bindMany ht)

theorem EvRec.post_canon {e : EvRec} {s : State} (h : s.Canon) : (e.post s).Canon := .ite h { h with host := .setBytes h.host }

theorem postEvent_canon {fn kind reason tag ring cid opindex code detail : Nat} {s : State} (h : s.Canon) :
    (postEvent fn kind reason tag ring cid opindex code detail s).Canon := .ite h (EvRec.post_canon h)

theorem State.Canon.catchUp {s : State} {n : Nat} (h : s.Canon) : (s.catchUp n).Canon := .ite h h

theorem State.Canon.countEv {s : State} {cid ev n : Nat} (h : s.Canon) : (s.countEv cid ev n).Canon := .ite h h

theorem State.Canon.startInval {s : State} {cid : Nat} {range : Option (Nat × Nat)} (h : s.Canon) : (s.startInval cid range).2.Canon :=
  .ite (.countEv (.beginInval h)) (.beginInval h)

theorem State.Canon.invalidate {s : State} {cid : Nat} {range : Option (Nat × Nat)} (h : s.Canon) : (s.invalidate cid range).Canon :=
  .endInvals (.startInval h)

theorem State.space_canon {s : State} {sp : Space} (h : s.Canon) : (s.space sp).Canon := by
  unfold State.space
  split
  · exact h.hbm
  · exact (State.Canon.thr h _).scratch
  · exact h.staging

theorem State.Canon.setSpace {s : State} {sp : Space} {m : Memory} (h : s.Canon) (hm : m.Canon) : (s.setSpace sp m).Canon := by
  unfold State.setSpace
  split
  · exact { h with hbm := hm }
  · exact .updThr h fun _ ht => { ht with scratch := hm }
  · exact { h with staging := hm }

theorem State.Canon.addUndo {s : State} {key ver : Nat} {u : Undo} (h : s.Canon) : (s.addUndo key ver u).Canon :=
  .updThr h fun _ ht => .updVer ht fun _ hv => .ite hv (.ite hv hv)

theorem State.Canon.writeVer {s : State} {key ver : Nat} {sp : Space} {a : Nat} {data : List Byte} (h : s.Canon) :
    (s.writeVer key ver sp a data).Canon := .foldl h fun _ _ hs => .setSpace (.addUndo hs) (.setBytes (State.space_canon (.addUndo hs)))

theorem State.Canon.writeTagVer {s : State} {key ver : Nat} {sp : Space} {a : Nat} {tag : W32} (h : s.Canon) :
    (s.writeTagVer key ver sp a tag).Canon := .setSpace (.addUndo h) (.setTag (State.space_canon (.addUndo h)))

theorem State.Canon.stripBy {s : State} {id : Nat} {recs : List Undo} (h : s.Canon) : (s.stripBy id recs).Canon := by
  unfold State.stripBy
  split
  · exact h
  · refine { h with threads := List.forall_mem_map.2 fun p hp => { h.threads p hp with versions := List.forall_mem_map.2 fun v hv => ?_ } }
    split
    · exact (h.threads p hp).versions v hv
    · exact (h.threads p hp).versions v hv

theorem State.Canon.resolveDeps {s : State} {id : Nat} (h : s.Canon) : (s.resolveDeps id).Canon :=
  { h with threads := List.forall_mem_map.2 fun p hp => { h.threads p hp with versions := List.forall_mem_map.2 fun v hv =>
                                                                                (h.threads p hp).versions v hv } }

theorem State.Canon.commitRels {s : State} {id : Nat} (h : s.Canon) : (s.commitRels id).Canon := .ite h h

theorem State.Canon.undoRels {s : State} {id : Nat} (h : s.Canon) : (s.undoRels id).Canon := .ite h h

theorem State.Canon.commitWrites {s : State} {key id : Nat} (h : s.Canon) : (s.commitWrites key id).Canon :=
  .commitRels (.resolveDeps (.updThr (.stripBy h) fun _ ht => .updVer ht fun _ hv => hv))

theorem State.Canon.writeCommitted {s : State} {sp : Space} {a : Nat} {data : List Byte} (h : s.Canon) :
    (s.writeCommitted sp a data).Canon := .setSpace (.stripBy h) (.setBytes (State.space_canon h))

theorem State.Canon.undoByte {s : State} {r : Undo} {i : Nat} (h : s.Canon) : (s.undoByte r i).Canon :=
  .setSpace h (.setByte (State.space_canon h))

theorem State.Canon.undoOne {s : State} {id : Nat} {r : Undo} (h : s.Canon) : (s.undoOne id r).Canon := by
  unfold State.undoOne
  extract_lets _ _ _ s s1
  have hs : s.Canon := .foldl h fun _ _ hs => .ite (.undoByte hs) hs
  have hs1 : s1.Canon := .ite (.setSpace hs (.setTag (State.space_canon hs))) hs
  split
  · exact hs1
  · refine { hs1 with threads := List.forall_mem_map.2 fun p hp => { hs1.threads p hp with versions := List.forall_mem_map.2 fun v hv =>
                                                                                             ?_ } }
    split
    · exact (hs1.threads p hp).versions v hv
    · exact (hs1.threads p hp).versions v hv

theorem State.Canon.discardVersion {s : State} {key id : Nat} (h : s.Canon) : (s.discardVersion key id).Canon :=
  .updThr (.undoRels (.foldl h fun _ _ hs => .undoOne hs)) fun _ ht => { ht with versions := forall_filter ht.versions }

theorem State.Canon.newVerId {s : State} (h : s.Canon) : s.newVerId.2.Canon := h

theorem freshVersion_canon {id : Nat} {r : Rec} : (freshVersion id r).Canon := .empty

theorem Thread.Canon.cbImages {t : Thread} (ht : t.Canon) : ∀ c ∈ t.cbImages, c.img.Canon := List.forall_mem_map.2 ht.cb

theorem Thread.Canon.promisedImages {t : Thread} (ht : t.Canon) : ∀ c ∈ t.promisedImages, c.2.2.Canon := List.forall_mem_map.2 ht.promised

theorem Thread.Canon.saveAt {t : Thread} {frame : Frame} (ht : t.Canon) : (t.saveAt frame).Canon :=
  { ht with
    cb := List.forall_mem_map.2 fun p hp => ht.cb p hp
    saved := Thread.Canon.cbImages ht
    promised := Thread.Canon.promisedImages ht
    savedPromised := Thread.Canon.promisedImages ht }

theorem State.Canon.commitNow {s : State} {key : Nat} {frame : Frame} (h : s.Canon) : (s.commitNow key frame).Canon := by
  refine .updThr (.newVerId (.countEv (.commitWrites h))) fun t ht => ?_
  have hsaved : (t.saveAt frame).Canon := .saveAt ht
  exact { hsaved with versions := List.forall_mem_append.2 ⟨forall_filter ht.versions, List.forall_mem_singleton.2 nofun⟩ }

theorem State.Canon.commitMember {s : State} {p : Nat × Version} (h : s.Canon) : (s.commitMember p).Canon := by
  unfold State.commitMember
  split
  · exact .updThr (.commitNow h) fun _ ht => ht
  · exact .updThr (.commitWrites h) fun _ ht => .updVer ht fun _ hv => hv

theorem State.Canon.commitCycle {s : State} {v : Version} (h : s.Canon) : (s.commitCycle v).Canon := by
  unfold State.commitCycle
  split
  · exact h
  · split
    · exact .foldl h fun _ _ hs => .commitMember hs
    · exact h

theorem State.Canon.publishNow {s : State} {key ver : Nat} (h : s.Canon) : (s.publishNow key ver).Canon :=
  .updThr (.commitWrites (.commitCycle h)) fun _ ht => .updVer ht fun _ hv => hv

theorem Thread.Canon.awaitDeps {t : Thread} {ver : Nat} {pend : Option Frame} (ht : t.Canon) : (t.awaitDeps ver pend).Canon :=
  .updVer ht fun _ hv => hv

theorem State.Canon.updGroup {s : State} {owner : Nat} {g : Group → Group} (h : s.Canon) : (s.updGroup owner g).Canon := h

theorem State.Canon.setFlagVal {s : State} {f : FlagRef} {v : W32} (h : s.Canon) : (s.setFlagVal f v).Canon :=
  .ite h (.ite h (.updThr h fun _ ht => ht))

theorem State.Canon.grantOf {s : State} {w : Waiter} (h : s.Canon) : (s.grantOf w).Canon := by
  unfold State.grantOf
  split
  · exact h
  · split
    · exact .publishNow h
    · exact .updThr h fun _ ht => .updVer ht fun _ hv => hv

theorem serveWaiters_canon {f : FlagRef} {l : List Waiter} {s : State} {done : List Waiter} (h : s.Canon) :
    (serveWaiters f l s done).Canon := by
  induction l generalizing s done with
  | nil => exact h
  | cons w l ih =>
    unfold serveWaiters
    split
    · extract_lets u
      have hu : u.Canon := .grantOf h
      split
      · exact ih (.setFlagVal hu)
      · exact ih hu
    · exact ih h

theorem State.Canon.withdrawWaits {s : State} {key : Nat} {p : Nat → Bool} (h : s.Canon) : (s.withdrawWaits key p).Canon := by
  unfold State.withdrawWaits
  extract_lets s
  have hs : s.Canon := h
  split
  · exact hs
  · exact .updThr hs fun _ ht => { ht with versions := List.forall_mem_map.2 fun v hv => ht.versions v hv }

theorem State.Canon.addFlag {s : State} {f : FlagRef} {n : Nat} {clk : Clock} {who : Setter} {ver : Option Nat} (h : s.Canon) :
    (s.addFlag f n clk who ver).Canon := by
  unfold State.addFlag
  split
  · exact h
  · refine serveWaiters_canon ?_
    split
    · exact .updGroup (.setFlagVal h)
    · refine .updThr (.setFlagVal h) fun t ht => { ht with versions := List.forall_mem_map.2 fun v hv => ?_ }
      split
      · next l hl => exact .ite (LandingCanon.some (ht.versions v hv l hl)) (ht.versions v hv)
      · exact ht.versions v hv

theorem markDirty_canon {s : State} {cid : Nat} {p : Piece} (h : s.Canon) : (markDirty s cid p).Canon := by
  unfold markDirty
  dsimp only
  split
  · exact h
  · split
    · exact { h with hbm := .setByte h.hbm }
    · exact h

theorem State.Canon.kilnWrite {s : State} {cid va : Nat} {data : List Byte} (h : s.Canon) : (s.kilnWrite cid va data).Canon := by
  refine .foldl_fst h fun x sp hx => ?_
  dsimp only
  split
  · split
    · exact .writeCommitted (markDirty_canon hx)
    · exact hx
  · exact hx

theorem State.Canon.logWait {s : State} {key unit flag count kind group since : Nat} {who : Setter} (h : s.Canon) :
    (s.logWait key unit flag count kind group since who).Canon := .ite h (.updCtx (.kilnWrite h))

theorem waitFlag_keeps {key unit num ver : Nat} {f : FlagRef} {n : Nat} : (waitFlag key unit num ver f n).Keeps := by
  unfold waitFlag
  refine .seq (.modify fun _ hs => .ite (serveWaiters_canon hs) hs) fun _ => .seq (.modify fun _ hs => hs) fun _ => .state fun _ hs => ?_
  split
  · exact .seq (.set (.logWait hs)) fun _ => .done
  · split
    · split
      · exact .seq (.set (.logWait hs)) fun _ => .done
      · exact .stall
    · dsimp only
      split
      · exact .seq (.set (.logWait (.setFlagVal (.grantOf hs)))) fun _ => .done
      · exact .seq (.set (.ite (.grantOf hs) hs)) fun _ => .waitOn

theorem State.Canon.stir {s : State} {p : Nat → Thread → Bool} (h : s.Canon) : (s.stir p).Canon := by
  unfold State.stir
  refine { h with threads := List.forall_mem_map.2 fun p hp => ?_ }
  split
  · exact h.threads p hp
  · exact h.threads p hp

theorem State.Canon.leaveGroup {s : State} {owner num : Nat} (h : s.Canon) : (s.leaveGroup owner num).Canon := .stir h

theorem State.Canon.leaveAll {s : State} {cid num : Nat} (h : s.Canon) : (s.leaveAll cid num).Canon :=
  .foldl h fun _ _ hs => .ite (.leaveGroup hs) hs

theorem State.Canon.dropWaiters {s : State} {key : Nat} (h : s.Canon) : (s.dropWaiters key).Canon := h

theorem commitPoint_keeps {key : Nat} {after : Frame → Frame} : (commitPoint key after).Keeps := by
  unfold commitPoint
  refine .state fun _ hs => .also .stall fun _ => ?_
  dsimp only
  split
  · exact .set (.commitNow (.commitCycle (.setThr hs (.bindMany (State.Canon.thr hs _)))))
  · exact .seq (.set (.updThr (.setThr hs (.bindMany (State.Canon.thr hs _))) fun _ ht => .awaitDeps ht)) fun _ => .waitOn

theorem publishAs_keeps {k : WaitKind} {key ver : Nat} : (publishAs k key ver).Keeps :=
  .state fun _ hs => .ite (.set (.publishNow hs)) (.seq (.set (.updThr hs fun _ ht => .awaitDeps ht)) fun _ => .waitOn)

theorem publish_keeps {key ver : Nat} : (publish key ver).Keeps := publishAs_keeps

theorem State.Canon.stirClaims {s : State} {core : Nat} (h : s.Canon) : (s.stirClaims core).Canon := .stir h

theorem State.Canon.stirFlag {s : State} {f : Option FlagRef} (h : s.Canon) : (s.stirFlag f).Canon := by
  unfold State.stirFlag
  split
  · exact h
  · exact .stir h

theorem State.Canon.withdrawVersion {s : State} {key id : Nat} (h : s.Canon) : (s.withdrawVersion key id).Canon :=
  .ite h (.foldl h fun _ _ hs => .stirFlag hs)

theorem State.Canon.orphanTasks {s : State} {key : Nat} (h : s.Canon) : (s.orphanTasks key).Canon := .ite h h

theorem State.Canon.rollBack {s : State} {key : Nat} (h : s.Canon) : (s.rollBack key).Canon := by
  unfold State.rollBack
  extract_lets _ s s1
  have hs : s.Canon := h
  have hs1 : s1.Canon := .foldl hs fun _ _ hs1 => .discardVersion (.withdrawVersion hs1)
  refine .updThr (.stirClaims hs1) fun _ ht => ?_
  dsimp only
  exact { ht with
    wb := List.forall_mem_map.2 fun p hp => NMap.forall_get ht.wb .empty _
    ab := List.forall_mem_map.2 fun p hp => NMap.forall_get ht.ab .empty _
    cb := List.forall_mem_map.2 fun p hp => ht.saved p hp
    promised := ht.savedPromised
    versions := List.forall_mem_singleton.2 freshVersion_canon }

theorem Thread.Canon.stopUnits {t : Thread} (ht : t.Canon) : t.stopUnits.Canon := .bindMany ht

theorem State.Canon.notifyTrap {s : State} {key cause : Nat} (h : s.Canon) : (s.notifyTrap key cause).Canon := by
  unfold State.notifyTrap
  extract_lets t _ _ _ _ _ _ _ _
  have ht : t.Canon := State.Canon.thr h _
  split
  · exact .addFlag (.updCtx (.kilnWrite h))
  · exact postEvent_canon h

theorem Thread.Canon.offSlot {t : Thread} (ht : t.Canon) : t.offSlot.Canon := .ite ht ht

theorem State.Canon.leaveCore {s : State} {key : Nat} {f : Thread → Thread} (h : s.Canon) (hf : ∀ u : Thread, u.Canon → (f u).Canon) :
    (s.leaveCore key f).Canon := .stirClaims (.updThr h fun _ ht => .offSlot (hf _ ht))

theorem Thread.Canon.hold {t : Thread} {h : Held} (ht : t.Canon) : (t.hold h).Canon := by
  unfold Thread.hold
  split
  · exact ht
  · split
    · exact ht
    · split
      · exact ht
      · exact ht

theorem State.Canon.stopThread {s : State} {key : Nat} (h : s.Canon) : (s.stopThread key).Canon :=
  .updThr (.withdrawWaits h) fun _ ht => .stopUnits ht

theorem State.Canon.deliverOne {s : State} {key : Nat} {tr : Trap} {gone : Option (W64 × Bool)} (h : s.Canon) :
    (s.deliverOne key tr gone).Canon := by
  unfold State.deliverOne
  extract_lets _ s t _ v _ _ _ _ s1 s2 s3
  have hs : s.Canon := .updThr (.withdrawWaits h) fun _ ht => .stopUnits ht
  have ht : t.Canon := State.Canon.thr hs _
  have hv : v.Canon := .ver ht
  have hs1 : s1.Canon := .updThr hs fun _ ht1 => ht1
  have hs2 : s2.Canon := .ite (.rollBack hs1) hs1
  have hs3 : s3.Canon := .leaveCore hs2 fun _ ht1 => ht1
  exact .notifyTrap hs3

theorem State.Canon.cascadeTo {s src : State} {p : Nat × Nat} (h : s.Canon) : (s.cascadeTo src p).Canon :=
  .ite (.deliverOne h) (.updThr (.rollBack h) fun _ ht => .hold ht)

theorem State.Canon.cascade {s src : State} {key : Nat} (h : s.Canon) : (s.cascade src key).Canon := .foldl h fun _ _ hs => .cascadeTo hs

theorem State.Canon.deliver {s : State} {key : Nat} {tr : Trap} {gone : Option (W64 × Bool)} (h : s.Canon) :
    (s.deliver key tr gone).Canon := .ite (.deliverOne h) (.cascade (.deliverOne h))

theorem State.Canon.parkPage {s : State} {key : Nat} {tr : Trap} {write : Bool} (h : s.Canon) : (s.parkPage key tr write).Canon :=
  postEvent_canon (.leaveCore (.withdrawWaits h) fun _ ht => .stopUnits ht)

theorem State.Canon.report {s : State} {key : Nat} {h : Held} (hs : s.Canon) : (s.report key h).Canon := by
  unfold State.report
  extract_lets t
  have ht : t.Canon := State.Canon.thr hs _
  split
  · exact hs
  · exact .ite (.deliver hs) (.setThr hs (.hold ht))

theorem State.Canon.reportTask {s : State} {t : TileTask} (h : s.Canon) : (s.reportTask t).Canon := by
  unfold State.reportTask
  extract_lets _ _ _ event
  have hevent : event.Canon := postEvent_canon h
  split
  · split
    · exact .report h
    · exact hevent
  · exact hevent

theorem State.Canon.flagTask {s : State} {tid : Nat} {t : TileTask} {wasLive : Bool} (h : s.Canon) :
    (s.flagTask tid t wasLive).Canon := by
  unfold State.flagTask
  dsimp only
  split
  · exact h
  · split
    · split
      · exact .stirFlag (.addFlag (.publishNow h))
      · exact .updThr h fun _ ht => .awaitDeps ht
    · exact .stirFlag (.addFlag h)

theorem State.Canon.finishTask {s : State} {tid : Nat} (h : s.Canon) : (s.finishTask tid).Canon := by
  unfold State.finishTask
  extract_lets _ _ s s1 s2
  have hs : s.Canon := h
  have hs1 : s1.Canon := by
    dsimp only [s1]
    split
    · split
      · exact .updThr hs fun _ ht => ht
      · exact hs
    · exact hs
  have hs2 : s2.Canon := .ite hs1 (.reportTask hs1)
  exact .flagTask hs2

theorem State.Canon.finishDue {s : State} (h : s.Canon) : s.finishDue.Canon := .foldl h fun _ _ hs => .flagTask hs

theorem State.Canon.releaseTensors {s : State} (h : s.Canon) : s.releaseTensors.Canon := by
  unfold State.releaseTensors
  extract_lets _ u
  have hu : u.Canon := .foldl h fun _ _ hs => hs
  split
  · exact hu
  · exact hu

theorem State.Canon.countFor {s : State} {key ev n : Nat} (h : s.Canon) : (s.countFor key ev n).Canon := by
  unfold State.countFor
  split
  · split
    · exact h
    · exact h
  · exact .countEv h

theorem State.Canon.chargePass {s : State} {p : PassRec} (h : s.Canon) : (s.chargePass p).Canon := by
  unfold State.chargePass
  dsimp only
  split
  · exact h
  · exact .foldl h fun _ _ hs => .foldl hs fun _ _ hs1 => .countEv hs1

theorem State.Canon.endPass {s : State} {n : Nat} (h : s.Canon) : (s.endPass n).Canon := by
  unfold State.endPass
  extract_lets _ s _ s1
  have hs : s.Canon := .chargePass h
  have hs1 : s1.Canon := .dropWaiters { hs with threads := NMap.forall_erase hs.threads }
  exact .releaseTensors (.foldl (.stirClaims hs1) fun _ _ hs2 => .ite (.stirFlag hs2) (.ite (.finishTask hs2) hs2))

theorem State.Canon.passFault {s : State} {n cause : Nat} {event : Bool} (h : s.Canon) : (s.passFault n cause event).Canon := by
  unfold State.passFault
  extract_lets _ s s1
  have hs : s.Canon := .foldl h fun _ _ hs => .ite hs hs
  have hs1 : s1.Canon := .ite (postEvent_canon hs) hs
  exact .endPass hs1

theorem State.Canon.deferTask {s : State} {tid : Nat} {absent : List (Nat × Bool)} (h : s.Canon) : (s.deferTask tid absent).Canon :=
  .ite (.finishTask h) (.foldl h fun _ _ hs => postEvent_canon hs)

theorem State.Canon.takeTrap {s : State} {key : Nat} {tr : Trap} (h : s.Canon) : (s.takeTrap key tr).Canon := by
  unfold State.takeTrap
  split
  · split
    · exact .passFault h
    · exact h
  · split
    · exact .parkPage h
    · exact .deliver h

theorem State.Canon.deliverHeld {s : State} {key : Nat} (h : s.Canon) : (s.deliverHeld key).Canon := by
  unfold State.deliverHeld
  extract_lets t
  have ht : t.Canon := State.Canon.thr h _
  split
  · exact h
  · exact .deliver (.setThr h ht)

theorem Thread.Canon.freeHandles {t : Thread} (ht : t.Canon) : t.freeHandles.Canon :=
  { ht with wb := nofun, ab := nofun, cb := nofun, promised := nofun }

theorem State.Canon.dropThread {s : State} {key : Nat} (h : s.Canon) : (s.dropThread key).Canon := by
  unfold State.dropThread
  dsimp only
  split
  · exact { h with threads := forall_filter h.threads }
  · have hs := h.setThr (key := key) (t := { s.thr key with alive := false, slot := 0, placed := false }) (h.thr key)
    split
    · exact hs
    · exact { hs with threads := forall_filter hs.threads }

theorem State.Canon.noteStarted {s : State} {key : Nat} (h : s.Canon) : (s.noteStarted key).Canon := .ite h h

theorem State.Canon.retire {s : State} {key : Nat} {kill : Bool} (h : s.Canon) : (s.retire key kill).Canon := by
  unfold State.retire
  extract_lets t ids src s₁ s₂ s₃ s₄ s₅
  have hs₁ : s₁.Canon := by
    dsimp only [s₁]
    split
    · exact .cascade (.foldl h fun _ _ hs => .discardVersion (.withdrawVersion hs))
    · exact .foldl h fun _ _ hs => .commitWrites hs
  have hs₂ : s₂.Canon := .leaveAll hs₁
  have hs₃ : s₃.Canon := .noteStarted (.orphanTasks (.dropWaiters hs₂))
  have hs₄ : s₄.Canon := .updThr hs₃ fun _ ht => { Thread.Canon.freeHandles ht with versions := List.forall_mem_nil _ }
  have hs₅ : s₅.Canon := .updCtx hs₄
  exact .stirClaims (.dropThread hs₅)

theorem State.Canon.putPacket {s : State} {key path w : Nat} {rel acq : Option Nat} {kind : PktKind} (h : s.Canon) :
    (s.putPacket key path w rel acq kind).2.Canon :=
  State.Canon.updThr (f := fun t => { t with flows := t.flows.put _ _ }) (.countEv h) fun _ ht => ht

theorem State.Canon.sendSaved {s : State} {key : Nat} (h : s.Canon) : (s.sendSaved key).Canon := .foldl h fun _ _ hs => .putPacket hs

theorem State.Canon.kill {s : State} {key : Nat} (h : s.Canon) : (s.kill key).Canon := .retire (.sendSaved h)

theorem State.Canon.askPlace {s : State} {keys : List Nat} (h : s.Canon) : (s.askPlace keys).Canon := .ite h h

theorem State.Canon.askAgain {s : State} {key : Nat} (h : s.Canon) : (s.askAgain key).Canon := .ite (.askPlace h) (.askPlace h)

theorem State.Canon.resumeThread {s : State} {key : Nat} (h : s.Canon) : (s.resumeThread key).Canon := .askAgain (.updThr h fun _ ht => ht)

theorem State.Canon.trapAction {s : State} {cid num act : Nat} (h : s.Canon) : (s.trapAction cid num act).2.Canon := by
  unfold State.trapAction
  extract_lets _ t
  have ht : t.Canon := State.Canon.thr h _
  split
  · exact h
  · split
    · exact h
    · split
      · exact .resumeThread h
      · exact .kill h

theorem State.Canon.dropWrite {s : State} (h : s.Canon) : s.dropWrite.Canon := h

theorem State.Canon.hostWrite {s : State} {fn : Nat} {f : State → State} (h : s.Canon) (hf : ∀ u : State, u.Canon → (f u).Canon) :
    (s.hostWrite fn f).Canon := .ite h (.ite h (hf _ h))

theorem State.Canon.pfWrite {s : State} {fn : Nat} {f : State → State} (h : s.Canon) (hf : ∀ u : State, u.Canon → (f u).Canon) :
    (s.pfWrite fn f).Canon := .hostWrite h fun _ hs => .ite (hf _ hs) hs

/-! ## Machine/Access -/

theorem writeRoom_keeps {r : Req} {lines : List (Space × Nat)} {va : Nat} : (writeRoom r lines va).Keeps :=
  .state fun _ _ => .also .raise fun _ => .ite .stall .done

theorem noteAccess_keeps {r : Req} {wr : Bool} {pieces : List Piece} : (noteAccess r wr pieces).Keeps :=
  .state fun _ _ => .modThr fun _ ht => .updVer ht fun _ hv => hv

theorem passAccess_keeps {key : Nat} {spans : List (Nat × Nat)} : (passAccess key spans).Keeps := by
  unfold passAccess
  dsimp only
  refine .state fun _ _ => ?_
  split
  · exact .raise
  · split
    · exact .raise
    · exact .done

theorem noteWrote_keeps {r : Req} {pieces : List Piece} : (noteWrote r pieces).Keeps :=
  .state fun _ _ => .ite (.modThr fun _ ht => ht) .done

theorem access_keeps {r : Req} {rd wr : Bool} {spans : List (Nat × Nat)} : (access r rd wr spans).Keeps := by
  unfold access
  refine .state fun _ _ => .ite passAccess_keeps ?_
  extract_lets t check
  have hcheck : ∀ ps, (check ps).Keeps := by
    intro ps
    dsimp -zeta only [check]
    extract_lets _ _ hold score
    have hhold : ∀ u, (hold u).Keeps := by
      refine fun _ => .seq (.modify fun _ hs => .holdTrans hs) fun _ => .seq noteWrote_keeps fun _ => .thread fun _ _ => ?_
      extract_lets _ note depend dirty write race
      have hnote : ∀ u, (note u).Keeps := fun _ => .seq noteAccess_keeps fun _ => .also (.modThr fun _ ht => ht) fun _ => .done
      have hdepend : ∀ u, (depend u).Keeps := fun _ =>
        .ite (.also (.modThr fun _ ht => .updVer ht fun _ hv => hv) hnote) (hnote ())
      have hdirty : ∀ u, (dirty u).Keeps := fun _ => .seq (.modify fun _ hs => .foldl hs fun _ _ hs => markDirty_canon hs) hdepend
      have hwrite : ∀ u, (write u).Keeps := fun _ => .ite (.seq writeRoom_keeps fun _ => .also publish_keeps hdirty) (hdepend ())
      have hrace : ∀ u, (race u).Keeps := by
        intro u
        dsimp -zeta only [race]
        split
        · exact .seq .raise hwrite
        · exact hwrite ()
      split
      · split
        · exact .seq .raise hrace
        · exact hrace ()
      · exact hrace ()
    have hscore : ∀ u, (score u).Keeps := fun _ => .also .stall hhold
    split
    · split
      · exact .seq .raise hscore
      · exact hscore ()
    · exact hscore ()
  split
  · exact .seq .done hcheck
  · exact .seq .raise hcheck

theorem peerWatch_keeps {r : Req} {rd wr : Bool} {p : Piece} : (peerWatch r rd wr p).Keeps := by
  unfold peerWatch
  split
  · exact .state fun _ hs => .set (.foldl hs fun _ _ hs1 => .report hs1)
  · exact .done

theorem State.Canon.dropRels {s : State} {sp : Space} {host : Bool} {a n : Nat} {ver : Option Nat} (h : s.Canon) :
    (s.dropRels sp host a n ver).Canon := by
  unfold State.dropRels
  split
  · exact h
  · dsimp only
    split
    · exact h
    · exact h

theorem sendPacket_keeps {key path w : Nat} {rel acq : Option Nat} {kind : PktKind} : (sendPacket key path w rel acq kind).Keeps :=
  .state fun _ hs => .also .waitOn fun _ => .seq (.set (.putPacket hs)) fun _ => .done

theorem postWrite_keeps {key path w off : Nat} {data : BitVec 512} {be : BitVec 64} {red : Option RedTy} :
    (postWrite key path w off data be red).Keeps :=
  .thread fun _ _ => .also .waitOn fun _ => .seq sendPacket_keeps fun _ => .modThr fun _ ht1 => ht1

theorem postGranules_keeps {key path : Nat} {red : Option RedTy} {l : List (Nat × Nat × BitVec 512 × BitVec 64)} :
    (postGranules key path red l).Keeps :=
  .thread fun _ _ => .seq (.forEach fun _ => .seq postWrite_keeps fun _ => .modThr fun _ ht1 => .ite ht1 ht1) fun _ => .modThr fun _ ht1 =>
    ht1

theorem writeBackLine_keeps {key k : Nat} : (writeBackLine key k).Keeps := by
  unfold writeBackLine
  refine .thread fun _ ht => ?_
  dsimp only
  split
  · exact .seq publish_keeps fun _ => .seq postWrite_keeps fun _ => .modThr fun _ ht1 =>
      { ht1 with versions := List.forall_mem_map.2 fun v hv => .map (ht1.versions v hv) fun _ h => h }
  · exact .done

theorem writeBackLines_keeps {key : Nat} {p : Nat → Bool} : (writeBackLines key p).Keeps :=
  .thread fun _ _ => .forEach fun _ => writeBackLine_keeps

theorem dropLines_keeps {key : Nat} {p : Nat → Bool} : (dropLines key p).Keeps := .modify fun _ hs => .updThr hs fun _ ht => ht

theorem State.Canon.trimLines {s : State} {core : Nat} (h : s.Canon) : (s.trimLines core).Canon :=
  .foldl h fun _ _ hs => .updThr hs fun _ ht => ht

theorem makeRoom_keeps {key : Nat} : (makeRoom key).Keeps := by
  unfold makeRoom
  dsimp only
  refine .state fun _ _ => ?_
  split
  · split
    · exact .modThr fun _ ht => ht
    · split
      · exact .seq writeBackLine_keeps fun _ => .modThr fun _ ht => ht
      · exact .done
  · exact .done

theorem releaseCtx_keeps {key : Nat} : (releaseCtx key).Keeps := .seq writeBackLines_keeps fun _ => .state fun _ _ => .ite .waitOn .done

theorem acquireCtx_keeps {key : Nat} : (acquireCtx key).Keeps := .seq writeBackLines_keeps fun _ => dropLines_keeps

theorem Thread.Canon.setRdPkt {t : Thread} {path : Nat} {pkt : Option (Nat × Nat)} (ht : t.Canon) : (t.setRdPkt path pkt).Canon :=
  .ite ht ht

theorem Thread.Canon.leaveRdPkt {t : Thread} {path : Nat} (ht : t.Canon) : (t.leaveRdPkt path).Canon := by
  unfold Thread.leaveRdPkt
  split
  · exact ht
  · extract_lets _ u
    have hu : u.Canon := .setRdPkt ht
    split
    · exact hu
    · exact hu

theorem Thread.Canon.fillLine {t : Thread} {k : Nat} {data : BitVec 512} (ht : t.Canon) : (t.fillLine k data).Canon := ht

theorem readRemote_keeps {key path w addr n va : Nat} : (readRemote key path w addr n va).Keeps := by
  unfold readRemote
  refine .thread fun _ ht => ?_
  dsimp only
  split
  · exact .also (.modThr fun _ ht1 => .leaveRdPkt ht1) fun _ => .done
  · split
    · exact .also .stall fun _ => .also .raise fun _ => .also makeRoom_keeps fun _ => .seq (.modThr fun _ ht1 =>
        .fillLine (.setRdPkt ht1)) fun _ => .thread fun _ _ => .done
    · exact .seq (.modThr fun _ ht1 => .leaveRdPkt ht1) fun _ => .seq sendPacket_keeps fun _ => .seq (.modThr fun _ ht1 =>
        .setRdPkt ht1) fun _ => .waitOn

theorem readPiece_keeps {r : Req} {p : Piece} : (readPiece r p).Keeps := by
  unfold readPiece
  refine .state fun _ _ => ?_
  split
  · exact .done
  · exact .foldlM trivial fun _ _ _ => .seq readRemote_keeps fun _ => .done
  · split
    · exact .done
    · exact .done

theorem fillPieces_keeps {r : Req} {ps : List Piece} : (fillPieces r ps).Keeps := .forEach fun _ => .seq readPiece_keeps fun _ => .done

theorem readPieces_keeps {r : Req} {ps : List Piece} : (readPieces r ps).Keeps := by
  unfold readPieces
  exact .also fillPieces_keeps fun _ => .foldlM trivial fun _ _ _ => .seq readPiece_keeps fun _ => .done

theorem noteIn_keeps {r : Req} {p : Piece} : (noteIn r p).Keeps := by
  unfold noteIn
  split
  · exact .modify fun _ hs => .updThr hs fun _ ht => ht
  · exact .done

theorem putPiece_keeps {r : Req} {p : Piece} {data : List Byte} : (putPiece r p data).Keeps := by
  unfold putPiece
  refine .seq noteIn_keeps fun _ => ?_
  split
  · exact .modify fun _ hs => { State.Canon.dropRels hs with host := .setBytes hs.host }
  · split
    · exact .modify fun _ hs => .writeVer (.dropRels hs)
    · exact .done

theorem writePiece_keeps {r : Req} {p : Piece} {data : List Byte} : (writePiece r p data).Keeps := by
  unfold writePiece
  split
  · split
    · exact .forEach fun _ => .thread fun _ ht => .also makeRoom_keeps fun _ => .modThr fun _ ht1 => ht1
    · exact .done
  · exact .seq putPiece_keeps fun _ => peerWatch_keeps

theorem writeLocal_keeps {r : Req} {ps : List Piece} {data : List Byte} : (writeLocal r ps data).Keeps := .forEach fun _ => writePiece_keeps

theorem writePieces_keeps {r : Req} {ps : List Piece} {data : List Byte} : (writePieces r ps data).Keeps := by
  unfold writePieces
  extract_lets jp
  have hjp : ∀ r, (jp r).Keeps := fun _ => writeLocal_keeps
  split
  · exact .also postGranules_keeps fun _ => hjp ()
  · exact hjp ()

theorem readSpans_keeps {r : Req} {spans : List (Nat × Nat)} : (readSpans r spans).Keeps :=
  .seq access_keeps fun _ => .seq (.forIn fun _ _ => .seq peerWatch_keeps fun _ => .done) fun _ => readPieces_keeps

theorem writeSpans_keeps {r : Req} {spans : List (Nat × Nat)} {data : List Byte} : (writeSpans r spans data).Keeps :=
  .seq access_keeps fun _ => writePieces_keeps

/-! ## Machine/Seq -/

theorem advance_keeps {key : Nat} : (advance key).Keeps := .modThr fun _ ht => ht

theorem State.Canon.takeHits {s : State} {key : Nat} {pc : W64} (h : s.Canon) : (s.takeHits key pc).Canon := by
  unfold State.takeHits
  extract_lets t
  have ht : t.Canon := State.Canon.thr h _
  split
  · exact h
  · exact .foldl (.deliver (.setThr h ht)) fun _ _ hs => .updThr hs fun _ ht1 => .hold ht1

theorem State.Canon.takeStep {s : State} {key : Nat} (h : s.Canon) : (s.takeStep key).Canon := by
  unfold State.takeStep
  extract_lets t
  have ht : t.Canon := State.Canon.thr h _
  split
  · exact h
  · split
    · exact .updThr h fun _ ht1 => ht1
    · split
      · exact .deliver (.updThr h fun _ ht1 => ht1)
      · exact h

theorem State.Canon.wordDone {s : State} {key : Nat} {pc : W64} {ser : Nat} (h : s.Canon) : (s.wordDone key pc ser).Canon :=
  .takeStep (.takeHits (.countFor (.updThr h fun _ ht => ht)))

theorem State.Canon.wordWaits {s : State} {key : Nat} {k : WaitKind} (h : s.Canon) : (s.wordWaits key k).Canon := .updThr h fun _ ht => ht

theorem sqWord_canon {body : Nat → M Unit} {s : State} (hbody : ∀ i, (body i).Keeps) (h : s.Canon) : Out.Canon (sqWord body s) := by
  unfold sqWord
  extract_lets _ t
  have ht : t.Canon := State.Canon.thr h _
  split
  · exact h
  · split
    · next e => exact .wordDone ((hbody _).ok h e)
    · exact .takeTrap h
    · exact .wordWaits h
    · next e => exact .wordWaits ((hbody _).wait h e)
    · next e => exact .takeTrap ((hbody _).fault h e)

theorem illegal_yields {α : Type} {key : Nat} {Q : α → Prop} : (illegal key : M α).Yields Q := .thread fun _ _ => .raise

theorem privFault_yields {α : Type} {key : Nat} {Q : α → Prop} : (privFault key : M α).Yields Q := .thread fun _ _ => .raise

theorem scWord_canon {xd : BitVec 5} {res : Frame → XReg} {s : State} (h : s.Canon) : Out.Canon (scWord xd res s) :=
  sqWord_canon (fun _ => .modThr fun _ ht => ht) h

theorem scR_canon {xd xa xb : BitVec 5} {op : W64 → W64 → W64} {s : State} (h : s.Canon) : Out.Canon (scR xd xa xb op s) := scWord_canon h

theorem scU_canon {xd xa : BitVec 5} {op : W64 → W64} {s : State} (h : s.Canon) : Out.Canon (scU xd xa op s) := scWord_canon h

theorem bindTickets_keeps {key : Nat} {m : BitVec 16} : (bindTickets key m).Keeps :=
  .thread fun _ _ => .ite (.also .stall fun _ => .modThr fun _ ht1 => .bindMany ht1) .done

theorem settleOn_keeps {key : Nat} {paths : List Nat} {taint : BitVec 16} {sat : Bool} {live : BitVec 16} :
    (settleOn key paths taint sat live).Keeps := .thread fun _ _ => .ite (.also .stall fun _ => .modThr fun _ ht1 => .settle ht1) .done

theorem settleWrite_keeps {key : Nat} {l : List XReg} : (settleWrite key l).Keeps := .thread fun _ _ => settleOn_keeps

theorem settleSQ_keeps {key : Nat} {l : List XReg} : (settleSQ key l).Keeps := .thread fun _ _ => settleOn_keeps

/-! ## Machine/Operands -/

theorem wordFlag_keeps {key : Nat} {f : BitVec 8} : (wordFlag key f).Keeps := by
  unfold wordFlag
  refine .thread fun _ _ => ?_
  split
  · exact .done
  · exact illegal_yields

/-! ## Machine/Threads -/

theorem readRecord_keeps {key : Nat} {addr : W64} : (readRecord key addr).Keeps := by
  unfold readRecord
  refine .also .raise fun _ => .state fun _ _ => .seq readSpans_keeps fun _ => ?_
  dsimp only
  split
  · exact .raise
  · exact .also .raise fun _ => .also .raise fun _ => .done

theorem newThread_canon {s : State} {cid num : Nat} {rank : Option Nat} {size gang : Nat} {binds : NMap W64} {r : Rec} {ver : Nat} :
    (newThread s cid num rank size gang binds r ver).Canon :=
  { Thread.Canon.empty with versions := List.forall_mem_singleton.2 freshVersion_canon }

theorem createThreads_keeps {cid size gang : Nat} {isGang : Bool} {binds : NMap W64} {r : Rec} {base : Clock} {n : Nat} :
    (createThreads cid size gang isGang binds r base n).Keeps := by
  induction n with
  | zero => exact .done
  | succ n ih =>
    unfold createThreads
    refine .state fun _ hs => ?_
    split
    · exact .done
    · have hset : ∀ {s num rank size id}, (s : State).Canon → (s.setThr (cid * 65536 + num)
          { newThread s cid num rank size gang binds r id with base := base, know := [(0, base)] }).Canon := by
        intro s num rank size id hs
        have ht : (newThread s cid num rank size gang binds r id).Canon := newThread_canon
        exact hs.setThr ht
      exact .seq (.set (hset (.newVerId hs))) fun _ => .seq ih fun _ => .done

theorem State.Canon.loadBeside {s : State} {core : Nat} {used : List Nat} {slot : Nat} (h : s.Canon) :
    (s.loadBeside core used slot).Canon := .ite h h

theorem State.Canon.loadOverlay {s : State} {core slot : Nat} (h : s.Canon) : (s.loadOverlay core slot).Canon := .loadBeside h

/-- The tables of images that are collected from a list of images. -/
theorem NMap.forall_foldl_put {P : Slot → Prop} {l : List (Nat × Slot)} {a : NMap Slot} (ha : ∀ p ∈ a, P p.2) (hl : ∀ p ∈ l, P p.2) :
    ∀ p ∈ l.foldl (fun (a : NMap Slot) p => a.put p.1 p.2) a, P p.2 :=
  List.foldlRecOn (motive := fun a : NMap Slot => ∀ p ∈ a, P p.2) l _ ha fun _ ha p hp => NMap.forall_put ha (hl p hp)

/-- The promised images of one memory. -/
theorem Thread.Canon.promisedOf {t : Thread} (ht : t.Canon) {m : Nat} :
    ∀ p ∈ (t.promised.filterMap fun p => if p.1 = m then some (p.2.1, { p.2.2 with dirty := false }) else none), p.2.Canon := by
  intro p hp
  obtain ⟨x, hx, e⟩ := List.mem_filterMap.1 hp
  split at e
  · cases e
    exact ht.promised x hx
  · cases e

theorem Thread.Canon.releaseHandles {t : Thread} (ht : t.Canon) : t.releaseHandles.Canon := by
  unfold Thread.releaseHandles
  extract_lets pick u
  have hpick : ∀ m, ∀ p ∈ pick m, p.2.Canon := fun _ => NMap.forall_foldl_put (List.forall_mem_nil _) ht.promisedOf
  have hu : u.Canon := { ht with wb := hpick 0, ab := hpick 1, cb := hpick 2, promised := List.forall_mem_nil _ }
  refine { hu with versions := List.forall_mem_map.2 fun v hv => (hu.versions v hv).map fun l hl => ?_ }
  split
  · exact Thread.Canon.cbImages hu
  · exact hl

theorem Thread.Canon.releaseDue {fuel : Nat} {t : Thread} (ht : t.Canon) : (Thread.releaseDue fuel t).Canon := by
  induction fuel generalizing t with
  | zero => exact ht
  | succ fuel ih => exact .ite (ih (Thread.Canon.releaseHandles ht)) ht

theorem State.Canon.releaseEnded {s : State} {key : Nat} (h : s.Canon) : (s.releaseEnded key).Canon := by
  unfold State.releaseEnded
  extract_lets t u
  have ht : t.Canon := State.Canon.thr h _
  have hu : u.Canon := .releaseDue ht
  split
  · exact h
  · exact .stirClaims (.setThr h hu)

theorem State.Canon.landFirst {s : State} {key : Nat} (h : s.Canon) : (s.landFirst key).Canon := by
  unfold State.landFirst
  dsimp only
  split
  · split
    · refine .ite h (.ite ?_ (.updThr h fun _ ht => .awaitDeps ht))
      refine .updThr (.countEv (.commitWrites (.commitCycle h))) fun t ht => ?_
      exact { ht with saved := LandingCanon.getD (Version.Canon.ver ht), savedPromised := List.forall_mem_nil _, versions := forall_filter ht.versions }
    · exact h
  · exact h

/-- The task that ends at a boundary gets its landing, and a new version opens. -/
theorem Thread.Canon.endTask {t : Thread} {id new : Nat} {r : Rec} {l : Landing} (ht : t.Canon) (hl : l.Canon) :
    Thread.Canon { t with versions := (t.versions.map fun w => if w.id = id then { w with landing := some l } else w) ++ [freshVersion new r] } :=
  { ht with versions := List.forall_mem_append.2 ⟨List.forall_mem_map.2 fun w hw => .ite (.some hl) (ht.versions w hw),
      List.forall_mem_singleton.2 freshVersion_canon⟩ }

theorem boundaryA_keeps {key : Nat} {succ : W64} : (boundaryA key succ).Keeps := by
  unfold boundaryA
  refine .state fun _ hs => .also .stall fun _ => .seq (.set (.setThr hs (.bindMany (hs.thr _)))) fun _ => .also .stall fun _ => ?_
  extract_lets _ jp
  have hjp : ∀ u, (jp u).Keeps := by
    refine fun _ => .state fun s hs => ?_
    extract_lets _ _ next
    have hnext : ∀ u, (next u).Keeps := by
      refine fun _ => .set (.landFirst (.releaseEnded (.updThr (.newVerId hs) ?_)))
      exact fun _ ht => .endTask (Thread.Canon.acquire ht) (List.forall_mem_nil _)
    exact .ite (.seq (.set (.updThr hs fun _ ht => .awaitDeps ht)) fun _ => .seq .waitOn hnext) (hnext ())
  exact .ite (.seq writeBackLines_keeps fun _ => .state fun _ _ => .also .waitOn hjp) (hjp ())

theorem Thread.Canon.askStop {t : Thread} {tick : Nat} (ht : t.Canon) : (t.askStop tick).Canon := .ite ht ht

theorem State.Canon.replace {s : State} {key : Nat} (h : s.Canon) : (s.replace key).Canon := by
  unfold State.replace
  extract_lets s _ s1
  have hs : s.Canon := .leaveCore (.withdrawWaits h) fun _ ht => .stopUnits ht
  have hs1 : s1.Canon := .foldl hs fun _ _ hs1 => .updThr hs1 fun _ ht => .askStop ht
  split
  · exact hs1
  · exact .askPlace (.foldl hs1 fun _ _ hs2 => .stirClaims (.updThr hs2 fun _ ht => ht))

theorem boundaryB_keeps {key : Nat} {succ : W64} : (boundaryB key succ).Keeps := by
  unfold boundaryB
  refine .seq readRecord_keeps fun _ => .state fun _ hs => ?_
  dsimp only
  split
  · exact .set (.replace (.updThr hs fun _ ht => ht))
  · exact .set (.updThr (.noteStarted (.loadBeside hs)) fun _ ht => { ht with versions := List.forall_mem_map.2 fun v hv =>
                                                                                .ite (ht.versions v hv) (ht.versions v hv) })

theorem boundary_canon {succ : Frame → M W64} {s : State} (hsucc : ∀ f, (succ f).Keeps) (h : s.Canon) : Out.Canon (boundary succ s) := by
  unfold boundary
  extract_lets key finish t
  have hfinish : ∀ s : State, s.Canon → ∀ a, Out.Canon (finish s a) := by
    intro s h a
    refine .ite (.retire h) (.ite (.deliver (.updThr h fun _ ht => ht)) (.ite (.replace h) ?_))
    exact sqWord_canon (fun _ => boundaryB_keeps) h
  have hend : M.Keeps (do let a ← succ t.live; boundaryA key a; pure a) := .seq (hsucc _) fun _ => .seq boundaryA_keeps fun _ => .done
  refine .ite h (.ite (.ite h (.ite (.updThr h fun _ ht => ht) (.wordWaits h))) ?_)
  split
  · exact hfinish s h _
  · split
    next e => exact hfinish _ (hend.ok h e) _
    next => exact .takeTrap h
    next => exact .wordWaits h
    next e => exact .wordWaits (hend.wait h e)
    next e => exact .takeTrap (hend.fault h e)

/-! ## Machine/ThreadCtl -/

theorem stopPoint_keeps {key : Nat} {pc : W64} : (stopPoint key pc).Keeps :=
  .state fun _ hs => .ite (.set (.deliver (.updThr hs fun _ ht => ht))) (.ite (.set (.replace hs)) .done)

theorem releaseAll_keeps {key : Nat} {k : WaitKind} : (releaseAll key k).Keeps :=
  .thread fun _ _ => .also .stall fun _ => .seq (.modThr fun _ ht1 => .bindMany ht1) fun _ => releaseCtx_keeps

theorem execSpawn_canon {xa xb : BitVec 5} {n : BitVec 10} {s : State} (h : s.Canon) : Out.Canon (execSpawn xa xb n s) := by
  unfold execSpawn
  exact sqWord_canon (fun _ => .thread fun _ _ => .seq settleSQ_keeps fun _ => .seq readRecord_keeps fun _ => .state fun _ hs =>
    .also .raise fun _ => .seq writeBackLines_keeps fun _ => .seq publish_keeps fun _ => .state fun _ hs1 => .seq (.set hs1) fun _ =>
    .seq createThreads_keeps fun _ => .seq (.modify fun _ hs2 => hs2) fun _ => advance_keeps) h

theorem execBar_canon {g : BitVec 8} {s : State} (h : s.Canon) : Out.Canon (execBar g s) := by
  unfold execBar
  dsimp only
  refine sqWord_canon (fun _ => ?_) h
  refine .state fun _ hs => ?_
  split
  · exact .also .stall fun _ => .seq publishAs_keeps fun _ => .seq dropLines_keeps fun _ => .seq (.modThr fun _ ht => ht) fun _ =>
      .seq (.modify fun _ hs1 => .logWait hs1) fun _ => advance_keeps
  · refine .also illegal_yields fun _ => .seq releaseAll_keeps fun _ => .seq publish_keeps fun _ => .state fun _ hs1 =>
      .seq (.set hs1) fun _ => ?_
    split
    · exact .seq dropLines_keeps fun _ => .seq (.modThr fun _ ht => ht) fun _ => .seq (.modify fun _ hs2 => .logWait hs2) fun _ =>
        advance_keeps
    · exact .waitOn

/-! ## Machine/FlagCtl -/

theorem seqWait_keeps {key : Nat} {f : BitVec 8} {n : Nat} : (seqWait key f n).Keeps :=
  .seq wordFlag_keeps fun _ => .state fun _ _ => .also acquireCtx_keeps fun _ => .seq waitFlag_keeps fun _ => .seq (.modThr fun _ ht =>
    ht) fun _ => advance_keeps

theorem execSetf_canon {f : BitVec 8} {n : BitVec 9} {s : State} (h : s.Canon) : Out.Canon (execSetf f n s) := by
  unfold execSetf
  refine sqWord_canon (fun _ => ?_) h
  refine .seq wordFlag_keeps fun _ => .seq settleWrite_keeps fun _ => ?_
  dsimp only
  split
  · exact .seq releaseCtx_keeps fun _ => .seq publish_keeps fun _ => .thread fun _ _ => .seq (.modify fun _ hs => .addFlag hs) fun _ =>
      advance_keeps
  · exact .thread fun _ _ => .seq (.modify fun _ hs => .addFlag hs) fun _ => advance_keeps

theorem execWaitc_canon {l st c ti : BitVec 5} {s : State} (h : s.Canon) : Out.Canon (execWaitc l st c ti s) := by
  unfold execWaitc
  refine sqWord_canon (fun key => .thread fun _ _ => .also .stall fun _ => ?_) h
  extract_lets jp
  have hjp : ∀ u, (jp u).Keeps := by
    refine fun _ => .thread fun t ht => ?_
    refine .modThr ?_
    exact fun _ _ => .updLive (.acquire ht)
  split
  · exact .seq (.modThr fun _ ht => .bindMany ht) fun _ => hjp ()
  · exact hjp ()

/-! ## Machine/ScalarMem -/

theorem takeTicket_keeps {key : Nat} {sq : Bool} : (takeTicket key sq).Keeps := by
  unfold takeTicket
  refine .thread fun _ ht => ?_
  split
  · exact .stall
  · exact .seq (.modThr fun _ ht1 => ht1) fun _ => .done

theorem beforeRelease_keeps {key scope : Nat} : (beforeRelease key scope).Keeps := by
  unfold beforeRelease
  exact .also releaseCtx_keeps fun _ => .ite (.thread fun _ _ => publish_keeps) .done

theorem afterRelease_keeps {key scope : Nat} : (afterRelease key scope).Keeps := .ite (.modify fun _ hs => .commitWrites hs) .done

theorem beforeAcquire_keeps {key scope : Nat} : (beforeAcquire key scope).Keeps := .ite acquireCtx_keeps .done

theorem aligned_keeps {a n : Nat} : (aligned a n).Keeps := .ite .done .raise

theorem Thread.Canon.remember {t : Thread} {cls at_ : Nat} {clk : Clock} (ht : t.Canon) : (t.remember cls at_ clk).Canon := ht

theorem noteWord_keeps {key : Nat} {classes : List Nat} : (noteWord key classes).Keeps := .modThr fun _ ht => .foldl ht fun _ _ ht1 => ht1

theorem remoteMarked_keeps {key va w off : Nat} {rel acq : Option Nat} {op : MarkedOp} :
    (remoteMarked key va w off rel acq op).Keeps := by
  unfold remoteMarked
  refine .thread fun _ ht => ?_
  split
  · split
    · exact .seq (.modThr fun _ ht1 => ht1) fun _ => .also .raise fun _ => .done
    · exact .stall
  · exact .seq (.modThr fun _ ht1 => .leaveRdPkt ht1) fun _ => .seq publish_keeps fun _ => .seq (.forEach fun _ =>
      writeBackLine_keeps) fun _ => .seq sendPacket_keeps fun _ => .seq (.modThr fun _ ht1 => ht1) fun _ => .waitOn

theorem noteRelease_keeps {key scope : Nat} {ps : List Piece} {clk : Clock} : (noteRelease key scope ps clk).Keeps := .modify fun _ hs => hs

theorem noteAcquire_keeps {key : Nat} {acq : Bool} {ticket : Option Nat} {clk : Clock} : (noteAcquire key acq ticket clk).Keeps := by
  unfold noteAcquire
  refine .also (.modThr fun _ ht => ht) fun _ => ?_
  split
  · exact .modThr fun _ ht => ht
  · exact .done

theorem loadWord_canon {size : Size} {xd xa : BitVec 5} {imm : W64} {signed marked : Bool} {scope : Nat} {acq : Bool} {s : State}
    (h : s.Canon) : Out.Canon (loadWord size xd xa imm signed marked scope acq s) := by
  unfold loadWord
  refine sqWord_canon (fun _ => ?_) h
  refine .thread fun _ ht => .seq settleSQ_keeps fun _ => .also aligned_keeps fun _ => .also beforeAcquire_keeps fun _ => .state fun _ _ =>
    .seq access_keeps fun _ => .seq (.forIn fun _ _ => .seq peerWatch_keeps fun _ => .done) fun _ => ?_
  extract_lets jp
  have hjp : ∀ r, (jp r).Yields _ := fun _ => .seq takeTicket_keeps fun _ => .seq noteAcquire_keeps fun _ => .seq noteWord_keeps fun _ =>
    .modThr fun _ ht1 => ht1
  split
  · exact .seq remoteMarked_keeps fun _ => .seq .done fun _ => hjp _
  · exact .seq readPieces_keeps fun _ => .state fun _ _ => .seq .done fun _ => hjp _

theorem storeWord_canon {size : Size} {xs xa : BitVec 5} {imm : W64} {marked rel : Bool} {scope : Nat} {s : State} (h : s.Canon) :
    Out.Canon (storeWord size xs xa imm marked scope rel s) := by
  unfold storeWord
  refine sqWord_canon (fun key => .thread fun _ _ => .seq settleWrite_keeps fun _ => ?_) h
  extract_lets _ write release
  have hwrite : ∀ u, (write u).Keeps := by
    refine fun _ => .state fun _ _ => .seq access_keeps fun _ => ?_
    extract_lets note
    have hnote : ∀ u, (note u).Keeps := fun _ => .seq noteWord_keeps fun _ =>
      .ite (.thread fun _ _ => .seq noteRelease_keeps fun _ => .seq afterRelease_keeps fun _ => advance_keeps) advance_keeps
    split
    · exact .seq remoteMarked_keeps fun _ => hnote ()
    · exact .seq writePieces_keeps fun _ => hnote ()
  have hrelease : ∀ u, (release u).Keeps := fun _ => .ite (.seq beforeRelease_keeps hwrite) (hwrite ())
  exact .ite (.seq aligned_keeps hrelease) (hrelease ())

theorem atomWord_canon {size : Size} {xd xa xb : BitVec 5} {op : Option AOp} {scope : Nat} {order : Order} {s : State} (h : s.Canon) :
    Out.Canon (atomWord size xd xa xb op scope order s) := by
  unfold atomWord
  refine sqWord_canon (fun key => .thread fun t _ => ?_) h
  extract_lets a b c n m srcs new perform acquire
  have hperform : ∀ u, (perform u).Keeps := by
    refine fun _ => .state fun _ _ => ?_
    extract_lets r _ checked
    have hchecked : ∀ l, (checked l).Keeps := by
      refine fun _ => .also .raise fun _ => .seq access_keeps fun ps => .also .raise fun _ =>
        .seq (.forIn fun _ _ => .seq peerWatch_keeps fun _ => .done) fun _ => .also publish_keeps fun _ => .state fun _ _ => ?_
      extract_lets kept finish
      have hfinish : ∀ x, (finish x).Keeps := by
        rintro ⟨old, clk⟩
        refine .ite (.seq .done fun _ => ?_) (.seq takeTicket_keeps fun _ => .seq .done fun _ => ?_)
        all_goals
          exact .seq noteAcquire_keeps fun _ => .seq noteWord_keeps fun _ => .thread fun _ _ =>
            .ite (.seq noteRelease_keeps fun _ => .seq afterRelease_keeps fun _ => .modThr fun _ ht => ht) (.modThr fun _ ht => ht)
      split
      · exact .seq remoteMarked_keeps fun _ => .seq .done fun _ => hfinish _
      · refine .seq readPieces_keeps fun l => ?_
        dsimp only
        split
        · refine .seq (.forEach fun _ => putPiece_keeps) fun _ => .seq (.modify ?_) fun _ => .seq .done fun _ => hfinish _
          exact fun _ hs => hs
        · exact .seq .done fun _ => hfinish _
    split
    · exact .seq .done fun _ => hchecked _
    · exact .seq .raise fun _ => hchecked _
  have hacquire : ∀ u, (acquire u).Keeps := fun _ => .ite (.seq beforeAcquire_keeps hperform) (hperform ())
  exact .seq settleWrite_keeps fun _ => .seq aligned_keeps fun _ => .ite (.seq beforeRelease_keeps hacquire) (hacquire ())

theorem Thread.Canon.fenced {t : Thread} {key : Nat} {ma mb : BitVec 8} {ack now : Bool} (ht : t.Canon) :
    (t.fenced key ma mb ack now).Canon := .ite (.learn (.ite ht ht)) (.ite ht ht)

theorem execFence_canon {ma mb : BitVec 8} {scope : Scope} {s : State} (h : s.Canon) : Out.Canon (execFence ma mb scope s) := by
  unfold execFence
  refine sqWord_canon (fun key => .thread fun _ _ => ?_) h
  extract_lets waits _ note _ wait
  have hnote : ∀ u, (note u).Keeps := by
    refine fun _ => .thread fun t ht => .state fun _ _ => .seq (.modThr ?_) fun _ =>
      .ite (.seq writeBackLines_keeps fun _ => .seq dropLines_keeps fun _ => advance_keeps) advance_keeps
    exact fun _ _ => .ite (Thread.Canon.fenced ht) (Thread.Canon.fenced ht)
  have hwait : ∀ u, (wait u).Keeps := fun _ => .ite (.also .stall fun _ => .state fun _ _ => .also .waitOn hnote) (hnote ())
  exact .ite (.seq writeBackLines_keeps hwait) (hwait ())

theorem execPref_canon {tgt : PrefTarget} {xa : BitVec 5} {imm : BitVec 13} {s : State} (h : s.Canon) :
    Out.Canon (execPref tgt xa imm s) := by
  unfold execPref
  refine sqWord_canon (fun key => .state fun s hs => ?_) h
  dsimp only
  split
  · have hsend : ∀ w off, M.Keeps (do makeRoom key; sendPacket key 0 w none none (.lineRead off)) :=
      fun _ _ => .seq makeRoom_keeps fun _ => sendPacket_keeps
    split
    · next e => exact .seq (.set (.updThr ((hsend _ _).ok hs e) fun _ ht => ht)) fun _ => advance_keeps
    · exact advance_keeps
  · exact advance_keeps

theorem execRcm_canon {op : RcmOp} {xb xa : BitVec 5} {s : State} (h : s.Canon) : Out.Canon (execRcm op xb xa s) := by
  unfold execRcm
  refine sqWord_canon (fun key => .thread fun _ _ => .seq settleSQ_keeps fun _ => .ite (.state fun _ _ => ?_) advance_keeps) h
  dsimp only
  split
  · refine .also .raise fun _ => ?_
    split
    · exact .seq writeBackLines_keeps fun _ => .state fun _ _ => .also .waitOn fun _ => advance_keeps
    · exact .seq dropLines_keeps fun _ => .state fun _ _ => .also .waitOn fun _ => advance_keeps
    · exact .seq writeBackLines_keeps fun _ => .seq dropLines_keeps fun _ => .state fun _ _ => .also .waitOn fun _ => advance_keeps
  · exact .seq .raise fun _ => advance_keeps

/-! ## Machine/Rows -/

theorem State.Canon.poisonRow {s : State} {tid row cause : Nat} (h : s.Canon) : (s.poisonRow tid row cause).Canon := h

theorem State.Canon.poisonOwner {s : State} {key : Nat} {o : W32} {cause : Nat} (h : s.Canon) : (s.poisonOwner key o cause).Canon := by
  unfold State.poisonOwner
  split
  · exact h
  · exact h

theorem noteRow_canon {s : State} {t : TileTask} {tid : Nat} {wr : Bool} {ps : List Piece} (h : s.Canon) :
    (noteRow s t tid wr ps).Canon := by
  unfold noteRow
  split
  · exact h
  · dsimp only
    split
    · next e => exact .updThr (noteAccess_keeps.ok h e) fun _ ht => .ite ht (.updVer ht fun _ hv => hv)
    · exact h

theorem State.Canon.rowWrite {s : State} {t : TileTask} {p : Piece} {data : List Byte} (h : s.Canon) : (s.rowWrite t p data).Canon := by
  unfold State.rowWrite
  extract_lets own s₁
  have hs₁ : s₁.Canon := .dropRels h
  clear_value own
  split
  · exact .writeVer hs₁
  · exact .writeCommitted hs₁

theorem State.Canon.storeRow {s : State} {key : Nat} {o : W32} {units : List (Nat × List Byte)} {beyond : Bool} (h : s.Canon) :
    (s.storeRow key o units beyond).Canon := by
  unfold State.storeRow
  dsimp only
  split
  · exact h
  · split
    · exact h
    · split
      · exact h
      · split
        · split
          · exact .deferTask h
          · exact h
        · split
          · exact h
          · exact .foldl (.foldl (noteRow_canon h) fun _ _ hs => markDirty_canon hs) fun _ _ hs => .rowWrite hs

/-! ## Machine/Engine -/

theorem flagOk_keeps {key : Nat} {flag : Option (BitVec 8)} : (flagOk key flag).Keeps := by
  unfold flagOk
  refine .thread fun _ _ => ?_
  split
  · split
    · exact illegal_yields
    · exact .done
  · exact .done

theorem pushEntry_keeps {key : Nat} {e : Eng} {word : Instr} {ops : List (BitVec 5)} {flag : Option (BitVec 8)} {takes : Bool} :
    (pushEntry key e word ops flag takes).Keeps := by
  unfold pushEntry
  refine .seq flagOk_keeps fun _ => .state fun _ _ => .also .stall fun _ => ?_
  extract_lets _ push
  have hpush : ∀ tk, (push tk).Keeps := fun _ => .seq (.modThr fun _ ht => ht) fun _ => advance_keeps
  exact .ite (.seq (.seq takeTicket_keeps fun _ => .done) hpush) (.seq .done hpush)

theorem narrowScore_keeps {key : Nat} {e : Eng} {q : QEntry} {l : List Score} : (narrowScore key e q l).Keeps := by
  unfold narrowScore
  refine .modThr fun _ ht => ?_
  split
  · exact ht
  · exact ht

theorem narrowVa_keeps {key : Nat} {e : Eng} {q : QEntry} {a n : Nat} : (narrowVa key e q a n).Keeps := .state fun _ _ => narrowScore_keeps

theorem growScore_keeps {key : Nat} {e : Eng} {q : QEntry} {l : List Score} : (growScore key e q l).Keeps := by
  unfold growScore
  refine .modThr fun _ ht => ?_
  split
  · exact ht
  · exact ht

theorem pushScored_keeps {key : Nat} {e : Eng} {word : Instr} {ops : List (BitVec 5)} {flag : Option (BitVec 8)}
    {ranges : State → Score → List XReg → List Score} : (pushScored key e word ops flag ranges).Keeps := by
  unfold pushScored
  refine .seq flagOk_keeps fun _ => .state fun _ _ => .also .stall fun _ => .seq pushEntry_keeps fun _ => .modify ?_
  exact fun _ hs => State.Canon.updThr (f := fun t => { t with scores := t.scores ++ _ }) hs fun _ ht => ht

theorem State.Canon.retireScores {s : State} {key : Nat} {e : Eng} {q : QEntry} (h : s.Canon) : (s.retireScores key e q).Canon :=
  .foldl (.updThr h fun _ ht => ht) fun _ _ hs => .updThr hs fun _ ht => ht

theorem bindOk_keeps {key : Nat} {noIn noOut free : List (BitVec 6)} : (bindOk key noIn noOut free).Keeps :=
  .thread fun _ _ => .ite illegal_yields .done

theorem Thread.Canon.lateInvalidate {t : Thread} {e : Eng} {q : QEntry} (ht : t.Canon) : (t.lateInvalidate e q).Canon := .ite ht ht

theorem State.Canon.settleFences {s : State} {key : Nat} (h : s.Canon) : (s.settleFences key).Canon :=
  .ite (.setThr h (.foldl (State.Canon.thr h _) fun _ _ ht => ht)) h

theorem entryStart_keeps {key : Nat} {e : Eng} {q : QEntry} : (entryStart key e q).Keeps :=
  .state fun _ _ => .also .stall fun _ => .also .stall fun _ => .seq (.modThr fun _ ht => .learn (.lateInvalidate ht)) fun _ =>
    .modify fun _ hs1 => .settleFences hs1

theorem State.Canon.noteSpawn {s : State} {key : Nat} {e : Eng} {q : QEntry} (h : s.Canon) : (s.noteSpawn key e q).Canon :=
  .ite h (.foldl h fun _ _ hs => .updThr hs fun _ ht => ht)

theorem Thread.Canon.noteDone {t : Thread} {key : Nat} {e : Eng} {q : QEntry} (ht : t.Canon) : (t.noteDone key e q).Canon := by
  cases e with
  | va => exact ht
  | vl => exact .remember ht
  | vs => exact .remember ht
  | cp => exact .remember ht
  | mx => exact .remember ht

theorem keepHits_keeps {key : Nat} {e : Eng} : (keepHits key e).Keeps := by
  unfold keepHits
  refine .modThr fun _ ht => ?_
  dsimp only
  split
  · exact ht
  · exact ht
  · exact ht

theorem popEntry_keeps {key : Nat} {e : Eng} {q : QEntry} : (popEntry key e q).Keeps := by
  unfold popEntry
  refine .state fun _ hs => .seq ?_ fun _ => .modify fun _ hs1 => .settleFences (.noteSpawn (.retireScores hs1))
  refine .modThr fun _ ht => ?_
  extract_lets t t1 t2 _ _
  have ht1 : t.Canon := .noteDone ht
  have ht11 : t1.Canon := ht1
  have ht2 : t2.Canon := by
    dsimp only [t2]
    split
    · exact .bindTicket ht11
    · exact ht11
  exact ht2

theorem State.Canon.entryDone {s : State} {key : Nat} {e : Eng} {q : QEntry} (h : s.Canon) : (s.entryDone key e q).Canon :=
  .takeStep (.takeHits (.landFirst (.updThr (.ite (.releaseEnded h) (.ite (.countFor h) h)) fun _ ht => ht)))

theorem State.Canon.reportHits {s : State} {key : Nat} {e : Eng} (h : s.Canon) : (s.reportHits key e).Canon := by
  unfold State.reportHits
  extract_lets t _
  have ht : t.Canon := State.Canon.thr h _
  split
  · split
    · exact h
    · exact .takeHits (.setThr h ht)
  · exact h

theorem State.Canon.entryWaits {s : State} {key : Nat} {e : Eng} (h : s.Canon) : (s.entryWaits key e).Canon := by
  unfold State.entryWaits
  refine .updThr h fun _ ht => ?_
  dsimp only
  split
  · exact ht
  · exact ht

theorem State.Canon.runHead {s : State} {eff : Nat → QEntry → M Unit} {e : Eng} {key : Nat} (h : s.Canon)
    (heff : ∀ k q, (eff k q).Keeps) : (s.runHead eff e key).Canon := by
  unfold State.runHead
  extract_lets t
  have ht : t.Canon := State.Canon.thr h _
  split
  · exact h
  · split
    · exact h
    · split
      · next e => exact .entryDone ((M.Yields.seq entryStart_keeps fun _ => .seq (heff _ _) fun _ => popEntry_keeps).ok h e)
      · exact .takeTrap h
      · exact .entryWaits h
      · next e =>
          extract_lets s'
          have hs' : s'.Canon := by
            refine .entryWaits ?_
            split
            · exact .updThr ((M.Yields.seq entryStart_keeps fun _ => .seq (heff _ _) fun _ => popEntry_keeps).wait h e) fun _ ht1 => ht1
            · exact ((M.Yields.seq entryStart_keeps fun _ => .seq (heff _ _) fun _ => popEntry_keeps).wait h e)
          split
          · exact .reportHits hs'
          · exact hs'
      · next e => exact .takeTrap ((M.Yields.seq entryStart_keeps fun _ => .seq (heff _ _) fun _ => popEntry_keeps).fault h e)

theorem engineWord_canon {e : Eng} {eff : Nat → QEntry → M Unit} {push : Nat → M Unit} {s : State} (heff : ∀ k q, (eff k q).Keeps)
    (hpush : ∀ k, (push k).Keeps) (h : s.Canon) : Out.Canon (engineWord e eff push s) := by
  unfold engineWord
  extract_lets _ t
  have ht : t.Canon := State.Canon.thr h _
  split
  · exact h
  · split
    · next e =>
        extract_lets s'
        have hs' : s'.Canon := by
          dsimp only [s']
          split
          · exact ((hpush _).ok h e)
          · exact .runHead ((hpush _).ok h e) fun _ _ => heff _ _
        split
        · exact .wordDone hs'
        · exact hs'
    · exact .takeTrap h
    · exact .wordWaits h
    · next e => exact .wordWaits ((hpush _).wait h e)
    · next e => exact .takeTrap ((hpush _).fault h e)

theorem settleEntry_keeps {key : Nat} {e : Eng} {q : QEntry} {taint : BitVec 16} {sat write : Bool} :
    (settleEntry key e q taint sat write).Keeps := .seq settleOn_keeps fun _ => .ite (.modThr fun _ ht => ht) .done

theorem readSources_keeps {key : Nat} {rd : Eng} {ser : Nat} {l : List (Nat × Bool)} {n : NMap Nat} {acc : List VEntry} :
    (readSources key rd ser l n acc).Keeps := by
  induction l generalizing n acc with
  | nil => exact .done
  | cons x l ih =>
    obtain ⟨reg, peek⟩ := x
    unfold readSources
    refine .thread fun _ _ => ?_
    dsimp only
    split
    · exact ih
    · refine .ite ?_ (.ite .stall .raise)
      split
      · exact .raise
      · exact .stall

theorem learnAfter_keeps {key : Nat} {paths : List Nat} {ents : List VEntry} {masks : List KReg} :
    (learnAfter key paths ents masks).Keeps := .ite (.modThr fun _ ht => ht) .done

theorem ownerOf_keeps {l : List VEntry} : (ownerOf l).Keeps := .foldlM trivial fun _ _ _ => .ite .done (.ite .done .raise)

theorem accessMask_keeps {key : Nat} {q : QEntry} {k : Nat} : (accessMask key q k).Keeps := .thread fun _ _ => .also .stall fun _ => .done

theorem Thread.Canon.keepMask {t : Thread} {k ser : Nat} (ht : t.Canon) : (t.keepMask k ser).Canon := ht

theorem entryFlag_keeps {key : Nat} {q : QEntry} {f : BitVec 8} : (entryFlag key q f).Keeps := .thread fun _ _ => .done

theorem tokenWait_keeps {key : Nat} {e : Eng} {q : QEntry} {f : BitVec 8} {n : BitVec 9} : (tokenWait key e q f n).Keeps :=
  .seq entryFlag_keeps fun _ => .state fun _ _ => .also acquireCtx_keeps fun _ => .seq waitFlag_keeps fun _ => .modThr fun _ ht => ht

theorem tokenSet_keeps {key : Nat} {e : Eng} {q : QEntry} {f : BitVec 8} {n code : Nat} : (tokenSet key e q f n code).Keeps := by
  unfold tokenSet
  refine .seq entryFlag_keeps fun _ => .seq settleEntry_keeps fun _ => ?_
  dsimp only
  split
  · exact .seq releaseCtx_keeps fun _ => .seq publish_keeps fun _ => .thread fun _ _ => .modify fun _ hs => .addFlag hs
  · exact .thread fun _ _ => .modify fun _ hs => .addFlag hs

/-! ## Machine/VectorArith -/

theorem illegalEntry_yields {α : Type} {q : QEntry} {Q : α → Prop} : (illegalEntry q : M α).Yields Q := .raise

theorem vaEntry_keeps {op : VaOp} {key : Nat} {q : QEntry} : (vaEntry op key q).Keeps := by
  unfold vaEntry
  refine .thread fun t _ => .also illegalEntry_yields fun _ => ?_
  beta_reduce
  split
  · exact illegalEntry_yields
  · refine .also .stall fun _ => .seq readSources_keeps fun _ => .also .raise fun _ => .seq ownerOf_keeps fun _ => ?_
    extract_lets _ _ _ _ _ _ _ _ _ perform
    have hperform : ∀ o, (perform o).Keeps := by
      refine fun _ => .also .raise fun _ => .also (.modify fun _ hs => .poisonOwner hs) fun _ => .modThr fun t ht => .updLive ?_
      split
      · exact .keepMask ht
      · exact ht
    exact .ite (.seq ownerOf_keeps hperform) (.seq .done hperform)

theorem vsettEntry_keeps {key : Nat} {q : QEntry} {v : Nat} : (vsettEntry key q v).Keeps := by
  unfold vsettEntry
  exact .also illegalEntry_yields fun _ => .modThr fun _ ht => ht

theorem vaEffect_keeps {key : Nat} {q : QEntry} : (vaEffect key q).Keeps := by
  unfold vaEffect
  split
  · exact vsettEntry_keeps
  · exact vsettEntry_keeps
  · exact tokenWait_keeps
  · exact tokenSet_keeps
  · split
    · exact vaEntry_keeps
    · exact .done

theorem vaWord_canon {w : Instr} {writes reads : List (BitVec 6)} {ops : List (BitVec 5)} {flag : Option (BitVec 8)} {s : State}
    (h : s.Canon) : Out.Canon (vaWord w writes reads ops flag s) :=
  engineWord_canon (fun _ _ => vaEffect_keeps) (fun _ => .seq bindOk_keeps fun _ => pushEntry_keeps) h

/-! ## Machine/VectorLoad -/

theorem alignUnits_keeps {n : Nat} {l : List Unit_} : (alignUnits n l).Keeps := by
  unfold alignUnits
  split
  · exact .raise
  · exact .done

theorem pushLoad_keeps {key : Nat} {q : QEntry} {vd : BitVec 6} {d : VData} {sat : Bool} : (pushLoad key q vd d sat).Keeps :=
  .modThr fun _ ht => ht

theorem loadRoom_keeps {key : Nat} {vd : BitVec 6} {pops : Nat} : (loadRoom key vd pops).Keeps := .thread fun _ _ => .ite .stall .done

theorem loadUnits_keeps {key : Nat} {q : QEntry} {vd : BitVec 6} {align : Nat} {units : List Unit_} {taint : BitVec 16} {sat : Bool}
    {pops : NMap Nat} : (loadUnits key q vd align units taint sat pops).Keeps :=
  .seq loadRoom_keeps fun _ => .seq settleEntry_keeps fun _ => .ite pushLoad_keeps (.seq alignUnits_keeps fun _ =>
    .seq readSpans_keeps fun _ => pushLoad_keeps)

theorem blockAlign_keeps {q : QEntry} {k : KReg} {imm : BitVec 11} : (blockAlign q k imm).Keeps := .ite .raise .done

theorem tagAccess_keeps {r : Req} {wr : Bool} {blocks : List Nat} : (tagAccess r wr blocks).Keeps := by
  unfold tagAccess
  refine .state fun _ hs => ?_
  extract_lets t jp
  have ht : t.Canon := State.Canon.thr hs _
  have hjp : ∀ r, (jp r).Yields _ := fun _ => .also .stall fun _ => .seq (.modify fun _ hs1 => .holdTrans hs1) fun _ =>
    .seq noteWrote_keeps fun _ => .also writeRoom_keeps fun _ => .done
  split
  · exact .seq .done fun _ => hjp _
  · exact .seq .raise fun _ => hjp _

theorem vldtEntry_keeps {key : Nat} {q : QEntry} {vd : BitVec 6} {k : BitVec 3} {imm : BitVec 11} : (vldtEntry key q vd k imm).Keeps := by
  unfold vldtEntry
  exact .seq accessMask_keeps fun _ => .seq loadRoom_keeps fun _ => .seq learnAfter_keeps fun _ => .seq settleEntry_keeps fun _ =>
    .ite pushLoad_keeps (.also .raise fun _ => .seq tagAccess_keeps fun _ => .state fun _ _ => pushLoad_keeps)

theorem vldbEntry_keeps {key : Nat} {q : QEntry} {vd : BitVec 6} {k : BitVec 3} {imm : BitVec 11} : (vldbEntry key q vd k imm).Keeps :=
  .seq accessMask_keeps fun _ => .seq loadRoom_keeps fun _ => .seq learnAfter_keeps fun _ => .seq settleEntry_keeps fun _ =>
    .ite pushLoad_keeps (.also .raise fun _ => .seq readSpans_keeps fun _ => pushLoad_keeps)

theorem bindStream_keeps {key : Nat} {e : Eng} {q : QEntry} {v : BitVec 6} {out : Bool} : (bindStream key e q v out).Keeps := by
  unfold bindStream
  refine .seq settleEntry_keeps fun _ => .also .raise fun _ => .seq readSpans_keeps fun l => ?_
  extract_lets _ bind
  have hbind : ∀ d, (bind d).Keeps := fun _ => .modThr fun _ ht => .updLive (.learn (.learn ht))
  split
  · exact .seq .done hbind
  · exact .seq illegalEntry_yields hbind

theorem endStream_keeps {key : Nat} {e : Eng} {v : BitVec 6} {out : Bool} : (endStream key e v out).Keeps :=
  .modThr fun _ ht => .updLive (.learn (.leaveRdPkt ht))

theorem streamDesc_keeps {key v path : Nat} : (streamDesc key v path).Keeps := by
  unfold streamDesc
  refine .thread fun _ ht => ?_
  dsimp only
  split
  · refine .seq readSpans_keeps fun _ => ?_
    split
    · exact .modThr fun _ ht1 => ht1
    · exact .raise
  · exact .done

theorem streamRead_keeps {key v : Nat} : (streamRead key v).Keeps :=
  .seq streamDesc_keeps fun _ => .thread fun _ _ => .ite (.also .raise fun _ => .seq readSpans_keeps fun _ => .modThr fun _ ht1 =>
    ht1) .done

theorem State.Canon.holdStream {s : State} {key v : Nat} {tr : Trap} (h : s.Canon) : (s.holdStream key v tr).Canon :=
  .updThr h fun _ ht => ht

theorem State.Canon.dropHits {s : State} {key : Nat} (h : s.Canon) : (s.dropHits key).Canon := .updThr h fun _ ht => ht

theorem State.Canon.streamStep {s : State} {key v : Nat} {body : Nat → Nat → M Unit} (h : s.Canon) (hbody : ∀ i k, (body i k).Keeps) :
    (s.streamStep key v body).Canon := by
  unfold State.streamStep
  split
  · next e => exact .takeHits (.updThr ((hbody _ _).ok h e) fun _ ht => ht)
  · exact .holdStream h
  · exact h
  · next e => exact .dropHits ((hbody _ _).wait h e)
  · next e => exact .holdStream ((hbody _ _).fault h e)

theorem State.Canon.inputStreams {s : State} {key : Nat} (h : s.Canon) : (s.inputStreams key).Canon :=
  .foldl h fun _ _ hs => .ite (.streamStep hs fun _ _ => streamRead_keeps) hs

theorem unbindInput_keeps {key : Nat} {v : BitVec 6} : (unbindInput key v).Keeps := by
  unfold unbindInput
  refine .thread fun _ _ => .ite (.also .stall fun _ => .seq (.of_run fun s h => ?_) fun _ => endStream_keeps) endStream_keeps
  have hread := streamRead_keeps (key := key) (v := v.toNat) s h
  split
  · exact ⟨trivial, h⟩
  · next e => exact ⟨trivial, streamRead_keeps.fault h e⟩
  · exact hread

theorem vlEffect_keeps {key : Nat} {q : QEntry} : (vlEffect key q).Keeps := by
  unfold vlEffect
  split
  · exact .seq accessMask_keeps fun _ => .seq learnAfter_keeps fun _ => .seq blockAlign_keeps fun _ => loadUnits_keeps
  · exact .seq accessMask_keeps fun _ => .seq learnAfter_keeps fun _ => loadUnits_keeps
  · exact .seq accessMask_keeps fun _ => .seq readSources_keeps fun _ => .seq learnAfter_keeps fun _ => .seq loadUnits_keeps fun _ =>
      .modThr fun _ ht => ht
  · exact vldtEntry_keeps
  · exact vldbEntry_keeps
  · exact bindStream_keeps
  · exact unbindInput_keeps
  · exact tokenWait_keeps
  · exact tokenSet_keeps
  · exact .done

theorem loadVec_canon {w : Instr} {vd : BitVec 6} {ops : List (BitVec 5)} {s : State} (h : s.Canon) : Out.Canon (loadVec w vd ops s) :=
  engineWord_canon (fun _ _ => vlEffect_keeps) (fun _ => .seq bindOk_keeps fun _ => pushEntry_keeps) h

theorem markBinding_keeps {key : Nat} {v : BitVec 6} {b : BindKind} : (markBinding key v b).Keeps := .modThr fun _ ht => ht

theorem bindWord_canon {e : Eng} {eff : Nat → QEntry → M Unit} {w : Instr} {v : BitVec 6} {xa : BitVec 5} {b : BindKind} {s : State}
    (heff : ∀ k q, (eff k q).Keeps) (h : s.Canon) : Out.Canon (bindWord e eff w v xa b s) :=
  engineWord_canon (fun _ _ => heff _ _) (fun _ => .seq bindOk_keeps fun _ => .thread fun _ _ => .also illegal_yields fun _ =>
    .seq pushEntry_keeps fun _ => markBinding_keeps) h

theorem unbindWord_canon {e : Eng} {eff : Nat → QEntry → M Unit} {w : Instr} {v : BitVec 6} {b : BindKind} {s : State}
    (heff : ∀ k q, (eff k q).Keeps) (h : s.Canon) : Out.Canon (unbindWord e eff w v b s) :=
  engineWord_canon (fun _ _ => heff _ _) (fun _ => .thread fun _ _ => .also illegal_yields fun _ => .seq pushEntry_keeps fun _ =>
    markBinding_keeps) h

/-! ## Machine/VectorStore -/

theorem storeSources_keeps {key : Nat} {q : QEntry} {regs : List Nat} : (storeSources key q regs).Keeps :=
  .seq readSources_keeps fun _ => .also .raise fun _ => .done

theorem takePops_keeps {key : Nat} {n : NMap Nat} : (takePops key n).Keeps := .modThr fun _ ht => ht

theorem storeUnits_keeps {key : Nat} {q : QEntry} {align : Nat} {units : List Unit_} {d : VData} {m : KReg} {ents : List VEntry} :
    (storeUnits key q align units d m ents).Keeps :=
  .seq learnAfter_keeps fun _ => .seq settleEntry_keeps fun _ => .ite (.seq alignUnits_keeps fun _ => writeSpans_keeps) .done

theorem vstEntry_keeps {key : Nat} {q : QEntry} {vs : BitVec 6} {k : BitVec 3} {imm : BitVec 11} : (vstEntry key q vs k imm).Keeps :=
  .seq accessMask_keeps fun _ => .seq storeSources_keeps fun _ => .seq blockAlign_keeps fun _ => .seq storeUnits_keeps fun _ =>
    takePops_keeps

theorem vstsEntry_keeps {key : Nat} {q : QEntry} {vs : BitVec 6} {k : BitVec 3} {es : ESize} : (vstsEntry key q vs k es).Keeps :=
  .seq accessMask_keeps fun _ => .seq storeSources_keeps fun _ => .seq storeUnits_keeps fun _ => takePops_keeps

theorem vstxEntry_keeps {key : Nat} {q : QEntry} {vs vb : BitVec 6} {iw sc : BitVec 2} {sgn : Bool} {k : BitVec 3} :
    (vstxEntry key q vs vb iw sc sgn k).Keeps :=
  .seq accessMask_keeps fun _ => .seq storeSources_keeps fun _ => .seq storeUnits_keeps fun _ => takePops_keeps

theorem vsttEntry_keeps {key : Nat} {q : QEntry} {vs : BitVec 6} {k : BitVec 3} {imm : BitVec 11} : (vsttEntry key q vs k imm).Keeps := by
  unfold vsttEntry
  refine .seq accessMask_keeps fun _ => .seq storeSources_keeps fun _ => .seq learnAfter_keeps fun _ => .seq settleEntry_keeps fun _ => ?_
  extract_lets _ jp
  have hjp : ∀ r, (jp r).Keeps := fun _ => takePops_keeps
  split
  · refine .also .raise fun _ => .seq tagAccess_keeps fun _ => .thread fun _ _ => .seq ?_ fun _ => takePops_keeps
    refine .forEach fun _ => ?_
    split
    · exact .modify fun _ hs => .writeTagVer (markDirty_canon hs)
    · exact .done
  · exact hjp ()

theorem atomLanes_keeps {key : Nat} {q : QEntry} {ty : RedTy} {l : List (Piece × Nat)} : (atomLanes key q ty l).Keeps := by
  unfold atomLanes
  refine .forEach fun _ => ?_
  split
  · exact .seq noteIn_keeps fun _ => .state fun _ hs => .modify fun _ hs1 => .writeVer hs1
  · exact .done

theorem modStore_keeps {key : Nat} {f : QEntry → QEntry} : (modStore key f).Keeps := by
  unfold modStore
  refine .modThr fun _ ht => ?_
  dsimp only
  split
  · exact ht
  · exact ht

theorem sendLanes_keeps {key : Nat} {ty : RedTy} {l : List (Nat × Nat × BitVec 512 × BitVec 64)} : (sendLanes key ty l).Keeps := by
  induction l with
  | nil => exact modStore_keeps
  | cons g l ih => exact .seq writeBackLine_keeps fun _ => .seq sendPacket_keeps fun _ => .seq modStore_keeps fun _ => ih

theorem vatomaEntry_keeps {key : Nat} {q : QEntry} {vs vb : BitVec 6} {ty : AtomTy} {k : BitVec 2} {scope : Scope} :
    (vatomaEntry key q vs vb ty k scope).Keeps := by
  unfold vatomaEntry
  dsimp only
  split
  · split
    · refine .seq sendLanes_keeps fun _ => .seq .waitOn fun _ => .thread fun _ ht => .also .stall fun _ => ?_
      split
      · exact .raise
      · exact .modThr fun _ ht1 => ht1
    · refine .thread fun _ ht => .also .stall fun _ => ?_
      split
      · exact .raise
      · exact .modThr fun _ ht1 => ht1
  · refine .seq accessMask_keeps fun _ => .seq storeSources_keeps fun _ => .seq learnAfter_keeps fun _ => .seq settleEntry_keeps fun _ => ?_
    split
    · exact takePops_keeps
    · refine .also .raise fun _ => .seq access_keeps fun _ => .seq atomLanes_keeps fun _ => .seq (.forIn fun _ _ =>
        .seq peerWatch_keeps fun _ => .done) fun _ => .seq takePops_keeps fun _ => ?_
      split
      · exact .seq keepHits_keeps fun _ => .seq modStore_keeps fun _ => .seq sendLanes_keeps fun _ => .waitOn
      · exact .done

theorem vstrwEntry_keeps {key : Nat} {q : QEntry} {vs : BitVec 6} {k : BitVec 3} : (vstrwEntry key q vs k).Keeps :=
  .seq accessMask_keeps fun _ => .seq readSources_keeps fun _ => .also .raise fun _ => .state fun _ _ => .also .stall fun _ =>
    .seq (.modify fun _ hs1 => .storeRow hs1) fun _ => takePops_keeps

theorem streamWrite_keeps {key v : Nat} : (streamWrite key v).Keeps := by
  unfold streamWrite
  refine .seq streamDesc_keeps fun _ => .thread fun _ ht => ?_
  dsimp only
  split
  · exact .done
  · split
    · exact .also .raise fun _ => .seq learnAfter_keeps fun _ => .seq settleOn_keeps fun _ => .also .raise fun _ =>
        .seq writeSpans_keeps fun _ => .modThr fun _ ht1 => ht1
    · exact .done

theorem State.Canon.outputStreams {s : State} {key : Nat} (h : s.Canon) : (s.outputStreams key).Canon :=
  .foldl h fun _ _ hs => .ite (.streamStep hs fun _ _ => streamWrite_keeps) hs

theorem vunbindoEntry_keeps {key : Nat} {q : QEntry} {vs : BitVec 6} : (vunbindoEntry key q vs).Keeps :=
  .thread fun _ _ => .also .stall fun _ => endStream_keeps

theorem heldWrites_keeps {key : Nat} : (heldWrites key).Keeps := by
  unfold heldWrites
  refine .thread fun _ _ => ?_
  split
  · exact .raise
  · exact .done

theorem vsEffect_keeps {key : Nat} {q : QEntry} : (vsEffect key q).Keeps := by
  unfold vsEffect
  refine .seq heldWrites_keeps fun _ => ?_
  split
  · exact vstEntry_keeps
  · exact vstsEntry_keeps
  · exact vstxEntry_keeps
  · exact vsttEntry_keeps
  · exact vatomaEntry_keeps
  · exact vstrwEntry_keeps
  · exact bindStream_keeps
  · exact vunbindoEntry_keeps
  · exact tokenWait_keeps
  · exact tokenSet_keeps
  · exact .done

theorem storeVec_canon {w : Instr} {ops : List (BitVec 5)} {s : State} (h : s.Canon) : Out.Canon (storeVec w ops s) :=
  engineWord_canon (fun _ _ => vsEffect_keeps) (fun _ => pushEntry_keeps) h

/-! ## Machine/Matrix -/

theorem Thread.Canon.slots {t : Thread} (ht : t.Canon) (m : MMem) : ∀ p ∈ t.slots m, p.2.Canon := by
  cases m with
  | wb => exact ht.wb
  | ab => exact ht.ab
  | cb => exact ht.cb

theorem Thread.Canon.setSlots {t : Thread} {m : MMem} {l : NMap Slot} (ht : t.Canon) (hl : ∀ p ∈ l, p.2.Canon) :
    (t.setSlots m l).Canon := by
  cases m with
  | wb => exact { ht with wb := hl }
  | ab => exact { ht with ab := hl }
  | cb => exact { ht with cb := hl }

theorem claimTrap_yields {α : Type} {Q : α → Prop} {m : MMem} {h : Nat} : (claimTrap m h : M α).Yields Q := .raise

theorem needBound_keeps {key : Nat} {m : MMem} {l : List Nat} : (needBound key m l).Keeps := by
  unfold needBound
  refine .thread fun _ _ => ?_
  split
  · exact claimTrap_yields
  · exact .done

theorem needSound_keeps {key : Nat} {m : MMem} {l : List Nat} : (needSound key m l).Keeps := by
  refine .of_run fun s h => ?_
  unfold needSound
  split
  · refine State.Canon.updThr h fun t ht => .setSlots ht (NMap.forall_put (ht.slots m) ?_)
    exact NMap.forall_get (P := Slot.Canon) (ht.slots m) .empty _
  · exact ⟨trivial, h⟩

theorem copyWait_keeps {key : Nat} {q : QEntry} {m : MMem} {l : List Nat} : (copyWait key q m l).Keeps :=
  .thread fun _ _ => .ite .stall .done

theorem roundWait_keeps {key : Nat} {l : List Nat} : (roundWait key l).Keeps := .thread fun _ _ => .ite .stall .done

theorem modSlot_keeps {key : Nat} {m : MMem} {h : Nat} {f : Slot → Slot} (hf : ∀ x, x.Canon → (f x).Canon) : (modSlot key m h f).Keeps :=
  .modThr fun _ ht => .setSlots ht (NMap.forall_put (ht.slots m) (hf _ (NMap.forall_get (ht.slots m) .empty h)))

theorem setFill_keeps {key : Nat} {m : MMem} {h n value : Nat} {grow : Bool} : (setFill key m h n value grow).Keeps :=
  .forEach fun _ => modSlot_keeps fun _ hx => hx

theorem mclaimEntry_keeps {key : Nat} {q : QEntry} {m : MMem} {h n : Nat} : (mclaimEntry key q m h n).Keeps := by
  unfold mclaimEntry
  refine .state fun _ _ => ?_
  dsimp only
  split
  · exact claimTrap_yields
  · refine .also claimTrap_yields fun _ => ?_
    split
    · exact .stall
    · exact .forEach fun _ => modSlot_keeps fun _ _ => .empty

theorem mrelEntry_keeps {key : Nat} {q : QEntry} {m : MMem} {h n : Nat} : (mrelEntry key q m h n).Keeps := by
  unfold mrelEntry
  refine .seq needBound_keeps fun _ => .seq needSound_keeps fun _ => .seq copyWait_keeps fun _ => .thread fun _ _ => .also .stall fun _ =>
    .also roundWait_keeps fun _ => .seq (.modThr fun t ht => .setSlots ht ?_) fun _ => .modify fun _ hs => .stirClaims hs
  exact NMap.forall_foldl (ht.slots m) fun _ _ hm => NMap.forall_erase hm

theorem chargeCb_keeps {key : Nat} {q : QEntry} {l : List Nat} : (chargeCb key q l).Keeps := by
  unfold chargeCb
  dsimp only
  refine .state fun _ _ => ?_
  split
  · split
    · exact .also .raise fun _ => .seq (.modThr fun _ ht => .updVer ht fun _ hv => hv) fun _ => .forEach fun _ => modSlot_keeps fun _ hx =>
        hx
    · exact .done
  · exact .done

theorem Thread.Canon.rowDone {t : Thread} {e : Eng} {i : Nat} (ht : t.Canon) : (t.rowDone e i).Canon := by
  unfold Thread.rowDone
  dsimp only
  split
  · exact ht
  · exact ht

theorem rowLoop_keeps {key : Nat} {e : Eng} {body : Nat → M Unit} {fuel i : Nat} (hbody : ∀ i, (body i).Keeps) :
    (rowLoop key e body fuel i).Keeps := by
  induction fuel generalizing i with
  | zero => exact .done
  | succ fuel ih =>
    refine .of_run fun s h => ?_
    unfold rowLoop
    split
    · next e' =>
      have hu := ((hbody i).ok h e').updThr (key := key) (f := fun t => t.rowDone e i) fun _ ht => .rowDone ht
      dsimp only
      split
      · exact hu
      · exact ih _ hu
    · exact h
    · exact h
    · next e' => exact (hbody i).wait h e'
    · next e' => exact (hbody i).fault h e'

theorem mzeroEntry_keeps {key : Nat} {q : QEntry} {h n : Nat} : (mzeroEntry key q h n).Keeps :=
  .seq needBound_keeps fun _ => .seq roundWait_keeps fun _ => .seq chargeCb_keeps fun _ => rowLoop_keeps fun _ => modSlot_keeps fun _ _ =>
    .empty

theorem mxferEntry_keeps {key : Nat} {q : QEntry} {m : MMem} {h rh : Nat} : (mxferEntry key q m h rh).Keeps := by
  unfold mxferEntry
  refine .seq needBound_keeps fun _ => .seq needSound_keeps fun _ => .also roundWait_keeps fun _ => .state fun s hs => ?_
  extract_lets t slot v rk r ending taken
  have hslot : slot.Canon := NMap.forall_get ((hs.thr key).slots m) .empty h
  have hset : ∀ t : Thread, t.Canon → (t.setSlots m ((t.slots m).erase h)).Canon := fun t ht => .setSlots ht (NMap.forall_erase (ht.slots m))
  refine .ite (.also claimTrap_yields fun _ => .modThr fun t ht => ?_) ?_
  · have hu := hset t ht
    exact { hu with promised := List.forall_mem_append.2 ⟨ht.promised, List.forall_mem_singleton.2 hslot⟩ }
  · refine .also claimTrap_yields fun _ => .also claimTrap_yields fun _ => .also claimTrap_yields fun _ => .seq settleEntry_keeps fun _ =>
      .seq publish_keeps fun _ => .seq (.modThr hset) fun _ => .seq (.modThr fun t ht => .ite ?_ ?_) fun _ => .modify fun _ hs => .stirClaims hs
    · exact { ht with promised := List.forall_mem_append.2 ⟨ht.promised, List.forall_mem_singleton.2 hslot⟩ }
    · refine .setSlots ht (NMap.forall_put (ht.slots m) ?_)
      exact hslot

theorem Slot.Canon.putRow {x : Slot} {row : Nat} {data : List Byte} {tags : List W32} (hx : x.Canon) : (x.putRow row data tags).Canon :=
  Memory.Canon.foldl (.setBytes hx) fun _ _ hm => .setTag hm

theorem align64_keeps {a : Nat} {st : W64} : (align64 a st).Keeps := .ite .raise (.ite .raise .done)

theorem mldwEntry_keeps {key : Nat} {q : QEntry} {h : Nat} : (mldwEntry key q h).Keeps := by
  unfold mldwEntry
  exact .seq needBound_keeps fun _ => .seq align64_keeps fun _ => .seq needSound_keeps fun _ => .seq copyWait_keeps fun _ =>
    .seq settleEntry_keeps fun _ => .seq access_keeps fun _ => .seq (.forIn fun _ _ => .seq peerWatch_keeps fun _ => .done) fun _ =>
    .seq readPieces_keeps fun _ => .state fun _ _ => modSlot_keeps fun _ hx => .foldl hx fun _ _ hx1 => .putRow hx1

theorem mldaEntry_keeps {key : Nat} {q : QEntry} {h : Nat} : (mldaEntry key q h).Keeps := by
  unfold mldaEntry
  refine .also claimTrap_yields fun _ => .seq needBound_keeps fun _ => .seq align64_keeps fun _ => .seq needSound_keeps fun _ =>
    .seq copyWait_keeps fun _ => ?_
  dsimp only
  split
  · exact .seq settleEntry_keeps fun _ => .seq access_keeps fun _ => .seq (.forIn fun _ _ => .seq peerWatch_keeps fun _ => .done) fun _ =>
      .seq readPieces_keeps fun _ => .state fun _ _ => .seq (.forEach fun _ => modSlot_keeps fun _ hx => .putRow hx) fun _ => setFill_keeps
  · exact setFill_keeps

theorem mldvEntry_keeps {key : Nat} {q : QEntry} {h : Nat} {va : BitVec 6} : (mldvEntry key q h va).Keeps := by
  unfold mldvEntry
  exact .also claimTrap_yields fun _ => .seq needBound_keeps fun _ => .seq needSound_keeps fun _ => .seq copyWait_keeps fun _ =>
    .seq readSources_keeps fun _ => .seq takePops_keeps fun _ => .seq (modSlot_keeps fun _ hx => .putRow hx) fun _ => setFill_keeps

theorem Slot.Canon.putCb {x : Slot} {row : Nat} {l : List Nat} {owner : W32} {status : Nat} (hx : x.Canon) :
    (x.putCb row l owner status).Canon := by
  unfold Slot.putCb Slot.Canon
  dsimp only
  exact .writeLE hx

theorem passRow_canon {ws : List (List Blk)} {ab cb : Slot} {row arow : Nat} {acc : Bool} (hcb : cb.Canon) :
    (passRow ws ab cb row arow acc).1.Canon := by
  unfold passRow
  dsimp only
  split
  · exact .putCb hcb
  · exact .putCb hcb

theorem passRows_canon {key wb ab cb : Nat} {acc : Bool} {n : Nat} {s : State} (h : s.Canon) :
    (passRows key wb ab cb acc n s).1.Canon := by
  unfold passRows
  refine State.Canon.foldl_fst h fun x r hs => ?_
  exact .setThr hs { hs.thr key with cb := NMap.forall_put (hs.thr key).cb (passRow_canon (NMap.forall_get (hs.thr key).cb .empty _)) }

theorem passReady_keeps {key : Nat} {q : QEntry} {wb ab cb n : Nat} : (passReady key q wb ab cb n).Keeps :=
  .also claimTrap_yields fun _ => .seq needBound_keeps fun _ => .seq needBound_keeps fun _ => .seq needBound_keeps fun _ =>
    .seq needSound_keeps fun _ => .seq needSound_keeps fun _ => roundWait_keeps

theorem runPass_keeps {key : Nat} {q : QEntry} {wb ab cb n : Nat} {acc : Bool} : (runPass key q wb ab cb n acc).Keeps := by
  unfold runPass
  split
  · refine .seq chargeCb_keeps fun _ => .seq (.modify fun _ hs => .countFor hs) fun _ => .state fun _ hs =>
      .seq (.set (passRows_canon hs)) fun _ => ?_
    split
    · exact .raise
    · exact .seq (.modify fun _ hs1 => .foldl hs1 fun _ _ hs2 => .poisonOwner hs2) fun _ => setFill_keeps
  · exact .done

theorem mpassEntry_keeps {key : Nat} {q : QEntry} {wb ab cb : Nat} {acc : Bool} : (mpassEntry key q wb ab cb acc).Keeps := by
  unfold mpassEntry
  dsimp only
  split
  · exact .seq needBound_keeps fun _ => .seq copyWait_keeps fun _ => .thread fun _ _ => .seq passReady_keeps fun _ =>
      .seq copyWait_keeps fun _ => .seq copyWait_keeps fun _ => .state fun _ _ => .also .stall fun _ => runPass_keeps
  · exact .thread fun _ _ => .seq passReady_keeps fun _ => .seq copyWait_keeps fun _ => .seq copyWait_keeps fun _ => .state fun _ _ =>
      .also .stall fun _ => runPass_keeps

theorem mpassatEntry_keeps {key : Nat} {q : QEntry} {wb ab cb : Nat} {acc : Bool} : (mpassatEntry key q wb ab cb acc).Keeps := by
  unfold mpassatEntry
  refine .state fun _ hs => .seq needBound_keeps fun _ => ?_
  split
  · exact .also .raise fun _ => .also .stall fun _ => .seq passReady_keeps fun _ => .also .raise fun _ => .seq (.modThr fun _ ht =>
      ht) fun _ => .waitOn
  · exact .also .stall fun _ => .also .raise fun _ => .seq passReady_keeps fun _ => .seq (.modify fun _ hs1 => hs1) fun _ => runPass_keeps

theorem drainFlags_keeps {key : Nat} {owner : W32} {fl : Nat} : (drainFlags key owner fl).Keeps := by
  unfold drainFlags
  refine .modify fun _ hs => ?_
  split
  · exact .updThr hs fun _ ht => ht
  · split
    · exact hs
    · exact hs

theorem mdrainEntry_keeps {key : Nat} {q : QEntry} {h : Nat} {ty : OutTy} : (mdrainEntry key q h ty).Keeps := by
  unfold mdrainEntry
  refine .also claimTrap_yields fun _ => .seq needBound_keeps fun _ => .seq align64_keeps fun _ => .seq roundWait_keeps fun _ => ?_
  split
  · refine .seq narrowVa_keeps fun _ => .seq settleOn_keeps fun _ => .seq (.modThr fun _ ht => ht) fun _ => .thread fun _ ht =>
      .seq ?_ fun _ => .seq (.modThr fun _ ht1 => ht1) fun _ => drainFlags_keeps
    refine rowLoop_keeps fun _ => .thread fun _ _ => .seq access_keeps fun _ => .seq writePieces_keeps fun _ => .forEach fun _ => ?_
    split
    · exact .modify fun _ hs => .foldl hs fun _ _ hs1 => .writeTagVer hs1
    · exact .done
  · exact .done

theorem mdrainvEntry_keeps {key : Nat} {q : QEntry} {h : Nat} {vd : BitVec 6} : (mdrainvEntry key q h vd).Keeps := by
  unfold mdrainvEntry
  exact .also claimTrap_yields fun _ => .seq needBound_keeps fun _ => .seq roundWait_keeps fun _ => .seq (rowLoop_keeps fun _ =>
    .thread fun _ ht => .also .stall fun _ => .modThr fun _ ht1 => ht1) fun _ => .thread fun _ _ => .forEach fun _ => drainFlags_keeps

theorem joinRow_canon {rc : Slot} {row : Nat} {es : List Nat} {owner : W32} {st : Nat} (hrc : rc.Canon) :
    (joinRow rc row es owner st).1.Canon := by
  have hput : ∀ {l o n}, (rc.putCb row l o n).Canon := .putCb hrc
  unfold joinRow
  dsimp only
  split
  · exact hput
  · split
    · exact hput
    · split
      · exact hput
      · split
        · exact hput
        · exact hput

/-- The rows of a sender are added to the rows of a receiver one after the other. -/
theorem NMap.forall_foldl_fst {β : Type} {f : NMap Slot × β → Nat → NMap Slot × β} {l : List Nat} {x : NMap Slot × β}
    (h : ∀ p ∈ x.1, p.2.Canon) (hf : ∀ x r, (∀ p ∈ x.1, p.2.Canon) → ∀ p ∈ (f x r).1, p.2.Canon) : ∀ p ∈ (l.foldl f x).1, p.2.Canon :=
  List.foldlRecOn (motive := fun x : NMap Slot × β => ∀ p ∈ x.1, p.2.Canon) l f h fun x hx r _ => hf x r hx

theorem mdrainpEntry_keeps {key : Nat} {q : QEntry} {h p ph : Nat} : (mdrainpEntry key q h p ph).Keeps := by
  unfold mdrainpEntry
  refine .state fun _ _ => ?_
  extract_lets
  split
  · exact claimTrap_yields
  · refine .also claimTrap_yields fun _ => .also needBound_keeps fun _ => .also claimTrap_yields fun _ => .seq needBound_keeps fun _ => ?_
    split
    · exact claimTrap_yields
    · refine .also .stall fun _ => ?_
      split
      · exact claimTrap_yields
      · refine .seq settleEntry_keeps fun _ => .seq publish_keeps fun _ => .also .stall fun _ => .seq roundWait_keeps fun _ =>
          .seq chargeCb_keeps fun _ => .thread fun _ ht => .seq (.modThr ?_) fun _ => .seq setFill_keeps fun _ => ?_
        · intro r hr
          refine { hr with cb := NMap.forall_foldl_fst ht.cb fun x i hx => NMap.forall_put hx ?_ }
          exact joinRow_canon (NMap.forall_get hx .empty _)
        · split
          · exact .faultNow
          · exact .done

theorem mxEffect_keeps {key : Nat} {q : QEntry} : (mxEffect key q).Keeps := by
  unfold mxEffect
  split
  · exact mclaimEntry_keeps
  · exact mrelEntry_keeps
  · exact mzeroEntry_keeps
  · exact mxferEntry_keeps
  · exact mldwEntry_keeps
  · exact mldaEntry_keeps
  · exact mldvEntry_keeps
  · exact mpassEntry_keeps
  · exact mpassatEntry_keeps
  · exact mdrainEntry_keeps
  · exact mdrainvEntry_keeps
  · exact mdrainpEntry_keeps
  · exact tokenWait_keeps
  · exact tokenSet_keeps
  · exact .done

theorem mxWord_canon {w : Instr} {ops : List (BitVec 5)} {flag : Option (BitVec 8)} {s : State} (h : s.Canon) :
    Out.Canon (mxWord w ops flag s) := engineWord_canon (fun _ _ => mxEffect_keeps) (fun _ => pushScored_keeps) h

/-! ## Machine/Copy -/

theorem headEntry_keeps {key : Nat} {e : Eng} : (headEntry key e).Keeps := .thread fun _ _ => .done

theorem modHead_keeps {key : Nat} {e : Eng} {f : QEntry → QEntry} : (modHead key e f).Keeps := by
  unfold modHead
  refine .modThr fun _ ht => ?_
  dsimp only
  split
  · exact ht
  · exact ht

theorem checkChunk_keeps {r : Req} {rreach : Reach} {parts : List Part} {marked : Bool} : (checkChunk r rreach parts marked).Keeps := by
  unfold checkChunk
  refine .state fun _ _ => ?_
  extract_lets t srcs dsts a b stg rp wp scopeOf leaves bad clk races v lines write read race
  have hwrite : ∀ l, (write l).Keeps := by
    refine fun _ => .ite (.seq (.forIn fun _ _ => .seq access_keeps fun _ => .done) fun _ => .done) ?_
    exact .ite (.seq .done fun _ => .also writeRoom_keeps fun _ => .done) (.seq access_keeps fun _ => .also writeRoom_keeps fun _ => .done)
  have hread : ∀ u, (read u).Keeps := fun _ => .ite (.seq .done hwrite) (.seq access_keeps hwrite)
  have hrace : ∀ u, (race u).Keeps := by
    intro u
    dsimp only [race]
    split
    · exact .seq .raise hread
    · exact hread ()
  split
  · exact .raise
  · split
    · exact .seq .raise hrace
    · exact hrace ()

theorem fetchRemote_keeps {key : Nat} {ps : List Piece} : (fetchRemote key ps).Keeps := by
  unfold fetchRemote
  dsimp only
  split
  · exact .done
  · refine .seq headEntry_keeps fun _ => ?_
    split
    · refine .seq (.loop fun _ _ => .seq sendPacket_keeps fun _ => .done) fun _ => .seq modHead_keeps fun _ => .seq .waitOn fun _ =>
        .thread fun _ _ => .also .stall fun _ => ?_
      split
      · exact .raise
      · exact .done
    · refine .thread fun _ _ => .also .stall fun _ => ?_
      split
      · exact .raise
      · exact .done

theorem endFetch_keeps {key : Nat} : (endFetch key).Keeps :=
  .seq headEntry_keeps fun _ => .ite (.seq (.modThr fun _ ht => ht) fun _ => modHead_keeps) .done

theorem readUncached_keeps {key : Nat} {q : QEntry} {a n : Nat} : (readUncached key q a n).Keeps :=
  .seq access_keeps fun _ => .seq fetchRemote_keeps fun _ => .seq (.forIn fun _ _ => .seq peerWatch_keeps fun _ => .done) fun _ =>
    .seq keepHits_keeps fun _ => .state fun _ _ => .done

theorem tagPart_keeps {key : Nat} {q : QEntry} {keep : Bool} {fix : Option W32} {bs : List BlockPart} :
    (tagPart key q keep fix bs).Keeps := by
  unfold tagPart
  refine .forEach fun _ => .seq headEntry_keeps fun _ => .also modHead_keeps fun _ => ?_
  dsimp only
  split
  · exact .modify fun _ hs => .writeTagVer hs
  · exact .done

theorem sendGranules_keeps {key : Nat} {red : Option RedTy} : (sendGranules key red).Keeps := by
  unfold sendGranules
  refine .seq headEntry_keeps fun _ => ?_
  split
  · exact .done
  · exact .seq postGranules_keeps fun _ => modHead_keeps

theorem finishChunk_keeps {key : Nat} {red : Option RedTy} {gs : List (Nat × Nat × BitVec 512 × BitVec 64)} :
    (finishChunk key red gs).Keeps := .seq endFetch_keeps fun _ => .ite (.seq modHead_keeps fun _ => sendGranules_keeps) .done

theorem oneChunk_keeps {key : Nat} {red : Option RedTy} {body : M Unit} (hbody : body.Keeps) : (oneChunk key red body).Keeps :=
  .seq headEntry_keeps fun _ => .ite sendGranules_keeps hbody

theorem writeChunk_keeps {r : Req} {q : QEntry} {wp : List Piece} {l : List (Part × List Byte)} : (writeChunk r q wp l).Keeps := by
  unfold writeChunk
  refine .seq writeLocal_keeps fun _ => .forEach fun _ => ?_
  split
  · exact .modify fun _ hs => .writeVer hs
  · exact .done

theorem copyChunk_keeps {key : Nat} {q : QEntry} {reach : Reach} {parts : List Part} : (copyChunk key q reach parts).Keeps := by
  unfold copyChunk
  refine oneChunk_keeps ?_
  refine .seq checkChunk_keeps fun _ => .seq fetchRemote_keeps fun _ => .seq (.forIn fun _ _ => .seq peerWatch_keeps fun _ =>
    .done) fun _ => .state fun _ _ => .seq writeChunk_keeps fun _ => .seq (.forEach fun _ => tagPart_keeps) fun _ => .seq ?_ fun _ =>
    finishChunk_keeps
  refine .forEach fun _ => ?_
  split
  · exact modSlot_keeps fun _ hx => .putRow hx
  · exact .done

theorem chunkLoop_keeps {key total : Nat} {body : Nat → Nat → M Unit} (hbody : ∀ i k, (body i k).Keeps) :
    (chunkLoop key total body).Keeps := .seq headEntry_keeps fun _ => rowLoop_keeps fun _ => hbody _ _

theorem lengthOk_keeps {q : QEntry} {n : Nat} : (lengthOk q n).Keeps := .ite illegalEntry_yields .done

theorem cpBegin_keeps {key : Nat} {q : QEntry} : (cpBegin key q).Keeps := settleEntry_keeps

theorem descriptor_keeps {key : Nat} {q : QEntry} {a : Nat} : (descriptor key q a).Keeps := by
  unfold descriptor
  split
  · exact .done
  · exact .also .raise fun _ => .seq readUncached_keeps fun _ => .seq endFetch_keeps fun _ => .seq modHead_keeps fun _ => .done

theorem cplEntry_keeps {key : Nat} {q : QEntry} : (cplEntry key q).Keeps :=
  .seq lengthOk_keeps fun _ => .seq narrowVa_keeps fun _ => chunkLoop_keeps fun _ _ => copyChunk_keeps

theorem cptEntry_keeps {key : Nat} {q : QEntry} : (cptEntry key q).Keeps := by
  unfold cptEntry
  refine .seq descriptor_keeps fun _ => .also illegalEntry_yields fun _ => .seq lengthOk_keeps fun _ => ?_
  dsimp only
  split
  · exact .seq narrowVa_keeps fun _ => chunkLoop_keeps fun _ _ => copyChunk_keeps
  · exact .also illegalEntry_yields fun _ => .also illegalEntry_yields fun _ => .also illegalEntry_yields fun _ =>
      .seq needBound_keeps fun _ => .seq narrowScore_keeps fun _ => .seq (chunkLoop_keeps fun _ _ => copyChunk_keeps) fun _ =>
      .ite setFill_keeps .done

theorem readIndices_keeps {key : Nat} {q : QEntry} {index : W64} {iw : Nat} {sgn : Bool} {first n : Nat} :
    (readIndices key q index iw sgn first n).Keeps := .seq readUncached_keeps fun _ => .done

theorem gatherDesc_keeps {key : Nat} {q : QEntry} {ab : Bool} : (gatherDesc key q ab).Keeps :=
  .seq descriptor_keeps fun _ => .also illegalEntry_yields fun _ => .seq lengthOk_keeps fun _ => .also illegalEntry_yields fun _ =>
    .also .raise fun _ => .done

theorem rowsAndIndices_keeps {key : Nat} {q : QEntry} {d : List W64} {rb at_ k : Nat} : (rowsAndIndices key q d rb at_ k).Keeps :=
  .seq readIndices_keeps fun _ => .done

theorem cpgEntry_keeps {key : Nat} {q : QEntry} : (cpgEntry key q).Keeps := by
  unfold cpgEntry
  refine .seq gatherDesc_keeps fun _ => ?_
  dsimp only
  split
  · exact .seq narrowVa_keeps fun _ => chunkLoop_keeps fun _ _ => oneChunk_keeps (.seq rowsAndIndices_keeps fun _ => copyChunk_keeps)
  · exact .seq needBound_keeps fun _ => .seq narrowScore_keeps fun _ => .seq (chunkLoop_keeps fun _ _ => .seq rowsAndIndices_keeps fun _ =>
      copyChunk_keeps) fun _ => setFill_keeps

theorem cpsEntry_keeps {key : Nat} {q : QEntry} : (cpsEntry key q).Keeps :=
  .seq gatherDesc_keeps fun _ => chunkLoop_keeps fun _ _ => oneChunk_keeps (.seq rowsAndIndices_keeps fun _ => .state fun _ _ =>
    .seq growScore_keeps fun _ => copyChunk_keeps)

theorem cpstgEntry_keeps {key : Nat} {q : QEntry} {out : Bool} : (cpstgEntry key q out).Keeps := by
  unfold cpstgEntry
  exact .also illegalEntry_yields fun _ => .seq lengthOk_keeps fun _ => .also narrowVa_keeps fun _ => chunkLoop_keeps fun _ _ =>
    copyChunk_keeps

theorem redPiece_keeps {r : Req} {ty : RedTy} {p : Piece} {data : List Byte} : (redPiece r ty p data).Keeps := by
  unfold redPiece
  refine .state fun _ hs => ?_
  dsimp only
  split
  · exact .modify fun _ hs1 => { hs1 with host := .setBytes hs1.host }
  · split
    · exact .seq noteIn_keeps fun _ => .seq (.modify fun _ hs1 => .writeVer hs1) fun _ => peerWatch_keeps
    · exact .done

theorem alignAll_keeps {n : Nat} {l : List Nat} : (alignAll n l).Keeps := by
  unfold alignAll
  split
  · exact .raise
  · exact .done

theorem cpredEntry_keeps {key : Nat} {q : QEntry} {ty : RedTy} : (cpredEntry key q ty).Keeps := by
  unfold cpredEntry
  exact .seq lengthOk_keeps fun _ => .seq alignAll_keeps fun _ => .also .raise fun _ => .seq narrowVa_keeps fun _ =>
    chunkLoop_keeps fun _ _ => oneChunk_keeps (.seq checkChunk_keeps fun _ => .seq (.forEach fun _ => writeBackLine_keeps) fun _ =>
    .seq fetchRemote_keeps fun _ => .seq (.forIn fun _ _ => .seq peerWatch_keeps fun _ => .done) fun _ => .state fun _ _ =>
    .seq (.forEach fun _ => tagPart_keeps) fun _ => .seq (.forEach fun _ => redPiece_keeps) fun _ => finishChunk_keeps)

theorem cpfillEntry_keeps {key : Nat} {q : QEntry} {z : Size} : (cpfillEntry key q z).Keeps :=
  .seq lengthOk_keeps fun _ => .also .raise fun _ => .seq narrowVa_keeps fun _ => chunkLoop_keeps fun _ _ => copyChunk_keeps

theorem cptagEntry_keeps {key : Nat} {q : QEntry} {strm : Bool} : (cptagEntry key q strm).Keeps := by
  unfold cptagEntry
  extract_lets _ _ _ _ fill count
  have hfill : ∀ n, (fill n).Keeps := by
    refine fun _ => .also illegalEntry_yields fun _ => .also .raise fun _ => .seq narrowVa_keeps fun _ => chunkLoop_keeps fun _ _ =>
      oneChunk_keeps ?_
    exact .ite (.seq readUncached_keeps fun _ => .seq .done fun _ => copyChunk_keeps) (.seq .done fun _ => copyChunk_keeps)
  have hcount : ∀ u, (count u).Keeps := fun _ =>
    .ite (.ite (.seq .done hfill) (.seq readUncached_keeps fun _ => .seq endFetch_keeps fun _ => .seq modHead_keeps fun _ => .seq .done hfill))
      (.seq .done hfill)
  exact .ite (.seq .raise hcount) (hcount ())

theorem cpconvEntry_keeps {key : Nat} {q : QEntry} : (cpconvEntry key q).Keeps := by
  unfold cpconvEntry
  dsimp only
  split
  · refine .also illegalEntry_yields fun _ => .seq alignAll_keeps fun _ => .seq narrowVa_keeps fun _ => .seq ?_ fun _ =>
      .seq headEntry_keeps fun _ => .modThr fun _ ht => ht
    refine chunkLoop_keeps fun _ _ => oneChunk_keeps ?_
    refine .seq checkChunk_keeps fun _ => .seq fetchRemote_keeps fun _ => .seq (.forIn fun _ _ => .seq peerWatch_keeps fun _ =>
      .done) fun _ => .state fun _ hs => .also .raise fun _ => .seq writeLocal_keeps fun _ => .seq ?_ fun _ => .seq modHead_keeps fun _ =>
      finishChunk_keeps
    refine .forEach fun _ => ?_
    split
    · split
      · exact .modify fun _ hs1 => .writeTagVer hs1
      · exact .ite (.modify fun _ hs1 => .writeTagVer hs1) .done
    · exact .done
  · exact illegalEntry_yields

theorem cpsigEntry_keeps {key : Nat} {q : QEntry} : (cpsigEntry key q).Keeps := by
  unfold cpsigEntry
  refine .thread fun _ ht => ?_
  split
  · exact .also .stall fun _ => .seq (.modThr fun _ ht1 => ht1) fun _ => modHead_keeps
  · refine .also illegalEntry_yields fun _ => .state fun _ hs => .also .raise fun _ => .seq writeBackLines_keeps fun _ =>
      .seq publish_keeps fun _ => .thread fun _ _ => ?_
    dsimp only
    split
    · exact .state fun _ _ => .also .waitOn fun _ => .seq sendPacket_keeps fun _ => .seq modHead_keeps fun _ => .waitOn
    · refine .state fun _ _ => .also .waitOn fun _ => ?_
      split
      · exact .seq (.modify fun _ hs2 => .addFlag hs2) fun _ => modHead_keeps
      · exact .done

theorem cpBody_keeps {key : Nat} {q : QEntry} : (cpBody key q).Keeps := by
  unfold cpBody
  split
  · exact cplEntry_keeps
  · exact cptEntry_keeps
  · exact cpgEntry_keeps
  · exact cpsEntry_keeps
  · exact cpstgEntry_keeps
  · exact cpredEntry_keeps
  · exact cpfillEntry_keeps
  · exact cptagEntry_keeps
  · exact cpconvEntry_keeps
  · exact cpsigEntry_keeps
  · exact .done

theorem cpEffect_keeps {key : Nat} {q : QEntry} : (cpEffect key q).Keeps := by
  unfold cpEffect
  split
  · exact tokenWait_keeps
  · exact tokenSet_keeps
  · refine .seq cpBegin_keeps fun _ => .seq cpBody_keeps fun _ => ?_
    split
    · next f _ =>
      refine .ite (.of_run fun s h => ?_) .done
      have hset := tokenSet_keeps (key := key) (e := .cp) (q := q) (f := f) (n := 1) (code := 7) s h
      split
      · exact h
      · exact hset
    · exact .done

theorem cpWord_canon {w : Instr} {ops : List (BitVec 5)} {flag : Option (BitVec 8)} {s : State} (h : s.Canon) :
    Out.Canon (cpWord w ops flag s) := engineWord_canon (fun _ _ => cpEffect_keeps) (fun _ => pushScored_keeps) h

/-! ## Machine/Mash -/

theorem launchGroup_canon {fuel : Nat} {g : List (Nat × TileTask)} {s : State} (h : s.Canon) : (launchGroup fuel g s).Canon := by
  induction fuel generalizing g s with
  | zero => exact h
  | succ fuel ih =>
    cases g with
    | nil => exact h
    | cons x g =>
      unfold launchGroup
      dsimp only
      split
      · exact h
      · split
        · exact h
        · exact ih h

theorem launchAll_canon {fuel : Nat} {l : List (Nat × TileTask)} {s : State} (h : s.Canon) : (launchAll fuel l s).Canon := by
  induction fuel generalizing l s with
  | zero => exact h
  | succ fuel ih =>
    cases l with
    | nil => exact h
    | cons x l => exact ih (launchGroup_canon h)

theorem State.Canon.launch {s : State} {p : Nat} (h : s.Canon) : (s.launch p).Canon := launchAll_canon h

theorem State.Canon.launchBefore {s : State} (h : s.Canon) : s.launchBefore.Canon := by
  unfold State.launchBefore
  refine .ite h ?_
  extract_lets launched
  have hlaunched : launched.Canon := .foldl (s := { s with tick := _ }) h fun _ _ hs => .launch hs
  clear_value launched
  exact hlaunched

theorem State.Canon.acceptTask {s : State} {t : TileTask} (h : s.Canon) : (s.acceptTask t).Canon := .launch (.launchBefore h)

theorem execTsub_canon {xa : BitVec 5} {s : State} (h : s.Canon) : Out.Canon (execTsub xa s) := by
  unfold execTsub
  refine sqWord_canon (fun key => .thread fun _ _ => .seq settleSQ_keeps fun _ => .also .raise fun _ => .seq releaseAll_keeps fun _ =>
    .state fun s _ => .seq readSpans_keeps fun _ => ?_) h
  extract_lets x p _ _ accept
  have haccept : ∀ u, (accept u).Keeps := fun _ => .also .stall fun _ => .seq publish_keeps fun _ => .state fun _ hs =>
    .seq (.set (.acceptTask hs)) fun _ => advance_keeps
  split
  · exact .seq .raise haccept
  · exact haccept ()

theorem execPatienceExpiry_canon {p : Nat} {s : State} (h : s.Canon) : Out.Canon (execPatienceExpiry p s) := .launch h

theorem State.Canon.judge {s : State} {die tid : Nat} (h : s.Canon) : (s.judge die tid).Canon :=
  .ite h (.ite (.holdTrans h) (.ite (.finishTask h) (.deferTask h)))

theorem tileSlot_canon {s : State} {t : Tensor} {kt nt : Nat} : (tileSlot s t kt nt).Canon := by
  unfold tileSlot
  refine .foldl .empty fun _ _ hx => ?_
  dsimp only
  exact .putRow hx

theorem State.Canon.readRow {s : State} {die tid r k : Nat} (h : s.Canon) : (s.readRow die tid r k).1.Canon := by
  unfold State.readRow
  dsimp only
  split
  · exact .poisonRow h
  · split
    · exact .poisonRow h
    · exact noteRow_canon h

theorem State.Canon.loadRows {s : State} {key k : Nat} {rows : List (Nat × Nat × Nat)} (h : s.Canon) : (s.loadRows key k rows).Canon := by
  refine .foldl h fun s e hs => ?_
  have hr : (s.readRow (slotDie key) e.1.2.1 e.1.2.2 k).1.Canon := .readRow hs
  generalize s.readRow (slotDie key) e.1.2.1 e.1.2.2 k = r at hr ⊢
  obtain ⟨s, d, g⟩ := r
  refine .updThr hr fun t ht => { ht with ab := NMap.forall_put ht.ab ?_ }
  have hput : ((t.ab.get (e.2 / 256)).putRow (e.2 % 256) d g).Canon := .putRow (NMap.forall_get ht.ab .empty _)
  exact hput

theorem State.Canon.passStep {s : State} {key : Nat} {x : Tensor} {kt nt : Nat} {rows : List (Nat × Nat × Nat)} {k : Nat} (h : s.Canon) :
    (s.passStep key x kt nt rows k).Canon := by
  unfold State.passStep
  extract_lets s₁ s₂ r s₃
  have hs₁ : s₁.Canon := .updThr h fun _ ht => { ht with wb := NMap.forall_put ht.wb tileSlot_canon }
  have hs₂ : s₂.Canon := .countFor (.loadRows hs₁)
  have hs₃ : s₃.Canon := by
    refine .updThr (passRows_canon hs₂) fun _ ht => { ht with cb := NMap.forall_foldl ht.cb fun m i hm => NMap.forall_put hm ?_ }
    exact NMap.forall_get (P := Slot.Canon) hm .empty i
  exact .foldl hs₃ fun _ _ hs => .poisonOwner hs

theorem passThread_canon {core : Nat} {f : Frame} : (passThread core f).Canon := by
  unfold passThread
  extract_lets a
  have ha : a.Canon := .empty
  exact { ha with
    wb := List.forall_mem_cons.2 ⟨.empty, List.forall_mem_singleton.2 .empty⟩
    ab := List.forall_mem_cons.2 ⟨.empty, List.forall_mem_singleton.2 .empty⟩
    cb := List.forall_mem_cons.2 ⟨.empty, List.forall_mem_singleton.2 .empty⟩ }

theorem State.Canon.passBegin {s : State} {n core : Nat} (h : s.Canon) : (s.passBegin n core).Canon := by
  unfold State.passBegin
  extract_lets _ _ _ _ s s1 _ s2 _ s3 _ _ _ _ _ s4
  have hs : s.Canon := .loadOverlay h
  have hs1 : s1.Canon := .foldl hs fun _ _ hs1 => .judge hs1
  have hs2 : s2.Canon := hs1
  have hs3 : s3.Canon := hs2
  have hs4 : s4.Canon := .setThr hs3 passThread_canon
  split
  · exact .endPass hs4
  · exact .foldl hs4 fun _ _ hs5 => .passStep hs5

theorem execPassBegin_canon {p core : Nat} {s : State} (h : s.Canon) : Out.Canon (execPassBegin p core s) := by
  unfold execPassBegin
  extract_lets s
  have hs : s.Canon := .launchBefore h
  split
  · exact .passBegin hs
  · exact hs

theorem execPassEnd_canon {core : Nat} {s : State} (h : s.Canon) : Out.Canon (execPassEnd core s) := by
  unfold execPassEnd
  dsimp only
  split
  · split
    · exact .endPass h
    · exact h
  · exact h

theorem execPassAbandon_canon {core : Nat} {s : State} (h : s.Canon) : Out.Canon (execPassAbandon core s) := by
  unfold execPassAbandon
  split
  · split
    · exact .passFault h
    · exact h
  · exact h

theorem State.Canon.pagesDone {s : State} {cid va len : Nat} {fail : Bool} (h : s.Canon) : (s.pagesDone cid va len fail).Canon :=
  .foldl (.foldl (.launchBefore h) fun _ _ hs => .ite (.finishTask hs) hs) fun _ _ hs => .launch hs

theorem State.Canon.poisonOrphans {s : State} (h : s.Canon) : s.poisonOrphans.Canon := .foldl h fun _ _ hs => .ite (.finishTask hs) hs

theorem execBulletinRefresh_canon {s : State} (h : s.Canon) : Out.Canon (execBulletinRefresh s) := by
  unfold execBulletinRefresh
  split
  · exact h
  · exact h

/-! ## Machine/Sparge -/

theorem State.Canon.freeInterp {s : State} {it : Nat} (h : s.Canon) : (s.freeInterp it).Canon := { h with host := .writeLE h.host }

theorem State.Canon.rejectPkt {s : State} {it reason op code : Nat} (h : s.Canon) : (s.rejectPkt it reason op code).Canon :=
  .freeInterp (postEvent_canon h)

theorem SpTable.write_canon {t : SpTable} {s : State} {i : Nat} {v : W64} (h : s.Canon) : (t.write s i v).Canon :=
  .foldl h fun _ _ hs => .writeCommitted hs

theorem State.Canon.acceptPkt {s : State} {it : Nat} (h : s.Canon) : (s.acceptPkt it).Canon :=
  .freeInterp (.foldl h fun _ _ hs => SpTable.write_canon hs)

theorem spOp_canon {body : State → Interp → Except SpEnd Interp} {s : State} (h : s.Canon) : Out.Canon (spOp body s) := by
  unfold spOp
  dsimp only
  split
  · exact h
  · split
    · exact .rejectPkt h
    · split
      · exact h
      · exact .acceptPkt h
      · exact .rejectPkt h

theorem spReg_canon {d : BitVec 4} {v : State → Interp → W64} {s : State} (h : s.Canon) : Out.Canon (spReg d v s) := spOp_canon h

theorem execBudget_canon {it : Nat} {s : State} (h : s.Canon) : Out.Canon (execBudget it s) := by
  unfold execBudget
  dsimp only
  split
  · exact .rejectPkt h
  · exact h

theorem State.Canon.loadProgram {s : State} {fn prog : Nat} (h : s.Canon) : (s.loadProgram fn prog).Canon := by
  unfold State.loadProgram
  dsimp only
  split
  · exact h
  · split
    · exact h
    · split
      · exact h
      · split
        · exact h
        · exact h

theorem State.Canon.unloadProgram {s : State} {fn prog : Nat} (h : s.Canon) : (s.unloadProgram fn prog).Canon := .ite h (.stir h)

theorem State.Canon.handoff {s : State} {it : Nat} (h : s.Canon) : (s.handoff it).Canon := by
  unfold State.handoff
  extract_lets number busy ready dist best
  clear_value best
  split
  · exact h
  · split
    · exact h
    · exact .ite (.rejectPkt h) (.ite (.rejectPkt h) h)

theorem execInterpreterHandoff_canon {it : Nat} {s : State} (h : s.Canon) : Out.Canon (execInterpreterHandoff it s) := by
  unfold execInterpreterHandoff
  split
  · exact .handoff h
  · exact h

/-! ## Machine/HostQueue -/

theorem State.Canon.wake {s : State} (h : s.Canon) : s.wake.Canon := .ite h h

theorem State.Canon.overrun {s : State} {fn ring : Nat} (h : s.Canon) : (s.overrun fn ring).Canon := postEvent_canon h

theorem State.Canon.tailBell {s : State} {fn ring : Nat} {tail : W32} (h : s.Canon) : (s.tailBell fn ring tail).Canon :=
  .ite h (.ite (.wake h) (.ite (.overrun (.wake h)) (.wake h)))

theorem State.Canon.inlineBell {s : State} {fn ring : Nat} {bytes : List Byte} (h : s.Canon) : (s.inlineBell fn ring bytes).Canon := by
  unfold State.inlineBell
  split
  · exact h
  · extract_lets s _ _ _ _ _
    have hs : s.Canon := .wake h
    split
    · exact hs
    · exact .ite (.overrun hs) hs

theorem State.Canon.bell {s : State} {b : Nat × Nat × W32 × List Byte} (h : s.Canon) : (s.bell b).Canon :=
  .ite (.tailBell h) (.inlineBell h)

theorem State.Canon.ringBell {s : State} {b : Nat × Nat × W32 × List Byte} (h : s.Canon) : (s.ringBell b).Canon :=
  .hostWrite h fun _ hs => .ite hs (.bell hs)

theorem execInlineDoorbell_canon {fn ring : Nat} {bytes : List (BitVec 8)} {s : State} (h : s.Canon) :
    Out.Canon (execInlineDoorbell fn ring bytes s) := by
  unfold execInlineDoorbell
  split
  · exact .hostWrite h fun _ hs => hs
  · exact .ringBell h

theorem execMerge_canon {fn lq : Nat} {s : State} (h : s.Canon) : Out.Canon (execMerge fn lq s) := by
  unfold execMerge
  dsimp only
  split
  · exact h
  · exact h

theorem State.Canon.emitFail {s : State} {fn cid : Nat} {e : Emission} {reason code : Nat} (h : s.Canon) :
    (s.emitFail fn cid e reason code).Canon := postEvent_canon h

theorem State.Canon.launchThreads {s : State} {cid slot size : Nat} {binds : NMap W64} (h : s.Canon) :
    (s.launchThreads cid slot size binds).2.Canon := by
  unfold State.launchThreads
  dsimp only
  split
  · next e => exact .foldl (createThreads_keeps.ok (s := { s with gangNext := s.gangNext + 1 }) h e) fun _ _ hs => .updThr hs fun _ ht => ht
  · exact h

theorem State.Canon.launchNow {s : State} {fn lq slot size : Nat} {start : Option (Nat × Bool)} {binds : NMap W64} {e : Emission}
    (h : s.Canon) : (s.launchNow fn lq slot size start binds e).Canon := by
  unfold State.launchNow
  dsimp only
  split
  · exact .emitFail h
  · refine .ite (postEvent_canon h) ?_
    have hs : ((s.launchThreads (s.lq fn lq).cid slot size binds).2.askPlace (s.launchThreads (s.lq fn lq).cid slot size binds).1).Canon :=
      .askPlace (.launchThreads h)
    split
    · exact hs
    · exact hs

theorem State.Canon.tileNow {s t : State} {fn lq : Nat} {desc : List Byte} {thr : Nat} {e : Emission} (h : s.Canon)
    (ht : s.tileNow fn lq desc thr e = some t) : t.Canon := by
  unfold State.tileNow at ht
  dsimp only at ht
  split at ht
  · cases ht
    exact .emitFail h
  · split at ht
    · cases ht
    · cases ht
      exact .acceptTask h

theorem State.Canon.hostSignal {s : State} {cid thr flag n : Nat} (h : s.Canon) : (s.hostSignal cid thr flag n).Canon := .ite h (.addFlag h)

theorem State.Canon.emission {s : State} {fn lq : Nat} (h : s.Canon) : (s.emission fn lq).Canon := by
  unfold State.emission
  extract_lets q c
  clear_value q
  split
  · exact h
  · extract_lets taken
    have htaken : taken.Canon := h
    refine .ite h (.ite htaken ?_)
    split
    · exact .ite htaken h
    · exact h
    · exact .ite (.launchNow htaken) h
    · exact .ite (.getD h fun _ ht => .tileNow htaken ht) h
    · exact .ite (.hostSignal htaken) h

theorem execEmissionTakesEffect_canon {fn lq : Nat} {s : State} (h : s.Canon) : Out.Canon (execEmissionTakesEffect fn lq s) := by
  unfold execEmissionTakesEffect
  split
  · exact h
  · exact .emission h

theorem copyAgent_canon {cid ver : Nat} {x : HostCopy} : (copyAgent cid ver x).Canon :=
  { Thread.Canon.empty with versions := List.forall_mem_singleton.2 freshVersion_canon }

theorem State.Canon.dropCopy {s : State} {fn lq i : Nat} (h : s.Canon) : (s.dropCopy fn lq i).Canon := h

theorem State.Canon.copyFault {s : State} {fn lq i cause addr : Nat} {x : HostCopy} (h : s.Canon) :
    (s.copyFault fn lq i cause addr x).Canon := .dropCopy (postEvent_canon h)

theorem State.Canon.copyStep {s : State} {fn lq i : Nat} {x : HostCopy} (h : s.Canon) : (s.copyStep fn lq i x).Canon := by
  unfold State.copyStep
  split
  · refine .ite (.hostSignal (.dropCopy h)) ?_
    dsimp only
    split
    · next s₂ e =>
      have hs₂ : s₂.Canon := copyChunk_keeps.ok (.setThr (.newVerId h) copyAgent_canon) e
      have hc := hs₂.commitWrites (key := 3 * passBase + lqKey fn lq) (id := s.newVerId.1)
      have he := { hc with threads := NMap.forall_erase hc.threads (k := 3 * passBase + lqKey fn lq) }
      split
      · exact .hostSignal (.dropCopy he)
      · exact he
    · exact .ite (postEvent_canon h) (.copyFault h)
    · exact h
  · exact .dropCopy h

theorem execEcopyCompletion_canon {fn lq : Nat} {s : State} (h : s.Canon) : Out.Canon (execEcopyCompletion fn lq s) := by
  unfold execEcopyCompletion
  dsimp only
  split
  · exact h
  · split
    · exact .copyStep h
    · exact h

theorem State.Canon.copyVerdict {s : State} {cid va len : Nat} {fail : Bool} (h : s.Canon) : (s.copyVerdict cid va len fail).Canon :=
  .foldl h fun _ _ hs => .foldl hs fun _ _ hs1 => postEvent_canon hs1

theorem State.Canon.gangMiss {s : State} {h : GangHold} (hs : s.Canon) : (s.gangMiss h).Canon := postEvent_canon hs

theorem State.Canon.judgeGangs {s : State} (h : s.Canon) : s.judgeGangs.Canon := .ite h h

theorem execGangStart_canon {n : Nat} {s : State} (h : s.Canon) : Out.Canon (execGangStart n s) := by
  unfold execGangStart
  split
  · exact h
  · split
    · exact .foldl (.ite (.gangMiss h) h) fun _ _ hs => .ite (.updThr hs fun _ ht => ht) hs
    · exact h

theorem execGangLate_canon {n : Nat} {s : State} (h : s.Canon) : Out.Canon (execGangLate n s) := by
  unfold execGangLate
  split
  · exact h
  · split
    · exact h
    · split
      · exact h
      · exact .foldl (.gangMiss h) fun _ _ hs => .ite (.retire hs) hs

/-! ## Machine/Fabric -/

theorem State.Canon.answer {s : State} {h : FabHdr} {k : AnsKind} (hs : s.Canon) : (s.answer h k).Canon := hs

theorem State.Canon.remoteWatch {s : State} {key : Nat} {h : FabHdr} {rd wr : Bool} {off len : Nat} (hs : s.Canon) :
    (s.remoteWatch key h rd wr off len).Canon := .foldl hs fun _ _ hs1 => .report hs1

theorem State.Canon.remoteStore {s : State} {key off : Nat} {data : List Byte} (h : s.Canon) : (s.remoteStore key off data).Canon :=
  .writeCommitted (.dropRels h)

theorem State.Canon.noteInbound {s : State} {key : Nat} {clk : Clock} (h : s.Canon) : (s.noteInbound key clk).Canon :=
  .ite h (.updThr h fun _ ht => ht)

theorem State.Canon.remoteWrite {s : State} {key : Nat} {h : FabHdr} {off : Nat} {data : BitVec 512} {be : BitVec 64} {red : Option RedTy}
    (hs : s.Canon) : (s.remoteWrite key h off data be red).Canon := .foldl hs fun _ _ hs1 => .ite (.remoteWatch (.remoteStore hs1)) hs1

theorem State.Canon.unread {s : State} (h : s.Canon) : s.unread.2.Canon := h

theorem State.Canon.carryBack {s : State} {h : FabHdr} {clk : Clock} (hs : s.Canon) : (s.carryBack h clk).Canon := by
  unfold State.carryBack
  split
  · exact hs
  · split
    · exact hs
    · exact hs

theorem State.Canon.storeIn {s : State} {key : Nat} {p : InPkt} {off n v : Nat} {kept : List RelRec} (h : s.Canon) :
    (s.storeIn key p off n v kept).Canon := .noteInbound (.remoteStore h)

theorem State.Canon.remoteMarkedOp {s : State} {key : Nat} {p : InPkt} {off : Nat} {op : MarkedOp} (h : s.Canon) :
    (s.remoteMarkedOp key p off op).2.Canon := by
  unfold State.remoteMarkedOp
  dsimp only
  split
  · exact .unread h
  · split
    · exact h
    · refine .remoteWatch (.carryBack ?_)
      split
      · exact .storeIn h
      · exact h

theorem State.Canon.remoteLine {s : State} {key off : Nat} (h : s.Canon) : (s.remoteLine key off).2.Canon := by
  unfold State.remoteLine
  split
  · exact h
  · exact State.Canon.foldl_snd h fun _ _ hs => .unread hs

theorem State.Canon.answerOnce {s : State} {p : InPkt} {k : AnsKind} (h : s.Canon) : (s.answerOnce p k).Canon := .ite h (.answer h)

theorem State.Canon.afterCopies {s : State} {key : Nat} {p : InPkt} (h : s.Canon) : (s.afterCopies key p).Canon := by
  unfold State.afterCopies
  split
  · exact h
  · refine .ite h ?_
    extract_lets s₁
    have hs₁ : s₁.Canon := by
      dsimp only [s₁]
      split
      · exact .updThr h fun _ ht => ht
      · exact h
    split
    · exact hs₁
    · exact .noteInbound hs₁

theorem State.Canon.performIn {s : State} {cid : Nat} {p : InPkt} (h : s.Canon) : (s.performIn cid p).Canon := by
  unfold State.performIn
  extract_lets _ s
  have hs : s.Canon := .afterCopies h
  split
  · exact .answerOnce (.ite (.noteInbound (.remoteWrite hs)) hs)
  · exact .answerOnce (.remoteWatch (.remoteLine hs))
  · exact .answerOnce (.remoteMarkedOp hs)
  · exact .answerOnce (.addFlag hs)

theorem State.Canon.sendDevice {s : State} {cid pkg dcid : Nat} {kind : PktKind} (h : s.Canon) : (s.sendDevice cid pkg dcid kind).Canon := h

theorem State.Canon.parkIn {s : State} {cid : Nat} {p : InPkt} (h : s.Canon) : (s.parkIn cid p).Canon := by
  unfold State.parkIn
  extract_lets _ s _
  have hs : s.Canon := .ite h (.answer h)
  split
  · exact hs
  · exact hs

theorem drainFlow_canon {cid fuel : Nat} {f : InFlow} {s : State} (h : s.Canon) : (drainFlow cid fuel f s).2.Canon := by
  induction fuel generalizing f s with
  | zero => exact h
  | succ fuel ih =>
    unfold drainFlow
    split
    · exact h
    · exact ih (.performIn h)

theorem State.Canon.enterFlow {s : State} {cid : Nat} {p : InPkt} (h : s.Canon) : (s.enterFlow cid p).Canon := by
  unfold State.enterFlow
  extract_lets at_ f g r
  have hr : r.2.Canon := drainFlow_canon h
  clear_value r at_
  refine .ite h ?_
  split
  · exact hr
  · exact hr

theorem State.Canon.drainFlows {s : State} (h : s.Canon) : s.drainFlows.Canon := by
  unfold State.drainFlows
  refine .foldl h fun _ _ hs => ?_
  split
  · split
    · exact hs
    · exact drainFlow_canon hs
  · exact hs

theorem State.Canon.flowIn {s : State} {ep srcEp : W32} {srcThread flow next : Nat} {done : List Nat} (h : s.Canon) :
    (s.flowIn ep srcEp srcThread flow next done).Canon := .drainFlows h

theorem State.Canon.inbound {s : State} {h : FabHdr} {op : InOp} (hs : s.Canon) : (s.inbound h op).Canon := by
  unfold State.inbound
  split
  · exact .answer hs
  · exact .answer hs
  · dsimp only
    split
    · exact .ite hs (.ite (.answer hs) (.parkIn hs))
    · exact .enterFlow hs

theorem execEndMarker_canon {cid : Nat} {s : State} (h : s.Canon) : Out.Canon (execEndMarker cid s) := by
  unfold execEndMarker
  split
  · exact h
  · exact h

theorem State.Canon.settlePacket {s : State} {p : Packet} (h : s.Canon) : (s.settlePacket p).Canon := by
  unfold State.settlePacket
  extract_lets s
  have hs : s.Canon := .stir h
  split
  · split
    · exact .updThr hs fun _ ht => ht
    · exact hs
  · exact hs

theorem State.Canon.fillPref {s : State} {key k : Nat} {r : Reply} (h : s.Canon) : (s.fillPref key k r).Canon := by
  unfold State.fillPref
  extract_lets _ s
  have hs : s.Canon := by
    dsimp only [s]
    split
    · exact h
    · split
      · exact .updThr h fun _ ht => ht
      · exact h
  split
  · exact hs
  · exact .updThr hs fun _ ht => ht

theorem State.Canon.replyTo {s : State} {p : Packet} {r : Reply} (h : s.Canon) : (s.replyTo p r).Canon := by
  unfold State.replyTo
  extract_lets t
  have ht : t.Canon := State.Canon.thr h _
  split
  · exact h
  · split
    · exact .fillPref (.updThr h fun _ ht1 => ht1)
    · split
      · exact .updThr h fun _ ht1 => ht1
      · exact h

theorem State.Canon.pageAnswered {s : State} {key : Nat} {ok : Bool} (h : s.Canon) : (s.pageAnswered key ok).Canon := .ite h (.ite h h)

theorem State.Canon.answered {s : State} {key id : Nat} {reply : BitVec 512} {poison : Bool} (h : s.Canon) :
    (s.answered key id reply poison).Canon := by
  unfold State.answered
  split
  · exact h
  · extract_lets s
    have hs : s.Canon := .settlePacket h
    split
    · exact hs
    · exact .pageAnswered hs
    · exact .replyTo hs

theorem execEndpointGone_canon {key id : Nat} {s : State} (h : s.Canon) : Out.Canon (execEndpointGone key id s) := by
  unfold execEndpointGone
  split
  · exact h
  · extract_lets s
    have hs : s.Canon := .settlePacket h
    split
    · exact hs
    · exact .pageAnswered hs
    · split
      · exact .report hs
      · exact hs

theorem execLineEviction_canon {key w line : Nat} {s : State} (h : s.Canon) : Out.Canon (execLineEviction key w line s) := by
  unfold execLineEviction
  dsimp only
  split
  · exact h
  · split
    · next e => exact ((M.Yields.seq writeBackLine_keeps fun _ => dropLines_keeps).ok h e)
    · next e => exact ((M.Yields.seq writeBackLine_keeps fun _ => dropLines_keeps).wait h e)
    · exact h

/-! ## Machine/KegFormat -/

theorem readThread_canon {cid ver gang : Nat} {rec_ frame : List Byte} : (readThread cid ver gang rec_ frame).Canon :=
  { Thread.Canon.empty with versions := List.forall_mem_singleton.2 freshVersion_canon }

theorem Memory.Canon.setExtent {m : Memory} {a n : Nat} {l : List Byte} (hm : m.Canon) : (m.setExtent a n l).Canon :=
  .foldl (.setBytes hm) fun _ _ hm1 => .setTag hm1

theorem readSlot_canon {m fill : Nat} {l : List Byte} : (readSlot m fill l).Canon := by
  unfold readSlot Slot.Canon
  split <;> dsimp only
  · exact .setExtent .empty
  · exact .foldl (.setBytes .empty) fun _ _ hm => .foldl hm fun _ _ hm => .setTag hm
  · exact .setBytes .empty

/-! ## Machine/Sys -/

theorem needPriv_keeps {key p : Nat} : (needPriv key p).Keeps := .thread fun _ _ => .ite privFault_yields .done

theorem State.Canon.updBank {s : State} {cid : Nat} {f : Bank → Bank} (h : s.Canon) : (s.updBank cid f).Canon :=
  .ite (.catchUp h) (.catchUp h)

theorem State.Canon.writeEvent {s : State} {cid n : Nat} {v : W64} (h : s.Canon) : (s.writeEvent cid n v).Canon := .updBank h

theorem State.Canon.claimBank {s : State} {cid n : Nat} (h : s.Canon) : (s.claimBank cid n).2.Canon := by
  unfold State.claimBank
  extract_lets b c
  split
  · exact h
  · split
    · exact h
    · split
      · exact h
      · exact h

theorem State.Canon.releaseBank {s : State} {cid n : Nat} (h : s.Canon) : (s.releaseBank cid n).Canon := .ite h h

theorem State.Canon.writeQdepth {s t : State} {key : Nat} {v : W64} (h : s.Canon) (ht : s.writeQdepth key v = some t) : t.Canon := by
  unfold State.writeQdepth at ht
  split at ht
  · cases ht
    exact .updThr h fun _ ht => ht
  · cases ht

theorem State.Canon.writeVstat {s t : State} {key : Nat} {v : W64} (h : s.Canon) (ht : s.writeVstat key v = some t) : t.Canon := by
  unfold State.writeVstat at ht
  split at ht
  · cases ht
    exact .updThr h fun _ ht => ht
  · cases ht

theorem State.Canon.setReg {s : State} {cid n : Nat} {v : W64} (h : s.Canon) : (s.setReg cid n v).Canon := h

theorem State.Canon.writeWaitlog {s : State} {cid : Nat} {size : Bool} {v : W64} (h : s.Canon) : (s.writeWaitlog cid size v).Canon := h

theorem State.Canon.writeTrapq {s : State} {cid : Nat} {size : Bool} {v : W64} (h : s.Canon) : (s.writeTrapq cid size v).Canon := h

theorem trapCmd_keeps {key : Nat} {v : W64} : (trapCmd key v).Keeps := by
  unfold trapCmd
  exact .also illegal_yields fun _ => .seq beforeRelease_keeps fun _ => .state fun _ hs => .seq (.set (.setReg (.trapAction hs))) fun _ =>
    .ite (.modThr fun _ ht => ht) .done

theorem State.Canon.writeDbgCtl {s : State} {cid : Nat} {v : W64} (h : s.Canon) : (s.writeDbgCtl cid v).Canon :=
  .ite (.updThr h fun _ ht => ht) h

theorem takeWrite_keeps {o : State → Option State} (ho : ∀ s, s.Canon → ∀ t, o s = some t → t.Canon) : (takeWrite o).Keeps := by
  refine .state fun s hs => ?_
  split
  · next e => exact .set (ho s hs _ e)
  · exact .stall

theorem writeSys_keeps {key n : Nat} {v : W64} : (writeSys key n v).Keeps := by
  unfold writeSys
  refine .thread fun _ _ => ?_
  extract_lets cid
  split
  · exact takeWrite_keeps fun _ hs _ => .writeQdepth hs
  · exact takeWrite_keeps fun _ hs _ => .writeVstat hs
  · exact .modify fun _ hs => .writeTrapq hs
  · exact .modify fun _ hs => .writeTrapq hs
  · exact .modify fun _ hs => .setReg hs
  · exact .modify fun _ hs => .setReg hs
  · exact .modify fun _ hs => .setReg hs
  · exact trapCmd_keeps
  · exact .modify fun _ hs => .writeWaitlog hs
  · exact .modify fun _ hs => .writeWaitlog hs
  · exact .modify fun _ hs => .setReg hs
  · exact .modify fun _ hs => .setReg hs
  · exact .modify fun _ hs => .updBank hs
  · exact .modify fun _ hs => .updBank hs
  · exact .modify fun _ hs => .updBank hs
  · exact .modify fun _ hs => .setReg hs
  · exact .modify fun _ hs => .setReg hs
  · exact .modify fun _ hs => .writeDbgCtl hs
  · exact .modify fun _ hs => .setReg hs
  · exact .modify fun _ hs => .setReg hs
  · exact .modify fun _ hs => .setReg hs
  · exact .modThr fun _ ht => ht
  · exact .ite (.modify fun _ hs => .writeEvent hs) (.modify fun _ hs => .updBank hs)

theorem threadStep_canon {s : State} {key : Nat} {f : State → State} (h : s.Canon) (hf : ∀ u : State, u.Canon → (f u).Canon) :
    Out.Canon (threadStep s key f) := .ite (hf _ h) h

theorem stopWord_canon {cause code : Nat} {s : State} (h : s.Canon) : Out.Canon (stopWord cause code s) :=
  sqWord_canon (fun _ => .thread fun _ _ => .seq advance_keeps fun _ => .faultNow) h

theorem execEret_canon {s : State} (h : s.Canon) : Out.Canon (execEret s) := by
  unfold execEret
  split
  · exact sqWord_canon (fun _ => privFault_yields) h
  · exact boundary_canon (fun _ => .state fun _ hs => .seq (.set (.trapAction hs)) fun _ => .done) h

theorem execTlbinv_canon {xa xb : BitVec 5} {s : State} (h : s.Canon) : Out.Canon (execTlbinv xa xb s) := by
  unfold execTlbinv
  refine sqWord_canon (fun key => .seq needPriv_keeps fun _ => .state fun _ _ => ?_) h
  extract_lets t a b _ start
  split
  · exact .also .stall fun _ => .seq (.modThr fun _ ht => ht) fun _ => advance_keeps
  · refine .seq settleSQ_keeps fun _ => ?_
    have hstart : ∀ u, (start u).Keeps := fun _ => .state fun _ hs => .also .stall fun _ =>
      .seq (.set (.updThr (.startInval hs) fun _ ht => ht)) fun _ => .waitOn
    exact .ite (.also .raise fun _ => .also .raise hstart) (hstart ())

theorem execWinset_canon {xa xb : BitVec 5} {win : BitVec 4} {s : State} (h : s.Canon) : Out.Canon (execWinset xa xb win s) := by
  unfold execWinset
  exact sqWord_canon (fun _ => .thread fun _ ht => .seq settleSQ_keeps fun _ => .also illegal_yields fun _ => .state fun _ _ =>
    .also .raise fun _ => .also .waitOn fun _ => .seq writeBackLines_keeps fun _ => .state fun _ _ => .also .waitOn fun _ =>
    .seq dropLines_keeps fun _ => .seq (.modThr fun _ ht1 => ht1) fun _ => advance_keeps) h

/-! ## Machine/Keg -/

theorem State.Canon.deviceWrite {s : State} {cid va : Nat} {data : List Byte} (h : s.Canon) : (s.deviceWrite cid va data).Canon := by
  refine .foldl_fst h fun x p hx => ?_
  dsimp only
  split
  · next q _ =>
    have hd := markDirty_canon hx (cid := cid) (p := q)
    split
    · exact { hd with host := hd.host.setBytes }
    · split
      · exact .writeCommitted hd
      · exact hd
  · exact hx

theorem State.Canon.holdTasks {s : State} {cid : Nat} (h : s.Canon) : (s.holdTasks cid).Canon := .ite h h

theorem State.Canon.acceptHeld {s : State} {cid : Nat} (h : s.Canon) : (s.acceptHeld cid).Canon :=
  .ite h (.poisonOrphans (.foldl h fun _ _ hs => .acceptTask hs))

theorem Thread.Canon.freeze {t : Thread} {tick : Nat} (ht : t.Canon) : (t.freeze tick).Canon := .ite (.askStop ht) (.askStop ht)

theorem endGranted_keeps {key : Nat} : (endGranted key).Keeps := by
  unfold endGranted
  refine .state fun _ hs => .seq ?_ fun _ => .modify fun _ hs1 => hs1
  refine .forEach fun _ => .seq (.modify fun _ hs1 => .logWait hs1) fun _ => ?_
  split
  · refine .seq (.modThr fun _ ht => ht) fun _ => .thread fun _ _ => ?_
    split
    · exact popEntry_keeps
    · exact .done
  · exact .seq (.modThr fun _ ht => ht) fun _ => .seq advance_keeps fun _ => .modify fun _ hs1 => .countFor hs1

theorem State.Canon.cutCommit {s : State} {key : Nat} (h : s.Canon) : (s.cutCommit key).Canon := by
  have hw : (s.withdrawWaits key fun _ => true).Canon := .withdrawWaits h
  unfold State.cutCommit
  extract_lets s₁ s₂ ids s₃
  have hs₂ : s₂.Canon := by
    dsimp only [s₂]
    split
    · next e => exact endGranted_keeps.ok hw e
    · exact hw
  have hs₃ : s₃.Canon := .countEv (.foldl hs₂ fun _ _ hs => .commitWrites hs)
  refine .updThr (.newVerId hs₃) fun t ht => ?_
  have hsave : (t.stopUnits.saveAt t.stopUnits.live.clean).Canon := .saveAt (.stopUnits ht)
  exact { hsave with versions := List.forall_mem_singleton.2 Version.Canon.empty }

theorem State.Canon.flushLines {s : State} {key : Nat} (h : s.Canon) : (s.flushLines key).Canon := by
  unfold State.flushLines
  split
  · exact h
  · split
    · next e => exact (writeBackLines_keeps.ok h e)
    · next e => exact (writeBackLines_keeps.wait h e)
    · exact h

theorem State.Canon.releaseClaims {s : State} {cid : Nat} (h : s.Canon) : (s.releaseClaims cid).Canon := h

theorem State.Canon.markEndpoints {s : State} {cid st : Nat} (h : s.Canon) : (s.markEndpoints cid st).Canon := h

theorem State.Canon.freezeStep {s : State} {cid : Nat} {left : Option Nat} (h : s.Canon) : (s.freezeStep cid left).2.Canon := by
  unfold State.freezeStep
  extract_lets keys s₁ s₂ off s₃ s₄
  have hs₁ : s₁.Canon := h
  split
  · exact hs₁
  · have hs₂ : s₂.Canon := .holdTasks (.foldl hs₁ fun _ _ hs => .updThr hs fun _ ht => .freeze ht)
    have hs₃ : s₃.Canon := .foldl hs₂ fun _ _ hs => .updThr (.flushLines hs) fun _ ht =>
      { ht with versions := List.forall_mem_map.2 fun v hv => ht.versions v hv }
    split
    · exact .updCtx (.releaseClaims (.markEndpoints (.foldl hs₃ fun _ _ hs => .cutCommit hs)))
    · exact hs₃

theorem State.Canon.askAll {s : State} {cid : Nat} (h : s.Canon) : (s.askAll cid).Canon := .foldl h fun _ _ hs => .askAgain hs

theorem State.Canon.thaw {s : State} {cid : Nat} (h : s.Canon) : (s.thaw cid).Canon := by
  unfold State.thaw
  extract_lets store s₁ s₂ s₃ melt s₄
  have hs₁ : s₁.Canon := h
  have hs₂ : s₂.Canon := .drainFlows (.foldl hs₁ fun _ _ hs => .enterFlow hs)
  have hs₃ : s₃.Canon := .acceptHeld hs₂
  have hmelt : ∀ p : Nat × Thread, p.2.Canon → (melt p).2.Canon := by
    intro p hp
    dsimp only [melt]
    split
    · exact hp
    · exact hp
  exact .askAll { hs₃ with threads := List.forall_mem_map.2 fun p hp => hmelt p (hs₃.threads p hp) }

theorem State.Canon.kegStatus {s : State} {cid st : Nat} (h : s.Canon) : (s.kegStatus cid st).Canon := h

theorem State.Canon.saveKeg {s : State} {cid : Nat} {left : Option Nat} {va len : Nat} {hold mig : Bool} (h : s.Canon) :
    (s.saveKeg cid left va len hold mig).2.Canon := by
  have hf : (s.freezeStep cid left).2.Canon := .freezeStep h
  unfold State.saveKeg
  generalize s.freezeStep cid left = r at hf ⊢
  obtain ⟨done, s⟩ := r
  dsimp -zeta only at hf ⊢
  split
  · exact hf
  · extract_lets keys items body need s₁ c count iv flags hdr s₂ s₃
    have hs₁ : s₁.Canon := hf
    have hs₂ : s₂.Canon := hs₁
    have hs₃ : s₃.Canon := .kegStatus (.deviceWrite hs₂)
    clear_value s₃
    split
    · exact .thaw hs₁
    · split
      · exact hs₃
      · exact .thaw hs₃

/-- A fold over a list of promised images that rebuilds the list from images of the same memory. -/
theorem promised_foldl_canon {β : Type} {f : β × List (Nat × Nat × Slot) → Nat × Nat × Slot → β × List (Nat × Nat × Slot)}
    {l : List (Nat × Nat × Slot)} {x : β × List (Nat × Nat × Slot)} (hl : ∀ p ∈ l, p.2.2.Canon) (h : ∀ p ∈ x.2, p.2.2.Canon)
    (hf : ∀ x (p : Nat × Nat × Slot), p.2.2.Canon → (∀ q ∈ x.2, q.2.2.Canon) → ∀ q ∈ (f x p).2, q.2.2.Canon) :
    ∀ p ∈ (l.foldl f x).2, p.2.2.Canon :=
  List.foldlRecOn (motive := fun x : β × List (Nat × Nat × Slot) => ∀ p ∈ x.2, p.2.2.Canon) l f h fun x hx p hp => hf x p (hl p hp) hx

theorem Thread.Canon.markLent {t : Thread} (ht : t.Canon) : t.markLent.Canon := by
  refine { ht with
    ab := List.forall_mem_map.2 fun e he => ht.ab e.1 (List.of_mem_zip he).1
    promised := promised_foldl_canon ht.promised (List.forall_mem_nil _) fun x p hp hx q hq => ?_ }
  split at hq
  · refine List.forall_mem_append.2 ⟨hx, List.forall_mem_singleton.2 ?_⟩ q hq
    exact hp
  · exact List.forall_mem_append.2 ⟨hx, List.forall_mem_singleton.2 hp⟩ q hq

theorem kegThread_canon {cid gangBase ver : Nat} {l : List KegItem} {i : KegItem} : (kegThread cid gangBase ver l i).Canon := by
  unfold kegThread
  extract_lets rec_ g t₁ mine q qs t₂ t₃ t₄
  have ht₁ : t₁.Canon := readThread_canon
  have ht₂ : t₂.Canon := { ht₁ with scratch := .setExtent .empty }
  have ht₃ : t₃.Canon := by
    refine .foldl ht₂ fun t x ht => ?_
    have hsl : ∀ {m fill b}, (readSlot m fill b).Canon := readSlot_canon
    dsimp only
    split
    · exact { ht with promised := List.forall_mem_append.2 ⟨ht.promised, List.forall_mem_singleton.2 hsl⟩ }
    · split
      · exact { ht with wb := NMap.forall_put ht.wb hsl }
      · split
        · exact { ht with ab := NMap.forall_put ht.ab hsl }
        · exact { ht with cb := NMap.forall_put ht.cb hsl }
  have ht₄ : t₄.Canon := .markLent ht₃
  exact { ht₄ with saved := Thread.Canon.cbImages ht₄, savedPromised := Thread.Canon.promisedImages ht₄ }

theorem State.Canon.rescore {s : State} {key : Nat} (h : s.Canon) : (s.rescore key).Canon := by
  refine .foldl h fun s e hs => .foldl hs fun s q hs => ?_
  exact State.Canon.updThr (f := fun t => { t with scores := t.scores ++ _ }) hs fun _ ht => ht

theorem State.Canon.rewait {s : State} {key : Nat} (h : s.Canon) : (s.rewait key).Canon := by
  unfold State.rewait
  extract_lets t
  have ht : t.Canon := State.Canon.thr h _
  split
  · exact .updThr h fun _ ht1 => ht1
  · exact h

theorem State.Canon.applyKeg {s : State} {cid : Nat} {issuer : Option Nat} {l : List KegItem} {mig : Bool} (h : s.Canon) :
    (s.applyKeg cid issuer l mig).Canon := by
  unfold State.applyKeg
  extract_lets _ _ _ s s1 s2 s3 _ s4 s5 _ s6
  have hs : s.Canon := .foldl h fun _ _ hs => .setThr hs kegThread_canon
  have hs1 : s1.Canon := hs
  have hs2 : s2.Canon := hs1
  have hs3 : s3.Canon := .foldl hs2 fun _ _ hs3 => .rewait (.rescore hs3)
  have hs4 : s4.Canon := { hs3 with hbm := .setBytes hs3.hbm }
  have hs5 : s5.Canon := .foldl hs4 fun _ _ hs5 => { hs5 with staging := .setExtent hs5.staging }
  have hs6 : s6.Canon := .foldl hs5 fun _ _ hs6 => hs6
  exact .askAll (.acceptHeld hs6)

theorem State.Canon.loadKeg {s : State} {cid : Nat} {issuer : Option Nat} {va len : Nat} (h : s.Canon) :
    (s.loadKeg cid issuer va len).2.Canon := by
  unfold State.loadKeg
  dsimp only
  split
  · exact h
  · split
    · exact h
    · split
      · exact h
      · split
        · exact h
        · split
          · exact h
          · split
            · exact h
            · split
              · exact h
              · split
                · exact h
                · split
                  · exact h
                  · split
                    · exact h
                    · exact .applyKeg h

theorem kegTurn_keeps {key : Nat} : (kegTurn key).Keeps :=
  .seq (.modify fun _ hs => .updThr hs fun _ ht => ht) fun _ => .state fun _ _ => .ite .waitOn .done

theorem kegEnd_keeps {key : Nat} : (kegEnd key).Keeps := .seq (.modThr fun _ ht => ht) fun _ => advance_keeps

theorem execKegsave_canon {xa xb : BitVec 5} {s : State} (h : s.Canon) : Out.Canon (execKegsave xa xb s) := by
  unfold execKegsave
  refine sqWord_canon (fun key => .seq needPriv_keeps fun _ => .thread fun t _ => .seq settleSQ_keeps fun _ => .also illegal_yields fun _ =>
    .seq kegTurn_keeps fun _ => .state fun _ _ => ?_) h
  extract_lets c finish save hold buffer
  have hsave : ∀ u, (save u).Keeps := by
    intro u
    dsimp -zeta only [save]
    split
    · exact .seq (.modify fun _ hs => .kegStatus hs) fun _ => kegEnd_keeps
    · exact .state fun _ hs => .seq (.set (.saveKeg hs)) fun _ => .ite (.seq .waitOn fun _ => kegEnd_keeps) kegEnd_keeps
  have hhold : ∀ u, (hold u).Keeps := by
    refine fun _ => .ite (.seq publish_keeps fun _ => .seq (.modify ?_) hsave) (hsave ())
    exact fun _ hs => hs
  have hbuffer : ∀ u, (buffer u).Keeps := by
    refine fun _ => .seq releaseAll_keeps fun _ => .state fun _ _ => ?_
    split
    · exact .seq .raise hhold
    · exact hhold ()
  exact .ite (.also .raise hbuffer) (hsave ())

theorem execKegload_canon {xa xb : BitVec 5} {s : State} (h : s.Canon) : Out.Canon (execKegload xa xb s) := by
  unfold execKegload
  refine sqWord_canon (fun _ => ?_) h
  refine .seq needPriv_keeps fun _ => .thread fun _ _ => .seq settleSQ_keeps fun _ => .also illegal_yields fun _ =>
    .seq kegTurn_keeps fun _ => .also .raise fun _ => .seq releaseAll_keeps fun _ => .state fun _ hs => ?_
  extract_lets jp
  have hjp : ∀ r, (jp r).Yields _ := fun _ => .seq publish_keeps fun _ => .state fun _ hs1 =>
    .seq (.set (.kegStatus (.loadKeg hs1))) fun _ => kegEnd_keeps
  split
  · exact .seq .raise fun _ => hjp ()
  · exact hjp ()

/-! ## Machine/Slots -/

theorem State.Canon.takeFrames {s : State} {n : Nat} {got : List Nat} (h : s.Canon) : (s.takeFrames n got).2.Canon := by
  induction n generalizing s got with
  | zero => exact h
  | succ n ih =>
    unfold State.takeFrames
    dsimp only
    split
    · exact h
    · exact ih h

theorem State.Canon.slotLoad {s : State} {slot host len : Nat} {dataVa : W64} (h : s.Canon) :
    (s.slotLoad slot host len dataVa).2.Canon := by
  unfold State.slotLoad
  split
  · exact h
  · split
    · exact h
    · split
      · exact h
      · extract_lets progs own old n
        have ht : (s.takeFrames n []).2.Canon := .takeFrames h
        generalize s.takeFrames n [] = r at ht ⊢
        obtain ⟨fr, s₁⟩ := r
        dsimp -zeta only at ht ⊢
        extract_lets s₂ place s₃ s₄ img
        have hs₃ : s₃.Canon := .foldl (s := s₂) ht fun _ _ hs => .writeCommitted hs
        have hs₄ : s₄.Canon := { hs₃ with hbm := .foldl hs₃.hbm fun _ _ hm => .setTag hm }
        split
        · exact h
        · split
          · exact h
          · exact hs₄

theorem State.Canon.tensorSeal {s : State} {cid slot va desc : Nat} (h : s.Canon) : (s.tensorSeal cid slot va desc).2.2.Canon := by
  unfold State.tensorSeal
  dsimp only
  split
  · exact h
  · split
    · exact h
    · split
      · exact h
      · split
        · exact h
        · split
          · exact h
          · exact h

theorem State.Canon.slotUnpin {s : State} {slot : Nat} (h : s.Canon) : (s.slotUnpin slot).2.Canon := by
  unfold State.slotUnpin
  split
  · exact h
  · split
    · exact h
    · exact .releaseTensors (.poisonOrphans h)

/-! ## Machine/HostCmd -/

theorem State.Canon.withdrawTasks {s : State} {cid : Nat} (h : s.Canon) : (s.withdrawTasks cid).Canon := h

theorem State.Canon.discardCtxs {s : State} {cids : List Nat} (h : s.Canon) : (s.discardCtxs cids).Canon :=
  .foldl (.foldl (.foldl h fun _ _ hs => hs) fun _ _ hs => .foldl hs fun _ _ hs1 => .discardVersion (.withdrawVersion hs1)) fun _ _ hs =>
    .cascadeTo hs

theorem State.Canon.beginEnd {s : State} {cid : Nat} (h : s.Canon) : (s.beginEnd cid).Canon := by
  unfold State.beginEnd
  extract_lets s s1
  have hs : s.Canon := h
  have hs1 : s1.Canon := .foldl hs fun _ _ hs1 => .ite (.retire hs1) hs1
  exact .withdrawTasks { hs1 with threads := forall_filter hs1.threads }

/-- A canonical table stays one when some of its entries are no longer listed. -/
theorem NMap.wfFrom_filter {α : Type} [Inhabited α] [DecidableEq α] {p : Nat × α → Bool} {lo : Nat} {m : NMap α}
    (h : m.wfFrom lo = true) : NMap.wfFrom lo (m.filter p) = true := by
  induction m generalizing lo with
  | nil => rfl
  | cons x m ih =>
    obtain ⟨k, v⟩ := x
    simp only [NMap.wfFrom, Bool.and_eq_true, decide_eq_true_eq] at h
    obtain ⟨⟨hk, hv⟩, hm⟩ := h
    rw [List.filter_cons]
    split
    · simp only [NMap.wfFrom, Bool.and_eq_true, decide_eq_true_eq]
      exact ⟨⟨hk, hv⟩, ih hm⟩
    · exact ih (NMap.wfFrom_mono hm (by omega))

/-- A canonical memory stays one when some of its bytes and tags are no longer listed. -/
theorem Memory.Canon.filter {m : Memory} {p : Host.Cell → Bool} {q : Nat × W32 → Bool} (hm : m.Canon) :
    Memory.Canon { cells := m.cells.filter p, tags := m.tags.filter q } := by
  obtain ⟨hcells, htags⟩ := Bool.and_eq_true_iff.1 hm
  exact Bool.and_eq_true_iff.2 ⟨NMap.wfFrom_filter hcells, NMap.wfFrom_filter htags⟩

theorem State.Canon.scrubStaging {s : State} {e : Nat × Nat} (h : s.Canon) : (s.scrubStaging e).Canon :=
  { h with staging := h.staging.filter }

theorem State.Canon.cancelReply {s : State} {p : Packet} (h : s.Canon) : (s.cancelReply p).Canon := by
  unfold State.cancelReply
  exact .ite h h

theorem State.Canon.refuseAll {s : State} {l : List InPkt} (h : s.Canon) : (s.refuseAll l).Canon := .foldl h fun _ _ hs => .answerOnce hs

theorem State.Canon.flrDone {s : State} {fn : Nat} (h : s.Canon) : (s.flrDone fn).Canon := .ite h h

theorem State.Canon.finishEnd {s : State} {cid : Nat} (h : s.Canon) : (s.finishEnd cid).Canon :=
  .setCtx (.foldl (.releaseClaims (.refuseAll (.foldl h fun _ _ hs => .cancelReply hs))) fun _ _ hs => .scrubStaging hs)

theorem State.Canon.drainEnd {s : State} {cid : Nat} (h : s.Canon) : (s.drainEnd cid).Canon := .ite (.finishEnd h) h

theorem execTeardownDrainTimeout_canon {cid : Nat} {s : State} (h : s.Canon) : Out.Canon (execTeardownDrainTimeout cid s) := by
  unfold execTeardownDrainTimeout
  split
  · exact .finishEnd h
  · exact h

theorem State.Canon.endAll {s : State} {fn : Nat} (h : s.Canon) : (s.endAll fn).Canon :=
  .foldl (.discardCtxs h) fun _ _ hs => .drainEnd (.beginEnd hs)

theorem State.Canon.resetTables {s : State} {fn : Nat} (h : s.Canon) : (s.resetTables fn).Canon := .ite h h

theorem execVfTeardown_canon {fn : Nat} {s : State} (h : s.Canon) : Out.Canon (execVfTeardown fn s) := by
  unfold execVfTeardown
  split
  · exact h
  · exact .endAll h

theorem State.Canon.ctxCreate {s : State} {cid fn : Nat} (h : s.Canon) : (s.ctxCreate cid fn).2.Canon := by
  unfold State.ctxCreate
  dsimp only
  split
  · exact h
  · exact h

theorem State.Canon.readTables {s : State} {cid : Nat} (h : s.Canon) : (s.readTables cid).Canon := by
  unfold State.readTables
  extract_lets _ _ _ _ _ _ _ _ s s1
  have hs : s.Canon := .foldl h fun _ _ hs => .scrubStaging hs
  have hs1 : s1.Canon := .ite hs (.stir hs)
  exact hs1

theorem State.Canon.ctxSet {s : State} {cid off : Nat} {v : W64} (h : s.Canon) : (s.ctxSet cid off v).2.Canon := by
  unfold State.ctxSet
  dsimp only
  split
  · exact h
  · exact .readTables h

theorem State.Canon.ctxDestroy {s : State} {cid : Nat} (h : s.Canon) : (s.ctxDestroy cid).2.Canon :=
  .drainEnd (.ite (.beginEnd (.discardCtxs h)) h)

theorem State.Canon.frameSet {s : State} {first count : Nat} {entry : W32} (h : s.Canon) : (s.frameSet first count entry).2.Canon := by
  unfold State.frameSet
  split
  · exact h
  · split
    · exact h
    · exact .foldl h fun _ _ hs => .invalidate hs

theorem State.Canon.dirtyRead {s : State} {cid first count host : Nat} (h : s.Canon) : (s.dirtyRead cid first count host).2.Canon := by
  unfold State.dirtyRead
  dsimp only
  split
  · exact h
  · exact .invalidate { h with hbm := .foldl h.hbm fun _ _ hm => .setByte hm, host := .setBytes h.host }

theorem State.Canon.hvClaim {s : State} {n : Nat} (h : s.Canon) : (s.hvClaim n).2.Canon := by
  have hc : (s.catchUp n).Canon := .catchUp h
  unfold State.hvClaim
  split
  · exact h
  · dsimp only
    split
    · exact hc
    · split
      · exact hc
      · exact hc

theorem State.Canon.hvRelease {s : State} {n : Nat} (h : s.Canon) : (s.hvRelease n).2.Canon := by
  unfold State.hvRelease
  split
  · exact h
  · split
    · exact h
    · exact h

theorem State.Canon.epSet {s : State} {ep pkg cid st : Nat} (h : s.Canon) : (s.epSet ep pkg cid st).2.Canon := by
  unfold State.epSet
  split
  · exact h
  · extract_lets s _
    have hs : s.Canon := h
    split
    · exact .drainFlows (.foldl hs fun _ _ hs1 => .enterFlow hs1)
    · exact hs

theorem State.Canon.vacate {s : State} {leave : Nat → Bool} (h : s.Canon) : (s.vacate leave).Canon := by
  refine .foldl h fun s k hs => .ite (.foldl hs fun _ _ hs => .updThr hs fun _ ht => .askStop ht) ?_
  extract_lets off s₁
  have hoff : ∀ t, t.Canon → (off t).Canon := fun _ ht => ht
  have hs₁ : s₁.Canon := .foldl hs fun _ _ hs => .updThr hs hoff
  exact .ite (.askPlace hs₁) hs₁

theorem State.Canon.unitRetire {s : State} {core : Nat} (h : s.Canon) : (s.unitRetire core).2.Canon := by
  unfold State.unitRetire
  split
  · exact h
  · exact .vacate h

theorem State.Canon.trapResolve {s : State} {cid thr act : Nat} (h : s.Canon) : (s.trapResolve cid thr act).2.Canon := by
  unfold State.trapResolve
  split
  · exact h
  · exact .trapAction h

theorem State.Canon.pageDone {s : State} {cid va len : Nat} {fail : Bool} (h : s.Canon) : (s.pageDone cid va len fail).Canon := by
  unfold State.pageDone
  extract_lets _ _ s
  have hs : s.Canon := by
    refine .foldl h fun _ _ hs => ?_
    split
    · split
      · exact .deliver hs
      · exact .askAgain (.updThr hs fun _ ht => ht)
    · exact hs
  exact .copyVerdict (.pagesDone hs)

theorem State.Canon.kegSaveCommand {s : State} {cont : Bool} {cid va len : Nat} {hold mig : Bool} (h : s.Canon) :
    (s.kegSaveCommand cont cid va len hold mig).2.Canon := by
  unfold State.kegSaveCommand
  dsimp only
  split
  · exact h
  · split
    · exact h
    · split
      · exact h
      · exact .saveKeg h

theorem State.Canon.kegLoadCommand {s : State} {cid va len : Nat} (h : s.Canon) : (s.kegLoadCommand cid va len).2.Canon := by
  unfold State.kegLoadCommand
  split
  · exact h
  · exact .kegStatus (.loadKeg h)

theorem State.Canon.migKey {s : State} {cont : Bool} {cid pkg dcid : Nat} (h : s.Canon) : (s.migKey cont cid pkg dcid).2.Canon := by
  unfold State.migKey
  dsimp only
  split
  · exact h
  · split
    · exact h
    · split
      · exact h
      · exact h

theorem State.Canon.pagePush {s : State} {cont : Bool} {cid va len pkg dcid : Nat} (h : s.Canon) :
    (s.pagePush cont cid va len pkg dcid).2.Canon := by
  unfold State.pagePush
  split
  · exact h
  · split
    · exact h
    · dsimp only
      split
      · exact h
      · exact .foldl h fun _ _ hs => hs

theorem State.Canon.pageIn {s : State} {cid va : Nat} {data : List Byte} {tags : List W32} (h : s.Canon) :
    (s.pageIn cid va data tags).Canon := by
  unfold State.pageIn
  extract_lets reply no s₁
  have hno : no.Canon := h
  split
  · exact hno
  · refine .ite hno ?_
    extract_lets s₂
    have hs₁ : s₁.Canon := .deviceWrite h
    have hs₂ : s₂.Canon := .ite { hs₁ with hbm := .foldl hs₁.hbm fun _ _ hm => .setTag hm } hs₁
    exact hs₂

theorem State.Canon.parkForward {s : State} {cid pkg dcid : Nat} (h : s.Canon) : (s.parkForward cid pkg dcid).2.Canon := by
  unfold State.parkForward
  dsimp only
  split
  · exact h
  · exact .sendDevice (.foldl (.foldl h fun _ _ hs => hs) fun _ _ hs => .parkIn hs)

theorem State.Canon.relayEnd {s : State} {cid : Nat} (h : s.Canon) : (s.relayEnd cid).2.Canon := by
  unfold State.relayEnd
  split
  · exact h
  · exact h

theorem State.Canon.doCommand {s : State} {fn op : Nat} {cont : Bool} (h : s.Canon) : (s.doCommand fn op cont).2.Canon := by
  unfold State.doCommand
  extract_lets w cid
  split
  · exact .ctxCreate h
  · exact .ctxSet h
  · exact .ctxDestroy h
  · exact .frameSet h
  · split
    · exact .invalidate h
    · exact h
  · exact .dirtyRead h
  · exact .hvClaim h
  · exact .hvRelease h
  · exact .epSet h
  · exact .trapResolve h
  · exact .unitRetire h
  · dsimp only
    exact .pageDone h
  · exact .kegSaveCommand h
  · exact .kegLoadCommand h
  · split
    · exact .thaw h
    · exact h
  · exact .migKey h
  · exact .pagePush h
  · exact .parkForward h
  · exact .relayEnd h
  · exact .slotLoad h
  · have hr : (s.tensorSeal cid (w 1) (w 2) (w 3)).2.2.Canon := .tensorSeal h
    dsimp only
    split
    · exact hr
    · exact hr
  · exact .slotUnpin h
  · exact h

theorem State.Canon.tryCommand {s : State} {fn op : Nat} {cont : Bool} (h : s.Canon) : (s.tryCommand fn op cont).2.Canon := by
  unfold State.tryCommand
  dsimp only
  split
  · exact h
  · split
    · exact h
    · split
      · exact h
      · split
        · exact h
        · split
          · exact h
          · split
            · exact h
            · exact .doCommand h

theorem State.Canon.goCommand {s : State} {fn op : Nat} {cont : Bool} (h : s.Canon) : (s.goCommand fn op cont).Canon := by
  have hr : (s.tryCommand fn op cont).2.Canon := .tryCommand h
  unfold State.goCommand
  extract_lets cid put at_ r
  refine .ite h ?_
  split
  · exact hr
  · exact hr

theorem State.Canon.pendingCommand {s : State} {fn : Nat} (h : s.Canon) : (s.pendingCommand fn).Canon := by
  unfold State.pendingCommand
  split
  · exact h
  · exact .goCommand h

theorem State.Canon.writeOpcode {s : State} {fn op : Nat} (h : s.Canon) : (s.writeOpcode fn op).Canon := .ite h (.goCommand h)

theorem State.hostCommand_canon {s : State} {fn op : Nat} {words : List W64} (h : s.Canon) : Out.Canon (s.hostCommand fn op words) := by
  unfold State.hostCommand
  dsimp only
  refine .hostWrite h fun _ hs => ?_
  split
  · split
    · exact .pendingCommand hs
    · exact hs
  · exact .goCommand hs

theorem execKeyTransfer_canon {cid : Nat} {key : BitVec 256} {keygen : BitVec 32} {count : BitVec 64} {s : State} (h : s.Canon) :
    Out.Canon (execKeyTransfer cid key keygen count s) := by
  unfold execKeyTransfer
  extract_lets _ _ _ s
  have hs : s.Canon := h
  split
  · exact hs
  · exact hs

/-! ## Machine/Boot -/

theorem State.Canon.reset : State.reset.Canon := ⟨rfl, rfl, rfl, List.forall_mem_nil _⟩

theorem State.Canon.releasePosts {s : State} (h : s.Canon) : s.releasePosts.Canon := .foldl h fun _ _ hs => EvRec.post_canon hs

theorem State.Canon.bootGo {s : State} {len : Nat} (h : s.Canon) : (s.bootGo len).Canon := .ite h (.ite h (.ite h (.releasePosts h)))

theorem State.Canon.fwAdvance {s : State} (h : s.Canon) : s.fwAdvance.Canon := .ite h (.ite (.releasePosts h) h)

theorem State.Canon.fwGo {s : State} (h : s.Canon) : s.fwGo.Canon := .ite h (.ite (.fwAdvance h) (.ite h (.ite h (.fwAdvance h))))

theorem execFwHeartbeat_canon {s : State} (h : s.Canon) : Out.Canon (execFwHeartbeat s) := by
  unfold execFwHeartbeat
  split
  · exact .releasePosts h
  · exact h

theorem execHeartbeatTimeout_canon {s : State} (h : s.Canon) : Out.Canon (execHeartbeatTimeout s) := by
  unfold execHeartbeatTimeout
  split
  · exact .releasePosts h
  · exact h

theorem State.spdm_canon {s : State} {fn : Nat} {ok : Bool} {f : State → State} (h : s.Canon) (hf : ∀ u : State, u.Canon → (f u).Canon) :
    Out.Canon (s.spdm_ fn ok f) := by
  unfold State.spdm_
  split
  · exact hf _ h
  · exact h

theorem execGetMeasurements_canon {fn index : Nat} {sign : Bool} {nonce : BitVec 256} {s : State} (h : s.Canon) :
    Out.Canon (execGetMeasurements fn index sign nonce s) := by
  unfold execGetMeasurements
  exact State.spdm_canon h fun _ hs => .ite hs hs

theorem execKeyInstall_canon {fn cid index : Nat} {key : BitVec 256} {s : State} (h : s.Canon) :
    Out.Canon (execKeyInstall fn cid index key s) := by
  unfold execKeyInstall
  exact State.spdm_canon h fun _ hs => .ite hs hs

theorem execIdeIntegrityFail_canon {stream : Nat} {s : State} (h : s.Canon) : Out.Canon (execIdeIntegrityFail stream s) := by
  unfold execIdeIntegrityFail
  split
  · exact h
  · exact h

/-! ## Machine/Branch -/

theorem transfer_keeps {key : Nat} {target : ℤ} {g : Frame → Frame} : (transfer key target g).Keeps := by
  unfold transfer
  refine .state fun _ _ => ?_
  split
  · exact .modThr fun _ ht => ht
  · exact illegal_yields

theorem branch_canon {xa xb : BitVec 5} {off : BitVec 15} {cond : W64 → W64 → Bool} {s : State} (h : s.Canon) :
    Out.Canon (branch xa xb off cond s) := sqWord_canon (fun _ => .thread fun _ _ => .ite transfer_keeps (.modThr fun _ ht1 => ht1)) h

/-! ## Machine/HostRegs -/

theorem State.Canon.setPkg {s : State} {p : Pkg} (h : s.Canon) : (s.setPkg p).Canon := h

theorem State.Canon.rangeWrite {s : State} {entry : Nat} {hi : Bool} {v : W64} (h : s.Canon) : (s.rangeWrite entry hi v).Canon := by
  unfold State.rangeWrite
  split
  · exact .ite h h
  · exact .ite h h

theorem State.Canon.weightWrite {s : State} {v : W64} (h : s.Canon) : (s.weightWrite v).Canon := .ite h h

theorem State.Canon.shapeStage {s : State} {c : Nat} {v : W64} (h : s.Canon) : (s.shapeStage c v).Canon := .ite h h

theorem State.Canon.shapeCommit {s : State} {c : Nat} {v : W64} (h : s.Canon) : (s.shapeCommit c v).Canon := .ite h (.ite h h)

theorem State.Canon.setPower {s : State} {st : Nat} {moving : Bool} {dies : Nat} (h : s.Canon) : (s.setPower st moving dies).Canon := h

theorem State.Canon.leaveDies {s : State} {dies : Nat} (h : s.Canon) : (s.leaveDies dies).Canon := .vacate h

theorem State.Canon.freezeAll {s : State} (h : s.Canon) : s.freezeAll.Canon := .foldl h fun _ _ hs => .freezeStep hs

theorem State.Canon.wakeUp {s : State} (h : s.Canon) : s.wakeUp.Canon := .foldl (.foldl h fun _ _ hs => .thaw hs) fun _ _ hs => .bell hs

theorem State.Canon.powerCommand {s : State} {st dies : Nat} (h : s.Canon) : (s.powerCommand st dies).Canon := by
  have hpkg : ∀ {p}, (s.setPkg p).Canon := h
  unfold State.powerCommand
  dsimp only
  refine .ite hpkg (.ite (.wakeUp (.setPower hpkg)) (.ite (.leaveDies (.setPower hpkg)) (.ite (.freezeAll (.setPower hpkg)) (.setPower hpkg))))

theorem State.Canon.powerWrite {s : State} {v : W64} (h : s.Canon) : (s.powerWrite v).Canon := .powerCommand h

theorem State.Canon.lost {s : State} (h : s.Canon) : s.lost.Canon := { State.Canon.reset with host := h.host }

theorem State.Canon.powerDone {s : State} (h : s.Canon) : s.powerDone.Canon := by
  unfold State.powerDone
  refine .ite h ?_
  split
  · exact .ite (.wakeUp (.setPower (.leaveDies h))) (.leaveDies h)
  · exact .ite (.setPower (.freezeAll h)) (.freezeAll h)
  · exact .lost h
  · exact .wakeUp (.setPower h)

theorem execTelemetryRefresh_canon {watts die hbm amps : BitVec 16} {s : State} (h : s.Canon) :
    Out.Canon (execTelemetryRefresh watts die hbm amps s) := by
  unfold execTelemetryRefresh
  split
  · exact h
  · exact h

theorem State.Canon.telemetry {s : State} (h : s.Canon) : s.telemetry.Canon := .ite h h

theorem State.Canon.tripThread {s : State} {key : Nat} (h : s.Canon) : (s.tripThread key).Canon := by
  unfold State.tripThread
  refine .updThr (.rollBack h) fun t ht => ?_
  extract_lets _ u
  have hu : u.Canon := by
    dsimp only [u]
    split
    · exact ht
    · exact ht
    · exact Thread.Canon.offSlot ht
  clear_value u
  split
  · exact .hold hu
  · exact hu

theorem State.Canon.trip {s : State} {thermal current : Bool} {place : BitVec 9} (h : s.Canon) : (s.trip thermal current place).Canon :=
  postEvent_canon (.setPkg (.foldl (.foldl (.foldl h fun _ _ hs => .passFault hs) fun _ _ hs => .tripThread hs) fun _ _ hs => .askAgain hs))

theorem execThermalOrCurrentTrip_canon {thermal current : Bool} {place : BitVec 9} {s : State} (h : s.Canon) :
    Out.Canon (execThermalOrCurrentTrip thermal current place s) := by
  unfold execThermalOrCurrentTrip
  dsimp only
  split
  · exact .trip h
  · exact h

theorem State.Canon.ringWrite {s : State} {fn ring word : Nat} {v : W64} (h : s.Canon) : (s.ringWrite fn ring word v).Canon := by
  unfold State.ringWrite
  dsimp only
  split
  · exact h
  · split
    · exact h
    · split
      · exact h
      · split
        · exact h
        · exact h
        · exact h

theorem State.Canon.lqWrite {s : State} {fn lq word : Nat} {v : W64} (h : s.Canon) : (s.lqWrite fn lq word v).Canon := by
  unfold State.lqWrite
  dsimp only
  split
  · exact h
  · split
    · split
      · exact h
      · exact h
    · exact h
    · exact h

theorem State.Canon.progWrite {s : State} {fn prog word : Nat} {v : W64} (h : s.Canon) : (s.progWrite fn prog word v).Canon :=
  .ite (.ite (.loadProgram h) (.ite (.unloadProgram h) h)) (.ite h h)

theorem State.Canon.cmdWrite {s : State} {fn word : Nat} {v : W64} (h : s.Canon) : (s.cmdWrite fn word v).Canon :=
  .ite (.ite h h) (.ite (.writeOpcode h) (.ite h h))

theorem State.Canon.pkgWrite {s : State} {off : Nat} {v : W64} (h : s.Canon) : (s.pkgWrite off v).Canon := by
  unfold State.pkgWrite
  dsimp only
  split
  · exact h
  · exact .weightWrite h
  · exact h
  · exact .powerWrite h
  · exact h
  · exact h
  · exact h
  · exact h
  · exact h
  · exact h
  · split
    · exact h
    · exact h
  · split
    · exact h
    · exact h
  · exact h
  · exact h
  · exact h
  · split
    · exact .bootGo h
    · exact h
  · exact h

theorem State.Canon.funcWrite {s : State} {fn off : Nat} {v : W64} (h : s.Canon) : (s.funcWrite fn off v).Canon := by
  unfold State.funcWrite
  dsimp only
  split
  · exact h
  · exact h
  · exact h
  · exact h
  · exact h
  · exact h
  · exact h
  · exact h
  · exact h

theorem State.Canon.windowWrite {s : State} {off : Nat} {v : W64} (h : s.Canon) : (s.windowWrite off v).Canon := h

theorem State.Canon.barWrite {s : State} {fn off : Nat} {v : W64} (h : s.Canon) : (s.barWrite fn off v).Canon := by
  unfold State.barWrite
  extract_lets pf
  have hpf : ∀ x : State, x.Canon → (pf x).Canon := fun x hx => .ite hx (.dropWrite h)
  exact .ite (.dropWrite h) <| .ite (.funcWrite h) <| .ite (hpf _ (.ite (.shapeStage h) (.shapeCommit h))) <|
    .ite (hpf _ (.pkgWrite h)) <| .ite (hpf _ (.rangeWrite h)) <| .ite (.cmdWrite h) <| .ite (hpf _ (.ite (.fwGo h) h)) <|
    .ite (hpf _ h) <| .ite (.lqWrite h) <| .ite (.progWrite h) <| .ite (hpf _ (.windowWrite h)) <| .ite (.ringWrite h) (.dropWrite h)

/-! ## Machine/Placement -/

theorem State.Canon.moveTo {s : State} {key core slot : Nat} (h : s.Canon) : (s.moveTo key core slot).Canon :=
  .trimLines (.updThr h fun _ ht => .ite ht ht)

theorem State.Canon.seat {s : State} {key : Nat} {core : Option Nat} (h : s.Canon) : (s.seat key core).Canon := by
  unfold State.seat
  extract_lets _ s
  have hs : s.Canon := by
    dsimp only [s]
    split
    · exact h
    · exact .moveTo (.loadOverlay h)
  exact .updThr hs fun _ ht => ht

theorem State.Canon.place {s : State} {n core : Nat} (h : s.Canon) : (s.place n core).Canon := by
  unfold State.place
  extract_lets s
  have hs : s.Canon := .judgeGangs h
  split
  · exact hs
  · split
    · exact hs
    · split
      · exact hs
      · exact .foldl (.foldl hs fun _ _ hs1 => .updThr hs1 fun _ ht => ht) fun _ _ hs1 => .seat hs1

theorem execPlacementReservation_canon {n : Nat} {cores : List Nat} {s : State} (h : s.Canon) :
    Out.Canon (execPlacementReservation n cores s) := by
  unfold execPlacementReservation
  split
  · exact h
  · dsimp only
    split
    · exact h
    · exact .foldl h fun _ _ hs => .updThr hs fun _ ht => .askStop ht

theorem execOverlayLoad_canon {core slot : Nat} {s : State} (h : s.Canon) : Out.Canon (execOverlayLoad core slot s) := by
  unfold execOverlayLoad
  split
  · exact .loadOverlay h
  · exact h

theorem execPreempt_canon {key : Nat} {s : State} (h : s.Canon) : Out.Canon (execPreempt key s) := by
  unfold execPreempt
  split
  · exact h
  · exact .foldl h fun _ _ hs => .updThr hs fun _ ht => .askStop ht

theorem State.Canon.rollOff {s : State} {key ev : Nat} (h : s.Canon) : (s.rollOff key ev).Canon := by
  unfold State.rollOff
  extract_lets src _ s
  have hsrc : src.Canon := h
  have hs : s.Canon := .countEv (.cascade (.rollBack hsrc))
  split
  · exact .replace hs
  · exact .askAgain (.leaveCore hs fun _ ht => ht)

theorem execPreemptRollback_canon {key : Nat} {s : State} (h : s.Canon) : Out.Canon (execPreemptRollback key s) := by
  unfold execPreemptRollback
  extract_lets t
  have ht : t.Canon := State.Canon.thr h _
  split
  · split
    · exact .rollOff h
    · exact h
  · exact h

theorem execMscRoomRollback_canon {need : Nat} {s : State} (h : s.Canon) : Out.Canon (execMscRoomRollback need s) := by
  unfold execMscRoomRollback Out.Canon
  extract_lets c best
  clear_value best
  dsimp only
  split
  · exact .ite h (.ite (.rollOff h) (.countEv (.cascade (.rollBack h))))
  · exact h

theorem execParkThreshold_canon {key : Nat} {s : State} (h : s.Canon) : Out.Canon (execParkThreshold key s) := by
  unfold execParkThreshold
  extract_lets t _
  have ht : t.Canon := State.Canon.thr h _
  split
  · exact .leaveCore (.stopThread h) fun _ ht1 => ht1
  · exact h

theorem State.Canon.unpark {s : State} (h : s.Canon) : s.unpark.Canon := .foldl h fun _ _ hs => .resumeThread hs

theorem execBoundaryLanding_canon {key : Nat} {s : State} (h : s.Canon) : Out.Canon (execBoundaryLanding key s) := by
  unfold execBoundaryLanding
  split
  · exact .landFirst h
  · exact h

theorem State.Canon.rekey {s : State} {old new : Nat} (h : s.Canon) : (s.rekey old new).Canon := by
  unfold State.rekey
  dsimp only
  exact { h with threads := NMap.forall_put (List.forall_mem_map.2 fun p hp =>
                   { (forall_filter h.threads) p hp with versions := List.forall_mem_map.2 fun v hv =>
                                                           ((forall_filter h.threads) p hp).versions v hv }) (State.Canon.thr h _) }

theorem execQuarantineEnd_canon {cid thr : Nat} {s : State} (h : s.Canon) : Out.Canon (execQuarantineEnd cid thr s) := by
  unfold execQuarantineEnd Out.Canon
  dsimp only
  split
  · split
    · exact .rekey (State.Canon.updCtx h)
    · exact h
  · exact h

/-! ## Machine/KilnEvents -/

theorem engEffect_keeps {e : Eng} {key : Nat} {q : QEntry} : (engEffect e key q).Keeps := by
  unfold engEffect
  split
  · exact vlEffect_keeps
  · exact vaEffect_keeps
  · exact vsEffect_keeps
  · exact mxEffect_keeps
  · exact cpEffect_keeps

theorem State.Canon.engineStep {s : State} {key : Nat} {e : Eng} (h : s.Canon) : (s.engineStep key e).Canon := by
  unfold State.engineStep
  split
  · exact h
  · extract_lets s
    have hs : s.Canon := by
      dsimp only [s]
      split
      · exact .inputStreams h
      · exact .outputStreams h
      · exact h
    exact .runHead hs fun _ _ => engEffect_keeps

theorem execStreamFill_canon {key v : Nat} {s : State} (h : s.Canon) : Out.Canon (execStreamFill key v s) := by
  unfold execStreamFill
  extract_lets t _
  have ht : t.Canon := State.Canon.thr h _
  split
  · exact .streamStep h fun _ _ => streamRead_keeps
  · exact h

theorem execStreamDrain_canon {key v : Nat} {s : State} (h : s.Canon) : Out.Canon (execStreamDrain key v s) := by
  unfold execStreamDrain
  extract_lets t _
  have ht : t.Canon := State.Canon.thr h _
  split
  · exact .streamStep h fun _ _ => streamWrite_keeps
  · exact h

theorem execMdrainpArrival_canon {key : Nat} {s : State} (h : s.Canon) : Out.Canon (execMdrainpArrival key s) := by
  unfold execMdrainpArrival
  split
  · exact .runHead h fun _ _ => mxEffect_keeps
  · exact h

theorem execTimedPassStart_canon {key : Nat} {s : State} (h : s.Canon) : Out.Canon (execTimedPassStart key s) := by
  unfold execTimedPassStart
  split
  · exact .runHead h fun _ _ => mxEffect_keeps
  · exact h

theorem execDeadlock_canon {key : Nat} {s : State} (h : s.Canon) : Out.Canon (execDeadlock key s) := by
  unfold execDeadlock
  extract_lets t
  have ht : t.Canon := State.Canon.thr h _
  split
  · split
    · exact .takeTrap h
    · exact h
  · exact h

theorem execClaimCycle_canon {core : Nat} {s : State} (h : s.Canon) : Out.Canon (execClaimCycle core s) := by
  unfold execClaimCycle Out.Canon
  extract_lets l ripe
  clear_value ripe
  dsimp only
  split
  · exact h
  · exact .takeTrap h

theorem execTrapDelivery_canon {key : Nat} {t : Trap} {s : State} (h : s.Canon) : Out.Canon (execTrapDelivery key t s) := by
  unfold execTrapDelivery
  split
  · exact .takeTrap h
  · exact h

theorem execVersionCascade_canon {key writer : Nat} {s : State} (h : s.Canon) : Out.Canon (execVersionCascade key writer s) := by
  unfold execVersionCascade
  extract_lets _ t
  have ht : t.Canon := State.Canon.thr h _
  split
  · exact .cascadeTo h
  · exact h

theorem State.Canon.tellLasting {s : State} {kind loc n : Nat} (h : s.Canon) : (s.tellLasting kind loc n).Canon :=
  .ite h (postEvent_canon h)

theorem State.Canon.countError {s : State} {kind loc : Nat} (h : s.Canon) : (s.countError kind loc).Canon := .ite (.tellLasting h) h

theorem execCorrectedError_canon {kind : BitVec 4} {loc : BitVec 60} {s : State} (h : s.Canon) :
    Out.Canon (execCorrectedError kind loc s) := by
  unfold execCorrectedError
  split
  · exact .countError h
  · exact h

theorem Memory.Canon.poison {m : Memory} {block : Nat} (hm : m.Canon) : (m.poison block).Canon := .setTag hm

theorem State.Canon.errorAt {s : State} {site : ErrSite} (h : s.Canon) : (s.errorAt site).Canon := by
  unfold State.errorAt
  extract_lets sram
  have hsram : ∀ {s : State} {key}, s.Canon → (sram s key).Canon := fun hs => .countError hs
  split
  · exact .countError { h with hbm := h.hbm.poison }
  · exact hsram (.ite (.updThr h fun _ ht => { ht with scratch := ht.scratch.poison }) h)
  · exact .countError { h with staging := h.staging.poison }
  · refine hsram (.ite (.updThr h fun _ ht => { ht with wb := NMap.forall_put ht.wb ?_ }) h)
    exact NMap.forall_get (P := Slot.Canon) ht.wb .empty _
  · refine hsram (.ite (.updThr h fun _ ht => { ht with ab := NMap.forall_put ht.ab ?_ }) h)
    exact NMap.forall_get (P := Slot.Canon) ht.ab .empty _
  · refine hsram (.ite (.updThr h fun _ ht => { ht with cb := NMap.forall_put ht.cb ?_ }) h)
    exact NMap.forall_get (P := Slot.Canon) ht.cb .empty _
  · exact .ite (.ite (.takeTrap (hsram h)) (.report (hsram h))) (hsram h)
  · exact .countError h
  · exact .countError h
  · exact .tellLasting (.countError h)

theorem State.Canon.traceWrite {s : State} {unit cid : Nat} {rec_ : List Byte} (h : s.Canon) : (s.traceWrite unit cid rec_).Canon :=
  .ite h (.kilnWrite h)

theorem State.Canon.traceIssue {s : State} {key : Nat} (h : s.Canon) : (s.traceIssue key).Canon :=
  .ite h (.foldl h fun _ _ hs => .traceWrite hs)

theorem execTraceSample_canon {unit : Nat} {s : State} (h : s.Canon) : Out.Canon (execTraceSample unit s) := by
  unfold execTraceSample
  dsimp only
  split
  · exact .foldl h fun _ _ hs => .traceWrite hs
  · exact h

theorem execRegisterCacheEviction_canon {key line : Nat} {s : State} (h : s.Canon) :
    Out.Canon (execRegisterCacheEviction key line s) := by
  unfold execRegisterCacheEviction
  split
  · exact .updThr h fun _ ht => ht
  · exact h

/-! ## Machine/Dispatch -/

theorem exec_canon {i : Instr} {s : State} (h : s.Canon) : Out.Canon (exec i s) := by
  unfold exec
  cases i with
  | add => exact scR_canon h
  | sub => exact scR_canon h
  | and => exact scR_canon h
  | or => exact scR_canon h
  | xor => exact scR_canon h
  | andn => exact scR_canon h
  | orn => exact scR_canon h
  | xnor => exact scR_canon h
  | shl => exact scR_canon h
  | shr => exact scR_canon h
  | sra => exact scR_canon h
  | rol => exact scR_canon h
  | ror => exact scR_canon h
  | mul => exact scR_canon h
  | mulh => exact scR_canon h
  | mulhu => exact scR_canon h
  | mulhsu => exact scR_canon h
  | div => exact scR_canon h
  | divu => exact scR_canon h
  | rem => exact scR_canon h
  | remu => exact scR_canon h
  | min => exact scR_canon h
  | max => exact scR_canon h
  | minu => exact scR_canon h
  | maxu => exact scR_canon h
  | seq => exact scR_canon h
  | slt => exact scR_canon h
  | sltu => exact scR_canon h
  | clz => exact scU_canon h
  | ctz => exact scU_canon h
  | popc => exact scU_canon h
  | brev => exact scU_canon h
  | sext => exact scU_canon h
  | zext => exact scU_canon h
  | addi => exact scU_canon h
  | andi => exact scU_canon h
  | ori => exact scU_canon h
  | xori => exact scU_canon h
  | shli => exact scU_canon h
  | shri => exact scU_canon h
  | srai => exact scU_canon h
  | slti => exact scU_canon h
  | sltiu => exact scU_canon h
  | muli => exact scU_canon h
  | lis => exact scWord_canon h
  | lihs => exact scWord_canon h
  | beq => exact branch_canon h
  | bne => exact branch_canon h
  | blt => exact branch_canon h
  | bge => exact branch_canon h
  | bltu => exact branch_canon h
  | bgeu => exact branch_canon h
  | jal => exact sqWord_canon (fun _ => .thread fun _ _ => transfer_keeps) h
  | jalr => exact sqWord_canon (fun _ => .thread fun _ _ => transfer_keeps) h
  | loop => exact boundary_canon (fun _ => .state fun _ _ => .seq settleSQ_keeps fun _ => .done) h
  | knext =>
    exact sqWord_canon (fun _ => .state fun _ _ => .also illegal_yields fun _ => .also commitPoint_keeps fun _ => .seq (.modThr fun _ ht =>
      .updVer ht fun _ hv => hv) fun _ => stopPoint_keeps) h
  | tend => exact boundary_canon (fun _ => .done) h
  | spawn => exact execSpawn_canon h
  | join => exact sqWord_canon (fun _ => .state fun _ hs => .also illegal_yields fun _ => .seq (.set hs) fun _ => advance_keeps) h
  | leave => exact sqWord_canon (fun _ => .state fun _ hs => .also illegal_yields fun _ => .set (.updThr (.leaveGroup hs) fun _ ht => ht)) h
  | bar => exact execBar_canon h
  | gqry => exact sqWord_canon (fun _ => .state fun _ _ => .modThr fun _ ht => ht) h
  | yield => exact sqWord_canon (fun _ => .seq advance_keeps fun _ => .state fun _ hs => .ite (.set (.replace hs)) .done) h
  | tsub => exact execTsub_canon h
  | ckpt => exact sqWord_canon (fun _ => .seq commitPoint_keeps fun _ => advance_keeps) h
  | movb => exact scWord_canon h
  | gsel =>
    exact sqWord_canon (fun _ => .state fun _ _ => .ite (.modThr fun _ ht => ht) (.also illegal_yields fun _ => .modThr fun _ ht => ht)) h
  | waitf => exact sqWord_canon (fun _ => seqWait_keeps) h
  | setf => exact execSetf_canon h
  | clrf =>
    exact sqWord_canon (fun _ => .seq wordFlag_keeps fun _ => .seq (.modify fun _ hs => .setFlagVal hs) fun _ => .seq (.modify fun _ hs =>
      .ite hs (.updThr hs fun _ ht => ht)) fun _ => advance_keeps) h
  | waitfx => exact sqWord_canon (fun _ => .thread fun _ _ => .seq bindTickets_keeps fun _ => seqWait_keeps) h
  | fread => exact sqWord_canon (fun _ => .seq wordFlag_keeps fun _ => .state fun _ _ => .modThr fun _ ht => ht) h
  | waitc => exact execWaitc_canon h
  | tclr => exact sqWord_canon (fun _ => .modThr fun _ ht => ht) h
  | tclrv => exact sqWord_canon (fun _ => .modThr fun _ ht => ht) h
  | tclrc => exact sqWord_canon (fun _ => .modThr fun _ ht => ht) h
  | tqry => exact scWord_canon h
  | sysrd =>
    exact sqWord_canon (fun _ => .also illegal_yields fun _ => .seq needPriv_keeps fun _ => .state fun _ hs => .also .stall fun _ => .seq
      (.set (.ite (.catchUp hs) hs)) fun _ => .modThr fun _ ht => ht) h
  | syswr =>
    exact sqWord_canon (fun _ => .also illegal_yields fun _ => .seq needPriv_keeps fun _ => .thread fun _ _ => .seq bindTickets_keeps fun _
      => .seq writeSys_keeps fun _ => advance_keeps) h
  | trap => exact stopWord_canon h
  | bkpt => exact stopWord_canon h
  | eret => exact execEret_canon h
  | tlbinv => exact execTlbinv_canon h
  | wpset =>
    exact sqWord_canon (fun _ => .thread fun _ ht => .seq settleSQ_keeps fun _ => .also illegal_yields fun _ => .state fun _ _ => .also
      .raise fun _ => .seq (.modThr fun _ ht1 => ht1) fun _ => advance_keeps) h
  | wpclr => exact sqWord_canon (fun _ => .seq (.modThr fun _ ht => ht) fun _ => advance_keeps) h
  | cntclaim =>
    exact sqWord_canon (fun _ => .also illegal_yields fun _ => .seq needPriv_keeps fun _ => .state fun _ hs => .seq (.set (.claimBank hs))
      fun _ => .modThr fun _ ht => ht) h
  | cntrel =>
    exact sqWord_canon (fun _ => .also illegal_yields fun _ => .seq needPriv_keeps fun _ => .seq (.modify fun _ hs => .releaseBank hs) fun _
      => advance_keeps) h
  | kegsave => exact execKegsave_canon h
  | kegload => exact execKegload_canon h
  | flowdef =>
    exact sqWord_canon (fun _ => .thread fun _ ht => .seq settleSQ_keeps fun _ => .also illegal_yields fun _ => .state fun _ _ => .also
      .waitOn fun _ => .seq (.modThr fun _ ht1 => ht1) fun _ => advance_keeps) h
  | winset => exact execWinset_canon h
  | ld => exact loadWord_canon h
  | ldu => exact loadWord_canon h
  | st => exact storeWord_canon h
  | lds => exact loadWord_canon h
  | sts => exact storeWord_canon h
  | atomw => exact atomWord_canon h
  | atomd => exact atomWord_canon h
  | casw => exact atomWord_canon h
  | casd => exact atomWord_canon h
  | fence => exact execFence_canon h
  | pref => exact execPref_canon h
  | rcm => exact execRcm_canon h
  | vld => exact loadVec_canon h
  | vlds => exact loadVec_canon h
  | vldx => exact loadVec_canon h
  | vbindi => exact bindWord_canon (fun _ _ => vlEffect_keeps) h
  | vunbindi => exact unbindWord_canon (fun _ _ => vlEffect_keeps) h
  | vldt => exact loadVec_canon h
  | vldb => exact loadVec_canon h
  | vlwait => exact engineWord_canon (fun _ _ => vlEffect_keeps) (fun _ => pushEntry_keeps) h
  | vlset => exact engineWord_canon (fun _ _ => vlEffect_keeps) (fun _ => pushEntry_keeps) h
  | vst => exact storeVec_canon h
  | vsts => exact storeVec_canon h
  | vstx => exact storeVec_canon h
  | vbindo => exact bindWord_canon (fun _ _ => vsEffect_keeps) h
  | vunbindo => exact unbindWord_canon (fun _ _ => vsEffect_keeps) h
  | vstt => exact storeVec_canon h
  | vatoma => exact storeVec_canon h
  | vstrw => exact storeVec_canon h
  | vswait => exact engineWord_canon (fun _ _ => vsEffect_keeps) (fun _ => pushEntry_keeps) h
  | vsset => exact engineWord_canon (fun _ _ => vsEffect_keeps) (fun _ => pushEntry_keeps) h
  | vadd => exact vaWord_canon h
  | vsub => exact vaWord_canon h
  | vmul => exact vaWord_canon h
  | vfma => exact vaWord_canon h
  | vfnma => exact vaWord_canon h
  | vmin => exact vaWord_canon h
  | vmax => exact vaWord_canon h
  | vabs => exact vaWord_canon h
  | vneg => exact vaWord_canon h
  | vdiv => exact vaWord_canon h
  | vsqrt => exact vaWord_canon h
  | vrsq => exact vaWord_canon h
  | vexp2 => exact vaWord_canon h
  | vlog2 => exact vaWord_canon h
  | vfclass => exact vaWord_canon h
  | vcmp => exact vaWord_canon h
  | vsel => exact vaWord_canon h
  | vand => exact vaWord_canon h
  | vor => exact vaWord_canon h
  | vxor => exact vaWord_canon h
  | vshl => exact vaWord_canon h
  | vshr => exact vaWord_canon h
  | vsra => exact vaWord_canon h
  | vcvt => exact vaWord_canon h
  | vpack => exact vaWord_canon h
  | vunpk => exact vaWord_canon h
  | vred => exact vaWord_canon h
  | vargmax => exact vaWord_canon h
  | vperm => exact vaWord_canon h
  | vrot => exact vaWord_canon h
  | vbcast => exact vaWord_canon h
  | vextr => exact vaWord_canon h
  | viota => exact vaWord_canon h
  | vmov => exact vaWord_canon h
  | vdrop => exact vaWord_canon h
  | vcnt => exact vaWord_canon h
  | vmix => exact vaWord_canon h
  | vunif => exact vaWord_canon h
  | vaddx => exact vaWord_canon h
  | vmulx => exact vaWord_canon h
  | vfmax => exact vaWord_canon h
  | kop => exact vaWord_canon h
  | kpopc => exact vaWord_canon h
  | vsett => exact vaWord_canon h
  | vsettXa => exact vaWord_canon h
  | vtagr => exact vaWord_canon h
  | vrnd => exact vaWord_canon h
  | vscale => exact vaWord_canon h
  | vawait => exact vaWord_canon h
  | vaset => exact vaWord_canon h
  | mclaim => exact mxWord_canon h
  | mrel => exact mxWord_canon h
  | mxfer => exact mxWord_canon h
  | mldw => exact mxWord_canon h
  | mlda => exact mxWord_canon h
  | mpass => exact mxWord_canon h
  | mpassat => exact mxWord_canon h
  | mdrain => exact mxWord_canon h
  | mdrainv => exact engineWord_canon (fun _ _ => mxEffect_keeps) (fun _ => .seq bindOk_keeps fun _ => pushEntry_keeps) h
  | mdrainp => exact mxWord_canon h
  | mzero => exact mxWord_canon h
  | mldv => exact mxWord_canon h
  | mxwait => exact mxWord_canon h
  | mxset => exact mxWord_canon h
  | cpl => exact cpWord_canon h
  | cpt => exact cpWord_canon h
  | cpg => exact cpWord_canon h
  | cps => exact cpWord_canon h
  | cpstg => exact cpWord_canon h
  | cpred => exact cpWord_canon h
  | cpfill => exact cpWord_canon h
  | cptag => exact cpWord_canon h
  | cpsig => exact cpWord_canon h
  | cpconv => exact cpWord_canon h
  | cpwait => exact cpWord_canon h
  | cpset => exact cpWord_canon h
  | pld => exact spOp_canon h
  | qld => exact spReg_canon h
  | tld => exact spOp_canon h
  | tst => exact spOp_canon h
  | est => exact spOp_canon h
  | li => exact spReg_canon h
  | lih => exact spReg_canon h
  | mov => exact spReg_canon h
  | spargeAdd => exact spReg_canon h
  | spargeSub => exact spReg_canon h
  | spargeAnd => exact spReg_canon h
  | spargeOr => exact spReg_canon h
  | spargeXor => exact spReg_canon h
  | spargeAddi => exact spReg_canon h
  | spargeShli => exact spReg_canon h
  | spargeShri => exact spReg_canon h
  | ceq => exact spReg_canon h
  | cltu => exact spReg_canon h
  | clt => exact spReg_canon h
  | bz => exact spOp_canon h
  | bnz => exact spOp_canon h
  | jmp => exact spOp_canon h
  | spargeLoop => exact spOp_canon h
  | elaunch => exact spOp_canon h
  | egang => exact spOp_canon h
  | etile => exact spOp_canon h
  | ecopy => exact spOp_canon h
  | esignal => exact spOp_canon h
  | efence => exact spOp_canon h
  | reject => exact spOp_canon h
  | done => exact spOp_canon h
  | budget => exact execBudget_canon h
  | tailDoorbell => exact .ringBell h
  | inlineDoorbell => exact execInlineDoorbell_canon h
  | ringEnable => exact .hostWrite h fun _ hs => .ite hs hs
  | lqEnable => exact .hostWrite h fun _ hs => .ite hs hs
  | merge => exact execMerge_canon h
  | interpreterHandoff => exact execInterpreterHandoff_canon h
  | emissionTakesEffect => exact execEmissionTakesEffect_canon h
  | ecopyCompletion => exact execEcopyCompletion_canon h
  | spargeProgramLoad => exact .hostWrite h fun _ hs => .ite (.loadProgram hs) hs
  | spargeProgramUnload => exact .hostWrite h fun _ hs => .ite (.unloadProgram hs) hs
  | evqConfigWrite => exact .hostWrite h fun _ hs => hs
  | functionRangeWrite => exact .pfWrite h fun _ hs => .rangeWrite hs
  | weightCmd => exact .pfWrite h fun _ hs => .weightWrite hs
  | shapeW1 => exact .pfWrite h fun _ hs => .shapeStage hs
  | shapeW0 => exact .pfWrite h fun _ hs => .shapeCommit hs
  | powerCtlOn => exact .pfWrite h fun _ hs => .powerWrite hs
  | powerCtlIdle => exact .pfWrite h fun _ hs => .powerWrite hs
  | powerCtlGated => exact .pfWrite h fun _ hs => .powerWrite hs
  | powerCtlSleep => exact .pfWrite h fun _ hs => .powerWrite hs
  | powerCtlOff => exact .pfWrite h fun _ hs => .powerWrite hs
  | powerTransitionDone => exact .powerDone h
  | telemetryRefresh => exact execTelemetryRefresh_canon h
  | thermalOrCurrentTrip => exact execThermalOrCurrentTrip_canon h
  | registerWrite => exact .hostWrite h fun _ hs => .barWrite hs
  | ctxCreate => exact State.hostCommand_canon h
  | ctxSet => exact State.hostCommand_canon h
  | ctxDestroy => exact State.hostCommand_canon h
  | frameSet => exact State.hostCommand_canon h
  | inval => exact State.hostCommand_canon h
  | dirtyRead => exact State.hostCommand_canon h
  | cntClaim => exact State.hostCommand_canon h
  | cntRel => exact State.hostCommand_canon h
  | epSet => exact State.hostCommand_canon h
  | trapResolve => exact State.hostCommand_canon h
  | unitRetire => exact State.hostCommand_canon h
  | pageDone => exact State.hostCommand_canon h
  | kegSaveCmd => exact State.hostCommand_canon h
  | kegLoadCmd => exact State.hostCommand_canon h
  | kegThaw => exact State.hostCommand_canon h
  | migKey => exact State.hostCommand_canon h
  | pagePush => exact State.hostCommand_canon h
  | parkForward => exact State.hostCommand_canon h
  | relayEnd => exact State.hostCommand_canon h
  | slotLoad => exact State.hostCommand_canon h
  | tensorSeal => exact State.hostCommand_canon h
  | slotUnpin => exact State.hostCommand_canon h
  | flr => exact .ite h (.resetTables (.endAll h))
  | vfTeardown => exact execVfTeardown_canon h
  | teardownDrainTimeout => exact execTeardownDrainTimeout_canon h
  | powerUp => exact { State.Canon.reset with host := h.host }
  | bootCtlGo => exact .pfWrite h fun _ hs => .bootGo hs
  | fwCtlGo => exact .pfWrite h fun _ hs => .fwGo hs
  | fwHeartbeat => exact execFwHeartbeat_canon h
  | heartbeatTimeout => exact execHeartbeatTimeout_canon h
  | getVersion => exact State.spdm_canon h fun _ hs => hs
  | getCapabilities => exact State.spdm_canon h fun _ hs => hs
  | negotiateAlgorithms => exact State.spdm_canon h fun _ hs => hs
  | getDigests => exact State.spdm_canon h fun _ hs => hs
  | getCertificate => exact State.spdm_canon h fun _ hs => hs
  | challenge => exact State.spdm_canon h fun _ hs => hs
  | getMeasurements => exact execGetMeasurements_canon h
  | keyExchange => exact State.spdm_canon h fun _ hs => hs
  | finish => exact State.spdm_canon h fun _ hs => hs
  | keyUpdate => exact State.spdm_canon h fun _ hs => hs
  | heartbeat => exact State.spdm_canon h fun _ hs => hs
  | endSession => exact State.spdm_canon h fun _ hs => hs
  | keyInstall => exact execKeyInstall_canon h
  | keyTransfer => exact execKeyTransfer_canon h
  | ideKm => exact State.spdm_canon h fun _ hs => .ite hs hs
  | ideIntegrityFail => exact execIdeIntegrityFail_canon h
  | qdepthWrite => exact threadStep_canon h fun _ hs => .getD hs fun _ ht => .writeQdepth hs ht
  | vstatWrite => exact threadStep_canon h fun _ hs => .getD hs fun _ ht => .writeVstat hs ht
  | waitlogConfigWrite => exact threadStep_canon h fun _ hs => hs
  | trapqConfigWrite => exact threadStep_canon h fun _ hs => hs
  | resume => exact .trapAction h
  | kill => exact .trapAction h
  | cntEventWrite => exact threadStep_canon h fun _ hs => .writeEvent hs
  | stopreq => exact threadStep_canon h fun _ hs => .updThr hs fun _ ht => ht
  | postedWrite => exact .inbound h
  | lineRead => exact .ite (.answer h) (.inbound h)
  | markedAccess => exact .inbound h
  | signal => exact .inbound h
  | bulletinRead => exact h
  | acknowledgement => exact .answered h
  | retry => exact h
  | retryResend => exact h
  | endpointGone => exact execEndpointGone_canon h
  | lineEviction => exact execLineEviction_canon h
  | streamFill => exact execStreamFill_canon h
  | streamDrain => exact execStreamDrain_canon h
  | mdrainpArrival => exact execMdrainpArrival_canon h
  | placement => exact .place h
  | placementReservation => exact execPlacementReservation_canon h
  | overlayLoad => exact execOverlayLoad_canon h
  | boundaryLanding => exact execBoundaryLanding_canon h
  | quarantineEnd => exact execQuarantineEnd_canon h
  | parkThreshold => exact execParkThreshold_canon h
  | deadlock => exact execDeadlock_canon h
  | claimCycle => exact execClaimCycle_canon h
  | timedPassStart => exact execTimedPassStart_canon h
  | gangStart => exact execGangStart_canon h
  | gangLate => exact execGangLate_canon h
  | preempt => exact execPreempt_canon h
  | preemptRollback => exact execPreemptRollback_canon h
  | mscRoomRollback => exact execMscRoomRollback_canon h
  | trapDelivery => exact execTrapDelivery_canon h
  | versionCascade => exact execVersionCascade_canon h
  | correctedError => exact execCorrectedError_canon h
  | uncorrectableError => exact .errorAt h
  | patienceExpiry => exact execPatienceExpiry_canon h
  | passBegin => exact execPassBegin_canon h
  | passEnd => exact execPassEnd_canon h
  | passAbandon => exact execPassAbandon_canon h
  | bulletinRefresh => exact execBulletinRefresh_canon h
  | traceSample => exact execTraceSample_canon h
  | kilnReset => exact h
  | endMarker => exact execEndMarker_canon h
  | cancelMessage => exact h
  | registerCacheEviction => exact execRegisterCacheEviction_canon h

/-! ## Machine/Turns -/

theorem State.Canon.epiCommit {s : State} {key : Nat} (h : s.Canon) : (s.epiCommit key).Canon := by
  have hc : M.Keeps (do commitPoint key Frame.epiDone; modThr key fun t => t.updLive Frame.epiDone) :=
    .seq commitPoint_keeps fun _ => .modThr fun _ ht => ht
  unfold State.epiCommit
  split
  next e => exact .updThr (hc.ok h e) fun _ ht => ht
  next => exact .wordWaits h
  next e => exact .wordWaits (hc.wait h e)
  next => exact .takeTrap h
  next e => exact .takeTrap (hc.fault h e)

/-! ## Machine/Slice0 -/

/-- What a thread takes over when its loop record is read again. -/
def Thread.reloaded (r : Rec) (t : Thread) : Thread :=
  { t with
    reload := false, live := { t.live with task := r }, committed := { t.committed with task := r }
    versions := t.versions.map fun w => { w with task := r.addr, budget := r.budget } }

theorem Thread.Canon.reloaded {t : Thread} {r : Rec} (ht : t.Canon) : (Thread.reloaded r t).Canon :=
  { ht with versions := List.forall_mem_map.2 fun v hv => ht.versions v hv }

/-! ## Machine/Turns -/

theorem State.Canon.reloadRec {s : State} {key : Nat} (h : s.Canon) : (s.reloadRec key).Canon := by
  have hread : M.Keeps (do let t ← getThr key; let r ← readRecord key t.live.task.addr; modThr key (Thread.reloaded r)) :=
    .thread fun _ _ => .seq readRecord_keeps fun _ => .modThr fun _ => .reloaded
  unfold State.reloadRec
  split
  next e => exact .loadOverlay (hread.ok h e)
  next => exact .wordWaits h
  next e => exact .wordWaits (hread.wait h e)
  next => exact .takeTrap h
  next e => exact .takeTrap (hread.fault h e)

theorem State.Canon.badWord {s : State} {key : Nat} (h : s.Canon) : (s.badWord key).Canon := .takeTrap h

theorem issued_canon {key : Nat} {o : Out} (ho : Out.Canon o) : Out.Canon (State.issued key o) := by
  unfold State.issued
  split
  · exact State.Canon.ite (.traceIssue ho) ho
  · trivial
  · trivial

theorem State.issueWord_canon {s : State} {key : Nat} (h : s.Canon) : Out.Canon (s.issueWord key) := by
  unfold State.issueWord
  split
  · exact State.Canon.badWord h
  · split
    · exact issued_canon (exec_canon h)
    · exact State.Canon.badWord h

theorem State.issue_canon {s : State} {key : Nat} (h : s.Canon) : Out.Canon (s.issue key) := by
  unfold State.issue
  split
  · exact h
  · exact h
  · exact State.Canon.deliverHeld h
  · exact State.Canon.takeStep h
  · exact State.Canon.reloadRec h
  · exact boundary_canon (fun _ => .done) h
  · exact State.Canon.epiCommit h
  · exact State.Canon.updThr (.takeTrap h) fun _ ht => ht
  · exact State.issueWord_canon h

theorem State.interpTurn_canon {s : State} {it : Nat} (h : s.Canon) : Out.Canon (s.interpTurn it) := by
  unfold State.interpTurn
  split
  · exact h
  · split
    · exact exec_canon h
    · exact State.Canon.rejectPkt h

theorem State.Canon.after {s : State} {o : Out} (h : s.Canon) (ho : Out.Canon o) : (s.after o).Canon := by
  unfold State.after
  split
  · exact ho
  · exact h
  · exact h

theorem State.Canon.runAll {s : State} {l : List (State → Out)} (h : s.Canon) (hl : ∀ f ∈ l, ∀ s : State, s.Canon → Out.Canon (f s)) :
    (s.runAll l).Canon := List.foldlRecOn (motive := State.Canon) l _ h fun s hs f hf => .after hs (hl f hf s hs)

theorem State.Canon.bindFull {s : State} {key : Nat} (h : s.Canon) : (s.bindFull key).Canon := .ite (.updThr h fun _ ht => .bindMany ht) h

/-- Services of one kind, one for each member of a list. -/
theorem State.Canon.runMap {α : Type} {s : State} {l : List α} {f : α → State → Out} (h : s.Canon)
    (hf : ∀ a (s : State), s.Canon → Out.Canon (f a s)) : (s.runAll (l.map f)).Canon := .runAll h (List.forall_mem_map.2 fun a _ => hf a)

/-- Services of several kinds, for each member of a list. -/
theorem State.Canon.runFlatMap {α : Type} {s : State} {l : List α} {f : α → List (State → Out)} (h : s.Canon)
    (hf : ∀ a, ∀ g ∈ f a, ∀ s : State, s.Canon → Out.Canon (g s)) : (s.runAll (l.flatMap f)).Canon :=
  .runAll h fun g hg => let ⟨a, _, hga⟩ := List.mem_flatMap.1 hg; hf a g hga

/-- A list of two services. -/
theorem forall_services_pair {f g : State → Out} (hf : ∀ s : State, s.Canon → Out.Canon (f s))
    (hg : ∀ s : State, s.Canon → Out.Canon (g s)) : ∀ a ∈ [f, g], ∀ s : State, s.Canon → Out.Canon (a s) :=
  List.forall_mem_cons.2 ⟨hf, List.forall_mem_singleton.2 hg⟩

theorem State.Canon.services {s : State} (h : s.Canon) : s.services.Canon := by
  unfold State.services
  extract_lets s₁ s₂ s₃ s₄ s₅ s₆ s₇ lqs s₈ s₉ s₁₀ s₁₁ s₁₂ s₁₃ s₁₄ running s₁₅ keys s₁₆ s₁₇
  have hs₁ : s₁.Canon := .foldl h fun _ _ hs => .landFirst hs
  clear_value s₁
  have hs₂ : s₂.Canon := .fwAdvance (.unpark (.finishDue (.judgeGangs (.endInvals (.drainFlows hs₁)))))
  clear_value s₂
  have hs₃ : s₃.Canon := .foldl hs₂ fun _ _ hs => .pendingCommand hs
  clear_value s₃
  have hs₄ : s₄.Canon := .foldl hs₃ fun _ _ hs => .drainEnd hs
  clear_value s₄
  have hs₅ : s₅.Canon := .foldl hs₄ fun _ _ hs => .flrDone hs
  clear_value s₅
  have hs₆ : s₆.Canon := .ite (.powerDone hs₅) hs₅
  clear_value s₆
  have hs₇ : s₇.Canon := by
    dsimp only [s₇]
    split
    · exact .place hs₆
    · exact hs₆
  clear_value s₇
  have hs₈ : s₈.Canon := .runMap hs₇ fun _ _ => execMerge_canon
  clear_value s₈
  have hs₉ : s₉.Canon := .runMap hs₈ fun _ _ => execInterpreterHandoff_canon
  clear_value s₉
  have hs₁₀ : s₁₀.Canon := .runFlatMap hs₉ fun _ => forall_services_pair (fun _ => execEmissionTakesEffect_canon) fun _ => execEcopyCompletion_canon
  clear_value s₁₀
  have hs₁₁ : s₁₁.Canon := .runFlatMap hs₁₀ fun _ => forall_services_pair (fun _ => execGangLate_canon) fun _ => execGangStart_canon
  clear_value s₁₁
  have hs₁₂ : s₁₂.Canon := .runMap hs₁₁ fun _ _ => execPatienceExpiry_canon
  clear_value s₁₂
  have hs₁₃ : s₁₃.Canon := by
    refine .runAll hs₁₂ fun f hf => ?_
    obtain ⟨p, _, hp⟩ := List.mem_filterMap.1 hf
    obtain ⟨c, _, rfl⟩ := Option.map_eq_some_iff.1 hp
    exact fun _ => execPassBegin_canon
  clear_value s₁₃
  have hs₁₄ : s₁₄.Canon := .telemetry (.runAll hs₁₃ (List.forall_mem_singleton.2 fun _ => execBulletinRefresh_canon))
  clear_value s₁₄
  have hs₁₅ : s₁₅.Canon := .runFlatMap hs₁₄ fun _ => forall_services_pair (fun _ => execPassEnd_canon) fun _ => execPassAbandon_canon
  clear_value s₁₅
  have hs₁₆ : s₁₆.Canon := .foldl hs₁₅ fun _ _ hs => .bindFull hs
  clear_value s₁₆
  have hs₁₇ : s₁₇.Canon := .runFlatMap hs₁₆ fun _ => List.forall_mem_cons.2
    ⟨fun _ => execParkThreshold_canon, forall_services_pair (fun _ => execPreemptRollback_canon) fun _ => execDeadlock_canon⟩
  clear_value s₁₇
  exact .runMap hs₁₇ fun _ _ => execClaimCycle_canon

theorem State.Canon.unitTurn {s : State} {unit key : Nat} (h : s.Canon) : (s.unitTurn unit key).Canon := by
  unfold State.unitTurn
  split
  · exact .engineStep h
  · exact .after h (State.issue_canon h)

theorem State.Canon.noteWaits {s : State} {core unit : Nat} (h : s.Canon) : (s.noteWaits core unit).Canon :=
  .foldl h fun _ _ hs => .unitTurn hs

theorem State.Canon.select {s : State} {core unit extra : Nat} (h : s.Canon) : (s.select core unit extra).Canon :=
  .ite (.noteWaits h) (.unitTurn (.noteWaits h))

theorem State.Canon.readEarly {s : State} {key : Nat} {e : Option Eng} {l : List (Space × Nat)} (h : s.Canon) :
    (s.readEarly key e l).Canon := by
  unfold State.readEarly
  dsimp only
  split
  · split
    · exact .updThr h fun _ ht => ht
    · exact h
  · split
    · exact h
    · split
      · split
        · exact .updThr h fun _ ht => ht
        · exact h
      · exact h

theorem runTurn_canon {t : Turn} {s : State} (h : s.Canon) : Out.Canon (runTurn t s) := by
  cases t with
  | issue key => exact State.issue_canon h
  | engine key e => exact State.Canon.engineStep h
  | bind key n => exact State.Canon.updThr h fun _ ht => .ite (.bindTicket ht) ht
  | select core unit occ => exact State.Canon.select h
  | hostMem a data => exact { h with host := h.host.setBytes }
  | refuse a n => exact h
  | hide l => exact h
  | early key e l => exact State.Canon.readEarly h
  | poison key id => exact State.Canon.answered h
  | pageIn cid va data tags => exact State.Canon.pageIn h
  | flowIn ep srcEp thr flow next done => exact State.Canon.flowIn h
  | evict place cid page => exact h
  | interp it => exact State.interpTurn_canon h
  | event i => exact exec_canon h
  | services => exact State.Canon.services h

theorem State.Canon.startGang {s : State} {n : Nat} (h : s.Canon) : (s.startGang n).Canon := by
  unfold State.startGang
  split
  · exact h
  · split
    · exact .foldl (.after h (execGangStart_canon h)) fun _ _ hs => .foldl hs fun _ _ hs1 => .after hs1 (State.issue_canon hs1)
    · exact h

theorem State.Canon.startTimed {s : State} {key : Nat} (h : s.Canon) : (s.startTimed key).Canon :=
  .ite (.runHead h fun _ _ => mxEffect_keeps) h

theorem State.Canon.timedNow {s t : State} (h : s.Canon) (ht : s.timedNow = some t) : t.Canon := by
  unfold State.timedNow at ht
  extract_lets gangs passes at ht
  split at ht
  · cases ht
  · cases ht
    exact .foldl (.foldl h fun _ _ hs => .startGang hs) fun _ _ hs => .startTimed (.runHead hs fun _ _ => mxEffect_keeps)

theorem State.Canon.nextTurn {s : State} (h : s.Canon) : s.nextTurn.2.Canon := by
  unfold State.nextTurn
  split
  · exact h
  · exact h

/-! ## Machine/Step -/

theorem State.Canon.ticked {s : State} (h : s.Canon) : s.ticked.Canon := .ite h h

/-- Every step keeps every memory in its canonical form. -/
theorem step_canon {s : State} (h : s.Canon) : Out.Canon (step s) := by
  have ht : s.ticked.Canon := .ticked h
  unfold step
  split
  · next e => exact State.Canon.timedNow ht e
  · exact runTurn_canon (.nextTurn ht)

end Sys2Proof.Machine

/-! ## The obligation -/

namespace Sys2Proof

/-- Settles O57: by `step_canon`, one lemma for each operation of the model. -/
theorem stepKeepsMemoriesCanonical : Obligations.StepKeepsMemoriesCanonical := by
  unfold Obligations.StepKeepsMemoriesCanonical
  intro s t hs hstep
  have hend := Machine.step_canon ((Machine.State.memWf_iff s).1 hs)
  rw [hstep] at hend
  exact (Machine.State.memWf_iff t).2 hend

end Sys2Proof
end

section
/-! Every step answers a next state: each word, operation, event and turn does. -/

namespace Sys2Proof.Machine

/-! ## Outcomes that go on (R12, R368) -/

/-- The outcome is a next state: the machine has not stopped. -/
def Out.Answers (o : Out) : Prop := ∃ t, o = .next t

theorem Out.Answers.next (s : State) : Out.Answers (.next s) := ⟨s, rfl⟩

theorem Out.Answers.ite {p : Prop} [Decidable p] {o o' : Out} (h : o.Answers) (h' : o'.Answers) : Out.Answers (if p then o else o') := by
  split
  · exact h
  · exact h'

/-! ## The kinds of words and operations -/

theorem sqWord_answers {body : Nat → M Unit} {s : State} : Out.Answers (sqWord body s) := sqWord_next body s

theorem engineWord_answers {e : Eng} {eff : Nat → QEntry → M Unit} {push : Nat → M Unit} {s : State} : Out.Answers (engineWord e eff push s) :=
  engineWord_next e eff push s

theorem boundary_answers {succ : Frame → M W64} {s : State} : Out.Answers (boundary succ s) := boundary_next succ s

theorem spOp_answers {body : State → Interp → Except SpEnd Interp} {s : State} : Out.Answers (spOp body s) := spOp_next body s

theorem scWord_answers {xd : BitVec 5} {res : Frame → XReg} {s : State} : Out.Answers (scWord xd res s) := sqWord_answers

theorem scR_answers {xd xa xb : BitVec 5} {op : W64 → W64 → W64} {s : State} : Out.Answers (scR xd xa xb op s) := scWord_answers

theorem scU_answers {xd xa : BitVec 5} {op : W64 → W64} {s : State} : Out.Answers (scU xd xa op s) := scWord_answers

theorem branch_answers {xa xb : BitVec 5} {off : BitVec 15} {cond : W64 → W64 → Bool} {s : State} : Out.Answers (branch xa xb off cond s) :=
  sqWord_answers

theorem stopWord_answers {cause code : Nat} {s : State} : Out.Answers (stopWord cause code s) := sqWord_answers

theorem loadWord_answers {sz : Size} {xd xa : BitVec 5} {imm : W64} {signed marked acq : Bool} {scope : Nat} {s : State} :
    Out.Answers (loadWord sz xd xa imm signed marked scope acq s) := sqWord_answers

theorem storeWord_answers {sz : Size} {xs xa : BitVec 5} {imm : W64} {marked rel : Bool} {scope : Nat} {s : State} :
    Out.Answers (storeWord sz xs xa imm marked scope rel s) := sqWord_answers

theorem atomWord_answers {sz : Size} {xd xa xb : BitVec 5} {op : Option AOp} {scope : Nat} {order : Order} {s : State} :
    Out.Answers (atomWord sz xd xa xb op scope order s) := sqWord_answers

theorem loadVec_answers {w : Instr} {vd : BitVec 6} {ops : List (BitVec 5)} {s : State} : Out.Answers (loadVec w vd ops s) :=
  engineWord_answers

theorem storeVec_answers {w : Instr} {ops : List (BitVec 5)} {s : State} : Out.Answers (storeVec w ops s) := engineWord_answers

theorem bindWord_answers {e : Eng} {eff : Nat → QEntry → M Unit} {w : Instr} {v : BitVec 6} {xa : BitVec 5} {b : BindKind} {s : State} :
    Out.Answers (bindWord e eff w v xa b s) := engineWord_answers

theorem unbindWord_answers {e : Eng} {eff : Nat → QEntry → M Unit} {w : Instr} {v : BitVec 6} {b : BindKind} {s : State} :
    Out.Answers (unbindWord e eff w v b s) := engineWord_answers

theorem vaWord_answers {w : Instr} {writes reads : List (BitVec 6)} {ops : List (BitVec 5)} {flag : Option (BitVec 8)} {s : State} :
    Out.Answers (vaWord w writes reads ops flag s) := engineWord_answers

theorem mxWord_answers {w : Instr} {ops : List (BitVec 5)} {flag : Option (BitVec 8)} {s : State} : Out.Answers (mxWord w ops flag s) :=
  engineWord_answers

theorem cpWord_answers {w : Instr} {ops : List (BitVec 5)} {flag : Option (BitVec 8)} {s : State} : Out.Answers (cpWord w ops flag s) :=
  engineWord_answers

theorem spReg_answers {d : BitVec 4} {v : State → Interp → W64} {s : State} : Out.Answers (spReg d v s) := spOp_answers

/-! ## The words and events that choose what they do by a test of their own -/

theorem threadStep_answers {s : State} {key : Nat} {f : State → State} : Out.Answers (threadStep s key f) := .ite (.next _) (.next _)

theorem execEret_answers {s : State} : Out.Answers (execEret s) := .ite sqWord_answers boundary_answers

theorem execFlr_answers {fn : Nat} {s : State} : Out.Answers (execFlr fn s) := .ite (.next _) (.next _)

theorem execLineRead_answers {h : FabHdr} {off : BitVec 32} {s : State} : Out.Answers (execLineRead h off s) := .ite (.next _) (.next _)

theorem execEcopyCompletion_answers {fn lq : Nat} {s : State} : Out.Answers (execEcopyCompletion fn lq s) := by
  refine .ite (.next _) ?_
  split <;> exact .next _

theorem execEndpointGone_answers {key id : Nat} {s : State} : Out.Answers (execEndpointGone key id s) := by
  unfold execEndpointGone
  split
  · exact .next _
  · dsimp only
    split
    · exact .next _
    · exact .next _
    · exact .ite (.next _) (.next _)

theorem execLineEviction_answers {key w line : Nat} {s : State} : Out.Answers (execLineEviction key w line s) := by
  refine .ite (.next _) ?_
  split <;> exact .next _

theorem execGangStart_answers {n : Nat} {s : State} : Out.Answers (execGangStart n s) := by
  unfold execGangStart
  split
  · exact .next _
  · exact .ite (.next _) (.next _)

theorem execGangLate_answers {n : Nat} {s : State} : Out.Answers (execGangLate n s) := by
  unfold execGangLate
  split
  · exact .next _
  · exact .ite (.next _) (.ite (.next _) (.next _))

/-! ## Every step -/

/-- What `exec` performs never stops the machine: a word of a thread by its kind, an operation of an interpreter by `spOp`; what the host and the
device do is a next state outright. -/
theorem exec_answers (i : Instr) (s : State) : Out.Answers (exec i s) := by
  unfold exec
  cases i with
  | add | sub | and | or | xor | andn | orn | xnor | shl | shr | sra | rol | ror | mul | mulh | mulhu | mulhsu | div | divu | rem | remu | min
    | max | minu | maxu | seq | slt | sltu => exact scR_answers
  | clz | ctz | popc | brev | sext | zext | addi | andi | ori | xori | shli | shri | srai | slti | sltiu | muli => exact scU_answers
  | lis | lihs | movb | tqry => exact scWord_answers
  | beq | bne | blt | bge | bltu | bgeu => exact branch_answers
  | jal | jalr | knext | spawn | join | leave | bar | gqry | yield | tsub | ckpt | gsel | waitf | setf | clrf | waitfx | fread | waitc | tclr
    | tclrv | tclrc | sysrd | syswr | tlbinv | wpset | wpclr | cntclaim | cntrel | kegsave | kegload | flowdef | winset | fence | pref | rcm =>
    exact sqWord_answers
  | loop | tend => exact boundary_answers
  | trap | bkpt => exact stopWord_answers
  | eret => exact execEret_answers
  | ld | ldu | lds => exact loadWord_answers
  | st | sts => exact storeWord_answers
  | atomw | atomd | casw | casd => exact atomWord_answers
  | vld | vlds | vldx | vldt | vldb => exact loadVec_answers
  | vbindi | vbindo => exact bindWord_answers
  | vunbindi | vunbindo => exact unbindWord_answers
  | vlwait | vlset | vswait | vsset | mdrainv => exact engineWord_answers
  | vst | vsts | vstx | vstt | vatoma | vstrw => exact storeVec_answers
  | vadd | vsub | vmul | vfma | vfnma | vmin | vmax | vabs | vneg | vdiv | vsqrt | vrsq | vexp2 | vlog2 | vfclass | vcmp | vsel | vand | vor |
    vxor | vshl | vshr | vsra | vcvt | vpack | vunpk | vred | vargmax | vperm | vrot | vbcast | vextr | viota | vmov | vdrop | vcnt | vmix |
    vunif | vaddx | vmulx | vfmax | kop | kpopc | vsett | vsettXa | vtagr | vrnd | vscale | vawait | vaset => exact vaWord_answers
  | mclaim | mrel | mxfer | mldw | mlda | mpass | mpassat | mdrain | mdrainp | mzero | mldv | mxwait | mxset => exact mxWord_answers
  | cpl | cpt | cpg | cps | cpstg | cpred | cpfill | cptag | cpsig | cpconv | cpwait | cpset => exact cpWord_answers
  | pld | tld | tst | est | bz | bnz | jmp | spargeLoop | elaunch | egang | etile | ecopy | esignal | efence | reject | done =>
    exact spOp_answers
  | qld | li | lih | mov | spargeAdd | spargeSub | spargeAnd | spargeOr | spargeXor | spargeAddi | spargeShli | spargeShri | ceq | cltu | clt =>
    exact spReg_answers
  | ecopyCompletion => exact execEcopyCompletion_answers
  | flr => exact execFlr_answers
  | qdepthWrite | vstatWrite | waitlogConfigWrite | trapqConfigWrite | cntEventWrite | stopreq => exact threadStep_answers
  | lineRead => exact execLineRead_answers
  | endpointGone => exact execEndpointGone_answers
  | lineEviction => exact execLineEviction_answers
  | gangStart => exact execGangStart_answers
  | gangLate => exact execGangLate_answers
  | _ => exact .next _

theorem issued_answers {key : Nat} {o : Out} (h : o.Answers) : Out.Answers (State.issued key o) := by
  obtain ⟨s, rfl⟩ := h
  exact .next _

/-- A word that issues, whatever it is, answers a next state. -/
theorem State.issueWord_answers (s : State) (key : Nat) : Out.Answers (s.issueWord key) := by
  unfold State.issueWord
  split
  · exact .next _
  · split
    · exact issued_answers (exec_answers _ _)
    · exact .next _

/-- A turn of a sequencer answers a next state, whatever is due of its thread. -/
theorem State.issue_answers (s : State) (key : Nat) : Out.Answers (s.issue key) := by
  unfold State.issue
  cases s.due key with
  | bound => exact boundary_answers
  | word => exact s.issueWord_answers key
  | _ => exact .next _

theorem State.interpTurn_answers (s : State) (it : Nat) : Out.Answers (s.interpTurn it) := by
  refine .ite (.next _) ?_
  split
  · exact exec_answers _ _
  · exact .next _

theorem runTurn_answers (t : Turn) (s : State) : Out.Answers (runTurn t s) := by
  cases t with
  | issue key => exact s.issue_answers key
  | interp it => exact s.interpTurn_answers it
  | event i => exact exec_answers i s
  | _ => exact .next _

/-- A step answers a next state: what is bound to its tick, or a turn. -/
theorem step_answers (s : State) : Out.Answers (step s) := by
  unfold step
  split
  · exact .next _
  · exact runTurn_answers _ _

end Sys2Proof.Machine

namespace Sys2Proof

/-- Settles O56: a step is what its tick brings or a turn, and none of the turns stops the machine. -/
theorem everyStepAnswers : Obligations.EveryStepAnswers := Machine.step_answers

end Sys2Proof
end

section
/-! Plain accesses to a thread's own scratch: what the checks of R188 leave, and the bytes that LDU and ST move. -/

namespace Sys2Proof.Machine

/-! ## Operations that complete -/

/-- An operation after one that completes. -/
theorem M.run_bind_ok {α β : Type} {x : M α} {f : α → M β} {s s' : State} {a : α} (h : x s = .ok (a, s')) : (x >>= f) s = f a s' := by
  rw [M.run_bind, h]

/-! ## Tables, and the thread of a key -/

section
variable {α : Type}

/-- A key at which a value other than the default is read is listed: writing that value changes nothing. -/
theorem NMap.put_get [Inhabited α] {m : NMap α} {k : Nat} (h : m.get k ≠ default) : m.put k (m.get k) = m := by
  induction m with
  | nil => exact absurd rfl h
  | cons p t ih =>
    obtain ⟨j, w⟩ := p
    simp only [NMap.get] at h ⊢
    by_cases hj : j = k
    · simp [NMap.put, hj]
    · by_cases hk : k < j
      · simp [hj, hk] at h
      · simp only [hj, hk, if_false] at h
        simp [NMap.put, hj, hk, ih h]

/-- A write at a listed key does not change what is read through a function that agrees on the old and the new value. -/
theorem NMap.map_put [Inhabited α] {β : Type} {m : NMap α} {k : Nat} {v : α} {f : α → β} (h : m.get k ≠ default) (hf : f v = f (m.get k)) :
    (m.put k v).map (fun p => f p.2) = m.map fun p => f p.2 := by
  induction m with
  | nil => exact absurd rfl h
  | cons p t ih =>
    obtain ⟨j, w⟩ := p
    simp only [NMap.get] at h hf
    by_cases hj : j = k
    · simp_all [NMap.put]
    · by_cases hk : k < j
      · simp [hj, hk] at h
      · simp only [hj, hk, if_false] at h hf
        simp [NMap.put, hj, hk, ih h hf]

end

/-- A thread that is alive is listed. -/
theorem State.thr_ne_default {s : State} {key : Nat} (h : (s.thr key).alive = true) : s.thr key ≠ default := by
  intro e
  rw [e] at h
  exact absurd h (by decide)

/-- A change of a listed thread that leaves it as it is changes nothing. -/
theorem State.updThr_id {s : State} {key : Nat} {f : Thread → Thread} (h : (s.thr key).alive = true) (hf : f (s.thr key) = s.thr key) :
    s.updThr key f = s := by
  have hput : s.threads.put key (s.thr key) = s.threads := NMap.put_get (State.thr_ne_default h)
  simp only [State.updThr, State.setThr, hf, hput]

/-- What uncommitted versions fill of the MSC does not change with a thread whose versions stay. -/
theorem State.mscUse_updThr {s : State} {key : Nat} {f : Thread → Thread} (h : (s.thr key).alive = true)
    (hf : (f (s.thr key)).versions = (s.thr key).versions) : (s.updThr key f).mscUse = s.mscUse := by
  have hmap := NMap.map_put (m := s.threads) (k := key) (v := f (s.thr key)) (f := Thread.versions) (State.thr_ne_default h) hf
  have hfold (l : NMap Thread) (n : Nat) : l.foldl (fun n p => p.2.versions.foldl (fun n v => n + v.mscBytes) n) n =
      (l.map fun p => p.2.versions).foldl (fun n vs => vs.foldl (fun n v => n + v.mscBytes) n) n := by
    rw [List.foldl_map]
  simp only [State.mscUse, State.updThr, State.setThr, hfold, hmap]

/-! ## The piece of an access to the own scratch -/

/-- The piece of n bytes of the own scratch at an offset (R16). -/
def ownPiece (off n : Nat) : Piece := ⟨(scratchVa off).toNat, n, .own, off, default⟩

/-- The address of a byte of the own scratch. -/
theorem scratchVa_toNat {off : Nat} (h : off ≤ 2097152) : (scratchVa off).toNat = 18302628885633695744 + off := by
  rw [scratchVa, BitVec.toNat_ofNat]
  omega

/-- A span that does not cross a multiple of 16 KiB is one piece. -/
theorem cutSpans_single {va n : Nat} (hva : va < two64) (hpos : 0 < n) (hn : n ≤ 16384 - va % 16384) : cutSpans [(va, n)] = [(va, n)] := by
  obtain ⟨k, rfl⟩ : ∃ k, n = k + 1 := ⟨n - 1, by omega⟩
  simp [cutSpans, cutSpan, hn, Nat.mod_eq_of_lt hva]

section
variable {s : State} {off n : Nat} (hown : s.OwnScratch off n)
include hown

/-- An address of the own scratch lies there (R16). -/
theorem classify_ownScratch : classify s s.cur (scratchVa off).toNat = .ok (some (.own, off)) := by
  obtain ⟨hpos, hgran, hwin, -⟩ := hown
  have hS : sspace s s.cur off = some (.own, off) := by
    rw [sspace, if_pos (by omega), if_pos (by omega)]
  have hlow : (18302628885633695744 + off) % 4294967296 = off := by omega
  have htop : (18302628885633695744 + off) / 72057594037927936 = 254 := by omega
  have hmid : (18302628885633695744 + off) / 4294967296 % 16777216 = 0 := by omega
  rw [classify, scratchVa_toNat (by omega), if_neg (by omega), if_pos (by simp [htop, hmid]), hlow, hS]

/-- An access to the own scratch resolves to its one piece: steps 3 to 5 of R188 refuse nothing. -/
theorem resolve_ownScratch {cid : Nat} {rd wr : Bool} {reach : Reach} (hreach : reach.scratch = true) :
    resolve s s.cur cid rd wr reach [((scratchVa off).toNat, n)] = .ok [ownPiece off n] := by
  have hclass := classify_ownScratch hown
  obtain ⟨hpos, -, hwin, hpage, -⟩ := hown
  have hva := scratchVa_toNat (off := off) (by omega)
  have hcut : cutSpans [((scratchVa off).toNat, n)] = [((scratchVa off).toNat, n)] := cutSpans_single (scratchVa off).isLt hpos (by omega)
  have hperm : permFail s s.cur rd wr (ownPiece off n) = none := rfl
  rw [ownPiece] at hperm ⊢
  simp [resolve, resolveAt, hcut, hclass, Reach.refuses, hreach, hperm, oksOf, errorsOf, lowest]

/-- No byte of the own scratch lies in a POISON block. -/
theorem poisonFail_ownScratch : poisonFail s s.cur (ownPiece off n) = none := by
  obtain ⟨-, -, -, -, -, -, hpoison, -⟩ := hown
  simp [poisonFail, ownPiece, Piece.space, State.space, hpoison]

end

/-- No copy under way holds an access back while none is recorded (R157). -/
theorem scoreBlocks_none {s : State} {r : Req} {p : Piece} (h : ∀ q ∈ s.threads, q.2.scores = []) : scoreBlocks s r p = false := by
  unfold scoreBlocks
  extract_lets target mine
  cases target with
  | none => rfl
  | some tk =>
    refine List.any_eq_false.2 fun q hq => ?_
    rw [h q hq]
    exact Bool.false_ne_true

section
variable {s : State} {r : Req} {p : Piece} {wr : Bool} (hp : p.tgt = .own)
include hp

/-- An access of the own scratch races with none (R180). -/
theorem raceFail_own {clk : Clock} : raceFail s r wr clk p = none := by simp [raceFail, Piece.global, hp]

/-- An access of the own scratch depends on no version of another thread (R387). -/
theorem dependsOn_own {key : Nat} : dependsOn s key p = [] := by simp [dependsOn, Piece.global, hp]

/-- The own scratch lies within every scope up to cluster (R162). -/
theorem scopeFail_own {scope : Nat} (h : scope ≤ 3) : scopeFail scope p = none := by simp [scopeFail, hp, h]

/-- A write of the own scratch makes no page dirty. -/
theorem markDirty_own {cid : Nat} : markDirty s cid p = s := by simp [markDirty, hp]

/-- The own scratch is watched by no peer. -/
theorem peerWatch_own {rd : Bool} : peerWatch r rd wr p s = .ok ((), s) := by simp [peerWatch, hp]

end

/-! ## What an access to the own scratch notes -/

/-- The state with other translations held. -/
def State.holding (s : State) (tlb : List Trans) : State := { s with tlb := tlb }

/-- The state after the checks of an access to the own scratch: the core may hold other translations, and the thread's clocks have moved. -/
def State.noted (s : State) (tlb : List Trans) (know : NMap Clock) (epoch : NMap Nat) : State :=
  (s.holding tlb).updThr s.cur fun t => { t with know := know, epoch := epoch }

/-- What the checks of an access leave of the current thread. -/
theorem State.thr_noted (s : State) (tlb : List Trans) (know : NMap Clock) (epoch : NMap Nat) :
    (s.noted tlb know epoch).thr s.cur = { s.thr s.cur with know := know, epoch := epoch } := State.thr_updThr_same _ _ _

theorem State.holdTrans_eq {s : State} {place : Option Nat} {cid : Nat} {ps : List Piece} :
    ∃ tlb, s.holdTrans place cid ps = s.holding tlb := by
  unfold State.holdTrans
  split
  · exact ⟨s.tlb, rfl⟩
  · exact ⟨_, rfl⟩

/-- What copies have written reaches the thread's clocks alone. -/
theorem noteWrote_eq {r : Req} {ps : List Piece} {s : State} (h : (s.thr r.key).alive = true) :
    ∃ know, noteWrote r ps s = .ok ((), s.updThr r.key fun t => { t with know := know }) := by
  simp only [noteWrote, M.run_bind, M.run_get, M.run_ite]
  split
  · exact ⟨_, rfl⟩
  · exact ⟨(s.thr r.key).know, by rw [State.updThr_id h rfl]; rfl⟩

/-- An access of the own scratch moves the epoch of its path alone (R180). -/
theorem noteAccess_own {r : Req} {wr : Bool} {ps : List Piece} {s : State} (hps : ∀ p ∈ ps, p.tgt = .own) :
    ∃ epoch, noteAccess r wr ps s = .ok ((), s.updThr r.key fun t => { t with epoch := epoch }) := by
  refine ⟨(s.thr r.key).epoch.put r.path ((s.thr r.key).epoch.get r.path + 1), ?_⟩
  have hnone : ps.filter Piece.global = [] := by
    rw [List.filter_eq_nil_iff]
    intro p hp
    simp [Piece.global, hps p hp]
  simp [noteAccess, hnone, Thread.updVer, State.updThr]

/-- The blocks that a short range touches. -/
theorem length_blocksOf_le {a n : Nat} (h : n ≤ 64) : (blocksOf a n).length ≤ 2 := by
  have hcount (k m : Nat) : (countFrom k m).length = m := by
    induction m generalizing k with
    | zero => rfl
    | succ m ih => simp [countFrom, ih]
  unfold blocksOf
  split
  · simp
  · rw [hcount]
    omega

/-- Leaving out repetitions makes no list longer. -/
theorem length_eraseDups_le {α : Type} [BEq α] [LawfulBEq α] (l : List α) : l.eraseDups.length ≤ l.length := by
  induction h : l.length using Nat.strong_induction_on generalizing l with
  | _ m ih =>
    cases l with
    | nil => simp
    | cons a t =>
      have hfilter := List.length_filter_le (fun b => !b == a) t
      have hrest := ih _ (by simp at h; omega) (t.filter fun b => !b == a) rfl
      simp only [List.eraseDups_cons, List.length_cons] at h ⊢
      omega

section
variable {key off n : Nat} {v : Version}

/-- A short access to the own scratch is the first of its version to write two blocks at most. -/
theorem length_newLines_own (h : n ≤ 64) : (newLines key v [ownPiece off n]).length ≤ 2 := by
  refine (length_eraseDups_le _).trans ?_
  simp only [ownPiece, Piece.space, List.flatMap_cons, List.flatMap_nil, List.append_nil, List.length_map]
  exact (List.length_filter_le _ _).trans (length_blocksOf_le h)

/-- No block of the own scratch is one of HBM. -/
theorem newLines_own_hbm : (newLines key v [ownPiece off n]).filter (fun l => decide (l.1 = .hbm)) = [] := by
  rw [List.filter_eq_nil_iff]
  intro l hl
  simp only [newLines, List.mem_eraseDups, ownPiece, Piece.space, List.flatMap_cons, List.flatMap_nil, List.append_nil, List.mem_map] at hl
  obtain ⟨b, -, rfl⟩ := hl
  simp

end

/-- A write of the own scratch has room while its version may write two blocks more (R384, R385). -/
theorem writeRoom_own {r : Req} {v : Version} {s : State} {va off n : Nat} (hn : n ≤ 64)
    (hbudget : ((s.thr r.key).ver r.ver).useKnext + 128 ≤ s.budgetOf (s.thr r.key).cid ((s.thr r.key).ver r.ver))
    (hroom : s.mscUse ≤ 7516192768) : writeRoom r (newLines r.key v [ownPiece off n]) va s = .ok ((), s) := by
  have hlen := length_newLines_own (key := r.key) (off := off) (v := v) hn
  simp only [writeRoom, newLines_own_hbm, M.run_bind, M.run_get, M.run_ite]
  rw [if_neg (by omega)]
  simp [hroom]

/-- What an access to the own scratch needs of its request: it is one of the current thread for its current version, it may reach scratch, it
is unmarked or within cluster scope, and it is matched against the watchpoints set now. -/
structure Req.Own (r : Req) (s : State) : Prop where
  key : r.key = s.cur
  ver : r.ver = (s.thr s.cur).curVer.id
  reach : r.reach.scratch = true
  scope : r.scope ≤ 3
  wps : r.wps = none

/-- The requests of the sequencer's own accesses. -/
theorem smReq_own {s : State} {marked : Bool} {scope : Nat} (h : scope ≤ 3) : (smReq s s.cur marked scope).Own s :=
  ⟨rfl, rfl, rfl, h, rfl⟩

/-- The steps of an access to pieces of the own scratch: the checks of R188 pass, those that come after it is known what copies have written as
well, while a write has room and no watchpoint is set. -/
theorem access_own_steps {s m u : State} {r : Req} {rd wr : Bool} {spans : List (Nat × Nat)} {ps : List Piece} (hcur : s.cur < passBase)
    (hr : r.Own s) (hps : ∀ p ∈ ps, p.tgt = .own) (hres : resolve s s.cur (s.thr s.cur).cid rd wr r.reach spans = .ok ps)
    (hscores : ∀ q ∈ s.threads, q.2.scores = []) (hpoison : ps.filterMap (poisonFail s s.cur) = [])
    (hm : noteWrote r ps (s.holdTrans (s.placeOf s.cur) (s.thr s.cur).cid ps) = .ok ((), m))
    (hroom : wr = true → ∀ v va, writeRoom r (newLines s.cur v ps) va m = .ok ((), m)) (hwp : (m.thr s.cur).wp = [])
    (hu : noteAccess r wr ps m = .ok ((), u)) : access r rd wr spans s = .ok (ps, u) := by
  obtain ⟨hkey, -, -, hscope, hwps⟩ := hr
  have hnot : ¬ (decide (passBase ≤ s.cur) && decide (s.cur < 2 * passBase)) = true := by simp; omega
  have hscopes : ps.filterMap (scopeFail r.scope) = [] := List.filterMap_eq_nil_iff.2 fun p hp => scopeFail_own (hps p hp) hscope
  have hrace (clk : Clock) : ps.filterMap (raceFail s r wr clk) = [] := List.filterMap_eq_nil_iff.2 fun p hp => raceFail_own (hps p hp)
  have hblocks : ps.any (scoreBlocks s r) = false := List.any_eq_false.2 fun p _ => by simp [scoreBlocks_none hscores]
  have hdeps : ps.flatMap (dependsOn s s.cur) = [] := List.flatMap_eq_nil_iff.2 fun p hp => dependsOn_own (hps p hp)
  have hdirty (cid : Nat) : ps.foldl (fun s p => markDirty s cid p) m = m :=
    List.foldlRecOn (motive := (· = m)) ps _ rfl fun v hv p hp => (markDirty_own (hps p hp)).trans hv
  have hwatch : ownHits (r.wps.getD (m.thr s.cur).wp) r.ver r.path (r.num.getD 0) rd wr spans = [] := by
    rw [hwps, hwp]
    rfl
  rw [access, M.run_bind_ok (M.run_get s), M.run_ite, hkey, if_neg hnot]
  simp only [hres, pure_bind, hscopes, hblocks, hpoison, hdeps, hrace, lowest, ite_self, Bool.false_eq_true, if_false, List.isEmpty_nil,
    Bool.not_true]
  rw [M.run_bind_ok (M.run_modify _ _), M.run_bind_ok hm, M.run_bind_ok (M.run_getThr _ _)]
  simp only [hwatch, List.isEmpty_nil, Bool.not_true, Bool.false_eq_true, if_false]
  cases wr with
  | false =>
    rw [if_neg Bool.false_ne_true, M.run_bind_ok hu]
    rfl
  | true =>
    rw [if_pos rfl, M.run_bind_ok (hroom rfl _ _), M.run_ite, if_neg, M.run_bind_ok (M.run_modify _ _), hdirty, M.run_bind_ok hu]
    · rfl
    · simp only [List.any_eq_true, not_exists]
      rintro p ⟨hp, h⟩
      simp [hps p hp] at h

/-- An access to the own scratch passes every check of R188, and leaves the bytes to be moved (R16, R188). -/
theorem access_ownScratch {s : State} {r : Req} {rd wr : Bool} {off n : Nat} (halive : (s.thr s.cur).alive = true) (hcur : s.cur < passBase)
    (hr : r.Own s) (hown : s.OwnScratch off n) (hn : n ≤ 64) (hroom : wr = true → s.MayWrite 128) :
    ∃ tlb know epoch, access r rd wr [((scratchVa off).toNat, n)] s = .ok ([ownPiece off n], s.noted tlb know epoch) := by
  have hkey := hr.key
  have ⟨_, _, _, _, hwp, hscores, _⟩ := hown
  obtain ⟨tlb, htlb⟩ := State.holdTrans_eq (s := s) (place := s.placeOf s.cur) (cid := (s.thr s.cur).cid) (ps := [ownPiece off n])
  obtain ⟨know, hknow⟩ := noteWrote_eq (r := r) (ps := [ownPiece off n]) (s := s.holding tlb) (by rw [hkey]; exact halive)
  obtain ⟨epoch, hepoch⟩ := noteAccess_own (r := r) (wr := wr) (ps := [ownPiece off n])
    (s := (s.holding tlb).updThr r.key fun t => { t with know := know }) (List.forall_mem_singleton.2 rfl)
  refine ⟨tlb, know, epoch, ?_⟩
  rw [access_own_steps hcur hr (List.forall_mem_singleton.2 rfl) (resolve_ownScratch hown hr.reach) hscores
    (List.filterMap_cons_none (poisonFail_ownScratch hown)) (by rw [htlb]; exact hknow) ?_ ?_ hepoch, hkey, State.updThr_updThr]
  · rfl
  · intro hwr v va
    obtain ⟨hbudget, hmsc⟩ := hroom hwr
    have huse : ((s.holding tlb).updThr s.cur fun t => { t with know := know }).mscUse = s.mscUse := State.mscUse_updThr halive rfl
    rw [← hkey] at huse ⊢
    refine writeRoom_own hn ?_ (by omega)
    rw [State.thr_updThr_same, hr.ver, hkey]
    exact hbudget
  · rw [hkey, State.thr_updThr_same]
    exact hwp

/-! ## The bytes of the own scratch -/

/-- The bytes of a piece of the own scratch, none of which has been read early (R159). -/
theorem readPieces_own {s : State} {r : Req} {off n : Nat} (h : (s.thr r.key).earlyOf r.path = []) :
    readPieces r [ownPiece off n] s = .ok ((s.thr r.key).scratch.bytes off n, s) := by
  have hread : readPiece r (ownPiece off n) s = .ok ((s.thr r.key).scratch.bytes off n, s) := by
    simp [readPiece, ownPiece, Piece.space, h, withEarly, State.space]
  simp [readPieces, hread]

/-- The first ticket of a thread that holds none (R167). -/
theorem takeTicket_first {s : State} {key : Nat} {sq : Bool} (h : (s.thr key).tickets = []) :
    takeTicket key sq s = .ok (0, s.updThr key fun t => { t with tickets := t.tickets.put 0 { live := true, sq := sq, acq := [] } }) := by
  simp only [takeTicket, M.run_bind, M.run_getThr, Thread.freeTicket, h]
  rfl

/-- n bytes make a number of n bytes. -/
theorem leNat_lt (l : List Byte) : leNat l < 2 ^ (8 * l.length) := by
  induction l with
  | nil => simp [leNat]
  | cons b t ih =>
    have hb := b.isLt
    have hpow : 2 ^ (8 * (t.length + 1)) = 256 * 2 ^ (8 * t.length) := by rw [Nat.mul_succ, Nat.pow_add, Nat.mul_comm]
    simp only [leNat, List.length_cons]
    omega

theorem Memory.length_bytes (m : Memory) (a n : Nat) : (m.bytes a n).length = n := by
  induction n generalizing a with
  | zero => rfl
  | succ n ih => simp [Memory.bytes, ih]

/-- What is read of n bytes is a number of n bytes. -/
theorem Memory.readLE_lt (m : Memory) (a n : Nat) : m.readLE a n < 2 ^ (8 * n) := by
  have h := leNat_lt (m.bytes a n)
  rwa [Memory.length_bytes] at h

theorem sizeBytes_le (sz : Size) : sizeBytes sz ≤ 8 := by cases sz <;> decide

/-! ## A load of the own scratch -/

/-- A thread after a load of its sequencer: the value is in its register, its tickets and what it remembers of its loads have moved on. -/
def Thread.loaded (t : Thread) (tickets : NMap Ticket) (hist : NMap Hist) (xd : BitVec 5) (x : XReg) : Thread :=
  { t with tickets := tickets, hist := hist, live := (t.live.wx xd x).next }

/-- Two changes that make the same of a thread leave the same state. -/
theorem State.updThr_congr {s : State} {key : Nat} {f g : Thread → Thread} (h : f (s.thr key) = g (s.thr key)) :
    s.updThr key f = s.updThr key g := by
  simp only [State.updThr, h]

/-- What a load acquires goes to its ticket (R176). -/
theorem noteAcquire_plain {s : State} {key k : Nat} {clk : Clock} :
    ∃ tickets, noteAcquire key false (some k) clk s = .ok ((), s.updThr key fun t => { t with tickets := tickets }) :=
  ⟨_, congrArg (fun u => Except.ok ((), u)) (State.updThr_congr rfl)⟩

/-- A thread that remembers members of classes of WAITC has changed in nothing else (R156). -/
theorem Thread.remember_foldl (key : Nat) (classes : List Nat) (t : Thread) :
    ∃ hist, classes.foldl (fun t c => t.remember c (2 * t.serial) (t.clkOf key 0)) t = { t with hist := hist } := by
  induction classes generalizing t with
  | nil => exact ⟨t.hist, rfl⟩
  | cons c l ih => exact ih (t.remember c (2 * t.serial) (t.clkOf key 0))

/-- A word of the sequencer is remembered as a member of its classes of WAITC. -/
theorem noteWord_eq {s : State} {key : Nat} {classes : List Nat} :
    ∃ hist, noteWord key classes s = .ok ((), s.updThr key fun t => { t with hist := hist }) := by
  obtain ⟨hist, h⟩ := Thread.remember_foldl key classes (s.thr key)
  exact ⟨hist, congrArg (fun u => Except.ok ((), u)) (State.updThr_congr h)⟩

/-- A plain load of the own scratch by a thread without tickets (R192): the value of its bytes is in xd, and control passes on. -/
theorem loadWord_ownScratch {s : State} {off : Nat} {sz : Size} {xd xa : BitVec 5} {imm : W64} {signed : Bool} (hs : s.Settled)
    (hown : s.OwnScratch off (sizeBytes sz)) (hva : ((s.thr s.cur).rx xa).val + imm = scratchVa off) (htickets : (s.thr s.cur).tickets = []) :
    let v := (s.thr s.cur).scratch.readLE off (sizeBytes sz)
    ∃ tlb know epoch tickets hist x, x.val = (if signed then sextBytes (sizeBytes sz) v else BitVec.ofNat 64 v) ∧
      loadWord sz xd xa imm signed false 0 false s =
        .next (s.wordEnd ((s.noted tlb know epoch).updThr s.cur fun t => t.loaded tickets hist xd x)) := by
  intro v
  have ⟨_, _, _, _, _, _, _, _, hearly⟩ := hown
  obtain ⟨⟨hruns, -, -⟩, hcur, -, hlive, -⟩ := hs
  obtain ⟨tlb, know, epoch, hacc⟩ := access_ownScratch (r := smReq s s.cur false 0) (rd := true) (wr := false) hruns.1 hcur
    (smReq_own (Nat.zero_le _)) hown ((sizeBytes_le sz).trans (by decide)) (fun h => absurd h (by decide))
  have hthr := s.thr_noted tlb know epoch
  have hbytes : readPieces (smReq s s.cur false 0) [ownPiece off (sizeBytes sz)] (s.noted tlb know epoch) =
      .ok (((s.noted tlb know epoch).thr s.cur).scratch.bytes off (sizeBytes sz), s.noted tlb know epoch) :=
    readPieces_own (r := smReq s s.cur false 0) (by simp only [smReq, sqReq, hthr]; exact hearly)
  have htake := takeTicket_first (s := s.noted tlb know epoch) (key := s.cur) (sq := true) (by rw [hthr]; exact htickets)
  have hv : leNat (((s.noted tlb know epoch).thr s.cur).scratch.bytes off (sizeBytes sz)) = v := by rw [hthr]; rfl
  have hlt : v % 2 ^ (8 * sizeBytes sz) = v := Nat.mod_eq_of_lt (Memory.readLE_lt _ _ _)
  have hremote : remoteOf [ownPiece off (sizeBytes sz)] = none := rfl
  obtain ⟨tickets, hacq⟩ := noteAcquire_plain (key := s.cur) (k := 0) (clk := [])
    (s := (s.noted tlb know epoch).updThr s.cur fun t => { t with tickets := t.tickets.put 0 { live := true, sq := true, acq := [] } })
  obtain ⟨hist, hword⟩ := noteWord_eq (key := s.cur) (classes := [0])
    (s := (s.noted tlb know epoch).updThr s.cur fun t => { t with tickets := tickets })
  rw [State.updThr_updThr] at hacq
  refine ⟨tlb, know, epoch, tickets, hist,
    { val := if signed then sextBytes (sizeBytes sz) v else BitVec.ofNat 64 v
      taint := unionTaint [(s.thr s.cur).rx xa] ||| (1#16 <<< 0), sat := ((s.thr s.cur).rx xa).sat }, rfl, sqWord_ok hruns ?_⟩
  rw [M.run_bind_ok (M.run_getThr _ _)]
  simp only [hva, Bool.false_eq_true, if_false]
  rw [M.run_bind_ok (settleSQ_none hlive _), M.run_bind_ok (M.run_get _), M.run_bind_ok hacc]
  simp only [List.forIn_cons, List.forIn_nil, bind_assoc, pure_bind, hremote]
  rw [M.run_bind_ok (peerWatch_own rfl), M.run_bind_ok hbytes, M.run_bind_ok (M.run_get _), hv, hlt, M.run_bind_ok htake, M.run_bind_ok hacq,
    M.run_bind_ok hword, M.run_modThr, State.updThr_updThr, State.updThr_updThr]
  refine congrArg (fun u => Except.ok ((), u)) (State.updThr_congr ?_)
  rw [hthr]
  rfl

/-! ## The bytes that a store writes -/

theorem length_natLE (n v : Nat) : (natLE n v).length = n := by
  induction n generalizing v with
  | zero => rfl
  | succ n ih => simp [natLE, ih]

/-- The bytes of a number, lowest first (R3). -/
theorem getElem_natLE {n v i : Nat} (h : i < (natLE n v).length) : (natLE n v)[i] = BitVec.ofNat 8 (v / 2 ^ (8 * i)) := by
  induction n generalizing v i with
  | zero => simp [natLE] at h
  | succ n ih =>
    cases i with
    | zero => simp [natLE]
    | succ i =>
      have hpow : 2 ^ (8 * (i + 1)) = 256 * 2 ^ (8 * i) := by rw [Nat.mul_succ, Nat.pow_add, Nat.mul_comm]
      simp only [natLE, List.getElem_cons_succ, ih, hpow, Nat.div_div_eq_div_mul]

theorem Memory.setBytes_append (m : Memory) (a : Nat) (l l' : List Byte) :
    (m.setBytes a l).setBytes (a + l.length) l' = m.setBytes a (l ++ l') := by
  induction l generalizing m a with
  | nil => rfl
  | cons b t ih =>
    have hnext : a + (t.length + 1) = a + 1 + t.length := by omega
    simp only [Memory.setBytes, List.cons_append, List.length_cons, hnext, ih]

/-- Bytes that are cut at blocks are written as they are uncut. -/
theorem Memory.setBytes_cutBytes {fuel a : Nat} {l : List Byte} (m : Memory) (h : l.length + a % 64 ≤ 64 * fuel) :
    (cutBytes fuel a l).foldl (fun m seg => m.setBytes seg.1 seg.2) m = m.setBytes a l := by
  induction fuel generalizing m a l with
  | zero =>
    obtain rfl : l = [] := List.eq_nil_of_length_eq_zero (by omega)
    rfl
  | succ fuel ih =>
    cases l with
    | nil => rfl
    | cons b t =>
      simp only [cutBytes]
      split
      · rfl
      next hlong =>
        have hdrop := List.length_drop (i := 64 - a % 64) (l := b :: t)
        have htake : ((b :: t).take (64 - a % 64)).length = 64 - a % 64 := by rw [List.length_take]; omega
        rw [List.foldl_cons, ih _ (by omega)]
        have happ := m.setBytes_append a ((b :: t).take (64 - a % 64)) ((b :: t).drop (64 - a % 64))
        rwa [htake, List.take_append_drop] at happ

/-! ## A store to the own scratch -/

/-- The state with other releases recorded and another count of writes. -/
def State.booked (s : State) (rels : List RelRec) (stamp : Nat) : State := { s with rels := rels, stamp := stamp }

@[simp] theorem State.thr_booked (s : State) (rels : List RelRec) (stamp k : Nat) : (s.booked rels stamp).thr k = s.thr k := rfl

theorem State.booked_updThr (s : State) (k : Nat) (f : Thread → Thread) (rels : List RelRec) (stamp : Nat) :
    (s.updThr k f).booked rels stamp = (s.booked rels stamp).updThr k f := rfl

/-- A thread whose scratch one of its versions has written. -/
def Thread.withWrite (t : Thread) (versions : List Version) (m : Memory) : Thread := { t with versions := versions, scratch := m }

theorem State.dropRels_eq {s : State} {sp : Space} {host : Bool} {a n : Nat} {ver : Option Nat} :
    ∃ rels, s.dropRels sp host a n ver = s.booked rels s.stamp := by
  unfold State.dropRels
  split
  · exact ⟨s.rels, rfl⟩
  · cases ver with
    | none => exact ⟨_, rfl⟩
    | some v => exact ⟨_, rfl⟩

/-- The share of one block in a write of a version. -/
def State.writeSeg (key ver : Nat) (sp : Space) (s : State) (seg : Nat × List Byte) : State :=
  let u := s.addUndo key ver
    { space := sp, line := seg.1 / 64, old := (s.space sp).block (seg.1 / 64), mask := byteMask (seg.1 % 64) seg.2.length
      oldTag := (s.space sp).tag seg.1, tagW := false, stamp := 0 }
  u.setSpace sp ((u.space sp).setBytes seg.1 seg.2)

theorem State.writeVer_eq (s : State) (key ver : Nat) (sp : Space) (a : Nat) (data : List Byte) :
    s.writeVer key ver sp a data = (cutBytes (data.length / 64 + 2) a data).foldl (State.writeSeg key ver sp) s := rfl

section
variable {s : State} {key ver : Nat}

/-- The undo record of a write is kept by a version of the thread. -/
theorem State.addUndo_eq {u : Undo} :
    ∃ versions, s.addUndo key ver u = (s.booked s.rels (s.stamp + 1)).updThr key fun t => t.withWrite versions t.scratch := by
  unfold State.addUndo
  exact ⟨_, State.updThr_congr rfl⟩

/-- The share of a block is written to the scratch, and noted for the roll-back. -/
theorem State.writeSeg_scratch {seg : Nat × List Byte} : ∃ stamp versions, s.writeSeg key ver (.scratch key) seg =
    (s.booked s.rels stamp).updThr key fun t => t.withWrite versions (t.scratch.setBytes seg.1 seg.2) := by
  obtain ⟨versions, hundo⟩ := State.addUndo_eq (s := s) (key := key) (ver := ver)
    (u := { space := .scratch key, line := seg.1 / 64, old := (s.space (.scratch key)).block (seg.1 / 64),
            mask := byteMask (seg.1 % 64) seg.2.length, oldTag := (s.space (.scratch key)).tag seg.1, tagW := false, stamp := 0 })
  refine ⟨s.stamp + 1, versions, ?_⟩
  simp only [State.writeSeg, hundo]
  simp only [State.setSpace, State.space, State.thr_updThr_same, State.updThr_updThr]
  rfl

/-- The shares of the blocks are written to the scratch one after another. -/
theorem State.writeSegs_scratch (halive : (s.thr key).alive = true) (segs : List (Nat × List Byte)) : ∃ stamp versions,
    segs.foldl (State.writeSeg key ver (.scratch key)) s = (s.booked s.rels stamp).updThr key fun t =>
      t.withWrite versions (segs.foldl (fun m seg => m.setBytes seg.1 seg.2) t.scratch) := by
  induction segs generalizing s with
  | nil => exact ⟨s.stamp, (s.thr key).versions, (State.updThr_id halive rfl).symm⟩
  | cons seg segs ih =>
    obtain ⟨stamp, versions, hseg⟩ := State.writeSeg_scratch (s := s) (key := key) (ver := ver) (seg := seg)
    obtain ⟨stamp', versions', hrest⟩ := ih (s := s.writeSeg key ver (.scratch key) seg) (by rw [hseg, State.thr_updThr_same]; exact halive)
    refine ⟨stamp', versions', ?_⟩
    rw [List.foldl_cons, hrest, hseg, State.booked_updThr, State.updThr_updThr]
    rfl

/-- What a version writes to the scratch of its thread is written there, and noted for the roll-back (R378). -/
theorem State.writeVer_scratch (halive : (s.thr key).alive = true) {a : Nat} {data : List Byte} : ∃ stamp versions,
    s.writeVer key ver (.scratch key) a data =
      (s.booked s.rels stamp).updThr key fun t => t.withWrite versions (t.scratch.setBytes a data) := by
  obtain ⟨stamp, versions, h⟩ := State.writeSegs_scratch (ver := ver) halive (cutBytes (data.length / 64 + 2) a data)
  refine ⟨stamp, versions, ?_⟩
  rw [State.writeVer_eq, h]
  exact State.updThr_congr (congrArg _ (Memory.setBytes_cutBytes _ (by omega)))

end

/-- Bytes written to a piece of the own scratch by the sequencer. -/
theorem writePieces_own {s : State} {r : Req} {off n : Nat} {data : List Byte} (halive : (s.thr r.key).alive = true) (hpath : r.path = 0)
    (hlen : data.length = n) : ∃ rels stamp versions, writePieces r [ownPiece off n] data s =
      .ok ((), (s.booked rels stamp).updThr r.key fun t => t.withWrite versions (t.scratch.setBytes off data)) := by
  obtain ⟨rels, hrels⟩ := State.dropRels_eq (s := s) (sp := .scratch r.key) (host := false) (a := off) (n := n) (ver := s.liveVer r.key r.ver)
  obtain ⟨stamp, versions, hwrite⟩ := State.writeVer_scratch (s := s.booked rels s.stamp) (key := r.key) (ver := r.ver) (a := off)
    (data := data) halive
  have hput : putPiece r (ownPiece off n) data s =
      .ok ((), (s.dropRels (.scratch r.key) false off n (s.liveVer r.key r.ver)).writeVer r.key r.ver (.scratch r.key) off data) := rfl
  refine ⟨rels, stamp, versions, ?_⟩
  have hone : writePiece r (ownPiece off n) data s =
      .ok ((), (s.booked rels stamp).updThr r.key fun t => t.withWrite versions (t.scratch.setBytes off data)) := by
    rw [hrels, hwrite] at hput
    exact (M.run_bind_ok hput).trans (peerWatch_own rfl)
  have htake : data.take (ownPiece off n).len = data := List.take_of_length_le hlen.le
  simp only [writePieces, hpath, ne_eq, not_true_eq_false, if_false, writeLocal, shareBytes, forEach, htake]
  exact M.run_bind_ok hone

/-- A thread after a store of its sequencer: its scratch holds the bytes, its version and what it remembers of its stores have moved on. -/
def Thread.stored (t : Thread) (versions : List Version) (hist : NMap Hist) (m : Memory) : Thread :=
  { t with versions := versions, hist := hist, scratch := m, live := t.live.next }

/-- A plain store to the own scratch (R192): the low bytes of xs are written there, and control passes on. -/
theorem storeWord_ownScratch {s : State} {off : Nat} {sz : Size} {xs xa : BitVec 5} {imm : W64} (hs : s.Settled)
    (hown : s.OwnScratch off (sizeBytes sz)) (hroom : s.MayWrite 128) (hva : ((s.thr s.cur).rx xa).val + imm = scratchVa off) :
    ∃ tlb know epoch rels stamp versions hist, storeWord sz xs xa imm false 0 false s =
      .next (s.wordEnd (((s.noted tlb know epoch).booked rels stamp).updThr s.cur fun t => t.stored versions hist
        (t.scratch.setBytes off (natLE (sizeBytes sz) ((s.thr s.cur).rx xs).val.toNat)))) := by
  obtain ⟨⟨hruns, -, -⟩, hcur, -, hlive, -⟩ := hs
  obtain ⟨tlb, know, epoch, hacc⟩ := access_ownScratch (r := smReq s s.cur false 0) (rd := false) (wr := true) hruns.1 hcur
    (smReq_own (Nat.zero_le _)) hown ((sizeBytes_le sz).trans (by decide)) (fun _ => hroom)
  have halive : ((s.noted tlb know epoch).thr s.cur).alive = true := by
    rw [State.thr_noted]
    exact hruns.1
  obtain ⟨rels, stamp, versions, hwrite⟩ := writePieces_own (r := smReq s s.cur false 0) (off := off) halive rfl
    (length_natLE (sizeBytes sz) ((s.thr s.cur).rx xs).val.toNat)
  obtain ⟨hist, hword⟩ := noteWord_eq (key := s.cur) (classes := [1]) (s := ((s.noted tlb know epoch).booked rels stamp).updThr s.cur fun t =>
    t.withWrite versions (t.scratch.setBytes off (natLE (sizeBytes sz) ((s.thr s.cur).rx xs).val.toNat)))
  have hremote : remoteOf [ownPiece off (sizeBytes sz)] = none := rfl
  have hkey : (smReq s s.cur false 0).key = s.cur := rfl
  refine ⟨tlb, know, epoch, rels, stamp, versions, hist, sqWord_ok hruns ?_⟩
  rw [M.run_bind_ok (M.run_getThr _ _)]
  simp only [hva, Bool.false_eq_true, if_false]
  rw [M.run_bind_ok (settleWrite_none hlive _), M.run_bind_ok (M.run_get _), M.run_bind_ok hacc]
  simp only [hremote]
  rw [M.run_bind_ok hwrite, hkey, M.run_bind_ok hword, M.run_advance, State.updThr_updThr, State.updThr_updThr]
  rfl

/-! ## What a word leaves of its thread -/

/-- A word that has been performed, by a thread that is not stepped and has no watchpoint hit, keeps what it has made of registers and memories. -/
theorem State.wordEnd_quiet {s u : State} (hstep : (u.thr s.cur).stepOn = false) (hhits : (u.thr s.cur).hits = []) :
    ((s.wordEnd u).thr s.cur).live = (u.thr s.cur).live ∧ ((s.wordEnd u).thr s.cur).scratch = (u.thr s.cur).scratch ∧
      (s.wordEnd u).hbm = u.hbm ∧ (s.wordEnd u).host = u.host ∧ (s.wordEnd u).staging = u.staging := by
  rw [State.wordEnd, State.wordDone_quiet hstep hhits]
  have hthr (v : State) : (v.countFor s.cur 1 1).thr s.cur = v.thr s.cur := by simp [State.thr]
  rw [hthr, State.thr_updThr_same, State.countFor_hbm, State.countFor_host, State.countFor_staging]
  exact ⟨rfl, rfl, rfl, rfl, rfl⟩

/-- A register other than x0 that is written reads back. -/
theorem Frame.rx_wx_same {f : Frame} {i : BitVec 5} {v : XReg} (h : i ≠ 0#5) : (f.wx i v).rx i = v := by
  rw [Frame.rx_wx, if_neg h, if_pos rfl]

/-- The other registers keep their values. -/
theorem Frame.rx_wx_other {f : Frame} {i j : BitVec 5} {v : XReg} (h : j ≠ i) : (f.wx i v).rx j = f.rx j := by
  rw [Frame.rx_wx, if_neg h]
  split
  next hzero => rw [hzero, Frame.rx_zero]
  next => rfl

/-- Where control passes to does not depend on a register. -/
theorem Frame.pc_next_wx (f : Frame) (i : BitVec 5) (v : XReg) : (f.wx i v).next.pc = f.next.pc := by
  unfold Frame.wx
  split
  · rfl
  · unfold Frame.next Frame.goto
    dsimp only
    split_ifs <;> rfl

section
variable {s : State} {off : Nat} {sz : Size} {xa : BitVec 5} (hs : s.Settled) (hown : s.OwnScratch off (sizeBytes sz))
  (hva : ((s.thr s.cur).rx xa).val = scratchVa off)
include hs hown hva

/-- LDU from the own scratch: what it leaves of the register frame and of the memories (R192). -/
theorem execLdu_ownScratch {xd : BitVec 5} (htickets : (s.thr s.cur).tickets = []) : ∃ t x, exec (.ldu sz xd xa 0) s = .next t ∧
    x.val = BitVec.ofNat 64 ((s.thr s.cur).scratch.readLE off (sizeBytes sz)) ∧
    (t.thr s.cur).live = ((s.thr s.cur).live.wx xd x).next ∧ (t.thr s.cur).scratch = (s.thr s.cur).scratch ∧
    t.hbm = s.hbm ∧ t.host = s.host ∧ t.staging = s.staging := by
  have hea : ((s.thr s.cur).rx xa).val + sx64 (0 : BitVec 13) = scratchVa off := by rw [hva]; exact BitVec.add_zero _
  obtain ⟨tlb, know, epoch, tickets, hist, x, hx, hexec⟩ := loadWord_ownScratch (xd := xd) (signed := false) hs hown hea htickets
  obtain ⟨⟨-, hstep, hhits⟩, -⟩ := hs
  refine ⟨_, x, hexec, hx, ?_⟩
  have hend := State.wordEnd_quiet (s := s) (u := (s.noted tlb know epoch).updThr s.cur fun t => t.loaded tickets hist xd x)
  rw [State.thr_updThr_same, State.thr_noted] at hend
  exact hend hstep hhits

/-- ST to the own scratch: what it leaves of the register frame and of the memories (R192). -/
theorem execSt_ownScratch {xs : BitVec 5} (hroom : s.MayWrite 128) : ∃ t, exec (.st sz xs xa 0) s = .next t ∧
    (t.thr s.cur).live = (s.thr s.cur).live.next ∧
    (t.thr s.cur).scratch = (s.thr s.cur).scratch.setBytes off (natLE (sizeBytes sz) ((s.thr s.cur).rx xs).val.toNat) ∧
    t.hbm = s.hbm ∧ t.host = s.host ∧ t.staging = s.staging := by
  have hea : ((s.thr s.cur).rx xa).val + sx64 (0 : BitVec 13) = scratchVa off := by rw [hva]; exact BitVec.add_zero _
  obtain ⟨tlb, know, epoch, rels, stamp, versions, hist, hexec⟩ := storeWord_ownScratch (xs := xs) hs hown hroom hea
  obtain ⟨⟨-, hstep, hhits⟩, -⟩ := hs
  refine ⟨_, hexec, ?_⟩
  have hend := State.wordEnd_quiet (s := s) (u := ((s.noted tlb know epoch).booked rels stamp).updThr s.cur fun t =>
    t.stored versions hist (t.scratch.setBytes off (natLE (sizeBytes sz) ((s.thr s.cur).rx xs).val.toNat)))
  rw [State.thr_updThr_same, State.thr_booked, State.thr_noted] at hend
  exact hend hstep hhits

end

end Sys2Proof.Machine

namespace Sys2Proof
open Machine

/-- Settles O12: the access is that of one piece of the scratch, whose bytes the word moves. -/
theorem scratchAccessesMoveBytes : Obligations.ScratchAccessesMoveBytes := by
  unfold Obligations.ScratchAccessesMoveBytes
  refine ⟨?_, ?_⟩
  · intro s off sz xd xa hs hown hva htickets hxd
    obtain ⟨t, x, hexec, hx, hlive, hscratch, hhbm, hhost, hstaging⟩ := execLdu_ownScratch (xd := xd) hs hown hva htickets
    have hrx (j : BitVec 5) : (t.thr s.cur).rx j = ((s.thr s.cur).live.wx xd x).rx j := by rw [Thread.rx, hlive, Frame.rx_next]
    refine ⟨t, hexec, ?_, fun j hj => ?_, hscratch, ?_, ?_, hhbm, hhost, hstaging, ?_⟩
    · rw [hrx, Frame.rx_wx_same hxd, hx]
    · rw [hrx, Frame.rx_wx_other hj, Thread.rx]
    · rw [hlive, Frame.next_f, Frame.wx_f]
    · rw [hlive, Frame.next_vtype, Frame.wx_vtype]
    · rw [hlive, Frame.pc_next_wx]
  · intro s off sz xs xa hs hown hroom hva
    obtain ⟨t, hexec, hlive, hscratch, hhbm, hhost, hstaging⟩ := execSt_ownScratch (xs := xs) hs hown hva hroom
    have ⟨_, _, _, _, _, _, _, hwf, _⟩ := hown
    refine ⟨t, hexec, fun i hi => ?_, fun a ha => ?_, fun j => ?_, hhbm, hhost, hstaging, ?_, ?_, ?_, ?_⟩
    · rw [hscratch, Memory.byte_setBytes_inside hwf (by rwa [length_natLE]), getElem_natLE]
    · rw [hscratch, Memory.byte_setBytes_outside hwf (by rwa [length_natLE])]
    · rw [Thread.rx, hlive, Frame.rx_next, Thread.rx]
    · rw [hscratch]
      exact Memory.wf_setBytes hwf _ _
    · rw [hlive]
    · rw [hlive, Frame.next_f]
    · rw [hlive, Frame.next_ctaint]

end Sys2Proof
end

section
/-! A step performs the turn of the schedule: the word that a thread stands at, the operation of an interpreter, or an event. -/

namespace Sys2Proof.Machine

/-! ## What is due of a thread, and the word that it stands at -/

/-- A thread whose turn it is to issue has nothing due before its word. -/
theorem State.due_of_issues {s : State} {key : Nat} (h : s.Issues key) : s.due key = .word := by
  obtain ⟨halive, hresident, hstopped, hbnd, hthread⟩ := h
  have hruns : (s.thr key).runs = true := by simp [Thread.runs, halive, hresident]
  unfold State.due
  simp only [hruns, hstopped, hbnd, Bool.not_true, Bool.or_self, Bool.false_eq_true, if_false, Option.isSome_none]
  by_cases hkey : passBase ≤ key
  · rw [if_pos hkey]
  · obtain ⟨hreports, hstep, hreload, hepi, hbreak⟩ := hthread (by omega)
    have hepicommit : ((s.thr key).live.task.epicommit && !(s.thr key).live.epiTaken &&
        decide ((s.thr key).live.pc = (s.thr key).live.task.epiPc)) = false := by
      obtain h | h | h := hepi <;> simp [h]
    rw [if_neg hkey, hreports, hstep, hreload, hepicommit]
    obtain hpast | hnone := hbreak
    · simp [hpast]
    · simp [hnone]

/-- Its turn is that of its word. -/
theorem State.issue_of_issues {s : State} {key : Nat} (h : s.Issues key) : s.issue key = s.issueWord key := by
  rw [State.issue, State.due_of_issues h]

section
variable {s : State} {key : Nat}

theorem State.issueWord_decodes {w : W32} {i : Instr} (hw : s.wordAt (s.thr key) = some w) (hi : decodeWord w.toNat = .ok i) :
    s.issueWord key = State.issued key (exec i { s with cur := key }) := by
  simp only [State.issueWord, hw, hi]

theorem State.issueWord_undecoded {w : W32} {e : DecodeError} (hw : s.wordAt (s.thr key) = some w) (he : decodeWord w.toNat = .error e) :
    s.issueWord key = .next (s.badWord key) := by
  simp only [State.issueWord, hw, he]

theorem State.issueWord_outside (hw : s.wordAt (s.thr key) = none) : s.issueWord key = .next (s.badWord key) := by
  simp only [State.issueWord, hw]

end

/-- A busy interpreter of a package that runs performs the operation that it stands at. -/
theorem State.interpTurn_decodes {s : State} {it : Nat} {w : W32} {i : Instr} (hbusy : (s.interps.get it).busy = true) (hrun : s.stopped = false)
    (hw : s.opAt it = some w) (hi : decodeSparge w.toNat = .ok i) : s.interpTurn it = exec i { s with curI := it } := by
  simp only [State.interpTurn, hbusy, hrun, hw, Option.map_some, hi, Bool.not_true, Bool.or_self, Bool.false_eq_true, if_false]

/-! ## The turn that a step gives -/

theorem State.ticked_turns (s : State) : s.ticked.turns = s.turns := by
  unfold State.ticked
  split <;> rfl

/-- What starts at a tick is its step. -/
theorem step_timed {s t : State} (h : s.ticked.timedNow = some t) : step s = .next t := by
  simp only [step, h]

/-- The first turn of the schedule is the step's when nothing starts at its tick. -/
theorem step_scheduled {s : State} {t : Turn} {rest : List Turn} (hturns : s.turns = t :: rest) (htimed : s.ticked.timedNow = none) :
    step s = runTurn t { s.ticked with turns := rest } := by
  have hnext : s.ticked.nextTurn = (t, { s.ticked with turns := rest }) := by simp only [State.nextTurn, s.ticked_turns, hturns]
  simp only [step, htimed, hnext]

/-- A tick passes in the tick counter alone. -/
theorem State.ticked_eq (s : State) : ∃ n, s.ticked = { s with tick := n } := by
  unfold State.ticked
  split
  · exact ⟨s.tick, rfl⟩
  · exact ⟨s.tick + 1, rfl⟩

section
variable {s : State} {key : Nat} {rest : List Turn}

/-- Neither a tick nor the schedule bears on whether a thread issues. -/
theorem State.issues_ticked (h : s.Issues key) : State.Issues { s.ticked with turns := rest } key := by
  obtain ⟨n, hn⟩ := s.ticked_eq
  rw [hn]
  exact h

/-- Neither a tick nor the schedule bears on the word that a thread stands at. -/
theorem State.wordAt_ticked :
    State.wordAt { s.ticked with turns := rest } (State.thr { s.ticked with turns := rest } key) = s.wordAt (s.thr key) := by
  obtain ⟨n, hn⟩ := s.ticked_eq
  rw [hn]
  rfl

/-- The step of a thread that issues at its turn is its word. -/
theorem step_issues (hturns : s.turns = .issue key :: rest) (htimed : s.ticked.timedNow = none)
    (h : State.Issues { s.ticked with turns := rest } key) : step s = State.issueWord { s.ticked with turns := rest } key :=
  (step_scheduled hturns htimed).trans (State.issue_of_issues h)

end

/-! ## The word that `withFetchWord` places -/

section
variable {s : State} {w : Nat} {i : Instr} (hw : decodeWord w = .ok i)
include hw

/-- A word of the instruction set is placed as the one word of the text that thread 0 of context 0 stands at, and its turn is the schedule's. -/
theorem State.withFetchWord_word : (s.withFetchWord 32 w).turns = [.issue 0] ∧ (s.withFetchWord 32 w).thr 0 = fetchThread ∧
    (s.withFetchWord 32 w).ctx 0 = fetchCtx ∧ ((s.withFetchWord 32 w).images.get 0).text = [BitVec.ofNat 32 w] ∧
    (s.withFetchWord 32 w).stopped = s.stopped := by
  unfold State.withFetchWord
  simp only [hw, Bool.not_false, Bool.true_or, if_true]
  exact ⟨trivial, NMap.get_put_same _ _ _, NMap.get_put_same _ _ _, by rw [NMap.get_put_same], rfl⟩

/-- That thread issues at its turn while the package runs: nothing is due of it, and context 0 has no breakpoint. -/
theorem State.withFetchWord_issues (hrun : s.stopped = false) : (s.withFetchWord 32 w).Issues 0 := by
  obtain ⟨-, hthr, hctx, -, hstopped⟩ := State.withFetchWord_word (s := s) hw
  have hbreak : (s.withFetchWord 32 w).breakAt fetchThread = none := by
    have hcid : (s.withFetchWord 32 w).ctx fetchThread.cid = fetchCtx := hctx
    simp only [State.breakAt, hcid]
    decide
  rw [State.Issues, hthr, hstopped]
  exact ⟨rfl, rfl, hrun, rfl, fun _ => ⟨rfl, rfl, rfl, .inl rfl, .inr hbreak⟩⟩

/-- The word is the one that thread 0 stands at. -/
theorem State.withFetchWord_wordAt : (s.withFetchWord 32 w).wordAt ((s.withFetchWord 32 w).thr 0) = some (BitVec.ofNat 32 w) := by
  obtain ⟨-, hthr, -, htext, -⟩ := State.withFetchWord_word (s := s) hw
  have hslot : (s.withFetchWord 32 w).text fetchThread = [BitVec.ofNat 32 w] := htext
  rw [State.wordAt, hthr, hslot]
  rfl

end

end Sys2Proof.Machine

namespace Sys2Proof
open Machine

/-- Settles O55: the turn is the schedule's first; a thread that issues has only its word due, and an interpreter its operation. -/
theorem stepRunsDecoded : Obligations.StepRunsDecoded := by
  unfold Obligations.StepRunsDecoded
  refine ⟨?_, ?_, fun _ _ _ => step_scheduled, fun _ _ _ => step_scheduled, fun _ _ => step_timed, ?_⟩
  · intro s key rest hturns htimed n hn
    rw [step_issues hturns htimed hn]
    exact ⟨fun _ _ => State.issueWord_decodes, fun _ _ => State.issueWord_undecoded, fun hout =>
      State.issueWord_outside (List.getElem?_eq_none hout)⟩
  · intro s it rest w i hturns htimed n x hbusy hrun hw hi
    exact (step_scheduled hturns htimed).trans (State.interpTurn_decodes hbusy hrun hw hi)
  · intro s w i hrun hlt hi htimed
    rw [step_issues (State.withFetchWord_word hi).1 htimed (State.issues_ticked (State.withFetchWord_issues hi hrun))]
    refine State.issueWord_decodes (State.wordAt_ticked.trans (State.withFetchWord_wordAt hi)) ?_
    rwa [BitVec.toNat_ofNat, Nat.mod_eq_of_lt hlt]

end Sys2Proof
end

section
/-! The encoder and the decoder agree: the fields of a word, read one by one (R28, R31 to R39, R317). -/

namespace Sys2Proof

/-! ## The fields of a word that is put together -/

theorem fld_or (a b lo n : Nat) : fld (a ||| b) lo n = fld a lo n ||| fld b lo n := by
  simp only [fld, ← Nat.shiftRight_eq_div_pow, Nat.shiftRight_or_distrib, Nat.or_mod_two_pow]

/-- A word with the one field x, its lowest bit at k. -/
def place {m : Nat} (k : Nat) (x : BitVec m) : Nat := 2 ^ k * x.toNat

theorem fld_place_same {m : Nat} (k : Nat) (x : BitVec m) : fld (place k x) k m = x.toNat := by
  rw [fld, place, Nat.mul_div_cancel_left _ (Nat.two_pow_pos k), Nat.mod_eq_of_lt x.isLt]

theorem place_lt {m k n : Nat} (x : BitVec m) (h : k + m ≤ n) : place k x < 2 ^ n :=
  calc 2 ^ k * x.toNat < 2 ^ k * 2 ^ m := Nat.mul_lt_mul_of_pos_left x.isLt (Nat.two_pow_pos k)
    _ = 2 ^ (k + m) := (Nat.pow_add 2 k m).symm
    _ ≤ 2 ^ n := Nat.pow_le_pow_right (by decide) h

theorem fld_place_apart {m k lo n : Nat} (x : BitVec m) (h : k + m ≤ lo ∨ lo + n ≤ k) : fld (place k x) lo n = 0 := by
  obtain h | h := h
  · rw [fld, Nat.div_eq_of_lt (place_lt x h), Nat.zero_mod]
  · obtain ⟨d, rfl⟩ := Nat.exists_eq_add_of_le h
    rw [fld, place, Nat.pow_add, Nat.pow_add, Nat.mul_assoc, Nat.mul_assoc, Nat.mul_div_cancel_left _ (Nat.two_pow_pos lo),
      Nat.mul_mod_right]

/-- A field that is added where a word is zero is put beside what the word holds. -/
theorem add_place {m k b : Nat} (x : BitVec m) (h : fld b k m = 0) : b + x.toNat * 2 ^ k = b ||| place k x := by
  have hmid : b / 2 ^ k = 2 ^ m * (b / 2 ^ k / 2 ^ m) := by
    have := Nat.div_add_mod (b / 2 ^ k) (2 ^ m)
    rw [fld] at h
    omega
  have hb : b = 2 ^ k * (2 ^ m * (b / 2 ^ k / 2 ^ m)) + b % 2 ^ k := by rw [← hmid, Nat.div_add_mod]
  generalize b / 2 ^ k / 2 ^ m = hi at hb
  have hlow : b % 2 ^ k < 2 ^ k := Nat.mod_lt _ (Nat.two_pow_pos k)
  generalize b % 2 ^ k = low at hb hlow
  have hor (a : Nat) := Nat.two_pow_add_eq_or_of_lt hlow a
  calc b + x.toNat * 2 ^ k = 2 ^ k * (2 ^ m * hi + x.toNat) + low := by rw [hb]; ring
    _ = 2 ^ k * (2 ^ m * hi ||| x.toNat) ||| low := by rw [hor, Nat.two_pow_add_eq_or_of_lt x.isLt]
    _ = 2 ^ k * (2 ^ m * hi) ||| low ||| 2 ^ k * x.toNat := by
      rw [Nat.or_right_comm, Nat.mul_comm _ (_ ||| _), Nat.mul_comm _ (2 ^ m * hi), Nat.mul_comm _ x.toNat]
      simp only [← Nat.shiftLeft_eq, Nat.shiftLeft_or_distrib]
    _ = b ||| place k x := by rw [hb, hor, place]

theorem fld_or_apart {m k b lo n : Nat} (x : BitVec m) (h : k + m ≤ lo ∨ lo + n ≤ k) :
    fld (b ||| place k x) lo n = fld b lo n := by
  rw [fld_or, fld_place_apart x h, Nat.or_zero]

theorem or_place_lt {m k b n : Nat} (x : BitVec m) (h : k + m ≤ n) : b ||| place k x < 2 ^ n ↔ b < 2 ^ n :=
  ⟨Nat.left_le_or.trans_lt, fun hb => Nat.or_lt_two_pow hb (place_lt x h)⟩

theorem word_cons {m k b : Nat} (x : BitVec m) (fs : List (Nat × Nat)) (h : fld b k m = 0) :
    word b ((k, x.toNat) :: fs) = word (b ||| place k x) fs := by
  rw [← add_place x h]; rfl

theorem word_nil (b : Nat) : word b [] = b := rfl

theorem bits_eq_ofNat_fld (w lo n : Nat) : bits w lo n = BitVec.ofNat n (fld w lo n) :=
  BitVec.eq_of_toNat_eq (by simp only [bits, fld, BitVec.toNat_ofNat, Nat.mod_mod])

/-- The base value of a word. -/
def lit (b : Nat) : Nat := b

theorem fld_lit (b lo n : Nat) : fld (lit b) lo n = b / 2 ^ lo % 2 ^ n := (rfl)

theorem lit_lt (b n : Nat) : lit b < n ↔ b < n := Iff.rfl

/-! ## The codes of operands -/

/-- The codes of an operand type: n bits wide, and read back by their decoder alone. -/
structure Coding {α : Type} (n : Nat) (code : α → Nat) (ofCode? : Nat → Option α) : Prop where
  lt : ∀ a, code a < 2 ^ n
  ofCode_code : ∀ a, ofCode? (code a) = some a
  code_eq : ∀ {c a}, ofCode? c = some a → code a = c

/-- The code of a value as a field. -/
def codeBits {α : Type} (n : Nat) (code : α → Nat) (a : α) : BitVec n := BitVec.ofNat n (code a)

section
variable {α : Type} {n : Nat} {code : α → Nat} {ofCode? : Nat → Option α} (h : Coding n code ofCode?)
include h

theorem Coding.code_eq_toNat (a : α) : code a = (codeBits n code a).toNat :=
  (Nat.mod_eq_of_lt (h.lt a)).symm.trans (BitVec.toNat_ofNat _ _).symm

theorem Coding.ofCode_toNat (a : α) : ofCode? (codeBits n code a).toNat = some a := by
  rw [← h.code_eq_toNat, h.ofCode_code]

theorem Coding.eq_some_iff {c : Nat} {a : α} : ofCode? c = some a ↔ code a = c := ⟨h.code_eq, fun e => e ▸ h.ofCode_code a⟩

end

theorem Bool.code_eq_toNat (b : Bool) : Bool.code b = (BitVec.ofBool b).toNat := by cases b <;> rfl

theorem decide_toNat_ofBool (b : Bool) : decide ((BitVec.ofBool b).toNat = 1) = b := by cases b <;> rfl

theorem Size.coding : Coding 2 Size.code Size.ofCode? where
  lt a := by cases a <;> decide
  ofCode_code a := by cases a <;> rfl
  code_eq h := by unfold Size.ofCode? at h; split at h <;> cases h <;> rfl

theorem ExtSize.coding : Coding 5 ExtSize.code ExtSize.ofCode? where
  lt a := by cases a <;> decide
  ofCode_code a := by cases a <;> rfl
  code_eq h := by unfold ExtSize.ofCode? at h; split at h <;> cases h <;> rfl

theorem Scope.coding : Coding 4 Scope.code Scope.ofCode? where
  lt a := by cases a <;> decide
  ofCode_code a := by cases a <;> rfl
  code_eq h := by unfold Scope.ofCode? at h; split at h <;> cases h <;> rfl

theorem Order.coding : Coding 2 Order.code Order.ofCode? where
  lt a := by cases a <;> decide
  ofCode_code a := by cases a <;> rfl
  code_eq h := by unfold Order.ofCode? at h; split at h <;> cases h <;> rfl

theorem AOp.coding : Coding 4 AOp.code AOp.ofCode? where
  lt a := by cases a <;> decide
  ofCode_code a := by cases a <;> rfl
  code_eq h := by unfold AOp.ofCode? at h; split at h <;> cases h <;> rfl

theorem PrefTarget.coding : Coding 2 PrefTarget.code PrefTarget.ofCode? where
  lt a := by cases a <;> decide
  ofCode_code a := by cases a <;> rfl
  code_eq h := by unfold PrefTarget.ofCode? at h; split at h <;> cases h <;> rfl

theorem RcmOp.coding : Coding 2 RcmOp.code RcmOp.ofCode? where
  lt a := by cases a <;> decide
  ofCode_code a := by cases a <;> rfl
  code_eq h := by unfold RcmOp.ofCode? at h; split at h <;> cases h <;> rfl

theorem ESize.coding : Coding 2 ESize.code ESize.ofCode? where
  lt a := by cases a <;> decide
  ofCode_code a := by cases a <;> rfl
  code_eq h := by unfold ESize.ofCode? at h; split at h <;> cases h <;> rfl

theorem AtomTy.coding : Coding 2 AtomTy.code AtomTy.ofCode? where
  lt a := by cases a <;> decide
  ofCode_code a := by cases a <;> rfl
  code_eq h := by unfold AtomTy.ofCode? at h; split at h <;> cases h <;> rfl

theorem Cond.coding : Coding 3 Cond.code Cond.ofCode? where
  lt a := by cases a <;> decide
  ofCode_code a := by cases a <;> rfl
  code_eq h := by unfold Cond.ofCode? at h; split at h <;> cases h <;> rfl

theorem Ty.coding : Coding 4 Ty.code Ty.ofCode? where
  lt a := by cases a <;> decide
  ofCode_code a := by cases a <;> rfl
  code_eq h := by unfold Ty.ofCode? at h; split at h <;> cases h <;> rfl

theorem RSel.coding : Coding 2 RSel.code RSel.ofCode? where
  lt a := by cases a <;> decide
  ofCode_code a := by cases a <;> rfl
  code_eq h := by unfold RSel.ofCode? at h; split at h <;> cases h <;> rfl

theorem RedOp.coding : Coding 3 RedOp.code RedOp.ofCode? where
  lt a := by cases a <;> decide
  ofCode_code a := by cases a <;> rfl
  code_eq h := by unfold RedOp.ofCode? at h; split at h <;> cases h <;> rfl

theorem RMode.coding : Coding 3 RMode.code RMode.ofCode? where
  lt a := by cases a <;> decide
  ofCode_code a := by cases a <;> rfl
  code_eq h := by unfold RMode.ofCode? at h; split at h <;> cases h <;> rfl

theorem MMem.coding : Coding 2 MMem.code MMem.ofCode? where
  lt a := by cases a <;> decide
  ofCode_code a := by cases a <;> rfl
  code_eq h := by unfold MMem.ofCode? at h; split at h <;> cases h <;> rfl

theorem OutTy.coding : Coding 2 OutTy.code OutTy.ofCode? where
  lt a := by cases a <;> decide
  ofCode_code a := by cases a <;> rfl
  code_eq h := by unfold OutTy.ofCode? at h; split at h <;> cases h <;> rfl

theorem RedTy.coding : Coding 2 RedTy.code RedTy.ofCode? where
  lt a := by cases a <;> decide
  ofCode_code a := by cases a <;> rfl
  code_eq h := by unfold RedTy.ofCode? at h; split at h <;> cases h <;> rfl

/-! ## Reading a word from its highest field on -/

/-- The bits of a word from bit k on. -/
def top (w k : Nat) : Nat := w / 2 ^ k * 2 ^ k

theorem div_eq_of_fld {w k m hi c : Nat} (hhi : w / 2 ^ (k + m) = hi) (hc : fld w k m = c) : w / 2 ^ k = hi * 2 ^ m + c := by
  rw [← hhi, ← hc, fld, Nat.pow_add, ← Nat.div_div_eq_div_mul, Nat.div_add_mod']

theorem top_eq (w : Nat) {k m : Nat} : top w k = top w (k + m) + fld w k m * 2 ^ k := by
  rw [top, div_eq_of_fld rfl rfl, top, Nat.pow_add, Nat.add_mul, Nat.mul_assoc, Nat.mul_comm (2 ^ m)]

/-- A word that agrees with w from bit j on, where its next field lies below bits that are zero in w. -/
theorem word_top_cons {w j k m e : Nat} {fs : List (Nat × Nat)} (hle : k + m ≤ j) (hz : fld w (k + m) (j - (k + m)) = 0) :
    word (top w j + e) ((k, fld w k m) :: fs) = word (top w k + e) fs := by
  have hgap : top w (k + m) = top w j := by
    rw [top_eq w (m := j - (k + m)), hz, Nat.zero_mul, Nat.add_zero, Nat.add_sub_cancel' hle]
  rw [top_eq w (k := k) (m := m), hgap, Nat.add_right_comm]
  rfl

theorem top_zero (w : Nat) : top w 0 = w := by simp only [top, pow_zero, Nat.div_one, Nat.mul_one]

theorem word_top_nil {w j e : Nat} (he : fld w 0 j = e) : word (top w j + e) [] = w := by
  have h := top_eq w (k := 0) (m := j)
  rw [top_zero, pow_zero, Nat.mul_one, Nat.zero_add, he] at h
  exact h.symm

/-- A word is put together from its fields when its opcode agrees with w and they go on from there. -/
theorem word_eq_of_div {w j hi b : Nat} {fs : List (Nat × Nat)} (hj : w / 2 ^ j = hi) (hb : hi * 2 ^ j ≤ b)
    (h : word (top w j + (b - hi * 2 ^ j)) fs = w) : word b fs = w := by
  rwa [top, hj, Nat.add_sub_cancel' hb] at h

theorem fld_width_zero (w lo : Nat) : fld w lo 0 = 0 := Nat.mod_one _

theorem toNat_bits (w lo n : Nat) : (bits w lo n).toNat = fld w lo n := BitVec.toNat_ofNat _ _

theorem code_decide_fld (w lo : Nat) : Bool.code (decide (fld w lo 1 = 1)) = fld w lo 1 := by
  obtain h | h : fld w lo 1 = 0 ∨ fld w lo 1 = 1 := Nat.mod_two_eq_zero_or_one _
  all_goals rw [h]; rfl


/-- The last step where the lowest a bits of the word are fixed. -/
theorem word_top_low {w a j e : Nat} (he : fld w 0 a = e) (hle : a ≤ j) (hz : fld w a (j - a) = 0) : word (top w j + e) [] = w := by
  have h := top_eq w (k := a) (m := j - a)
  rw [hz, Nat.zero_mul, Nat.add_zero, Nat.add_sub_cancel' hle] at h
  rw [← h]
  exact word_top_nil he

/-! ## Decoding what was encoded -/

/-- The words of classes SC, SB and SM (R31 to R33). -/
def Instr.isScalar : Instr → Bool
  | .add .. | .sub .. | .and .. | .or .. | .xor .. | .andn .. | .orn .. | .xnor .. | .shl .. | .shr .. | .sra .. | .rol .. | .ror ..
  | .mul .. | .mulh .. | .mulhu .. | .mulhsu .. | .div .. | .divu .. | .rem .. | .remu .. | .min .. | .max .. | .minu .. | .maxu ..
  | .seq .. | .slt .. | .sltu .. | .clz .. | .ctz .. | .popc .. | .brev .. | .sext .. | .zext .. | .addi .. | .andi .. | .ori ..
  | .xori .. | .slti .. | .sltiu .. | .muli .. | .lis .. | .lihs .. | .shli .. | .shri .. | .srai .. | .beq .. | .bne .. | .blt ..
  | .bge .. | .bltu .. | .bgeu .. | .jal .. | .jalr .. | .waitc .. | .spawn .. | .loop .. | .knext .. | .tend .. | .join .. | .leave ..
  | .bar .. | .gqry .. | .yield .. | .tsub .. | .ckpt .. | .movb .. | .gsel .. | .sysrd .. | .syswr .. | .trap .. | .bkpt .. | .eret ..
  | .tlbinv .. | .wpset .. | .wpclr .. | .cntclaim .. | .cntrel .. | .kegsave .. | .kegload .. | .flowdef .. | .winset .. | .waitf ..
  | .setf .. | .clrf .. | .waitfx .. | .fread .. | .tclr .. | .tclrv .. | .tclrc .. | .tqry .. | .ld .. | .ldu .. | .st .. | .lds ..
  | .sts .. | .atomw .. | .atomd .. | .casw .. | .casd .. | .fence .. | .pref .. | .rcm .. => true
  | _ => false

/-! For each word: its fields beside its base value, a reading of any field, and the row of the decoder that its opcode fields select.
A row is an instruction, one that asks for fields that are zero (`ite`), or one with a coded operand (`Option.bind`). -/

theorem decodeRaw_of_encode_scalar {i : Instr} {W : Nat} (hi : i.isScalar = true) (he : encode i = some W) :
    W < 2 ^ 32 ∧ decodeRaw W = some i := by
  cases i
  all_goals cases hi
  all_goals
    have hW : word (lit _) _ = W := Option.some.inj he
    simp only [ExtSize.coding.code_eq_toNat, Size.coding.code_eq_toNat, Scope.coding.code_eq_toNat, Order.coding.code_eq_toNat,
      AOp.coding.code_eq_toNat, PrefTarget.coding.code_eq_toNat, RcmOp.coding.code_eq_toNat, word_cons, word_nil, fld_or_apart, fld_lit,
      Nat.reducePow, Nat.reduceDiv, Nat.reduceMod, Nat.reduceAdd, Nat.reduceLeDiff, or_true] at hW
    have hr (lo n) : fld W lo n = fld _ lo n := congrArg (fld · lo n) hW.symm
    refine ⟨by rw [← hW]; simp only [or_place_lt, lit_lt, Nat.reduceAdd, Nat.reduceLeDiff]; decide, ?_⟩
    have h29 := hr 29 3
    have h24 := hr 24 5
    have h0 := hr 0 6
    have h25 := hr 25 4
    have h20 := hr 20 5
    have h22 := hr 22 3
    simp only [fld_or_apart, fld_lit, Nat.reduceAdd, Nat.reduceLeDiff, true_or, or_true] at h29 h24 h0 h25 h20 h22
    rw [decodeRaw, h29]
  case' add | sub | and | or | xor | andn | orn | xnor | shl | shr | sra | rol | ror | mul | mulh | mulhu | mulhsu | div | divu | rem
      | remu | min | max | minu | maxu | seq | slt | sltu | clz | ctz | popc | brev | sext | zext =>
    rw [decodeSC, h24, h0]; change ite _ _ _ = _
  case' addi | andi | ori | xori | slti | sltiu | muli | lis | lihs => rw [decodeSC, h24]; change some _ = _
  case' shli | shri | srai => rw [decodeSC, h24]; change ite _ _ _ = _
  case' beq | bne | blt | bge | bltu | bgeu | jal | jalr => rw [decodeSB, h25]; change some _ = _
  case' waitc => rw [decodeSB, h25]; change ite _ _ _ = _
  case' spawn => rw [decodeSB, h25, h20]; change some _ = _
  case' loop | knext | tend | join | leave | bar | gqry | yield | tsub | ckpt | movb | gsel | sysrd | syswr | trap | bkpt | eret | tlbinv
      | wpset | wpclr | cntclaim | cntrel | kegsave | kegload | flowdef | winset =>
    rw [decodeSB, h25, h20]; change ite _ _ _ = _
  case' waitf | setf | clrf | waitfx | fread | tclr | tclrv | tclrc | tqry => rw [decodeSB, h25, h22]; change ite _ _ _ = _
  case' ld | ldu | st | atomw | atomd => rw [decodeSM, h25]; change Option.bind _ _ = _
  case' lds | sts | casw | casd | fence | pref | rcm => rw [decodeSM, h25]; change ite _ _ _ = _
  all_goals simp only [hr, fld_or, fld_place_apart, fld_place_same, fld_lit, Nat.reducePow, Nat.reduceDiv, Nat.reduceMod, Nat.reduceAdd,
    Nat.reduceLeDiff, Nat.or_zero, Nat.zero_or, or_true, true_or, bits_eq_ofNat_fld, BitVec.ofNat_toNat, BitVec.setWidth_eq,
    ExtSize.coding.ofCode_toNat, Size.coding.ofCode_toNat, Scope.coding.ofCode_toNat, Order.coding.ofCode_toNat, AOp.coding.ofCode_toNat,
    PrefTarget.coding.ofCode_toNat, RcmOp.coding.ofCode_toNat, Option.bind_some, and_self, if_true]

theorem decodeRaw_of_encode_engine {i : Instr} {W : Nat} (hi : (i.isWord && !i.isScalar) = true) (he : encode i = some W) :
    W < 2 ^ 32 ∧ decodeRaw W = some i := by
  cases i
  all_goals cases hi
  all_goals
    have hW : word (lit _) _ = W := Option.some.inj he
    simp only [Bool.code_eq_toNat, ESize.coding.code_eq_toNat, AtomTy.coding.code_eq_toNat, Scope.coding.code_eq_toNat,
      Cond.coding.code_eq_toNat, Ty.coding.code_eq_toNat, RSel.coding.code_eq_toNat, RedOp.coding.code_eq_toNat,
      RMode.coding.code_eq_toNat, MMem.coding.code_eq_toNat, OutTy.coding.code_eq_toNat, RedTy.coding.code_eq_toNat,
      Size.coding.code_eq_toNat, word_cons, word_nil, fld_or_apart, fld_lit, Nat.reducePow, Nat.reduceDiv, Nat.reduceMod, Nat.reduceAdd,
      Nat.reduceLeDiff, or_true] at hW
    have hr (lo n) : fld W lo n = fld _ lo n := congrArg (fld · lo n) hW.symm
    refine ⟨by rw [← hW]; simp only [or_place_lt, lit_lt, Nat.reduceAdd, Nat.reduceLeDiff]; decide, ?_⟩
    have h29 := hr 29 3
    have h25 := hr 25 4
    have h24 := hr 24 1
    have h23 := hr 23 6
    have h22 := hr 22 1
    simp only [fld_or_apart, fld_lit, Nat.reduceAdd, Nat.reduceLeDiff, true_or] at h29 h25 h24 h23 h22
    rw [decodeRaw, h29]
  case' vld | vldx | vldt | vldb => rw [decodeVL, h25]; change some _ = _
  case' vlds | vbindi | vunbindi => rw [decodeVL, h25]; change ite _ _ _ = _
  case' vlwait | vlset => rw [decodeVL, h25, h24]; change ite _ _ _ = _
  case' vadd | vsub | vmul | vfma | vfnma | vmin | vmax | vdiv | vand | vor | vxor | vshl | vshr | vsra | vperm | vmix | vaddx | vmulx
      | vfmax | vscale =>
    rw [decodeVA, h23]; change some _ = _
  case' vabs | vneg | vsqrt | vrsq | vexp2 | vlog2 | vfclass | vsel | vpack | vunpk | vred | vargmax | vrot | vbcast | vextr | viota
      | vmov | vdrop | vcnt | vunif | kop | kpopc | vtagr | vrnd =>
    rw [decodeVA, h23]; change ite _ _ _ = _
  case' vcmp | vcvt => rw [decodeVA, h23]; change Option.bind _ _ = _
  case' vsett | vsettXa | vawait | vaset => rw [decodeVA, h23, h22]; change ite _ _ _ = _
  case' vst | vstx | vstt => rw [decodeVS, h25]; change some _ = _
  case' vsts | vbindo | vunbindo | vstrw => rw [decodeVS, h25]; change ite _ _ _ = _
  case' vatoma => rw [decodeVS, h25]; change Option.bind _ _ = _
  case' vswait | vsset => rw [decodeVS, h25, h24]; change ite _ _ _ = _
  case' mclaim | mrel | mxfer | mldw | mlda | mpass | mpassat | mdrain | mdrainv | mdrainp | mzero | mldv =>
    rw [decodeMX, h25]; change ite _ _ _ = _
  case' mxwait | mxset => rw [decodeMX, h25, h24]; change ite _ _ _ = _
  case' cpl | cpt | cpg | cps | cpstg | cptag | cpsig | cpconv => rw [decodeCP, h25]; change ite _ _ _ = _
  case' cpred | cpfill => rw [decodeCP, h25]; change Option.bind _ _ = _
  case' cpwait | cpset => rw [decodeCP, h25, h24]; change ite _ _ _ = _
  all_goals simp only [hr, fld_or, fld_place_apart, fld_place_same, fld_lit, Nat.reducePow, Nat.reduceDiv, Nat.reduceMod, Nat.reduceAdd,
    Nat.reduceLeDiff, Nat.or_zero, Nat.zero_or, or_true, true_or, bits_eq_ofNat_fld, BitVec.ofNat_toNat, BitVec.setWidth_eq,
    decide_toNat_ofBool, ESize.coding.ofCode_toNat, AtomTy.coding.ofCode_toNat, Scope.coding.ofCode_toNat, Cond.coding.ofCode_toNat,
    Ty.coding.ofCode_toNat, RSel.coding.ofCode_toNat, RedOp.coding.ofCode_toNat, RMode.coding.ofCode_toNat, MMem.coding.ofCode_toNat,
    OutTy.coding.ofCode_toNat, RedTy.coding.ofCode_toNat, Size.coding.ofCode_toNat, Option.bind_some, and_self, if_true]

theorem decodeSpargeRaw_of_encode {i : Instr} {W : Nat} (hi : i.isSparge = true) (he : encode i = some W) :
    W < 2 ^ 32 ∧ decodeSpargeRaw W = some i := by
  cases i
  all_goals cases hi
  all_goals
    have hW : word (lit _) _ = W := Option.some.inj he
    simp only [Size.coding.code_eq_toNat, word_cons, word_nil, fld_or_apart, fld_lit, Nat.reducePow, Nat.reduceDiv, Nat.reduceMod,
      Nat.reduceAdd, Nat.reduceLeDiff, or_true] at hW
    have hr (lo n) : fld W lo n = fld _ lo n := congrArg (fld · lo n) hW.symm
    refine ⟨by rw [← hW]; simp only [or_place_lt, lit_lt, Nat.reduceAdd, Nat.reduceLeDiff]; decide, ?_⟩
    have h0 := hr 0 8
    simp only [fld_or_apart, fld_lit, Nat.reduceAdd, Nat.reduceLeDiff, or_true] at h0
    rw [decodeSpargeRaw, h0]
  case' tld | tst => change some _ = _
  case' pld | est => change Option.bind _ _ = _
  case' qld | li | lih | mov | spargeAdd | spargeSub | spargeAnd | spargeOr | spargeXor | spargeAddi | spargeShli | spargeShri | ceq
      | cltu | clt | bz | bnz | jmp | spargeLoop | elaunch | egang | etile | ecopy | esignal | efence | reject | done =>
    change ite _ _ _ = _
  all_goals simp only [hr, fld_or, fld_place_apart, fld_place_same, fld_lit, Nat.reducePow, Nat.reduceDiv, Nat.reduceMod, Nat.reduceAdd,
    Nat.reduceLeDiff, Nat.or_zero, Nat.zero_or, or_true, true_or, bits_eq_ofNat_fld, BitVec.ofNat_toNat, BitVec.setWidth_eq,
    Size.coding.ofCode_toNat, Option.bind_some, if_true]

/-! ## Encoding what was decoded -/

theorem decodeRaw_elim {P : Prop} {w : Nat} {i : Instr} (h : decodeRaw w = some i)
    (sc : fld w 29 3 = 0 → decodeSC w = some i → P) (sb : fld w 29 3 = 1 → decodeSB w = some i → P)
    (sm : fld w 29 3 = 2 → decodeSM w = some i → P) (vl : fld w 29 3 = 3 → decodeVL w = some i → P)
    (va : fld w 29 3 = 4 → decodeVA w = some i → P) (vs : fld w 29 3 = 5 → decodeVS w = some i → P)
    (mx : fld w 29 3 = 6 → decodeMX w = some i → P) (cp : fld w 29 3 = 7 → decodeCP w = some i → P) : P := by
  unfold decodeRaw at h
  split at h
  case h_1 hc => exact sc hc h
  case h_2 hc => exact sb hc h
  case h_3 hc => exact sm hc h
  case h_4 hc => exact vl hc h
  case h_5 hc => exact va hc h
  case h_6 hc => exact vs hc h
  case h_7 hc => exact mx hc h
  case h_8 hc => exact cp hc h
  case h_9 => cases h

/-! For each row: hj holds the bits from its opcode on, and its fields go on from there, bits that the row asks to be zero between them. -/

theorem encode_of_decodeRaw {i : Instr} {w : Nat} (hw : w < 2 ^ 32) (h : decodeRaw w = some i) : encode i = some w := by
  have hdiv {c : Nat} : fld w 29 3 = c → w / 2 ^ 29 = 0 * 2 ^ 3 + c := div_eq_of_fld (Nat.div_eq_of_lt hw)
  generalize h25 : fld w 25 4 = op
  refine decodeRaw_elim h (fun hc => ?sc) (fun hc => ?sb) (fun hc => ?sm) (fun hc => ?vl) (fun hc => ?va) (fun hc => ?vs)
    (fun hc => ?mx) (fun hc => ?cp)
  case' sc =>
    generalize h24 : fld w 24 5 = op
    have hj := div_eq_of_fld (hdiv hc) h24
    rw [decodeSC, h24]
    split
    case' h_1 =>
      generalize h0 : fld w 0 6 = low
      have hnil j := word_top_low h0 (j := j)
      split
  case' sb =>
    generalize h20 : fld w 20 5 = op20
    generalize h22 : fld w 22 3 = op22
    have hj := div_eq_of_fld (hdiv hc) h25
    rw [decodeSB, h25, h20, h22]
    split
    on_goal 13 => have hj := div_eq_of_fld hj h20; split
    on_goal 12 => have hj := div_eq_of_fld hj h22; split
    on_goal 10 => have hj := div_eq_of_fld hj h22; split
    on_goal 9 => have hj := div_eq_of_fld hj h20; split
  case' sm =>
    have hj := div_eq_of_fld (hdiv hc) h25
    rw [decodeSM, h25]
    split
  case' vl =>
    generalize h24 : fld w 24 1 = set
    have hj := div_eq_of_fld (hdiv hc) h25
    rw [decodeVL, h25]
    split
    case' h_8 => have hj := div_eq_of_fld hj h24; rw [h24]; split
  case' va =>
    generalize h23 : fld w 23 6 = op
    generalize h22 : fld w 22 1 = sub
    have hj := div_eq_of_fld (hdiv hc) h23
    rw [decodeVA, h23, h22]
    split
    on_goal 48 => have hj := div_eq_of_fld hj h22; split
    on_goal 44 => have hj := div_eq_of_fld hj h22; split
  case' vs =>
    generalize h24 : fld w 24 1 = set
    have hj := div_eq_of_fld (hdiv hc) h25
    rw [decodeVS, h25]
    split
    case' h_9 => have hj := div_eq_of_fld hj h24; rw [h24]; split
  case' mx =>
    generalize h24 : fld w 24 1 = set
    have hj := div_eq_of_fld (hdiv hc) h25
    rw [decodeMX, h25]
    split
    case' h_11 =>
      intro h
      obtain ⟨⟨hzero, hmem⟩, h⟩ := Option.ite_none_right_eq_some.1 h
      have hj := div_eq_of_fld hj hmem
      revert h
    case' h_13 => have hj := div_eq_of_fld hj h24; rw [h24]; split
  case' cp =>
    generalize h24 : fld w 24 1 = set
    have hj := div_eq_of_fld (hdiv hc) h25
    rw [decodeCP, h25]
    split
    case' h_11 => have hj := div_eq_of_fld hj h24; rw [h24]; split
  all_goals
    simp only [Option.ite_none_right_eq_some, Option.bind_eq_some_iff, Option.some.injEq, and_imp, forall_exists_index, reduceCtorEq,
      false_imp_iff, Size.coding.eq_some_iff, ExtSize.coding.eq_some_iff, Scope.coding.eq_some_iff, Order.coding.eq_some_iff,
      AOp.coding.eq_some_iff, PrefTarget.coding.eq_some_iff, RcmOp.coding.eq_some_iff, ESize.coding.eq_some_iff,
      AtomTy.coding.eq_some_iff, Cond.coding.eq_some_iff, Ty.coding.eq_some_iff, RSel.coding.eq_some_iff, RedOp.coding.eq_some_iff,
      RMode.coding.eq_some_iff, MMem.coding.eq_some_iff, OutTy.coding.eq_some_iff, RedTy.coding.eq_some_iff]
  all_goals
    intros
    subst_vars
    refine congrArg some (word_eq_of_div hj (by decide) ?_)
    simp only [toNat_bits, code_decide_fld, word_top_cons, word_top_nil, fld_width_zero, Nat.reduceAdd, Nat.reduceMul, Nat.reducePow,
      Nat.reduceSub, Nat.reduceLeDiff, *]

theorem encode_of_decodeSpargeRaw {i : Instr} {w : Nat} (hw : w < 2 ^ 32) (h : decodeSpargeRaw w = some i) : encode i = some w := by
  generalize h0 : fld w 0 8 = op
  have hj : w / 2 ^ 32 = 0 := Nat.div_eq_of_lt hw
  have hnil j := word_top_low h0 (j := j)
  rw [decodeSpargeRaw, h0] at h
  revert h
  split
  all_goals
    simp only [Option.ite_none_right_eq_some, Option.bind_eq_some_iff, Option.some.injEq, and_imp, forall_exists_index, reduceCtorEq,
      false_imp_iff, Size.coding.eq_some_iff]
  all_goals
    intros
    subst_vars
    refine congrArg some (word_eq_of_div hj (by decide) ?_)
    simp only [toNat_bits, word_top_cons, Nat.reduceAdd, Nat.reduceMul, Nat.reducePow, Nat.reduceSub, Nat.reduceLeDiff, le_refl,
      fld_width_zero, *]

/-! ## The decodings of R29 and R30 -/

theorem checked_eq_ok_iff {o : Option Instr} {i : Instr} : checked o = .ok i ↔ o = some i ∧ i.wellFormed = true := by
  cases o with
  | none => exact ⟨nofun, nofun⟩
  | some j =>
    rw [checked, Option.some.injEq]
    split
    case isTrue h => exact ⟨fun e => by cases e; exact ⟨rfl, h⟩, fun e => e.1 ▸ rfl⟩
    case isFalse h => exact ⟨nofun, fun e => absurd (e.1 ▸ e.2) h⟩

theorem decodeRaw_of_encode {i : Instr} {w : Nat} (hi : i.isWord = true) (he : encode i = some w) : w < 2 ^ 32 ∧ decodeRaw w = some i := by
  cases hs : i.isScalar with
  | true => exact decodeRaw_of_encode_scalar hs he
  | false => exact decodeRaw_of_encode_engine (by rw [hi, hs]; rfl) he

theorem encode_isSome_of_isSparge {i : Instr} (hi : i.isSparge = true) : (encode i).isSome = true := by
  cases i
  all_goals cases hi
  all_goals rfl

/-- Settles O58: field by field; a word that is encoded reads back every field, and one that decodes is put together from its fields. -/
theorem decodeAndEncodeAgree : Obligations.DecodeAndEncodeAgree := by
  unfold Obligations.DecodeAndEncodeAgree
  refine ⟨?_, ?_, fun w i hw h => encode_of_decodeRaw hw (checked_eq_ok_iff.1 h).1,
    fun w i hw h => encode_of_decodeSpargeRaw hw (checked_eq_ok_iff.1 h).1⟩
  · intro i hwf hi
    obtain ⟨w, he⟩ := Option.isSome_iff_exists.1 (Bool.and_eq_true_iff.1 hi).1
    obtain ⟨hlt, hd⟩ := decodeRaw_of_encode hi he
    exact ⟨w, he, hlt, checked_eq_ok_iff.2 ⟨hd, hwf⟩⟩
  · intro i hwf hi
    obtain ⟨w, he⟩ := Option.isSome_iff_exists.1 (encode_isSome_of_isSparge hi)
    obtain ⟨hlt, hd⟩ := decodeSpargeRaw_of_encode hi he
    exact ⟨w, he, hlt, checked_eq_ok_iff.2 ⟨hd, hwf⟩⟩

end Sys2Proof
end

section
/-! Words written out from their formats (R31 to R39, R317). -/

namespace Sys2Proof

/-- The words of all zeros and of all ones are reserved (R29). -/
theorem decodeWord_zeros : decodeWord 0x00000000 = .error .reserved := rfl

theorem decodeWord_ones : decodeWord 0xFFFFFFFF = .error .reserved := rfl

/-- Settles O59: the decoder evaluated on each of the words. -/
theorem wordsDecodeAsSpecified : Obligations.WordsDecodeAsSpecified := by
  unfold Obligations.WordsDecodeAsSpecified
  simp only [List.forall_mem_cons]
  refine ⟨⟨rfl, rfl, rfl, rfl, rfl, rfl, rfl, rfl, rfl, rfl, rfl, rfl, rfl, rfl, rfl, rfl, rfl, rfl, rfl, rfl, List.forall_mem_nil _⟩,
    ⟨rfl, rfl, rfl, rfl, List.forall_mem_nil _⟩, fun i => ?_, fun i => ?_, nofun⟩
  · rw [decodeWord_zeros]
    exact nofun
  · rw [decodeWord_ones]
    exact nofun

end Sys2Proof
end

section
/-! Traps of system words: what is judged before anything else (R47, R399), and the stops that TRAP and BKPT raise (R369, R400). -/

namespace Sys2Proof.Machine

/-! ## Words judged before anything else -/

/-- The current thread's word traps with a cause and TRAP_ADDR its PC, and nothing else of it takes effect. -/
def State.wordTraps (s : State) (cause : Nat) : State :=
  s.takeTrap s.cur ((s.thr s.cur).sTrap (mkTrap cause (s.thr s.cur).live.pc 0))

section
variable {s : State} (h : s.Runs) {x : BitVec 5} {n : BitVec 10}
include h

/-- A word whose effect begins with ILLEGAL. -/
theorem sqWord_illegal {body : Nat → M Unit} (hb : body s.cur s = (illegal s.cur : M Unit) s) : sqWord body s = .next (s.wordTraps 1) :=
  sqWord_trap h (hb.trans (M.run_illegal _ _))

/-- A word whose effect begins with PRIV. -/
theorem sqWord_privFault {body : Nat → M Unit} (hb : body s.cur s = (privFault s.cur : M Unit) s) : sqWord body s = .next (s.wordTraps 2) :=
  sqWord_trap h (hb.trans (M.run_privFault _ _))

/-- SYSRD of a number that no register has, or of TRAP_CMD. -/
theorem exec_sysrd_illegal (hn : sysAllocated n.toNat = false ∨ n.toNat = 0x106) : exec (.sysrd x n) s = .next (s.wordTraps 1) := by
  rw [exec_sysrd, execSysrd]
  refine sqWord_illegal h ?_
  rcases hn with hn | hn <;> simp [hn]

/-- SYSWR of a number that no register has, or of a register without write access. -/
theorem exec_syswr_illegal (hn : sysAllocated n.toNat = false ∨ sysWritable n.toNat = false) :
    exec (.syswr x n) s = .next (s.wordTraps 1) := by
  rw [exec_syswr, execSyswr]
  refine sqWord_illegal h ?_
  rcases hn with hn | hn <;> simp [hn]

/-- SYSRD of a register above the thread's privilege. -/
theorem exec_sysrd_priv (hpriv : (s.thr s.cur).priv = 0) (hn : sysAllocated n.toNat = true) (hreg : n.toNat ≠ 0x106) (hone : n.toNat ≠ 0x001)
    (hneed : 0 < sysPriv n.toNat) : exec (.sysrd x n) s = .next (s.wordTraps 2) := by
  rw [exec_sysrd, execSysrd]
  refine sqWord_privFault h ?_
  simp [hn, hreg, hone, needPriv, hpriv, hneed]

/-- SYSWR of a register above the thread's privilege. -/
theorem exec_syswr_priv (hpriv : (s.thr s.cur).priv = 0) (hn : sysAllocated n.toNat = true) (hw : sysWritable n.toNat = true)
    (hneed : 0 < sysPriv n.toNat) : exec (.syswr x n) s = .next (s.wordTraps 2) := by
  rw [exec_syswr, execSyswr]
  refine sqWord_privFault h ?_
  simp [hn, hw, needPriv, hpriv, hneed]

/-- TLBINV without the privilege of a context's admin. -/
theorem exec_tlbinv_priv {xb : BitVec 5} (hpriv : (s.thr s.cur).priv = 0) : exec (.tlbinv x xb) s = .next (s.wordTraps 2) := by
  rw [exec_tlbinv, execTlbinv]
  refine sqWord_privFault h ?_
  simp [needPriv, hpriv]

/-- CNTCLAIM and CNTREL of a bank without the privilege of a context's admin. -/
theorem exec_cnt_priv (hpriv : (s.thr s.cur).priv = 0) (hn : n.toNat < 144) :
    exec (.cntclaim x n) s = .next (s.wordTraps 2) ∧ exec (.cntrel n) s = .next (s.wordTraps 2) := by
  have hbank : ¬ 144 ≤ n.toNat := Nat.not_le.2 hn
  rw [exec_cntclaim, execCntclaim, exec_cntrel, execCntrel]
  refine ⟨sqWord_privFault h ?_, sqWord_privFault h ?_⟩ <;> simp [hbank, needPriv, hpriv]

/-- CNTCLAIM and CNTREL of a number that no bank has. -/
theorem exec_cnt_illegal (hn : 144 ≤ n.toNat) :
    exec (.cntclaim x n) s = .next (s.wordTraps 1) ∧ exec (.cntrel n) s = .next (s.wordTraps 1) := by
  rw [exec_cntclaim, execCntclaim, exec_cntrel, execCntrel]
  refine ⟨sqWord_illegal h ?_, sqWord_illegal h ?_⟩ <;> simp [hn]

/-- ERET outside the service thread. -/
theorem exec_eret_priv (hpriv : (s.thr s.cur).priv < 2) : exec .eret s = .next (s.wordTraps 2) :=
  (if_pos hpriv).trans (sqWord_privFault h rfl)

end

end Sys2Proof.Machine
end

section
/-! What an update of the state leaves of where a thread stands: its run state, trap registers, place, x registers, restart point and versions. -/

namespace Sys2Proof.Machine

/-- Where a thread stands: what a stop records of it and what a RESUME goes on with. -/
structure Stand where
  run : Run
  trap : TrapRegs
  pc : Nat
  x : NMap XReg
  committed : Frame
  versions : List Nat

/-- Where a thread stands. -/
def Thread.stand (t : Thread) : Stand := ⟨t.run, t.trap, t.live.pc, t.live.x, t.committed, t.versions.map (·.id)⟩

/-- The versions of a thread, changed in anything but their numbers, are numbered as before. -/
theorem Thread.stand_versions {t : Thread} {f : Version → Version} (hf : ∀ v, (f v).id = v.id) :
    Thread.stand { t with versions := t.versions.map f } = t.stand := by
  simp [Thread.stand, Function.comp_def, hf]

/-- A read through a function that no entry of a table changes under. -/
theorem NMap.apply_get_map {α β : Type} [Inhabited α] (v : α → β) {f : Nat × α → Nat × α} (hkey : ∀ p, (f p).1 = p.1)
    (hv : ∀ p, v (f p).2 = v p.2) (m : NMap α) (k : Nat) : v (NMap.get (m.map f) k) = v (m.get k) := by
  induction m with
  | nil => rfl
  | cons p t ih =>
    obtain ⟨j, w⟩ := p
    have hj := hkey (j, w)
    have hw := hv (j, w)
    rcases hf : f (j, w) with ⟨j', w'⟩
    rw [hf] at hj hw
    obtain rfl : j' = j := hj
    simp only [List.map_cons, hf, NMap.get]
    split_ifs
    · exact hw
    · rfl
    · exact ih

/-- Every thread stands in a state where it stands in another. -/
def State.Stands (s u : State) : Prop := ∀ k, (u.thr k).stand = (s.thr k).stand

theorem State.Stands.refl {s : State} : s.Stands s := fun _ => rfl

theorem State.Stands.trans {s t u : State} (h : s.Stands t) (h' : t.Stands u) : s.Stands u := fun k => (h' k).trans (h k)

theorem State.Stands.ite {s t u : State} {c : Prop} [Decidable c] (ht : s.Stands t) (hu : s.Stands u) : s.Stands (if c then t else u) := by
  split <;> assumption

/-- An update that keeps the threads as they are. -/
theorem State.Stands.of_threads {s u : State} (h : u.threads = s.threads) : s.Stands u := fun k => by rw [State.thr, h, State.thr]

/-- An update of one thread that leaves it where it stands. -/
theorem State.Stands.updThr {s : State} {key : Nat} {f : Thread → Thread} (hf : (f (s.thr key)).stand = (s.thr key).stand) :
    s.Stands (s.updThr key f) := by
  intro k
  rw [State.thr_updThr]
  split
  · next h => rw [hf, h]
  · rfl

/-- An update of every thread that leaves each where it stands. -/
theorem State.Stands.map {s : State} {f : Nat × Thread → Nat × Thread} (hkey : ∀ p, (f p).1 = p.1) (hf : ∀ p, (f p).2.stand = p.2.stand) :
    s.Stands { s with threads := s.threads.map f } := fun k => NMap.apply_get_map Thread.stand hkey hf s.threads k

/-- An update of the versions of every thread in anything but their numbers. -/
theorem State.Stands.mapVersions {s : State} {f : Nat × Thread → Version → Version} (hf : ∀ p v, (f p v).id = v.id) :
    s.Stands { s with threads := s.threads.map fun p => (p.1, { p.2 with versions := p.2.versions.map (f p) }) } :=
  .map (fun _ => rfl) fun _ => Thread.stand_versions (hf _)

theorem State.Stands.updCtx {s : State} {cid : Nat} {f : Ctx → Ctx} : s.Stands (s.updCtx cid f) := .of_threads rfl

/-! ## Writes of the device -/

theorem State.Stands.setSpace {s : State} {sp : Space} {m : Memory} : s.Stands (s.setSpace sp m) := by
  cases sp with
  | hbm => exact .refl
  | scratch k => exact .updThr rfl
  | staging => exact .refl

theorem State.Stands.stripBy {s : State} {id : Nat} {recs : List Undo} : s.Stands (s.stripBy id recs) := by
  unfold State.stripBy
  split
  · exact .refl
  · exact .mapVersions fun _ v => by split <;> rfl

theorem State.Stands.writeCommitted {s : State} {sp : Space} {a : Nat} {data : List Byte} : s.Stands (s.writeCommitted sp a data) :=
  (State.Stands.stripBy (s := { s with stamp := s.stamp + 1 })).trans .setSpace

theorem State.Stands.markDirty {s : State} {cid : Nat} {p : Piece} : s.Stands (markDirty s cid p) :=
  .of_threads (by unfold Machine.markDirty; dsimp only; split_ifs <;> rfl)

theorem State.Stands.kilnWrite {s : State} {cid va : Nat} {data : List Byte} : s.Stands (s.kilnWrite cid va data) := by
  have hfold (l : List (Nat × Nat)) (f : State × List Byte → Nat × Nat → State × List Byte) (hf : ∀ (x : State × List Byte) p, x.1.Stands (f x p).1)
      (x : State × List Byte) : x.1.Stands (l.foldl f x).1 := by
    induction l generalizing x with
    | nil => exact .refl
    | cons p l ih => exact (hf x p).trans (ih (f x p))
  refine hfold _ _ (fun x p => ?_) (s, data)
  dsimp only
  split
  · split
    · exact .trans .markDirty .writeCommitted
    · exact .refl
  · exact .refl

theorem State.Stands.postEvent {s : State} {fn kind reason tag ring cid opindex code detail : Nat} :
    s.Stands (postEvent fn kind reason tag ring cid opindex code detail s) :=
  .of_threads (by unfold Machine.postEvent EvRec.post; dsimp only; split_ifs <;> rfl)

/-! ## Sets of local flags -/

theorem State.Stands.setFlagVal {s : State} {f : FlagRef} {v : W32} : s.Stands (s.setFlagVal f v) := by
  unfold State.setFlagVal
  exact .ite (.of_threads rfl) (.ite .refl (.updThr rfl))

/-- A wait on a local flag that is granted publishes nothing. -/
theorem State.Stands.serveWaiters {f : FlagRef} (hf : f.group = false) (l : List Waiter) {s : State} (done : List Waiter) :
    s.Stands (serveWaiters f l s done) := by
  induction l generalizing s done with
  | nil => exact .of_threads rfl
  | cons w l ih =>
    simp only [Machine.serveWaiters]
    by_cases hw : w.flag = f
    · have hgrant : s.grantOf w = s := by simp [State.grantOf, hw, hf]
      rw [hgrant]
      exact .ite (.ite (State.Stands.trans .setFlagVal (ih _)) (ih _)) (ih _)
    · rw [if_neg (by simp [hw])]
      exact ih _

theorem State.Stands.addFlag {s : State} {f : FlagRef} {n : Nat} {clk : Clock} {who : Setter} {ver : Option Nat} (hf : f.group = false) :
    s.Stands (s.addFlag f n clk who ver) := by
  unfold State.addFlag
  refine .ite .refl ?_
  simp only [hf, Bool.false_eq_true, if_false]
  refine .trans (.trans .setFlagVal (.updThr (key := f.owner) ?_)) (.serveWaiters hf _ _)
  exact (Thread.stand_versions fun v => by split <;> [split; skip] <;> rfl)

/-- Telling the handler of a trap, or the host, leaves every thread where it stands. -/
theorem State.Stands.notifyTrap {s : State} {key cause : Nat} : s.Stands (s.notifyTrap key cause) := by
  unfold State.notifyTrap
  refine .ite (.trans (.trans .kilnWrite .updCtx) (.addFlag ?_)) .postEvent
  rfl

/-! ## Leaving a slot -/

theorem State.Stands.stir {s : State} {p : Nat → Thread → Bool} : s.Stands (s.stir p) :=
  .map (fun x => by split <;> rfl) fun x => by split <;> rfl

/-- A thread that leaves its slot stands where the change puts it. -/
theorem Thread.stand_offSlot (t : Thread) : t.offSlot.stand = t.stand := by
  unfold Thread.offSlot
  split <;> rfl

end Sys2Proof.Machine
end

section
/-! TRAP and BKPT: a stop keeps the version of its thread, and the thread stands at the next word (R369, R373, R400). -/

namespace Sys2Proof.Machine

/-! ## The units of a thread stop -/

/-- No ticket of an empty set binds. -/
theorem Thread.bindMany_zero (t : Thread) : t.bindMany 0#16 = t := by
  have hfold (l : List Nat) : l.foldl (fun t k => if hasBit 0#16 k then t.bindTicket k else t) t = t := by
    induction l with
    | nil => rfl
    | cons k l ih => simp [hasBit]
  exact hfold _

/-- The units of a thread without live tickets stop: its frames and versions stay. -/
theorem Thread.stopUnits_frame {t : Thread} (h : t.liveTickets = 0#16) :
    t.stopUnits.live = t.live ∧ t.stopUnits.committed = t.committed ∧ t.stopUnits.heldLost = t.heldLost ∧ t.stopUnits.versions = t.versions := by
  rw [Thread.stopUnits, h, Thread.bindMany_zero]
  exact ⟨rfl, rfl, rfl, rfl⟩

/-- The waits of every unit of a thread are withdrawn: none of its versions waits any longer. -/
theorem State.thr_withdrawWaits_all (s : State) (key : Nat) : (s.withdrawWaits key fun _ => true).thr key =
    { s.thr key with versions := (s.thr key).versions.map fun v => { v with waiting := false, pend := none } } := by
  have hnone : ((s.waiters.filter fun w => !(decide (w.key = key) && true && !w.granted)).any
      fun w => decide (w.key = key) && !w.granted) = false := by
    simp only [List.any_eq_false, List.mem_filter]
    rintro w ⟨-, hw⟩
    revert hw
    cases w.granted <;> by_cases hk : w.key = key <;> simp [hk]
  unfold State.withdrawWaits
  simp only [hnone, Bool.false_eq_true, if_false, State.thr_updThr_same]
  rfl

/-- The state in which the units of a thread have stopped for a trap (R373). -/
def State.unitsStopped (s : State) (key : Nat) : State := (s.withdrawWaits key fun _ => true).updThr key Thread.stopUnits

/-- A thread of one version, no ticket of which is live, whose units have stopped. -/
theorem State.thr_unitsStopped {s : State} {key : Nat} {v : Version} (hlive : (s.thr key).liveTickets = 0#16)
    (hver : (s.thr key).versions = [v]) :
    let t := (s.unitsStopped key).thr key
    t.live = (s.thr key).live ∧ t.committed = (s.thr key).committed ∧ t.heldLost = (s.thr key).heldLost ∧
      t.versions = [{ v with waiting := false, pend := none }] := by
  have hwait := s.thr_withdrawWaits_all key
  have hkept := Thread.stopUnits_frame (t := (s.withdrawWaits key fun _ => true).thr key) (by rw [hwait]; exact hlive)
  rw [State.unitsStopped, State.thr_updThr_same]
  rwa [hwait, hver] at hkept ⊢

/-! ## A stop -/

/-- A thread that has left its slot, changed, stands where the change puts it. -/
theorem State.stand_leaveCore (s : State) (key : Nat) (f : Thread → Thread) : ((s.leaveCore key f).thr key).stand = (f (s.thr key)).stand := by
  refine (State.Stands.stir key).trans ?_
  rw [State.thr_updThr_same, Thread.stand_offSlot]

/-- What a stop writes to the trap registers, but for the cut of the queues (R370). -/
def Thread.stopRegs (t : Thread) (tr : Trap) (v : Version) (cut : W64) : TrapRegs :=
  { cause := BitVec.ofNat 64 tr.cause.toNat, addr := tr.addr, cut := cut, info := tr.info, pc := tr.pc, task := v.task, iter := t.live.iter
    state := BitVec.ofNat 64 (tr.cls.toNat + tr.unit.toNat * 4 + (if t.heldLost then 128 else 0) + tr.srcRank.toNat * 256 +
      tr.endpoint.toNat * 4294967296)
    ver := BitVec.ofNat 64 v.id }

/-- TRAP_STATE of a stop that a word raises: class S, unit SQ and no source rank, with HELDLOST (R370). -/
theorem Thread.stopRegs_state {t : Thread} {g : Frame → Frame} {cause addr info : Nat} {v : Version} {cut : W64} :
    ((t.updLive g).stopRegs (t.sTrap (mkTrap cause addr info)) v cut).state = if t.heldLost then 0xFF80 else 0xFF00 := by
  have hrank : (mkTrap cause addr info).srcRank.toNat = 255 := rfl
  have hendpoint : (mkTrap cause addr info).endpoint.toNat = 0 := rfl
  by_cases hlost : t.heldLost = true <;> simp [Thread.stopRegs, Thread.sTrap, hrank, hendpoint, hlost]

/-- A stop of a thread of one version (R369, R373): the thread is TRAPPED with its trap registers written, and keeps its version, its place and
its restart point. -/
theorem State.deliver_stop {s : State} {key : Nat} {tr : Trap} {v : Version} (hstop : keepsVersion tr.cause.toNat = true)
    (hlive : (s.thr key).liveTickets = 0#16) (hver : (s.thr key).versions = [v]) (hid : tr.ver.toNat = v.id) :
    ∃ cut, ((s.deliver key tr).thr key).stand =
      ⟨.trapped, (s.thr key).stopRegs tr v cut, (s.thr key).live.pc, (s.thr key).live.x, (s.thr key).committed, [v.id]⟩ := by
  obtain ⟨hframe, hcommitted, hlost, hvers⟩ := State.thr_unitsStopped hlive hver
  generalize hu : s.unitsStopped key = u at *
  rw [State.unitsStopped] at hu
  rw [State.deliver, if_pos hstop, State.deliverOne, hu]
  have hid' : (if tr.ver = 0#20 || (Option.isNone (none : Option (W64 × Bool)) && !(u.thr key).versions.any fun v => v.id = tr.ver.toNat) then
      (u.thr key).curVer.id else tr.ver.toNat) = v.id := by
    split
    · simp [Thread.curVer, hvers]
    · exact hid
  have htask : ((u.thr key).ver v.id).task = v.task := by simp [Thread.ver, hvers]
  rw [State.Stands.notifyTrap key, State.stand_leaveCore]
  simp only [hstop, hid', htask, Bool.not_true, Bool.false_and, Bool.false_eq_true, if_false, State.thr_updThr_same]
  exact ⟨_, by simp only [Thread.stand, Thread.stopRegs, hframe, hcommitted, hlost, hvers, Nat.add_zero]; rfl⟩

/-! ## The words that raise a stop -/

/-- A word that traps and leaves what it did before. -/
theorem sqWord_fault {body : Nat → M Unit} {s s' : State} {tr : Trap} (h : s.Runs) (hb : body s.cur s = .error (.fault tr s')) :
    sqWord body s = .next (s'.takeTrap s.cur ((s.thr s.cur).sTrap tr)) := by
  simp [sqWord, h.1, h.2, hb]

/-- The report of a word that raises a stop, in the state in which control has passed to the next word (R369, R400). -/
def State.wordStops (s : State) (cause code : Nat) : State :=
  (s.updThr s.cur fun t => t.updLive Frame.next).deliver s.cur ((s.thr s.cur).sTrap (mkTrap cause (s.thr s.cur).live.pc code))

/-- A word that raises a stop on a slot of its own. -/
theorem stopWord_runs {s : State} {cause code : Nat} (h : s.Runs) (hcur : s.cur < passBase) (hcause : BitVec.ofNat 8 cause ≠ 4#8) :
    stopWord cause code s = .next (s.wordStops cause code) := by
  have hword := sqWord_fault (s' := s.updThr s.cur fun t => t.updLive Frame.next) (tr := mkTrap cause (s.thr s.cur).live.pc code) h
    (body := fun key => do
      let t ← getThr key
      advance key
      fun s => .error (.fault (mkTrap cause t.live.pc code) s)) rfl
  rw [State.takeTrap, if_neg (Nat.not_le.2 hcur), if_neg] at hword
  exacts [hword, hcause]

/-- Where a thread of one version stands after a word of it that raises a stop (R369, R370, R400). -/
theorem State.stand_wordStops {s : State} {v : Version} {cause code : Nat} (hstop : keepsVersion (BitVec.ofNat 8 cause).toNat = true)
    (hlive : (s.thr s.cur).liveTickets = 0#16) (hver : (s.thr s.cur).versions = [v]) (hid : v.id < 1048576) :
    let t := s.thr s.cur
    ∃ cut, ((s.wordStops cause code).thr s.cur).stand =
      ⟨.trapped, (t.updLive Frame.next).stopRegs (t.sTrap (mkTrap cause t.live.pc code)) v cut, t.live.next.pc, t.live.x, t.committed, [v.id]⟩ := by
  have hcur : (s.thr s.cur).curVer.id = v.id := by simp [Thread.curVer, hver]
  obtain ⟨cut, h⟩ := State.deliver_stop (s := s.updThr s.cur fun t => t.updLive Frame.next) (key := s.cur) (v := v)
    (tr := (s.thr s.cur).sTrap (mkTrap cause (s.thr s.cur).live.pc code)) hstop (by rw [State.thr_updThr_same]; exact hlive)
    (by rw [State.thr_updThr_same]; exact hver) (by simp only [Thread.sTrap, hcur, BitVec.toNat_ofNat]; omega)
  refine ⟨cut, h.trans ?_⟩
  rw [State.thr_updThr_same]
  simp

end Sys2Proof.Machine

namespace Sys2Proof
open Machine

/-- Settles O15: what is judged first is the first thing each word does; a stop keeps the version, and control has passed on before it. -/
theorem systemWordTraps : Obligations.SystemWordTraps := by
  unfold Obligations.SystemWordTraps
  refine ⟨?_, ?_⟩
  · intro s x xb n hruns
    have hfree : ∀ m ∈ [0x00D, 0x00F, 0x019, 0x01F, 0x028, 0x03F, 0x060, 0x0FF, 0x108, 0x11F, 0x124, 0x136, 0x148, 0x153, 0x165, 0x2FF, 0x301,
        0x3FF], sysAllocated (BitVec.ofNat 10 m).toNat = false := by decide
    have hread : ∀ m ∈ [0x000, 0x006, 0x009, 0x00B, 0x010, 0x018, 0x020, 0x040, 0x05F, 0x102, 0x107, 0x122, 0x134, 0x150],
        sysWritable (BitVec.ofNat 10 m).toNat = false := by decide
    have hadmin : ∀ m ∈ [0x100, 0x104, 0x120, 0x130, 0x140, 0x160, 0x300], sysAllocated (BitVec.ofNat 10 m).toNat = true ∧
        sysWritable (BitVec.ofNat 10 m).toNat = true ∧ (BitVec.ofNat 10 m).toNat ≠ 0x106 ∧ (BitVec.ofNat 10 m).toNat ≠ 0x001 ∧
        0 < sysPriv (BitVec.ofNat 10 m).toNat := by decide
    refine ⟨fun m hm => ⟨exec_sysrd_illegal hruns (.inl (hfree m hm)), exec_syswr_illegal hruns (.inl (hfree m hm))⟩,
      fun m hm => exec_syswr_illegal hruns (.inr (hread m hm)), exec_sysrd_illegal hruns (.inr rfl), fun hpriv => ⟨fun m hm => ?_, exec_tlbinv_priv hruns hpriv,
        exec_cnt_priv hruns hpriv⟩, exec_eret_priv hruns, exec_cnt_illegal hruns⟩
    obtain ⟨halloc, hwrite, hcmd, hone, hneed⟩ := hadmin m hm
    exact ⟨exec_sysrd_priv hruns hpriv halloc hcmd hone hneed, exec_syswr_priv hruns hpriv halloc hwrite hneed⟩
  · intro s v code hs hver hid t p hp
    obtain ⟨⟨hruns, -, -⟩, hcur, -, hlive, -⟩ := hs
    have hword : exec p.1 s = .next (s.wordStops p.2 code.toNat) ∧ keepsVersion (BitVec.ofNat 8 p.2).toNat = true ∧
        (BitVec.ofNat 8 p.2).toNat = p.2 := by
      rcases List.mem_pair.1 hp with rfl | rfl
      · exact ⟨stopWord_runs hruns hcur (by decide), rfl, rfl⟩
      · exact ⟨stopWord_runs hruns hcur (by decide), rfl, rfl⟩
    obtain ⟨hexec, hstop, hcause⟩ := hword
    obtain ⟨cut, hstand⟩ := State.stand_wordStops (code := code.toNat) hstop hlive hver hid
    simp only [Thread.stand, Stand.mk.injEq] at hstand
    obtain ⟨hrun, htrap, hpc, hx, hcommitted, hvers⟩ := hstand
    refine ⟨_, hexec, hrun, ?_⟩
    rw [htrap]
    exact ⟨congrArg (BitVec.ofNat 64) hcause, rfl, BitVec.ofNat_toNat _ _, rfl, Frame.next_iter _, rfl, Thread.stopRegs_state, hpc, hx, hcommitted, hvers⟩

end Sys2Proof
end

section
/-! A write of an event register by a context that does not hold the bank: the timed counters of the holder catch up all the same (R359). -/

namespace Sys2Proof.Machine

/-- A bank that is not the context's takes no change, but its timed counters have caught up. -/
theorem State.updBank_unheld {s : State} {cid : Nat} (h : ((s.catchUp (s.bankSel cid)).banks.get (s.bankSel cid)).holder ≠ cid + 2)
    (f : Bank → Bank) : s.updBank cid f = s.catchUp (s.bankSel cid) := if_neg h

/-- An enabled bank uses up free amounts as it catches up. -/
theorem State.catchUp_fresh {s : State} {n : Nat} (h : (s.banks.get n).ctl.getLsbD 0 = true) : (s.catchUp n).fresh = s.fresh + 8 := by
  simp [State.catchUp, h]

/-- CNT_EVENT_WRITE of a thread that exists. -/
theorem exec_cntEventWrite_alive {s : State} {key n : Nat} {v : W64} (h : (s.thr key).alive = true) :
    exec (.cntEventWrite key n v) s = .next (s.writeEvent (s.thr key).cid (n % 8) v) := by
  simp [exec_cntEventWrite, execCntEventWrite, threadStep, h]

/-- One thread, of context 0, and bank 0 enabled by context 5. -/
def bankOfAnother : State :=
  { State.reset with
    threads := [(0, { (default : Thread) with alive := true })]
    banks := [(0, { (default : Bank) with holder := 7, ctl := 1 })] }

end Sys2Proof.Machine

namespace Sys2Proof
open Machine

/-- Refutes O45: an event register written by a context that does not hold the bank CNT_BANK selects is not written, but the state is not the same:
the enabled bank of the other context catches up with its timed events (log entry 62), and uses up eight free amounts. -/
theorem not_threadRegistersAndEviction : ¬ Obligations.ThreadRegistersAndEviction := by
  unfold Obligations.ThreadRegistersAndEviction
  rintro ⟨hwrites, -⟩
  obtain ⟨-, -, -, -, -, -, -, -, hevent, -⟩ := hwrites bankOfAnother 0 0 rfl
  have hsame : exec (.cntEventWrite 0 0 0) bankOfAnother = .next bankOfAnother := (hevent 0 (by decide)).2 (by decide)
  rw [exec_cntEventWrite_alive rfl, State.writeEvent, State.updBank_unheld (by decide)] at hsame
  have hfresh := congrArg State.fresh (Host.Outcome.next.inj hsame)
  rw [State.catchUp_fresh (by decide)] at hfresh
  exact absurd hfresh (by decide)

end Sys2Proof
end

section
/-! A wait entry on f0 of a thread that lists f0 among the flags set at context scope: it acquires there as on any other flag (R39, R164, R184). -/

namespace Sys2Proof.Machine

/-- One thread that runs on a slot, with f0 among the flags that a CPSIG has set, and a dirty line of window 0, whose limit lets no write out. -/
def dirtyLineBehindF0 : State :=
  { State.reset with
    threads := [(0, { (default : Thread) with alive := true, run := .resident, wide := [0], lines := [(0, { (default : RLine) with dirty := 1 })] })] }

/-- VLWAIT of f0 writes the dirty line back first (R164, R184): it waits for the allowance of the window (R202), at the head of its queue. -/
theorem exec_vlwait_dirtyLineBehindF0 :
    ∃ u, exec (.vlwait 0 0) dirtyLineBehindF0 = .next u ∧ ((u.thr 0).queue .vl).entries.length = 1 :=
  ⟨_, rfl, by decide +kernel⟩

end Sys2Proof.Machine

namespace Sys2Proof
open Machine

/-- Refutes O37: of a wait entry on f0 it is said that it completes, and neither that the thread's remote line cache is empty nor that f0 is not
among the flags set at context scope. (No set puts f0 there: the statement lacks that invariant.) With both, VLWAIT f0, 0 stays in its queue. -/
theorem not_tokensAndSignals : ¬ Obligations.TokensAndSignals := by
  unfold Obligations.TokensAndSignals
  rintro ⟨htokens, -⟩
  obtain ⟨-, hzero, -⟩ := htokens dirtyLineBehindF0 0 0 rfl
  have hfree : dirtyLineBehindF0.Free .vl := by decide
  obtain ⟨u, hexec, -, ⟨hempty, -⟩, -⟩ :=
    hzero (fun _ h => absurd h List.not_mem_nil) _ List.mem_cons_self hfree (by decide) _ List.mem_cons_self
  obtain ⟨u', hexec', hqueued⟩ := exec_vlwait_dirtyLineBehindF0
  obtain rfl : u = u' := Host.Outcome.next.inj (hexec.symm.trans hexec')
  rw [show ((u.thr 0).queue .vl).entries = [] from hempty] at hqueued
  exact absurd hqueued (by decide)

end Sys2Proof
end

section
/-! The codes that an encoding delivers fit the width of their type (R60 to R65, R75 to R79). -/

namespace Sys2Proof

/-! ## Rounding -/

/-- A number has as many bits as it has. -/
theorem lt_two_pow_bitLen (m : Nat) : m < 2 ^ bitLen m := by
  cases m with
  | zero => decide
  | succ n => exact Nat.lt_log2_self

/-- What is rounded to a multiple of 2^q is no larger than the next power of two. -/
theorem roundQ_le {rm : RM} {neg : Bool} {m b k : Nat} {e q : Int} (hm : m < 2 ^ b) (hk : (b : Int) + e - q ≤ k) :
    (roundQ rm neg m e q).1 ≤ 2 ^ k := by
  unfold roundQ
  split
  next hq =>
    calc m * 2 ^ (e - q).toNat ≤ 2 ^ b * 2 ^ (e - q).toNat := Nat.mul_le_mul_right _ hm.le
      _ = 2 ^ (b + (e - q).toNat) := (Nat.pow_add ..).symm
      _ ≤ 2 ^ k := Nat.pow_le_pow_right (by decide) (by omega)
  next hq =>
    have hpow : m < 2 ^ (q - e).toNat * 2 ^ k :=
      calc m < 2 ^ b := hm
        _ ≤ 2 ^ ((q - e).toNat + k) := Nat.pow_le_pow_right (by decide) (by omega)
        _ = _ := Nat.pow_add ..
    have hlo : m / 2 ^ (q - e).toNat < 2 ^ k := Nat.div_lt_of_lt_mul hpow
    have hup (up : Bool) : (if up then m / 2 ^ (q - e).toNat + 1 else m / 2 ^ (q - e).toNat) ≤ 2 ^ k := by split <;> omega
    dsimp only
    split
    · exact hlo.le
    · exact hup _

/-! ## Floating-point formats -/

/-- The constants of a layout fit it: its largest value has the mantissa and the exponent of a code, and its special codes lie below the sign. -/
structure Fmt.Fits (f : Fmt) : Prop where
  mantissa : f.maxM < 2 ^ (f.mb + 1)
  exponent : f.maxE + f.mb + f.bias + 1 ≤ (2 ^ f.eb : Nat)
  nan : f.ieee = true ∨ f.eb ≠ 2 → f.nanCode < 2 ^ (f.eb + f.mb)
  inf : f.infCode < 2 ^ (f.eb + f.mb)
  max : f.maxCode < 2 ^ (f.eb + f.mb)

theorem Ty.fmt_fits {t : Ty} {f : Fmt} (h : t.fmt? = some f) : f.Fits ∧ f.eb + f.mb + 1 = t.width := by
  cases t <;> simp only [Ty.fmt?, Option.some.injEq, reduceCtorEq] at h <;> subst h <;>
    exact ⟨⟨by decide, by decide, by decide, by decide, by decide⟩, rfl⟩

/-- The exponent and mantissa of a value that is not above the largest one make a code below the sign. -/
theorem Fmt.code_lt {f : Fmt} (h : f.Fits) {ip : Nat} {q : Int} (hq : 1 - f.bias - f.mb ≤ q) (hip : ip ≤ 2 ^ (f.mb + 1))
    (hbig : ip * 2 ^ (q - f.maxE).toNat ≤ f.maxM * 2 ^ (f.maxE - q).toNat) (hnorm : 2 ^ f.mb ≤ ip) :
    (if 2 ^ (f.mb + 1) ≤ ip then (q + 1 + f.mb + f.bias).toNat * 2 ^ f.mb + (ip / 2 - 2 ^ f.mb)
      else (q + f.mb + f.bias).toNat * 2 ^ f.mb + (ip - 2 ^ f.mb)) < 2 ^ (f.eb + f.mb) := by
  obtain ⟨hm, he, -⟩ := h
  have hpow : 2 ^ (f.mb + 1) = 2 * 2 ^ f.mb := Nat.pow_succ'
  have hle : q ≤ f.maxE := by
    by_contra hlt
    have hzero : (f.maxE - q).toNat = 0 := by omega
    obtain ⟨d, hd⟩ : ∃ d, (q - f.maxE).toNat = d + 1 := ⟨(q - f.maxE).toNat - 1, by omega⟩
    rw [hzero, hd, Nat.pow_succ, Nat.pow_zero] at hbig
    have hone : 1 ≤ 2 ^ d := Nat.one_le_two_pow
    nlinarith
  have hcode (k : Nat) (hk : k + 1 ≤ 2 ^ f.eb) {r : Nat} (hr : r < 2 ^ f.mb) : k * 2 ^ f.mb + r < 2 ^ (f.eb + f.mb) := by
    rw [Nat.pow_add]
    nlinarith
  split
  next hcarry =>
    have hlt : q ≠ f.maxE := by
      rintro rfl
      simp only [sub_self, Int.toNat_zero, pow_zero, Nat.mul_one] at hbig
      omega
    exact hcode _ (by omega) (by omega)
  next => exact hcode _ (by omega) (by omega)

/-- A floating-point code fits its width. -/
theorem Fmt.encode_lt {f : Fmt} (h : f.Fits) (rm : RM) (sat : Bool) (x : Num) : (f.encode rm sat x).1 < 2 ^ (f.eb + f.mb + 1) := by
  have hpow : 2 ^ (f.eb + f.mb + 1) = 2 * 2 ^ (f.eb + f.mb) := Nat.pow_succ'
  have hnan (hn : f.ieee = true ∨ f.eb ≠ 2) : f.nanCode < 2 ^ (f.eb + f.mb + 1) := by
    have := h.nan hn
    omega
  have hinf := h.inf
  have hmax := h.max
  have hsign (neg : Bool) : (if neg then 2 ^ (f.eb + f.mb) else 0) ≤ 2 ^ (f.eb + f.mb) := by split <;> omega
  unfold Fmt.encode
  cases x with
  | nan sig =>
    dsimp only
    split
    · exact Nat.two_pow_pos _
    next hn => exact hnan (by simpa [or_iff_not_imp_left] using hn)
  | inf neg =>
    have hs := hsign neg
    dsimp only
    simp only [apply_ite Prod.fst]
    generalize (if neg then 2 ^ (f.eb + f.mb) else 0) = s at hs ⊢
    split
    · omega
    split
    next hn => exact hnan (.inr (by simp at hn; omega))
    · omega
  | fin neg m e =>
    have hs := hsign neg
    have hround := roundQ_le (rm := rm) (neg := neg) (lt_two_pow_bitLen m) (e := e) (k := f.mb + 1)
      (q := (if (bitLen m : Int) - 1 + e < 1 - f.bias then 1 - f.bias else (bitLen m : Int) - 1 + e) - f.mb) (by split <;> omega)
    have hq : 1 - f.bias - f.mb ≤ (if (bitLen m : Int) - 1 + e < 1 - f.bias then 1 - f.bias else (bitLen m : Int) - 1 + e) - f.mb := by
      split <;> omega
    dsimp only
    simp only [apply_ite Prod.fst]
    generalize (if neg then 2 ^ (f.eb + f.mb) else 0) = s at hs ⊢
    generalize (if (bitLen m : Int) - 1 + e < 1 - f.bias then 1 - f.bias else (bitLen m : Int) - 1 + e) - f.mb = q at hq hround ⊢
    generalize (roundQ rm neg m e q).1 = ip at hround ⊢
    split
    · omega
    split
    next =>
      split
      next hn => exact hnan (.inr (by simp at hn; omega))
      next => split <;> omega
    next hbig =>
      have hcode := Fmt.code_lt h hq hround (by simpa using hbig)
      split
      next hsub =>
        have hpos : 2 ^ f.mb ≤ 2 ^ (f.eb + f.mb) := Nat.pow_le_pow_right (by decide) (Nat.le_add_left _ _)
        omega
      next hnorm =>
        have hlt := hcode (Nat.le_of_not_lt hnorm)
        split at hlt
        next hcarry => rw [if_pos hcarry]; omega
        next hcarry => rw [if_neg hcarry]; omega

/-! ## Every type -/

/-- The low bits of an integer fit their width. -/
theorem lowBits_lt (w : Nat) (v : Int) : lowBits w v < 2 ^ w := by
  have hpos : (0 : Int) < 2 ^ w := by positivity
  have hlt := Int.emod_lt_of_pos v hpos
  have hnonneg := Int.emod_nonneg v hpos.ne'
  unfold lowBits
  zify
  omega

/-- What an encoding delivers fits the width of its type (R75 to R79). -/
theorem Ty.encode_lt (t : Ty) (rm : RM) (sat : Bool) (x : Num) : (t.encode rm sat x).1 < 2 ^ t.width := by
  unfold Ty.encode
  split
  next f hf =>
    obtain ⟨hfits, hwidth⟩ := Ty.fmt_fits hf
    rw [← hwidth]
    exact f.encode_lt hfits rm sat x
  next hf =>
    split
    next hsq =>
      subst hsq
      cases x with
      | nan => exact Nat.two_pow_pos _
      | inf neg => cases neg <;> (dsimp only; decide)
      | fin neg m e =>
        dsimp only
        split_ifs
        exacts [by decide, by decide, lowBits_lt 4 _]
    next =>
      cases x with
      | nan => exact Nat.two_pow_pos _
      | inf neg =>
        dsimp only
        split
        · exact lowBits_lt _ _
        · exact Nat.two_pow_pos _
      | fin neg m e =>
        dsimp only
        split <;> exact lowBits_lt _ _

/-- What an integer is reduced to fits the width of its type (R92). -/
theorem Ty.reduce_lt (t : Ty) (sat : Bool) (v : Int) : (t.reduce sat v).1 < 2 ^ t.width := by
  unfold Ty.reduce
  dsimp only
  split <;> exact lowBits_lt _ _

end Sys2Proof

namespace Sys2Proof.Machine

/-- The sum of two elements of a reduction fits their bytes (R219). -/
theorem redSum_lt (ty : RedTy) (m v : Nat) : redSum ty m v < 2 ^ (8 * redBytes ty) := by
  cases ty with
  | f32 => exact Ty.f32.encode_lt _ _ _
  | bf16 => exact Ty.bf16.encode_lt _ _ _
  | i32 => exact Nat.mod_lt _ (Nat.two_pow_pos _)

end Sys2Proof.Machine
end

section
/-! A copy under way: what its entry has changed of the state so far, and that no check holds back what it does in the own scratch. -/

namespace Sys2Proof.Machine

/-! ## The state while an entry of CP is performed -/

/-- What a copy of the current thread changes until its entry completes, but for its completion flag. -/
structure CopyVars where
  scratch : Memory
  staging : Memory
  versions : List Version
  head : QEntry
  know : NMap Clock
  epoch : NMap Nat
  scores : List Score
  vstat : W64
  stamp : Nat
  tlb : List Trans
  rels : List RelRec

/-- A thread whose copy is under way: its entry is alone in the queue, and the sequencer stands at the next word. -/
def Thread.midCopy (t : Thread) (v : CopyVars) : Thread :=
  { t with
    live := { t.live.next with vstat := v.vstat }, serial := t.serial + 1, scratch := v.scratch, versions := v.versions
    queues := t.queues.put 5 { entries := [v.head], pushed := (t.queue .cp).pushed + 1 }, know := v.know, epoch := v.epoch, scores := v.scores }

/-- The state in which a copy of the current thread is under way. -/
def State.midCopy (s : State) (v : CopyVars) : State :=
  { s with
    threads := s.threads.put s.cur ((s.thr s.cur).midCopy v), staging := v.staging, stamp := v.stamp, tlb := v.tlb, rels := v.rels
    scoreNext := s.scoreNext + 1 }

section
variable {s : State} {v w : CopyVars}

@[simp] theorem State.thr_midCopy : (s.midCopy v).thr s.cur = (s.thr s.cur).midCopy v := NMap.get_put_same _ _ _
@[simp] theorem State.stamp_midCopy : (s.midCopy v).stamp = v.stamp := rfl
@[simp] theorem State.ctx_midCopy (cid : Nat) : (s.midCopy v).ctx cid = s.ctx cid := rfl

/-- The scratch of the copy's thread, as a space. -/
@[simp] theorem State.space_scratch_midCopy : (s.midCopy v).space (.scratch s.cur) = v.scratch := by
  rw [State.space, State.thr_midCopy]
  rfl

/-- The queue of CP while a copy is under way. -/
@[simp] theorem Thread.queue_midCopy (t : Thread) : (t.midCopy v).queue .cp = { entries := [v.head], pushed := (t.queue .cp).pushed + 1 } :=
  NMap.get_put_same _ _ _

/-- A change of the copy's thread. -/
theorem State.updThr_midCopy {f : Thread → Thread} (hf : f ((s.thr s.cur).midCopy v) = (s.thr s.cur).midCopy w)
    (hw : w.staging = v.staging ∧ w.stamp = v.stamp ∧ w.tlb = v.tlb ∧ w.rels = v.rels) : (s.midCopy v).updThr s.cur f = s.midCopy w := by
  obtain ⟨hstaging, hstamp, htlb, hrels⟩ := hw
  simp only [State.updThr, State.thr_midCopy, hf]
  simp only [State.setThr, State.midCopy, NMap.put_put, hstaging, hstamp, htlb, hrels]

/-- A change of the entry at the head of the queue. -/
theorem modHead_midCopy {f : QEntry → QEntry} :
    modHead s.cur .cp f (s.midCopy v) = .ok ((), s.midCopy { v with head := f v.head }) := by
  refine congrArg (fun u => Except.ok ((), u)) (State.updThr_midCopy ?_ ⟨rfl, rfl, rfl, rfl⟩)
  simp only [Thread.queue_midCopy]
  simp only [Thread.setQueue, Thread.midCopy, Eng.code, NMap.put_put]

/-- The entry at the head of the queue. -/
theorem headEntry_midCopy : headEntry s.cur .cp (s.midCopy v) = .ok (v.head, s.midCopy v) := by
  rw [headEntry, M.run_bind_ok (M.run_getThr _ _), State.thr_midCopy, Thread.queue_midCopy]
  rfl

end

/-! ## What stays -/

/-- What a write to scratch or staging leaves of a version. -/
def Version.kept (v : Version) : Nat × List Nat × BitVec 32 × Nat := (v.id, v.deps, v.budget, v.mscBytes)

/-- The blocks of a list that a version is still to write for the first time. -/
def Version.unwritten (v : Version) (blocks : List (Space × Nat)) : List (Space × Nat) := blocks.filter fun b => !v.hasLine b.1 b.2

/-- A version of the thread by its number, as the copy has left it. -/
def CopyVars.ver (v : CopyVars) (id : Nat) : Version := (v.versions.find? fun x => x.id = id).getD default

theorem Thread.ver_midCopy (t : Thread) (v : CopyVars) (id : Nat) : (t.midCopy v).ver id = v.ver id := rfl

/-- The request of an access that a copy of the current thread makes to its scratch. -/
structure Req.Copies (r : Req) (s : State) : Prop where
  key : r.key = s.cur
  ver : r.ver = (s.thr s.cur).curVer.id
  ser : r.ser = some (s.thr s.cur).serial
  wps : r.wps = some (s.thr s.cur).wp
  reach : r.reach.scratch = true
  scope : r.scope ≤ 3

/-- What holds all the while an entry of CP is performed: the entry keeps nothing back, the scoreboard holds no range but its own, the versions
differ in what they have written alone, and the current one may still write the blocks of the destination (R157, R384). -/
structure CopyVars.Sound (v : CopyVars) (s : State) (blocks : List (Space × Nat)) : Prop where
  grans : v.head.grans = none
  asked : v.head.asked = []
  hits : v.head.hits = []
  early : v.head.early = []
  scores : ∀ c ∈ v.scores, c.ser = (s.thr s.cur).serial ∧ c.ord = s.scoreNext
  versions : v.versions.map Version.kept = (s.thr s.cur).versions.map Version.kept
  room : let x := v.ver (s.thr s.cur).curVer.id
    x.useKnext + 64 * (x.unwritten blocks).length ≤ s.budgetOf (s.thr s.cur).cid ((s.thr s.cur).ver (s.thr s.cur).curVer.id)
  wf : v.scratch.wf = true
  wfStaging : s.staging.wf = true → v.staging.wf = true

/-- Bytes of the current thread's own scratch, within one page of it. -/
def State.InScratch (s : State) (x : Nat × Nat) : Prop :=
  0 < x.2 ∧ x.1 + x.2 ≤ (s.thr s.cur).scratchG * 16384 ∧ x.1 + x.2 ≤ 2097152 ∧ x.1 % 16384 + x.2 ≤ 16384

theorem State.InScratch.pos {s : State} {x : Nat × Nat} (h : s.InScratch x) : 0 < x.2 := h.1

theorem State.InScratch.window {s : State} {x : Nat × Nat} (h : s.InScratch x) : x.1 + x.2 ≤ 2097152 := h.2.2.1

theorem State.InScratch.page {s : State} {x : Nat × Nat} (h : s.InScratch x) : x.1 % 16384 + x.2 ≤ 16384 := h.2.2.2

/-- A copy of the current thread may be under way: the thread runs on a slot, has no watchpoint and no hit, and no copy is recorded. -/
structure State.MayCopy (s : State) : Prop where
  alive : (s.thr s.cur).alive = true
  slot : s.cur < passBase
  hits : (s.thr s.cur).hits = []
  watch : (s.thr s.cur).wp = []
  scores : ∀ q ∈ s.threads, q.2.scores = []
  msc : s.mscUse ≤ 7516192768

/-! ## Versions -/

/-- What is listed after a write is what was written, or was listed. -/
theorem NMap.mem_put {α : Type} {m : NMap α} {k : Nat} {v : α} {p : Nat × α} (h : p ∈ m.put k v) : p = (k, v) ∨ p ∈ m := by
  induction m with
  | nil => simpa [NMap.put] using h
  | cons q m ih =>
    simp only [NMap.put] at h
    split at h
    · simpa using h
    · split at h <;> simp only [List.mem_cons] at h ⊢
      · exact h.imp_right .inr
      · exact h.elim (fun h => .inr (.inl h)) fun h => (ih h).imp_right .inr

/-- A version found by its number, through what is kept of all. -/
theorem Version.kept_find {l m : List Version} (h : l.map Version.kept = m.map Version.kept) (id : Nat) :
    (((l.find? fun v => v.id = id).getD default)).kept = ((m.find? fun v => v.id = id).getD default).kept := by
  induction l generalizing m with
  | nil => cases m with
    | nil => rfl
    | cons => simp at h
  | cons a l ih => cases m with
    | nil => simp at h
    | cons b m =>
      obtain ⟨hab, hlm⟩ := List.cons_eq_cons.1 h
      have hid : a.id = b.id := congrArg Prod.fst hab
      by_cases hb : b.id = id
      · simp [hid, hb, hab]
      · simp [hid, hb, ih hlm]

section
variable {s : State} {v : CopyVars} {blocks : List (Space × Nat)} (hv : v.Sound s blocks)
include hv

/-- The current version is budgeted as before. -/
theorem CopyVars.Sound.budget : let id := (s.thr s.cur).curVer.id
    s.budgetOf (s.thr s.cur).cid (v.ver id) = s.budgetOf (s.thr s.cur).cid ((s.thr s.cur).ver id) := by
  have h := Version.kept_find hv.versions (s.thr s.cur).curVer.id
  simp only [Version.kept, Prod.mk.injEq] at h
  obtain ⟨-, -, hbudget, -⟩ := h
  have hver : (v.ver (s.thr s.cur).curVer.id).budget = ((s.thr s.cur).ver (s.thr s.cur).curVer.id).budget := hbudget
  simp only [State.budgetOf, hver]

/-- What versions fill of the MSC is what they filled. -/
theorem CopyVars.Sound.mscUse (halive : (s.thr s.cur).alive = true) : (s.midCopy v).mscUse = s.mscUse := by
  have hmap := NMap.map_put (m := s.threads) (k := s.cur) (v := (s.thr s.cur).midCopy v) (f := fun t => t.versions.map Version.mscBytes)
    (State.thr_ne_default halive) (by
      have h := congrArg (List.map fun x => x.2.2.2) hv.versions
      rw [List.map_map, List.map_map] at h
      exact h)
  have hfold (l : NMap Thread) (n : Nat) : l.foldl (fun n p => p.2.versions.foldl (fun n v => n + v.mscBytes) n) n =
      (l.map fun p => p.2.versions.map Version.mscBytes).foldl (fun n vs => vs.foldl (fun n b => n + b) n) n := by
    rw [List.foldl_map]
    simp only [List.foldl_map]
  simp only [State.mscUse, State.midCopy, hfold, hmap]

/-- The record of a copy holds none of its own accesses back (R157). -/
theorem CopyVars.Sound.scoreBlocks {r : Req} {p : Piece} (hscores : ∀ q ∈ s.threads, q.2.scores = []) (hkey : r.key = s.cur)
    (hser : r.ser = some (s.thr s.cur).serial) : scoreBlocks (s.midCopy v) r p = false := by
  unfold Machine.scoreBlocks
  extract_lets target mine
  cases target with
  | none => rfl
  | some tk =>
    refine List.any_eq_false.2 fun q hq => ?_
    rcases NMap.mem_put hq with rfl | hq
    · have hmine : ∀ c ∈ v.scores, mine = some s.scoreNext := by
        intro c hc
        obtain ⟨hcser, hcord⟩ := hv.scores c hc
        have hsome : (v.scores.find? fun c => c.ser = (s.thr s.cur).serial).isSome = true :=
          List.find?_isSome.2 ⟨c, hc, by simpa using hcser⟩
        obtain ⟨d, hd⟩ := Option.isSome_iff_exists.1 hsome
        have hmem := (hv.scores d (List.mem_of_find?_eq_some hd)).2
        have hthr : ((s.midCopy v).thr r.key).scores = v.scores := by rw [hkey, State.thr_midCopy]; rfl
        simp only [mine, hser, hthr, hd, Option.map_some, hmem]
      simp only [Bool.not_eq_true, List.any_eq_false]
      intro c hc
      simp [hmine c hc, (hv.scores c hc).2]
    · simp [hscores q hq]

end

end Sys2Proof.Machine
end

section
/-! Accesses of a copy to the own scratch pass every check of R188. -/

namespace Sys2Proof.Machine

/-! ## Spans of the own scratch -/

/-- A span of the own scratch, as an access names it. -/
def ownSpan (x : Nat × Nat) : Nat × Nat := ((scratchVa x.1).toNat, x.2)

/-- The piece of a span of the own scratch. -/
def ownPieceAt (x : Nat × Nat) : Piece := ownPiece x.1 x.2

theorem ownPieceAt_tgt (x : Nat × Nat) : (ownPieceAt x).tgt = .own := rfl

/-- Every piece of spans of the own scratch lies there. -/
theorem tgt_of_mem_ownPieces {l : List (Nat × Nat)} : ∀ p ∈ l.map ownPieceAt, p.tgt = .own := by
  simp only [List.mem_map]
  rintro _ ⟨x, -, rfl⟩
  exact ownPieceAt_tgt x

/-- Spans within a page each are not cut. -/
theorem cutSpans_own {s : State} {l : List (Nat × Nat)} (hl : ∀ x ∈ l, s.InScratch x) : cutSpans (l.map ownSpan) = l.map ownSpan := by
  induction l with
  | nil => rfl
  | cons x l ih =>
    obtain ⟨hpos, -, hwin, hpage⟩ := hl x List.mem_cons_self
    have hva := scratchVa_toNat (off := x.1) (by omega)
    have hone : cutSpans [ownSpan x] = [ownSpan x] := cutSpans_single (scratchVa x.1).isLt hpos (by omega)
    rw [List.map_cons, show ∀ a l, cutSpans (a :: l) = cutSpans [a] ++ cutSpans l by simp [cutSpans], hone,
      ih fun y hy => hl y (List.mem_cons_of_mem _ hy)]
    rfl

/-- An address of the own scratch lies there while a copy is under way (R16). -/
theorem classify_midCopy {s : State} {v : CopyVars} {x : Nat × Nat} (hx : s.InScratch x) :
    classify (s.midCopy v) s.cur (scratchVa x.1).toNat = .ok (some (.own, x.1)) := by
  obtain ⟨hpos, hgran, hwin, -⟩ := hx
  have hS : sspace (s.midCopy v) s.cur x.1 = some (.own, x.1) := by
    rw [sspace, State.thr_midCopy, if_pos (by omega), if_pos]
    exact Nat.lt_of_lt_of_le (by omega) hgran
  have hlow : (18302628885633695744 + x.1) % 4294967296 = x.1 := by omega
  have htop : (18302628885633695744 + x.1) / 72057594037927936 = 254 := by omega
  have hmid : (18302628885633695744 + x.1) / 4294967296 % 16777216 = 0 := by omega
  rw [classify, scratchVa_toNat (by omega), if_neg (by omega), if_pos (by simp [htop, hmid]), hlow, hS]

theorem oksOf_map_ok {α β : Type} (l : List α) (f : α → β) : oksOf (l.map fun x => (Except.ok (f x) : Except Trap β)) = l.map f := by
  simp [oksOf, List.filterMap_map]

theorem errorsOf_map_ok {α β : Type} (l : List α) (f : α → β) : errorsOf (l.map fun x => (Except.ok (f x) : Except Trap β)) = [] := by
  simp [errorsOf, List.filterMap_map]

/-- Spans of the own scratch resolve to their pieces: steps 3 to 5 of R188 refuse nothing. -/
theorem resolveAt_midCopy {s : State} {v : CopyVars} {l : List (Nat × Nat)} {cid : Nat} {rd wr : Bool} {reach : Reach}
    (hl : ∀ x ∈ l, s.InScratch x) (hreach : reach.scratch = true) :
    resolveAt (s.midCopy v) s.cur cid rd wr reach (l.map ownSpan) = .ok (l.map ownPieceAt) := by
  have hclass : (l.map ownSpan).map (fun p => (p, classify (s.midCopy v) s.cur p.1)) =
      l.map fun x => (ownSpan x, Except.ok (some (Tgt.own, x.1))) := by
    rw [List.map_map]
    exact List.map_congr_left fun x hx => congrArg _ (classify_midCopy (hl x hx))
  have hrefused : (l.map ownPieceAt).filterMap (fun p => if reach.refuses p.tgt then some (mkTrap 5 p.va 0) else none) = [] :=
    List.filterMap_eq_nil_iff.2 fun p hp => by rw [tgt_of_mem_ownPieces p hp, Reach.refuses, hreach]; rfl
  have hperm : (l.map ownPieceAt).filterMap (permFail (s.midCopy v) s.cur rd wr) = [] :=
    List.filterMap_eq_nil_iff.2 fun p hp => by rw [permFail, tgt_of_mem_ownPieces p hp]
  have hres : (l.map fun x => (Except.ok (Piece.mk (ownSpan x).1 (ownSpan x).2 .own x.1 default) : Except Trap Piece)) =
      l.map fun x => Except.ok (ownPieceAt x) := rfl
  unfold resolveAt
  rw [cutSpans_own hl]
  simp only [hclass, List.filterMap_map, Function.comp_def, List.filterMap_eq_map', List.filterMap_none, hres, oksOf_map_ok, errorsOf_map_ok, hperm]
  rw [List.filterMap_map] at hrefused
  simp only [Function.comp_def] at hrefused
  simp [hrefused, lowest]

/-! ## Room for what is written -/

/-- The blocks that a span of the own scratch touches. -/
def ownBlocks (key : Nat) (x : Nat × Nat) : List (Space × Nat) := (blocksOf x.1 x.2).map fun b => (Space.scratch key, b)

theorem nodup_eraseDups {α : Type} [BEq α] [LawfulBEq α] (l : List α) : l.eraseDups.Nodup := by
  induction h : l.length using Nat.strong_induction_on generalizing l with
  | _ m ih =>
    cases l with
    | nil => simp
    | cons a t =>
      have hfilter := List.length_filter_le (fun b => !b == a) t
      rw [List.eraseDups_cons, List.nodup_cons]
      exact ⟨by simp [List.mem_eraseDups], ih _ (by simp at h; omega) _ rfl⟩

theorem nodup_newLines {key : Nat} {w : Version} {ps : List Piece} : (newLines key w ps).Nodup := nodup_eraseDups _

/-- A write has room for blocks of the destination that its version has still to write (R384, R385). -/
theorem writeRoom_midCopy {s : State} {v : CopyVars} {blocks lines : List (Space × Nat)} {r : Req} {va : Nat} (hv : v.Sound s blocks)
    (hs : s.MayCopy) (hkey : r.key = s.cur) (hver : r.ver = (s.thr s.cur).curVer.id) (hnodup : lines.Nodup)
    (hlines : ∀ b ∈ lines, b ∈ (v.ver (s.thr s.cur).curVer.id).unwritten blocks) (hhbm : ∀ b ∈ blocks, b.1 ≠ .hbm) :
    writeRoom r lines va (s.midCopy v) = .ok ((), s.midCopy v) := by
  have hlen : lines.length ≤ ((v.ver (s.thr s.cur).curVer.id).unwritten blocks).length := (hnodup.subperm hlines).length_le
  have hnone : lines.filter (fun l => decide (l.1 = .hbm)) = [] := by
    rw [List.filter_eq_nil_iff]
    intro b hb
    simpa using hhbm b (List.mem_of_mem_filter (hlines b hb))
  have hroom := hv.room
  have hbudget := hv.budget
  have hmsc := hv.mscUse hs.alive
  have hcid : ((s.thr s.cur).midCopy v).cid = (s.thr s.cur).cid := rfl
  have hctx (w : Version) : (s.midCopy v).budgetOf (s.thr s.cur).cid w = s.budgetOf (s.thr s.cur).cid w := rfl
  dsimp only at hroom hbudget
  simp only [writeRoom, M.run_bind, M.run_get, M.run_ite, hkey, hver, State.thr_midCopy, Thread.ver_midCopy, hnone, hcid, hctx, hbudget, hmsc]
  rw [if_neg (by omega)]
  have := hs.msc
  simp [this]

/-- The blocks of pieces of the own scratch that a version is the first to write. -/
theorem newLines_ownPieces {s : State} {w : Version} {blocks : List (Space × Nat)} {l : List (Nat × Nat)}
    (hl : ∀ x ∈ l, ∀ b ∈ ownBlocks s.cur x, b ∈ blocks) : ∀ b ∈ newLines s.cur w (l.map ownPieceAt), b ∈ w.unwritten blocks := by
  intro b hb
  simp only [newLines, List.mem_eraseDups, List.mem_flatMap, List.mem_map] at hb
  obtain ⟨_, ⟨x, hx, rfl⟩, hb⟩ := hb
  simp only [ownPieceAt, ownPiece, Piece.space, List.mem_map, List.mem_filter] at hb
  obtain ⟨n, ⟨hn, hold⟩, rfl⟩ := hb
  exact List.mem_filter.2 ⟨hl x hx _ (List.mem_map_of_mem hn), hold⟩

/-! ## What an access notes -/

/-- A copy under way of which the core holds other translations, and whose clocks have moved. -/
def CopyVars.noted (v : CopyVars) (tlb : List Trans) (know : NMap Clock) (epoch : NMap Nat) : CopyVars :=
  { v with tlb := tlb, know := know, epoch := epoch }

theorem CopyVars.Sound.noted {s : State} {v : CopyVars} {blocks : List (Space × Nat)} (hv : v.Sound s blocks) (tlb : List Trans)
    (know : NMap Clock) (epoch : NMap Nat) : (v.noted tlb know epoch).Sound s blocks :=
  ⟨hv.grans, hv.asked, hv.hits, hv.early, hv.scores, hv.versions, hv.room, hv.wf, hv.wfStaging⟩

/-- No byte of spans of the own scratch lies in a POISON block. -/
theorem poisonFail_ownPieces {s : State} {v : CopyVars} {l : List (Nat × Nat)}
    (h : ∀ x ∈ l, ∀ b ∈ blocksOf x.1 x.2, isPoison (v.scratch.tag (b * 64)) = false) :
    (l.map ownPieceAt).filterMap (poisonFail (s.midCopy v) s.cur) = [] := by
  refine List.filterMap_eq_nil_iff.2 fun p hp => ?_
  obtain ⟨x, hx, rfl⟩ := List.mem_map.1 hp
  refine List.findSome?_eq_none_iff.2 fun b hb => ?_
  rw [State.space_scratch_midCopy, if_neg (by simp [h x hx b hb])]

section
variable {s : State} {v : CopyVars} {blocks : List (Space × Nat)} {r : Req} {rd wr : Bool} {l : List (Nat × Nat)} (hs : s.MayCopy)
  (hv : v.Sound s blocks) (hr : r.Copies s) (hl : ∀ x ∈ l, s.InScratch x)
include hs hv hr hl

/-- An access of a copy to the own scratch passes every check of R188, and leaves the bytes to be moved. -/
theorem access_midCopy (hpoison : r.poison = true → rd = true → ∀ x ∈ l, ∀ b ∈ blocksOf x.1 x.2, isPoison (v.scratch.tag (b * 64)) = false)
    (hroom : wr = true → (∀ x ∈ l, ∀ b ∈ ownBlocks s.cur x, b ∈ blocks) ∧ ∀ b ∈ blocks, b.1 ≠ .hbm) :
    ∃ tlb know epoch, access r rd wr (l.map ownSpan) (s.midCopy v) = .ok (l.map ownPieceAt, s.midCopy (v.noted tlb know epoch)) := by
  obtain ⟨hkey, hver, hser, hwps, hreach, hscope⟩ := hr
  have hps := tgt_of_mem_ownPieces (l := l)
  have hres : resolve (s.midCopy v) s.cur (s.thr s.cur).cid rd wr r.reach (l.map ownSpan) = .ok (l.map ownPieceAt) := by
    rw [resolve, resolveAt_midCopy hl hreach]
  obtain ⟨tlb, htlb⟩ := State.holdTrans_eq (s := s.midCopy v) (place := (s.midCopy v).placeOf s.cur) (cid := (s.thr s.cur).cid)
    (ps := l.map ownPieceAt)
  obtain ⟨know, hknow⟩ := noteWrote_eq (r := r) (ps := l.map ownPieceAt) (s := (s.midCopy v).holding tlb)
    (by rw [hkey]; exact (congrArg Thread.alive State.thr_midCopy).trans hs.alive)
  have hwrote : (((s.midCopy v).holding tlb).updThr r.key fun t => { t with know := know }) = s.midCopy (v.noted tlb know v.epoch) := by
    rw [hkey]
    exact State.updThr_midCopy (s := s) (v := { v with tlb := tlb }) (w := v.noted tlb know v.epoch) rfl ⟨rfl, rfl, rfl, rfl⟩
  obtain ⟨epoch, hepoch⟩ := noteAccess_own (r := r) (wr := wr) (s := s.midCopy (v.noted tlb know v.epoch)) hps
  have hnoted : ((s.midCopy (v.noted tlb know v.epoch)).updThr r.key fun t => { t with epoch := epoch }) =
      s.midCopy (v.noted tlb know epoch) := by
    rw [hkey]
    exact State.updThr_midCopy rfl ⟨rfl, rfl, rfl, rfl⟩
  rw [hwrote] at hknow
  rw [hnoted] at hepoch
  refine ⟨tlb, know, epoch, ?_⟩
  have hnot : ¬ (decide (passBase ≤ s.cur) && decide (s.cur < 2 * passBase)) = true := by have := hs.slot; simp; omega
  have hscopes : (l.map ownPieceAt).filterMap (scopeFail r.scope) = [] :=
    List.filterMap_eq_nil_iff.2 fun p hp => scopeFail_own (hps p hp) hscope
  have hrace (u : State) (clk : Clock) : (l.map ownPieceAt).filterMap (raceFail u r wr clk) = [] :=
    List.filterMap_eq_nil_iff.2 fun p hp => raceFail_own (hps p hp)
  have hblocks : (l.map ownPieceAt).any (scoreBlocks (s.midCopy v) r) = false :=
    List.any_eq_false.2 fun p _ => by simp [hv.scoreBlocks hs.scores hkey hser]
  have hdeps : (l.map ownPieceAt).flatMap (dependsOn (s.midCopy v) s.cur) = [] :=
    List.flatMap_eq_nil_iff.2 fun p hp => dependsOn_own (hps p hp)
  have hdirty (u : State) (cid : Nat) : (l.map ownPieceAt).foldl (fun s p => markDirty s cid p) u = u :=
    List.foldlRecOn (motive := (· = u)) (l.map ownPieceAt) _ rfl fun _ h p hp => (markDirty_own (hps p hp)).trans h
  have hwatch (t : Thread) (n : Nat) : ownHits (r.wps.getD t.wp) r.ver r.path n rd wr (l.map ownSpan) = [] := by
    rw [hwps, hs.watch]
    rfl
  have hcid : ((s.thr s.cur).midCopy v).cid = (s.thr s.cur).cid := rfl
  have hclear : (l.map ownPieceAt).filterMap (poisonFail (s.midCopy v) s.cur) = [] ∨ (rd && r.poison) = false := by
    cases hp : rd && r.poison
    · exact .inr rfl
    · simp only [Bool.and_eq_true] at hp
      exact .inl (poisonFail_ownPieces (hpoison hp.2 hp.1))
  rw [access, M.run_bind_ok (M.run_get _), M.run_ite, hkey, if_neg hnot]
  rcases hclear with hclear | hclear
  all_goals
    simp only [State.thr_midCopy, hcid, hres, pure_bind, hscopes, hblocks, hdeps, hrace, hclear, lowest, ite_self, Bool.false_eq_true, if_false,
      List.isEmpty_nil, Bool.not_true]
    rw [M.run_bind_ok (M.run_modify _ _), htlb, M.run_bind_ok hknow, M.run_bind_ok (M.run_getThr _ _)]
    simp only [State.thr_midCopy, hwatch _ _ , List.isEmpty_nil, Bool.not_true, Bool.false_eq_true, if_false]
    cases wr with
    | false =>
      rw [if_neg Bool.false_ne_true, M.run_bind_ok hepoch]
      rfl
    | true =>
      obtain ⟨hblocks, hhbm⟩ := hroom rfl
      rw [if_pos rfl, M.run_bind_ok (writeRoom_midCopy (hv.noted _ _ _) hs hkey hver nodup_newLines (by
          rw [hver]
          exact newLines_ownPieces hblocks) hhbm), M.run_ite, if_neg, M.run_bind_ok (M.run_modify _ _), hdirty, M.run_bind_ok hepoch]
      · rfl
      · simp only [List.any_eq_true, not_exists]
        rintro p ⟨hp, h⟩
        simp [hps p hp] at h

end

end Sys2Proof.Machine
end

section
/-! The checks of a chunk of a copy pass (R188, R214). -/

namespace Sys2Proof.Machine

/-- A loop whose every round completes and keeps what it needs. -/
theorem M.forIn_ok {α β : Type} {l : List α} {f : α → M β} (P : State → Prop) (h : ∀ p ∈ l, ∀ u, P u → ∃ b u', f p u = .ok (b, u') ∧ P u')
    {u : State} (hu : P u) :
    ∃ u', (forIn l PUnit.unit fun p _ => (do let _ ← f p; pure (ForInStep.yield PUnit.unit) : M _)) u = .ok (PUnit.unit, u') ∧ P u' := by
  induction l generalizing u with
  | nil => exact ⟨u, rfl, hu⟩
  | cons p l ih =>
    obtain ⟨b, w, hw, hPw⟩ := h p List.mem_cons_self u hu
    obtain ⟨u', hu', hP⟩ := ih (fun q hq => h q (List.mem_cons_of_mem _ hq)) hPw
    refine ⟨u', ?_, hP⟩
    rw [List.forIn_cons, bind_assoc, M.run_bind_ok hw, pure_bind]
    exact hu'

/-- No peer watches pieces of the own scratch. -/
theorem peerWatch_ownPieces {r : Req} {rd wr : Bool} {l : List (Nat × Nat)} (u : State) :
    (forIn (l.map ownPieceAt) PUnit.unit fun p _ => (do peerWatch r rd wr p; pure (ForInStep.yield PUnit.unit) : M _)) u =
      .ok (PUnit.unit, u) := by
  obtain ⟨u', hu', rfl⟩ := M.forIn_ok (f := peerWatch r rd wr) (· = u) (l := l.map ownPieceAt) (fun p hp w hw =>
    ⟨(), w, peerWatch_own (tgt_of_mem_ownPieces p hp), hw⟩) (rfl : u = u)
  exact hu'

/-- What a chunk needs for its checks: its ends that are virtual addresses lie in the own scratch, those in the slices within an extent, and the
blocks it writes are ones that its version may write. -/
structure ChunkFits (s : State) (blocks : List (Space × Nat)) (parts : List Part) (ls ld : List (Nat × Nat)) : Prop where
  srcs : vaSpans (parts.map fun p => (p.src, p.len)) = ls.map ownSpan
  dsts : vaSpans (parts.map fun p => (p.dst, p.len)) = ld.map ownSpan
  inSrc : ∀ x ∈ ls, s.InScratch x
  inDst : ∀ x ∈ ld, s.InScratch x
  staging : stgFail s (s.thr s.cur).cid (parts.flatMap fun p => [(p.src, p.len), (p.dst, p.len)]) = []
  room : ∀ x ∈ ld, ∀ b ∈ ownBlocks s.cur x, b ∈ blocks
  roomStaging : ∀ p ∈ parts, ∀ d, p.dst = .stg d → ∀ b ∈ blocksOf d p.len, (Space.staging, b) ∈ blocks
  noHbm : ∀ b ∈ blocks, b.1 ≠ .hbm

section
variable {s : State} {v : CopyVars} {blocks : List (Space × Nat)} {r : Req} {parts : List Part} {ls ld : List (Nat × Nat)}
  (hs : s.MayCopy) (hv : v.Sound s blocks) (hr : r.Copies s) (hpoison : r.poison = false)
include hs hv hr hpoison

/-- The accesses of a marked chunk, one by one. -/
theorem access_each_midCopy (hfits : ChunkFits s blocks parts ls ld) {scopeOf : Piece → Nat} (hscope : ∀ p, p.tgt = .own → scopeOf p ≤ 3) :
    ∃ tlb know epoch, (forIn (ld.map ownPieceAt) PUnit.unit fun p _ => (do
        let _ ← access { r with marked := true, scope := scopeOf p } true true [(p.va, p.len)]
        pure (ForInStep.yield PUnit.unit) : M _)) (s.midCopy v) = .ok (PUnit.unit, s.midCopy (v.noted tlb know epoch)) := by
  have hround : ∀ p ∈ ld.map ownPieceAt, ∀ u, (∃ tlb know epoch, u = s.midCopy (v.noted tlb know epoch)) →
      ∃ b u', access { r with marked := true, scope := scopeOf p } true true [(p.va, p.len)] u = .ok (b, u') ∧
        ∃ tlb know epoch, u' = s.midCopy (v.noted tlb know epoch) := by
    rintro p hp _ ⟨tlb, know, epoch, rfl⟩
    obtain ⟨x, hx, rfl⟩ := List.mem_map.1 hp
    obtain ⟨hkey, hver, hser, hwps, hreach, -⟩ := hr
    obtain ⟨tlb', know', epoch', h⟩ := access_midCopy (r := { r with marked := true, scope := scopeOf (ownPieceAt x) }) (rd := true) (wr := true)
      (l := [x]) hs (hv.noted tlb know epoch) ⟨hkey, hver, hser, hwps, hreach, hscope _ rfl⟩ (by simpa using hfits.inDst x hx)
      (by simp [hpoison]) fun _ => ⟨by simpa using hfits.room x hx, hfits.noHbm⟩
    exact ⟨_, _, h, _, _, _, rfl⟩
  obtain ⟨u', hu', tlb, know, epoch, rfl⟩ := M.forIn_ok _ hround ⟨v.tlb, v.know, v.epoch, (rfl : s.midCopy v = _)⟩
  exact ⟨tlb, know, epoch, hu'⟩

omit hpoison in
/-- The accesses of a chunk's sources, or of its destinations, are made when there are such. -/
theorem access_ifAny_midCopy {rd wr : Bool} {l : List (Nat × Nat)} (hl : ∀ x ∈ l, s.InScratch x) (hclear : r.poison = false)
    (hroom : wr = true → (∀ x ∈ l, ∀ b ∈ ownBlocks s.cur x, b ∈ blocks) ∧ ∀ b ∈ blocks, b.1 ≠ .hbm) :
    ∃ tlb know epoch, ∀ (α : Type) (k : List Piece → M α), (if l.map ownSpan = [] then (do let ps ← pure []; k ps) else do
        let ps ← access r rd wr (l.map ownSpan); k ps : M α) (s.midCopy v) = k (l.map ownPieceAt) (s.midCopy (v.noted tlb know epoch)) := by
  cases l with
  | nil => exact ⟨v.tlb, v.know, v.epoch, fun _ _ => rfl⟩
  | cons x l =>
    obtain ⟨tlb, know, epoch, h⟩ := access_midCopy (rd := rd) (wr := wr) hs hv hr hl (by simp [hclear]) hroom
    refine ⟨tlb, know, epoch, fun α k => ?_⟩
    rw [if_neg (by simp), M.run_bind_ok h]

omit hv hpoison in
/-- The blocks of the slices that a chunk is the first to write find room. -/
theorem writeRoom_staging_midCopy (hv : v.Sound s blocks) (hfits : ChunkFits s blocks parts ls ld) {lines : List (Space × Nat)} {va : Nat}
    (hnodup : lines.Nodup) (hlines : ∀ b ∈ lines, ∃ p ∈ parts, ∃ d, p.dst = .stg d ∧ ∃ n ∈ blocksOf d p.len,
      (v.ver r.ver).hasLine .staging n = false ∧ b = (Space.staging, n)) :
    writeRoom r lines va (s.midCopy v) = .ok ((), s.midCopy v) := by
  refine writeRoom_midCopy hv hs hr.key hr.ver hnodup (fun b hb => ?_) hfits.noHbm
  obtain ⟨p, hp, d, hd, n, hn, hnew, rfl⟩ := hlines b hb
  exact List.mem_filter.2 ⟨hfits.roomStaging p hp d hd n hn, by simpa [← hr.ver] using hnew⟩

/-- A chunk in the own scratch and the slices passes every check before any of it is performed (R188, R214). -/
theorem checkChunk_midCopy (hfits : ChunkFits s blocks parts ls ld) {rreach : Reach} (hrreach : rreach.scratch = true) (marked : Bool) :
    ∃ tlb know epoch, checkChunk r rreach parts marked (s.midCopy v) =
      .ok ((ls.map ownPieceAt, ld.map ownPieceAt), s.midCopy (v.noted tlb know epoch)) := by
  obtain ⟨hsrcs, hdsts, hinSrc, hinDst, hstaging, hroom, hroomStaging, hhbm⟩ := id hfits
  have hrsrc : ({ r with reach := rreach } : Req).Copies s := ⟨hr.key, hr.ver, hr.ser, hr.wps, hrreach, hr.scope⟩
  obtain ⟨tlb, know, epoch, hread⟩ := access_ifAny_midCopy (rd := true) (wr := false) (l := ls) hs hv hrsrc hinSrc hpoison
    (fun h => absurd h Bool.false_ne_true)
  have hcid : ((s.thr s.cur).midCopy v).cid = (s.thr s.cur).cid := rfl
  have hstg : stgFail (s.midCopy v) (s.thr s.cur).cid (parts.flatMap fun p => [(p.src, p.len), (p.dst, p.len)]) = [] := hstaging
  unfold checkChunk
  rw [M.run_bind_ok (M.run_get _)]
  simp only [hr.key, State.thr_midCopy, hcid, hsrcs, hdsts, resolveAt_midCopy hinSrc hrreach, resolveAt_midCopy hinDst hr.reach, hstg, firstFail]
  rw [show ∀ P : Piece → Bool, (∀ q, q.tgt = .own → P q = false) → (ld.map ownPieceAt).any P = false from fun P hP =>
    List.any_eq_false.2 fun q hq => by simp [hP q (tgt_of_mem_ownPieces q hq)]]
  rotate_left
  · intro q hq
    simp only [hq]
  simp only [List.map_nil, List.append_nil, List.filter_nil, lowest, Bool.not_false, if_true]
  rw [List.filterMap_eq_nil_iff.2 fun p hp => raceFail_own (tgt_of_mem_ownPieces p hp),
    List.filterMap_eq_nil_iff.2 fun p hp => raceFail_own (tgt_of_mem_ownPieces p hp)]
  simp only [List.append_nil]
  have hlow : lowest [] = none := rfl
  cases marked with
  | true =>
    simp only [hlow, if_true]
    rw [← hr.key, hread]
    obtain ⟨tlb', know', epoch', heach⟩ := access_each_midCopy hs (hv.noted tlb know epoch) hr hpoison hfits
      (scopeOf := fun p => match p.tgt with | .host => 9 | .own => 3 | .peer _ => 3 | .remote _ => 3 | _ => 5) (fun p hp => by simp only [hp]; omega)
    exact ⟨_, _, _, M.run_bind_ok heach⟩
  | false =>
    obtain ⟨tlb', know', epoch', hwrite⟩ := access_ifAny_midCopy (rd := false) (wr := true) (l := ld) hs (hv.noted tlb know epoch) hr hinDst hpoison
      fun _ => ⟨hroom, hhbm⟩
    refine ⟨tlb', know', epoch', ?_⟩
    simp only [hlow, Bool.false_eq_true, if_false]
    rw [← hr.key, hread, hwrite, M.run_ite]
    split
    · rw [M.run_bind_ok (writeRoom_staging_midCopy hs hr ((hv.noted tlb know epoch).noted tlb' know' epoch') hfits (nodup_eraseDups _) ?_)]
      · rfl
      · intro b hb
        simp only [List.mem_eraseDups, List.mem_flatMap] at hb
        obtain ⟨p, hp, hb⟩ := hb
        split at hb
        next d hd =>
          simp only [List.mem_map, List.mem_filter] at hb
          obtain ⟨n, ⟨hn, hnew⟩, rfl⟩ := hb
          exact ⟨p, hp, d, hd, n, hn, (Bool.not_eq_eq_eq_not ..).1 hnew, rfl⟩
        next => exact absurd hb List.not_mem_nil
    · rfl

end

end Sys2Proof.Machine
end

section
/-! What a copy writes to the own scratch and to the slices. -/

namespace Sys2Proof.Machine

/-! ## Operations of a copy -/

/-- An operation of a copy under way completes with a value, and what it leaves is sound and as given. -/
def State.Does (s : State) (blocks : List (Space × Nat)) (v : CopyVars) {α : Type} (op : M α) (a : α) (post : CopyVars → Prop) : Prop :=
  ∃ w, op (s.midCopy v) = .ok (a, s.midCopy w) ∧ w.Sound s blocks ∧ post w

section
variable {s : State} {blocks : List (Space × Nat)} {v : CopyVars} {α β : Type} {op : M α} {a : α} {P Q : CopyVars → Prop}

/-- One operation after another. -/
theorem State.Does.bind {k : α → M β} {b : β} (h : s.Does blocks v op a P)
    (hk : ∀ w, w.Sound s blocks → P w → s.Does blocks w (k a) b Q) : s.Does blocks v (op >>= k) b Q := by
  obtain ⟨w, hw, hsound, hP⟩ := h
  obtain ⟨x, hx, hxs, hQ⟩ := hk w hsound hP
  exact ⟨x, (M.run_bind_ok hw).trans hx, hxs, hQ⟩

/-- What is left may be said with less. -/
theorem State.Does.mono (h : s.Does blocks v op a P) (hPQ : ∀ w, w.Sound s blocks → P w → Q w) : s.Does blocks v op a Q := by
  obtain ⟨w, hw, hsound, hP⟩ := h
  exact ⟨w, hw, hsound, hPQ w hsound hP⟩

/-- An operation that leaves everything. -/
theorem State.Does.of_keeps (hv : v.Sound s blocks) (h : op (s.midCopy v) = .ok (a, s.midCopy v)) (hP : P v) : s.Does blocks v op a P :=
  ⟨v, h, hv, hP⟩

end

/-! ## Blocks -/

theorem mem_countFrom {a n x : Nat} : x ∈ countFrom a n ↔ a ≤ x ∧ x < a + n := by
  induction n generalizing a with
  | zero => simp [countFrom]
  | succ n ih => simp only [countFrom, List.mem_cons, ih]; omega

theorem mem_blocksOf {a n b : Nat} : b ∈ blocksOf a n ↔ 0 < n ∧ a / 64 ≤ b ∧ b ≤ (a + n - 1) / 64 := by
  unfold blocksOf
  split
  · simp; omega
  · rw [mem_countFrom]
    omega

/-- The block of a byte of a range. -/
theorem mem_blocksOf_of_mem {a n c : Nat} (h : a ≤ c ∧ c < a + n) : c / 64 ∈ blocksOf a n := by
  rw [mem_blocksOf]
  omega

/-- Bytes cut at blocks begin in the range, and none is empty. -/
theorem mem_cutBytes {fuel a : Nat} {l : List Byte} : ∀ g ∈ cutBytes fuel a l, a ≤ g.1 ∧ g.1 < a + l.length := by
  induction fuel generalizing a l with
  | zero => simp [cutBytes]
  | succ fuel ih =>
    cases l with
    | nil => simp [cutBytes]
    | cons b t =>
      intro g hg
      simp only [cutBytes] at hg
      split at hg
      · obtain rfl := List.mem_singleton.1 hg
        simp
      · rcases List.mem_cons.1 hg with rfl | hg
        · simp
        · have hrest := ih g hg
          rw [List.length_drop] at hrest
          omega

/-! ## Undo records -/

/-- A version with the record of a first write to a block of scratch or staging. -/
def Version.noting (w : Version) (stamp : Nat) (u : Undo) : Version :=
  { w with undo := { u with stamp := stamp, mask := BitVec.allOnes 64, tagW := true } :: w.undo, use := w.use + 64, useKnext := w.useKnext + 64 }

/-- A version once a write to a block of scratch or of staging has been noted (R378). -/
def Version.undone (w : Version) (stamp : Nat) (u : Undo) : Version := if w.hasLine u.space u.line then w else w.noting stamp u

theorem Version.id_undone (w : Version) (stamp : Nat) (u : Undo) : (w.undone stamp u).id = w.id := by
  rw [Version.undone]
  split <;> rfl

section
variable {w : Version} {stamp : Nat} {u : Undo} (hu : u.space ≠ .hbm)
include hu

theorem Version.kept_undone : (w.undone stamp u).kept = w.kept := by
  rw [Version.undone]
  split
  · rfl
  · simp [Version.kept, Version.noting, Version.mscBytes, hu]

/-- A version with a record of a block has written that block. -/
theorem Version.hasLine_noting (b : Space × Nat) :
    (w.noting stamp u).hasLine b.1 b.2 = (w.hasLine b.1 b.2 || (decide (u.space = b.1) && u.line == b.2)) := by
  by_cases hb : b.1 = .hbm
  · simp [Version.hasLine, Version.noting, hb, hu]
  · simp only [Version.hasLine, Version.noting, if_neg hb, List.any_cons, Bool.or_comm]
    rfl

/-- The note of a write is paid for by its block, which the version is not the first to write again (R384). -/
theorem Version.undone_room {blocks : List (Space × Nat)} (hmem : (u.space, u.line) ∈ blocks) :
    (w.undone stamp u).useKnext + 64 * ((w.undone stamp u).unwritten blocks).length ≤ w.useKnext + 64 * (w.unwritten blocks).length := by
  rw [Version.undone]
  split
  · exact le_rfl
  next hnew =>
    have hsplit : (w.noting stamp u).unwritten blocks = (w.unwritten blocks).filter fun b => !(decide (u.space = b.1) && u.line == b.2) := by
      simp only [Version.unwritten, Version.hasLine_noting hu, List.filter_filter, Bool.not_or, Bool.and_comm]
    have hlt : ((w.noting stamp u).unwritten blocks).length < (w.unwritten blocks).length := by
      rw [hsplit]
      exact List.length_filter_lt_length_iff_exists.2 ⟨(u.space, u.line), List.mem_filter.2 ⟨hmem, by simpa using hnew⟩, by simp⟩
    have huse : (w.noting stamp u).useKnext = w.useKnext + 64 := rfl
    omega

end

/-- A copy under way once a write to a block has been noted. -/
def CopyVars.undone (v : CopyVars) (id : Nat) (u : Undo) : CopyVars :=
  { v with stamp := v.stamp + 1, versions := v.versions.map fun x => if x.id = id then x.undone (v.stamp + 1) u else x }

/-- A version by its number, once a write has been noted in it. -/
theorem CopyVars.ver_undone (v : CopyVars) (id : Nat) (u : Undo) :
    (v.undone id u).ver id = (v.ver id).undone (v.stamp + 1) u ∨ (v.undone id u).ver id = v.ver id := by
  have hfind (l : List Version) : (l.map fun x => if x.id = id then x.undone (v.stamp + 1) u else x).find? (fun x => x.id = id) =
      (l.find? fun x => x.id = id).map fun x => x.undone (v.stamp + 1) u := by
    induction l with
    | nil => rfl
    | cons x l ih =>
      by_cases hx : x.id = id
      · simp [hx, Version.id_undone]
      · simp [hx, ih]
  simp only [CopyVars.ver, CopyVars.undone, hfind]
  cases v.versions.find? fun x => x.id = id with
  | none => exact .inr rfl
  | some x => exact .inl rfl

/-- The undo record of a write to scratch or staging. -/
theorem State.addUndo_midCopy {s : State} {v : CopyVars} {id : Nat} {u : Undo} (hu : u.space ≠ .hbm) :
    (s.midCopy v).addUndo s.cur id u = s.midCopy (v.undone id u) := by
  have hnote : (fun x : Version => if x.hasLine u.space u.line = true then x else
      { x with undo := { u with stamp := v.stamp + 1, mask := BitVec.allOnes 64, tagW := true } :: x.undo
               use := x.use + if x.hasLine u.space u.line = true then 0 else 64
               useKnext := x.useKnext + if x.hasLine u.space u.line = true then 0 else 64 }) = fun x => x.undone (v.stamp + 1) u := by
    funext x
    rw [Version.undone]
    split <;> rfl
  unfold State.addUndo
  simp only [if_neg hu, State.stamp_midCopy, hnote]
  exact State.updThr_midCopy (s := s) (v := { v with stamp := v.stamp + 1 }) rfl ⟨rfl, rfl, rfl, rfl⟩

theorem CopyVars.Sound.undone {s : State} {v : CopyVars} {blocks : List (Space × Nat)} {u : Undo} (hv : v.Sound s blocks) (hu : u.space ≠ .hbm)
    (hmem : (u.space, u.line) ∈ blocks) : (v.undone (s.thr s.cur).curVer.id u).Sound s blocks := by
  refine ⟨hv.grans, hv.asked, hv.hits, hv.early, hv.scores, Eq.trans ?_ hv.versions, le_trans ?_ hv.room, hv.wf, hv.wfStaging⟩
  · simp only [CopyVars.undone, List.map_map]
    refine List.map_congr_left fun x _ => ?_
    simp only [Function.comp_apply]
    split
    · exact Version.kept_undone hu
    · rfl
  · rcases v.ver_undone (s.thr s.cur).curVer.id u with h | h
    · rw [h]
      exact Version.undone_room hu hmem
    · rw [h]

/-! ## Writes -/

/-- The two spaces that a copy writes here: the own scratch and the slices. -/
def State.side (s : State) (stg : Bool) : Space := if stg then .staging else .scratch s.cur

theorem State.side_ne_hbm (s : State) (stg : Bool) : s.side stg ≠ .hbm := by cases stg <;> simp [State.side]

/-- The memory of a space that a copy writes. -/
def CopyVars.mem (v : CopyVars) (stg : Bool) : Memory := if stg then v.staging else v.scratch

def CopyVars.setMem (v : CopyVars) (stg : Bool) (m : Memory) : CopyVars := if stg then { v with staging := m } else { v with scratch := m }

@[simp] theorem CopyVars.mem_setMem (v : CopyVars) (stg : Bool) (m : Memory) : (v.setMem stg m).mem stg = m := by cases stg <;> rfl
@[simp] theorem CopyVars.mem_setMem_other (v : CopyVars) (stg : Bool) (m : Memory) : (v.setMem stg m).mem (!stg) = v.mem (!stg) := by
  cases stg <;> rfl
@[simp] theorem CopyVars.head_setMem (v : CopyVars) (stg : Bool) (m : Memory) : (v.setMem stg m).head = v.head := by cases stg <;> rfl
@[simp] theorem CopyVars.vstat_setMem (v : CopyVars) (stg : Bool) (m : Memory) : (v.setMem stg m).vstat = v.vstat := by cases stg <;> rfl

/-- Of a copy under way the memory of one space alone has changed. -/
structure CopyVars.Wrote (v w : CopyVars) (stg : Bool) (m : Memory) : Prop where
  head : w.head = v.head
  vstat : w.vstat = v.vstat
  mem : w.mem stg = m
  other : w.mem (!stg) = v.mem (!stg)

theorem CopyVars.Wrote.refl (v : CopyVars) (stg : Bool) : v.Wrote v stg (v.mem stg) := ⟨rfl, rfl, rfl, rfl⟩

theorem CopyVars.Wrote.trans {v w x : CopyVars} {stg : Bool} {m m' : Memory} (h : v.Wrote w stg m) (h' : w.Wrote x stg m') : v.Wrote x stg m' :=
  ⟨h'.head.trans h.head, h'.vstat.trans h.vstat, h'.mem, h'.other.trans h.other⟩

section
variable {s : State} {v : CopyVars} {blocks : List (Space × Nat)} {stg : Bool}

@[simp] theorem State.space_side_midCopy : (s.midCopy v).space (s.side stg) = v.mem stg := by
  cases stg
  · exact State.space_scratch_midCopy
  · rfl

theorem State.setSpace_side_midCopy {m : Memory} : (s.midCopy v).setSpace (s.side stg) m = s.midCopy (v.setMem stg m) := by
  cases stg
  · exact State.updThr_midCopy (f := fun t => { t with scratch := m }) rfl ⟨rfl, rfl, rfl, rfl⟩
  · rfl

/-- The memories are in canonical form as far as they were. -/
theorem CopyVars.Sound.setMem (hv : v.Sound s blocks) {m : Memory} (hm : (v.mem stg).wf = true → m.wf = true) : (v.setMem stg m).Sound s blocks := by
  cases stg
  · exact ⟨hv.grans, hv.asked, hv.hits, hv.early, hv.scores, hv.versions, hv.room, hm hv.wf, hv.wfStaging⟩
  · exact ⟨hv.grans, hv.asked, hv.hits, hv.early, hv.scores, hv.versions, hv.room, hv.wf, fun h => hm (hv.wfStaging h)⟩

/-- A memory of a copy changed under its version, with the undo record of its block. -/
theorem State.noteAndSet_midCopy (hv : v.Sound s blocks) {u : Undo} {m : Memory} (hu : u.space = s.side stg) (hmem : (s.side stg, u.line) ∈ blocks)
    (hm : (v.mem stg).wf = true → m.wf = true) : ∃ w, ((s.midCopy v).addUndo s.cur (s.thr s.cur).curVer.id u).setSpace (s.side stg) m = s.midCopy w ∧
      w.Sound s blocks ∧ v.Wrote w stg m := by
  have hne : u.space ≠ .hbm := hu ▸ s.side_ne_hbm stg
  refine ⟨(v.undone (s.thr s.cur).curVer.id u).setMem stg m, ?_, (hv.undone hne (hu ▸ hmem)).setMem hm,
    by simp [CopyVars.undone], by simp [CopyVars.undone], by simp, ?_⟩
  · rw [State.addUndo_midCopy hne, State.setSpace_side_midCopy]
  · rw [CopyVars.mem_setMem_other]
    rfl

/-- The share of one block in a write. -/
theorem State.writeSeg_midCopy (hv : v.Sound s blocks) {seg : Nat × List Byte} (hmem : (s.side stg, seg.1 / 64) ∈ blocks) :
    ∃ w, State.writeSeg s.cur (s.thr s.cur).curVer.id (s.side stg) (s.midCopy v) seg = s.midCopy w ∧ w.Sound s blocks ∧
      v.Wrote w stg ((v.mem stg).setBytes seg.1 seg.2) := by
  have hspace (u : Undo) (hu : u.space = s.side stg) :
      ((s.midCopy v).addUndo s.cur (s.thr s.cur).curVer.id u).space (s.side stg) = v.mem stg := by
    rw [State.addUndo_midCopy (hu ▸ s.side_ne_hbm stg), State.space_side_midCopy]
    rfl
  simp only [State.writeSeg]
  rw [hspace _ rfl]
  exact State.noteAndSet_midCopy hv rfl hmem fun h => Memory.wf_setBytes h _ _

theorem State.writeSegs_midCopy {segs : List (Nat × List Byte)} (hv : v.Sound s blocks) (hmem : ∀ g ∈ segs, (s.side stg, g.1 / 64) ∈ blocks) :
    ∃ w, segs.foldl (State.writeSeg s.cur (s.thr s.cur).curVer.id (s.side stg)) (s.midCopy v) = s.midCopy w ∧ w.Sound s blocks ∧
      v.Wrote w stg (segs.foldl (fun m g => m.setBytes g.1 g.2) (v.mem stg)) := by
  induction segs generalizing v with
  | nil => exact ⟨v, rfl, hv, .refl v stg⟩
  | cons g segs ih =>
    obtain ⟨w, hw, hsound, hwrote⟩ := State.writeSeg_midCopy hv (hmem g List.mem_cons_self)
    obtain ⟨x, hx, hxs, hrest⟩ := ih hsound fun g' h => hmem g' (List.mem_cons_of_mem _ h)
    rw [hwrote.mem] at hrest
    exact ⟨x, by rw [List.foldl_cons, hw, hx], hxs, hwrote.trans hrest⟩

/-- What a copy writes under its version is written there (R378). -/
theorem State.writeVer_midCopy {a : Nat} {data : List Byte} (hv : v.Sound s blocks)
    (hmem : ∀ b ∈ blocksOf a data.length, (s.side stg, b) ∈ blocks) :
    ∃ w, (s.midCopy v).writeVer s.cur (s.thr s.cur).curVer.id (s.side stg) a data = s.midCopy w ∧ w.Sound s blocks ∧
      v.Wrote w stg ((v.mem stg).setBytes a data) := by
  obtain ⟨w, hw, hsound, hwrote⟩ := State.writeSegs_midCopy (stg := stg) (segs := cutBytes (data.length / 64 + 2) a data) hv
    fun g hg => hmem _ (mem_blocksOf_of_mem (mem_cutBytes g hg))
  rw [Memory.setBytes_cutBytes _ (by omega)] at hwrote
  exact ⟨w, by rw [State.writeVer_eq, hw], hsound, hwrote⟩

/-- The tag of a block that a copy writes. -/
theorem State.writeTagVer_midCopy {a : Nat} {tag : W32} (hv : v.Sound s blocks) (hmem : (s.side stg, a / 64) ∈ blocks) :
    ∃ w, (s.midCopy v).writeTagVer s.cur (s.thr s.cur).curVer.id (s.side stg) a tag = s.midCopy w ∧ w.Sound s blocks ∧
      v.Wrote w stg ((v.mem stg).setTag a tag) := by
  have hspace (u : Undo) (hu : u.space = s.side stg) :
      ((s.midCopy v).addUndo s.cur (s.thr s.cur).curVer.id u).space (s.side stg) = v.mem stg := by
    rw [State.addUndo_midCopy (hu ▸ s.side_ne_hbm stg), State.space_side_midCopy]
    rfl
  simp only [State.writeTagVer]
  rw [hspace _ rfl]
  exact State.noteAndSet_midCopy hv rfl hmem fun h => Memory.wf_setTag h _ _

/-- Earlier releases at the bytes written end, which leaves a copy sound. -/
theorem State.dropRels_midCopy (hv : v.Sound s blocks) {sp : Space} {host : Bool} {a n : Nat} {ver : Option Nat} :
    ∃ w, (s.midCopy v).dropRels sp host a n ver = s.midCopy w ∧ w.Sound s blocks ∧ v.Wrote w stg (v.mem stg) := by
  obtain ⟨rels, h⟩ := State.dropRels_eq (s := s.midCopy v) (sp := sp) (host := host) (a := a) (n := n) (ver := ver)
  exact ⟨{ v with rels := rels }, h, ⟨hv.grans, hv.asked, hv.hits, hv.early, hv.scores, hv.versions, hv.room, hv.wf, hv.wfStaging⟩,
    rfl, rfl, by cases stg <;> rfl, by cases stg <;> rfl⟩

/-- Bytes written to a piece of the own scratch. -/
theorem writePiece_midCopy {r : Req} {x : Nat × Nat} {data : List Byte} (hv : v.Sound s blocks) (hr : r.Copies s)
    (hmem : ∀ b ∈ blocksOf x.1 data.length, (Space.scratch s.cur, b) ∈ blocks) :
    s.Does blocks v (writePiece r (ownPieceAt x) data) () fun w => v.Wrote w false (v.scratch.setBytes x.1 data) := by
  obtain ⟨w, hw, hsound, hwrote⟩ := State.dropRels_midCopy (stg := false) hv (sp := .scratch s.cur) (host := false) (a := x.1) (n := x.2)
    (ver := (s.midCopy v).liveVer s.cur (s.thr s.cur).curVer.id)
  obtain ⟨y, hy, hysound, hywrote⟩ := State.writeVer_midCopy (stg := false) hsound hmem
  rw [hwrote.mem] at hywrote
  have hput : putPiece r (ownPieceAt x) data (s.midCopy v) = .ok ((), ((s.midCopy v).dropRels (.scratch r.key) false x.1 x.2
      ((s.midCopy v).liveVer r.key r.ver)).writeVer r.key r.ver (.scratch r.key) x.1 data) := rfl
  rw [hr.key, hr.ver, hw] at hput
  rw [State.side, if_neg Bool.false_ne_true] at hy
  rw [hy] at hput
  exact ⟨y, (M.run_bind_ok hput).trans (peerWatch_own rfl), hysound, hwrote.trans hywrote⟩

end

end Sys2Proof.Machine
end

section
/-! Where the ends of a copy's runs lie: in the own scratch, in the slices, or given bytes. -/

namespace Sys2Proof.Machine

@[simp] theorem ownPieceAt_len (x : Nat × Nat) : (ownPieceAt x).len = x.2 := rfl
@[simp] theorem ownPieceAt_addr (x : Nat × Nat) : (ownPieceAt x).addr = x.1 := rfl
@[simp] theorem ownPieceAt_space (key : Nat) (x : Nat × Nat) : (ownPieceAt x).space key = some (.scratch key) := rfl

theorem ownPieceAt_va {x : Nat × Nat} (h : x.1 ≤ 2097152) : (ownPieceAt x).va = 18302628885633695744 + x.1 := scratchVa_toNat h

/-! ## Runs of bytes that follow each other -/

/-- Spans that follow each other from an address on. -/
def Abut : Nat → List (Nat × Nat) → Prop
  | _, [] => True
  | a, x :: l => x.1 = a ∧ Abut (a + x.2) l

/-- The bytes of spans taken together. -/
def spanSum (l : List (Nat × Nat)) : Nat := (l.map (·.2)).sum

section
variable {s : State} {v : CopyVars} {blocks : List (Space × Nat)} {r : Req}

/-- Bytes written to pieces of the own scratch that follow each other. -/
theorem writeLocal_midCopy {a : Nat} {ld : List (Nat × Nat)} {data : List Byte} (hv : v.Sound s blocks) (hr : r.Copies s) (habut : Abut a ld)
    (hlen : data.length = spanSum ld) (hmem : ∀ x ∈ ld, ∀ b ∈ ownBlocks s.cur x, b ∈ blocks) :
    s.Does blocks v (writeLocal r (ld.map ownPieceAt) data) () fun w => v.Wrote w false (v.scratch.setBytes a data) := by
  induction ld generalizing a data v with
  | nil =>
    obtain rfl : data = [] := List.eq_nil_of_length_eq_zero hlen
    exact .of_keeps hv rfl (.refl v false)
  | cons x ld ih =>
    obtain ⟨rfl, hrest⟩ := habut
    have hsum : data.length = x.2 + spanSum ld := hlen
    have htake : (data.take x.2).length = x.2 := by rw [List.length_take]; omega
    have hfirst : s.Does blocks v (writePiece r (ownPieceAt x) (data.take x.2)) () fun w =>
        v.Wrote w false (v.scratch.setBytes x.1 (data.take x.2)) :=
      writePiece_midCopy hv hr fun b hb => hmem x List.mem_cons_self _ (List.mem_map_of_mem (by rwa [htake] at hb))
    show State.Does _ _ _ (writePiece r (ownPieceAt x) (data.take x.2) >>= fun _ => writeLocal r (ld.map ownPieceAt) (data.drop x.2)) _ _
    refine hfirst.bind fun w hw hwrote => (ih hw hrest ?_ fun y hy => hmem y (List.mem_cons_of_mem _ hy)).mono fun y _ hy => ?_
    · rw [List.length_drop]
      omega
    · have happ := v.scratch.setBytes_append x.1 (data.take x.2) (data.drop x.2)
      rw [htake, List.take_append_drop] at happ
      rw [show w.scratch = _ from hwrote.mem, happ] at hy
      exact hwrote.trans hy

end

/-! ## Ends -/

/-- A byte of the own scratch or of the slices, as a run names it. -/
def endAt (stg : Bool) (x : Nat) : Loc := if stg then .stg x else .va (scratchVa x).toNat

/-- A span that a piece of the own scratch holds. -/
theorem pieceAt_ownPieces {l : List (Nat × Nat)} {c : Nat} (hwin : ∀ x ∈ l, x.1 + x.2 ≤ 2097152) (hc : ∃ x ∈ l, x.1 ≤ c ∧ c < x.1 + x.2) :
    ∃ x ∈ l, pieceAt (l.map ownPieceAt) (scratchVa c).toNat = some (ownPieceAt x) ∧ x.1 ≤ c ∧ c < x.1 + x.2 := by
  obtain ⟨x, hx, hlo, hhi⟩ := hc
  have hcva := scratchVa_toNat (off := c) (by have := hwin x hx; omega)
  have htest : ∀ y ∈ l, (ownPieceAt y).va = 18302628885633695744 + y.1 := fun y hy => ownPieceAt_va (by have := hwin y hy; omega)
  have hsome : (pieceAt (l.map ownPieceAt) (scratchVa c).toNat).isSome = true := by
    refine List.find?_isSome.2 ⟨ownPieceAt x, List.mem_map_of_mem hx, ?_⟩
    simp only [Bool.and_eq_true, decide_eq_true_eq]
    rw [htest x hx, hcva, ownPieceAt_len]
    omega
  obtain ⟨p, hp⟩ := Option.isSome_iff_exists.1 hsome
  obtain ⟨y, hy, rfl⟩ := List.mem_map.1 (List.mem_of_find?_eq_some hp)
  have hin := List.find?_some hp
  simp only [Bool.and_eq_true, decide_eq_true_eq] at hin
  rw [htest y hy, hcva, ownPieceAt_len] at hin
  exact ⟨y, hy, hp, by omega, by omega⟩

section
variable {s : State} {v : CopyVars} {stg : Bool} {x off n : Nat} {l : List (Nat × Nat)}

/-- The place of a byte of an end. -/
theorem Loc.block_endAt (hwin : ∀ y ∈ l, y.1 + y.2 ≤ 2097152) (h : stg = false → ∃ y ∈ l, y.1 ≤ x + off ∧ x + off < y.1 + y.2) :
    (endAt stg x).block s.cur (l.map ownPieceAt) off = some (s.side stg, x + off) := by
  cases stg with
  | true => rfl
  | false =>
    obtain ⟨y, hy, hpiece, hlo, hhi⟩ := pieceAt_ownPieces hwin (h rfl)
    have hbound := hwin y hy
    have hx := scratchVa_toNat (off := x) (by omega)
    have hxo := scratchVa_toNat (off := x + off) (by omega)
    have hy1 := ownPieceAt_va (x := y) (by omega)
    have hmod : ((scratchVa x).toNat + off) % two64 = (scratchVa (x + off)).toNat := by
      rw [hx, hxo, two64]
      omega
    simp only [endAt, Loc.block, hmod, hpiece, ownPieceAt_space, ownPieceAt_addr, Option.map_some, State.side, Bool.false_eq_true, if_false]
    rw [hy1, hxo]
    congr 2
    omega

/-- The tag that holds a byte of an end. -/
theorem Loc.tag_endAt (hwin : ∀ y ∈ l, y.1 + y.2 ≤ 2097152) (h : stg = false → ∃ y ∈ l, y.1 ≤ x + off ∧ x + off < y.1 + y.2) :
    (endAt stg x).tag (s.midCopy v) s.cur (l.map ownPieceAt) off = some ((v.mem stg).tag (x + off)) := by
  rw [Loc.tag, Loc.block_endAt hwin h, Option.map_some, State.space_side_midCopy]

/-- Ends are aligned as their places are. -/
theorem Loc.addr_endAt (h : stg = false → x + off ≤ 2097152) : ((endAt stg x).addr off) % 64 = (x + off) % 64 := by
  cases stg with
  | true => rfl
  | false =>
    simp only [endAt, Bool.false_eq_true, if_false, Loc.addr]
    rw [scratchVa_toNat (by have := h rfl; omega), two64]
    have := h rfl
    omega

/-- The bytes of an end. -/
theorem Loc.bytes_endAt (hv : v.head.early = []) (hl : stg = false → (∃ y ∈ l, y.1 ≤ x ∧ x < y.1 + y.2) ∧ 0 < n ∧ x % 16384 + n ≤ 16384)
    (hwin : ∀ y ∈ l, y.1 + y.2 ≤ 2097152) {rem : List ((Nat × Nat) × BitVec 512)} :
    (endAt stg x).bytes (s.midCopy v) s.cur (l.map ownPieceAt) rem n = (v.mem stg).bytes x n := by
  cases stg with
  | true => rfl
  | false =>
    obtain ⟨hmem, hpos, hpage⟩ := hl rfl
    obtain ⟨y, hy, hpiece, hlo, hhi⟩ := pieceAt_ownPieces (c := x) hwin hmem
    have hybound := hwin y hy
    have hx := scratchVa_toNat (off := x) (by omega)
    have hcut : cutSpan (n / 16384 + 2) ((scratchVa x).toNat % two64) n = [((scratchVa x).toNat, n)] := by
      have hmod : (scratchVa x).toNat % two64 = (scratchVa x).toNat := Nat.mod_eq_of_lt (scratchVa x).isLt
      obtain ⟨m, rfl⟩ := Nat.exists_eq_succ_of_ne_zero (by omega : n ≠ 0)
      simp only [cutSpan, hmod]
      rw [if_pos (by rw [hx]; omega)]
    have hearly : ((s.midCopy v).thr s.cur).earlyOf 4 = [] := by
      rw [State.thr_midCopy, Thread.earlyOf, if_neg (by decide)]
      simp only [engOfPath, Thread.queue_midCopy]
      simp [hv]
    have hat : (ownPieceAt y).addr + ((scratchVa x).toNat - (ownPieceAt y).va) = x := by
      rw [ownPieceAt_addr, ownPieceAt_va (by omega), hx]
      omega
    simp only [endAt, Bool.false_eq_true, if_false, Loc.bytes, hcut, List.flatMap_cons, List.flatMap_nil, List.append_nil, hpiece,
      ownPieceAt_tgt, ownPieceAt_space, hearly, hat, State.space_scratch_midCopy]
    rfl

end

end Sys2Proof.Machine
end

section
/-! The tags of the blocks that a copy writes (R72, R221). -/

namespace Sys2Proof.Machine

/-! ## Tags written one by one -/

/-- Tags change no byte: the copy has changed those alone, and what its entry notes of blocks it has written in part. -/
structure CopyVars.Tagged (v w : CopyVars) (stg : Bool) : Prop where
  head : w.head = { v.head with cov := w.head.cov }
  vstat : w.vstat = v.vstat
  byte : (w.mem stg).byte = (v.mem stg).byte
  other : w.mem (!stg) = v.mem (!stg)

theorem CopyVars.Tagged.refl (v : CopyVars) (stg : Bool) : v.Tagged v stg := ⟨rfl, rfl, rfl, rfl⟩

theorem CopyVars.Tagged.trans {v w x : CopyVars} {stg : Bool} (h : v.Tagged w stg) (h' : w.Tagged x stg) : v.Tagged x stg :=
  ⟨by rw [h'.head, h.head], h'.vstat.trans h.vstat, h'.byte.trans h.byte, h'.other.trans h.other⟩

theorem CopyVars.Wrote.tagged {v w : CopyVars} {stg : Bool} {m : Memory} (h : v.Wrote w stg m) (hm : m.byte = (v.mem stg).byte) :
    v.Tagged w stg :=
  ⟨by rw [h.head], h.vstat, by rw [h.mem, hm], h.other⟩

/-- A memory with the tags of blocks written one after another. -/
def Memory.setTags (m : Memory) (l : List (Nat × W32)) : Memory := l.foldl (fun m p => m.setTag p.1 p.2) m

theorem Memory.byte_setTags (m : Memory) (l : List (Nat × W32)) : (m.setTags l).byte = m.byte := by
  induction l generalizing m with
  | nil => rfl
  | cons p l ih => exact (ih _).trans rfl

theorem Memory.setTags_append (m : Memory) (l l' : List (Nat × W32)) : m.setTags (l ++ l') = (m.setTags l).setTags l' := List.foldl_append

theorem Memory.wf_setTags {m : Memory} (h : m.wf = true) (l : List (Nat × W32)) : (m.setTags l).wf = true := by
  induction l generalizing m with
  | nil => exact h
  | cons p l ih => exact ih (Memory.wf_setTag h _ _)

/-- The tags of blocks that follow each other. -/
theorem Memory.tag_setTags_range {m : Memory} (hm : m.wf = true) {x : Nat} (hx : x % 64 = 0) (τ : Nat → W32) (k : Nat) {c : Nat} (hc : c % 64 = 0) :
    (m.setTags ((List.range k).map fun j => (x + 64 * j, τ (x + 64 * j)))).tag c = if x ≤ c ∧ c < x + 64 * k then τ c else m.tag c := by
  induction k with
  | zero =>
    rw [if_neg (by omega)]
    rfl
  | succ k ih =>
    rw [List.range_succ, List.map_append, Memory.setTags_append]
    refine (Memory.tag_setTag (Memory.wf_setTags hm _) _ _ _).trans ?_
    dsimp only
    by_cases hlast : c = x + 64 * k
    · rw [if_pos (by rw [hlast]), if_pos (by omega), hlast]
    · rw [if_neg (by omega), ih]
      exact if_congr (by omega) rfl rfl

/-! ## The blocks of a run -/

theorem tagPart_cons (key : Nat) (q : QEntry) (keep : Bool) (fix : Option W32) (b : BlockPart) (bs : List BlockPart) :
    tagPart key q keep fix (b :: bs) = (do tagPart key q keep fix [b]; tagPart key q keep fix bs) := by
  simp only [tagPart, forEach, bind_assoc, pure_bind]

section
variable {s : State} {v : CopyVars} {blocks : List (Space × Nat)} {stg : Bool} {q : QEntry} {keep : Bool} {fix : Option W32}

theorem CopyVars.Sound.cov (hv : v.Sound s blocks) (c : List Cover) : ({ v with head := { v.head with cov := c } } : CopyVars).Sound s blocks :=
  ⟨hv.grans, hv.asked, hv.hits, hv.early, hv.scores, hv.versions, hv.room, hv.wf, hv.wfStaging⟩

/-- The tag of one block changes no byte. -/
theorem tagPart_one_midCopy (hv : v.Sound s blocks) (hq : q.ver = (s.thr s.cur).curVer.id) {b : BlockPart} (hsp : b.sp = s.side stg)
    (hmem : (s.side stg, b.at_ / 64) ∈ blocks) : s.Does blocks v (tagPart s.cur q keep fix [b]) () fun w => v.Tagged w stg := by
  have hset (x : CopyVars) (t : W32) (hx : x.Sound s blocks) (hvx : v.Tagged x stg) :
      s.Does blocks x (modify fun u => u.writeTagVer s.cur q.ver b.sp b.at_ t) () fun w => v.Tagged w stg := by
    obtain ⟨w, hw, hsound, hwrote⟩ := State.writeTagVer_midCopy (stg := stg) (a := b.at_) (tag := t) hx hmem
    exact ⟨w, by rw [M.run_modify, hq, hsp, hw], hsound, hvx.trans (hwrote.tagged rfl)⟩
  have hcov (c : List Cover) : v.Tagged { v with head := { v.head with cov := c } } stg := ⟨rfl, rfl, by cases stg <;> rfl, by cases stg <;> rfl⟩
  simp only [tagPart, forEach]
  refine State.Does.bind (a := ()) (P := fun w => v.Tagged w stg) ?_ fun w hw hw' => .of_keeps hw rfl hw'
  refine State.Does.bind (P := (v = ·)) (.of_keeps hv headEntry_midCopy rfl) ?_
  rintro _ - rfl
  split
  · refine State.Does.bind (P := fun w => v.Tagged w stg) ⟨_, modHead_midCopy, hv.cov _, hcov _⟩ fun w hw hw' => ?_
    split
    · exact hset w _ hw hw'
    · exact .of_keeps hw rfl hw'
  · split
    · exact hset v _ hv (.refl v stg)
    · exact .of_keeps hv rfl (.refl v stg)

/-- The tags of a run change no byte. -/
theorem tagPart_midCopy (hv : v.Sound s blocks) (hq : q.ver = (s.thr s.cur).curVer.id) {bs : List BlockPart}
    (hbs : ∀ b ∈ bs, b.sp = s.side stg ∧ (s.side stg, b.at_ / 64) ∈ blocks) :
    s.Does blocks v (tagPart s.cur q keep fix bs) () fun w => v.Tagged w stg := by
  induction bs generalizing v with
  | nil => exact .of_keeps hv rfl (.refl v stg)
  | cons b bs ih =>
    obtain ⟨hsp, hmem⟩ := hbs b List.mem_cons_self
    rw [tagPart_cons]
    exact (tagPart_one_midCopy hv hq hsp hmem).bind fun w hw hvw =>
      (ih hw fun c hc => hbs c (List.mem_cons_of_mem _ hc)).mono fun x _ hwx => hvw.trans hwx

/-- The tag of a whole block that no POISON byte goes to: the one given, or that of its source block (R72, R221). -/
def BlockPart.newTag (b : BlockPart) (fix : Option W32) : W32 := fix.getD ((b.src.map (·.2)).getD 0)

/-- The whole blocks of a run each get their tag (R72, R221). -/
theorem tagPart_whole_midCopy (hv : v.Sound s blocks) (hq : q.ver = (s.thr s.cur).curVer.id) (hnone : v.head.cov = []) {bs : List BlockPart}
    (hbs : ∀ b ∈ bs, b.sp = s.side stg ∧ (s.side stg, b.at_ / 64) ∈ blocks ∧ b.at_ % 64 = 0 ∧ b.len = 64 ∧ b.poison = false) :
    s.Does blocks v (tagPart s.cur q false fix bs) () fun w =>
      v.Wrote w stg ((v.mem stg).setTags (bs.map fun b => (b.at_, b.newTag fix))) := by
  induction bs generalizing v with
  | nil => exact .of_keeps hv rfl (.refl v stg)
  | cons b bs ih =>
    obtain ⟨hsp, hmem, haligned, hlen, hclean⟩ := hbs b List.mem_cons_self
    obtain ⟨w, hw, hsound, hwrote⟩ := State.writeTagVer_midCopy (stg := stg) (a := b.at_) (tag := b.newTag fix) hv hmem
    have hmask : byteMask (b.at_ % 64) b.len = BitVec.allOnes 64 := by rw [haligned, hlen]; decide
    have htag : (Cover.add none b).tag b fix = some (b.newTag fix) := by
      simp only [Cover.add, Cover.tag, hclean, hmask, Bool.false_eq_true, if_false, if_true, BlockPart.newTag]
      cases fix <;> cases b.src <;> rfl
    have hfirst : s.Does blocks v (tagPart s.cur q false fix [b]) () fun w => v.Wrote w stg ((v.mem stg).setTag b.at_ (b.newTag fix)) := by
      refine ⟨w, ?_, hsound, hwrote⟩
      simp only [tagPart, forEach, M.run_bind, headEntry_midCopy, hnone, List.find?_nil, hlen, htag]
      simp [hq, hsp, hw]
    rw [tagPart_cons]
    refine hfirst.bind fun w hw hvw => (ih hw (by rw [hvw.head, hnone]) fun c hc => hbs c (List.mem_cons_of_mem _ hc)).mono fun x _ hwx => ?_
    rw [hvw.mem] at hwx
    exact hvw.trans hwx

end

end Sys2Proof.Machine
end

section
/-! A chunk of a copy from and to the own scratch and the slices: its bytes are moved, and its tags with them (R72, R214). -/

namespace Sys2Proof.Machine

/-! ## Runs of a chunk -/

/-- What a run reads: given bytes, or those from a place on. -/
inductive Source where
  | lit (l : List Byte)
  | place (stg : Bool) (x : Nat)

def Source.loc : Source → Loc
  | .lit l => .lit l
  | .place stg x => endAt stg x

def Source.bytes (v : CopyVars) (n : Nat) : Source → List Byte
  | .lit l => fitTo n 0#8 l
  | .place stg x => (v.mem stg).bytes x n

/-- The tag that an aligned source gives an aligned block. -/
def Source.blockTag (v : CopyVars) (off : Nat) : Source → Option W32
  | .lit _ => none
  | .place stg x => if x % 64 = 0 then some ((v.mem stg).tag (x + off)) else none

def Source.tag (v : CopyVars) (off : Nat) : Source → Option W32
  | .lit _ => none
  | .place stg x => some ((v.mem stg).tag (x + off))

/-- A run of a chunk: where its bytes go, how many they are, what it reads, and the tag that CPTAG gives. -/
structure CopyRun where
  at_ : Nat
  len : Nat
  src : Source
  tag : Option W32

def CopyRun.part (stg : Bool) (z : CopyRun) : Part := { dst := endAt stg z.at_, src := z.src.loc, len := z.len, tag := z.tag }

/-- The span of the own scratch that a run reads. -/
def CopyRun.ownSrc (z : CopyRun) : Option (Nat × Nat) := match z.src with | .place false x => some (x, z.len) | _ => none

def ownSrcs (zs : List CopyRun) : List (Nat × Nat) := zs.filterMap CopyRun.ownSrc

/-- The spans of the own scratch that runs write. -/
def ownDsts (stg : Bool) (zs : List CopyRun) : List (Nat × Nat) := if stg then [] else zs.map fun z => (z.at_, z.len)

/-- The tag that a run leaves on a whole block of which it has read no POISON byte (R72, R221). -/
def CopyRun.newTag (v : CopyVars) (z : CopyRun) (off : Nat) : W32 :=
  z.tag.getD ((z.src.blockTag v off).getD 0)

/-- What a chunk of runs needs for its checks: its runs go to places that follow each other and may be written, and read places that may be. -/
structure RunsFit (s : State) (blocks : List (Space × Nat)) (stg : Bool) (a : Nat) (zs : List CopyRun) : Prop where
  abut : Abut a (zs.map fun z => (z.at_, z.len))
  pos : ∀ z ∈ zs, 0 < z.len
  dst : stg = false → ∀ z ∈ zs, s.InScratch (z.at_, z.len)
  src : ∀ z ∈ zs, ∀ x, z.src = .place false x → s.InScratch (x, z.len)
  room : ∀ z ∈ zs, ∀ b ∈ blocksOf z.at_ z.len, (s.side stg, b) ∈ blocks
  noHbm : ∀ b ∈ blocks, b.1 ≠ .hbm
  staging : stgFail s (s.thr s.cur).cid ((zs.map (CopyRun.part stg)).flatMap fun p => [(p.src, p.len), (p.dst, p.len)]) = []

/-- Places named by virtual addresses are spans of the own scratch. -/
theorem vaSpans_ownSpan {α : Type} {l : List α} {f : α → Loc × Nat} {g : α → Option (Nat × Nat)}
    (h : ∀ z ∈ l, (∃ x n, g z = some (x, n) ∧ 0 < n ∧ f z = (.va (scratchVa x).toNat, n)) ∨ (g z = none ∧ ∀ a, (f z).1 ≠ .va a)) :
    vaSpans (l.map f) = (l.filterMap g).map ownSpan := by
  rw [vaSpans, List.filterMap_map, List.map_filterMap]
  refine List.filterMap_congr fun z hz => ?_
  rcases h z hz with ⟨x, n, hg, hn, hf⟩ | ⟨hg, hf⟩
  · have hmod : (scratchVa x).toNat % two64 = (scratchVa x).toNat := Nat.mod_eq_of_lt (scratchVa x).isLt
    simp only [Function.comp_apply, hf, hg, Option.map_some, ownSpan, hmod]
    rw [if_neg (by omega)]
  · simp only [Function.comp_apply, hg, Option.map_none]

section
variable {s : State} {v : CopyVars} {blocks : List (Space × Nat)} {stg : Bool} {a : Nat} {zs : List CopyRun} (hfit : RunsFit s blocks stg a zs)
include hfit

theorem RunsFit.ownSrc_inScratch : ∀ x ∈ ownSrcs zs, s.InScratch x := by
  intro x hx
  obtain ⟨z, hz, hzx⟩ := List.mem_filterMap.1 hx
  rw [CopyRun.ownSrc] at hzx
  split at hzx
  next y hy =>
    obtain rfl := Option.some.inj hzx
    exact hfit.src z hz y hy
  next => exact absurd hzx (by simp)

theorem RunsFit.ownDst_inScratch : ∀ x ∈ ownDsts stg zs, s.InScratch x := by
  cases stg with
  | true => exact fun x hx => absurd hx List.not_mem_nil
  | false =>
    intro x hx
    obtain ⟨z, hz, rfl⟩ := List.mem_map.1 hx
    exact hfit.dst rfl z hz

theorem RunsFit.chunkFits : ChunkFits s blocks (zs.map (CopyRun.part stg)) (ownSrcs zs) (ownDsts stg zs) := by
  refine ⟨?_, ?_, hfit.ownSrc_inScratch, hfit.ownDst_inScratch, hfit.staging, ?_, ?_, hfit.noHbm⟩
  · rw [List.map_map]
    refine vaSpans_ownSpan fun z hz => ?_
    rcases hsrc : z.src with l | ⟨b, x⟩
    · exact .inr ⟨by simp [CopyRun.ownSrc, hsrc], by simp [CopyRun.part, hsrc, Source.loc]⟩
    · cases b with
      | true => exact .inr ⟨by simp [CopyRun.ownSrc, hsrc], by simp [CopyRun.part, hsrc, Source.loc, endAt]⟩
      | false => exact .inl ⟨x, z.len, by simp [CopyRun.ownSrc, hsrc], hfit.pos z hz, by simp [CopyRun.part, hsrc, Source.loc, endAt]⟩
  · have hdsts : ownDsts stg zs = zs.filterMap fun z => if stg then none else some (z.at_, z.len) := by
      cases stg <;> simp [ownDsts, List.filterMap_eq_map']
    rw [List.map_map, hdsts]
    refine vaSpans_ownSpan fun z hz => ?_
    cases stg with
    | true => exact .inr ⟨rfl, by simp [CopyRun.part, endAt]⟩
    | false => exact .inl ⟨z.at_, z.len, rfl, hfit.pos z hz, rfl⟩
  · cases stg with
    | true => exact fun x hx => absurd hx List.not_mem_nil
    | false =>
      intro x hx b hb
      obtain ⟨z, hz, rfl⟩ := List.mem_map.1 hx
      obtain ⟨n, hn, rfl⟩ := List.mem_map.1 hb
      exact hfit.room z hz n hn
  · intro p hp d hd b hb
    obtain ⟨z, hz, rfl⟩ := List.mem_map.1 hp
    cases stg with
    | false => simp [CopyRun.part, endAt] at hd
    | true =>
      obtain rfl : z.at_ = d := by simpa [CopyRun.part, endAt] using hd
      exact hfit.room z hz b hb

/-- The bytes that a run reads. -/
theorem RunsFit.bytes_src (hv : v.head.early = []) {rem : List ((Nat × Nat) × BitVec 512)} {z : CopyRun} (hz : z ∈ zs) :
    z.src.loc.bytes (s.midCopy v) s.cur ((ownSrcs zs).map ownPieceAt) rem z.len = z.src.bytes v z.len := by
  rcases hsrc : z.src with l | ⟨b, x⟩
  · rfl
  · refine Loc.bytes_endAt hv (fun hb => ?_) fun y hy => (hfit.ownSrc_inScratch y hy).window
    subst hb
    obtain ⟨hpos, -, -, hpage⟩ := hfit.src z hz x hsrc
    exact ⟨⟨(x, z.len), List.mem_filterMap.2 ⟨z, hz, by simp [CopyRun.ownSrc, hsrc]⟩, by simp, by simpa using hpos⟩, hpos, hpage⟩

/-- The tag of the block that holds a byte a run reads. -/
theorem RunsFit.tag_src {z : CopyRun} (hz : z ∈ zs) {off : Nat} (hoff : off < z.len) :
    z.src.loc.tag (s.midCopy v) s.cur ((ownSrcs zs).map ownPieceAt) off = z.src.tag v off := by
  rcases hsrc : z.src with l | ⟨b, x⟩
  · rfl
  · refine Loc.tag_endAt (fun y hy => (hfit.ownSrc_inScratch y hy).window) fun hb => ?_
    subst hb
    exact ⟨(x, z.len), List.mem_filterMap.2 ⟨z, hz, by simp [CopyRun.ownSrc, hsrc]⟩, by simp, by simpa using hoff⟩

/-- Where a byte of a run goes. -/
theorem RunsFit.block_dst {z : CopyRun} (hz : z ∈ zs) {off : Nat} (hoff : off < z.len) :
    (endAt stg z.at_).block s.cur ((ownDsts stg zs).map ownPieceAt) off = some (s.side stg, z.at_ + off) := by
  refine Loc.block_endAt (fun y hy => (hfit.ownDst_inScratch y hy).window) fun hb => ?_
  subst hb
  exact ⟨(z.at_, z.len), List.mem_map_of_mem hz, by simp, by simpa using hoff⟩

end

/-! ## Blocks of a run -/

theorem mem_blockCuts {first n : Nat} : ∀ c ∈ blockCuts first n, c.1 < n := by
  intro c hc
  obtain ⟨g, hg, rfl⟩ := List.mem_map.1 hc
  have h := mem_cutBytes g hg
  rw [List.length_replicate] at h
  dsimp only
  omega

/-- Whole blocks are cut as such. -/
theorem cutBytes_whole {fuel a m : Nat} (ha : a % 64 = 0) (hm : m < fuel) :
    cutBytes fuel a (List.replicate (64 * m) 0#8) = (List.range m).map fun i => (a + 64 * i, List.replicate 64 0#8) := by
  induction m generalizing fuel a with
  | zero =>
    obtain ⟨k, rfl⟩ := Nat.exists_eq_succ_of_ne_zero (by omega : fuel ≠ 0)
    rfl
  | succ m ih =>
    obtain ⟨k, rfl⟩ := Nat.exists_eq_succ_of_ne_zero (by omega : fuel ≠ 0)
    have hcons : List.replicate (64 * (m + 1)) 0#8 = 0#8 :: List.replicate (64 * m + 63) 0#8 := rfl
    rw [List.range_succ_eq_map, List.map_cons, List.map_map, hcons, cutBytes, ← hcons, List.length_replicate]
    · split
      · obtain rfl : m = 0 := by omega
        rfl
      · have hnext := ih (fuel := k) (a := a + 64) (by omega) (by omega)
        simp only [ha, Nat.sub_zero, List.take_replicate, List.drop_replicate]
        rw [show 64 * (m + 1) - 64 = 64 * m by omega, hnext, show min 64 (64 * (m + 1)) = 64 by omega]
        refine congrArg₂ _ rfl (List.map_congr_left fun i _ => ?_)
        simp only [Function.comp_apply]
        congr 1
        omega
    · simp

theorem blockCuts_whole (m : Nat) : blockCuts 0 (64 * m) = (List.range m).map fun i => (64 * i, 64) := by
  rw [blockCuts, cutBytes_whole rfl (by omega), List.map_map]
  refine List.map_congr_left fun i _ => ?_
  simp

end Sys2Proof.Machine
end

section
/-! What one chunk of a copy does (R72, R214). -/

namespace Sys2Proof.Machine

theorem forEach_eq_pure {α : Type} {l : List α} {f : α → M Unit} (h : ∀ x ∈ l, f x = pure ()) : forEach l f = pure () := by
  induction l with
  | nil => rfl
  | cons x l ih =>
    simp only [forEach, h x List.mem_cons_self, pure_bind]
    exact ih fun y hy => h y (List.mem_cons_of_mem _ hy)

/-! ## What own pieces never need -/

/-- No line of a remote window lies in the own scratch. -/
theorem remoteLines_ownPieces (l : List (Nat × Nat)) : remoteLines (l.map ownPieceAt) = [] := by
  rw [remoteLines, List.flatMap_eq_nil_iff]
  intro p hp
  rw [tgt_of_mem_ownPieces p hp]

theorem fetchRemote_ownPieces (key : Nat) (l : List (Nat × Nat)) : fetchRemote key (l.map ownPieceAt) = pure [] := by
  rw [fetchRemote, remoteLines_ownPieces]
  rfl

/-- No granule is posted to the own scratch. -/
theorem remoteGranules_ownPieces (l : List (Nat × Nat)) (data : List Byte) : remoteGranules (l.map ownPieceAt) data = [] := by
  have hshare (ps : List Piece) (d : List Byte) : ∀ p ∈ shareBytes ps d, p.1 ∈ ps := by
    induction ps generalizing d with
    | nil => simp [shareBytes]
    | cons q ps ih =>
      intro p hp
      rcases List.mem_cons.1 hp with rfl | hp
      · exact List.mem_cons_self
      · exact List.mem_cons_of_mem _ (ih _ p hp)
  have hnone : ((shareBytes (l.map ownPieceAt) data).flatMap fun p =>
      match p.1.tgt with | .remote w => granules w p.1.addr p.2 | _ => []) = [] := by
    rw [List.flatMap_eq_nil_iff]
    intro p hp
    rw [tgt_of_mem_ownPieces p.1 (hshare _ _ p hp)]
  rw [remoteGranules]
  exact (congrArg (mergeGranules · []) hnone).trans rfl

section
variable {s : State} {v : CopyVars} {blocks : List (Space × Nat)} {stg : Bool} {a : Nat} {zs : List CopyRun} {q : QEntry} {r : Req}

/-- A chunk that posts nothing is finished. -/
theorem finishChunk_midCopy (hv : v.Sound s blocks) (red : Option RedTy) : finishChunk s.cur red [] (s.midCopy v) = .ok ((), s.midCopy v) := by
  have hend : endFetch s.cur (s.midCopy v) = .ok ((), s.midCopy v) := by
    rw [endFetch, M.run_bind_ok headEntry_midCopy, M.run_ite, if_neg (by simp [hv.asked])]
    rfl
  rw [finishChunk, M.run_bind_ok hend]
  rfl

/-- A chunk is begun: nothing of an earlier one is left to send. -/
theorem oneChunk_midCopy (hv : v.Sound s blocks) (red : Option RedTy) (body : M Unit) : oneChunk s.cur red body (s.midCopy v) = body (s.midCopy v) := by
  rw [oneChunk, M.run_bind_ok headEntry_midCopy, hv.grans]
  rfl

/-- A queued entry of the current thread's present version, thread and watchpoints. -/
structure QEntry.Of (q : QEntry) (s : State) : Prop where
  ver : q.ver = (s.thr s.cur).curVer.id
  ser : q.ser = (s.thr s.cur).serial
  wps : q.wps = (s.thr s.cur).wp

theorem QEntry.Of.copies (hq : q.Of s) {reach : Reach} (hreach : reach.scratch = true) : ({ cpReq s.cur q with reach := reach } : Req).Copies s :=
  ⟨rfl, hq.ver, congrArg some hq.ser, congrArg some hq.wps, hreach, Nat.zero_le _⟩

/-! ## Bytes -/

/-- The bytes that runs carry, one run after another. -/
def runBytes (v : CopyVars) (zs : List CopyRun) : List Byte := zs.flatMap fun z => z.src.bytes v z.len

theorem length_fitTo {α : Type} (n : Nat) (d : α) (l : List α) : (fitTo n d l).length = n := by
  rw [fitTo, List.length_take, List.length_append, List.length_replicate]
  omega

theorem Source.length_bytes (v : CopyVars) (n : Nat) (x : Source) : (x.bytes v n).length = n := by
  cases x with
  | lit l => exact length_fitTo n _ l
  | place b x => exact Memory.length_bytes _ _ _

theorem length_runBytes (v : CopyVars) (zs : List CopyRun) : (runBytes v zs).length = spanSum (zs.map fun z => (z.at_, z.len)) := by
  induction zs with
  | nil => rfl
  | cons z zs ih =>
    rw [runBytes, List.flatMap_cons, List.length_append, Source.length_bytes]
    exact congrArg (z.len + ·) ih

/-- Runs that follow each other in the slices are written there one by one. -/
theorem forEach_writeVer_staging {d : CopyRun → List Byte} {f : Part × List Byte → M Unit}
    (hf : ∀ z ∈ zs, f (z.part true, d z) = modify fun u => u.writeVer s.cur (s.thr s.cur).curVer.id .staging z.at_ (d z))
    (hd : ∀ z, (d z).length = z.len) (hv : v.Sound s blocks) (habut : Abut a (zs.map fun z => (z.at_, z.len)))
    (hroom : ∀ z ∈ zs, ∀ b ∈ blocksOf z.at_ z.len, (Space.staging, b) ∈ blocks) :
    s.Does blocks v (forEach (zs.map fun z => (z.part true, d z)) f) () fun w => v.Wrote w true (v.staging.setBytes a (zs.flatMap d)) := by
  induction zs generalizing a v with
  | nil => exact .of_keeps hv rfl (.refl v true)
  | cons z zs ih =>
    obtain ⟨rfl, hrest⟩ := habut
    obtain ⟨w, hw, hsound, hwrote⟩ := State.writeVer_midCopy (stg := true) (data := d z) hv (by rw [hd]; exact hroom z List.mem_cons_self)
    have hfirst : s.Does blocks v (f (z.part true, d z)) () fun w => v.Wrote w true (v.staging.setBytes z.at_ (d z)) := by
      rw [hf z List.mem_cons_self]
      exact ⟨w, (M.run_modify _ _).trans (congrArg (fun u => Except.ok ((), u)) hw), hsound, hwrote⟩
    refine hfirst.bind fun w hw hwrote => (ih (fun y hy => hf y (List.mem_cons_of_mem _ hy)) hw hrest
      fun y hy => hroom y (List.mem_cons_of_mem _ hy)).mono fun x _ hx => ?_
    have happ := v.staging.setBytes_append z.at_ (d z) (zs.flatMap d)
    rw [hd] at happ
    rw [show w.staging = _ from hwrote.mem, happ] at hx
    exact hwrote.trans hx

/-- The bytes of runs go where the runs say. -/
theorem writeChunk_midCopy (hfit : RunsFit s blocks stg a zs) (hv : v.Sound s blocks) (hr : r.Copies s) (hq : q.Of s) :
    s.Does blocks v (writeChunk r q ((ownDsts stg zs).map ownPieceAt) (zs.map fun z => (z.part stg, z.src.bytes v z.len))) ()
      fun w => v.Wrote w stg ((v.mem stg).setBytes a (runBytes v zs)) := by
  cases stg with
  | false =>
    have hflat : flatBytes (zs.map fun z => (z.part false, z.src.bytes v z.len)) = runBytes v zs := by
      simp [flatBytes, List.filterMap_map, CopyRun.part, endAt, runBytes, List.flatMap]
    rw [writeChunk, hflat]
    refine (writeLocal_midCopy hv hr hfit.abut (length_runBytes v zs) hfit.chunkFits.room).bind fun w hw hwrote => ?_
    rw [forEach_eq_pure]
    · exact .of_keeps hw rfl hwrote
    · intro p hp
      obtain ⟨z, -, rfl⟩ := List.mem_map.1 hp
      rfl
  | true =>
    refine State.Does.bind (a := ()) (P := (v = ·)) (.of_keeps hv rfl rfl) ?_
    rintro _ hw rfl
    exact forEach_writeVer_staging (d := fun z => z.src.bytes v z.len) (fun z _ => by rw [hr.key, ← hq.ver]; rfl)
      (fun z => Source.length_bytes v z.len z.src) hw hfit.abut hfit.room

/-! ## Tags -/

/-- The block parts of a run, as a chunk sees them. -/
def CopyRun.cuts (s : State) (v : CopyVars) (stg : Bool) (zs : List CopyRun) (z : CopyRun) : List BlockPart :=
  (z.part stg).blocks (s.midCopy v) s.cur ((ownSrcs zs).map ownPieceAt) ((ownDsts stg zs).map ownPieceAt)

/-- Blocks of a run lie in its destination. -/
theorem RunsFit.mem_blocks (hfit : RunsFit s blocks stg a zs) {z : CopyRun} (hz : z ∈ zs) :
    ∀ b ∈ z.cuts s v stg zs, b.sp = s.side stg ∧ (s.side stg, b.at_ / 64) ∈ blocks := by
  intro b hb
  obtain ⟨c, hc, hbc⟩ := List.mem_filterMap.1 hb
  have hlt : c.1 < z.len := mem_blockCuts c hc
  have hplace : (z.part stg).dst.block s.cur ((ownDsts stg zs).map ownPieceAt) c.1 = some (s.side stg, z.at_ + c.1) := hfit.block_dst hz hlt
  rw [hplace] at hbc
  obtain rfl := Option.some.inj hbc
  exact ⟨rfl, hfit.room z hz _ (mem_blocksOf_of_mem (by dsimp only; omega))⟩

/-- A run of whole blocks. -/
def CopyRun.Whole (z : CopyRun) : Prop := z.at_ % 64 = 0 ∧ z.len % 64 = 0

/-- A run that reads no POISON block. -/
def CopyRun.Clean (v : CopyVars) (z : CopyRun) : Prop := ∀ off, off < z.len → ∀ t, z.src.tag v off = some t → isPoison t = false

/-- The blocks of a run of whole blocks, with the tags they get. -/
def CopyRun.tags (v : CopyVars) (z : CopyRun) : List (Nat × W32) := (List.range (z.len / 64)).map fun j => (z.at_ + 64 * j, z.newTag v (64 * j))

/-- The whole blocks of a run take the tags given or those of their sources. -/
theorem RunsFit.blocks_whole (hfit : RunsFit s blocks stg a zs) {z : CopyRun} (hz : z ∈ zs) (hwhole : z.Whole) (hclean : z.Clean v) :
    (∀ b ∈ z.cuts s v stg zs, b.at_ % 64 = 0 ∧ b.len = 64 ∧ b.poison = false) ∧
      (z.cuts s v stg zs).map (fun b => (b.at_, b.newTag z.tag)) = z.tags v := by
  obtain ⟨hat, hlen⟩ := hwhole
  have hwin : stg = false → z.at_ + z.len ≤ 2097152 := fun h => (hfit.dst h z hz).window
  have hfirst : (z.part stg).dst.addr 0 % 64 = 0 := (Loc.addr_endAt fun h => by have := hwin h; omega).trans hat
  have hcuts : blockCuts ((z.part stg).dst.addr 0 % 64) (z.part stg).len = (List.range (z.len / 64)).map fun i => (64 * i, 64) := by
    rw [hfirst, show (z.part stg).len = 64 * (z.len / 64) from (Nat.mul_div_cancel' (Nat.dvd_of_mod_eq_zero hlen)).symm, blockCuts_whole]
  have hone (j : Nat) (hj : j < z.len / 64) : z.src.loc.poisoned (s.midCopy v) s.cur ((ownSrcs zs).map ownPieceAt) (64 * j) 64 = false ∧
      (z.src.loc.srcBlock (s.midCopy v) s.cur ((ownSrcs zs).map ownPieceAt) (64 * j) (z.at_ + 64 * j)).map (·.2) =
        z.src.blockTag v (64 * j) := by
    constructor
    · have hclear (off : Nat) (hoff : off < z.len) : (match z.src.loc.tag (s.midCopy v) s.cur ((ownSrcs zs).map ownPieceAt) off with
          | some t => isPoison t | none => false) = false := by
        rw [hfit.tag_src hz hoff]
        split
        next t ht => exact hclean off hoff t ht
        next => rfl
      simp only [Loc.poisoned, List.any_cons, List.any_nil, Bool.or_false, Bool.or_eq_false_iff]
      exact ⟨hclear _ (by omega), hclear _ (by omega)⟩
    · rw [Loc.srcBlock, hfit.tag_src hz (by omega)]
      rcases hsrc : z.src with l | ⟨b, x⟩
      · simp [Source.tag, Source.blockTag]
      · have haddr : (Source.place b x).loc.addr (64 * j) % 64 = x % 64 := (Loc.addr_endAt fun h => by
          subst h
          have := (hfit.src z hz x hsrc).window
          dsimp only at this
          omega).trans (by omega)
        rw [haddr, show (z.at_ + 64 * j) % 64 = 0 by omega]
        by_cases hx : x % 64 = 0 <;> simp [Source.tag, Source.blockTag, hx]
  have hcut : z.cuts s v stg zs = (List.range (z.len / 64)).map fun j =>
      { off := 64 * j, sp := s.side stg, at_ := z.at_ + 64 * j, len := 64
        poison := z.src.loc.poisoned (s.midCopy v) s.cur ((ownSrcs zs).map ownPieceAt) (64 * j) 64
        src := z.src.loc.srcBlock (s.midCopy v) s.cur ((ownSrcs zs).map ownPieceAt) (64 * j) (z.at_ + 64 * j) } := by
    rw [CopyRun.cuts, Part.blocks, hcuts, List.filterMap_map]
    refine (List.filterMap_congr fun j hj => ?_).trans (congrFun List.filterMap_eq_map _)
    have hj := List.mem_range.1 hj
    have hplace : (z.part stg).dst.block s.cur ((ownDsts stg zs).map ownPieceAt) (64 * j) = some (s.side stg, z.at_ + 64 * j) :=
      hfit.block_dst hz (by omega)
    rw [Function.comp_apply, hplace]
    rfl
  rw [hcut]
  constructor
  · intro b hb
    obtain ⟨j, hj, rfl⟩ := List.mem_map.1 hb
    exact ⟨by dsimp only; omega, rfl, (hone j (List.mem_range.1 hj)).1⟩
  · rw [List.map_map]
    refine List.map_congr_left fun j hj => ?_
    have hsrc := (hone j (List.mem_range.1 hj)).2
    simp only [Function.comp_apply, BlockPart.newTag, hsrc, CopyRun.newTag]

/-- The tags of several runs change no byte. -/
theorem tagParts_midCopy (hv : v.Sound s blocks) (hq : q.ver = (s.thr s.cur).curVer.id) {l : List (Option W32 × List BlockPart)}
    (hl : ∀ p ∈ l, ∀ b ∈ p.2, b.sp = s.side stg ∧ (s.side stg, b.at_ / 64) ∈ blocks) :
    s.Does blocks v (forEach l fun p => tagPart s.cur q false p.1 p.2) () fun w => v.Tagged w stg := by
  induction l generalizing v with
  | nil => exact .of_keeps hv rfl (.refl v stg)
  | cons p l ih =>
    exact (tagPart_midCopy hv hq (hl p List.mem_cons_self)).bind fun w hw hvw =>
      (ih hw fun p' hp' => hl p' (List.mem_cons_of_mem _ hp')).mono fun x _ hwx => hvw.trans hwx

/-- The whole blocks of several runs each get their tag. -/
theorem tagParts_whole_midCopy (hv : v.Sound s blocks) (hq : q.ver = (s.thr s.cur).curVer.id) (hnone : v.head.cov = [])
    {l : List (Option W32 × List BlockPart)} (hl : ∀ p ∈ l, ∀ b ∈ p.2,
      b.sp = s.side stg ∧ (s.side stg, b.at_ / 64) ∈ blocks ∧ b.at_ % 64 = 0 ∧ b.len = 64 ∧ b.poison = false) :
    s.Does blocks v (forEach l fun p => tagPart s.cur q false p.1 p.2) () fun w =>
      v.Wrote w stg ((v.mem stg).setTags (l.flatMap fun p => p.2.map fun b => (b.at_, b.newTag p.1))) := by
  induction l generalizing v with
  | nil => exact .of_keeps hv rfl (.refl v stg)
  | cons p l ih =>
    refine (tagPart_whole_midCopy hv hq hnone (hl p List.mem_cons_self)).bind fun w hw hvw =>
      (ih hw (by rw [hvw.head, hnone]) fun p' hp' => hl p' (List.mem_cons_of_mem _ hp')).mono fun x _ hwx => ?_
    rw [hvw.mem] at hwx
    rw [List.flatMap_cons, Memory.setTags_append]
    exact hvw.trans hwx

/-! ## A chunk -/

/-- Runs to the own scratch or the slices give no rows. -/
theorem forEach_parts_eq_pure {d : CopyRun → List Byte} {tags : List (List W32)} {f : (Part × List Byte) × List W32 → M Unit}
    (h : ∀ z t, f ((z.part stg, d z), t) = pure ()) : forEach ((zs.map fun z => (z.part stg, d z)).zip tags) f = pure () := by
  refine forEach_eq_pure fun p hp => ?_
  obtain ⟨z, -, hz⟩ := List.mem_map.1 (List.of_mem_zip hp).1
  have hpz := h z p.2
  rwa [hz] at hpz

/-- A chunk has been copied: its runs' bytes stand at its destination, and where it is of whole blocks they have their tags. -/
structure CopyVars.Copied (v w : CopyVars) (stg : Bool) (a : Nat) (zs : List CopyRun) : Prop where
  head : w.head = { v.head with cov := w.head.cov }
  vstat : w.vstat = v.vstat
  other : w.mem (!stg) = v.mem (!stg)
  byte : (w.mem stg).byte = ((v.mem stg).setBytes a (runBytes v zs)).byte
  whole : v.head.cov = [] → (∀ z ∈ zs, z.Whole ∧ z.Clean v) →
    w.head.cov = [] ∧ ∀ c, (w.mem stg).tag c = (((v.mem stg).setBytes a (runBytes v zs)).setTags (zs.flatMap (CopyRun.tags v))).tag c

theorem State.Does.oneChunk {body : M Unit} {P : CopyVars → Prop} {red : Option RedTy} (hv : v.Sound s blocks)
    (h : s.Does blocks v body () P) : s.Does blocks v (Machine.oneChunk s.cur red body) () P := by
  obtain ⟨w, hw, h⟩ := h
  exact ⟨w, (oneChunk_midCopy hv red body).trans hw, h⟩

/-- A chunk of a copy from and to the own scratch and the slices (R72, R214). -/
theorem copyChunk_midCopy (hs : s.MayCopy) (hv : v.Sound s blocks) (hq : q.Of s) (hfit : RunsFit s blocks stg a zs) {reach : Reach}
    (hreach : reach.scratch = true) :
    s.Does blocks v (copyChunk s.cur q reach (zs.map (CopyRun.part stg))) () fun w => v.Copied w stg a zs := by
  have hr := hq.copies hreach
  obtain ⟨tlb, know, epoch, hcheck⟩ := checkChunk_midCopy hs hv hr rfl hfit.chunkFits (rreach := Reach.all) rfl false
  rw [copyChunk]
  refine .oneChunk hv (.bind (P := (v.noted tlb know epoch = ·)) ⟨_, hcheck, hv.noted tlb know epoch, rfl⟩ ?_)
  rintro _ hn rfl
  simp only [fetchRemote_ownPieces, pure_bind]
  refine .bind (P := (v.noted tlb know epoch = ·)) (.of_keeps hn (peerWatch_ownPieces _) rfl) ?_
  rintro _ - rfl
  refine .bind (P := (v.noted tlb know epoch = ·)) (.of_keeps hn (M.run_get _) rfl) ?_
  rintro _ - rfl
  have hbytes : (zs.map (CopyRun.part stg)).map (fun p => (p, p.src.bytes (s.midCopy (v.noted tlb know epoch)) s.cur
      ((ownSrcs zs).map ownPieceAt) [] p.len)) = zs.map fun z => (z.part stg, z.src.bytes v z.len) := by
    rw [List.map_map]
    exact List.map_congr_left fun z hz => congrArg _ (hfit.bytes_src (v := v.noted tlb know epoch) hn.early hz)
  simp only [hbytes, remoteGranules_ownPieces]
  refine (writeChunk_midCopy hfit hn hr hq).bind fun w hw hvw => ?_
  have hcuts : ∀ p ∈ (zs.map (CopyRun.part stg)).map (fun p => (p.tag, p.blocks (s.midCopy (v.noted tlb know epoch)) s.cur
      ((ownSrcs zs).map ownPieceAt) ((ownDsts stg zs).map ownPieceAt))), ∃ z ∈ zs, p = (z.tag, z.cuts s (v.noted tlb know epoch) stg zs) := by
    intro p hp
    simp only [List.mem_map] at hp
    obtain ⟨_, ⟨z, hz, rfl⟩, rfl⟩ := hp
    exact ⟨z, hz, rfl⟩
  have hlast (x : CopyVars) (hx : x.Sound s blocks) (hvx : v.Copied x stg a zs) : s.Does blocks x (finishChunk s.cur none []) ()
      fun x => v.Copied x stg a zs := .of_keeps hx (finishChunk_midCopy hx none) hvx
  by_cases hall : v.head.cov = [] ∧ ∀ z ∈ zs, z.Whole ∧ z.Clean v
  · obtain ⟨hnone, hruns⟩ := hall
    refine (tagParts_whole_midCopy (stg := stg) hw hq.ver (by rw [hvw.head]; exact hnone) fun p hp b hb => ?_).bind fun x hx hwx => ?_
    · obtain ⟨z, hz, rfl⟩ := hcuts p hp
      obtain ⟨hwhole, hclean⟩ := hruns z hz
      obtain ⟨hsp, hmem⟩ := hfit.mem_blocks hz b hb
      exact ⟨hsp, hmem, (hfit.blocks_whole (v := v.noted tlb know epoch) hz hwhole hclean).1 b hb⟩
    · have htags : ((zs.map (CopyRun.part stg)).map (fun p => (p.tag, p.blocks (s.midCopy (v.noted tlb know epoch)) s.cur
          ((ownSrcs zs).map ownPieceAt) ((ownDsts stg zs).map ownPieceAt)))).flatMap (fun p => p.2.map fun b => (b.at_, b.newTag p.1)) =
          zs.flatMap (CopyRun.tags v) := by
        rw [List.map_map, List.flatMap_map]
        refine List.flatMap_congr fun z hz => ?_
        obtain ⟨hwhole, hclean⟩ := hruns z hz
        exact (hfit.blocks_whole (v := v.noted tlb know epoch) hz hwhole hclean).2
      rw [htags, hvw.mem] at hwx
      rw [forEach_parts_eq_pure, pure_bind]
      · refine hlast x hx ⟨by rw [hwx.head, hvw.head]; rfl, hwx.vstat.trans hvw.vstat, hwx.other.trans hvw.other, ?_, fun _ _ => ⟨?_, fun c => ?_⟩⟩
        · rw [hwx.mem, Memory.byte_setTags]
          rfl
        · rw [hwx.head, hvw.head]
          exact hnone
        · rw [hwx.mem]
          rfl
      · exact fun z t => by cases stg <;> rfl
  · refine (tagParts_midCopy (stg := stg) hw hq.ver fun p hp b hb => ?_).bind fun x hx hwx => ?_
    · obtain ⟨z, hz, rfl⟩ := hcuts p hp
      exact hfit.mem_blocks hz b hb
    · rw [forEach_parts_eq_pure, pure_bind]
      · refine hlast x hx ⟨by rw [hwx.head, hvw.head]; rfl, hwx.vstat.trans hvw.vstat, hwx.other.trans hvw.other, ?_,
          fun h h' => absurd ⟨h, h'⟩ hall⟩
        rw [hwx.byte, hvw.mem]
        rfl
      · exact fun z t => by cases stg <;> rfl

end

end Sys2Proof.Machine
end

section
/-! The chunks of a copy one after another (R214, R215). -/

namespace Sys2Proof.Machine

section
variable {s : State} {v : CopyVars} {blocks : List (Space × Nat)}

/-! ## The loop over chunks -/

/-- A copy under way of whose entry so many chunks are done. -/
def CopyVars.at (v : CopyVars) (i : Nat) : CopyVars := { v with head := { v.head with progress := i } }

theorem CopyVars.Sound.at (hv : v.Sound s blocks) (i : Nat) : (v.at i).Sound s blocks :=
  ⟨hv.grans, hv.asked, hv.hits, hv.early, hv.scores, hv.versions, hv.room, hv.wf, hv.wfStaging⟩

/-- A chunk that has hit no watchpoint moves the progress of its entry alone. -/
theorem updThr_rowDone_midCopy
    (hhits : (s.thr s.cur).hits = []) (i : Nat) : (s.midCopy v).updThr s.cur (fun t => t.rowDone .cp i) = s.midCopy (v.at i.succ) := by
  refine State.updThr_midCopy ?_ ⟨rfl, rfl, rfl, rfl⟩
  have hmid : ((s.thr s.cur).midCopy v).hits = [] := hhits
  simp only [Thread.rowDone, Thread.queue_midCopy, hmid, List.foldl_nil]
  simp only [Thread.setQueue, Thread.midCopy, Eng.code, NMap.put_put, CopyVars.at, ← hhits]

/-- The rows of a copy, each of which keeps what the next needs. -/
theorem rowLoop_midCopy (hhits : (s.thr s.cur).hits = []) {body : Nat → M Unit} {I : Nat → CopyVars → Prop} {fuel i : Nat}
    (hbody : ∀ j v, j < i + fuel → v.Sound s blocks → I j v → s.Does blocks v (body j) () fun w => I (j + 1) (w.at (j + 1)))
    (hv : v.Sound s blocks) (hi : I i v) : s.Does blocks v (rowLoop s.cur .cp body fuel i) () (I (i + fuel)) := by
  induction fuel generalizing i v with
  | zero => exact .of_keeps hv rfl hi
  | succ fuel ih =>
    obtain ⟨w, hw, hsound, hnext⟩ := hbody i v (by omega) hv hi
    have hquiet : (((s.midCopy (w.at i.succ)).thr s.cur).hasHits .cp) = false := by
      rw [State.thr_midCopy, Thread.hasHits, Thread.queue_midCopy]
      simp [CopyVars.at, hsound.hits]
    obtain ⟨x, hx, hxs, hlast⟩ := ih (i := i + 1) (fun j v hj => hbody j v (by omega)) (hsound.at (i + 1)) hnext
    refine ⟨x, ?_, hxs, by rwa [show i + (fuel + 1) = i + 1 + fuel by omega]⟩
    simp only [rowLoop, hw, updThr_rowDone_midCopy hhits, hquiet, Bool.and_false, Bool.false_eq_true, if_false]
    exact hx

/-- The chunks of a copy from its beginning on. -/
theorem chunkLoop_midCopy (hhits : (s.thr s.cur).hits = []) {total : Nat} {body : Nat → Nat → M Unit} {I : Nat → CopyVars → Prop}
    (hbody : ∀ j v, 4096 * j < total → v.Sound s blocks → I j v →
      s.Does blocks v (body (4096 * j) (min 4096 (total - 4096 * j))) () fun w => I (j + 1) (w.at (j + 1)))
    (hv : v.Sound s blocks) (hzero : v.head.progress = 0) (hi : I 0 v) :
    s.Does blocks v (chunkLoop s.cur total body) () (I ((total + 4095) / 4096)) := by
  rw [chunkLoop]
  refine .bind (P := (v = ·)) (.of_keeps hv headEntry_midCopy rfl) ?_
  rintro _ - rfl
  have hloop := rowLoop_midCopy hhits (body := fun i => body (4096 * i) (Nat.min 4096 (total - 4096 * i))) (I := I) (i := 0)
    (fuel := (total + 4095) / 4096) (fun j v hj => hbody j v (by omega)) hv hi
  rw [Nat.zero_add] at hloop
  simp only [hzero, Nat.sub_zero]
  exact hloop

/-! ## What chunks have moved so far -/

/-- Of a destination the bytes from `lo` to `hi` are as given and everything else is as it was; so are the tags, when it is of whole blocks. -/
structure CopyVars.Moved (v w : CopyVars) (stg : Bool) (lo hi : Nat) (g : Nat → Byte) (whole : Prop) (τ : Nat → W32) : Prop where
  head : w.head = { v.head with cov := w.head.cov, progress := w.head.progress }
  vstat : w.vstat = v.vstat
  other : w.mem (!stg) = v.mem (!stg)
  byte : ∀ c, (w.mem stg).byte c = if lo ≤ c ∧ c < hi then g c else (v.mem stg).byte c
  tag : whole → w.head.cov = [] ∧ ∀ c, c % 64 = 0 → (w.mem stg).tag c = if lo ≤ c ∧ c < hi then τ c else (v.mem stg).tag c

theorem CopyVars.Moved.refl {stg : Bool} {lo : Nat} {g : Nat → Byte} {whole : Prop} {τ : Nat → W32} (h : whole → v.head.cov = []) :
    v.Moved v stg lo lo g whole τ :=
  ⟨rfl, rfl, rfl, fun c => by rw [if_neg (by omega)], fun hw => ⟨h hw, fun c _ => by rw [if_neg (by omega)]⟩⟩

theorem CopyVars.Moved.at {w : CopyVars} {stg : Bool} {lo hi : Nat} {g : Nat → Byte} {whole : Prop} {τ : Nat → W32}
    (h : v.Moved w stg lo hi g whole τ) (i : Nat) : v.Moved (w.at i) stg lo hi g whole τ := by
  obtain ⟨hhead, hvstat, hother, hbyte, htag⟩ := h
  refine ⟨?_, hvstat, hother, hbyte, htag⟩
  simp only [CopyVars.at]
  rw [hhead]

/-- The tag of a block that no chunk has moved. -/
theorem CopyVars.Moved.tag_outside {w : CopyVars} {stg : Bool} {lo hi : Nat} {g : Nat → Byte} {whole : Prop} {τ : Nat → W32}
    (h : v.Moved w stg lo hi g whole τ) (hw : whole) (hlo : lo % 64 = 0) (hhi : hi % 64 = 0) {c : Nat} (hc : c < lo ∨ hi ≤ c) :
    (w.mem stg).tag c = (v.mem stg).tag c := by
  have hfloor (m : Memory) : m.tag c = m.tag (c / 64 * 64) := by
    rw [Memory.tag, Memory.tag, Nat.mul_div_cancel _ (by decide)]
  rw [hfloor, hfloor (v.mem stg), (h.tag hw).2 _ (by omega), if_neg (by omega)]

/-- A byte of a memory after bytes have been written. -/
theorem Memory.byte_setBytes {m : Memory} (hm : m.wf = true) (a : Nat) (l : List Byte) (c : Nat) :
    (m.setBytes a l).byte c = if a ≤ c ∧ c < a + l.length then l.getD (c - a) 0 else m.byte c := by
  split
  next h =>
    obtain ⟨i, rfl⟩ := Nat.exists_eq_add_of_le h.1
    have hi : i < l.length := by omega
    rw [Memory.byte_setBytes_inside hm hi, Nat.add_sub_cancel_left, List.getD_eq_getElem _ _ hi]
  next h => exact Memory.byte_setBytes_outside hm (by omega)

/-- The tags that runs of whole blocks write. -/
theorem Memory.tag_setTags_runs {m : Memory} (hm : m.wf = true) {zs : List CopyRun} {a : Nat} {τ : Nat → W32}
    (habut : Abut a (zs.map fun z => (z.at_, z.len))) (hwhole : ∀ z ∈ zs, z.Whole)
    (hτ : ∀ z ∈ zs, ∀ j, 64 * j < z.len → z.newTag v (64 * j) = τ (z.at_ + 64 * j)) {c : Nat} (hc : c % 64 = 0) :
    (m.setTags (zs.flatMap (CopyRun.tags v))).tag c = if a ≤ c ∧ c < a + spanSum (zs.map fun z => (z.at_, z.len)) then τ c else m.tag c := by
  induction zs generalizing a m with
  | nil =>
    rw [if_neg (by simp [spanSum])]
    rfl
  | cons z zs ih =>
    obtain ⟨rfl, hrest⟩ := habut
    obtain ⟨hat, hlen⟩ := hwhole z List.mem_cons_self
    have hown : z.tags v = (List.range (z.len / 64)).map fun j => (z.at_ + 64 * j, τ (z.at_ + 64 * j)) :=
      List.map_congr_left fun j hj => by rw [hτ z List.mem_cons_self j (by have := List.mem_range.1 hj; omega)]
    rw [List.flatMap_cons, Memory.setTags_append, ih (Memory.wf_setTags hm _) hrest (fun y hy => hwhole y (List.mem_cons_of_mem _ hy))
      fun y hy => hτ y (List.mem_cons_of_mem _ hy), hown, Memory.tag_setTags_range hm hat τ _ hc]
    have hsum : spanSum ((z :: zs).map fun z => (z.at_, z.len)) = z.len + spanSum (zs.map fun z => (z.at_, z.len)) := rfl
    rw [hsum]
    dsimp only
    by_cases hin : z.at_ ≤ c ∧ c < z.at_ + z.len
    · rw [if_neg (by omega), if_pos (by omega), if_pos (by omega)]
    · rw [if_neg (show ¬(z.at_ ≤ c ∧ c < z.at_ + 64 * (z.len / 64)) by omega)]
      exact if_congr (by omega) rfl rfl

/-- One more chunk, above or below what has been moved. -/
theorem CopyVars.Moved.step {v₀ w : CopyVars} {stg : Bool} {a k lo hi lo' hi' : Nat} {g : Nat → Byte} {whole : Prop} {τ : Nat → W32}
    {zs : List CopyRun} (hwf : (v.mem stg).wf = true) (h : v₀.Moved v stg lo hi g whole τ) (hw : v.Copied w stg a zs)
    (habut : Abut a (zs.map fun z => (z.at_, z.len))) (hsum : spanSum (zs.map fun z => (z.at_, z.len)) = k)
    (hcase : lo ≤ hi ∧ (hi = a ∧ lo' = lo ∧ hi' = a + k ∨ a + k = lo ∧ lo' = a ∧ hi' = hi))
    (hbytes : ∀ i, i < k → (runBytes v zs).getD i 0 = g (a + i))
    (hruns : whole → ∀ z ∈ zs, z.Whole ∧ z.Clean v ∧ ∀ j, 64 * j < z.len → z.newTag v (64 * j) = τ (z.at_ + 64 * j)) :
    v₀.Moved w stg lo' hi' g whole τ := by
  have hlen : (runBytes v zs).length = k := (length_runBytes v zs).trans hsum
  refine ⟨by rw [hw.head, h.head], hw.vstat.trans h.vstat, hw.other.trans h.other, fun c => ?_, fun hwh => ?_⟩
  · rw [hw.byte, Memory.byte_setBytes hwf, hlen, h.byte]
    by_cases hc : a ≤ c ∧ c < a + k
    · rw [if_pos hc, if_pos (by omega), hbytes _ (by omega)]
      congr 1
      omega
    · rw [if_neg hc]
      exact if_congr (by omega) rfl rfl
  · obtain ⟨hcov, htag⟩ := h.tag hwh
    have hall := hruns hwh
    obtain ⟨hcov', htag'⟩ := hw.whole hcov fun z hz => ⟨(hall z hz).1, (hall z hz).2.1⟩
    refine ⟨hcov', fun c hc => ?_⟩
    rw [htag', Memory.tag_setTags_runs (Memory.wf_setBytes hwf _ _) habut (fun z hz => (hall z hz).1) (fun z hz => (hall z hz).2.2) hc, hsum,
      Memory.tag_setBytes, htag c hc]
    by_cases hin : a ≤ c ∧ c < a + k
    · rw [if_pos hin, if_pos (by omega)]
    · rw [if_neg hin]
      exact if_congr (by omega) rfl rfl

end

end Sys2Proof.Machine
end

section
/-! CPL (R215). -/

namespace Sys2Proof.Machine

/-! ## Parts of ranges -/

theorem State.InScratch.part {s : State} {x n o k : Nat} (h : s.InScratch (x, n)) (hk : 0 < k) (ho : o + k ≤ n) : s.InScratch (x + o, k) := by
  obtain ⟨-, hgran, hwin, hpage⟩ := h
  dsimp only at hgran hwin hpage
  exact ⟨hk, by dsimp only; omega, by dsimp only; omega, by dsimp only; omega⟩

theorem mem_blocksOf_part {x n o k b : Nat} (ho : o + k ≤ n) (h : b ∈ blocksOf (x + o) k) : b ∈ blocksOf x n := by
  rw [mem_blocksOf] at *
  omega

/-- A byte further on in the own scratch. -/
theorem scratchVa_toNat_add {x o : Nat} (h : x + o ≤ 2097152) : (scratchVa x).toNat + o = (scratchVa (x + o)).toNat := by
  rw [scratchVa_toNat (by omega), scratchVa_toNat h]
  omega

theorem Memory.getD_bytes (m : Memory) {a n i : Nat} (h : i < n) : (m.bytes a n).getD i 0 = m.byte (a + i) := by
  induction n generalizing a i with
  | zero => omega
  | succ n ih =>
    cases i with
    | zero => rfl
    | succ i => rw [Memory.bytes, List.getD_cons_succ, ih (by omega), Nat.add_right_comm, Nat.add_assoc]

/-- Ends outside the slices are in no wrong extent. -/
theorem stgFail_eq_nil {s : State} {cid : Nat} {l : List (Loc × Nat)} (h : ∀ p ∈ l, (∃ a, p.1 = .va a) ∨ ∃ b, p.1 = .lit b) :
    stgFail s cid l = [] := by
  refine List.filterMap_eq_nil_iff.2 fun p hp => ?_
  rcases h p hp with ⟨a, ha⟩ | ⟨b, hb⟩
  · rw [ha]
  · rw [hb]

section
variable {s : State} {v : CopyVars} {blocks : List (Space × Nat)} {q : QEntry}

/-! ## Before the chunks -/

theorem lengthOk_midCopy {n : Nat} (h : n ≤ 2 ^ 36) : lengthOk q n (s.midCopy v) = .ok ((), s.midCopy v) := by
  rw [lengthOk, if_neg (Nat.not_lt.2 h)]
  rfl

/-- A copy under way whose record has narrowed. -/
def CopyVars.narrowed (v : CopyVars) (scores : List Score) : CopyVars := { v with scores := scores }

/-- The record of an entry of CP, whose order is that of `c`, once its ranges are known. -/
def Score.narrow (q : QEntry) (c : Score) (old l : List Score) : List Score :=
  (old.filter fun c => !(decide (c.eng = .cp) && decide (c.num = q.num))) ++
    l.map fun x => { x with eng := .cp, num := q.num, ser := q.ser, ord := c.ord }

/-- The range of the entry is known, and its record narrows (R157). -/
theorem narrowVa_midCopy (hv : v.Sound s blocks) (hq : q.Of s) {a n : Nat} :
    s.Does blocks v (narrowVa s.cur .cp q a n) () fun w => ∃ scores, w = v.narrowed scores := by
  rw [narrowVa]
  refine .bind (P := (v = ·)) (.of_keeps hv (M.run_get _) rfl) ?_
  rintro _ - rfl
  have hrun (scores : List Score) (h : ∀ c ∈ scores, c.ser = (s.thr s.cur).serial ∧ c.ord = s.scoreNext)
      {f : Thread → Thread} (hf : f ((s.thr s.cur).midCopy v) = (s.thr s.cur).midCopy (v.narrowed scores)) :
      s.Does blocks v (modThr s.cur f) () fun w => ∃ scores, w = v.narrowed scores :=
    ⟨_, congrArg (fun u => Except.ok ((), u)) (State.updThr_midCopy hf ⟨rfl, rfl, rfl, rfl⟩),
      ⟨hv.grans, hv.asked, hv.hits, hv.early, h, hv.versions, hv.room, hv.wf, hv.wfStaging⟩, scores, rfl⟩
  have hold : ((s.thr s.cur).midCopy v).scores = v.scores := rfl
  cases hfind : v.scores.find? fun c => decide (c.eng = .cp) && decide (c.num = q.num) with
  | none =>
    refine hrun v.scores hv.scores ?_
    simp only [hold, hfind]
    rfl
  | some c =>
    refine hrun (Score.narrow q c v.scores (scoreAt (s.midCopy v) s.cur default a n)) (fun x hx => ?_) ?_
    · rcases List.mem_append.1 hx with hx | hx
      · exact hv.scores x (List.mem_filter.1 hx).1
      · obtain ⟨y, -, rfl⟩ := List.mem_map.1 hx
        exact ⟨hq.ser, (hv.scores c (List.mem_of_find?_eq_some hfind)).2⟩
    · simp only [hold, hfind]
      rfl

theorem CopyVars.Moved.narrowed {w : CopyVars} {stg : Bool} {lo hi : Nat} {g : Nat → Byte} {whole : Prop} {τ : Nat → W32}
    (h : v.Moved w stg lo hi g whole τ) (scores : List Score) : v.Moved (w.narrowed scores) stg lo hi g whole τ :=
  ⟨h.head, h.vstat, h.other, h.byte, h.tag⟩

theorem CopyVars.Moved.noted {w : CopyVars} {stg : Bool} {lo hi : Nat} {g : Nat → Byte} {whole : Prop} {τ : Nat → W32}
    (h : v.Moved w stg lo hi g whole τ) (tlb : List Trans) (know : NMap Clock) (epoch : NMap Nat) :
    v.Moved (w.noted tlb know epoch) stg lo hi g whole τ := ⟨h.head, h.vstat, h.other, h.byte, h.tag⟩

/-! ## One run after another -/

/-- What a run of a chunk is to bring: the bytes and, where it is of whole blocks, the tags of its destination. -/
structure CopyRun.Brings (v : CopyVars) (z : CopyRun) (g : Nat → Byte) (whole : Prop) (τ : Nat → W32) : Prop where
  bytes : ∀ i, i < z.len → (z.src.bytes v z.len).getD i 0 = g (z.at_ + i)
  tags : whole → z.Whole ∧ z.Clean v ∧ ∀ j, 64 * j < z.len → z.newTag v (64 * j) = τ (z.at_ + 64 * j)

/-- A chunk of one run, next to what has been moved. -/
theorem copyChunk_one {v₀ : CopyVars} {stg : Bool} {z : CopyRun} {lo hi lo' hi' i : Nat} {g : Nat → Byte} {whole : Prop} {τ : Nat → W32}
    {reach : Reach} (hs : s.MayCopy) (hv : v.Sound s blocks) (hq : q.Of s) (hwf : stg = true → s.staging.wf = true) (hreach : reach.scratch = true)
    (hfit : RunsFit s blocks stg z.at_ [z]) (h : v₀.Moved v stg lo hi g whole τ)
    (hcase : lo ≤ hi ∧ (hi = z.at_ ∧ lo' = lo ∧ hi' = z.at_ + z.len ∨ z.at_ + z.len = lo ∧ lo' = z.at_ ∧ hi' = hi)) (hz : z.Brings v g whole τ) :
    s.Does blocks v (copyChunk s.cur q reach [z.part stg]) () fun w => v₀.Moved (w.at i) stg lo' hi' g whole τ := by
  have hmem : (v.mem stg).wf = true := by
    cases stg
    · exact hv.wf
    · exact hv.wfStaging (hwf rfl)
  refine (copyChunk_midCopy hs hv hq hfit hreach).mono fun w _ hw => (CopyVars.Moved.step hmem h hw hfit.abut ?_ hcase ?_ ?_).at i
  · simp [spanSum]
  · simpa [runBytes] using hz.bytes
  · simpa using hz.tags

/-! ## CPL -/

/-- A run between places of the own scratch fits. -/
theorem RunsFit.own {z : CopyRun} (hdst : s.InScratch (z.at_, z.len)) (hsrc : ∀ stg x, z.src = .place stg x → stg = false ∧ s.InScratch (x, z.len))
    (hroom : ∀ b ∈ blocksOf z.at_ z.len, (Space.scratch s.cur, b) ∈ blocks) (hhbm : ∀ b ∈ blocks, b.1 ≠ .hbm) :
    RunsFit s blocks false z.at_ [z] := by
  refine ⟨⟨rfl, trivial⟩, ?_, ?_, ?_, ?_, hhbm, stgFail_eq_nil ?_⟩
  · simpa using hdst.1
  · simpa using hdst
  · simpa using fun x hx => (hsrc false x hx).2
  · exact List.forall_mem_singleton.2 hroom
  · intro p hp
    simp only [List.map_cons, List.map_nil, List.flatMap_cons, List.flatMap_nil, List.append_nil, List.mem_cons, List.not_mem_nil, or_false] at hp
    rcases hp with rfl | rfl
    · rcases hsrc' : z.src with l | ⟨stg, x⟩
      · exact .inr ⟨l, by simp [CopyRun.part, hsrc', Source.loc]⟩
      · obtain ⟨rfl, -⟩ := hsrc stg x hsrc'
        exact .inl ⟨(scratchVa x).toNat, by simp [CopyRun.part, hsrc', Source.loc, endAt]⟩
    · exact .inl ⟨_, rfl⟩

/-- A run from one range of the own scratch to another. -/
def ownRun (a b o k : Nat) : CopyRun := { at_ := a + o, len := k, src := .place false (b + o), tag := none }

/-- The run as an entry names its ends. -/
theorem ownRun_part {a b o k : Nat} (ha : a + o ≤ 2097152) (hb : b + o ≤ 2097152) : (ownRun a b o k).part false =
    { dst := .va ((scratchVa a).toNat + o), src := .va ((scratchVa b).toNat + o), len := k, tag := none } := by
  simp only [ownRun, CopyRun.part, Source.loc, endAt, Bool.false_eq_true, if_false]
  rw [scratchVa_toNat_add ha, scratchVa_toNat_add hb]

theorem RunsFit.ownRun {a b n o k : Nat} (ha : s.InScratch (a, n)) (hb : s.InScratch (b, n)) (hk : 0 < k) (hok : o + k ≤ n)
    (hroom : ∀ b ∈ blocksOf a n, (Space.scratch s.cur, b) ∈ blocks) (hhbm : ∀ b ∈ blocks, b.1 ≠ .hbm) :
    RunsFit s blocks false (a + o) [Machine.ownRun a b o k] := by
  refine .own (z := Machine.ownRun a b o k) (ha.part hk hok) (fun stg x hx => ?_) (fun y hy => hroom y (mem_blocksOf_part hok hy)) hhbm
  obtain ⟨rfl, rfl⟩ : false = stg ∧ b + o = x := by simpa [Machine.ownRun] using hx
  exact ⟨rfl, hb.part hk hok⟩

/-- The tag of a block is that of its first byte. -/
theorem Memory.tag_block (m : Memory) {x off : Nat} (hx : x % 64 = 0) : m.tag (x + off) = m.tag (x + off / 64 * 64) := by
  rw [Memory.tag, Memory.tag]
  congr 1
  omega

/-- A run from a place brings what stands there. -/
theorem CopyRun.Brings.of_place {z : CopyRun} {stg : Bool} {x : Nat} {g : Nat → Byte} {whole : Prop} {τ : Nat → W32} (hsrc : z.src = .place stg x)
    (hnone : z.tag = none) (hbyte : ∀ i, i < z.len → (v.mem stg).byte (x + i) = g (z.at_ + i))
    (hwhole : whole → z.Whole ∧ x % 64 = 0 ∧
      ∀ i, i < z.len → i % 64 = 0 → (v.mem stg).tag (x + i) = τ (z.at_ + i) ∧ isPoison (τ (z.at_ + i)) = false) : z.Brings v g whole τ := by
  refine ⟨fun i hi => ?_, fun hw => ?_⟩
  · rw [hsrc]
    exact (Memory.getD_bytes _ hi).trans (hbyte i hi)
  · obtain ⟨hwh, hx, htag⟩ := hwhole hw
    refine ⟨hwh, fun off hoff t ht => ?_, fun j hj => ?_⟩
    · obtain ⟨heq, hclean⟩ := htag (off / 64 * 64) (by omega) (by omega)
      rw [hsrc] at ht
      obtain rfl : (v.mem stg).tag (x + off) = t := Option.some.inj ht
      rw [Memory.tag_block _ hx, heq]
      exact hclean
    · simp only [CopyRun.newTag, hnone, hsrc, Source.blockTag, if_pos hx, Option.getD_none, Option.getD_some]
      exact (htag (64 * j) hj (by omega)).1

/-- A chunk of one run from a place of which nothing has been changed yet brings what was there. -/
theorem copyChunk_place {v₀ : CopyVars} {ds ss : Bool} {a b o k lo hi lo' hi' i : Nat} {whole : Prop} {reach : Reach} (hs : s.MayCopy)
    (hv : v.Sound s blocks) (hq : q.Of s) (hwf : ds = true → s.staging.wf = true) (hreach : reach.scratch = true)
    (hfit : RunsFit s blocks ds (a + o) [{ at_ := a + o, len := k, src := .place ss (b + o), tag := none }])
    (h : v₀.Moved v ds lo hi (fun c => (v₀.mem ss).byte (b + (c - a))) whole fun c => (v₀.mem ss).tag (b + (c - a)))
    (hcase : lo ≤ hi ∧ (hi = a + o ∧ lo' = lo ∧ hi' = a + o + k ∨ a + o + k = lo ∧ lo' = a + o ∧ hi' = hi))
    (hbyte : ∀ i, i < k → (v.mem ss).byte (b + o + i) = (v₀.mem ss).byte (b + o + i))
    (htag : whole → (a + o) % 64 = 0 ∧ (b + o) % 64 = 0 ∧ k % 64 = 0 ∧
      ∀ i, i < k → i % 64 = 0 → (v.mem ss).tag (b + o + i) = (v₀.mem ss).tag (b + o + i) ∧ isPoison ((v₀.mem ss).tag (b + o + i)) = false) :
    s.Does blocks v (copyChunk s.cur q reach
      [CopyRun.part ds { at_ := a + o, len := k, src := .place ss (b + o), tag := none }]) () fun w =>
        v₀.Moved (w.at i) ds lo' hi' (fun c => (v₀.mem ss).byte (b + (c - a))) whole fun c => (v₀.mem ss).tag (b + (c - a)) := by
  have hsame (i : Nat) : b + (a + o + i - a) = b + o + i := by omega
  refine copyChunk_one hs hv hq hwf hreach hfit h hcase (.of_place rfl rfl (fun i hi => ?_) fun hw => ?_)
  · dsimp only
    rw [hsame, hbyte i hi]
  · obtain ⟨hao, hbo, hk, hsrc⟩ := htag hw
    refine ⟨⟨hao, hk⟩, hbo, fun i hi h64 => ?_⟩
    dsimp only
    rw [hsame]
    exact hsrc i hi h64

/-- Where the bytes moved by so many chunks begin, and where they end, in either order. -/
def movedLo (down : Bool) (a n j : Nat) : Nat := if down then a + (n - min (4096 * j) n) else a

def movedHi (down : Bool) (a n j : Nat) : Nat := if down then a + n else a + min (4096 * j) n

/-- CPL within the own scratch, in whichever order its chunks are taken (R215). -/
theorem cplEntry_midCopy {a b n : Nat} (hhits : (s.thr s.cur).hits = []) (hs : 0 < n → s.MayCopy) (hv : v.Sound s blocks) (hq : q.Of s)
    (hzero : v.head.progress = 0) (hcov : v.head.cov = [])
    (ha : (q.op 0).val = scratchVa a) (hb : (q.op 1).val = scratchVa b) (hn : (q.op 2).val.toNat = n) (hsmall : n ≤ 2 ^ 36)
    (hranges : 0 < n → s.InScratch (a, n) ∧ s.InScratch (b, n) ∧ ∀ c, isPoison (v.scratch.tag c) = false)
    (hroom : ∀ x ∈ blocksOf a n, (Space.scratch s.cur, x) ∈ blocks) (hhbm : ∀ b ∈ blocks, b.1 ≠ .hbm) :
    s.Does blocks v (cplEntry s.cur q) () fun w => v.Moved w false a (a + n) (fun c => v.scratch.byte (b + (c - a)))
      (a % 64 = 0 ∧ b % 64 = 0 ∧ n % 64 = 0) fun c => v.scratch.tag (b + (c - a)) := by
  rw [cplEntry, ha, hb, hn]
  refine .bind (P := (v = ·)) (.of_keeps hv (lengthOk_midCopy hsmall) rfl) ?_
  rintro _ - rfl
  refine (narrowVa_midCopy hv hq).bind ?_
  rintro _ hv' ⟨scores, rfl⟩
  extract_lets down
  refine (chunkLoop_midCopy hhits (I := fun j w => v.Moved w false (movedLo down a n j) (movedHi down a n j) (fun c => v.scratch.byte (b + (c - a)))
    (a % 64 = 0 ∧ b % 64 = 0 ∧ n % 64 = 0) fun c => v.scratch.tag (b + (c - a))) (fun j w hj hw hI => ?_) hv' hzero ?_).mono fun w _ hw => ?_
  · obtain ⟨haS, hbS, hclean⟩ := hranges (by omega)
    obtain ⟨-, -, hawin, -⟩ := id haS
    obtain ⟨-, -, hbwin, -⟩ := id hbS
    dsimp only at hawin hbwin
    have hdown : down = true ↔ b < a ∧ a < b + n := by
      simp only [down, Bool.and_eq_true, decide_eq_true_eq]
      rw [scratchVa_toNat (by omega), scratchVa_toNat (by omega)]
      omega
    extract_lets o
    have hcases : down = true ∧ o = n - 4096 * j - min 4096 (n - 4096 * j) ∨ down = false ∧ o = 4096 * j := by
      cases hd : down <;> simp [o, hd]
    clear_value o
    have hpos : 0 < min 4096 (n - 4096 * j) := by omega
    have hok : o + min 4096 (n - 4096 * j) ≤ n := by omega
    have hrest : ∀ i, i < min 4096 (n - 4096 * j) → ¬(movedLo down a n j ≤ b + o + i ∧ b + o + i < movedHi down a n j) := by
      intro i hi
      rcases hcases with ⟨hd, ho⟩ | ⟨hd, ho⟩
      · simp only [movedLo, movedHi, hd, if_true, true_iff] at hdown ⊢
        omega
      · simp only [movedLo, movedHi, hd, Bool.false_eq_true, if_false, false_iff] at hdown ⊢
        omega
    rw [← ownRun_part (by omega) (by omega)]
    refine copyChunk_place (ss := false) (v₀ := v) (hs (by omega)) hw hq (fun h => absurd h Bool.false_ne_true) rfl (.ownRun haS hbS hpos hok hroom hhbm) hI
      ?_ (fun i hi => ?_) fun hwh => ⟨by omega, by omega, by omega, fun i hi h64 => ⟨?_, hclean _⟩⟩
    · rcases hcases with ⟨hd, ho⟩ | ⟨hd, ho⟩
      · simp only [movedLo, movedHi, hd, if_true]
        exact ⟨by omega, .inr ⟨by omega, by omega, trivial⟩⟩
      · simp only [movedLo, movedHi, hd, Bool.false_eq_true, if_false]
        exact ⟨by omega, .inl ⟨by omega, trivial, by omega⟩⟩
    · rw [hI.byte, if_neg (hrest i hi)]
    · rw [(hI.tag hwh).2 _ (by omega), if_neg (hrest i hi)]
  · have hstart (x : Nat) := (CopyVars.Moved.refl (v := v) (stg := false) (lo := x) (g := fun c => v.scratch.byte (b + (c - a)))
      (whole := a % 64 = 0 ∧ b % 64 = 0 ∧ n % 64 = 0) (τ := fun c => v.scratch.tag (b + (c - a))) fun _ => hcov).narrowed scores
    cases hd : down <;> simpa [movedLo, movedHi] using hstart _
  · have hall : min (4096 * ((n + 4095) / 4096)) n = n := by omega
    cases hd : down <;> simpa [movedLo, movedHi, hall, hd] using hw

end

end Sys2Proof.Machine
end

section
/-! CPFILL and CPSTG (R218, R220). -/

namespace Sys2Proof.Machine

/-! ## CPFILL -/

/-- Lists of one length taken together. -/
theorem length_flatMap_countFrom {α : Type} {f : Nat → List α} {w : Nat} (hf : ∀ j, (f j).length = w) (a m : Nat) :
    ((countFrom a m).flatMap f).length = w * m := by
  induction m generalizing a with
  | zero => rfl
  | succ m ih => rw [countFrom, List.flatMap_cons, List.length_append, hf, ih, Nat.mul_succ, Nat.add_comm]

/-- An element of lists of one length taken together. -/
theorem getD_flatMap_countFrom {α : Type} {f : Nat → List α} {w : Nat} (hf : ∀ j, (f j).length = w) (d : α) {m i : Nat} (hi : i < w * m) (a : Nat) :
    ((countFrom a m).flatMap f).getD i d = (f (a + i / w)).getD (i % w) d := by
  induction m generalizing i a with
  | zero => simp at hi
  | succ m ih =>
    have hw : 0 < w := Nat.pos_of_ne_zero fun h => by simp [h] at hi
    rw [countFrom, List.flatMap_cons]
    by_cases hlt : i < w
    · rw [List.getD_append _ _ _ _ (by rwa [hf]), Nat.mod_eq_of_lt hlt, Nat.div_eq_of_lt hlt, Nat.add_zero]
    · rw [List.getD_append_right _ _ _ _ (by rw [hf]; omega), hf, ih (by rw [Nat.mul_succ] at hi; omega),
        ← Nat.mod_eq_sub_mod (Nat.not_lt.1 hlt), Nat.div_eq_sub_div hw (Nat.not_lt.1 hlt), Nat.add_right_comm, Nat.add_assoc]

/-- A byte of a number, lowest first. -/
theorem getD_natLE {n x i : Nat} (h : i < n) : (natLE n x).getD i 0 = BitVec.ofNat 8 (x / 2 ^ (8 * i)) := by
  rw [List.getD_eq_getElem _ _ (by rwa [length_natLE]), getElem_natLE]

theorem length_fillBytes {w x n : Nat} (hw : n % w = 0) : (fillBytes w x n).length = n := by
  rw [fillBytes, length_flatMap_countFrom fun _ => length_natLE w x]
  exact Nat.mul_div_cancel' (Nat.dvd_of_mod_eq_zero hw)

/-- The bytes of a fill (R220). -/
theorem getD_fitTo_fillBytes {w x n i : Nat} (hpos : 0 < w) (hw : n % w = 0) (hi : i < n) :
    (fitTo n 0#8 (fillBytes w x n)).getD i 0 = BitVec.ofNat 8 (x / 2 ^ (8 * (i % w))) := by
  have hfit : fitTo n 0#8 (fillBytes w x n) = fillBytes w x n := by
    rw [fitTo, length_fillBytes hw, Nat.sub_self, List.replicate_zero, List.append_nil, List.take_of_length_le (length_fillBytes hw).le]
  rw [hfit, fillBytes, getD_flatMap_countFrom (fun _ => length_natLE w x) _ (by rwa [Nat.mul_div_cancel' (Nat.dvd_of_mod_eq_zero hw)]),
    getD_natLE (Nat.mod_lt _ hpos)]

theorem sizeBytes_pos (z : Size) : 0 < sizeBytes z := by cases z <;> decide

/-- What is left for a chunk is of whole units when the whole is. -/
theorem chunk_mod {k n : Nat} (j : Nat) (hk : k ∣ 4096) (hn : n % k = 0) : min 4096 (n - 4096 * j) % k = 0 := by
  rcases Nat.le_total 4096 (n - 4096 * j) with h | h
  · rw [Nat.min_eq_left h]
    exact Nat.mod_eq_zero_of_dvd hk
  · rw [Nat.min_eq_right h]
    exact Nat.mod_eq_zero_of_dvd (Nat.dvd_sub (Nat.dvd_of_mod_eq_zero hn) (hk.mul_right j))

/-- The sizes of a pattern divide a chunk. -/
theorem sizeBytes_dvd_chunk (z : Size) : sizeBytes z ∣ 4096 := by cases z <;> decide

section
variable {s : State} {v : CopyVars} {blocks : List (Space × Nat)} {q : QEntry}

/-- CPFILL in the own scratch (R220). -/
theorem cpfillEntry_midCopy {a n : Nat} {z : Size} (hhits : (s.thr s.cur).hits = []) (hs : 0 < n → s.MayCopy) (hv : v.Sound s blocks) (hq : q.Of s)
    (hzero : v.head.progress = 0)
    (hcov : v.head.cov = []) (ha : (q.op 0).val = scratchVa a) (hn : (q.op 2).val.toNat = n) (hsmall : n ≤ 2 ^ 36)
    (haligned : (scratchVa a).toNat % sizeBytes z = 0 ∧ n % sizeBytes z = 0) (hrange : 0 < n → s.InScratch (a, n))
    (hroom : ∀ x ∈ blocksOf a n, (Space.scratch s.cur, x) ∈ blocks) (hhbm : ∀ b ∈ blocks, b.1 ≠ .hbm) :
    s.Does blocks v (cpfillEntry s.cur q z) () fun w => v.Moved w false a (a + n)
      (fun c => BitVec.ofNat 8 ((q.op 1).val.toNat / 2 ^ (8 * ((c - a) % sizeBytes z)))) (a % 64 = 0 ∧ n % 64 = 0) fun _ => 0 := by
  obtain ⟨haz, hnz⟩ := haligned
  rw [cpfillEntry, ha, hn]
  refine .bind (P := (v = ·)) (.of_keeps hv (lengthOk_midCopy hsmall) rfl) ?_
  rintro _ - rfl
  simp only [haz, hnz, ne_eq, not_true_eq_false, decide_false, Bool.or_self, Bool.false_eq_true, if_false]
  refine (narrowVa_midCopy hv hq).bind ?_
  rintro _ hv' ⟨scores, rfl⟩
  refine (chunkLoop_midCopy hhits (I := fun j w => v.Moved w false a (a + min (4096 * j) n)
    (fun c => BitVec.ofNat 8 ((q.op 1).val.toNat / 2 ^ (8 * ((c - a) % sizeBytes z)))) (a % 64 = 0 ∧ n % 64 = 0) fun _ => 0)
    (fun j w hj hw hI => ?_) hv' hzero ?_).mono fun w _ hw => ?_
  · have haS := hrange (by omega)
    obtain ⟨-, -, hawin, -⟩ := id haS
    dsimp only at hawin
    have hpos : 0 < min 4096 (n - 4096 * j) := by omega
    have hok : 4096 * j + min 4096 (n - 4096 * j) ≤ n := by omega
    obtain ⟨m, hm⟩ := sizeBytes_dvd_chunk z
    have hwide : min 4096 (n - 4096 * j) % sizeBytes z = 0 := chunk_mod j (sizeBytes_dvd_chunk z) hnz
    have hpart : ({ dst := .va ((scratchVa a).toNat + 4096 * j), src := .lit (fillBytes (sizeBytes z) (q.op 1).val.toNat (min 4096 (n - 4096 * j)))
                    len := min 4096 (n - 4096 * j), tag := none } : Part) =
        CopyRun.part false { at_ := a + 4096 * j, len := min 4096 (n - 4096 * j)
                             src := .lit (fillBytes (sizeBytes z) (q.op 1).val.toNat (min 4096 (n - 4096 * j))), tag := none } := by
      simp only [CopyRun.part, Source.loc, endAt, Bool.false_eq_true, if_false]
      rw [scratchVa_toNat_add (by omega)]
    rw [hpart]
    refine copyChunk_one (hs (by omega)) hw hq (fun h => absurd h Bool.false_ne_true) rfl
      (.own (haS.part hpos hok) (fun stg x hx => by simp at hx) (fun y hy => hroom y (mem_blocksOf_part hok hy)) hhbm) hI
      ⟨by omega, .inl ⟨by dsimp only; omega, rfl, by dsimp only; omega⟩⟩
      ⟨fun i hi => ?_, fun hwh => ⟨⟨?_, ?_⟩, fun off _ t ht => ?_, fun i _ => rfl⟩⟩
    · dsimp only [Source.bytes] at hi ⊢
      have hoff : a + 4096 * j + i - a = i + sizeBytes z * (m * j) := by rw [← Nat.mul_assoc, ← hm]; omega
      rw [getD_fitTo_fillBytes (sizeBytes_pos z) hwide hi, hoff, Nat.add_mul_mod_self_left]
    · dsimp only
      omega
    · dsimp only
      omega
    · exact absurd ht (by simp [Source.tag])
  · have hstart := (CopyVars.Moved.refl (v := v) (stg := false) (lo := a)
      (g := fun c => BitVec.ofNat 8 ((q.op 1).val.toNat / 2 ^ (8 * ((c - a) % sizeBytes z)))) (whole := a % 64 = 0 ∧ n % 64 = 0) (τ := fun _ => 0)
      fun _ => hcov).narrowed scores
    simpa using hstart
  · have hall : min (4096 * ((n + 4095) / 4096)) n = n := by omega
    simpa [hall] using hw

/-! ## CPSTG -/

omit s v blocks q in
/-- A range within the one extent of a list. -/
theorem outsideAt_one {e : Nat × Nat} {x k : Nat} (hk : 0 < k) (hin : e.1 ≤ x ∧ x + k ≤ e.1 + e.2) : outsideAt [e] 3 x k = none := by
  have hfound : [e].find? (fun e => decide (e.1 ≤ x) && decide (x < e.1 + e.2)) = some e := by
    rw [List.find?_cons_of_pos]
    simp only [Bool.and_eq_true, decide_eq_true_eq]
    omega
  have hend : (x + k).min (e.1 + e.2) = x + k := Nat.min_eq_left hin.2
  simp only [outsideAt, if_neg (Nat.ne_of_gt hk), hfound, hend, Nat.sub_self, if_true]

/-- A range of the slices within the one extent of a context, and within a slice, is refused nothing (R218). -/
theorem stgFail_extent {cid x k : Nat} {e : List W64} {y : W64} (hext : (s.ctx cid).staging = [e]) (hy : e.head? = some y) (hk : 0 < k)
    (hin : (extentOf y).1 ≤ x ∧ x + k ≤ (extentOf y).1 + (extentOf y).2) (hslice : x % 8388608 + k ≤ 8388608) {l : List (Loc × Nat)}
    (hl : ∀ p ∈ l, (∃ a, p.1 = .va a) ∨ p = (.stg x, k)) : stgFail s cid l = [] := by
  have hlist : (s.ctx cid).staging.filterMap (fun e => e.head?.map extentOf) = [extentOf y] := by simp [hext, hy]
  have hinside := outsideAt_one hk hin
  have hmin (m : Nat) (hm : k ≤ m) : k.min m = k := Nat.min_eq_left hm
  simp only [stgFail, hlist]
  refine List.filterMap_eq_nil_iff.2 fun p hp => ?_
  rcases hl p hp with ⟨a, ha⟩ | hstg
  · rw [ha]
  · have hroom : k ≤ 8388608 - x % 8388608 := by omega
    simp only [hstg, hmin _ hroom, List.length_singleton, hinside]
    exact if_neg (Nat.not_lt.2 hroom)

/-- The first bytes of a copy between the slices and the own scratch are done: out of a slice, or into it. -/
def CopyVars.Staged (v w : CopyVars) (out : Bool) (a g m : Nat) : Prop :=
  v.Moved w (!out) (if out then a else g) ((if out then a else g) + m) (fun c => (v.mem out).byte ((if out then g else a) + (c - if out then a else g)))
    False fun c => (v.mem out).tag ((if out then g else a) + (c - if out then a else g))

/-- What CPSTG needs of its range of the slices and of its range of the own scratch (R218). -/
structure StagesAt (s : State) (blocks : List (Space × Nat)) (out : Bool) (a g n : Nat) : Prop where
  range : 0 < n → s.InScratch (a, n)
  room : ∀ b ∈ blocksOf (if out then a else g) n, (s.side (!out), b) ∈ blocks
  noHbm : ∀ b ∈ blocks, b.1 ≠ .hbm
  wf : s.staging.wf = true
  slice : g % 8388608 + n ≤ 8388608
  extent : ∃ e y, (s.ctx (s.thr s.cur).cid).staging = [e] ∧ e.head? = some y ∧ (extentOf y).1 ≤ g ∧ g + n ≤ (extentOf y).1 + (extentOf y).2

/-- A run between the slices and the own scratch: out of a slice, or into it. -/
def stagedRun (out : Bool) (a g o k : Nat) : CopyRun :=
  { at_ := (if out then a else g) + o, len := k, src := .place out ((if out then g else a) + o), tag := none }

/-- The run as the entry names its ends. -/
theorem stagedRun_part {out : Bool} {a g o k : Nat} (ha : a + o ≤ 2097152) : (stagedRun out a g o k).part (!out) =
    if out then { dst := .va ((scratchVa a).toNat + o), src := .stg (g + o), len := k, tag := none }
    else { dst := .stg (g + o), src := .va ((scratchVa a).toNat + o), len := k, tag := none } := by
  rw [scratchVa_toNat_add ha]
  cases out <;> simp [stagedRun, CopyRun.part, Source.loc, endAt]

/-- A run between the own scratch and a slice fits. -/
theorem StagesAt.runsFit {a g n o k : Nat} {out : Bool} (h : StagesAt s blocks out a g n) (hk : 0 < k) (hok : o + k ≤ n) :
    RunsFit s blocks (!out) ((if out then a else g) + o) [stagedRun out a g o k] := by
  obtain ⟨e, y, hext, hy, hlo, hhi⟩ := h.extent
  have hslice := h.slice
  have haS := (h.range (by omega)).part hk hok
  refine ⟨⟨rfl, trivial⟩, List.forall_mem_singleton.2 hk, fun hout => ?_, ?_,
    List.forall_mem_singleton.2 fun b hb => h.room b (mem_blocksOf_part hok hb), h.noHbm, ?_⟩
  · obtain rfl : out = true := by simpa using hout
    exact List.forall_mem_singleton.2 haS
  · rintro z hz x hx
    obtain rfl := List.mem_singleton.1 hz
    obtain ⟨rfl, rfl⟩ : out = false ∧ _ = x := by simpa [stagedRun] using hx
    exact haS
  · refine stgFail_extent (x := g + o) (k := k) hext hy hk (by omega) (by omega) ?_
    cases out <;> simp [stagedRun, CopyRun.part, Source.loc, endAt]

/-- A chunk of a copy between the slices and the own scratch. -/
theorem copyChunk_staged {w : CopyVars} {a g n j : Nat} {out : Bool} (hs : s.MayCopy) (hw : w.Sound s blocks) (hq : q.Of s)
    (h : StagesAt s blocks out a g n) (hI : v.Staged w out a g (min (4096 * j) n)) (hj : 4096 * j < n) :
    s.Does blocks w (copyChunk s.cur q Reach.all [(stagedRun out a g (4096 * j) (min 4096 (n - 4096 * j))).part (!out)]) () fun w =>
      v.Staged (w.at (j + 1)) out a g (min (4096 * (j + 1)) n) := by
  have hmem : w.mem out = v.mem out := by simpa using hI.other
  exact copyChunk_place hs hw hq (fun _ => h.wf) rfl (h.runsFit (by omega) (by omega)) hI
    ⟨by omega, .inl ⟨by omega, rfl, by omega⟩⟩ (fun i _ => by rw [hmem]) False.elim

/-- CPSTG between the own scratch and a slice (R218). -/
theorem cpstgEntry_midCopy {a n x g : Nat} {out : Bool} (hhits : (s.thr s.cur).hits = []) (hs : 0 < n → s.MayCopy) (hv : v.Sound s blocks) (hq : q.Of s)
    (hzero : v.head.progress = 0) (ha : (q.op 0).val = scratchVa a) (hx : (q.op 1).val.toNat = x)
    (hn : (q.op 2).val.toNat = n) (hsmall : n ≤ 2 ^ 36) (hname : x / 2 ^ 23 % 16 < 12 ∧ x < 2 ^ 30)
    (hg : g = (x / 2 ^ 27 % 8 * 12 + x / 2 ^ 23 % 16) * 8388608 + x % 8388608) (h : StagesAt s blocks out a g n) :
    s.Does blocks v (cpstgEntry s.cur q out) () fun w => v.Staged w out a g n := by
  obtain ⟨hunit, hsmallName⟩ := hname
  have hw (lo k : Nat) : wfld (q.op 1).val lo k = x / 2 ^ lo % 2 ^ k := by rw [wfld, fld, hx]
  have hlegal : (decide (12 ≤ wfld (q.op 1).val 23 4) || decide (wfld (q.op 1).val 30 34 ≠ 0)) = false := by
    rw [hw, hw, Nat.div_eq_of_lt hsmallName]
    simpa using hunit
  have hplace : (wfld (q.op 1).val 27 3 * 12 + wfld (q.op 1).val 23 4) * 8388608 + wfld (q.op 1).val 0 23 = g := by
    rw [hw, hw, hw, hg, Nat.pow_zero, Nat.div_one]
    rfl
  have hoff : wfld (q.op 1).val 0 23 = g % 8388608 := by
    rw [hw, Nat.pow_zero, Nat.div_one, hg, Nat.mul_add_mod_self_right, Nat.mod_mod]
    rfl
  have hslice := h.slice
  have hstart : v.Staged v out a g (min (4096 * 0) n) := by
    rw [Nat.mul_zero, Nat.zero_min]
    exact .refl False.elim
  have hend : min (4096 * ((n + 4095) / 4096)) n = n := by omega
  rw [cpstgEntry]
  simp only [ha, hn, hlegal, hplace, Bool.false_eq_true, if_false]
  refine .bind (P := (v = ·)) (.of_keeps hv (lengthOk_midCopy hsmall) rfl) ?_
  rintro _ - rfl
  simp only [hoff]
  have hchunk (j : Nat) (w : CopyVars) (hj : 4096 * j < n) (hw : w.Sound s blocks) (hI : v.Staged w out a g (min (4096 * j) n)) :
      s.Does blocks w (copyChunk s.cur q Reach.all
        [if out then { dst := .va ((scratchVa a).toNat + 4096 * j), src := .stg (g + 4096 * j), len := min 4096 (n - 4096 * j), tag := none }
         else { dst := .stg (g + 4096 * j), src := .va ((scratchVa a).toNat + 4096 * j), len := min 4096 (n - 4096 * j), tag := none }]) ()
        fun w => v.Staged (w.at (j + 1)) out a g (min (4096 * (j + 1)) n) := by
    obtain ⟨-, -, hwin, -⟩ := h.range (by omega)
    dsimp only at hwin
    rw [← stagedRun_part (by omega)]
    exact copyChunk_staged (hs (by omega)) hw hq h hI hj
  have hside (j : Nat) (hj : 4096 * j < n) : 4096 * j < 8388608 - g % 8388608 := by omega
  cases out with
  | true =>
    simp only [if_true]
    refine (narrowVa_midCopy hv hq).bind ?_
    rintro _ hv' ⟨scores, rfl⟩
    refine (chunkLoop_midCopy hhits (I := fun j w => v.Staged w true a g (min (4096 * j) n)) (fun j w hj hw hI => ?_) hv' hzero
      (hstart.narrowed scores)).mono fun w _ hw => by rwa [hend] at hw
    rw [if_pos (hside j hj)]
    exact hchunk j w hj hw hI
  | false =>
    simp only [Bool.false_eq_true, if_false]
    refine (chunkLoop_midCopy hhits (I := fun j w => v.Staged w false a g (min (4096 * j) n)) (fun j w hj hw hI => ?_) hv hzero hstart).mono
      fun w _ hw => by rwa [hend] at hw
    rw [if_pos (hside j hj)]
    exact hchunk j w hj hw hI

end

end Sys2Proof.Machine
end

section
/-! CPTAG (R221). -/

namespace Sys2Proof.Machine

section
variable {s : State} {v : CopyVars} {blocks : List (Space × Nat)} {q : QEntry}

/-! ## Bytes read besides the source -/

theorem keepHits_midCopy (hs : s.MayCopy) : keepHits s.cur .cp (s.midCopy v) = .ok ((), s.midCopy v) := by
  refine congrArg (fun u => Except.ok ((), u)) (State.updThr_midCopy ?_ ⟨rfl, rfl, rfl, rfl⟩)
  have hhits : ((s.thr s.cur).midCopy v).hits = [] := hs.hits
  simp only [hhits]

/-- Bytes of the own scratch that an entry reads besides its source (R214). -/
theorem readUncached_midCopy {o n : Nat} (hs : s.MayCopy) (hv : v.Sound s blocks) (hq : q.Of s) (ho : s.InScratch (o, n))
    (hclean : ∀ b ∈ blocksOf o n, isPoison (v.scratch.tag (b * 64)) = false) :
    s.Does blocks v (readUncached s.cur q (scratchVa o).toNat n) (v.scratch.bytes o n) fun w => ∃ tlb know epoch, w = v.noted tlb know epoch := by
  have hr : (entryReq s.cur .cp q Reach.all).Copies s := ⟨rfl, hq.ver, congrArg some hq.ser, congrArg some hq.wps, rfl, Nat.zero_le _⟩
  obtain ⟨tlb, know, epoch, hacc⟩ := access_midCopy (rd := true) (wr := false) (l := [(o, n)]) hs hv hr (List.forall_mem_singleton.2 ho)
    (fun _ _ => List.forall_mem_singleton.2 hclean) (fun h => absurd h Bool.false_ne_true)
  have hmod : (scratchVa o).toNat % two64 = (scratchVa o).toNat := Nat.mod_eq_of_lt (scratchVa o).isLt
  have hn := hv.noted tlb know epoch
  rw [readUncached, hmod]
  refine .bind (P := (v.noted tlb know epoch = ·)) ⟨_, hacc, hn, rfl⟩ ?_
  rintro _ - rfl
  rw [fetchRemote_ownPieces, pure_bind]
  refine .bind (P := (v.noted tlb know epoch = ·)) (.of_keeps hn (peerWatch_ownPieces _) rfl) ?_
  rintro _ - rfl
  refine .bind (P := (v.noted tlb know epoch = ·)) (.of_keeps hn (keepHits_midCopy hs) rfl) ?_
  rintro _ - rfl
  refine .bind (P := (v.noted tlb know epoch = ·)) (.of_keeps hn (M.run_get _) rfl) ?_
  rintro _ - rfl
  have hbytes := Loc.bytes_endAt (s := s) (v := v.noted tlb know epoch) (stg := false) (x := o) (n := n) (l := [(o, n)]) hn.early
    (fun _ => ⟨⟨(o, n), List.mem_singleton_self _, by simp, by simpa using ho.pos⟩, ho.pos, ho.page⟩) (List.forall_mem_singleton.2 ho.window) (rem := [])
  refine .of_keeps hn ?_ ⟨tlb, know, epoch, rfl⟩
  rw [M.run_pure]
  exact congrArg (fun l => Except.ok (l, _)) hbytes

/-! ## Runs of single blocks -/

/-- A run of one block that CPTAG gives a tag. -/
def taggedRun (x y : Nat) (f : Nat → W32) (i : Nat) : CopyRun := { at_ := x + 64 * i, len := 64, src := .place false (y + 64 * i), tag := some (f i) }

theorem abut_countFrom (x i m : Nat) : Abut (x + 64 * i) ((countFrom i m).map fun i => (x + 64 * i, 64)) := by
  induction m generalizing i with
  | zero => trivial
  | succ m ih => exact ⟨rfl, ih (i + 1)⟩

theorem spanSum_countFrom (x i m : Nat) : spanSum ((countFrom i m).map fun i => (x + 64 * i, 64)) = 64 * m := by
  induction m generalizing i with
  | zero => rfl
  | succ m ih =>
    rw [countFrom, List.map_cons, spanSum, List.map_cons, List.sum_cons]
    exact (congrArg (64 + ·) (ih (i + 1))).trans (by omega)

theorem Memory.bytes_add (m : Memory) (a n k : Nat) : m.bytes a (n + k) = m.bytes a n ++ m.bytes (a + n) k := by
  induction n generalizing a with
  | zero => simp [Memory.bytes]
  | succ n ih => rw [Nat.succ_add, Memory.bytes, ih, Memory.bytes, List.cons_append, Nat.add_right_comm, Nat.add_assoc a n 1]

/-- Runs of blocks that follow each other read what follows each other. -/
theorem runBytes_taggedRun (v : CopyVars) (x y : Nat) (f : Nat → W32) (i m : Nat) :
    runBytes v ((countFrom i m).map (taggedRun x y f)) = v.scratch.bytes (y + 64 * i) (64 * m) := by
  induction m generalizing i with
  | zero => rfl
  | succ m ih =>
    rw [countFrom, List.map_cons, runBytes, List.flatMap_cons, Nat.mul_succ, Nat.add_comm (64 * m), Memory.bytes_add]
    exact congrArg₂ (· ++ ·) rfl (ih (i + 1))

/-- The blocks of a chunk of CPTAG fit. -/
theorem RunsFit.tagged {x y m : Nat} {f : Nat → W32} (hdst : 0 < m → s.InScratch (x, 64 * m)) (hsrc : 0 < m → s.InScratch (y, 64 * m))
    (hroom : ∀ b ∈ blocksOf x (64 * m), (Space.scratch s.cur, b) ∈ blocks) (hhbm : ∀ b ∈ blocks, b.1 ≠ .hbm) :
    RunsFit s blocks false x ((countFrom 0 m).map (taggedRun x y f)) := by
  have hmem : ∀ z ∈ (countFrom 0 m).map (taggedRun x y f), ∃ i, i < m ∧ z = taggedRun x y f i := by
    intro z hz
    obtain ⟨i, hi, rfl⟩ := List.mem_map.1 hz
    rw [mem_countFrom] at hi
    exact ⟨i, by omega, rfl⟩
  refine ⟨?_, fun z hz => ?_, fun _ z hz => ?_, fun z hz c hc => ?_, fun z hz b hb => ?_, hhbm, stgFail_eq_nil fun p hp => ?_⟩
  · rw [List.map_map]
    exact abut_countFrom x 0 m
  · obtain ⟨i, hi, rfl⟩ := hmem z hz
    exact Nat.succ_pos 63
  · obtain ⟨i, hi, rfl⟩ := hmem z hz
    exact (hdst (by omega)).part (o := 64 * i) (k := 64) (by omega) (by omega)
  · obtain ⟨i, hi, rfl⟩ := hmem z hz
    obtain rfl : y + 64 * i = c := by simpa [taggedRun] using hc
    exact (hsrc (by omega)).part (o := 64 * i) (k := 64) (by omega) (by omega)
  · obtain ⟨i, hi, rfl⟩ := hmem z hz
    exact hroom b (mem_blocksOf_part (o := 64 * i) (k := 64) (by omega) hb)
  · obtain ⟨p', hp', hpp⟩ := List.mem_flatMap.1 hp
    obtain ⟨z, hz, rfl⟩ := List.mem_map.1 hp'
    obtain ⟨i, hi, rfl⟩ := hmem z hz
    simp only [List.mem_cons, List.not_mem_nil, or_false] at hpp
    rcases hpp with rfl | rfl
    · exact .inl ⟨_, rfl⟩
    · exact .inl ⟨_, rfl⟩

/-- The ranges of CPTAG: whole blocks, apart from those they are copied from, and without POISON (R221). -/
structure TagsAt (s : State) (v : CopyVars) (blocks : List (Space × Nat)) (a b k : Nat) : Prop where
  aligned : a % 64 = 0
  small : k ≤ 2 ^ 26
  dst : 0 < k → s.InScratch (a, 64 * k)
  src : 0 < k → s.InScratch (b, 64 * k)
  apart : a + 64 * k ≤ b ∨ b + 64 * k ≤ a
  clean : 0 < k → ∀ c, isPoison (v.scratch.tag c) = false
  room : ∀ x ∈ blocksOf a (64 * k), (Space.scratch s.cur, x) ∈ blocks
  noHbm : ∀ b ∈ blocks, b.1 ≠ .hbm

/-- The first bytes that CPTAG copies are done, with their tags. -/
def CopyVars.TaggedTo (v w : CopyVars) (a b : Nat) (T : Nat → W32) (n : Nat) : Prop :=
  v.Moved w false a (a + n) (fun c => v.scratch.byte (b + (c - a))) True fun c => T ((c - a) / 64)

/-- The runs of a chunk of CPTAG, as its entry names them. -/
theorem taggedRun_parts {a b o m : Nat} (f : Nat → W32) (ha : a + o + 64 * m ≤ 2097152) (hb : b + o + 64 * m ≤ 2097152) :
    (((countFrom 0 m).map f).zip (countFrom 0 m)).map (fun p =>
      { dst := .va ((scratchVa a).toNat + o + 64 * p.2), src := .va ((scratchVa b).toNat + o + 64 * p.2), len := 64, tag := some p.1 }) =
      ((countFrom 0 m).map (taggedRun (a + o) (b + o) f)).map (CopyRun.part false) := by
  have hzip : ((countFrom 0 m).map f).zip (countFrom 0 m) = (countFrom 0 m).map fun i => (f i, i) := by
    have h := List.zip_map' (f := f) (g := id) (l := countFrom 0 m)
    rwa [List.map_id] at h
  rw [hzip, List.map_map, List.map_map]
  refine List.map_congr_left fun i hi => ?_
  rw [mem_countFrom] at hi
  simp only [Function.comp_apply, CopyRun.part, taggedRun, Source.loc, endAt, Bool.false_eq_true, if_false]
  rw [Nat.add_assoc _ o, Nat.add_assoc _ o, scratchVa_toNat_add (by omega), scratchVa_toNat_add (by omega), Nat.add_assoc a, Nat.add_assoc b]

/-- A chunk of CPTAG (R221). -/
theorem copyChunk_tagged {w : CopyVars} {a b k j m : Nat} {T f : Nat → W32} {reach : Reach} (hs : s.MayCopy) (hw : w.Sound s blocks) (hq : q.Of s)
    (hreach : reach.scratch = true) (h : TagsAt s v blocks a b k) (hI : v.TaggedTo w a b T (min (4096 * j) (k * 64))) (hj : 4096 * j < k * 64)
    (hm : m = min 4096 (k * 64 - 4096 * j) / 64) (hf : ∀ i, i < m → f i = T (64 * j + i)) :
    s.Does blocks w (copyChunk s.cur q reach (((countFrom 0 m).map (taggedRun (a + 4096 * j) (b + 4096 * j) f)).map (CopyRun.part false))) ()
      fun w => v.TaggedTo (w.at (j + 1)) a b T (min (4096 * (j + 1)) (k * 64)) := by
  have haligned := h.aligned
  have hlen : 64 * m = min 4096 (k * 64 - 4096 * j) := by omega
  have hapart := h.apart
  have hsrc {c : Nat} (hc : b ≤ c ∧ c < b + 64 * k) : ¬(a ≤ c ∧ c < a + min (4096 * j) (k * 64)) := by omega
  have hfit : RunsFit s blocks false (a + 4096 * j) ((countFrom 0 m).map (taggedRun (a + 4096 * j) (b + 4096 * j) f)) :=
    .tagged (fun hpos => (h.dst (by omega)).part (by omega) (by omega)) (fun hpos => (h.src (by omega)).part (by omega) (by omega))
      (fun x hx => h.room x (mem_blocksOf_part (by omega) hx)) h.noHbm
  refine (copyChunk_midCopy hs hw hq hfit hreach).mono fun x _ hx => (CopyVars.Moved.step (stg := false) (k := 64 * m) hw.wf hI hx hfit.abut ?_
    ⟨by omega, .inl ⟨by omega, rfl, by omega⟩⟩ (fun i hi => ?_) fun _ z hz => ?_).at (j + 1)
  · rw [List.map_map]
    exact spanSum_countFrom (a + 4096 * j) 0 m
  · rw [runBytes_taggedRun, Memory.getD_bytes _ hi]
    refine (hI.byte _).trans ?_
    rw [if_neg (hsrc (by omega))]
    show v.scratch.byte _ = v.scratch.byte _
    congr 1
    omega
  · obtain ⟨i, hi, rfl⟩ := List.mem_map.1 hz
    rw [mem_countFrom] at hi
    refine ⟨⟨by simp only [taggedRun]; omega, by simp only [taggedRun]⟩, fun off hoff t ht => ?_, fun i' hi' => ?_⟩
    · obtain rfl : (w.mem false).tag (b + 4096 * j + 64 * i + off) = t := Option.some.inj ht
      have hoff' : off < 64 := hoff
      rw [hI.tag_outside trivial haligned (by omega) (by have := @hsrc (b + 4096 * j + 64 * i + off) (by omega); omega)]
      exact h.clean (by omega) _
    · have hi'' : 64 * i' < 64 := hi'
      obtain rfl : i' = 0 := by omega
      simp only [CopyRun.newTag, taggedRun, Option.getD_some, hf i (by omega)]
      congr 1
      omega

theorem CopyVars.TaggedTo.refl {a b : Nat} {T : Nat → W32} (h : v.head.cov = []) : v.TaggedTo v a b T 0 := CopyVars.Moved.refl fun _ => h

theorem length_countFrom (a n : Nat) : (countFrom a n).length = n := by
  induction n generalizing a with
  | zero => rfl
  | succ n ih => rw [countFrom, List.length_cons, ih]

/-- CPTAG with one tag for all blocks (R221). -/
theorem cptagEntry_one_midCopy {a b k : Nat} (hhits : (s.thr s.cur).hits = []) (hs : 0 < k → s.MayCopy) (hv : v.Sound s blocks) (hq : q.Of s)
    (hzero : v.head.progress = 0)
    (hcov : v.head.cov = []) (ha : (q.op 0).val = scratchVa a) (hb : (q.op 1).val = scratchVa b) (hk : (q.op 2).val.toNat / 2 ^ 32 = k)
    (h : TagsAt s v blocks a b k) (hva : (scratchVa a).toNat % 64 = 0) :
    s.Does blocks v (cptagEntry s.cur q false) () fun w => v.TaggedTo w a b (fun _ => (q.op 2).val.setWidth 32) (64 * k) := by
  have hcnt : wfld (q.op 2).val 32 32 = k := by
    rw [wfld, fld, hk, Nat.mod_eq_of_lt]
    have := h.small
    omega
  have hsmall : ¬2 ^ 26 < k := Nat.not_lt.2 h.small
  rw [cptagEntry]
  simp only [Bool.false_and, Bool.false_eq_true, if_false, pure_bind, hcnt, ha, hb, hva, if_neg hsmall, ne_eq, not_true_eq_false]
  refine (narrowVa_midCopy hv hq).bind ?_
  rintro _ hv' ⟨scores, rfl⟩
  refine (chunkLoop_midCopy hhits (I := fun j w => v.TaggedTo w a b (fun _ => (q.op 2).val.setWidth 32) (min (4096 * j) (k * 64)))
    (fun j w hj hw hI => .oneChunk hw ?_) hv' hzero ?_).mono fun w _ hw => ?_
  · obtain ⟨-, -, hawin, -⟩ := h.dst (by omega)
    obtain ⟨-, -, hbwin, -⟩ := h.src (by omega)
    dsimp only at hawin hbwin
    have htags : List.replicate (min 4096 (k * 64 - 4096 * j) / 64) ((q.op 2).val.setWidth 32) =
        (countFrom 0 (min 4096 (k * 64 - 4096 * j) / 64)).map fun _ => (q.op 2).val.setWidth 32 := by
      rw [List.map_const', length_countFrom]
    rw [htags, taggedRun_parts _ (by omega) (by omega)]
    exact copyChunk_tagged (hs (by omega)) hw hq rfl h hI hj rfl fun i _ => rfl
  · rw [Nat.mul_zero, Nat.zero_min]
    exact (CopyVars.TaggedTo.refl (a := a) (b := b) (T := fun _ => (q.op 2).val.setWidth 32) hcov).narrowed scores
  · have hend : min (4096 * ((k * 64 + 4095) / 4096)) (k * 64) = 64 * k := by omega
    rwa [hend] at hw

/-- A copy under way whose entry keeps words it has read. -/
def CopyVars.keeping (v : CopyVars) (l : List W64) : CopyVars := { v with head := { v.head with dwords := l } }

theorem CopyVars.Sound.keeping (hv : v.Sound s blocks) (l : List W64) : (v.keeping l).Sound s blocks :=
  ⟨hv.grans, hv.asked, hv.hits, hv.early, hv.scores, hv.versions, hv.room, hv.wf, hv.wfStaging⟩

theorem endFetch_midCopy (hv : v.Sound s blocks) : endFetch s.cur (s.midCopy v) = .ok ((), s.midCopy v) := by
  rw [endFetch, M.run_bind_ok headEntry_midCopy, M.run_ite, if_neg (by simp [hv.asked])]
  rfl

/-- Bytes of a field of bytes read. -/
theorem bfld_bytes (m : Memory) {a n o k : Nat} (h : o + k ≤ n) : bfld (m.bytes a n) o k = m.readLE (a + o) k := by
  obtain ⟨r, rfl⟩ : ∃ r, n = o + (k + r) := ⟨n - o - k, by omega⟩
  rw [bfld, Memory.bytes_add, List.drop_left' (Memory.length_bytes _ _ _), Memory.bytes_add, List.take_left' (Memory.length_bytes _ _ _)]
  rfl

/-- A number read where no byte differs. -/
theorem Memory.readLE_congr {m m' : Memory} {a n : Nat} (h : ∀ i, i < n → m.byte (a + i) = m'.byte (a + i)) : m.readLE a n = m'.readLE a n := by
  have hbytes : m.bytes a n = m'.bytes a n := by
    induction n generalizing a with
    | zero => rfl
    | succ n ih =>
      have hrest := ih (a := a + 1) fun i hi => by
        have := h (i + 1) (by omega)
        rwa [show a + (i + 1) = a + 1 + i by omega] at this
      rw [Memory.bytes, Memory.bytes, hrest, show m.byte a = m'.byte a from h 0 (by omega)]
  rw [Memory.readLE, Memory.readLE, hbytes]

/-- The list of tags that CPTAG reads lies apart from its destination, and without POISON. -/
structure ListAt (s : State) (v : CopyVars) (a k o : Nat) : Prop where
  range : s.InScratch (o, 4 + 4 * k)
  aligned : o % 4 = 0
  apart : a + 64 * k ≤ o ∨ o + (4 + 4 * k) ≤ a
  clean : ∀ c, isPoison (v.scratch.tag c) = false
  count : v.scratch.readLE o 4 = k

/-- What CPTAG finds of its list once chunks have been copied (R221). -/
theorem ListAt.kept {w : CopyVars} {a b k o n : Nat} {T : Nat → W32} (hl : ListAt s v a k o) (ha : a % 64 = 0) (hI : v.TaggedTo w a b T n)
    (hn : n ≤ 64 * k) (hwhole : n % 64 = 0) {p m : Nat} (hp : 4 + p + m ≤ 4 + 4 * k) :
    (∀ x ∈ blocksOf (o + 4 + p) m, isPoison (w.scratch.tag (x * 64)) = false) ∧
      ∀ i, 4 * i + 4 ≤ m → bfld (w.scratch.bytes (o + 4 + p) m) (4 * i) 4 = v.scratch.readLE (o + 4 + p + 4 * i) 4 := by
  have hapart := hl.apart
  constructor
  · intro x hx
    rw [mem_blocksOf] at hx
    have htag : w.scratch.tag (x * 64) = v.scratch.tag (x * 64) := hI.tag_outside trivial ha (by omega) (by omega)
    rw [htag]
    exact hl.clean _
  · intro i hi
    rw [bfld_bytes _ hi]
    refine Memory.readLE_congr fun c hc => (hI.byte _).trans ?_
    rw [if_neg (by omega)]
    rfl

/-- CPTAG with the tags of a list (R221). -/
theorem cptagEntry_list_midCopy {a b k o : Nat} (hs : s.MayCopy) (hv : v.Sound s blocks) (hq : q.Of s) (hzero : v.head.progress = 0)
    (hcov : v.head.cov = []) (hdwords : q.dwords = []) (ha : (q.op 0).val = scratchVa a) (hb : (q.op 1).val = scratchVa b)
    (hc : (q.op 2).val = scratchVa o) (h : TagsAt s v blocks a b k) (hva : (scratchVa a).toNat % 64 = 0) (hl : ListAt s v a k o) :
    s.Does blocks v (cptagEntry s.cur q true) () fun w =>
      (v.keeping [BitVec.ofNat 64 k]).TaggedTo w a b (fun i => BitVec.ofNat 32 (v.scratch.readLE (o + 4 + 4 * i) 4)) (64 * k) := by
  obtain ⟨-, -, howin, -⟩ := hl.range
  dsimp only at howin
  have hoaligned : (scratchVa o).toNat % 4 = 0 := by
    rw [scratchVa_toNat (by omega)]
    have := hl.aligned
    omega
  have hsmall : ¬2 ^ 26 < k := Nat.not_lt.2 h.small
  have hcount : leNat (v.scratch.bytes o 4) = k := hl.count
  rw [cptagEntry]
  simp only [Bool.true_and, Bool.false_eq_true, if_false, pure_bind, ha, hb, hc, hva, hdwords, hoaligned, ne_eq, not_true_eq_false, decide_false,
    if_true]
  refine (readUncached_midCopy (o := o) (n := 4) hs hv hq (hl.range.part (o := 0) (by omega) (by omega)) fun x _ => hl.clean _).bind ?_
  rintro _ hn ⟨tlb, know, epoch, rfl⟩
  refine .bind (P := (v.noted tlb know epoch = ·)) (.of_keeps hn (endFetch_midCopy hn) rfl) ?_
  rintro _ - rfl
  rw [hcount]
  refine .bind (P := ((v.noted tlb know epoch).keeping [BitVec.ofNat 64 k] = ·)) ⟨_, modHead_midCopy, hn.keeping _, rfl⟩ ?_
  rintro _ hn' rfl
  rw [if_neg hsmall]
  refine (narrowVa_midCopy hn' hq).bind ?_
  rintro _ hv' ⟨scores, rfl⟩
  have hkept : TagsAt s (v.keeping [BitVec.ofNat 64 k]) blocks a b k := ⟨h.aligned, h.small, h.dst, h.src, h.apart, h.clean, h.room, h.noHbm⟩
  have hlkept : ListAt s (v.keeping [BitVec.ofNat 64 k]) a k o := ⟨hl.range, hl.aligned, hl.apart, hl.clean, hl.count⟩
  refine (chunkLoop_midCopy hs.hits (I := fun j w => (v.keeping [BitVec.ofNat 64 k]).TaggedTo w a b
    (fun i => BitVec.ofNat 32 (v.scratch.readLE (o + 4 + 4 * i) 4)) (min (4096 * j) (k * 64)))
    (fun j w hj hw hI => .oneChunk hw ?_) hv' hzero ?_).mono fun w _ hw => ?_
  · obtain ⟨-, -, hawin, -⟩ := h.dst (by omega)
    obtain ⟨-, -, hbwin, -⟩ := h.src (by omega)
    dsimp only at hawin hbwin
    obtain ⟨hclean, htags⟩ := hlkept.kept h.aligned hI (by omega) (by omega) (p := 4096 * j / 64 * 4)
      (m := min 4096 (k * 64 - 4096 * j) / 64 * 4) (by omega)
    rw [Nat.add_assoc _ 4, scratchVa_toNat_add (by omega), ← Nat.add_assoc o]
    refine (readUncached_midCopy hs hw hq (by
      have := hl.range.part (o := 4 + 4096 * j / 64 * 4) (k := min 4096 (k * 64 - 4096 * j) / 64 * 4) (by omega) (by omega)
      rwa [← Nat.add_assoc o] at this) hclean).bind ?_
    rintro _ hm ⟨tlb', know', epoch', rfl⟩
    rw [taggedRun_parts _ (by omega) (by omega)]
    refine copyChunk_tagged hs hm hq rfl hkept (CopyVars.Moved.noted hI tlb' know' epoch') hj rfl fun i hi => ?_
    have hplace : o + 4 + 4096 * j / 64 * 4 + 4 * i = o + 4 + 4 * (64 * j + i) := by omega
    rw [htags i (by omega), hplace]
    rfl
  · rw [Nat.mul_zero, Nat.zero_min]
    exact ((CopyVars.TaggedTo.refl (v := v.keeping [BitVec.ofNat 64 k]) (a := a) (b := b)
      (T := fun i => BitVec.ofNat 32 (v.scratch.readLE (o + 4 + 4 * i) 4)) hcov).noted tlb know epoch).narrowed scores
  · have hend : min (4096 * ((k * 64 + 4095) / 4096)) (k * 64) = 64 * k := by omega
    rwa [hend] at hw

end

end Sys2Proof.Machine
end

section
/-! CPRED (R219). -/

namespace Sys2Proof.Machine

section
variable {s : State} {v : CopyVars} {blocks : List (Space × Nat)} {q : QEntry}

/-- Of the own scratch the bytes from `lo` to `hi` are as given and the others as they were, and the slices are as they were. -/
structure CopyVars.Rewrote (v w : CopyVars) (lo hi : Nat) (g : Nat → Byte) : Prop where
  staging : w.staging = v.staging
  byte : ∀ c, w.scratch.byte c = if lo ≤ c ∧ c < hi then g c else v.scratch.byte c

/-! ## Numbers of several bytes -/

/-- A number whose bytes a memory holds is read there. -/
theorem Memory.readLE_of_bytes {m : Memory} {a n x : Nat} (hx : x < 2 ^ (8 * n)) (h : ∀ i, i < n → m.byte (a + i) = BitVec.ofNat 8 (x / 2 ^ (8 * i))) :
    m.readLE a n = x := by
  induction n generalizing a x with
  | zero =>
    obtain rfl : x = 0 := by simpa using hx
    rfl
  | succ n ih =>
    have hrest := ih (a := a + 1) (x := x / 256) (by
      rw [Nat.div_lt_iff_lt_mul (by decide), show (256 : Nat) = 2 ^ 8 from rfl, ← Nat.pow_add]
      exact hx) fun i hi => by
        rw [show a + 1 + i = a + (i + 1) by omega, h (i + 1) (by omega), Nat.div_div_eq_div_mul, Nat.mul_succ, Nat.pow_add, Nat.mul_comm]
    rw [Memory.readLE, Memory.bytes, leNat, show leNat (m.bytes (a + 1) n) = x / 256 from hrest, show m.byte a = _ from h 0 (by omega),
      BitVec.toNat_ofNat]
    simp only [Nat.mul_zero, Nat.pow_zero, Nat.div_one]
    omega

/-! ## Elements added -/

/-- The bytes that CPRED writes to a range: its elements with the elements of some bytes added (R219). -/
def redData (ty : RedTy) (m : Memory) (x k : Nat) (data : List Byte) : List Byte :=
  (countFrom 0 (k / redBytes ty)).flatMap fun i =>
    natLE (redBytes ty) (redSum ty (m.readLE (x + redBytes ty * i) (redBytes ty)) (bfld data (redBytes ty * i) (redBytes ty)))

theorem length_redData {ty : RedTy} {m : Memory} {x k : Nat} {data : List Byte} (hk : k % redBytes ty = 0) : (redData ty m x k data).length = k := by
  rw [redData, length_flatMap_countFrom fun i => length_natLE _ _, Nat.mul_div_cancel' (Nat.dvd_of_mod_eq_zero hk)]

theorem redBytes_pos (ty : RedTy) : 0 < redBytes ty := by cases ty <;> decide

theorem getD_redData {ty : RedTy} {m : Memory} {x k i : Nat} {data : List Byte} (hk : k % redBytes ty = 0) (hi : i < k) :
    (redData ty m x k data).getD i 0 = BitVec.ofNat 8 (redSum ty (m.readLE (x + redBytes ty * (i / redBytes ty)) (redBytes ty))
      (bfld data (redBytes ty * (i / redBytes ty)) (redBytes ty)) / 2 ^ (8 * (i % redBytes ty))) := by
  rw [redData, getD_flatMap_countFrom (fun i => length_natLE _ _) _ (by rwa [Nat.mul_div_cancel' (Nat.dvd_of_mod_eq_zero hk)]),
    getD_natLE (Nat.mod_lt _ (redBytes_pos ty)), Nat.zero_add]

/-- Elements added into a piece of the own scratch (R219). -/
theorem redPiece_midCopy {r : Req} {ty : RedTy} {x k : Nat} {data : List Byte} (hv : v.Sound s blocks) (hr : r.Copies s) (hk : k % redBytes ty = 0)
    (hmem : ∀ b ∈ blocksOf x k, (Space.scratch s.cur, b) ∈ blocks) :
    s.Does blocks v (redPiece r ty (ownPieceAt (x, k)) data) () fun w => v.Wrote w false (v.scratch.setBytes x (redData ty v.scratch x k data)) := by
  obtain ⟨w, hw, hsound, hwrote⟩ := State.writeVer_midCopy (stg := false) (a := x) (data := redData ty v.scratch x k data) hv
    (by rw [length_redData hk]; exact hmem)
  refine ⟨w, ?_, hsound, hwrote⟩
  obtain ⟨hkey, hver, -⟩ := hr
  rw [redPiece, M.run_bind_ok (M.run_get _)]
  simp only [ownPieceAt_tgt, ownPieceAt_space, hkey, ownPieceAt_len, ownPieceAt_addr, State.space_scratch_midCopy, hver]
  rw [M.run_bind_ok (show noteIn r (ownPieceAt (x, k)) (s.midCopy v) = .ok ((), s.midCopy v) from rfl), M.run_bind_ok (M.run_modify _ _)]
  rw [State.side, if_neg Bool.false_ne_true, redData] at hw
  rw [hw]
  exact peerWatch_own rfl

/-- The bytes of elements that CPRED has added (R219). -/
def redByte (ty : RedTy) (m : Memory) (a b c : Nat) : Byte :=
  BitVec.ofNat 8 (redSum ty (m.readLE (a + redBytes ty * ((c - a) / redBytes ty)) (redBytes ty))
    (m.readLE (b + redBytes ty * ((c - a) / redBytes ty)) (redBytes ty)) / 2 ^ (8 * ((c - a) % redBytes ty)))

theorem CopyVars.Rewrote.at {w : CopyVars} {lo hi : Nat} {g : Nat → Byte} (h : v.Rewrote w lo hi g) (i : Nat) : v.Rewrote (w.at i) lo hi g :=
  ⟨h.staging, h.byte⟩

/-- One more chunk of bytes above those that have been rewritten. -/
theorem CopyVars.Rewrote.step {w : CopyVars} {lo hi : Nat} {data : List Byte} {g : Nat → Byte} {m : Memory} {v₀ : CopyVars}
    (h : v₀.Rewrote v lo hi g) (hle : lo ≤ hi) (hwf : m.wf = true) (hm : m.byte = v.scratch.byte) (hstaging : w.staging = v.staging)
    (hbyte : w.scratch.byte = (m.setBytes hi data).byte) (hg : ∀ i, i < data.length → data.getD i 0 = g (hi + i)) :
    v₀.Rewrote w lo (hi + data.length) g := by
  refine ⟨hstaging.trans h.staging, fun c => ?_⟩
  rw [hbyte, Memory.byte_setBytes hwf, hm, h.byte]
  by_cases hc : hi ≤ c ∧ c < hi + data.length
  · rw [if_pos hc, if_pos (by omega), hg _ (by omega)]
    congr 1
    omega
  · rw [if_neg hc]
    exact if_congr (by omega) rfl rfl

/-- The ranges of CPRED, of whole elements, and apart (R219). -/
structure RedAt (s : State) (blocks : List (Space × Nat)) (ty : RedTy) (a b n : Nat) : Prop where
  whole : n % redBytes ty = 0 ∧ (scratchVa a).toNat % redBytes ty = 0 ∧ (scratchVa b).toNat % redBytes ty = 0
  small : n ≤ 2 ^ 36
  ranges : 0 < n → s.InScratch (a, n) ∧ s.InScratch (b, n)
  apart : a + n ≤ b ∨ b + n ≤ a
  room : ∀ x ∈ blocksOf a n, (Space.scratch s.cur, x) ∈ blocks
  noHbm : ∀ b ∈ blocks, b.1 ≠ .hbm

theorem redBytes_dvd_chunk (ty : RedTy) : redBytes ty ∣ 4096 := by cases ty <;> decide

theorem alignAll_midCopy {n : Nat} {l : List Nat} (h : ∀ a ∈ l, a % n = 0) : alignAll n l (s.midCopy v) = .ok ((), s.midCopy v) := by
  have hnone : l.filter (fun a => decide (a % n ≠ 0)) = [] := List.filter_eq_nil_iff.2 fun a ha => by simp [h a ha]
  simp only [alignAll, hnone, List.map_nil]
  rfl

/-- A whole element ends within what holds it. -/
theorem element_le {k n i : Nat} (hk : 0 < k) (hn : n % k = 0) (hi : i < n) : k * (i / k) + k ≤ n := by
  have hlt : i / k < n / k := by rwa [Nat.div_lt_iff_lt_mul hk, Nat.div_mul_cancel (Nat.dvd_of_mod_eq_zero hn)]
  calc k * (i / k) + k = k * (i / k + 1) := rfl
    _ ≤ k * (n / k) := Nat.mul_le_mul_left _ hlt
    _ = n := Nat.mul_div_cancel' (Nat.dvd_of_mod_eq_zero hn)

/-- A chunk more of CPRED is done. -/
theorem CopyVars.Rewrote.reduced {w x y : CopyVars} {ty : RedTy} {a b n j : Nat} (h : RedAt s blocks ty a b n) (hj : 4096 * j < n)
    (hwf : x.scratch.wf = true) (hI : v.Rewrote w a (a + min (4096 * j) n) (redByte ty v.scratch a b)) (hwx : w.Tagged x false)
    (hxy : x.Wrote y false (x.scratch.setBytes (a + 4096 * j) (redData ty x.scratch (a + 4096 * j) (min 4096 (n - 4096 * j))
      (w.scratch.bytes (b + 4096 * j) (min 4096 (n - 4096 * j)))))) :
    v.Rewrote y a (a + min (4096 * (j + 1)) n) (redByte ty v.scratch a b) := by
  have hpos := redBytes_pos ty
  have hwide := chunk_mod j (redBytes_dvd_chunk ty) h.whole.1
  have hlen := length_redData (m := x.scratch) (x := a + 4096 * j) (data := w.scratch.bytes (b + 4096 * j) (min 4096 (n - 4096 * j))) hwide
  obtain ⟨m, hm⟩ := redBytes_dvd_chunk ty
  have hhi : a + min (4096 * j) n = a + 4096 * j := by omega
  rw [show a + min (4096 * (j + 1)) n = a + min (4096 * j) n + min 4096 (n - 4096 * j) by omega, ← hlen]
  refine hI.step (m := x.scratch) (by omega) hwf hwx.byte (hxy.other.trans hwx.other) (by rw [hhi]; exact congrArg Memory.byte hxy.mem) fun i hi => ?_
  rw [hlen] at hi
  have hplace : a + 4096 * j + i - a = i + redBytes ty * (m * j) := by rw [← Nat.mul_assoc, ← hm]; omega
  have helem := element_le hpos hwide hi
  have hfar (d : Nat) : d + redBytes ty * (i / redBytes ty + m * j) = d + 4096 * j + redBytes ty * (i / redBytes ty) := by
    rw [Nat.mul_add, ← Nat.mul_assoc, ← hm]
    omega
  have hapart := h.apart
  have hdst : x.scratch.readLE (a + 4096 * j + redBytes ty * (i / redBytes ty)) (redBytes ty) =
      v.scratch.readLE (a + 4096 * j + redBytes ty * (i / redBytes ty)) (redBytes ty) :=
    Memory.readLE_congr fun c hc => by
      rw [show x.scratch.byte = w.scratch.byte from hwx.byte, hI.byte, if_neg (by omega)]
  have hsrc : w.scratch.readLE (b + 4096 * j + redBytes ty * (i / redBytes ty)) (redBytes ty) =
      v.scratch.readLE (b + 4096 * j + redBytes ty * (i / redBytes ty)) (redBytes ty) :=
    Memory.readLE_congr fun c hc => by rw [hI.byte, if_neg (by omega)]
  rw [getD_redData hwide hi, bfld_bytes _ helem, hhi, redByte, hplace, Nat.add_mul_div_left _ _ hpos, Nat.add_mul_mod_self_left, hfar, hfar, hdst, hsrc]

/-- CPRED in the own scratch (R219). -/
theorem cpredEntry_midCopy {a b n : Nat} {ty : RedTy} (hhits : (s.thr s.cur).hits = []) (hs : 0 < n → s.MayCopy) (hv : v.Sound s blocks)
    (hq : q.Of s) (hzero : v.head.progress = 0)
    (ha : (q.op 0).val = scratchVa a) (hb : (q.op 1).val = scratchVa b) (hn : (q.op 2).val.toNat = n) (h : RedAt s blocks ty a b n) :
    s.Does blocks v (cpredEntry s.cur q ty) () fun w => v.Rewrote w a (a + n) (redByte ty v.scratch a b) := by
  obtain ⟨hwhole, haw, hbw⟩ := h.whole
  rw [cpredEntry]
  simp only [ha, hb, hn, hwhole, ne_eq, not_true_eq_false, if_false]
  refine .bind (P := (v = ·)) (.of_keeps hv (lengthOk_midCopy h.small) rfl) ?_
  rintro _ - rfl
  refine .bind (P := (v = ·)) (.of_keeps hv (alignAll_midCopy (by simp [haw, hbw])) rfl) ?_
  rintro _ - rfl
  refine (narrowVa_midCopy hv hq).bind ?_
  rintro _ hv' ⟨scores, rfl⟩
  refine (chunkLoop_midCopy hhits (I := fun j w => v.Rewrote w a (a + min (4096 * j) n) (redByte ty v.scratch a b))
    (fun j w hj hw hI => .oneChunk hw ?_) hv' hzero ?_).mono fun w _ hw => ?_
  · obtain ⟨haS, hbS⟩ := h.ranges (by omega)
    obtain ⟨-, -, hawin, -⟩ := id haS
    obtain ⟨-, -, hbwin, -⟩ := id hbS
    dsimp only at hawin hbwin
    have hpos : 0 < min 4096 (n - 4096 * j) := by omega
    have hok : 4096 * j + min 4096 (n - 4096 * j) ≤ n := by omega
    have hfit : RunsFit s blocks false (a + 4096 * j) [ownRun a b (4096 * j) (min 4096 (n - 4096 * j))] := .ownRun haS hbS hpos hok h.room h.noHbm
    rw [← ownRun_part (by omega) (by omega)]
    have hwide := chunk_mod j (redBytes_dvd_chunk ty) hwhole
    obtain ⟨tlb, know, epoch, hcheck⟩ := checkChunk_midCopy (hs (by omega)) hw (hq.copies (reach := { Reach.all with host := decide (ty = .i32) }) rfl) rfl
      hfit.chunkFits (rreach := Reach.all) rfl true
    have hnoted := hw.noted tlb know epoch
    refine .bind (P := (w.noted tlb know epoch = ·)) ⟨_, hcheck, hnoted, rfl⟩ ?_
    rintro _ - rfl
    simp only [remoteLines_ownPieces, fetchRemote_ownPieces, List.map_nil, List.map_cons, forEach, pure_bind]
    refine .bind (P := (w.noted tlb know epoch = ·)) (.of_keeps hnoted (peerWatch_ownPieces _) rfl) ?_
    rintro _ - rfl
    refine .bind (P := (w.noted tlb know epoch = ·)) (.of_keeps hnoted (M.run_get _) rfl) ?_
    rintro _ - rfl
    have hbytes : (CopyRun.part false (ownRun a b (4096 * j) (min 4096 (n - 4096 * j)))).src.bytes (s.midCopy (w.noted tlb know epoch)) s.cur
        ((ownSrcs [ownRun a b (4096 * j) (min 4096 (n - 4096 * j))]).map ownPieceAt) []
        (CopyRun.part false (ownRun a b (4096 * j) (min 4096 (n - 4096 * j)))).len = w.scratch.bytes (b + 4096 * j) (min 4096 (n - 4096 * j)) :=
      hfit.bytes_src hnoted.early List.mem_cons_self
    have hshare : shareBytes ((ownDsts false [ownRun a b (4096 * j) (min 4096 (n - 4096 * j))]).map ownPieceAt)
        [w.scratch.bytes (b + 4096 * j) (min 4096 (n - 4096 * j))].flatten =
        [(ownPieceAt (a + 4096 * j, min 4096 (n - 4096 * j)), w.scratch.bytes (b + 4096 * j) (min 4096 (n - 4096 * j)))] := by
      rw [List.flatten_singleton]
      exact congrArg (fun l => [(_, l)]) (List.take_of_length_le (Memory.length_bytes _ _ _).le)
    simp only [hbytes, hshare, remoteGranules_ownPieces, forEach]
    refine .bind (a := ()) (P := fun x => w.Tagged x false) (.bind (a := ()) (tagPart_midCopy (stg := false) hnoted hq.ver
      (hfit.mem_blocks List.mem_cons_self)) fun x hx hwx => .of_keeps hx rfl ⟨hwx.head, hwx.vstat, hwx.byte, hwx.other⟩) fun x hx hwx => ?_
    refine .bind (a := ()) (.bind (a := ()) (redPiece_midCopy hx (hq.copies (reach := { Reach.all with host := decide (ty = .i32) }) rfl) hwide
      fun y hy => h.room y (mem_blocksOf_part hok hy)) fun y hy hxy => .of_keeps hy rfl hxy) fun y hy hxy =>
      .of_keeps hy (finishChunk_midCopy hy _) ((hI.reduced h hj hx.wf hwx hxy).at (j + 1))
  · exact ⟨rfl, fun c => by rw [if_neg (by omega)]; rfl⟩
  · have hend : min (4096 * ((n + 4095) / 4096)) n = n := by omega
    rwa [hend] at hw

end

end Sys2Proof.Machine
end

section
/-! The elements that CPCONV reads and writes (R70, R222). -/

namespace Sys2Proof.Machine

/-! ## Elements of a block -/

/-- A value of a code that is no signalling NaN is scaled by 1. -/
theorem scaleNum_zero {x : Num} (h : x.isSig = false) : scaleNum x 0 = x := by
  cases x with
  | nan b => cases b with
    | true => exact absurd h (by decide)
    | false => rfl
  | inf b => rfl
  | fin b m e => simp [scaleNum]

/-- The types of whole bytes with a format code, but SQ4. -/
theorem Ty.fmtCode_mem {st : Ty} {c : Nat} (hst : st ≠ .sq4) (hw : st.width % 8 = 0) (hc : st.fmtCode? = some c) :
    (st, c) ∈ [(Ty.f32, 1), (.bf16, 2), (.f16, 3), (.e4m3, 16), (.e5m2, 17), (.i8, 18)] := by
  cases st <;> simp_all [Ty.fmtCode?, Ty.width]

/-- A tag with scale 1 has no decrement. -/
theorem fld_scaleOne {c : Nat} (hc : c < 256) (j : Nat) : fld (0x7F00 + c) (16 + 4 * j) 4 = 0 := by
  rw [fld, Nat.div_eq_of_lt, Nat.zero_mod]
  calc 0x7F00 + c < 2 ^ 16 := by omega
    _ ≤ 2 ^ (16 + 4 * j) := Nat.pow_le_pow_right (by decide) (by omega)

/-- A tag of a type with scale 1 is well formed. -/
theorem tag_scaleOne {st : Ty} {c : Nat} (hst : st ≠ .sq4) (hw : st.width % 8 = 0) (hc : st.fmtCode? = some c) :
    c ≠ 0 ∧ tagMalformed (0x7F00 + c) = false ∧ fld (0x7F00 + c) 8 8 = 127 ∧ ∀ j, tagDec (0x7F00 + c) j = 0 := by
  have hmem := Ty.fmtCode_mem hst hw hc
  simp only [List.mem_cons, Prod.mk.injEq, List.not_mem_nil, or_false] at hmem
  rcases hmem with ⟨-, rfl⟩ | ⟨-, rfl⟩ | ⟨-, rfl⟩ | ⟨-, rfl⟩ | ⟨-, rfl⟩ | ⟨-, rfl⟩
  · exact ⟨by decide, by decide, by decide, fun _ => rfl⟩
  · exact ⟨by decide, by decide, by decide, fun _ => rfl⟩
  · exact ⟨by decide, by decide, by decide, fun _ => rfl⟩
  · exact ⟨by decide, by decide, by decide, fld_scaleOne (by decide)⟩
  · exact ⟨by decide, by decide, by decide, fld_scaleOne (by decide)⟩
  · exact ⟨by decide, by decide, by decide, fun _ => rfl⟩

/-- The values of a block under a tag with scale 1 are those of its codes, NaNs made quiet (R70). -/
theorem decodeBlock_scaleOne {st : Ty} {c : Nat} (hst : st ≠ .sq4) (hw : st.width % 8 = 0) (hc : st.fmtCode? = some c) (data : Nat) :
    decodeBlock st (0x7F00 + c) data = ((lanesFrom st.width (512 / st.width) data).map fun x =>
      if st = .i8 then st.value x else scaleNum (st.value x) 0, false) := by
  obtain ⟨-, -, hscale, hdec⟩ := tag_scaleOne hst hw hc
  have hvalues : blockValues st (0x7F00 + c) data = ((lanesFrom st.width (512 / st.width) data).map st.value, false) := if_neg hst
  have hfst (l : List Num) : ((l.zip (countFrom 0 l.length)).map fun p => scaleNum p.1 0) = l.map fun x => scaleNum x 0 := by
    have h := congrArg (List.map fun x => scaleNum x 0) (List.map_fst_zip (l₁ := l) (l₂ := countFrom 0 l.length) (length_countFrom 0 l.length).ge)
    rwa [List.map_map] at h
  simp only [decodeBlock, hvalues, hscale, hdec]
  by_cases hi8 : st = .i8
  · simp only [hi8, if_true]
  · simp only [if_neg hi8]
    rw [if_neg (by decide), show ((127 : Nat) : Int) - ((0 : Nat) : Int) - 127 = 0 from rfl, hfst, List.map_map]
    rfl

/-- The elements of a source block that is not tagged, or whose type has no format code, are what their codes say (R70, R222). -/
theorem convBlock_value {st : Ty} {tag : W32} (hst : st ≠ .sq4) (hw : st.width % 8 = 0) (htag : st.fmtCode? = none ∨ tag = 0) (data : Nat) :
    convBlock st tag data = some ((lanesFrom st.width (512 / st.width) data).map fun x => (st.value x, 0)) := by
  cases hc : st.fmtCode? with
  | none => simp only [convBlock, hc]
  | some c =>
    obtain ⟨hne, hgood, hscale, -⟩ := tag_scaleOne hst hw hc
    obtain rfl : tag = 0 := htag.resolve_left (by simp [hc])
    have hzero : fld (0 : W32).toNat 0 8 = 0 := rfl
    have hsig (x : Nat) : (if (st.value x).isSig then Num.nan true else if st = .i8 then st.value x else scaleNum (st.value x) 0) = st.value x := by
      cases hs : (st.value x).isSig with
      | true =>
        rw [if_pos rfl]
        cases hv : st.value x <;> simp_all [Num.isSig]
      | false => rw [if_neg Bool.false_ne_true, scaleNum_zero hs, ite_self]
    have hzip (l : List Nat) (f : Nat → Num) : l.zip (l.map f) = l.map fun x => (x, f x) := by
      have h := List.zip_map' (f := id) (g := f) (l := l)
      rwa [List.map_id] at h
    simp only [convBlock, hc, hzero, if_neg (Ne.symm hne), if_true, hgood, Bool.false_eq_true, if_false, decodeBlock_scaleOne hst hw hc, hzip,
      List.map_map, hscale, Bool.false_and, Function.comp_def]
    simp [hst, hsig]

/-! ## Lists of elements -/

/-- The lanes of a number. -/
theorem getD_lanesFrom {w n x i : Nat} (h : i < n) : (lanesFrom w n x).getD i 0 = x / 2 ^ (w * i) % 2 ^ w := by
  induction n generalizing x i with
  | zero => omega
  | succ n ih =>
    cases i with
    | zero => simp [lanesFrom]
    | succ i => rw [lanesFrom, List.getD_cons_succ, ih (by omega), Nat.div_div_eq_div_mul, ← Nat.pow_add, Nat.mul_succ, Nat.add_comm]

theorem length_lanesFrom (w n x : Nat) : (lanesFrom w n x).length = n := by
  induction n generalizing x with
  | zero => rfl
  | succ n ih => rw [lanesFrom, List.length_cons, ih]

/-- A field of the number of some bytes. -/
theorem leNat_bytes_field (m : Memory) {a n o k : Nat} (h : o + k ≤ n) : leNat (m.bytes a n) / 2 ^ (8 * o) % 2 ^ (8 * k) = m.readLE (a + o) k := by
  have hadd (l l' : List Byte) : leNat (l ++ l') = leNat l + 2 ^ (8 * l.length) * leNat l' := by
    induction l with
    | nil => simp [leNat]
    | cons b l ih => rw [List.cons_append, leNat, ih, leNat, List.length_cons, Nat.mul_succ, Nat.pow_add]; ring
  obtain ⟨r, rfl⟩ : ∃ r, n = o + (k + r) := ⟨n - o - k, by omega⟩
  have hlow := leNat_lt (m.bytes a o)
  have hmid := leNat_lt (m.bytes (a + o) k)
  rw [Memory.length_bytes] at hlow hmid
  rw [Memory.bytes_add, hadd, Memory.length_bytes, Memory.bytes_add, hadd, Memory.length_bytes, Nat.add_mul_div_left _ _ (Nat.two_pow_pos _),
    Nat.div_eq_of_lt hlow, Nat.zero_add, Nat.add_mul_mod_self_left, Nat.mod_eq_of_lt hmid, Memory.readLE]

/-- The lanes of a packed number. -/
theorem packNat_lane (w : Nat) (l : List Nat) (i : Nat) : packNat w l / 2 ^ (w * i) % 2 ^ w = l.getD i 0 % 2 ^ w := by
  induction l generalizing i with
  | nil => simp [packNat]
  | cons x l ih =>
    cases i with
    | zero => simp [packNat]
    | succ i =>
      rw [packNat, Nat.mul_succ, Nat.add_comm (w * i), Nat.pow_add, ← Nat.div_div_eq_div_mul, Nat.add_mul_div_left _ _ (Nat.two_pow_pos _),
        Nat.div_eq_of_lt (Nat.mod_lt _ (Nat.two_pow_pos _)), Nat.zero_add, ih, List.getD_cons_succ]

/-- A byte of a lane of a packed number. -/
theorem packNat_byte {k : Nat} (l : List Nat) {i c : Nat} (hc : c < k) (hl : l.getD i 0 < 2 ^ (8 * k)) :
    BitVec.ofNat 8 (packNat (8 * k) l / 2 ^ (8 * (k * i + c))) = BitVec.ofNat 8 (l.getD i 0 / 2 ^ (8 * c)) := by
  have hfield (x : Nat) : x / 2 ^ (8 * c) % 2 ^ 8 = x % 2 ^ (8 * k) / 2 ^ (8 * c) % 2 ^ 8 := by
    rw [show 8 * k = 8 * c + (8 * (k - c - 1) + 8) by omega, Nat.pow_add, Nat.mod_mul_right_div_self,
      Nat.mod_mod_of_dvd _ (Nat.pow_dvd_pow 2 (by omega))]
  have hlane := packNat_lane (8 * k) l i
  rw [Nat.mod_eq_of_lt hl] at hlane
  refine BitVec.eq_of_toNat_eq ?_
  rw [BitVec.toNat_ofNat, BitVec.toNat_ofNat, show 8 * (k * i + c) = 8 * k * i + 8 * c by ring, Nat.pow_add, ← Nat.div_div_eq_div_mul, hfield, hlane]

end Sys2Proof.Machine
end

section
/-! CPCONV (R222). -/

namespace Sys2Proof.Machine

/-- The code that CPCONV writes for a source code (R222). -/
def convCode (st dt : Ty) (rm : RM) (sat : Bool) (x : Nat) : Nat :=
  if st.isInt && dt.isInt then (dt.reduce sat (laneInt st x)).1 else (dt.encode rm sat (st.value x)).1

theorem convElem_code (st dt : Ty) (rm : RM) (sat : Bool) (x : Nat) : (convElem st dt rm sat x (st.value x, 0)).1 = convCode st dt rm sat x := by
  rw [convElem, convCode]
  split <;> rfl

theorem convCode_lt (st dt : Ty) (rm : RM) (sat : Bool) (x : Nat) : convCode st dt rm sat x < 2 ^ dt.width := by
  rw [convCode]
  split
  · exact dt.reduce_lt _ _
  · exact dt.encode_lt _ _ _

/-- A type of whole bytes has 1, 2, 4 or 8. -/
theorem Ty.width_bytes {t : Ty} (h : t.width % 8 = 0) : t.width = 8 * (t.width / 8) ∧ 0 < t.width / 8 ∧ t.width / 8 ∣ 64 := by
  revert h
  cases t <;> decide

theorem Ty.width_mem {t : Ty} (h : t.width % 8 = 0) : t.width = 8 ∨ t.width = 16 ∨ t.width = 32 ∨ t.width = 64 := by
  revert h
  cases t <;> decide

/-- The bytes of elements of whole bytes. -/
theorem Ty.bytes_eq {t : Ty} (h : t.width % 8 = 0) (n : Nat) : n * t.width / 8 = t.width / 8 * n := by
  rcases Ty.width_mem h with h | h | h | h <;> rw [h] <;> omega

/-- A chunk of CPCONV is of whole elements, and begins a whole number of blocks of them. -/
theorem conv_counts {t : Ty} (h : t.width % 8 = 0) {k j i₀ c : Nat} (hj : 4096 * j < k * t.width / 8) (hi : i₀ = 4096 * j * 8 / t.width)
    (hc : c = min 4096 (k * t.width / 8 - 4096 * j) * 8 / t.width) :
    4096 * j = t.width / 8 * i₀ ∧ i₀ % 64 = 0 ∧ min 4096 (k * t.width / 8 - 4096 * j) = t.width / 8 * c ∧ 0 < c ∧ i₀ + c ≤ k := by
  rcases Ty.width_mem h with h | h | h | h <;> rw [h] at hj hi hc ⊢ <;> omega

/-- The codes that a chunk of CPCONV reads, by blocks. -/
def convCodes (m : Memory) (w y n : Nat) : List Nat :=
  (countFrom 0 ((n + 63) / 64)).flatMap fun j => lanesFrom w (512 / w) (leNat (m.bytes (y + 64 * j) (min 64 (n - 64 * j))))

theorem lanes_of_block {k : Nat} (hk : k ∣ 64) : 512 / (8 * k) * k = 64 := by
  rw [show 512 = 8 * 64 from rfl, Nat.mul_div_mul_left _ _ (by decide), Nat.div_mul_cancel hk]

/-- The codes of whole bytes that follow each other. -/
theorem getD_convCodes (m : Memory) {k y n i : Nat} (hpos : 0 < k) (hk : k ∣ 64) (hi : k * i + k ≤ n) :
    (convCodes m (8 * k) y n).getD i 0 = m.readLE (y + k * i) k := by
  have hL := lanes_of_block hk
  set L := 512 / (8 * k) with hLdef
  have hLpos : 0 < L := Nat.pos_of_ne_zero fun h => by simp [h] at hL
  have hlt : i < L * ((n + 63) / 64) := by
    have h : L * k * ((n + 63) / 64) = k * (L * ((n + 63) / 64)) := by ring
    have : k * i < k * (L * ((n + 63) / 64)) := by rw [← h, hL]; omega
    exact Nat.lt_of_mul_lt_mul_left this
  have hsplit : k * i = 64 * (i / L) + k * (i % L) := by
    calc k * i = k * (L * (i / L) + i % L) := by rw [Nat.div_add_mod]
      _ = L * k * (i / L) + k * (i % L) := by ring
      _ = 64 * (i / L) + k * (i % L) := by rw [hL]
  have hrow : k * (i % L) + k ≤ 64 := by
    calc k * (i % L) + k = (i % L + 1) * k := by ring
      _ ≤ L * k := Nat.mul_le_mul_right _ (Nat.mod_lt _ hLpos)
      _ = 64 := hL
  rw [convCodes, getD_flatMap_countFrom (fun j => length_lanesFrom _ _ _) _ hlt, getD_lanesFrom (Nat.mod_lt _ hLpos), Nat.zero_add,
    show 8 * k * (i % L) = 8 * (k * (i % L)) by ring, leNat_bytes_field _ (by omega), hsplit, Nat.add_assoc]

theorem length_convCodes (m : Memory) {k y n c : Nat} (hpos : 0 < k) (hk : k ∣ 64) (hn : n = k * c) : c ≤ (convCodes m (8 * k) y n).length := by
  have hL := lanes_of_block hk
  rw [convCodes, length_flatMap_countFrom fun j => length_lanesFrom _ _ _]
  have h : 512 / (8 * k) * k * ((n + 63) / 64) = k * (512 / (8 * k) * ((n + 63) / 64)) := by ring
  have : k * c ≤ k * (512 / (8 * k) * ((n + 63) / 64)) := by rw [← h, hL]; omega
  exact Nat.le_of_mul_le_mul_left this hpos

section
variable {s : State} {v : CopyVars} {blocks : List (Space × Nat)} {q : QEntry}

/-! ## A chunk of conversion -/

/-- The two parts of a chunk of CPCONV: what it writes, and what it reads. -/
def convParts (x k y n : Nat) : List Part :=
  [{ dst := .va (scratchVa x).toNat, src := .lit [], len := k, tag := none }, { dst := .lit [], src := .va (scratchVa y).toNat, len := n, tag := none }]

theorem ChunkFits.conv {x k y n : Nat} (hdst : s.InScratch (x, k)) (hsrc : s.InScratch (y, n))
    (hroom : ∀ b ∈ blocksOf x k, (Space.scratch s.cur, b) ∈ blocks) (hhbm : ∀ b ∈ blocks, b.1 ≠ .hbm) :
    ChunkFits s blocks (convParts x k y n) [(y, n)] [(x, k)] := by
  have hmod (x : Nat) : (scratchVa x).toNat % two64 = (scratchVa x).toNat := Nat.mod_eq_of_lt (scratchVa x).isLt
  have hk : ¬k = 0 := Nat.ne_of_gt hdst.1
  have hn : ¬n = 0 := Nat.ne_of_gt hsrc.1
  refine ⟨?_, ?_, List.forall_mem_singleton.2 hsrc, List.forall_mem_singleton.2 hdst, stgFail_eq_nil fun p hp => ?_,
    List.forall_mem_singleton.2 fun b hb => ?_, ?_, hhbm⟩
  · simp [vaSpans, convParts, hmod, hn, ownSpan]
  · simp [vaSpans, convParts, hmod, hk, ownSpan]
  · simp only [convParts, List.flatMap_cons, List.flatMap_nil, List.append_nil, List.cons_append, List.nil_append, List.mem_cons, List.not_mem_nil,
      or_false] at hp
    rcases hp with rfl | rfl | rfl | rfl
    · exact .inr ⟨_, rfl⟩
    · exact .inl ⟨_, rfl⟩
    · exact .inl ⟨_, rfl⟩
    · exact .inr ⟨_, rfl⟩
  · obtain ⟨c, hc, rfl⟩ := List.mem_map.1 hb
    exact hroom c hc
  · simp [convParts]

/-- The source blocks of a chunk, as they stand in the own scratch. -/
theorem convSources_midCopy {y n : Nat} (hv : v.Sound s blocks) (hsrc : s.InScratch (y, n)) (hy : y % 64 = 0) :
    convSources (s.midCopy v) s.cur [ownPieceAt (y, n)] [] (scratchVa y).toNat n = (countFrom 0 ((n + 63) / 64)).map fun j =>
      (v.scratch.tag (y + 64 * j), leNat (v.scratch.bytes (y + 64 * j) (min 64 (n - 64 * j)))) := by
  obtain ⟨hpos, -, hwin, hpage⟩ := hsrc
  dsimp only at hpos hwin hpage
  refine List.map_congr_left fun j hj => ?_
  rw [mem_countFrom] at hj
  have hin : ∃ z ∈ [(y, n)], z.1 ≤ y + 64 * j ∧ y + 64 * j < z.1 + z.2 :=
    ⟨(y, n), List.mem_singleton_self _, by dsimp only; omega, by dsimp only; omega⟩
  have hva : Loc.va ((scratchVa y).toNat + 64 * j) = endAt false (y + 64 * j) := by rw [scratchVa_toNat_add (by omega)]; rfl
  have htag := Loc.tag_endAt (s := s) (v := v) (stg := false) (x := y + 64 * j) (off := 0) (l := [(y, n)]) (List.forall_mem_singleton.2 hwin) fun _ => hin
  have hbytes := Loc.bytes_endAt (s := s) (v := v) (stg := false) (x := y + 64 * j) (n := min 64 (n - 64 * j)) (l := [(y, n)]) hv.early
    (fun _ => ⟨hin, by omega, by omega⟩) (List.forall_mem_singleton.2 hwin) (rem := [])
  rw [hva]
  refine congrArg₂ Prod.mk ?_ (congrArg leNat hbytes)
  rw [show [ownPieceAt (y, n)] = [(y, n)].map ownPieceAt from rfl, htag]
  rfl

/-- Tags of blocks of a range have changed, and no byte. -/
structure CopyVars.Retagged (v w : CopyVars) (x k : Nat) : Prop where
  staging : w.staging = v.staging
  byte : w.scratch.byte = v.scratch.byte
  tag : ∀ c, c / 64 ∉ blocksOf x k → w.scratch.tag c = v.scratch.tag c

/-- Operations one after another, each of which leaves what a transitive relation allows. -/
theorem State.Does.forEach {α : Type} {l : List α} {f : α → M Unit} {R : CopyVars → CopyVars → Prop} (hrefl : ∀ v, R v v)
    (htrans : ∀ u v w, R u v → R v w → R u w) (hf : ∀ x ∈ l, ∀ w, w.Sound s blocks → s.Does blocks w (f x) () (R w)) (hv : v.Sound s blocks) :
    s.Does blocks v (Machine.forEach l f) () (R v) := by
  induction l generalizing v with
  | nil => exact .of_keeps hv rfl (hrefl v)
  | cons x l ih =>
    exact (hf x List.mem_cons_self v hv).bind fun w hw hvw =>
      (ih (fun y hy => hf y (List.mem_cons_of_mem _ hy)) hw).mono fun z _ hwz => htrans _ _ _ hvw hwz

/-- The tag of a block of a range. -/
theorem writeTagVer_retagged {x k a : Nat} {tag : W32} (hv : v.Sound s blocks) (ha : a / 64 ∈ blocksOf x k)
    (hroom : ∀ b ∈ blocksOf x k, (Space.scratch s.cur, b) ∈ blocks) :
    s.Does blocks v (modify fun u => u.writeTagVer s.cur (s.thr s.cur).curVer.id (.scratch s.cur) a tag) () fun w => v.Retagged w x k := by
  obtain ⟨w, hw, hsound, hwrote⟩ := State.writeTagVer_midCopy (stg := false) (a := a) (tag := tag) hv (hroom _ ha)
  rw [State.side, if_neg Bool.false_ne_true] at hw
  have hmem : w.scratch = v.scratch.setTag a tag := hwrote.mem
  refine ⟨w, by rw [M.run_modify, hw], hsound, hwrote.other, by rw [hmem]; rfl, fun c hc => ?_⟩
  rw [hmem, Memory.tag_setTag hv.wf, if_neg fun h : c / 64 = a / 64 => hc (h ▸ ha)]

/-- The elements of clean source blocks, with their codes and their values. -/
theorem flatMap_convBlock {st : Ty} (hst : st ≠ .sq4) (hw : st.width % 8 = 0) {l : List (W32 × Nat)}
    (hl : ∀ x ∈ l, isPoison x.1 = false ∧ (st.fmtCode? = none ∨ x.1 = 0)) :
    (l.flatMap fun x => ((lanesFrom st.width (512 / st.width) (if isPoison x.1 then 0 else x.2)).zip
      (if isPoison x.1 then (lanesFrom st.width (512 / st.width) (if isPoison x.1 then 0 else x.2)).map fun v => (st.value v, 0)
       else (convBlock st x.1 x.2).getD [])).map fun p => (isPoison x.1, p.1, p.2)) =
      (l.flatMap fun x => lanesFrom st.width (512 / st.width) x.2).map fun c => (false, c, st.value c, 0) := by
  rw [List.map_flatMap]
  refine List.flatMap_congr fun x hx => ?_
  obtain ⟨hclean, htag⟩ := hl x hx
  have hzip (l : List Nat) (f : Nat → Num × Nat) : l.zip (l.map f) = l.map fun x => (x, f x) := by
    have h := List.zip_map' (f := id) (g := f) (l := l)
    rwa [List.map_id] at h
  simp only [hclean, Bool.false_eq_true, if_false, convBlock_value hst hw htag, Option.getD_some, hzip, List.map_map, Function.comp_def]

theorem any_convBlock {st : Ty} (hst : st ≠ .sq4) (hw : st.width % 8 = 0) {l : List (W32 × Nat)}
    (hl : ∀ x ∈ l, isPoison x.1 = false ∧ (st.fmtCode? = none ∨ x.1 = 0)) :
    (l.any fun x => !isPoison x.1 && (convBlock st x.1 x.2).isNone) = false := by
  refine List.any_eq_false.2 fun x hx => ?_
  rw [convBlock_value hst hw (hl x hx).2]
  simp

/-- What a chunk of CPCONV writes: its bytes, and tags of its blocks. -/
theorem convWrite_midCopy {x n : Nat} {data : List Byte} {tag : Nat → M Unit} (g : QEntry → List W64) (hv : v.Sound s blocks)
    (hq : q.Of s) (hroom : ∀ y ∈ blocksOf x n, (Space.scratch s.cur, y) ∈ blocks) (hlen : data.length = n)
    (htag : ∀ j ∈ countFrom 0 ((n + 63) / 64), ∀ u, u.Sound s blocks → s.Does blocks u (tag j) () fun w => u.Retagged w x n) :
    s.Does blocks v (do
      writeLocal (cpReq s.cur q) [ownPieceAt (x, n)] data
      forEach (countFrom 0 ((n + 63) / 64)) tag
      modHead s.cur .cp fun x => { x with dwords := g x }
      finishChunk s.cur none (remoteGranules [ownPieceAt (x, n)] data)) ()
      fun w => w.staging = v.staging ∧ w.scratch.byte = (v.scratch.setBytes x data).byte ∧
        ∀ c, c / 64 ∉ blocksOf x n → w.scratch.tag c = v.scratch.tag c := by
  refine .bind (writeLocal_midCopy (ld := [(x, n)]) hv (hq.copies rfl) ⟨rfl, trivial⟩ hlen (List.forall_mem_singleton.2 fun y hy => ?_)) fun u hu hvu => ?_
  · obtain ⟨c, hc, rfl⟩ := List.mem_map.1 hy
    exact hroom c hc
  refine .bind (State.Does.forEach (R := fun v w => v.Retagged w x n) (fun w => ⟨rfl, rfl, fun _ _ => rfl⟩)
    (fun _ _ _ h h' => ⟨h'.staging.trans h.staging, h'.byte.trans h.byte, fun c hc => (h'.tag c hc).trans (h.tag c hc)⟩) htag hu) fun z hz huz => ?_
  refine .bind (a := ()) (P := fun w => u.Retagged w x n) ⟨_, modHead_midCopy, ⟨hz.grans, hz.asked, hz.hits, hz.early, hz.scores, hz.versions, hz.room,
    hz.wf, hz.wfStaging⟩, huz.staging, huz.byte, huz.tag⟩ fun w hw huw => .of_keeps hw ?_ ?_
  · exact (remoteGranules_ownPieces [(x, n)] data).symm ▸ finishChunk_midCopy hw none
  · have hmem : u.scratch = v.scratch.setBytes x data := hvu.mem
    refine ⟨huw.staging.trans hvu.other, by rw [huw.byte, hmem], fun c hc => ?_⟩
    rw [huw.tag c hc, hmem, Memory.tag_setBytes]

/-- The ranges of CPCONV, apart, and its source without POISON (R222). -/
structure ConvAt (s : State) (v : CopyVars) (blocks : List (Space × Nat)) (st : Ty) (a b n m : Nat) : Prop where
  small : n ≤ 2 ^ 36
  aligned : a % 64 = 0 ∧ b % 64 = 0
  dst : 0 < n → s.InScratch (a, n)
  src : 0 < m → s.InScratch (b, m)
  apart : a + n ≤ b ∨ b + m ≤ a
  tags : ∀ c, b ≤ c → c < b + m → isPoison (v.scratch.tag c) = false ∧ (st.fmtCode? = none ∨ v.scratch.tag c = 0)
  room : ∀ x ∈ blocksOf a n, (Space.scratch s.cur, x) ∈ blocks
  noHbm : ∀ b ∈ blocks, b.1 ≠ .hbm

/-- The bytes of elements that CPCONV has converted (R222). -/
def convByte (st dt : Ty) (rm : RM) (sat : Bool) (m : Memory) (a b c : Nat) : Byte :=
  BitVec.ofNat 8 (convCode st dt rm sat (m.readLE (b + st.width / 8 * ((c - a) / (dt.width / 8))) (st.width / 8)) / 2 ^ (8 * ((c - a) % (dt.width / 8))))

/-- Chunks of CPCONV are done up to a byte; the tags of what is still to be read are as they were. -/
structure CopyVars.Converted (v w : CopyVars) (st dt : Ty) (rm : RM) (sat : Bool) (a b m n : Nat) : Prop where
  bytes : v.Rewrote w a (a + n) (convByte st dt rm sat v.scratch a b)
  tags : ∀ c, b ≤ c → c < b + m → w.scratch.tag c = v.scratch.tag c

/-- The bytes that a chunk of CPCONV writes. -/
def convData (st dt : Ty) (rm : RM) (sat : Bool) (m : Memory) (y c : Nat) : List Byte :=
  natLE (dt.width / 8 * c) (packNat dt.width (((convCodes m st.width y (st.width / 8 * c)).take c).map (convCode st dt rm sat)))

theorem getD_convData {st dt : Ty} {rm : RM} {sat : Bool} {m : Memory} {y c i : Nat} (hsw : st.width % 8 = 0) (hdw : dt.width % 8 = 0)
    (hi : i < dt.width / 8 * c) : (convData st dt rm sat m y c).getD i 0 =
      BitVec.ofNat 8 (convCode st dt rm sat (m.readLE (y + st.width / 8 * (i / (dt.width / 8))) (st.width / 8)) / 2 ^ (8 * (i % (dt.width / 8)))) := by
  obtain ⟨hsb, hspos, hs64⟩ := Ty.width_bytes hsw
  obtain ⟨hdb, hdpos, hd64⟩ := Ty.width_bytes hdw
  have hlt : i / (dt.width / 8) < c := by rwa [Nat.div_lt_iff_lt_mul hdpos, Nat.mul_comm]
  have hread : st.width / 8 * (i / (dt.width / 8)) + st.width / 8 ≤ st.width / 8 * c := Nat.mul_le_mul_left (st.width / 8) hlt
  have hlen := length_convCodes m (y := y) hspos hs64 (n := st.width / 8 * c) rfl
  have hcode := getD_convCodes m (y := y) hspos hs64 hread
  rw [← hsb] at hlen hcode
  have helem : (((convCodes m st.width y (st.width / 8 * c)).take c).map (convCode st dt rm sat)).getD (i / (dt.width / 8)) 0 =
      convCode st dt rm sat (m.readLE (y + st.width / 8 * (i / (dt.width / 8))) (st.width / 8)) := by
    rw [← hcode, List.getD_eq_getElem _ _ (by rw [List.length_map, List.length_take]; omega), List.getElem_map, List.getElem_take,
      List.getD_eq_getElem _ _ (by omega)]
  have hbyte := packNat_byte (((convCodes m st.width y (st.width / 8 * c)).take c).map (convCode st dt rm sat)) (i := i / (dt.width / 8))
    (Nat.mod_lt i hdpos) (by rw [helem, ← hdb]; exact convCode_lt ..)
  rwa [← hdb, Nat.div_add_mod, helem, ← getD_natLE hi] at hbyte

/-- A chunk more is converted. -/
theorem CopyVars.Converted.step {w z : CopyVars} {st dt : Ty} {rm : RM} {sat : Bool} {a b k i c : Nat} (hsw : st.width % 8 = 0) (hdw : dt.width % 8 = 0)
    (hwf : w.scratch.wf = true) (h : ConvAt s v blocks st a b (k * dt.width / 8) (k * st.width / 8)) (hle : i + c ≤ k)
    (hI : v.Converted w st dt rm sat a b (k * st.width / 8) (dt.width / 8 * i)) (hstaging : z.staging = w.staging)
    (hbyte : z.scratch.byte = (w.scratch.setBytes (a + dt.width / 8 * i) (convData st dt rm sat w.scratch (b + st.width / 8 * i) c)).byte)
    (htag : ∀ x, x / 64 ∉ blocksOf (a + dt.width / 8 * i) (dt.width / 8 * c) → z.scratch.tag x = w.scratch.tag x) :
    v.Converted z st dt rm sat a b (k * st.width / 8) (dt.width / 8 * (i + c)) := by
  obtain ⟨-, hspos, -⟩ := Ty.width_bytes hsw
  obtain ⟨-, hdpos, -⟩ := Ty.width_bytes hdw
  have hend : dt.width / 8 * i + dt.width / 8 * c ≤ k * dt.width / 8 := by
    rw [Ty.bytes_eq hdw, ← Nat.mul_add]
    exact Nat.mul_le_mul_left _ hle
  have hlen : (convData st dt rm sat w.scratch (b + st.width / 8 * i) c).length = dt.width / 8 * c := length_natLE _ _
  have hapart := h.apart
  constructor
  · rw [Nat.mul_add, ← Nat.add_assoc, ← hlen]
    refine hI.bytes.step (m := w.scratch) (Nat.le_add_right _ _) hwf rfl hstaging hbyte fun e he => ?_
    rw [hlen] at he
    have helem : e / (dt.width / 8) < c := by rwa [Nat.div_lt_iff_lt_mul hdpos, Nat.mul_comm]
    have hread : st.width / 8 * (i + e / (dt.width / 8)) + st.width / 8 ≤ k * st.width / 8 := by
      rw [Ty.bytes_eq hsw]
      exact Nat.mul_le_mul_left (st.width / 8) (show i + e / (dt.width / 8) + 1 ≤ k by omega)
    have hplace : a + dt.width / 8 * i + e - a = e + dt.width / 8 * i := by omega
    have hsrc : w.scratch.readLE (b + st.width / 8 * (i + e / (dt.width / 8))) (st.width / 8) =
        v.scratch.readLE (b + st.width / 8 * (i + e / (dt.width / 8))) (st.width / 8) := Memory.readLE_congr fun x hx => by
      rw [hI.bytes.byte, if_neg (by omega)]
    rw [getD_convData hsw hdw he, convByte, hplace, Nat.add_mul_div_left _ _ hdpos, Nat.add_mul_mod_self_left, Nat.add_comm _ i, Nat.add_assoc b,
      ← Nat.mul_add, hsrc]
  · intro x hlo hhi
    rw [htag x ?_, hI.tags x hlo hhi]
    have ha := h.aligned
    rw [mem_blocksOf]
    omega

/-- The ranges of a chunk of CPCONV. -/
theorem ConvAt.part {st dt : Ty} {a b k i c : Nat} (hsw : st.width % 8 = 0) (hdw : dt.width % 8 = 0)
    (h : ConvAt s v blocks st a b (k * dt.width / 8) (k * st.width / 8)) (hc : 0 < c) (hle : i + c ≤ k) :
    s.InScratch (b + st.width / 8 * i, st.width / 8 * c) ∧ s.InScratch (a + dt.width / 8 * i, dt.width / 8 * c) ∧
      ∀ y ∈ blocksOf (a + dt.width / 8 * i) (dt.width / 8 * c), (Space.scratch s.cur, y) ∈ blocks := by
  have hend {t : Ty} (ht : t.width % 8 = 0) : t.width / 8 * i + t.width / 8 * c ≤ k * t.width / 8 := by
    rw [Ty.bytes_eq ht, ← Nat.mul_add]
    exact Nat.mul_le_mul_left _ hle
  have hpos {t : Ty} (ht : t.width % 8 = 0) : 0 < t.width / 8 * c := Nat.mul_pos (Ty.width_bytes ht).2.1 hc
  have hsend := hend hsw
  have hdend := hend hdw
  exact ⟨(h.src (by have := hpos hsw; omega)).part (hpos hsw) hsend, (h.dst (by have := hpos hdw; omega)).part (hpos hdw) hdend,
    fun y hy => h.room y (mem_blocksOf_part hdend hy)⟩

/-- The source blocks of a chunk of CPCONV are as clean as the source. -/
theorem ConvAt.clean_sources {w : CopyVars} {st dt : Ty} {rm : RM} {sat : Bool} {a b n m y k l : Nat} (h : ConvAt s v blocks st a b n m)
    (hI : v.Converted w st dt rm sat a b m l) (hw : w.Sound s blocks) (hsrc : s.InScratch (y, k)) (hy : y % 64 = 0) (hlo : b ≤ y) (hhi : y + k ≤ b + m) :
    ∀ z ∈ convSources (s.midCopy w) s.cur [ownPieceAt (y, k)] [] (scratchVa y).toNat k, isPoison z.1 = false ∧ (st.fmtCode? = none ∨ z.1 = 0) := by
  rw [convSources_midCopy hw hsrc hy]
  rintro _ hz
  obtain ⟨i, hi, rfl⟩ := List.mem_map.1 hz
  rw [mem_countFrom] at hi
  dsimp only
  rw [hI.tags (y + 64 * i) (by omega) (by omega)]
  exact h.tags _ (by omega) (by omega)

/-- What CPCONV makes of the codes of a chunk: none is of a POISON block. -/
def convResults (st dt : Ty) (rm : RM) (sat : Bool) (l : List Nat) (c : Nat) : List (Bool × LaneRes) :=
  (l.take c).map fun x => (false, convElem st dt rm sat x (st.value x, 0))

theorem convResults_eq (st dt : Ty) (rm : RM) (sat : Bool) (l : List Nat) (c : Nat) :
    ((l.map fun x => (false, x, st.value x, 0)).take c).map (fun e => (e.1, convElem st dt rm sat e.2.1 e.2.2)) = convResults st dt rm sat l c := by
  rw [← List.map_take, List.map_map]
  rfl

theorem any_convResults {st dt : Ty} {rm : RM} {sat : Bool} {l : List Nat} {c i m : Nat} :
    (((convResults st dt rm sat l c).drop i).take m).any (·.1) = false := by
  refine List.any_eq_false.2 fun e he => ?_
  obtain ⟨x, -, rfl⟩ := List.mem_map.1 (List.mem_of_mem_drop (List.mem_of_mem_take he))
  exact Bool.false_ne_true

theorem convData_eq (st dt : Ty) (rm : RM) (sat : Bool) (m : Memory) (y c : Nat) : natLE (dt.width / 8 * c) (packNat dt.width
    ((convResults st dt rm sat (convCodes m st.width y (st.width / 8 * c)) c).map fun e => e.2.1)) = convData st dt rm sat m y c := by
  rw [convData, convResults]
  simp only [List.map_map, Function.comp_def, convElem_code]

/-- The third operand of CPCONV: the count, the types, and how results round (R222). -/
structure ConvFields (c : W64) (st dt : Ty) (rm : RM) (sat : Bool) (k : Nat) : Prop where
  count : wfld c 0 32 = k
  src : Ty.ofCode? (wfld c 32 4) = some st
  dst : Ty.ofCode? (wfld c 36 4) = some dt
  legal : wfld c 40 3 < 5
  round : RM.ofCode (wfld c 40 3) = rm
  saturates : decide (wfld c 43 1 = 1) = sat
  rest : wfld c 44 20 = 0

/-- The operand read as a number. -/
theorem convFields_of_toNat {c : W64} {x : Nat} {st dt : Ty} (hx : c.toNat = x) (hst : Ty.ofCode? (x / 2 ^ 32 % 16) = some st)
    (hdt : Ty.ofCode? (x / 2 ^ 36 % 16) = some dt) (hrm : x / 2 ^ 40 % 8 < 5) (hx44 : x < 2 ^ 44) :
    ConvFields c st dt (RM.ofCode (x / 2 ^ 40 % 8)) (decide (x / 2 ^ 43 % 2 = 1)) (x % 2 ^ 32) := by
  have hw (lo n : Nat) : wfld c lo n = x / 2 ^ lo % 2 ^ n := by rw [wfld, fld, hx]
  exact ⟨by rw [hw, Nat.pow_zero, Nat.div_one], by rw [hw]; exact hst, by rw [hw]; exact hdt, by rw [hw]; exact hrm, by rw [hw]; rfl, by rw [hw]; rfl,
    by rw [hw, Nat.div_eq_of_lt hx44, Nat.zero_mod]⟩

/-- CPCONV in the own scratch (R222). -/
theorem cpconvEntry_midCopy {a b k : Nat} {st dt : Ty} {rm : RM} {sat : Bool} (hhits : (s.thr s.cur).hits = []) (hs : 0 < k * dt.width / 8 → s.MayCopy)
    (hv : v.Sound s blocks) (hq : q.Of s) (hzero : v.head.progress = 0) (ha : (q.op 0).val = scratchVa a) (hb : (q.op 1).val = scratchVa b)
    (hc : ConvFields (q.op 2).val st dt rm sat k) (hsq4 : st ≠ .sq4) (hsw : st.width % 8 = 0) (hdw : dt.width % 8 = 0)
    (hva : (scratchVa a).toNat % 64 = 0 ∧ (scratchVa b).toNat % 64 = 0) (h : ConvAt s v blocks st a b (k * dt.width / 8) (k * st.width / 8)) :
    s.Does blocks v (cpconvEntry s.cur q) () fun w => v.Rewrote w a (a + k * dt.width / 8) (convByte st dt rm sat v.scratch a b) := by
  obtain ⟨hva, hvb⟩ := hva
  have hbits {t : Ty} (ht : t.width % 8 = 0) : k * t.width % 8 = 0 := by rw [Nat.mul_mod, ht, Nat.mul_zero, Nat.zero_mod]
  rw [cpconvEntry]
  simp only [hc.src, hc.dst, hc.count, hc.round, hc.saturates, hc.rest, hbits hsw, hbits hdw, ha, hb, ne_eq, not_true_eq_false, decide_false, Bool.or_false,
    decide_eq_true_eq, if_neg (Nat.not_le.2 hc.legal)]
  refine .bind (P := (v = ·)) (.of_keeps hv (alignAll_midCopy (by simp [hva, hvb])) rfl) ?_
  rintro _ - rfl
  refine (narrowVa_midCopy hv hq).bind ?_
  rintro _ hv' ⟨scores, rfl⟩
  refine .bind (chunkLoop_midCopy hhits (I := fun j w => v.Converted w st dt rm sat a b (k * st.width / 8) (min (4096 * j) (k * dt.width / 8)))
    (fun j w hj hw hI => .oneChunk hw ?_) hv' hzero ?_) fun w hw hI => ?_
  · obtain ⟨i, hi⟩ : ∃ i, i = 4096 * j * 8 / dt.width := ⟨_, rfl⟩
    obtain ⟨c, hcnt⟩ : ∃ c, c = min 4096 (k * dt.width / 8 - 4096 * j) * 8 / dt.width := ⟨_, rfl⟩
    obtain ⟨hat, hblock, hlen, hpos, hle⟩ := conv_counts hdw hj hi hcnt
    obtain ⟨hsrc, hdst, hroom⟩ := h.part hsw hdw hpos hle
    obtain ⟨-, -, hawin, -⟩ := id hdst
    obtain ⟨-, -, hbwin, -⟩ := id hsrc
    dsimp only at hawin hbwin
    have hb64 : (b + st.width / 8 * i) % 64 = 0 := by rw [Nat.add_mod, h.aligned.2, Nat.mul_mod, hblock, Nat.mul_zero]
    have hend : b + st.width / 8 * i + st.width / 8 * c ≤ b + k * st.width / 8 := by
      rw [Ty.bytes_eq hsw, Nat.add_assoc, ← Nat.mul_add]
      exact Nat.add_le_add_left (Nat.mul_le_mul_left _ hle) b
    obtain ⟨tlb, know, epoch, hcheck⟩ := checkChunk_midCopy (hs (by omega)) hw (hq.copies (reach := { Reach.all with granary := true }) rfl) rfl
      (ChunkFits.conv hdst hsrc hroom h.noHbm) (rreach := Reach.all) rfl false
    have hnoted := hw.noted tlb know epoch
    have hclean := h.clean_sources (w := w.noted tlb know epoch) ⟨⟨hI.bytes.staging, hI.bytes.byte⟩, hI.tags⟩ hnoted hsrc hb64
      (Nat.le_add_right _ _) hend
    rw [← hi, ← hcnt, hlen, Ty.bytes_eq hsw, Ty.bytes_eq hsw, hat, scratchVa_toNat_add (by omega), scratchVa_toNat_add (by omega)]
    refine .bind (P := (w.noted tlb know epoch = ·)) ⟨_, hcheck, hnoted, rfl⟩ ?_
    rintro _ - rfl
    refine .bind (P := (w.noted tlb know epoch = ·)) (.of_keeps hnoted (by
      rw [fetchRemote_ownPieces]
      rfl) rfl) ?_
    rintro _ - rfl
    refine .bind (P := (w.noted tlb know epoch = ·)) (.of_keeps hnoted (peerWatch_ownPieces _) rfl) ?_
    rintro _ - rfl
    refine .bind (P := (w.noted tlb know epoch = ·)) (.of_keeps hnoted (M.run_get _) rfl) ?_
    rintro _ - rfl
    simp only [List.map_cons, List.map_nil, any_convBlock hsq4 hsw hclean, flatMap_convBlock hsq4 hsw hclean, Bool.false_eq_true, if_false, convResults_eq]
    rw [convSources_midCopy hnoted hsrc hb64, List.flatMap_map]
    have hcodes : (countFrom 0 ((st.width / 8 * c + 63) / 64)).flatMap (fun j => lanesFrom st.width (512 / st.width) (leNat
        ((w.noted tlb know epoch).scratch.bytes (b + st.width / 8 * i + 64 * j) (min 64 (st.width / 8 * c - 64 * j))))) =
        convCodes w.scratch st.width (b + st.width / 8 * i) (st.width / 8 * c) := rfl
    simp only [hcodes, convData_eq]
    have hlength : (convData st dt rm sat w.scratch (b + st.width / 8 * i) c).length = dt.width / 8 * c := length_natLE _ _
    generalize hres : convResults st dt rm sat (convCodes w.scratch st.width (b + st.width / 8 * i) (st.width / 8 * c)) c = res
    refine (convWrite_midCopy (fun y => [BitVec.ofNat 64 ((y.dwords.headD 0).toNat ||| res.foldl (fun f e => f ||| e.2.2) 0)]) hnoted hq
      hroom hlength fun l hl u hu => ?_).mono fun z hz hwz => ?_
    · rw [mem_countFrom] at hl
      have hto := Loc.block_endAt (s := s) (stg := false) (x := a + dt.width / 8 * i) (off := 64 * l) (l := [(a + dt.width / 8 * i, dt.width / 8 * c)])
        (List.forall_mem_singleton.2 hawin) fun _ => ⟨_, List.mem_singleton_self _, Nat.le_add_right _ _, by dsimp only; omega⟩
      rw [← hres, show Loc.va (scratchVa (a + dt.width / 8 * i)).toNat = endAt false (a + dt.width / 8 * i) from rfl]
      simp only [show [ownPieceAt (a + dt.width / 8 * i, dt.width / 8 * c)] = [(a + dt.width / 8 * i, dt.width / 8 * c)].map ownPieceAt from rfl,
        hto, any_convResults, Bool.false_eq_true, if_false, hq.ver]
      split
      · exact writeTagVer_retagged hu (mem_blocksOf.2 (by omega)) hroom
      · exact .of_keeps hu rfl ⟨rfl, rfl, fun _ _ => rfl⟩
    · obtain ⟨hstaging, hbyte, htag⟩ := hwz
      have hto : min (4096 * (j + 1)) (k * dt.width / 8) = dt.width / 8 * (i + c) := by rw [Nat.mul_add (dt.width / 8)]; omega
      rw [show min (4096 * j) (k * dt.width / 8) = dt.width / 8 * i by omega] at hI
      rw [hto]
      exact hI.step (z := z.at (j + 1)) hsw hdw hw.wf h hle hstaging hbyte htag
  · exact ⟨⟨rfl, fun c => by rw [if_neg (by omega)]; rfl⟩, fun _ _ _ => rfl⟩
  · have hend : min (4096 * ((k * dt.width / 8 + 4095) / 4096)) (k * dt.width / 8) = k * dt.width / 8 := by omega
    rw [hend] at hI
    refine .bind (P := (w = ·)) (.of_keeps hw headEntry_midCopy rfl) ?_
    rintro _ - rfl
    exact ⟨{ w with vstat := vstatOr w.vstat (w.head.dwords.headD 0).toNat },
      congrArg (fun u => Except.ok ((), u)) (State.updThr_midCopy rfl ⟨rfl, rfl, rfl, rfl⟩),
      ⟨hw.grans, hw.asked, hw.hits, hw.early, hw.scores, hw.versions, hw.room, hw.wf, hw.wfStaging⟩, hI.bytes.staging, hI.bytes.byte⟩

end

end Sys2Proof.Machine
end

section
/-! A word of CP in the sequencer: its entry is pushed into an empty queue and begins. -/

namespace Sys2Proof.Machine

/-- The entry that a word of CP pushes into an empty queue. -/
def State.cpHead (s : State) (w : Instr) (ops : List (BitVec 5)) : QEntry :=
  let t := s.thr s.cur
  { word := w, num := (t.queue .cp).pushed, pc := t.live.pc, slot := t.live.task.slot, ops := ops.map t.rx, ctaint := t.live.ctaint
    csat := t.live.csat, live := t.liveTickets, group := t.live.gsel, ver := t.curVer.id, wps := t.wp, ticket := none, since := none
    progress := 0, started := false, deps := t.base, pkts := [], ser := t.serial, taskNo := t.taskNo, kcap := none
    dwords := [], cov := [], grans := none, headAt := some s.tick, asked := [], cdeps := [] }

/-- The ranges that a word of CP records (R157). -/
def State.cpScores (s : State) (w : Instr) (ops : List (BitVec 5)) : List Score :=
  let t := s.thr s.cur
  scorePush w s { (default : Score) with eng := .cp, num := (t.queue .cp).pushed, ser := t.serial, ord := s.scoreNext } s.cur (ops.map t.rx)

/-- What a word of CP finds when its entry begins. -/
def State.cpVars (s : State) (w : Instr) (ops : List (BitVec 5)) : CopyVars :=
  let t := s.thr s.cur
  { scratch := t.scratch, staging := s.staging, versions := t.versions, head := s.cpHead w ops, know := t.know, epoch := t.epoch
    scores := s.cpScores w ops, vstat := t.live.next.vstat, stamp := s.stamp, tlb := s.tlb, rels := s.rels }

section
variable {s : State} {w : Instr} {ops : List (BitVec 5)} {f : BitVec 8} {r : FlagRef}

/-- Every range that a word of CP records is the word's. -/
theorem State.mem_cpScores {c : Score} (hc : c ∈ s.cpScores w ops) : c.ser = (s.thr s.cur).serial ∧ c.ord = s.scoreNext := by
  have hwhole (t : Thread) (key : Nat) (x : Score) (slots : Bool) : ∀ c ∈ scoreWhole t key x slots, c.ser = x.ser ∧ c.ord = x.ord := by
    intro c hc
    rw [scoreWhole, List.mem_singleton] at hc
    exact hc ▸ ⟨rfl, rfl⟩
  have hat (key : Nat) (x : Score) (a n : Nat) : ∀ c ∈ scoreAt s key x a n, c.ser = x.ser ∧ c.ord = x.ord := by
    intro c hc
    rcases List.mem_append.1 hc with hc | hc
    · obtain ⟨y, -, rfl⟩ := List.mem_map.1 hc
      exact ⟨rfl, rfl⟩
    · obtain ⟨p, -, hp⟩ := List.mem_flatMap.1 hc
      extract_lets _ at hp
      split at hp
      · rw [List.mem_singleton] at hp
        exact hp ▸ ⟨rfl, rfl⟩
      · exact absurd hp List.not_mem_nil
  have hknown (b : Bool) (t : Thread) (key : Nat) (x : Score) (a n : Nat) :
      ∀ c ∈ (if b then scoreWhole t key x false else scoreAt s key x a n), c.ser = x.ser ∧ c.ord = x.ord := by
    cases b
    · exact hat key x a n
    · exact hwhole t key x false
  unfold State.cpScores scorePush at hc
  extract_lets t u op late known at hc
  split at hc
  · exact hknown _ _ _ _ _ _ c hc
  · exact hwhole _ _ _ _ c hc
  · exact hwhole _ _ _ _ c hc
  · exact hwhole _ _ _ _ c hc
  · split at hc
    · exact hknown _ _ _ _ _ _ c hc
    · exact absurd hc List.not_mem_nil
  · exact hknown _ _ _ _ _ _ c hc
  · exact hknown _ _ _ _ _ _ c hc
  · split at hc
    · exact hwhole _ _ _ _ c hc
    · exact hknown _ _ _ _ _ _ c hc
  · exact hknown _ _ _ _ _ _ c hc
  · exact absurd hc List.not_mem_nil

/-- A flag field that names a flag lets its word be pushed (R30, R41). -/
theorem flagOk_of_flagRef (hr : flagRef s.cur (s.thr s.cur).cid (s.thr s.cur).live.gsel f = some r) :
    flagOk s.cur (some f) s = .ok ((), s) := by
  have hnot : (decide (192 ≤ f.toNat) && decide ((s.thr s.cur).live.gsel = none)) = false := by
    rw [Bool.and_eq_false_iff, decide_eq_false_iff_not, decide_eq_false_iff_not]
    by_contra! h
    rw [flagRef, if_neg (by omega), h.2] at hr
    exact absurd hr nofun
  simp only [flagOk, M.run_bind_ok (M.run_getThr _ _), hnot, Bool.false_eq_true, if_false]
  rfl

/-- No range of any thread is recorded. -/
theorem State.scores_thr (hscores : ∀ p ∈ s.threads, p.2.scores = []) (k : Nat) : (s.thr k).scores = [] :=
  NMap.forall_get (P := fun t : Thread => t.scores = []) hscores rfl k

/-- No range is recorded on any core. -/
theorem State.scoreCount_eq_zero (hscores : ∀ p ∈ s.threads, p.2.scores = []) (core : Nat) : s.scoreCount core = 0 := by
  have hzero (g : Score → Bool) (l : NMap Thread) (h : ∀ p ∈ l, p.2.scores = []) : l.foldl (fun n p => n + (p.2.scores.filter g).length) 0 = 0 := by
    induction l with
    | nil => rfl
    | cons p l ih =>
      rw [List.foldl_cons, h p List.mem_cons_self]
      exact ih fun q hq => h q (List.mem_cons_of_mem _ hq)
  exact hzero _ s.threads hscores

/-- A word of CP is pushed into an empty queue. -/
theorem pushScored_midCopy (hfree : s.Free .cp) (hr : flagRef s.cur (s.thr s.cur).cid (s.thr s.cur).live.gsel f = some r)
    (hscores : ∀ p ∈ s.threads, p.2.scores = []) :
    pushScored s.cur .cp w ops (some f) (fun u c l => scorePush w u c s.cur l) s = .ok ((), s.midCopy (s.cpVars w ops)) := by
  obtain ⟨-, -, hempty, -⟩ := hfree
  have hflag := flagOk_of_flagRef hr
  have hroom (l : List Score) : (l.any fun c => decide (64 ≤ s.scoreCount (s.thr c.key).core)) = false :=
    List.any_eq_false.2 fun c _ => by rw [State.scoreCount_eq_zero hscores]; decide
  have hdepth : ¬(s.thr s.cur).depthOf .cp ≤ ((s.thr s.cur).queue .cp).entries.length := by
    rw [hempty, Thread.depthOf, List.length_nil]
    omega
  rw [pushScored, M.run_bind_ok hflag, M.run_bind_ok (M.run_get s)]
  simp only [hroom, Bool.false_eq_true, if_false]
  have hold : (s.thr s.cur).scores = [] := State.scores_thr hscores s.cur
  simp only [pushEntry, M.run_bind_ok hflag, M.run_bind, M.run_get, M.run_ite, hdepth, if_false, M.run_pure, Bool.false_eq_true, M.run_modThr, M.run_advance,
    M.run_modify]
  simp only [State.updThr_updThr, hempty, List.isEmpty_nil, if_true, List.nil_append]
  refine congrArg (fun t => Except.ok ((), { s with threads := s.threads.put s.cur t, scoreNext := s.scoreNext + 1 })) ?_
  simp only [Thread.updLive, Thread.setQueue, hold, List.nil_append]
  rfl

end

end Sys2Proof.Machine
end

section
/-! An entry of CP at the head of its queue begins. -/

namespace Sys2Proof.Machine

section
variable {s : State} {v : CopyVars} {blocks : List (Space × Nat)} {w : Instr} {ops : List (BitVec 5)} {q : QEntry}

/-! ## A thread that is free to perform -/

theorem State.Free.alive {e : Eng} (h : s.Free e) : (s.thr s.cur).alive = true := h.1.1.1

theorem State.Free.resident {e : Eng} (h : s.Free e) : (s.thr s.cur).run = .resident := h.1.1.2

theorem State.Free.hits {e : Eng} (h : s.Free e) : (s.thr s.cur).hits = [] := h.1.2.2

theorem State.Free.slot {e : Eng} (h : s.Free e) : s.cur < passBase := h.2.1

theorem State.Free.fences {e : Eng} (h : s.Free e) : (s.thr s.cur).fences = [] := h.2.2.2.2.1

theorem State.Free.tickets {e : Eng} (h : s.Free e) : (s.thr s.cur).tickets = [] := h.2.2.2.2.2.2.2

/-! ## The beginning -/

theorem Thread.liveTickets_nil {t : Thread} (h : t.tickets = []) : t.liveTickets = 0#16 := by
  rw [Thread.liveTickets, h]
  rfl

/-- The queues of the other engines are as they were. -/
theorem Thread.queue_midCopy_other (t : Thread) {e : Eng} (he : e ≠ .cp) : (t.midCopy v).queue e = t.queue e :=
  NMap.get_put_other _ _ (by revert he; cases e <;> decide)

theorem Thread.entries_of_idleQueues {t : Thread} (h : t.idleQueues = true) (e : Eng) : (t.queue e).entries = [] := by
  rw [Thread.idleQueues, List.all_eq_true] at h
  exact List.isEmpty_iff.1 (h e (by cases e <;> decide))

/-- No entry of another engine is before a copy. -/
theorem Thread.pathBusy_midCopy {t : Thread} (h : t.idleQueues = true) : (t.midCopy v).pathBusy .cp q = false := by
  refine List.any_eq_false.2 fun e _ => ?_
  by_cases he : e = .cp
  · simp [he]
  · rw [Thread.queue_midCopy_other _ he, Thread.entries_of_idleQueues h]
    simp

/-- No FENCE of the thread is pending, so that none settles. -/
theorem State.settleFences_none {u : State} {key : Nat} (h : (u.thr key).fences = []) : u.settleFences key = u := by
  rw [State.settleFences, h]
  rfl

/-- An entry of CP begins, and has learnt what its word knew. -/
theorem entryStart_midCopy (hidle : (s.thr s.cur).idleQueues = true) (hfences : (s.thr s.cur).fences = []) :
    ∃ know, entryStart s.cur .cp q (s.midCopy v) = .ok ((), s.midCopy { v with know := know }) := by
  have hnone : ((s.thr s.cur).midCopy v).fences = [] := hfences
  rw [entryStart, M.run_bind_ok (M.run_get _)]
  simp only [State.thr_midCopy, hnone, List.any_nil, Bool.false_eq_true, if_false, Thread.pathBusy_midCopy hidle]
  obtain ⟨know, hknow⟩ : ∃ know, know = (((s.thr s.cur).midCopy v).learn (entryPaths .cp q.word)
    (joinClk (((s.thr s.cur).midCopy v).fenceClk .cp q) q.deps)).know := ⟨_, rfl⟩
  have hthr := State.updThr_midCopy (s := s) (v := v) (w := { v with know := know })
    (f := fun t => (t.lateInvalidate .cp q).learn (entryPaths .cp q.word) (joinClk (t.fenceClk .cp q) q.deps))
    (by
      simp only [Thread.lateInvalidate, hnone, List.any_nil, Bool.false_eq_true, if_false, hknow]
      rfl) ⟨rfl, rfl, rfl, rfl⟩
  refine ⟨know, ?_⟩
  rw [M.run_bind_ok (M.run_modThr _ _ _), M.run_modify, hthr]
  exact congrArg (fun u => Except.ok ((), u)) (State.settleFences_none (by rw [State.thr_midCopy]; exact hfences))

/-- An entry of CP waits for no ticket. -/
theorem settleEntry_midCopy (htickets : (s.thr s.cur).tickets = []) (hq : q.cdeps = []) :
    settleEntry s.cur .cp q 0#16 false true (s.midCopy v) = .ok ((), s.midCopy v) := by
  have hlive : ((s.midCopy v).thr s.cur).liveTickets = 0#16 := by
    rw [State.thr_midCopy]
    exact Thread.liveTickets_nil (t := (s.thr s.cur).midCopy v) htickets
  rw [settleEntry, M.run_bind_ok (settleOn_none hlive _ _ _ _)]
  simp [hq]

theorem CopyVars.Sound.knowing (hv : v.Sound s blocks) (know : NMap Clock) : CopyVars.Sound { v with know := know } s blocks :=
  ⟨hv.grans, hv.asked, hv.hits, hv.early, hv.scores, hv.versions, hv.room, hv.wf, hv.wfStaging⟩

/-- What a word of CP finds is sound when its version may write the blocks of the destination. -/
theorem State.sound_cpVars (hwf : (s.thr s.cur).scratch.wf = true) (hroom : ((s.thr s.cur).ver (s.thr s.cur).curVer.id).useKnext + 64 * blocks.length ≤
    s.budgetOf (s.thr s.cur).cid ((s.thr s.cur).ver (s.thr s.cur).curVer.id)) : (s.cpVars w ops).Sound s blocks := by
  refine ⟨rfl, rfl, rfl, rfl, fun c hc => State.mem_cpScores hc, rfl, ?_, hwf, id⟩
  have hle : (((s.cpVars w ops).ver (s.thr s.cur).curVer.id).unwritten blocks).length ≤ blocks.length := List.length_filter_le _ _
  have hver : (s.cpVars w ops).ver (s.thr s.cur).curVer.id = (s.thr s.cur).ver (s.thr s.cur).curVer.id := rfl
  rw [hver] at hle ⊢
  omega

/-- The entry that a word of CP pushes. -/
theorem State.of_cpHead : (s.cpHead w ops).Of s := ⟨rfl, rfl, rfl⟩

end

end Sys2Proof.Machine
end

section
/-! What of a state the end of an entry leaves alone: how its threads run, what they hold in scratch and in their queue of CP, their flags, and the
memories. -/

namespace Sys2Proof.Machine

/-- What of a thread the end of an entry leaves alone, but for the queue and the flag that it is about. -/
@[ext] structure Bearing where
  run : Run
  alive : Bool
  pc : Nat
  x : NMap XReg
  f : NMap W32
  scratch : Memory
  cp : Queue
  stepOn : Bool
  stepAt : Option (W64 × Nat)
  hits : List Held
  fences : List FenceRec
  versions : Nat

def Thread.bearing (t : Thread) : Bearing :=
  ⟨t.run, t.alive, t.live.pc, t.live.x, t.live.f, t.scratch, t.queue .cp, t.stepOn, t.stepAt, t.hits, t.fences, t.versions.length⟩

/-- Threads, flags of groups, memories and waiters are as they were. -/
structure State.Bears (s u : State) : Prop where
  thr : ∀ k, (u.thr k).bearing = (s.thr k).bearing
  groups : ∀ c g, ((u.ctx c).groups.get g).flags = ((s.ctx c).groups.get g).flags
  hbm : u.hbm = s.hbm
  host : u.host = s.host
  staging : u.staging = s.staging
  waiters : u.waiters = s.waiters

section
variable {s t u : State} {r : FlagRef} {key : Nat}

theorem State.Bears.refl (s : State) : s.Bears s := ⟨fun _ => rfl, fun _ _ => rfl, rfl, rfl, rfl, rfl⟩

theorem State.Bears.trans (h : s.Bears t) (h' : t.Bears u) : s.Bears u :=
  ⟨fun k => (h'.thr k).trans (h.thr k), fun c g => (h'.groups c g).trans (h.groups c g), h'.hbm.trans h.hbm, h'.host.trans h.host,
    h'.staging.trans h.staging, h'.waiters.trans h.waiters⟩

/-- A flag holds what it held. -/
theorem State.Bears.flagVal (h : s.Bears u) : u.flagVal r = s.flagVal r := by
  have hf : (u.thr r.owner).live.f = (s.thr r.owner).live.f := congrArg Bearing.f (h.thr r.owner)
  rw [State.flagVal, State.flagVal, h.groups, hf]

theorem State.Bears.updThr {f : Thread → Thread} (hf : (f (s.thr key)).bearing = (s.thr key).bearing) : s.Bears (s.updThr key f) := by
  refine ⟨fun k => ?_, fun _ _ => rfl, rfl, rfl, rfl, rfl⟩
  rw [State.thr_updThr]
  split
  · next h => rw [hf, h]
  · rfl

/-- Two changes of a thread that differ in what is not to stay. -/
theorem State.Bears.updThr_congr {f g : Thread → Thread} (hfg : (g (s.thr key)).bearing = (f (s.thr key)).bearing) :
    (s.updThr key f).Bears (s.updThr key g) := by
  refine ⟨fun k => ?_, fun _ _ => rfl, rfl, rfl, rfl, rfl⟩
  rw [State.thr_updThr, State.thr_updThr]
  split
  · exact hfg
  · rfl

theorem State.Bears.mapThreads {f : Nat × Thread → Nat × Thread} (hkey : ∀ p, (f p).1 = p.1) (hf : ∀ p, (f p).2.bearing = p.2.bearing) :
    s.Bears { s with threads := s.threads.map f } :=
  ⟨fun k => NMap.apply_get_map Thread.bearing hkey hf s.threads k, fun _ _ => rfl, rfl, rfl, rfl, rfl⟩

/-- A change of the versions of every thread, one by one. -/
theorem State.Bears.mapVersions (f : Nat × Thread → Version → Version) :
    s.Bears { s with threads := s.threads.map fun p => (p.1, { p.2 with versions := p.2.versions.map (f p) }) } :=
  .mapThreads (fun _ => rfl) fun p => by simp [Thread.bearing, Thread.queue]

theorem State.Bears.updVer {id : Nat} {f : Version → Version} : s.Bears (s.updThr key fun t => t.updVer id f) :=
  .updThr (by simp [Thread.bearing, Thread.updVer, Thread.queue])

/-- A change of a group in anything but its flags. -/
theorem State.Bears.updGroup {owner : Nat} {f : Group → Group} (hf : ∀ g, (f g).flags = g.flags) : s.Bears (s.updGroup owner f) := by
  refine ⟨fun _ => rfl, fun c g => ?_, rfl, rfl, rfl, rfl⟩
  rw [State.updGroup, State.ctx_updCtx]
  split
  · next hc =>
    rw [NMap.get_put, hc]
    split
    · next hg => rw [hf, hg]
    · rfl
  · rfl

theorem State.Bears.foldl {α : Type} {f : State → α → State} (hf : ∀ s x, State.Bears s (f s x)) (l : List α) (s : State) : s.Bears (l.foldl f s) := by
  induction l generalizing s with
  | nil => exact .refl s
  | cons x l ih => exact (hf s x).trans (ih (f s x))

/-! ## What the end of an entry does -/

theorem State.Bears.commitWrites {id : Nat} : s.Bears (s.commitWrites key id) := by
  have hstrip (s : State) (recs : List Undo) : s.Bears (s.stripBy id recs) := by
    rw [State.stripBy]
    split
    · exact .refl s
    · exact .mapVersions _
  have hrels (s : State) : s.Bears (s.commitRels id) := by
    rw [State.commitRels]
    split
    · exact .refl s
    · exact ⟨fun _ => rfl, fun _ _ => rfl, rfl, rfl, rfl, rfl⟩
  exact ((hstrip s _).trans .updVer).trans (.trans (.mapVersions _) (hrels _))

/-- A version that waits for no other publishes. -/
theorem publish_bears {ver : Nat} (h : ((s.thr key).ver ver).deps = []) : ∃ u, publish key ver s = .ok ((), u) ∧ s.Bears u :=
  ⟨_, publish_ready h, .trans .commitWrites .updVer⟩

theorem State.Bears.retireScores {e : Eng} {q : QEntry} : s.Bears (s.retireScores key e q) :=
  .trans (.updThr rfl) (.foldl (fun _ _ => .updThr rfl) _ _)

theorem State.Bears.noteSpawn {e : Eng} {q : QEntry} : s.Bears (s.noteSpawn key e q) := by
  unfold State.noteSpawn
  extract_lets mine clk keys u
  split
  · exact .refl s
  · have hu : s.Bears u := ⟨fun _ => rfl, fun _ _ => rfl, rfl, rfl, rfl, rfl⟩
    exact hu.trans (.foldl (f := fun s k => s.updThr k fun t => t.acquire clk) (fun _ _ => .updThr rfl) keys u)

theorem State.Bears.countFor {ev n : Nat} : s.Bears (s.countFor key ev n) :=
  ⟨fun k => by rw [State.countFor_thr], fun c g => by rw [State.countFor_ctx], by simp, by simp, by simp, by simp⟩

/-! ## A flag -/

/-- A flag that can be set holds what it is set to. -/
theorem State.flagVal_setFlagVal {v : W32} (h : r.group = true ∨ r.idx ≠ 0) : (s.setFlagVal r v).flagVal r = v := by
  rw [State.flagVal, State.setFlagVal]
  split
  · simp [State.updGroup]
  · next hg =>
    have hidx : r.idx ≠ 0 := h.resolve_left (by simpa using hg)
    simp [hidx, Thread.updLive]

/-- A set of a flag changes of a thread at most the values of its flags. -/
theorem State.thr_setFlagVal {v : W32} (k : Nat) : ∃ f, ((s.setFlagVal r v).thr k).bearing = { (s.thr k).bearing with f := f } := by
  rw [State.setFlagVal]
  split
  · exact ⟨_, rfl⟩
  · split
    · exact ⟨_, rfl⟩
    · rw [State.thr_updThr]
      split
      · next h => exact ⟨_, by rw [h]; rfl⟩
      · exact ⟨_, rfl⟩

theorem State.memories_setFlagVal {v : W32} : (s.setFlagVal r v).hbm = s.hbm ∧ (s.setFlagVal r v).host = s.host ∧ (s.setFlagVal r v).staging = s.staging ∧
    (s.setFlagVal r v).waiters = s.waiters := by
  rw [State.setFlagVal]
  split
  · exact ⟨rfl, rfl, rfl, rfl⟩
  · split <;> exact ⟨rfl, rfl, rfl, rfl⟩

/-- A set of a flag that no unit waits on changes its value alone. -/
theorem State.Bears.addFlag {n : Nat} {clk : Clock} {who : Setter} {ver : Option Nat} (hset : r.group = true ∨ r.idx ≠ 0 ∧ (s.thr r.owner).alive = true)
    (hw : s.waiters = []) : (s.setFlagVal r (satAdd (s.flagVal r) n)).Bears (s.addFlag r n clk who ver) := by
  have hwaits : (s.setFlagVal r (satAdd (s.flagVal r) n)).waiters = [] := by
    obtain ⟨-, -, -, hwaits⟩ := State.memories_setFlagVal (s := s) (r := r) (v := satAdd (s.flagVal r) n)
    rw [hwaits, hw]
  have hserve {u : State} (hu : (s.setFlagVal r (satAdd (s.flagVal r) n)).Bears u) :
      (s.setFlagVal r (satAdd (s.flagVal r) n)).Bears (serveWaiters r u.waiters u []) := by
    have hnone : u.waiters = [] := hu.waiters.trans hwaits
    rw [hnone, serveWaiters]
    exact hu.trans ⟨fun _ => rfl, fun _ _ => rfl, rfl, rfl, rfl, hnone.symm⟩
  rw [State.addFlag, if_neg (by rcases hset with h | ⟨h, h'⟩ <;> simp [*])]
  refine hserve ?_
  split
  · exact .updGroup fun _ => rfl
  · exact .updThr (by simp [Thread.bearing, Thread.queue])

end

end Sys2Proof.Machine
end

section
/-! A word of CP from its push to its end. -/

namespace Sys2Proof.Machine

section
variable {s u : State} {v : CopyVars} {blocks : List (Space × Nat)} {w : Instr} {ops : List (BitVec 5)} {q : QEntry} {f : BitVec 8} {r : FlagRef} {key : Nat}

/-! ## The completion flag -/

/-- A flag field that names a local flag names one of the thread. -/
theorem flagRef_local {k cid : Nat} {g : Option (BitVec 8)} (h : flagRef k cid g f = some r) (hr : r.group = false) : r = ⟨false, k, f.toNat⟩ := by
  rw [flagRef] at h
  split at h
  · exact (Option.some.inj h).symm
  · obtain ⟨x, -, rfl⟩ := Option.map_eq_some_iff.1 h
    exact absurd hr Bool.noConfusion

/-- A flag holds, while a copy is under way, what it held. -/
theorem State.flagVal_midCopy : (s.midCopy v).flagVal r = s.flagVal r := by
  rw [State.flagVal, State.flagVal, State.ctx_midCopy]
  have hf : ((s.midCopy v).thr r.owner).live.f = (s.thr r.owner).live.f := by
    rw [State.thr, State.midCopy, NMap.get_put]
    split
    · next h =>
      rw [h]
      exact Frame.next_f _
    · rfl
  rw [hf]

/-- An entry has completed: its flag has the value given, and nothing else of what is to stay has changed since its work. -/
structure State.Completed (s : State) (v : CopyVars) (r : FlagRef) (x : W32) (u : State) : Prop where
  thr : ∃ f, (u.thr s.cur).bearing = { ((s.thr s.cur).midCopy v).bearing with f := f }
  flag : u.flagVal r = x
  hbm : u.hbm = s.hbm
  host : u.host = s.host
  staging : u.staging = v.staging

theorem State.Completed.bears {x : W32} {u' : State} (h : s.Completed v r x u) (h' : u.Bears u') : s.Completed v r x u' := by
  obtain ⟨f, hf⟩ := h.thr
  exact ⟨⟨f, (h'.thr _).trans hf⟩, h'.flagVal.trans h.flag, h'.hbm.trans h.hbm, h'.host.trans h.host, h'.staging.trans h.staging⟩

/-- The completion flag of a copy takes 1. -/
theorem tokenSet_midCopy (hv : v.Sound s blocks) (hfree : s.Free .cp) (hr : flagRef s.cur (s.thr s.cur).cid q.group f = some r) (hf : f ≠ 0)
    (hq : q.Of s) (hcdeps : q.cdeps = []) (hgroup : r.group = true → (s.thr s.cur).lines = [] ∧ s.allAcked s.cur = true)
    (hdeps : ((s.thr s.cur).ver (s.thr s.cur).curVer.id).deps = []) (hwait : s.waiters = []) :
    ∃ u, tokenSet s.cur .cp q f 1 7 (s.midCopy v) = .ok ((), u) ∧ s.Completed v r (BitVec.ofNat 32 (min ((s.flagVal r).toNat + 1) 0xFFFFFFFF)) u := by
  have hflag : entryFlag s.cur q f (s.midCopy v) = .ok (r, s.midCopy v) := by
    rw [entryFlag, M.run_bind_ok (M.run_getThr _ _), State.thr_midCopy]
    exact congrArg (fun o => Except.ok (Option.getD o ⟨false, s.cur, 0⟩, s.midCopy v)) hr
  have hset (u : State) (hu : (s.midCopy v).Bears u) (clk : Clock) (who : Setter) (ver : Option Nat) :
      s.Completed v r (BitVec.ofNat 32 (min ((s.flagVal r).toNat + 1) 0xFFFFFFFF)) (u.addFlag r 1 clk who ver) := by
    have hval : u.flagVal r = s.flagVal r := hu.flagVal.trans State.flagVal_midCopy
    have hcan : r.group = true ∨ r.idx ≠ 0 ∧ (u.thr r.owner).alive = true := by
      cases hg : r.group with
      | true => exact .inl rfl
      | false =>
        obtain rfl := flagRef_local hr hg
        refine .inr ⟨fun h => hf (BitVec.eq_of_toNat_eq h), ?_⟩
        have halive' : (u.thr s.cur).alive = ((s.midCopy v).thr s.cur).alive := congrArg Bearing.alive (hu.thr s.cur)
        rw [halive', State.thr_midCopy]
        exact hfree.alive
    obtain ⟨hhbm, hhost, hstaging, -⟩ := State.memories_setFlagVal (s := u) (r := r) (v := satAdd (u.flagVal r) 1)
    obtain ⟨fl, hfl⟩ := State.thr_setFlagVal (s := u) (r := r) (v := satAdd (u.flagVal r) 1) s.cur
    refine State.Completed.bears (u := u.setFlagVal r (satAdd (u.flagVal r) 1)) ⟨⟨fl, ?_⟩, ?_, hhbm.trans hu.hbm, hhost.trans hu.host,
      hstaging.trans hu.staging⟩ (.addFlag hcan (hu.waiters.trans hwait))
    · rw [hfl, hu.thr, State.thr_midCopy]
    · rw [State.flagVal_setFlagVal (hcan.imp_right And.left), hval]
      rfl
  rw [tokenSet, M.run_bind_ok hflag, M.run_bind_ok (settleEntry_midCopy hfree.tickets hcdeps)]
  cases hg : r.group with
  | false => exact ⟨_, rfl, hset _ (.refl _) _ _ _⟩
  | true =>
    obtain ⟨hlines, hacked⟩ := hgroup hg
    have hwrite : writeBackLines s.cur (fun _ => true) (s.midCopy v) = .ok ((), s.midCopy v) := writeBackLines_none (by
      rw [State.thr_midCopy]
      exact hlines) _
    have hrelease : releaseCtx s.cur (s.midCopy v) = .ok ((), s.midCopy v) := by
      rw [releaseCtx, M.run_bind_ok hwrite, M.run_bind_ok (M.run_get _), M.run_ite, if_neg (by
        have : (s.midCopy v).allAcked s.cur = true := hacked
        simp [this])]
      rfl
    have hdeps' : (((s.midCopy v).thr s.cur).ver q.ver).deps = [] := by
      have hkept := Version.kept_find hv.versions (s.thr s.cur).curVer.id
      have hver := congrArg (fun x => x.2.1) hkept
      rw [State.thr_midCopy, hq.ver]
      exact hver.trans hdeps
    obtain ⟨u, hu, hbears⟩ := publish_bears hdeps'
    simp only [if_true]
    rw [M.run_bind_ok hrelease, M.run_bind_ok hu]
    exact ⟨_, rfl, hset u hbears _ _ _⟩

/-! ## The end -/

theorem State.flagVal_updThr {f : Thread → Thread} (hf : ∀ t, (f t).live.f = t.live.f) : (u.updThr key f).flagVal r = u.flagVal r := by
  rw [State.flagVal, State.flagVal, State.thr_updThr]
  split_ifs with hg hi hk
  · rfl
  · rfl
  · rw [hf, hk]
  · rfl

theorem Thread.queue_setQueue (t : Thread) (e : Eng) (q : Queue) : (t.setQueue e q).queue e = q := NMap.get_put_same _ _ _

theorem Thread.bearing_setQueue (t : Thread) (q : Queue) : (t.setQueue .cp q).bearing = { t.bearing with cp := q } := by
  rw [Thread.bearing, Thread.queue_setQueue]
  rfl

/-- The entry at the head of CP's queue leaves it, and nothing else of what is to stay changes. -/
theorem popEntry_bears {h : QEntry} (hqueue : ((u.thr key).queue .cp).entries = [h]) (hhits : (u.thr key).hits = []) (hkept : h.hits = [])
    (hfences : (u.thr key).fences = []) (hq : q.ticket = none) :
    ∃ u', popEntry key .cp q u = .ok ((), u') ∧ (u.updThr key fun t => t.setQueue .cp { t.queue .cp with entries := [] }).Bears u' := by
  have hend {u₁ : State} (h : (u.updThr key fun t => t.setQueue .cp { t.queue .cp with entries := [] }).Bears u₁) :
      (u.updThr key fun t => t.setQueue .cp { t.queue .cp with entries := [] }).Bears
        (((u₁.retireScores key .cp q).noteSpawn key .cp q).settleFences key) := by
    have hall := (h.trans (.retireScores (key := key) (e := .cp) (q := q))).trans (.noteSpawn (key := key) (e := .cp) (q := q))
    have hnone : (((u₁.retireScores key .cp q).noteSpawn key .cp q).thr key).fences = [] := by
      have hf := congrArg Bearing.fences (hall.thr key)
      rw [State.thr_updThr_same] at hf
      exact hf.trans hfences
    rwa [State.settleFences_none hnone]
  rw [popEntry, M.run_bind_ok (M.run_get _), M.run_bind_ok (M.run_modThr _ _ _)]
  refine ⟨_, rfl, hend (.updThr_congr ?_)⟩
  rw [hq]
  refine Bearing.ext rfl rfl rfl rfl rfl rfl ?_ rfl rfl ?_ ?_ rfl
  · refine (Thread.queue_setQueue _ _ _).trans (.trans ?_ (Thread.queue_setQueue _ _ _).symm)
    refine congrArg (fun l => ({ entries := l, pushed := ((u.thr key).queue .cp).pushed } : Queue)) ?_
    change (match ((u.thr key).queue .cp).entries.drop 1 with | x :: r => { x with headAt := some u.tick } :: r | [] => []) = []
    rw [hqueue]
    rfl
  · change List.foldl Held.join (((((u.thr key).queue .cp).entries.head?).map fun x => x.hits).getD []) (u.thr key).hits = (u.thr key).hits
    rw [hqueue, List.head?_cons, Option.map_some, Option.getD_some, hkept, hhits]
    rfl
  · change (u.thr key).fences.map _ = (u.thr key).fences
    rw [hfences]
    rfl

/-- Nothing follows the completion of an entry of a thread with one version that is not single-stepped and has no hit. -/
theorem State.entryDone_bears (hver : (u.thr key).versions.length ≤ 1) (hhits : (u.thr key).hits = []) (hstep : (u.thr key).stepAt = none) :
    u.Bears (u.entryDone key .cp q) := by
  have hidle : u.Bears (u.updThr key fun t => { t with idle := u.tick }) := .updThr rfl
  have hland : (u.updThr key fun t => { t with idle := u.tick }).landFirst key = u.updThr key fun t => { t with idle := u.tick } := by
    rw [State.landFirst, State.thr_updThr_same]
    match hv : (u.thr key).versions with
    | [] => rfl
    | [x] => rfl
    | x :: y :: l => simp [hv] at hver
  rw [State.entryDone]
  simp only [reduceCtorEq, if_false, hland]
  simpa [State.takeHits, State.takeStep, hhits, hstep] using hidle

/-! ## The whole word -/

/-- The effect of an entry that has a completion flag: its work, then the flag. -/
theorem cpEffect_ok {s₁ s₂ : State} (h : doneFlag q.word = some f) (hbegin : cpBegin key q s = .ok ((), s)) (hbody : cpBody key q s = .ok ((), s₁))
    (hzero : f = 0 → s₂ = s₁) (hset : f ≠ 0 → tokenSet key .cp q f 1 7 s₁ = .ok ((), s₂)) : cpEffect key q s = .ok ((), s₂) := by
  suffices heffect : ∀ g, cpEffect key q = g → g s = .ok ((), s₂) from heffect _ rfl
  intro g hg
  unfold cpEffect at hg
  split at hg
  · next hw => simp [hw, doneFlag] at h
  · next hw => simp [hw, doneFlag] at h
  · rw [← hg, M.run_bind_ok hbegin, M.run_bind_ok hbody, h]
    by_cases hf : f = 0#8
    · rw [hzero hf]
      simp [hf]
    · simp [hf, hset hf]

/-- An entry of CP whose work is done, and then its flag. -/
theorem cpEffect_midCopy {P : CopyVars → Prop} (hfree : s.Free .cp) (hwait : s.waiters = [])
    (hr : flagRef s.cur (s.thr s.cur).cid q.group f = some r) (hq : q.Of s) (hcdeps : q.cdeps = []) (hflag : doneFlag q.word = some f)
    (hgroup : r.group = true → (s.thr s.cur).lines = [] ∧ s.allAcked s.cur = true) (hdeps : ((s.thr s.cur).ver (s.thr s.cur).curVer.id).deps = [])
    (hbody : s.Does blocks v (cpBody s.cur q) () P) :
    ∃ u v', cpEffect s.cur q (s.midCopy v) = .ok ((), u) ∧ v'.Sound s blocks ∧ P v' ∧
      s.Completed v' r (if f = 0 then 0 else BitVec.ofNat 32 (min ((s.flagVal r).toNat + 1) 0xFFFFFFFF)) u := by
  obtain ⟨v', hrun, hsound, hpost⟩ := hbody
  have hbegin : cpBegin s.cur q (s.midCopy v) = .ok ((), s.midCopy v) := settleEntry_midCopy hfree.tickets hcdeps
  by_cases hf : f = 0
  · refine ⟨s.midCopy v', v', cpEffect_ok hflag hbegin hrun (fun _ => rfl) fun h => absurd hf h, hsound, hpost,
      ⟨_, by rw [State.thr_midCopy]⟩, ?_, rfl, rfl, rfl⟩
    subst hf
    obtain rfl : r = ⟨false, s.cur, 0⟩ := (Option.some.inj hr).symm
    rfl
  · obtain ⟨u, hu, hdone⟩ := tokenSet_midCopy hsound hfree hr hf hq hcdeps hgroup hdeps hwait
    exact ⟨u, v', cpEffect_ok hflag hbegin hrun (fun h => absurd h hf) fun _ => hu, hsound, hpost, by rwa [if_neg hf]⟩

/-- Nothing follows a word of a thread that is not single-stepped and has no hit. -/
theorem State.wordDone_bears {pc : W64} {ser : Nat} (hon : (u.thr key).stepOn = false) (hhits : (u.thr key).hits = []) (hstep : (u.thr key).stepAt = none) :
    u.Bears (u.wordDone key pc ser) := by
  rw [State.wordDone_quiet hon hhits]
  refine .trans (.updThr ?_) .countFor
  simp [Thread.bearing, Thread.queue, hstep]

/-- A word of CP has been performed: its entry is gone, its flag has the value given, and of what is to stay only the memories that the copy wrote have
changed. -/
structure State.Performed (s : State) (v : CopyVars) (r : FlagRef) (x : W32) (u : State) : Prop where
  thr : ∃ f, (u.thr s.cur).bearing =
    { ((s.thr s.cur).midCopy v).bearing with f := f, cp := { entries := [], pushed := ((s.thr s.cur).queue .cp).pushed + 1 } }
  flag : u.flagVal r = x
  hbm : u.hbm = s.hbm
  host : u.host = s.host
  staging : u.staging = v.staging

theorem State.Performed.bears {x : W32} {u' : State} (h : s.Performed v r x u) (h' : u.Bears u') : s.Performed v r x u' := by
  obtain ⟨f, hf⟩ := h.thr
  exact ⟨⟨f, (h'.thr _).trans hf⟩, h'.flagVal.trans h.flag, h'.hbm.trans h.hbm, h'.host.trans h.host, h'.staging.trans h.staging⟩

/-- The entry of a word of CP runs at once. -/
theorem runHead_midCopy {x : W32} {know : NMap Clock} (hfree : s.Free .cp)
    (hstart : entryStart s.cur .cp (s.cpHead w ops) (s.midCopy (s.cpVars w ops)) = .ok ((), s.midCopy { s.cpVars w ops with know := know }))
    (heffect : cpEffect s.cur (s.cpHead w ops) (s.midCopy { s.cpVars w ops with know := know }) = .ok ((), u)) (hsound : v.Sound s blocks)
    (hdone : s.Completed v r x u) : s.Performed v r x ((s.midCopy (s.cpVars w ops)).runHead cpEffect .cp s.cur) := by
  obtain ⟨⟨⟨halive, hrun⟩, -, hhits⟩, -, -, -, hfences, hver, hstep, -⟩ := hfree
  obtain ⟨fl, hbear⟩ := hdone.thr
  have hqueue : (u.thr s.cur).queue .cp = { entries := [v.head], pushed := ((s.thr s.cur).queue .cp).pushed + 1 } :=
    (congrArg Bearing.cp hbear).trans (Thread.queue_midCopy _)
  have hhits' : (u.thr s.cur).hits = [] := (congrArg Bearing.hits hbear).trans hhits
  have hfences' : (u.thr s.cur).fences = [] := (congrArg Bearing.fences hbear).trans hfences
  obtain ⟨u', hpop, hbears⟩ := popEntry_bears (q := s.cpHead w ops) (congrArg Queue.entries hqueue) hhits' hsound.hits hfences' rfl
  have hpopped : s.Performed v r x u' := by
    refine State.Performed.bears (u := u.updThr s.cur fun t => t.setQueue .cp { t.queue .cp with entries := [] }) ⟨⟨fl, ?_⟩, ?_, hdone.hbm, hdone.host,
      hdone.staging⟩ hbears
    · rw [State.thr_updThr_same, Thread.bearing_setQueue, hbear, hqueue]
    · exact (State.flagVal_updThr (f := fun t => t.setQueue .cp { t.queue .cp with entries := [] }) fun _ => rfl).trans hdone.flag
  obtain ⟨fl', hbear'⟩ := hpopped.thr
  have hentries : (((s.midCopy (s.cpVars w ops)).thr s.cur).queue .cp).entries = [s.cpHead w ops] := by
    rw [State.thr_midCopy, Thread.queue_midCopy]
    rfl
  have hgo : (!(((s.midCopy (s.cpVars w ops)).thr s.cur).alive && decide (((s.midCopy (s.cpVars w ops)).thr s.cur).run = .resident))) = false := by
    rw [State.thr_midCopy]
    have h1 : ((s.thr s.cur).midCopy (s.cpVars w ops)).alive = true := halive
    have h2 : ((s.thr s.cur).midCopy (s.cpVars w ops)).run = .resident := hrun
    rw [h1, h2]
    rfl
  have hdo : (do
      entryStart s.cur .cp (s.cpHead w ops)
      cpEffect s.cur (s.cpHead w ops)
      popEntry s.cur .cp (s.cpHead w ops) : M Unit) (s.midCopy (s.cpVars w ops)) = .ok ((), u') := by
    rw [M.run_bind_ok hstart, M.run_bind_ok heffect, hpop]
  rw [State.runHead]
  simp only [hgo, Bool.false_eq_true, if_false, hentries, hdo]
  refine hpopped.bears (State.entryDone_bears ?_ ((congrArg Bearing.hits hbear').trans hhits) ((congrArg Bearing.stepAt hbear').trans hstep))
  have hcount : v.versions.length = (s.thr s.cur).versions.length := by simpa using congrArg List.length hsound.versions
  rw [show (u'.thr s.cur).versions.length = v.versions.length from congrArg Bearing.versions hbear', hcount]
  exact hver

/-- A word of CP that may run does its work at once, adds 1 to its flag, and changes nothing else (R214). -/
theorem cpWord_midCopy {P : CopyVars → Prop} (hfree : s.Free .cp) (hidle : s.Idle) (hwait : s.waiters = [])
    (hr : flagRef s.cur (s.thr s.cur).cid (s.thr s.cur).live.gsel f = some r) (hgroup : r.group = true → (s.thr s.cur).lines = [] ∧ s.allAcked s.cur = true)
    (hdeps : ((s.thr s.cur).ver (s.thr s.cur).curVer.id).deps = []) (hscores : ∀ p ∈ s.threads, p.2.scores = []) (hflag : doneFlag w = some f)
    (hbody : ∀ know, s.Does blocks { s.cpVars w ops with know := know } (cpBody s.cur (s.cpHead w ops)) () P) :
    ∃ u v', cpWord w ops (some f) s = .next u ∧ P v' ∧
      s.Performed v' r (if f = 0 then 0 else BitVec.ofNat 32 (min ((s.flagVal r).toNat + 1) 0xFFFFFFFF)) u := by
  have hstart := entryStart_midCopy (v := s.cpVars w ops) (q := s.cpHead w ops) hidle.1 hfree.fences
  obtain ⟨know, hstart⟩ := hstart
  obtain ⟨u, v', heffect, hsound, hpost, hdone⟩ := cpEffect_midCopy hfree hwait hr State.of_cpHead rfl hflag hgroup hdeps (hbody know)
  have hperf := runHead_midCopy hfree hstart heffect hsound hdone
  obtain ⟨fl, hbear⟩ := hperf.thr
  obtain ⟨⟨⟨halive, hrun⟩, hon, hhits⟩, -, -, hheld, -, -, hstep, -⟩ := id hfree
  obtain ⟨u', hu'⟩ : ∃ u', u' = (s.midCopy (s.cpVars w ops)).runHead cpEffect .cp s.cur := ⟨_, rfl⟩
  rw [← hu'] at hperf hbear
  have hgo : (!((s.thr s.cur).alive && decide ((s.thr s.cur).run = .resident))) = false := by simp [halive, hrun]
  have hend : (decide ((u'.thr s.cur).run = .resident) && (u'.thr s.cur).alive) = true := by
    have h1 : (u'.thr s.cur).alive = true := (congrArg Bearing.alive hbear).trans halive
    have h2 : (u'.thr s.cur).run = .resident := (congrArg Bearing.run hbear).trans hrun
    simp [h1, h2]
  have hheld' : (s.midCopy (s.cpVars w ops)).held.contains (s.cur, Eng.cp) = false := hheld
  refine ⟨u'.wordDone s.cur (s.thr s.cur).pcw (s.thr s.cur).serial, v', ?_, hpost, hperf.bears (State.wordDone_bears
    ((congrArg Bearing.stepOn hbear).trans hon) ((congrArg Bearing.hits hbear).trans hhits) ((congrArg Bearing.stepAt hbear).trans hstep))⟩
  have hpush := pushScored_midCopy (w := w) (ops := ops) hfree hr hscores
  rw [cpWord, engineWord]
  simp only [hgo, Bool.false_eq_true, if_false]
  rw [hpush]
  simp only [hheld', Bool.false_eq_true, if_false, ← hu', hend, if_true]

end

end Sys2Proof.Machine
end

section
/-! Copies and fills by the words themselves (R215, R218 to R222). -/

namespace Sys2Proof.Machine

/-- A word of CP may be performed at once, and its flag set (R214). -/
structure State.MayCp (s : State) (f : BitVec 8) (r : FlagRef) : Prop where
  free : s.Free .cp
  idle : s.Idle
  waiters : s.waiters = []
  flag : flagRef s.cur (s.thr s.cur).cid (s.thr s.cur).live.gsel f = some r
  group : r.group = true → (s.thr s.cur).lines = [] ∧ s.allAcked s.cur = true
  deps : ((s.thr s.cur).ver (s.thr s.cur).curVer.id).deps = []
  scores : ∀ p ∈ s.threads, p.2.scores = []
  wf : (s.thr s.cur).scratch.wf = true

/-- A word of CP has ended: its queue is empty again, the sequencer stands at the next word, no register has changed, nor HBM or host memory, and its flag
has taken 1. -/
def State.EndsCp (s : State) (f : BitVec 8) (r : FlagRef) (u : State) : Prop :=
  (s.Ran .cp u ∧ (u.thr s.cur).live.x = (s.thr s.cur).live.x ∧ (u.thr s.cur).live.pc = (s.thr s.cur).live.next.pc ∧ u.hbm = s.hbm ∧ u.host = s.host) ∧
    u.flagVal r = (if f = 0 then 0 else BitVec.ofNat 32 (min ((s.flagVal r).toNat + 1) 0xFFFFFFFF))

section
variable {s : State} {f : BitVec 8} {r : FlagRef} {w : Instr} {ops : List (BitVec 5)} {blocks : List (Space × Nat)} {a b n : Nat}

/-- What the work of an entry makes of the slices and of the own scratch is what its word makes of them. -/
theorem State.MayCp.performs {Q : Memory → Memory → Prop} (h : s.MayCp f r) (hflag : doneFlag w = some f)
    (hroom : ((s.thr s.cur).ver (s.thr s.cur).curVer.id).useKnext + 64 * blocks.length ≤
      s.budgetOf (s.thr s.cur).cid ((s.thr s.cur).ver (s.thr s.cur).curVer.id))
    (hbody : ∀ v : CopyVars, v.Sound s blocks → v.scratch = (s.thr s.cur).scratch → v.staging = s.staging → v.head = s.cpHead w ops →
      s.Does blocks v (cpBody s.cur (s.cpHead w ops)) () fun u => Q u.staging u.scratch) :
    ∃ u, cpWord w ops (some f) s = .next u ∧ s.EndsCp f r u ∧ Q u.staging (u.thr s.cur).scratch := by
  obtain ⟨u, v, hu, hpost, hperf⟩ := cpWord_midCopy h.free h.idle h.waiters h.flag h.group h.deps h.scores hflag
    fun know => hbody _ ((State.sound_cpVars h.wf hroom).knowing know) rfl rfl rfl
  obtain ⟨fl, hbear⟩ := hperf.thr
  have hqueue : (u.thr s.cur).queue .cp = { entries := [], pushed := ((s.thr s.cur).queue .cp).pushed + 1 } := congrArg Bearing.cp hbear
  have hscratch : (u.thr s.cur).scratch = v.scratch := congrArg Bearing.scratch hbear
  refine ⟨u, hu, ⟨⟨⟨congrArg Queue.entries hqueue, congrArg Queue.pushed hqueue, (congrArg Bearing.run hbear).trans h.free.resident⟩, ?_,
    congrArg Bearing.pc hbear, hperf.hbm, hperf.host⟩, hperf.flag⟩, by rwa [hscratch, hperf.staging]⟩
  exact (congrArg Bearing.x hbear).trans (Frame.next_x _)

/-! ## Ranges -/

theorem length_blocksOf (a n : Nat) : 64 * (blocksOf a n).length ≤ n + 126 := by
  unfold blocksOf
  split
  · simp
  · rw [length_countFrom]
    omega

/-- The blocks of a range of a space. -/
def rangeBlocks (sp : Space) (a n : Nat) : List (Space × Nat) := (blocksOf a n).map fun b => (sp, b)

theorem mem_rangeBlocks {sp : Space} {x : Nat} (h : x ∈ blocksOf a n) : (sp, x) ∈ rangeBlocks sp a n := List.mem_map_of_mem h

theorem rangeBlocks_ne_hbm {sp : Space} (hsp : sp ≠ .hbm) : ∀ b ∈ rangeBlocks sp a n, b.1 ≠ .hbm := by
  intro b hb
  obtain ⟨x, -, rfl⟩ := List.mem_map.1 hb
  exact hsp

/-- A version that may write a range and two blocks more may write the blocks of the range. -/
theorem room_rangeBlocks {sp : Space} {use budget : Nat} (h : use + (n + 128) ≤ budget) : use + 64 * (rangeBlocks sp a n).length ≤ budget := by
  have := length_blocksOf a n
  rw [rangeBlocks, List.length_map]
  omega

/-- A range that is not empty lies in the own scratch. -/
theorem State.inScratch_of_range (h : n = 0 ∨ s.OwnScratch a n) (hpos : 0 < n) : s.InScratch (a, n) := by
  obtain ⟨-, hsize, hwin, hpage, -⟩ := h.resolve_left (Nat.ne_of_gt hpos)
  exact ⟨hpos, hsize, hwin, hpage⟩

theorem State.clean_of_range (h : n = 0 ∨ s.OwnScratch a n) (hpos : 0 < n) (c : Nat) : isPoison ((s.thr s.cur).scratch.tag c) = false := by
  obtain ⟨-, -, -, -, -, -, hclean, -⟩ := h.resolve_left (Nat.ne_of_gt hpos)
  exact hclean c

theorem State.small_of_range (h : n = 0 ∨ s.OwnScratch a n) : n ≤ 2097152 := by
  rcases h with rfl | ⟨-, -, hwin, -⟩ <;> omega

/-- A word of CP whose range is not empty may copy. -/
theorem State.MayCp.mayCopy (h : s.MayCp f r) {k : Nat} (hmsc : s.mscUse + k ≤ 7516192768) (hrange : n = 0 ∨ s.OwnScratch a n) (hpos : 0 < n) :
    s.MayCopy := by
  obtain ⟨-, -, -, -, hwatch, -⟩ := hrange.resolve_left (Nat.ne_of_gt hpos)
  exact ⟨h.free.alive, h.free.slot, h.free.hits, hwatch, h.scores, by omega⟩

/-- The flat address of an aligned place in the scratch is as aligned. -/
theorem scratchVa_toNat_mod {m : Nat} (hm : m ∣ 64) (h : a % m = 0) : (scratchVa a).toNat % m = 0 := by
  have h64 : m ∣ 2 ^ 64 := hm.trans (by decide)
  have hbase : m ∣ 0xFE00000000000000 := hm.trans (by decide)
  rw [scratchVa, BitVec.toNat_ofNat, Nat.mod_mod_of_dvd _ h64]
  exact Nat.mod_eq_zero_of_dvd (Nat.dvd_add hbase (Nat.dvd_of_mod_eq_zero h))

end

end Sys2Proof.Machine
end

section
/-! What each copy and fill makes of its destination (R215, R218 to R222). -/

namespace Sys2Proof.Machine

/-- The slices are as they were, a range of the own scratch holds new bytes, and no other byte of it has changed; of its tags there is more to say. -/
def State.Moves (s : State) (a n : Nat) (g : Nat → Byte) (tags : Memory → Prop) (stg m : Memory) : Prop :=
  stg = s.staging ∧ (∀ c, m.byte c = if a ≤ c ∧ c < a + n then g (c - a) else (s.thr s.cur).scratch.byte c) ∧ tags m

/-- The slices are as they were, and so is the own scratch outside a range; of the range there is more to say. -/
def State.Rewrites (s : State) (a n : Nat) (elems : Memory → Prop) (stg m : Memory) : Prop :=
  stg = s.staging ∧ (∀ c, (c < a ∨ a + n ≤ c) → m.byte c = (s.thr s.cur).scratch.byte c) ∧ elems m

/-- The own scratch is as it was, and a range of the slices holds bytes of it. -/
def State.StagesIn (s : State) (a g n : Nat) (stg m : Memory) : Prop :=
  m = (s.thr s.cur).scratch ∧ ∀ c, stg.byte c = if g ≤ c ∧ c < g + n then (s.thr s.cur).scratch.byte (a + (c - g)) else s.staging.byte c

/-- A multiple that lies below another lies below it by a whole step. -/
theorem mul_add_le_of_lt_of_dvd {k i n : Nat} (hi : k * i < n) (hn : k ∣ n) : k * i + k ≤ n := by
  obtain ⟨m, rfl⟩ := hn
  exact Nat.mul_le_mul_left k (Nat.lt_of_mul_lt_mul_left hi)

/-- An element whose bytes have been written is read. -/
theorem CopyVars.Rewrote.readLE {v w : CopyVars} {a n k i : Nat} {E : Nat → Nat}
    (h : v.Rewrote w a (a + n) fun c => BitVec.ofNat 8 (E ((c - a) / k) / 2 ^ (8 * ((c - a) % k)))) (hk : 0 < k) (hE : E i < 2 ^ (8 * k))
    (hi : k * i + k ≤ n) : w.scratch.readLE (a + k * i) k = E i := by
  refine Memory.readLE_of_bytes hE fun e he => ?_
  have hplace : a + k * i + e - a = e + k * i := by omega
  rw [h.byte, if_pos (by omega), hplace, Nat.add_mul_div_left _ _ hk, Nat.add_mul_mod_self_left, Nat.div_eq_of_lt he, Nat.mod_eq_of_lt he, Nat.zero_add]

section
variable {s : State} {xa xb xc : BitVec 5} {f : BitVec 8} {r : FlagRef} {a b n : Nat}

/-- CPL (R215). -/
theorem cpl_performs (h : s.MayCp f r) (ha : ((s.thr s.cur).rx xa).val = scratchVa a) (hb : ((s.thr s.cur).rx xb).val = scratchVa b)
    (hn : ((s.thr s.cur).rx xc).val.toNat = n) (hA : n = 0 ∨ s.OwnScratch a n) (hB : n = 0 ∨ s.OwnScratch b n) (hmay : s.MayWrite (n + 128)) :
    ∃ u, exec (.cpl xa xb xc f) s = .next u ∧ s.EndsCp f r u ∧ s.Moves a n (fun i => (s.thr s.cur).scratch.byte (b + i)) (fun m =>
      a % 64 = 0 → b % 64 = 0 → n % 64 = 0 → ∀ j, 64 * j < n → m.tag (a + 64 * j) = (s.thr s.cur).scratch.tag (b + 64 * j))
      u.staging (u.thr s.cur).scratch := by
  obtain ⟨hbudget, hmsc⟩ := hmay
  have hsmall := State.small_of_range hA
  refine h.performs (blocks := rangeBlocks (.scratch s.cur) a n) (w := .cpl xa xb xc f) (ops := [xa, xb, xc]) rfl (room_rangeBlocks hbudget)
    fun v hv hscratch hstaging hhead => ?_
  have hentry := cplEntry_midCopy (q := s.cpHead (.cpl xa xb xc f) [xa, xb, xc]) h.free.hits (h.mayCopy hmsc hA) hv State.of_cpHead (by rw [hhead]; rfl)
    (by rw [hhead]; rfl) ha hb hn (by omega) (fun hpos => ⟨State.inScratch_of_range hA hpos, State.inScratch_of_range hB hpos,
      hscratch ▸ State.clean_of_range hA hpos⟩) (fun _ => mem_rangeBlocks) (rangeBlocks_ne_hbm Space.noConfusion)
  refine hentry.mono fun u _ hu => ?_
  rw [State.Moves, ← hscratch]
  refine ⟨hu.other.trans hstaging, hu.byte, fun ha hb hn j hj => ?_⟩
  refine ((hu.tag ⟨ha, hb, hn⟩).2 (a + 64 * j) (by omega)).trans ?_
  rw [if_pos (by omega), Nat.add_sub_cancel_left]

/-- CPFILL (R220). -/
theorem cpfill_performs {z : Size} (h : s.MayCp f r) (ha : ((s.thr s.cur).rx xa).val = scratchVa a) (hn : ((s.thr s.cur).rx xc).val.toNat = n)
    (hA : n = 0 ∨ s.OwnScratch a n) (hmay : s.MayWrite (n + 128)) (haz : a % sizeBytes z = 0) (hnz : n % sizeBytes z = 0) :
    ∃ u, exec (.cpfill xa xb xc z f) s = .next u ∧ s.EndsCp f r u ∧
      s.Moves a n (fun i => BitVec.ofNat 8 (((s.thr s.cur).rx xb).val.toNat / 2 ^ (8 * (i % sizeBytes z))))
      (fun m => a % 64 = 0 → n % 64 = 0 → ∀ j, 64 * j < n → m.tag (a + 64 * j) = 0) u.staging (u.thr s.cur).scratch := by
  obtain ⟨hbudget, hmsc⟩ := hmay
  have hsmall := State.small_of_range hA
  have hva : (scratchVa a).toNat % sizeBytes z = 0 := scratchVa_toNat_mod (by cases z <;> decide) haz
  refine h.performs (blocks := rangeBlocks (.scratch s.cur) a n) (w := .cpfill xa xb xc z f) (ops := [xa, xb, xc]) rfl (room_rangeBlocks hbudget)
    fun v hv hscratch hstaging hhead => ?_
  have hentry := cpfillEntry_midCopy (q := s.cpHead (.cpfill xa xb xc z f) [xa, xb, xc]) h.free.hits (h.mayCopy hmsc hA) hv State.of_cpHead
    (by rw [hhead]; rfl) (by rw [hhead]; rfl) ha hn (by omega) ⟨hva, hnz⟩ (State.inScratch_of_range hA) (fun _ => mem_rangeBlocks)
    (rangeBlocks_ne_hbm Space.noConfusion)
  refine hentry.mono fun u _ hu => ?_
  rw [State.Moves, ← hscratch]
  refine ⟨hu.other.trans hstaging, hu.byte, fun ha hn j hj => ?_⟩
  refine ((hu.tag ⟨ha, hn⟩).2 (a + 64 * j) (by omega)).trans ?_
  rw [if_pos (by omega)]

/-- The blocks of CPTAG lie apart, in the own scratch (R221). -/
theorem tagsAt_of_ranges {v : CopyVars} {k : Nat} (hscratch : v.scratch = (s.thr s.cur).scratch) (ha : a % 64 = 0) (hA : 64 * k = 0 ∨ s.OwnScratch a (64 * k))
    (hB : 64 * k = 0 ∨ s.OwnScratch b (64 * k)) (hapart : a + 64 * k ≤ b ∨ b + 64 * k ≤ a) :
    TagsAt s v (rangeBlocks (.scratch s.cur) a (64 * k)) a b k := by
  have hsmall := State.small_of_range hA
  exact ⟨ha, by omega, fun hk => State.inScratch_of_range hA (by omega), fun hk => State.inScratch_of_range hB (by omega), hapart,
    fun hk => hscratch ▸ State.clean_of_range hA (by omega), fun _ => mem_rangeBlocks, rangeBlocks_ne_hbm Space.noConfusion⟩

/-- What CPTAG has copied and tagged. -/
theorem moves_of_taggedTo {v u : CopyVars} {k : Nat} {T : Nat → W32} (hscratch : v.scratch = (s.thr s.cur).scratch) (hstaging : v.staging = s.staging)
    (ha : a % 64 = 0) (hu : v.TaggedTo u a b T (64 * k)) :
    s.Moves a (64 * k) (fun i => (s.thr s.cur).scratch.byte (b + i)) (fun m => ∀ j, j < k → m.tag (a + 64 * j) = T j) u.staging u.scratch := by
  rw [State.Moves, ← hscratch]
  refine ⟨hu.other.trans hstaging, hu.byte, fun j hj => ((hu.tag trivial).2 (a + 64 * j) (by omega)).trans ?_⟩
  rw [if_pos (by omega)]
  congr 1
  omega

/-- CPTAG with one tag (R221). -/
theorem cptag_one_performs {k : Nat} (h : s.MayCp f r) (ha : ((s.thr s.cur).rx xa).val = scratchVa a) (hb : ((s.thr s.cur).rx xb).val = scratchVa b)
    (hk : ((s.thr s.cur).rx xc).val.toNat / 2 ^ 32 = k) (ha64 : a % 64 = 0) (hA : 64 * k = 0 ∨ s.OwnScratch a (64 * k))
    (hB : 64 * k = 0 ∨ s.OwnScratch b (64 * k)) (hapart : a + 64 * k ≤ b ∨ b + 64 * k ≤ a) (hmay : s.MayWrite (64 * k + 128)) :
    ∃ u, exec (.cptag xa xb xc false f) s = .next u ∧ s.EndsCp f r u ∧ s.Moves a (64 * k) (fun i => (s.thr s.cur).scratch.byte (b + i))
      (fun m => ∀ j, j < k → m.tag (a + 64 * j) = ((s.thr s.cur).rx xc).val.setWidth 32) u.staging (u.thr s.cur).scratch := by
  obtain ⟨hbudget, hmsc⟩ := hmay
  refine h.performs (blocks := rangeBlocks (.scratch s.cur) a (64 * k)) (w := .cptag xa xb xc false f) (ops := [xa, xb, xc]) rfl (room_rangeBlocks hbudget)
    fun v hv hscratch hstaging hhead => ?_
  exact (cptagEntry_one_midCopy (q := s.cpHead (.cptag xa xb xc false f) [xa, xb, xc]) h.free.hits (fun hpos => h.mayCopy hmsc hA (by omega)) hv
    State.of_cpHead (by rw [hhead]; rfl) (by rw [hhead]; rfl) ha hb hk (tagsAt_of_ranges hscratch ha64 hA hB hapart)
    (scratchVa_toNat_mod (dvd_refl 64) ha64)).mono fun u _ hu => moves_of_taggedTo hscratch hstaging ha64 hu

/-- CPTAG with the tags of a list (R221). -/
theorem cptag_list_performs {k o : Nat} (h : s.MayCp f r) (ha : ((s.thr s.cur).rx xa).val = scratchVa a) (hb : ((s.thr s.cur).rx xb).val = scratchVa b)
    (hc : ((s.thr s.cur).rx xc).val = scratchVa o) (hk : (s.thr s.cur).scratch.readLE o 4 = k) (ho : o % 4 = 0) (hO : s.OwnScratch o (4 + 4 * k))
    (ha64 : a % 64 = 0) (hA : 64 * k = 0 ∨ s.OwnScratch a (64 * k)) (hB : 64 * k = 0 ∨ s.OwnScratch b (64 * k))
    (hapart : a + 64 * k ≤ b ∨ b + 64 * k ≤ a) (hapartO : a + 64 * k ≤ o ∨ o + (4 + 4 * k) ≤ a) (hmay : s.MayWrite (64 * k + 128)) :
    ∃ u, exec (.cptag xa xb xc true f) s = .next u ∧ s.EndsCp f r u ∧ s.Moves a (64 * k) (fun i => (s.thr s.cur).scratch.byte (b + i))
      (fun m => ∀ j, j < k → m.tag (a + 64 * j) = BitVec.ofNat 32 ((s.thr s.cur).scratch.readLE (o + 4 + 4 * j) 4)) u.staging (u.thr s.cur).scratch := by
  obtain ⟨hbudget, hmsc⟩ := hmay
  have hlist : 4 + 4 * k = 0 ∨ s.OwnScratch o (4 + 4 * k) := .inr hO
  have hpos : 0 < 4 + 4 * k := by omega
  refine h.performs (blocks := rangeBlocks (.scratch s.cur) a (64 * k)) (w := .cptag xa xb xc true f) (ops := [xa, xb, xc]) rfl (room_rangeBlocks hbudget)
    fun v hv hscratch hstaging hhead => ?_
  refine (cptagEntry_list_midCopy (q := s.cpHead (.cptag xa xb xc true f) [xa, xb, xc]) (h.mayCopy hmsc hlist hpos) hv
    State.of_cpHead (by rw [hhead]; rfl) (by rw [hhead]; rfl) rfl ha hb hc (tagsAt_of_ranges hscratch ha64 hA hB hapart)
    (scratchVa_toNat_mod (dvd_refl 64) ha64) ⟨State.inScratch_of_range hlist hpos, ho, hapartO, hscratch ▸ State.clean_of_range hlist hpos,
      by rw [hscratch, hk]⟩).mono fun u _ hu => ?_
  rw [hscratch] at hu
  exact moves_of_taggedTo (v := v.keeping [BitVec.ofNat 64 k]) hscratch hstaging ha64 hu

/-- CPRED (R219). -/
theorem cpred_performs {ty : RedTy} (h : s.MayCp f r) (ha : ((s.thr s.cur).rx xa).val = scratchVa a) (hb : ((s.thr s.cur).rx xb).val = scratchVa b)
    (hn : ((s.thr s.cur).rx xc).val.toNat = n) (hwhole : n % redBytes ty = 0) (haw : a % redBytes ty = 0) (hbw : b % redBytes ty = 0)
    (hA : n = 0 ∨ s.OwnScratch a n) (hB : n = 0 ∨ s.OwnScratch b n) (hapart : a + n ≤ b ∨ b + n ≤ a) (hmay : s.MayWrite (n + 128)) :
    ∃ u, exec (.cpred xa xb xc ty f) s = .next u ∧ s.EndsCp f r u ∧ s.Rewrites a n (fun m => ∀ i, redBytes ty * i < n →
      m.readLE (a + redBytes ty * i) (redBytes ty) = redSum ty ((s.thr s.cur).scratch.readLE (a + redBytes ty * i) (redBytes ty))
        ((s.thr s.cur).scratch.readLE (b + redBytes ty * i) (redBytes ty))) u.staging (u.thr s.cur).scratch := by
  obtain ⟨hbudget, hmsc⟩ := hmay
  have hsmall := State.small_of_range hA
  have hdvd : redBytes ty ∣ 64 := by cases ty <;> decide
  refine h.performs (blocks := rangeBlocks (.scratch s.cur) a n) (w := .cpred xa xb xc ty f) (ops := [xa, xb, xc]) rfl (room_rangeBlocks hbudget)
    fun v hv hscratch hstaging hhead => ?_
  have hentry := cpredEntry_midCopy (q := s.cpHead (.cpred xa xb xc ty f) [xa, xb, xc]) h.free.hits (h.mayCopy hmsc hA) hv State.of_cpHead
    (by rw [hhead]; rfl) ha hb hn ⟨⟨hwhole, scratchVa_toNat_mod hdvd haw, scratchVa_toNat_mod hdvd hbw⟩, by omega,
      fun hpos => ⟨State.inScratch_of_range hA hpos, State.inScratch_of_range hB hpos⟩, hapart, fun _ => mem_rangeBlocks,
      rangeBlocks_ne_hbm Space.noConfusion⟩
  refine hentry.mono fun u _ hu => ?_
  rw [State.Rewrites, ← hscratch]
  refine ⟨hu.staging.trans hstaging, fun c hc => by rw [hu.byte, if_neg (by omega)], fun i hi => ?_⟩
  exact hu.readLE (E := fun i => redSum ty (v.scratch.readLE (a + redBytes ty * i) (redBytes ty)) (v.scratch.readLE (b + redBytes ty * i) (redBytes ty)))
    (redBytes_pos ty) (redSum_lt _ _ _) (mul_add_le_of_lt_of_dvd hi (Nat.dvd_of_mod_eq_zero hwhole))

/-- CPCONV (R222). -/
theorem cpconv_performs {x k : Nat} {st dt : Ty} (h : s.MayCp f r) (ha : ((s.thr s.cur).rx xa).val = scratchVa a)
    (hb : ((s.thr s.cur).rx xb).val = scratchVa b) (hx : ((s.thr s.cur).rx xc).val.toNat = x) (hk : x % 2 ^ 32 = k)
    (hst : Ty.ofCode? (x / 2 ^ 32 % 16) = some st) (hdt : Ty.ofCode? (x / 2 ^ 36 % 16) = some dt) (hrm : x / 2 ^ 40 % 8 < 5) (hx44 : x < 2 ^ 44)
    (hsq4 : st ≠ .sq4) (hsw : st.width % 8 = 0) (hdw : dt.width % 8 = 0)
    (htags : st.fmtCode? = none ∨ ∀ j, 64 * j < k * st.width / 8 → (s.thr s.cur).scratch.tag (b + 64 * j) = 0) (ha64 : a % 64 = 0) (hb64 : b % 64 = 0)
    (hA : k * dt.width / 8 = 0 ∨ s.OwnScratch a (k * dt.width / 8)) (hB : k * st.width / 8 = 0 ∨ s.OwnScratch b (k * st.width / 8))
    (hapart : a + k * dt.width / 8 ≤ b ∨ b + k * st.width / 8 ≤ a) (hmay : s.MayWrite (k * dt.width / 8 + 128)) :
    ∃ u, exec (.cpconv xa xb xc f) s = .next u ∧ s.EndsCp f r u ∧ s.Rewrites a (k * dt.width / 8) (fun m => ∀ i, i < k →
      m.readLE (a + i * (dt.width / 8)) (dt.width / 8) = convCode st dt (RM.ofCode (x / 2 ^ 40 % 8)) (decide (x / 2 ^ 43 % 2 = 1))
        ((s.thr s.cur).scratch.readLE (b + i * (st.width / 8)) (st.width / 8))) u.staging (u.thr s.cur).scratch := by
  obtain ⟨hbudget, hmsc⟩ := hmay
  have hsmall := State.small_of_range hA
  obtain ⟨hdb, hdpos, -⟩ := Ty.width_bytes hdw
  refine h.performs (blocks := rangeBlocks (.scratch s.cur) a (k * dt.width / 8)) (w := .cpconv xa xb xc f) (ops := [xa, xb, xc]) rfl
    (room_rangeBlocks hbudget) fun v hv hscratch hstaging hhead => ?_
  have hclean (c : Nat) (hlo : b ≤ c) (hhi : c < b + k * st.width / 8) :
      isPoison (v.scratch.tag c) = false ∧ (st.fmtCode? = none ∨ v.scratch.tag c = 0) := by
    rw [hscratch]
    refine ⟨State.clean_of_range hB (by omega) c, htags.imp_right fun h => ?_⟩
    have hblock := Memory.tag_block (s.thr s.cur).scratch (off := c - b) hb64
    rw [Nat.add_sub_of_le hlo, Nat.mul_comm] at hblock
    rw [hblock]
    exact h _ (by omega)
  have hentry := cpconvEntry_midCopy (q := s.cpHead (.cpconv xa xb xc f) [xa, xb, xc]) h.free.hits (h.mayCopy hmsc hA) hv State.of_cpHead
    (by rw [hhead]; rfl) ha hb (hk ▸ convFields_of_toNat hx hst hdt hrm hx44) hsq4 hsw hdw
    ⟨scratchVa_toNat_mod (dvd_refl 64) ha64, scratchVa_toNat_mod (dvd_refl 64) hb64⟩
    ⟨by omega, ⟨ha64, hb64⟩, State.inScratch_of_range hA, State.inScratch_of_range hB, hapart, hclean, fun _ => mem_rangeBlocks,
      rangeBlocks_ne_hbm Space.noConfusion⟩
  refine hentry.mono fun u _ hu => ?_
  rw [State.Rewrites, ← hscratch]
  refine ⟨hu.staging.trans hstaging, fun c hc => by rw [hu.byte, if_neg (by omega)], fun i hi => ?_⟩
  rw [Nat.mul_comm i, Nat.mul_comm i]
  refine hu.readLE (E := fun i => convCode st dt (RM.ofCode (x / 2 ^ 40 % 8)) (decide (x / 2 ^ 43 % 2 = 1))
    (v.scratch.readLE (b + st.width / 8 * i) (st.width / 8))) hdpos ?_ ?_
  · rw [← hdb]
    exact convCode_lt ..
  · rw [Ty.bytes_eq hdw]
    exact Nat.mul_le_mul_left (dt.width / 8) hi

/-- The extent of the slices that a context holds covers the range of CPSTG. -/
theorem stagesAt_of_range {sp : Space} {out : Bool} {g : Nat} {e : List W64} {y : W64} (hsp : sp = s.side (!out)) (hne : sp ≠ .hbm)
    (hA : n = 0 ∨ s.OwnScratch a n) (hwf : s.staging.wf = true)
    (hslice : g % 8388608 + n ≤ 8388608) (he : (s.ctx (s.thr s.cur).cid).staging = [e]) (hy : e.head? = some y) (hlo : (extentOf y).1 ≤ g)
    (hhi : g + n ≤ (extentOf y).1 + (extentOf y).2) : StagesAt s (rangeBlocks sp (if out then a else g) n) out a g n :=
  ⟨State.inScratch_of_range hA, fun _ hb => hsp ▸ mem_rangeBlocks hb, rangeBlocks_ne_hbm hne, hwf, hslice, e, y, he, hy, hlo, hhi⟩

/-- CPSTG out of a slice (R218). -/
theorem cpstg_out_performs {x g : Nat} {e : List W64} {y : W64} (h : s.MayCp f r) (ha : ((s.thr s.cur).rx xa).val = scratchVa a)
    (hx : ((s.thr s.cur).rx xb).val.toNat = x) (hn : ((s.thr s.cur).rx xc).val.toNat = n) (hname : x / 2 ^ 23 % 16 < 12 ∧ x < 2 ^ 30)
    (hg : g = (x / 2 ^ 27 % 8 * 12 + x / 2 ^ 23 % 16) * 8388608 + x % 8388608) (hA : n = 0 ∨ s.OwnScratch a n) (hwf : s.staging.wf = true)
    (hslice : x % 8388608 + n ≤ 8388608) (he : (s.ctx (s.thr s.cur).cid).staging = [e]) (hy : e.head? = some y) (hlo : (extentOf y).1 ≤ g)
    (hhi : g + n ≤ (extentOf y).1 + (extentOf y).2) (hmay : s.MayWrite (n + 128)) :
    ∃ u, exec (.cpstg xa xb xc true f) s = .next u ∧ s.EndsCp f r u ∧ s.Moves a n (fun i => s.staging.byte (g + i)) (fun _ => True)
      u.staging (u.thr s.cur).scratch := by
  obtain ⟨hbudget, hmsc⟩ := hmay
  have hsmall := State.small_of_range hA
  refine h.performs (blocks := rangeBlocks (.scratch s.cur) a n) (w := .cpstg xa xb xc true f) (ops := [xa, xb, xc]) rfl (room_rangeBlocks hbudget)
    fun v hv hscratch hstaging hhead => ?_
  have hentry := cpstgEntry_midCopy (q := s.cpHead (.cpstg xa xb xc true f) [xa, xb, xc]) h.free.hits (h.mayCopy hmsc hA) hv State.of_cpHead
    (by rw [hhead]; rfl) ha hx hn (by omega) hname hg (stagesAt_of_range (out := true) rfl Space.noConfusion hA hwf (by omega) he hy hlo hhi)
  refine hentry.mono fun u _ hu => ?_
  rw [State.Moves, ← hscratch, ← hstaging]
  exact ⟨hu.other, hu.byte, trivial⟩

/-- CPSTG into a slice (R218). -/
theorem cpstg_in_performs {x g : Nat} {e : List W64} {y : W64} (h : s.MayCp f r) (ha : ((s.thr s.cur).rx xa).val = scratchVa a)
    (hx : ((s.thr s.cur).rx xb).val.toNat = x) (hn : ((s.thr s.cur).rx xc).val.toNat = n) (hname : x / 2 ^ 23 % 16 < 12 ∧ x < 2 ^ 30)
    (hg : g = (x / 2 ^ 27 % 8 * 12 + x / 2 ^ 23 % 16) * 8388608 + x % 8388608) (hA : n = 0 ∨ s.OwnScratch a n) (hwf : s.staging.wf = true)
    (hslice : x % 8388608 + n ≤ 8388608) (he : (s.ctx (s.thr s.cur).cid).staging = [e]) (hy : e.head? = some y) (hlo : (extentOf y).1 ≤ g)
    (hhi : g + n ≤ (extentOf y).1 + (extentOf y).2) (hmay : s.MayWrite (n + 128)) :
    ∃ u, exec (.cpstg xa xb xc false f) s = .next u ∧ s.EndsCp f r u ∧ s.StagesIn a g n u.staging (u.thr s.cur).scratch := by
  obtain ⟨hbudget, hmsc⟩ := hmay
  have hsmall := State.small_of_range hA
  refine h.performs (blocks := rangeBlocks .staging g n) (w := .cpstg xa xb xc false f) (ops := [xa, xb, xc]) rfl (room_rangeBlocks hbudget)
    fun v hv hscratch hstaging hhead => ?_
  have hentry := cpstgEntry_midCopy (q := s.cpHead (.cpstg xa xb xc false f) [xa, xb, xc]) h.free.hits (h.mayCopy hmsc hA) hv State.of_cpHead
    (by rw [hhead]; rfl) ha hx hn (by omega) hname hg (stagesAt_of_range (out := false) rfl Space.noConfusion hA hwf (by omega) he hy hlo hhi)
  refine hentry.mono fun u _ hu => ?_
  rw [State.StagesIn, ← hscratch, ← hstaging]
  exact ⟨hu.other, hu.byte⟩

end

end Sys2Proof.Machine
end

section
/-! The copies and fills, settled (R214, R215, R218 to R222). -/

namespace Sys2Proof
open Machine

/-- Settles O43: a word of CP that may run is pushed into its empty queue, its entry copies chunk by chunk (each chunk's checks pass, and what is written
is what the chunk's sources held when the word began), and the entry then adds 1 to its flag and leaves the queue. -/
theorem copiesAndFills : Obligations.CopiesAndFills := by
  unfold Obligations.CopiesAndFills
  intro s xa xb xc f r z ty a b o hfree hidle hwait t hflag hgroup hdeps hscores hwf n signals ends new done range apart ha
  have h : s.MayCp f r := ⟨hfree, hidle, hwait, hflag, hgroup, hdeps, hscores, hwf⟩
  refine ⟨fun hb hA hB hmay => ?_, fun hA hmay haz hnz => ?_, fun hb ha64 hA hB hapart hmay => ?_, fun hb hc ho hO ha64 hA hB hapart hapartO hmay => ?_,
    fun hb hn haw hbw hA hB hapart hmay => ?_, fun e w he hw hunit hsmall hslice hlo hhi hA hwfS hbudget hmsc => ⟨?_, ?_⟩,
    fun st dt hsq4 hsw hdw hst hdt hrm hx htags ha64 hb64 hb hA hB hapart hmay => ?_⟩
  · obtain ⟨u, hu, ⟨hends, hsig⟩, hmoves⟩ := cpl_performs h ha hb rfl hA hB hmay
    exact ⟨u, hu, hends, hsig, hmoves⟩
  · obtain ⟨u, hu, ⟨hends, hsig⟩, hmoves⟩ := cpfill_performs h ha rfl hA hmay haz hnz
    exact ⟨u, hu, hends, hsig, hmoves⟩
  · obtain ⟨u, hu, ⟨hends, hsig⟩, hmoves⟩ := cptag_one_performs h ha hb rfl ha64 hA hB hapart hmay
    exact ⟨u, hu, hends, hsig, hmoves⟩
  · obtain ⟨u, hu, ⟨hends, hsig⟩, hmoves⟩ := cptag_list_performs h ha hb hc rfl ho hO ha64 hA hB hapart hapartO hmay
    exact ⟨u, hu, hends, hsig, hmoves⟩
  · obtain ⟨u, hu, ⟨hends, hsig⟩, hrewrites⟩ := cpred_performs h ha hb rfl hn haw hbw hA hB hapart hmay
    exact ⟨u, hu, hends, hsig, hrewrites⟩
  · obtain ⟨u, hu, ⟨hends, hsig⟩, hstaging, hbytes, -⟩ :=
      cpstg_out_performs h ha rfl rfl ⟨hunit, hsmall⟩ rfl hA hwfS hslice he hw hlo hhi ⟨hbudget, hmsc⟩
    exact ⟨u, hu, hends, hsig, hstaging, hbytes⟩
  · obtain ⟨u, hu, ⟨hends, hsig⟩, hstages⟩ := cpstg_in_performs h ha rfl rfl ⟨hunit, hsmall⟩ rfl hA hwfS hslice he hw hlo hhi ⟨hbudget, hmsc⟩
    exact ⟨u, hu, hends, hsig, hstages⟩
  · obtain ⟨u, hu, ⟨hends, hsig⟩, hrewrites⟩ := cpconv_performs h ha hb rfl rfl hst hdt hrm hx hsq4 hsw hdw htags ha64 hb64 hA hB hapart hmay
    exact ⟨u, hu, hends, hsig, hrewrites⟩

end Sys2Proof
end
